-- ==== Sys2Proof/Word.lean ====
section
/-! DEFINITION. Words, masks, sparse maps in canonical form: the plainest data the model is built from. -/

namespace Sys2Proof

/-- A register word, an instruction word, a code offset (R5, R57). -/
abbrev Word := BitVec 32

/-- The smallest addressable unit of every memory level. -/
abbrev Byte := BitVec 8

/-- A lane mask: bit `i` stands for lane `i` (R8). -/
abbrev Mask := BitVec 32

/-- Where a poisoned word came from (R357): 0 memory or ECC error or permission failure, 1 host link,
2 peer link, 3 a page fault parked too long. -/
abbrev Origin := BitVec 2

/-- A sparse map from numbers to values: keys strictly rising, and no entry equal to the value that an
unlisted key reads as. -/
abbrev FMap (α : Type) := List (Nat × α)

/-- Byte memory as pairs of address and byte, in the same canonical form. -/
abbrev Memory := List Host.Cell

end Sys2Proof
end

