-- ==== Sys2Proof/Config.lean ====
section
/-! DEFINITION. What the spec leaves to the device: free values, which have no body, so that nothing can be proved
of their values. -/

namespace Sys2Proof.Config

open Sys2Proof

/-- The value an approximate function returns for an input (R121): the function's number and the operand. The model
takes it where it lies within the bound of Table 5-2, and the correctly rounded result elsewhere (log 7). -/
opaque approxPick : Nat → Word → Word

/-- A fresh unstated word, one for each value of the counter `fresh` of the state. -/
opaque freeWord : Nat → Word

/-- The bits of a word that poison has replaced (R81 gives it no value): the cycle and the place of the poisoning. -/
opaque poisonBits : Nat → Nat → Word

/-- A byte of a deduplication set in the layout of its home unit, at a cycle and an address (R291, R304). -/
opaque setByte : Nat → Nat → Byte

/-- What a tray's unit says of a key after stores into its deduplication set (R304): by the number of those stores, the number of
records and duplicates so far, and the key; none for a key that no store has touched. -/
opaque keyAnswer : Nat → Nat → Word → Option Bool

/-- SHAKE256 with 512 bits of output (R400, R402), as a function of the bytes hashed. -/
opaque shake256 : List Byte → List Byte

/-- The Ed448 signature of a digest by the device identity key (R402), which rests on the fused seed and on the life-cycle
state, by its number. -/
opaque sign : Nat → List Byte → List Byte

/-- The argument area of a mailbox command, as bytes: the spec gives its layout to firmware (R399, R402). By command code
and the numbers the argument holds. -/
opaque argument : Nat → List Nat → List Byte

/-- Results beyond the first that a raster unit's buffer holds for a chunk (R333): the manual names the buffer and no size (log 60). -/
opaque resultRoom : Nat

end Sys2Proof.Config
end

