-- ==== Sys2Proof/Machine/Bits.lean ====
section
/-! DEFINITION. Lane masks, sparse maps, byte memory and bit-field helpers. -/

namespace Sys2Proof

/-- The lanes of a group, ascending (R9). -/
def lanes : List Nat := List.range 32

/-- Lane `l` is in mask `m`. -/
def Mask.has (m : Mask) (l : Nat) : Bool := m.getLsbD l

/-- The lanes of a mask, ascending (R9). -/
def Mask.lanes (m : Mask) : List Nat := Sys2Proof.lanes.filter (fun l => m.getLsbD l)

/-- The mask of one lane. -/
def Mask.one (l : Nat) : Mask := 1#32 <<< l

/-- The mask of the lanes that satisfy `f`. -/
def Mask.ofFn (f : Nat → Bool) : Mask :=
  Sys2Proof.lanes.foldl (fun m l => if f l then m ||| Mask.one l else m) 0#32

/-- How many lanes a mask holds. -/
def Mask.count (m : Mask) : Nat := m.lanes.length

/-- The lowest lane of a mask, 0 for the empty mask. -/
def Mask.lowest (m : Mask) : Nat := m.lanes.headD 0

/-- The value at key `k`. -/
def FMap.get {α : Type} (d : α) : FMap α → Nat → α
  | [], _ => d
  | (k', v) :: m, k => if k = k' then v else FMap.get d m k

/-- The map without key `k`. -/
def FMap.erase {α : Type} (m : FMap α) (k : Nat) : FMap α := m.filter (fun x => decide (x.1 ≠ k))

/-- Inserting an entry before the first greater key. -/
def FMap.insert {α : Type} : FMap α → Nat → α → FMap α
  | [], k, v => [(k, v)]
  | (k', v') :: m, k, v => if k < k' then (k, v) :: (k', v') :: m else (k', v') :: FMap.insert m k v

/-- The map with key `k` set to `v`; setting the default removes the entry. -/
def FMap.set {α : Type} [DecidableEq α] (d : α) (m : FMap α) (k : Nat) (v : α) : FMap α :=
  if v = d then m.erase k else (m.erase k).insert k v

/-- Every key of the map is at least `lo`, keys rise strictly, and no value is the default. -/
def FMap.wfFrom {α : Type} [DecidableEq α] (d : α) : Nat → FMap α → Bool
  | _, [] => true
  | lo, (k, v) :: m => decide (lo ≤ k) && decide (v ≠ d) && FMap.wfFrom d (k + 1) m

/-- The canonical form: equal maps are equal lists. -/
def FMap.wf {α : Type} [DecidableEq α] (d : α) (m : FMap α) : Bool := FMap.wfFrom d 0 m

/-- Clearing (R403) zeroes HBM, the chip scratchpad and every store before any agent can read them, and
R40 zeroes scratch at block start, so a byte that nothing has written reads 0. -/
def memDefault : Byte := 0#8

/-- Reading one byte. -/
def Memory.read (m : Memory) (a : Nat) : Byte := FMap.get memDefault m a

/-- Writing one byte. -/
def Memory.write (m : Memory) (a : Nat) (b : Byte) : Memory := FMap.set memDefault m a b

/-- The canonical form of a memory. -/
def Memory.wf (m : Memory) : Bool := FMap.wf memDefault m

/-- The element of a list at an index, or a default. -/
def nth {α : Type} (l : List α) (i : Nat) (d : α) : α := (l[i]?).getD d

/-- A list with the element at an index replaced. -/
def setNth {α : Type} : List α → Nat → α → List α
  | [], _, _ => []
  | _ :: l, 0, x => x :: l
  | y :: l, i + 1, x => y :: setNth l i x

/-- Sign-extending an 8-bit immediate (R8, R98). -/
def sext8 (i : BitVec 8) : Word := i.signExtend 32

/-- Zero-extending an 8-bit immediate (R8, R98). -/
def zext8 (i : BitVec 8) : Word := i.zeroExtend 32

end Sys2Proof
end

