-- ==== Sys2Proof/Syntax.lean ====
section
/-! DEFINITION. The syntax: operand forms, selectors, and one constructor of `Instr` per row of
spec/opcode_table.json. The first 185 rows are instruction words of seven classes (R83, R96); the others
are the device's own steps and the outside world's actions, with the arguments that say which. -/

namespace Sys2Proof

/-- The class a clause header names (R83, Table 4-1). -/
inductive Cls where
  | vec | uni | mem | eng | mat | ctl | sys
deriving DecidableEq, Repr

/-- An A or B byte outside UNI and SYS: v0-v127 or s0-s127 (Table 4-5). -/
inductive Src where
  | v (n : BitVec 7)
  | s (n : BitVec 7)
deriving DecidableEq, Repr

/-- A UNI source: s0-s159, or the byte 0xF0 that reads zero (Table 4-5). -/
inductive USrc where
  | reg (n : BitVec 8)
  | zero
deriving DecidableEq, Repr

/-- A SYS source: h0-h15 or s0-s127 (Table 4-5). -/
inductive SysSrc where
  | h (n : BitVec 4)
  | s (n : BitVec 7)
deriving DecidableEq, Repr

/-- IADD and ISUB forms (Table 4-6). -/
inductive AddMode where
  | wrap | sat | satn
deriving DecidableEq, Repr

/-- IMUL and SMUL forms. -/
inductive MulMode where
  | low | hi | hin
deriving DecidableEq, Repr

/-- Combine of a predicate result. -/
inductive Comb where
  | set | and | or
deriving DecidableEq, Repr

/-- ICMP conditions. -/
inductive ICond where
  | eq | ne | lt | le | gt | ge
deriving DecidableEq, Repr

/-- FCMP conditions (Table 6-3). -/
inductive FCond where
  | eq | ne | lt | le | gt | ge | un | ord
deriving DecidableEq, Repr

/-- MOVI forms. -/
inductive MoviForm where
  | zext | sext | b1 | b2 | b3
deriving DecidableEq, Repr

/-- SMOVB3 forms. -/
inductive SmovbForm where
  | b1 | b2 | b3
deriving DecidableEq, Repr

/-- Rounding selector of FP32 instructions (R72, R101). -/
inductive Rnd where
  | gcr | rz | rd | ru
deriving DecidableEq, Repr

/-- FUNA operations (Table 6-4). -/
inductive FunaOp where
  | neg | abs | nabs | sat | frac | floor | ceil | trunc
deriving DecidableEq, Repr

/-- Packed format selector. -/
inductive HFmt where
  | f16 | bf16
deriving DecidableEq, Repr

/-- CVT forms (Table 4-7). -/
inductive CvtForm where
  | iF32 | nF32 | f32I | f32N | f16F32 | bf16F32 | f32F16 | f32Bf16 | f32F16h | f32Bf16h
deriving DecidableEq, Repr

/-- QNT forms. -/
inductive QForm where
  | q8 | q8grain | q4 | q4grain
deriving DecidableEq, Repr

/-- DQNT forms. -/
inductive DqForm where
  | q8 | q4
deriving DecidableEq, Repr

/-- SHFL modes. -/
inductive ShflMode where
  | idx | xor | up | dn
deriving DecidableEq, Repr

/-- Register counts 1, 2, 4, 8. -/
inductive KCount where
  | k1 | k2 | k4 | k8
deriving DecidableEq, Repr

/-- QX operations. -/
inductive QxOp where
  | h | v | d | ddx | ddy
deriving DecidableEq, Repr

/-- GRED operations. -/
inductive GredOp where
  | addI | addF32 | min | max | minN | maxN | and | or
deriving DecidableEq, Repr

/-- SCAN operations. -/
inductive ScanOp where
  | addI | addF32 | min | max
deriving DecidableEq, Repr

/-- SCMP conditions (signed). -/
inductive SCond where
  | eq | ne | lt | le
deriving DecidableEq, Repr

/-- SCMPN conditions (unsigned). -/
inductive SCondN where
  | lt | le | gt | ge
deriving DecidableEq, Repr

/-- The levels SLD, SST, LDLN, AT and CAS reach. -/
inductive Lvl3 where
  | core | clu | chip
deriving DecidableEq, Repr

/-- The four scratch levels (Table 8-1). -/
inductive Lvl where
  | priv | core | clu | chip
deriving DecidableEq, Repr

/-- The two levels of phase-bit barriers. -/
inductive Lvl2 where
  | core | clu
deriving DecidableEq, Repr

/-- Size codes of LD and ST (R105). -/
inductive MemSize where
  | b | bs | h | hs | w | dw | qw
deriving DecidableEq, Repr

/-- AT operations (Table 9-3). -/
inductive AtOp where
  | add | min | max | minN | maxN | and | or | exch
deriving DecidableEq, Repr

/-- Scopes (R211). -/
inductive Scope where
  | grp | core | clu | die | dev | sys
deriving DecidableEq, Repr

/-- FENCE kinds. -/
inductive FKind where
  | acq | rel | ar
deriving DecidableEq, Repr

/-- FATOM operations (R241). -/
inductive FatomOp where
  | addI | addF32 | min | max | minN | maxN | exch | cas
deriving DecidableEq, Repr

/-- TRAY.QRY queries. -/
inductive TrayQ where
  | cnt | free | state
deriving DecidableEq, Repr

/-- TEX filters. -/
inductive TexFilter where
  | point | bil | tri | aniso
deriving DecidableEq, Repr

/-- SSET.QRY queries. -/
inductive SsetQ where
  | state | chunks | depth | excl
deriving DecidableEq, Repr

/-- SRES modes (Table 13-7). -/
inductive SresMode where
  | replace | add | atop | min | max
deriving DecidableEq, Repr

/-- Pass kinds: MMA's FN and the template's KIND (R247, R249). -/
inductive MmaKind where
  | dense | sp | grp
deriving DecidableEq, Repr

/-- Operand map kinds (R251). -/
inductive MapKind where
  | core | clu | hnd
deriving DecidableEq, Repr

/-- Tile shapes. -/
inductive Shape where
  | s256 | s128 | s64
deriving DecidableEq, Repr

/-- MDRAIN forms. -/
inductive DrainForm where
  | stF32 | addF32 | stQ8 | stF16 | stBf16
deriving DecidableEq, Repr

/-- LT.QRY queries. -/
inductive LtQ where
  | gen | cnt | fold
deriving DecidableEq, Repr

/-- BRA conditions. -/
inductive BraCond where
  | always | ifT | ifN
deriving DecidableEq, Repr

/-- RTH actions (Table 19-4). -/
inductive RthForm where
  | fix | skip | retry | kill
deriving DecidableEq, Repr

/-! ### Arguments of the outside world's actions -/

/-- A task-type table entry (Table 21-4), as firmware writes it. -/
structure TaskType where
  vld : Bool
  budget : Nat
  cscr : Nat
  lpriv : Nat
  ntile : Nat
  tshape : Nat
deriving DecidableEq, Repr

/-- What SET_PART gives one partition (Table 21-5), and the firmware-written tables that go with it. -/
structure PartConfig where
  clusters : List Nat          -- cluster list, ascending
  groups : List (Nat × Nat)    -- HBM groups and their schemes (R378)
  chipShare : Nat              -- bytes per slice of the chip scratchpad
  slices : List Nat            -- slice list
  pool : Nat                   -- record pool bytes
  layerT : Nat                 -- layer table size T
  permits : Nat × Nat          -- exposure permits on die 0 and die 1
  trapTable : Nat              -- physical HBM address of the trap table (R358)
  tableRoot : Nat              -- physical HBM address of the root table (R370)
  fqBase : Nat                 -- fault ring placement (R406)
  fqSize : Nat
  ctxPool : Nat                -- context pool (R367), HBM address
  queues : List Nat
  taskTypes : List TaskType    -- 16 entries (R393)
  hostVisible : Bool           -- HBM exposed over CXL.mem (R397)
deriving DecidableEq, Repr

/-- A firmware image as the boot ROM sees it (R400): its bytes, its version, and whether it bears the
vendor's Ed448 signature over its SHAKE256 digest. -/
structure Image where
  bytes : List Byte
  version : Nat
  authentic : Bool
deriving DecidableEq, Repr

/-- Life-cycle states (R403). -/
inductive LifeCycle where
  | manufactured | provisioned | deployed | returned
deriving DecidableEq, Repr

/-- What LINK_STATE reports (R357, R387, R398). -/
inductive LinkReport where
  | hostUp | peerUp (link : BitVec 4)
deriving DecidableEq, Repr

/-- A format window's registers as SET_WINDOW writes them (Table 20-6). -/
structure WindowCfg where
  wctl : BitVec 32
  wnblk : BitVec 32
  wbase : BitVec 64
deriving DecidableEq, Repr

/-- One constructor per row of spec/opcode_table.json. -/
inductive Instr where
  -- VEC, integer and bit operations (R147-R151)
  | iadd (m : AddMode) (d : BitVec 7) (a b : Src)
  | iaddImm (m : AddMode) (d : BitVec 7) (a : Src) (i : BitVec 8)
  | isub (m : AddMode) (d : BitVec 7) (a b : Src)
  | isubImm (m : AddMode) (d : BitVec 7) (a : Src) (i : BitVec 8)
  | imul (m : MulMode) (d : BitVec 7) (a b : Src)
  | imulImm (m : MulMode) (d : BitVec 7) (a : Src) (i : BitVec 8)
  | imad (sat : Bool) (d : BitVec 7) (a b : Src)
  | imadImm (sat : Bool) (d : BitVec 7) (a : Src) (i : BitVec 8)
  | imin (n : Bool) (d : BitVec 7) (a b : Src)
  | iminImm (n : Bool) (d : BitVec 7) (a : Src) (i : BitVec 8)
  | imax (n : Bool) (d : BitVec 7) (a b : Src)
  | imaxImm (n : Bool) (d : BitVec 7) (a : Src) (i : BitVec 8)
  | iabs (sat : Bool) (d : BitVec 7) (a : Src)
  | ineg (sat : Bool) (d : BitVec 7) (a : Src)
  | and (d : BitVec 7) (a b : Src)
  | andImm (d : BitVec 7) (a : Src) (i : BitVec 8)
  | or (d : BitVec 7) (a b : Src)
  | orImm (d : BitVec 7) (a : Src) (i : BitVec 8)
  | xor (d : BitVec 7) (a b : Src)
  | xorImm (d : BitVec 7) (a : Src) (i : BitVec 8)
  | andn (d : BitVec 7) (a b : Src)
  | andnImm (d : BitVec 7) (a : Src) (i : BitVec 8)
  | shl (d : BitVec 7) (a b : Src)
  | shlImm (d : BitVec 7) (a : Src) (i : BitVec 8)
  | shr (arith : Bool) (d : BitVec 7) (a b : Src)
  | shrImm (arith : Bool) (d : BitVec 7) (a : Src) (i : BitVec 8)
  | rotl (d : BitVec 7) (a b : Src)
  | rotlImm (d : BitVec 7) (a : Src) (i : BitVec 8)
  | bfx (s : Bool) (d : BitVec 7) (a b : Src)
  | bfi (d : BitVec 7) (a b : Src)
  | popc (d : BitVec 7) (a : Src)
  | clz (d : BitVec 7) (a : Src)
  | brev (d : BitVec 7) (a : Src)
  | lea (sh : BitVec 2) (d : BitVec 7) (a b : Src)
  | leaImm (sh : BitVec 2) (d : BitVec 7) (a : Src) (i : BitVec 8)
  | add64 (zx : Bool) (d : BitVec 7) (a b : Src)
  | add64Imm (zx : Bool) (d : BitVec 7) (a : Src) (i : BitVec 8)
  | icmp (m : Comb) (c : ICond) (n : Bool) (p : BitVec 3) (a b : Src)
  | icmpImm (m : Comb) (c : ICond) (n : Bool) (p : BitVec 3) (a : Src) (i : BitVec 8)
  | sel (p : BitVec 3) (d : BitVec 7) (a b : Src)
  | movi (f : MoviForm) (d : BitVec 7) (i : BitVec 8)
  | mov (d : BitVec 7) (a : Src)
  | ptov (p : BitVec 3) (d : BitVec 7)
  | vtop (p : BitVec 3) (a : Src)
  -- VEC, floating point and conversions (R152-R161)
  | fadd (r : Rnd) (d : BitVec 7) (a b : Src)
  | fsub (r : Rnd) (d : BitVec 7) (a b : Src)
  | fmul (r : Rnd) (d : BitVec 7) (a b : Src)
  | ffma (r : Rnd) (d : BitVec 7) (a b : Src)
  | ffms (r : Rnd) (d : BitVec 7) (a b : Src)
  | fmin (nan : Bool) (d : BitVec 7) (a b : Src)
  | fmax (nan : Bool) (d : BitVec 7) (a b : Src)
  | fcmp (m : Comb) (c : FCond) (p : BitVec 3) (a b : Src)
  | funa (f : FunaOp) (d : BitVec 7) (a : Src)
  | frcp (d : BitVec 7) (a : Src)
  | frsq (d : BitVec 7) (a : Src)
  | fsqrt (r : Rnd) (d : BitVec 7) (a : Src)
  | fex2 (d : BitVec 7) (a : Src)
  | flg2 (d : BitVec 7) (a : Src)
  | fsinr (d : BitVec 7) (a : Src)
  | fcosr (d : BitVec 7) (a : Src)
  | padd2 (t : HFmt) (d : BitVec 7) (a b : Src)
  | pmul2 (t : HFmt) (d : BitVec 7) (a b : Src)
  | pfma2 (t : HFmt) (d : BitVec 7) (a b : Src)
  | pminmax2 (max : Bool) (t : HFmt) (d : BitVec 7) (a b : Src)
  | cvt (sat : Bool) (r : Rnd) (d : BitVec 7) (a : Src) (c : CvtForm)
  | cvtp (t : HFmt) (d : BitVec 7) (a b : Src)
  | qnt (f : QForm) (d a : BitVec 7) (b : BitVec 7)
  | dqnt (f : DqForm) (d a : BitVec 7) (b : BitVec 7)
  -- VEC, cross-lane (R162-R169)
  | shfl (m : ShflMode) (d a : BitVec 7) (b : Src)
  | shflImm (m : ShflMode) (d a : BitVec 7) (i : BitVec 8)
  | xgath (k : KCount) (d a : BitVec 7) (b : Src)
  | qx (f : QxOp) (d a : BitVec 7)
  | voteAnyAll (all : Bool) (p q : BitVec 3) (b : BitVec 7)
  | voteBallot (d : BitVec 7) (q : BitVec 3) (b : BitVec 7)
  | voteEq (p : BitVec 3) (a b : BitVec 7)
  | matchLanes (d a : BitVec 7)
  | matchCount (d a b : BitVec 7)
  | gred (f : GredOp) (d a b : BitVec 7)
  | scan (excl : Bool) (m : ScanOp) (d a b : BitVec 7)
  -- UNI (R170-R176)
  | sadd (d : BitVec 8) (a b : USrc)
  | ssub (d : BitVec 8) (a b : USrc)
  | smul (f : MulMode) (d : BitVec 8) (a b : USrc)
  | smad (d : BitVec 8) (a b : USrc)
  | sand (d : BitVec 8) (a b : USrc)
  | sor (d : BitVec 8) (a b : USrc)
  | sxor (d : BitVec 8) (a b : USrc)
  | sshl (d : BitVec 8) (a b : USrc)
  | sshr (arith : Bool) (d : BitVec 8) (a b : USrc)
  | sminmax (n max : Bool) (d : BitVec 8) (a b : USrc)
  | scmp (c : SCond) (d : BitVec 8) (a b : USrc)
  | scmpn (c : SCondN) (d : BitVec 8) (a b : USrc)
  | saddi (d : BitVec 8) (a : USrc) (i : BitVec 8)
  | smovi (s : Bool) (d : BitVec 8) (i : BitVec 8)
  | smovb3 (f : SmovbForm) (d : BitVec 8) (i : BitVec 8)
  | smov (d : BitVec 8) (a : USrc)
  | v2s (chk : Bool) (d : BitVec 8) (a : BitVec 7)
  | v2sLane (d : BitVec 8) (a : BitVec 7) (l : BitVec 5)
  | srd (d : BitVec 8) (c : BitVec 8)
  | sctl (a : USrc)
  | sld (l : Lvl3) (d : BitVec 8) (a : USrc) (i : BitVec 8)
  | sst (l : Lvl3) (d : USrc) (a : USrc) (i : BitVec 8)
  | sflg (a : USrc)
  | jget (d : BitVec 8) (j : BitVec 4)
  -- MEM (R222-R231)
  | ld (l : Lvl) (sz : MemSize) (d : BitVec 7) (a : Src) (o : BitVec 8)
  | st (l : Lvl) (sz : MemSize) (d : BitVec 7) (a : Src) (o : BitVec 8)
  | ldln (l : Lvl3) (k : KCount) (d : BitVec 7) (a : Src) (o : BitVec 8)
  | atm (l : Lvl3) (f : AtOp) (d : BitVec 7) (a : Src) (o : BitVec 8)
  | cas (l : Lvl3) (d : BitVec 7) (a : Src) (o : BitVec 8)
  | fence (s : Scope) (k : FKind)
  | pbarInit (l : Lvl2) (d : BitVec 7) (a : BitVec 7) (o : BitVec 8)
  | pbarArr (l : Lvl2) (a : BitVec 7) (o : BitVec 8)
  | pbarWait (l : Lvl2) (ph : Bool) (a : BitVec 7) (o : BitVec 8)
  -- ENG (R232-R243, R290-R310, R311-R343)
  | copy (c : BitVec 3) (a : BitVec 7)
  | copy2 (c : BitVec 3) (a : BitVec 7)
  | wptr (c : BitVec 3) (d : BitVec 7)
  | cwait (c : BitVec 3) (a : BitVec 7)
  | crst (c : BitVec 3)
  | fatom (f : FatomOp) (d a b : BitVec 7)
  | trayPush (nb : Bool) (d a b : BitVec 7)
  | trayPopb (nb : Bool) (d a : BitVec 7)
  | trayPopbSteal (nb : Bool) (d a b : BitVec 7)
  | trayInsd (d a b : BitVec 7)
  | trayQry (q : TrayQ) (d a : BitVec 7)
  | trayClose (a : BitVec 7)
  | mpath (d a b : BitVec 7)
  | tex (lod : Bool) (f : TexFilter) (d a b : BitVec 7)
  | texg (c : BitVec 2) (d a b : BitVec 7)
  | ssetNew (a b : BitVec 7)
  | ssetBuild (a : BitVec 7)
  | ssetBind (a : BitVec 7)
  | ssetQry (q : SsetQ) (d a : BitVec 7)
  | prim (a b : BitVec 7)
  | sres (m : SresMode) (a b : BitVec 7)
  | rclear (a : BitVec 7)
  | rdecomp (a : BitVec 7)
  | permit (a : BitVec 7)
  -- MAT (R244-R270, R280-R287)
  | mdecl (g : BitVec 3) (a b : BitVec 7)
  | mma (f : MmaKind) (g : BitVec 3)
  | mopmap (f : MapKind) (m : BitVec 3) (a : BitVec 7)
  | mopf (clu : Bool)
  | macq (s : Shape) (t : BitVec 3)
  | mrel (t : BitVec 3)
  | mzero (t : BitVec 3)
  | mwait (t : BitVec 3)
  | mrd (k : KCount) (d : BitVec 7) (t : BitVec 3) (b : BitVec 7)
  | mrdStat (d : BitVec 5) (t : BitVec 3)
  | mwr (k : KCount) (d : BitVec 7) (t : BitVec 3) (b : BitVec 7)
  | mdrain (f : DrainForm) (t : BitVec 3) (b : BitVec 7)
  | ltNew (d a : BitVec 7)
  | ltFork (d a : BitVec 7)
  | ltAtt (auto : Bool) (a b : BitVec 7)
  | ltDet (a b : BitVec 7)
  | ltFold (a b : BitVec 7)
  | ltQry (f : LtQ) (d a : BitVec 7)
  -- CTL (R182-R201)
  | bra (c : BraCond) (p : BitVec 3) (i : BitVec 8)
  | brau (z : Bool) (a : BitVec 7) (i : BitVec 8)
  | bras (a : BitVec 7)
  | brx (a : BitVec 7)
  | call (l : BitVec 7) (i : BitVec 8)
  | callFar (l a : BitVec 7)
  | ret (a : BitVec 7)
  | jset (j : BitVec 4) (a : BitVec 7)
  | join (j : BitVec 4)
  | leave (j : BitVec 4)
  | wait (j : BitVec 4)
  | waitT (j : BitVec 4) (a : BitVec 7) (p : BitVec 3)
  | waitTimeout (blk grp : Nat) (j : BitVec 4)
  | bar (role : Bool) (i : BitVec 4)
  | barArr (role : Bool) (i : BitVec 4)
  | barWait (role : Bool) (i : BitVec 4)
  | exit
  | adv (a b : BitVec 7)
  | yield
  | nop
  | trap (i : BitVec 8)
  | bkpt (i : BitVec 8)
  -- SYS (R362-R366)
  | sysrd (d : BitVec 4) (s : BitVec 8)
  | syswr (a : SysSrc) (s : BitVec 8)
  | rthFix
  | rthSkip
  | rthRetry
  | rthKill
  | tlbinv (a : BitVec 7)
  | scrub (a : BitVec 7)
  | ctxsv (a : BitVec 7)
  | ctxrs (a : BitVec 7)
  -- host registers and launch (R388-R394, R26-R56)
  | queueReadEntry (q : BitVec 8)
  | launchStart (l : Nat)
  | distributeBlocks (l : Nat) (child : Nat)
  | blockPlace (l : Nat) (cluster : Nat) (cores : List Nat)
  | drainMarkTimeout (core : Nat)
  | stagingReadComplete (blk : Nat)
  | blockStart (blk : Nat)
  | blockCapture (blk : Nat)
  | commitPoint (blk : Nat)
  | commitApplyDone (blk : Nat)
  | advSuccessorStart (blk : Nat)
  | blockRestore (blk : Nat) (cores : List Nat)
  -- issue, scratch and engine completions
  | issueSlotArbitration (core slot blk grp : Nat)
  | scratchLoadComplete (op reg : Nat)
  | scratchStorePerformed (op : Nat)
  | scratchAtomicPerformed (op : Nat)
  | l1SectorFill (core miss : Nat)
  | fsqrtComplete (op : Nat)
  | fatomPerformed (op lane : Nat)
  | copyCommandStart (blk : Nat) (c : BitVec 3)
  | copyPieceDelivered (blk : Nat) (c : BitVec 3) (piece : Nat)
  | passChoose (clu : Nat)
  | permitGrant (die : Nat)
  | modeSwitchDone (clu : Nat)
  | tileFetchComplete (clu ent : Nat)
  | passComplete (clu ent : Nat)
  | tileAcquireServed (clu : Nat)
  | tileOrderTurn (tile : Nat)
  | mrdComplete (tile : Nat)
  | drainPerformed (op : Nat)
  | ltOpPerformed (blk grp : Nat)
  | foldSwap (part : BitVec 3) (h : Nat)
  | foldFail (part : BitVec 3) (h : Nat)
  | trayOpPerformed (blk grp : Nat)
  | trayPushWaiterServed (part : BitVec 3) (handle : Word)
  | trayPushTimeout (part : BitVec 3) (handle : Word) (blk grp : Nat)
  | trayPopWaiterServed (part : BitVec 3) (handle : Word)
  | spillWriteComplete (part : BitVec 3) (handle : Word) (j : Nat)
  | nodeBatchTimeout (part : BitVec 3) (handle : Word)
  | nodeBlockStart (l : Nat) (cluster : Nat) (cores : List Nat)
  | mpathComplete (op : Nat)
  | texComplete (op : Nat)
  | ssetBuildComplete (part : BitVec 3) (set : BitVec 8)
  | triangleDistribute (part : BitVec 3) (set : BitVec 8)
  | primStallTimeout (blk : Nat)
  | coverageTest (part : BitVec 3) (set : BitVec 8) (work : Nat)
  | fragmentGroupStart (part : BitVec 3) (set : BitVec 8) (work core slot : Nat)
  | sresApply (op : Nat)
  | streamDrainComplete (blk grp : Nat)
  | taskStart (l : Nat) (core slot : Nat)
  -- translation and memory system
  | preempt (blk : Nat)
  | walkComplete (walk : Nat)
  | parkedRewalkTimer (park : Nat)
  | parkedTimeout (park : Nat)
  | codeFetchComplete (blk grp : Nat)
  | clearingDone
  | launchComplete (l : Nat)
  | unassignedOp (c : Cls) (w : Word)
  -- a slice access of its own, and the outside world's actions (last: the model never builds one of these itself)
  | l2SliceAccess (pa : Nat) (kind : BitVec 8) (wr : Option Byte)
  | registerWrite (off : Nat) (v : BitVec 64)
  | qctlWrite (q : BitVec 8) (v : Word)
  | qtailWrite (q : BitVec 8) (v : Word)
  | softError (blk : Nat)
  | coreFault (blk : Nat)
  | correctedError (part : BitVec 3)
  | walkStart (part : BitVec 3) (clu : Nat) (va : BitVec 52)
  | supplyCurrentOver (die : Nat) (hot : Bool)
  | cxlMemRequest (pa : Nat) (wr : Option Byte)
  | hostSnoop (hpa : Nat)
  | peerLinkDown (link : BitVec 4)
  | peerLinkUp (link : BitVec 4)
  | peerRequest (link : BitVec 4) (pa : Nat) (wr : Option Byte)
  | loadImage (img : Image)
  | setPart (cfg : List PartConfig)
  | setWindow (w : BitVec 5) (c : WindowCfg)
  | quote (nonce : List Byte)
  | lifecycle (next : LifeCycle) (signed : Bool)
  | resumeFault (part : BitVec 3)
  | linkState (r : LinkReport)
  | fqresWrite (part : BitVec 3) (v : Word)
  | fqrdWrite (part : BitVec 3) (v : Word)
  | fqbaseWrite (part : BitVec 3) (v : BitVec 64)
  | fqsizeWrite (part : BitVec 3) (v : Word)
  | powerLoss (loading : Bool)
  | reset
  | l2FillComplete (pa : Nat) (kind : BitVec 8)
  | cxlLinkDown
  | cxlLinkUp
  | cxlCompletionTimeout
deriving DecidableEq, Repr

end Sys2Proof
end

