-- ==== Sys2Proof/Machine/Fp.lean ====
section
/-! DEFINITION. Binary floating point (R118-R123, R152-R159): exact dyadic values, one rounding, flags; and the
approximate functions of Table 5-2. -/

namespace Sys2Proof.Machine

open Sys2Proof

/-- A binary format (Table 5-1): exponent and fraction bits. -/
structure FFmt where
  eb : Nat
  fb : Nat
deriving DecidableEq, Repr

def f32 : FFmt := ⟨8, 23⟩
def f16 : FFmt := ⟨5, 10⟩
def bf16 : FFmt := ⟨8, 7⟩

def HFmt.fmt : HFmt → FFmt
  | .f16 => Machine.f16
  | .bf16 => Machine.bf16

def FFmt.bias (f : FFmt) : Nat := 2 ^ (f.eb - 1) - 1
/-- The exponent of the least normal number. -/
def FFmt.emin (f : FFmt) : Int := 1 - (f.bias : Int)
/-- The exponent of the least subnormal number. -/
def FFmt.qmin (f : FFmt) : Int := f.emin - (f.fb : Int)
def FFmt.signBit (f : FFmt) (neg : Bool) : Nat := if neg then 2 ^ (f.eb + f.fb) else 0
def FFmt.infBits (f : FFmt) : Nat := (2 ^ f.eb - 1) * 2 ^ f.fb
/-- The canonical NaN (Table 5-1). -/
def FFmt.nanBits (f : FFmt) : Nat := f.infBits + 2 ^ (f.fb - 1)
def FFmt.maxBits (f : FFmt) : Nat := f.infBits - 1

/-- A floating-point value: NaN (signalling or not), infinity, zero, or (−1)^neg · m · 2^e with m nonzero. -/
inductive FVal where
  | nan (sig : Bool)
  | inf (neg : Bool)
  | zero (neg : Bool)
  | fin (neg : Bool) (m : Nat) (e : Int)
deriving DecidableEq, Repr

/-- Exception flags (R119, R75). -/
structure Flags where
  of : Bool
  uf : Bool
  iv : Bool
  sat : Bool
deriving DecidableEq, Repr

def Flags.none : Flags := ⟨false, false, false, false⟩
def Flags.or (a b : Flags) : Flags := ⟨a.of || b.of, a.uf || b.uf, a.iv || b.iv, a.sat || b.sat⟩
/-- The GFL bits of a set of flags (Table 3-6). -/
def Flags.gfl (f : Flags) : Word :=
  (0#27 ++ BitVec.ofBool f.sat ++ 0#1 ++ BitVec.ofBool f.iv ++ BitVec.ofBool f.uf ++ BitVec.ofBool f.of : BitVec 32)

/-- A result with its flags. -/
structure FRes where
  bits : Nat
  fl : Flags
deriving DecidableEq, Repr

/-- The four rounding modes (Table 3-5). -/
inductive RM where
  | rne | rz | rd | ru
deriving DecidableEq, Repr

def RM.ofBits (x : BitVec 2) : RM :=
  match x.toNat with
  | 0 => .rne
  | 1 => .rz
  | 2 => .rd
  | _ => .ru

/-- Reading a bit pattern of a format. -/
def FFmt.read (f : FFmt) (x : Nat) : FVal :=
  let neg := x.testBit (f.eb + f.fb)
  let e := (x / 2 ^ f.fb) % 2 ^ f.eb
  let m := x % 2 ^ f.fb
  if e = 2 ^ f.eb - 1 then
    (if m = 0 then .inf neg else .nan (!m.testBit (f.fb - 1)))
  else if e = 0 then
    (if m = 0 then .zero neg else .fin neg m f.qmin)
  else .fin neg (m + 2 ^ f.fb) (f.qmin + (e : Int) - 1)

/-- Flushing a subnormal operand to zero of its sign (R120). -/
def FVal.flush (f : FFmt) (ftz : Bool) : FVal → FVal
  | .fin neg m e => if ftz && decide (m < 2 ^ f.fb) then .zero neg else .fin neg m e
  | v => v

def FVal.isNan : FVal → Bool
  | .nan _ => true
  | _ => false

def FVal.isSnan : FVal → Bool
  | .nan s => s
  | _ => false

def FVal.neg : FVal → FVal
  | .nan s => .nan s
  | .inf n => .inf (!n)
  | .zero n => .zero (!n)
  | .fin n m e => .fin (!n) m e

def FVal.abs : FVal → FVal
  | .nan s => .nan s
  | .inf _ => .inf false
  | .zero _ => .zero false
  | .fin _ m e => .fin false m e

/-- Position of the leading 1 bit, counted from 1; 0 for 0. -/
def bitLen (n : Nat) : Nat := if n = 0 then 0 else Nat.log2 n + 1

/-- Whether rounding `r·2^sh + rem` to a multiple of 2^sh goes up in magnitude. -/
def roundsUp (mode : RM) (neg : Bool) (r rem sh : Nat) : Bool :=
  match mode with
  | .rne => decide (2 ^ sh < 2 * rem) || (decide (2 * rem = 2 ^ sh) && r % 2 == 1)
  | .rz => false
  | .rd => neg && decide (rem ≠ 0)
  | .ru => !neg && decide (rem ≠ 0)

/-- Rounding the magnitude m·2^e to a multiple of 2^q: the multiple, and whether it is inexact. -/
def roundAt (mode : RM) (neg : Bool) (m : Nat) (e q : Int) : Nat × Bool :=
  if q ≤ e then (m * 2 ^ (e - q).toNat, false)
  else
    let sh := (q - e).toNat
    let r := m / 2 ^ sh
    let rem := m % 2 ^ sh
    (if roundsUp mode neg r rem sh then r + 1 else r, decide (rem ≠ 0))

/-- The quantum of a magnitude m·2^e in a format: the exponent of its unit in the last place. -/
def FFmt.quantum (f : FFmt) (m : Nat) (e : Int) : Int :=
  max (e + (bitLen m : Int) - 1 - (f.fb : Int)) f.qmin

/-- Rounding a nonzero exact value into a format (R119): overflow, tininess before rounding, flags. -/
def FFmt.round (f : FFmt) (mode : RM) (neg : Bool) (m : Nat) (e : Int) : FRes :=
  let q := f.quantum m e
  let (r0, inexact) := roundAt mode neg m e q
  let (r, q) := if 2 ^ (f.fb + 1) ≤ r0 then (r0 / 2, q + 1) else (r0, q)
  let s := f.signBit neg
  if r < 2 ^ f.fb then
    ⟨s + r, ⟨false, inexact, false, false⟩⟩
  else
    let be := q - f.qmin + 1
    if ((2 ^ f.eb - 1 : Nat) : Int) ≤ be then
      let toInf := match mode with
        | .rne => true
        | .rz => false
        | .rd => neg
        | .ru => !neg
      ⟨s + (if toInf then f.infBits else f.maxBits), ⟨true, false, false, false⟩⟩
    else
      let tiny := decide (e + (bitLen m : Int) - 1 < f.emin)
      ⟨s + be.toNat * 2 ^ f.fb + (r - 2 ^ f.fb), ⟨false, tiny && inexact, false, false⟩⟩

/-- Flushing a subnormal result (R120). -/
def FFmt.flushRes (f : FFmt) (ftz : Bool) (r : FRes) : FRes :=
  let mag := r.bits % 2 ^ (f.eb + f.fb)
  if ftz && decide (mag ≠ 0) && decide (mag < 2 ^ f.fb) then
    ⟨r.bits - mag, { r.fl with uf := true }⟩
  else r

/-- An exact result before its one rounding: a value, and whether the operation was invalid. -/
structure Exact where
  v : FVal
  iv : Bool
deriving DecidableEq, Repr

/-- Rounding an exact result into a format. -/
def FFmt.finish (f : FFmt) (mode : RM) (ftz : Bool) (x : Exact) : FRes :=
  let fl : Flags := ⟨false, false, x.iv, false⟩
  match x.v with
  | .nan _ => ⟨f.nanBits, fl⟩
  | .inf neg => ⟨f.signBit neg + f.infBits, fl⟩
  | .zero neg => ⟨f.signBit neg, fl⟩
  | .fin neg m e =>
    let r := f.flushRes ftz (f.round mode neg m e)
    ⟨r.bits, r.fl.or fl⟩

/-- A signed dyadic value as an integer multiple of 2^e. -/
def signed (neg : Bool) (m : Nat) : Int := if neg then -(m : Int) else (m : Int)

/-- The exact sum (R119, R152): an exact zero is +0, or −0 toward −∞; two zeros of one sign keep it. -/
def addExact (mode : RM) (a b : FVal) : Exact :=
  match a, b with
  | .nan s, .nan t => ⟨.nan false, s || t⟩
  | .nan s, _ => ⟨.nan false, s⟩
  | _, .nan t => ⟨.nan false, t⟩
  | .inf n, .inf k => if n = k then ⟨.inf n, false⟩ else ⟨.nan false, true⟩
  | .inf n, _ => ⟨.inf n, false⟩
  | _, .inf k => ⟨.inf k, false⟩
  | .zero n, .zero k => ⟨.zero (if n = k then n else decide (mode = .rd)), false⟩
  | .zero _, v => ⟨v, false⟩
  | v, .zero _ => ⟨v, false⟩
  | .fin n m e, .fin k m' e' =>
    let q := min e e'
    let s := signed n (m * 2 ^ (e - q).toNat) + signed k (m' * 2 ^ (e' - q).toNat)
    if s = 0 then ⟨.zero (decide (mode = .rd)), false⟩
    else ⟨.fin (decide (s < 0)) s.natAbs q, false⟩

/-- The exact product. -/
def mulExact (a b : FVal) : Exact :=
  match a, b with
  | .nan s, .nan t => ⟨.nan false, s || t⟩
  | .nan s, _ => ⟨.nan false, s⟩
  | _, .nan t => ⟨.nan false, t⟩
  | .inf n, .inf k => ⟨.inf (n ^^ k), false⟩
  | .inf n, .fin k _ _ => ⟨.inf (n ^^ k), false⟩
  | .fin n _ _, .inf k => ⟨.inf (n ^^ k), false⟩
  | .inf _, .zero _ => ⟨.nan false, true⟩
  | .zero _, .inf _ => ⟨.nan false, true⟩
  | .zero n, .zero k => ⟨.zero (n ^^ k), false⟩
  | .zero n, .fin k _ _ => ⟨.zero (n ^^ k), false⟩
  | .fin n _ _, .zero k => ⟨.zero (n ^^ k), false⟩
  | .fin n m e, .fin k m' e' => ⟨.fin (n ^^ k) (m * m') (e + e'), false⟩

/-- The exact value of a·b + c. -/
def fmaExact (mode : RM) (a b c : FVal) : Exact :=
  let p := mulExact a b
  let s := addExact mode p.v c
  ⟨s.v, p.iv || s.iv⟩

/-- Integer square root by bits, highest first. -/
def isqrtBits (n : Nat) : Nat → Nat → Nat
  | 0, r => r
  | i + 1, r =>
    let r' := r + 2 ^ i
    isqrtBits n i (if r' * r' ≤ n then r' else r)

/-- The integer square root of `n`. -/
def isqrt (n : Nat) : Nat := isqrtBits n (bitLen n / 2 + 1) 0

/-- The square root, exact but for one sticky bit below any quantum of the formats here (R119, R152). -/
def sqrtExact (a : FVal) : Exact :=
  match a with
  | .nan s => ⟨.nan false, s⟩
  | .inf false => ⟨.inf false, false⟩
  | .inf true => ⟨.nan false, true⟩
  | .zero n => ⟨.zero n, false⟩
  | .fin true _ _ => ⟨.nan false, true⟩
  | .fin false m e =>
    let odd := decide (e % 2 ≠ 0)
    let m1 := if odd then m * 2 else m
    let e1 := if odd then e - 1 else e
    let m2 := m1 * 2 ^ 80
    let r := isqrt m2
    let sticky := if r * r = m2 then 0 else 1
    ⟨.fin false (2 * r + sticky) ((e1 - 80) / 2 - 1), false⟩

/-- a < b for values that are not NaN, with −0 below +0 when `signedZero`. -/
def FVal.lt (signedZero : Bool) (a b : FVal) : Bool :=
  match a, b with
  | .nan _, _ => false
  | _, .nan _ => false
  | .inf n, .inf k => n && !k
  | .inf n, _ => n
  | _, .inf k => !k
  | .zero n, .zero k => signedZero && n && !k
  | .zero _, .fin k _ _ => !k
  | .fin n _ _, .zero _ => n
  | .fin n m e, .fin k m' e' =>
    let q := min e e'
    decide (signed n (m * 2 ^ (e - q).toNat) < signed k (m' * 2 ^ (e' - q).toNat))

/-- Numeric equality: −0 equals +0, NaN equals nothing (R154). -/
def FVal.eqv (a b : FVal) : Bool :=
  !a.isNan && !b.isNan && !FVal.lt false a b && !FVal.lt false b a

/-- A value that needs no rounding, written in a format. -/
def FFmt.write (f : FFmt) (v : FVal) : Nat := (f.finish .rne false ⟨v, false⟩).bits

/-! ### FP32 instructions -/

def readF32 (ftz : Bool) (x : Word) : FVal := (f32.read x.toNat).flush f32 ftz

def FRes.word (r : FRes) : Word := BitVec.ofNat 32 r.bits

/-- A 32-bit result with its flags. -/
structure WRes where
  w : Word
  fl : Flags
deriving DecidableEq, Repr

def FRes.w (r : FRes) : WRes := ⟨r.word, r.fl⟩

/-- FADD, FSUB, FMUL, FFMA, FFMS, FSQRT (R152). -/
def faddV (mode : RM) (ftz : Bool) (a b : Word) : WRes :=
  (f32.finish mode ftz (addExact mode (readF32 ftz a) (readF32 ftz b))).w
def fsubV (mode : RM) (ftz : Bool) (a b : Word) : WRes :=
  (f32.finish mode ftz (addExact mode (readF32 ftz a) (readF32 ftz b).neg)).w
def fmulV (mode : RM) (ftz : Bool) (a b : Word) : WRes :=
  (f32.finish mode ftz (mulExact (readF32 ftz a) (readF32 ftz b))).w
def ffmaV (mode : RM) (ftz : Bool) (a b d : Word) : WRes :=
  (f32.finish mode ftz (fmaExact mode (readF32 ftz a) (readF32 ftz b) (readF32 ftz d))).w
def ffmsV (mode : RM) (ftz : Bool) (a b d : Word) : WRes :=
  (f32.finish mode ftz (fmaExact mode (readF32 ftz a) (readF32 ftz b) (readF32 ftz d).neg)).w
def fsqrtV (mode : RM) (ftz : Bool) (a : Word) : WRes :=
  (f32.finish mode ftz (sqrtExact (readF32 ftz a))).w

/-- minimumNumber, or minimum with `nan` (R153), and the maxima, of two values. -/
def minmaxVal (max nan : Bool) (a b : FVal) : Exact :=
  let iv := a.isSnan || b.isSnan
  if a.isNan && b.isNan then ⟨.nan false, iv⟩
  else if a.isNan then (if nan then ⟨.nan false, iv⟩ else ⟨b, iv⟩)
  else if b.isNan then (if nan then ⟨.nan false, iv⟩ else ⟨a, iv⟩)
  else
    let aFirst := if max then FVal.lt true b a else FVal.lt true a b
    ⟨if aFirst then a else b, iv⟩

/-- FMIN and FMAX (R153): an operand, unchanged; under FTZ a subnormal reads as zero of its sign. -/
def fminmaxV (max nan ftz : Bool) (a b : Word) : WRes :=
  (f32.finish .rne false (minmaxVal max nan (readF32 ftz a) (readF32 ftz b))).w

/-- FCMP (R154, Table 6-3): the condition and whether IV is raised. -/
def fcmpV (c : FCond) (ftz : Bool) (a b : Word) : Bool × Bool :=
  let x := readF32 ftz a
  let y := readF32 ftz b
  let un := x.isNan || y.isNan
  let r := match c with
    | .eq => !un && x.eqv y
    | .ne => un || !x.eqv y
    | .lt => FVal.lt false x y
    | .le => !un && !FVal.lt false y x
    | .gt => FVal.lt false y x
    | .ge => !un && !FVal.lt false x y
    | .un => un
    | .ord => !un
  (r, x.isSnan || y.isSnan)

/-- An integral value: the magnitude rounded to a multiple of 1 in a mode, with the sign of the operand (R155). -/
def toIntegral (mode : RM) (neg : Bool) (m : Nat) (e : Int) : FVal :=
  if 0 ≤ e then .fin neg m e
  else
    let r := (roundAt mode neg m e 0).1
    if r = 0 then .zero neg else .fin neg r 0

/-- FUNA (R155, Table 6-4). -/
def funaV (op : FunaOp) (ftz : Bool) (a : Word) : WRes :=
  let x := readF32 ftz a
  let iv := x.isSnan
  let keep (v : FVal) : WRes := (f32.finish .rne false ⟨v, iv⟩).w
  match x with
  | .nan _ => match op with
    | .sat => ⟨0#32, ⟨false, false, iv, false⟩⟩
    | _ => keep (.nan false)
  | _ =>
    match op with
    | .neg => keep x.neg
    | .abs => keep x.abs
    | .nabs => keep x.abs.neg
    | .sat =>
      if FVal.lt false x (.zero false) || x.eqv (.zero false) then ⟨0#32, Flags.none⟩
      else if FVal.lt false (.fin false 1 0) x then ⟨0x3F800000#32, Flags.none⟩
      else keep x
    | .frac => match x with
      | .inf _ => (f32.finish .rne false ⟨.nan false, true⟩).w
      | .fin neg m e =>
        let fl := toIntegral .rd neg m e
        let d := addExact .rne x fl.neg
        let r := match d.v with
          | .zero _ => ⟨.zero false, false⟩
          | _ => d
        let w := f32.finish .rz false r
        ⟨w.word, Flags.none⟩
      | _ => ⟨0#32, Flags.none⟩
    | .floor => match x with
      | .fin neg m e => keep (toIntegral .rd neg m e)
      | v => keep v
    | .ceil => match x with
      | .fin neg m e => keep (toIntegral .ru neg m e)
      | v => keep v
    | .trunc => match x with
      | .fin neg m e => keep (toIntegral .rz neg m e)
      | v => keep v

/-! ### Packed halves (R122, R157) and conversions (R123, R158, R159) -/

/-- The half `h` (0 low, 1 high) of a word. -/
def half (x : Word) (h : Nat) : Nat := (x.toNat / 2 ^ (16 * h)) % 65536

/-- Two halves as a word. -/
def twoHalves (lo hi : FRes) : WRes := ⟨BitVec.ofNat 32 (lo.bits + 65536 * hi.bits), lo.fl.or hi.fl⟩

def packedV (f : Nat → FRes) : WRes := twoHalves (f 0) (f 1)

def padd2V (t : FFmt) (a b : Word) : WRes :=
  packedV (fun h => t.finish .rne false (addExact .rne (t.read (half a h)) (t.read (half b h))))
def pmul2V (t : FFmt) (a b : Word) : WRes :=
  packedV (fun h => t.finish .rne false (mulExact (t.read (half a h)) (t.read (half b h))))
def pfma2V (t : FFmt) (a b d : Word) : WRes :=
  packedV (fun h => t.finish .rne false
    (fmaExact .rne (t.read (half a h)) (t.read (half b h)) (t.read (half d h))))
def pminmax2V (max : Bool) (t : FFmt) (a b : Word) : WRes :=
  packedV (fun h => t.finish .rne false (minmaxVal max false (t.read (half a h)) (t.read (half b h))))

/-- The largest finite magnitude of a format, with a sign. -/
def FFmt.maxOf (f : FFmt) (neg : Bool) : Nat := f.signBit neg + f.maxBits

/-- Rounding to a 16-bit format with saturation of finite overflow (R123 code 0x04 .sat, R159). -/
def satHalf (t : FFmt) (mode : RM) (v : FVal) : FRes :=
  match v with
  | .fin neg m e =>
    let r := t.round mode neg m e
    if r.fl.of then ⟨t.maxOf neg, ⟨false, false, false, true⟩⟩ else r
  | _ => t.finish mode false ⟨v, v.isSnan⟩

/-- The nearest integer to a finite value in a mode. -/
def FVal.toInt (mode : RM) : FVal → Int
  | .fin neg m e => signed neg (roundAt mode neg m e 0).1
  | _ => 0

/-- An integer as a value. -/
def FVal.ofInt (i : Int) : FVal := if i = 0 then .zero false else .fin (decide (i < 0)) i.natAbs 0

/-- f32 to a 32-bit integer range `lo..hi` (Table 5-3 codes 0x00 and 0x01). -/
def cvtInt (sat : Bool) (mode : RM) (lo hi : Int) (bad : Word) (v : FVal) : WRes :=
  let out (neg : Bool) : WRes :=
    if sat then ⟨BitVec.ofInt 32 (if neg then lo else hi), ⟨false, false, false, true⟩⟩
    else ⟨bad, ⟨false, false, true, false⟩⟩
  match v with
  | .nan s => if sat then ⟨0#32, ⟨false, false, s, true⟩⟩ else ⟨bad, ⟨false, false, true, false⟩⟩
  | .inf neg => out neg
  | _ =>
    let i := v.toInt mode
    if i < lo then out true else if hi < i then out false else ⟨BitVec.ofInt 32 i, Flags.none⟩

/-- CVT (R123, Table 4-7, Table 5-3). -/
def cvtV (sat : Bool) (mode : RM) (ftz : Bool) (c : CvtForm) (a : Word) : WRes :=
  let x := readF32 ftz a
  match c with
  | .iF32 => cvtInt sat mode (-2147483648) 2147483647 0x80000000#32 x
  | .nF32 => cvtInt sat mode 0 4294967295 0xFFFFFFFF#32 x
  | .f32I => (f32.finish mode ftz ⟨FVal.ofInt a.toInt, false⟩).w
  | .f32N => (f32.finish mode ftz ⟨FVal.ofInt (a.toNat : Int), false⟩).w
  | .f16F32 => (if sat then satHalf f16 mode x else f16.finish mode false ⟨x, x.isSnan⟩).w
  | .bf16F32 => (bf16.finish .rne false ⟨x, x.isSnan⟩).w
  | .f32F16 => let v := f16.read (half a 0); (f32.finish mode ftz ⟨v, v.isSnan⟩).w
  | .f32Bf16 => let v := bf16.read (half a 0); (f32.finish mode ftz ⟨v, v.isSnan⟩).w
  | .f32F16h => let v := f16.read (half a 1); (f32.finish mode ftz ⟨v, v.isSnan⟩).w
  | .f32Bf16h => let v := bf16.read (half a 1); (f32.finish mode ftz ⟨v, v.isSnan⟩).w

/-- CVTP (R159). -/
def cvtpV (t : FFmt) (ftz : Bool) (a b : Word) : WRes :=
  twoHalves (satHalf t .rne (readF32 ftz a)) (satHalf t .rne (readF32 ftz b))

/-! ### Approximate functions (R121, R156) -/

/-- A real number known to within `err` units of 2^e: the exact value lies within (m ± err)·2^e, with the sign. -/
structure Approx where
  neg : Bool
  m : Nat
  e : Int
  err : Nat
deriving DecidableEq, Repr

/-- 1/(m·2^e) to at least 90 bits. -/
def recipReal (neg : Bool) (m : Nat) (e : Int) : Approx :=
  let k := bitLen m + 90
  ⟨neg, 2 ^ k / m, -e - (k : Int), if 2 ^ k % m = 0 then 0 else 1⟩

/-- 1/√(m·2^e): the square root of the reciprocal, to at least 90 bits. -/
def rsqrtReal (m : Nat) (e : Int) : Approx :=
  let odd := decide (e % 2 ≠ 0)
  let m1 := if odd then m * 2 else m
  let e1 := if odd then e - 1 else e
  let k := 2 * (bitLen m1 + 90)
  let q := 2 ^ k / m1
  let r := isqrt q
  ⟨false, r, -(e1 / 2) - ((k / 2 : Nat) : Int), if r * r = q ∧ 2 ^ k % m1 = 0 then 0 else 1⟩

/-- Precision of the fixed-point expansions below. -/
def fixBits : Nat := 128

/-- More than the units of 2^−128 that cutting their terms can cost them. -/
def fixErr : Nat := 2 ^ 16

/-- ln 2 in units of 2^−128. -/
def ln2Fix : Nat := 0xB17217F7D1CF79ABC9E3B39803F2F6AF

/-- 2π in units of 2^−128. -/
def twoPiFix : Nat := 0x6487ED5110B4611A62633145C06E0E689

/-- Σ x^k/k! from term number `k` on, in units of 2^−128: `t` is the running term. -/
def expSeries (x : Nat) : Nat → Nat → Nat → Nat
  | 0, _, _ => 0
  | n + 1, k, t => t + expSeries x n (k + 1) (t * x / 2 ^ fixBits / (k + 1))

/-- 2^(f/2^128) in units of 2^−128 for f below 2^128. -/
def exp2Fix (f : Nat) : Nat := expSeries (f * ln2Fix / 2 ^ fixBits) 40 0 (2 ^ fixBits)

/-- 2^a for finite nonzero a = (−1)^neg·m·2^e of moderate size: all cuts go down, so that the exact value is no less. -/
def exp2Real (neg : Bool) (m : Nat) (e : Int) : Approx :=
  let x := signed neg (roundAt .rd neg m (e + (fixBits : Int)) 0).1
  let i := x / (2 ^ fixBits : Int)
  let f := (x % (2 ^ fixBits : Int)).toNat
  ⟨false, exp2Fix f, i - (fixBits : Int), fixErr⟩

/-- Binary digits of log₂ of y/2^256 for y in [2^256, 2^257). -/
def log2Digits : Nat → Nat → Nat → Nat
  | 0, _, acc => acc
  | n + 1, y, acc =>
    let y2 := y * y / 2 ^ 256
    if 2 ^ 257 ≤ y2 then log2Digits n (y2 / 2) (2 * acc + 1) else log2Digits n y2 (2 * acc)

/-- log₂ of m·2^e: 100 fraction bits. The digits fall short by less than 2 units, and the magnitude is taken as no more than it is. -/
def log2Real (m : Nat) (e : Int) : Approx :=
  let l := bitLen m - 1
  let y := m * 2 ^ 256 / 2 ^ l
  let x : Int := (e + (l : Int)) * (2 ^ 100 : Int) + (log2Digits 100 y 0 : Int)
  let doubt := if m = 2 ^ l then 0 else 2
  ⟨decide (x < 0), if x < 0 then x.natAbs - doubt else x.natAbs, -100, doubt⟩

/-- Σ (−1)^k x^(2k+i)/(2k+i)! for the sine (i = 1) or cosine (i = 0) of x in units of 2^−128. -/
def trigSeries (x2 : Nat) : Nat → Nat → Int → Int
  | 0, _, _ => 0
  | n + 1, k, t =>
    t + trigSeries x2 n (k + 2) (-(t * (x2 : Int) / (2 ^ fixBits : Int)) / (((k + 1) * (k + 2) : Nat) : Int))

/-- sin or cos of 2π·f/2^128 for f below 2^128, in units of 2^−128. -/
def trigFix (cos : Bool) (f : Nat) : Int :=
  -- f is taken within half a turn of 0, so that the series converges fast
  let back := decide (2 ^ (fixBits - 1) ≤ f)
  let g := if back then 2 ^ fixBits - f else f
  let x := g * twoPiFix / 2 ^ fixBits
  let x2 := x * x / 2 ^ fixBits
  if cos then trigSeries x2 24 0 (2 ^ fixBits : Int)
  else
    let s := trigSeries x2 24 1 (x : Int)
    if back then -s else s

/-- sin 2πa or cos 2πa for finite nonzero a: the turn is reduced exactly before the series. -/
def trigReal (cos : Bool) (neg : Bool) (m : Nat) (e : Int) : Approx :=
  let x := signed neg (roundAt .rz false m (e + (fixBits : Int)) 0).1
  let f := (x % (2 ^ fixBits : Int)).toNat
  let s := trigFix cos f
  ⟨decide (s < 0), s.natAbs, -(fixBits : Int), fixErr⟩

/-- |p − y| ≤ t·2^q for a finite p and every real that y may stand for. -/
def closeTo (p : FVal) (y : Approx) (t : Nat) (q : Int) : Bool :=
  let go (neg : Bool) (m : Nat) (e : Int) : Bool :=
    let z := min (min e y.e) q
    let d := signed neg (m * 2 ^ (e - z).toNat) - signed y.neg (y.m * 2 ^ (y.e - z).toNat)
    decide (d.natAbs + y.err * 2 ^ (y.e - z).toNat ≤ t * 2 ^ (q - z).toNat)
  match p with
  | .zero _ => go false 0 0
  | .fin neg m e => go neg m e
  | _ => false

/-- The result of an approximate function: the device's own value where it lies within the bound of `t` units in
the last place (or 2^−22 absolute), else the correctly rounded one (R121, log 7). -/
def approxRes (fn : Nat) (a : Word) (ftz : Bool) (ulps : Option Nat) (y : Approx) : WRes :=
  let pick := Config.approxPick fn a
  let near := match ulps with
    | some t => decide (y.m ≠ 0) && closeTo (f32.read pick.toNat) y t (f32.quantum y.m y.e)
    | none => closeTo (f32.read pick.toNat) y 1 (-22)
  if y.m = 0 ∧ near = false then ⟨0#32, Flags.none⟩
  else
    -- no OF or UF but for a flush (R121, R156): DEDUCED (log 8)
    let r : FRes := if near then ⟨pick.toNat, Flags.none⟩
      else ⟨(f32.round .rne y.neg y.m y.e).bits, Flags.none⟩
    (f32.flushRes ftz r).w

/-- A special result given exactly (Table 5-2). -/
def special (w : Word) (iv : Bool) : WRes := ⟨w, ⟨false, false, iv, false⟩⟩

def nanWord : Word := 0x7FC00000#32
def infWord (neg : Bool) : Word := if neg then 0xFF800000#32 else 0x7F800000#32
def zeroWord (neg : Bool) : Word := if neg then 0x80000000#32 else 0#32

def frcpV (ftz : Bool) (a : Word) : WRes :=
  match readF32 ftz a with
  | .nan s => special nanWord s
  | .inf n => special (zeroWord n) false
  | .zero n => special (infWord n) false
  | .fin n m e => approxRes 0 a ftz (some 1) (recipReal n m e)

def frsqV (ftz : Bool) (a : Word) : WRes :=
  match readF32 ftz a with
  | .nan s => special nanWord s
  | .inf false => special 0#32 false
  | .inf true => special nanWord false
  | .zero n => special (infWord n) false
  | .fin true _ _ => special nanWord false
  | .fin false m e => approxRes 1 a ftz (some 1) (rsqrtReal m e)

/-- The integer a finite value is, if it is one. -/
def integerOf (neg : Bool) (m : Nat) (e : Int) : Option Int :=
  if (roundAt .rz neg m e 0).2 then none else some (signed neg (roundAt .rz neg m e 0).1)

def fex2V (ftz : Bool) (a : Word) : WRes :=
  match readF32 ftz a with
  | .nan s => special nanWord s
  | .inf false => special (infWord false) false
  | .inf true => special 0#32 false
  | .zero _ => special 0x3F800000#32 false
  | .fin n m e =>
    match integerOf n m e with
    | some i =>
      if -149 ≤ i ∧ i ≤ 127 then (f32.flushRes ftz ⟨f32.write (.fin false 1 i), Flags.none⟩).w
      else approxRes 2 a ftz (some 2) ⟨false, 1, max (min i 400) (-400), 0⟩
    | none =>
      -- beyond ±400 every result is the same: infinity, or below half the least subnormal
      if 9 ≤ e + (bitLen m : Int) - 1 then approxRes 2 a ftz (some 2) ⟨false, 1, if n then -400 else 400, 0⟩
      else approxRes 2 a ftz (some 2) (exp2Real n m e)

def flg2V (ftz : Bool) (a : Word) : WRes :=
  match readF32 ftz a with
  | .nan s => special nanWord s
  | .inf false => special (infWord false) false
  | .inf true => special nanWord false
  | .zero _ => special (infWord true) false
  | .fin true _ _ => special nanWord false
  | .fin false m e => approxRes 3 a ftz (some 2) (log2Real m e)

def ftrigV (cos : Bool) (ftz : Bool) (a : Word) : WRes :=
  match readF32 ftz a with
  | .nan s => special nanWord s
  | .inf _ => special nanWord false
  | .zero _ => special (if cos then 0x3F800000#32 else 0#32) false
  | .fin n m e =>
    match integerOf n m e with
    | some _ => special (if cos then 0x3F800000#32 else 0#32) false
    | none => approxRes (if cos then 5 else 4) a ftz none (trigReal cos n m e)

end Sys2Proof.Machine
end

