-- ==== Sys2Proof/Machine/Alu.lean ====
section
/-! DEFINITION. The values of integer, bit, quantising, cross-lane and uniform operations (R124-R139, R147-R151,
R160-R170), as functions of words. -/

namespace Sys2Proof.Machine

open Sys2Proof

/-! ### Integers (R117, R147) -/

/-- An exact integer clamped to int32. -/
def clampS (i : Int) : Word := BitVec.ofInt 32 (max (-2147483648) (min 2147483647 i))
/-- An exact integer clamped to uint32. -/
def clampU (i : Int) : Word := BitVec.ofInt 32 (max 0 (min 4294967295 i))

def nat (w : Word) : Int := (w.toNat : Int)

def iaddV (m : AddMode) (a b : Word) : Word :=
  match m with
  | .wrap => a + b
  | .sat => clampS (a.toInt + b.toInt)
  | .satn => clampU (nat a + nat b)

def isubV (m : AddMode) (a b : Word) : Word :=
  match m with
  | .wrap => a - b
  | .sat => clampS (a.toInt - b.toInt)
  | .satn => clampU (nat a - nat b)

def imulV (m : MulMode) (a b : Word) : Word :=
  match m with
  | .low => a * b
  | .hi => BitVec.ofInt 32 (a.toInt * b.toInt / 4294967296)
  | .hin => BitVec.ofNat 32 (a.toNat * b.toNat / 4294967296)

def imadV (sat : Bool) (a b d : Word) : Word :=
  if sat then clampS (d.toInt + a.toInt * b.toInt) else d + a * b

def iminV (n : Bool) (a b : Word) : Word :=
  if n then (if a.ult b then a else b) else (if a.slt b then a else b)
def imaxV (n : Bool) (a b : Word) : Word :=
  if n then (if b.ult a then a else b) else (if b.slt a then a else b)

def iabsV (sat : Bool) (a : Word) : Word :=
  if sat then clampS (a.toInt.natAbs : Int) else (if a.msb then -a else a)
def inegV (sat : Bool) (a : Word) : Word :=
  if sat then clampS (-a.toInt) else -a

def shlV (a b : Word) : Word := if 32 ≤ b.toNat then 0 else a <<< b.toNat
def shrV (arith : Bool) (a b : Word) : Word :=
  if arith then a.sshiftRight (min b.toNat 32)
  else if 32 ≤ b.toNat then 0 else a >>> b.toNat
def rotlV (a b : Word) : Word := a.rotateLeft (b.toNat % 32)

/-- BFX and BFI field position and cut length (R148). -/
def fieldPos (b : Word) : Nat := b.toNat % 32
def fieldLen (b : Word) : Nat := min (b.toNat / 256 % 32) (32 - fieldPos b)

def bfxV (s : Bool) (a b : Word) : Word :=
  let n := fieldLen b
  let field := (a.toNat / 2 ^ fieldPos b) % 2 ^ n
  if n = 0 then 0
  else if s && field.testBit (n - 1) then BitVec.ofInt 32 ((field : Int) - (2 ^ n : Int))
  else BitVec.ofNat 32 field

def bfiV (a b d : Word) : Word :=
  let mask : Word := BitVec.ofNat 32 ((2 ^ fieldLen b - 1) * 2 ^ fieldPos b)
  (d &&& ~~~mask) ||| ((a <<< fieldPos b) &&& mask)

def popcV (a : Word) : Word := BitVec.ofNat 32 (Mask.count a)
def clzV (a : Word) : Word := BitVec.ofNat 32 (32 - bitLen a.toNat)
def brevV (a : Word) : Word := Mask.ofFn (fun i => a.getLsbD (31 - i))
def leaV (sh : BitVec 2) (a b : Word) : Word := a + (b <<< sh.toNat)

/-- The low word of a 64-bit value, and its high word (R59). -/
def lo64 (x : BitVec 64) : Word := x.setWidth 32
def hi64 (x : BitVec 64) : Word := (x >>> 32).setWidth 32
def pair64 (lo hi : Word) : BitVec 64 := hi ++ lo

/-- ICMP (R150). -/
def icmpV (c : ICond) (n : Bool) (a b : Word) : Bool :=
  match c with
  | .eq => a == b
  | .ne => a != b
  | .lt => if n then a.ult b else a.slt b
  | .le => if n then a.ule b else a.sle b
  | .gt => if n then b.ult a else b.slt a
  | .ge => if n then b.ule a else b.sle a

/-- Combining a condition into a predicate (R150). -/
def combine (m : Comb) (old c : Bool) : Bool :=
  match m with
  | .set => c
  | .and => old && c
  | .or => old || c

/-- Replacing byte `k` of a word. -/
def setByte (d : Word) (k : Nat) (i : Byte) : Word :=
  (d &&& ~~~(0xFF#32 <<< (8 * k))) ||| (zext8 i <<< (8 * k))

def moviV (f : MoviForm) (i : Byte) (d : Word) : Word :=
  match f with
  | .zext => zext8 i
  | .sext => sext8 i
  | .b1 => setByte d 1 i
  | .b2 => setByte d 2 i
  | .b3 => setByte d 3 i

/-- MOVI.b1-b3 read the destination (R151). -/
def MoviForm.readsD : MoviForm → Bool
  | .zext => false
  | .sext => false
  | _ => true

/-! ### Uniform arithmetic (R170) -/

def boolWord (b : Bool) : Word := if b then 1#32 else 0#32

def sminmaxV (n max : Bool) (a b : Word) : Word := if max then imaxV n a b else iminV n a b

def scmpV (c : SCond) (a b : Word) : Word :=
  boolWord (match c with
    | .eq => a == b
    | .ne => a != b
    | .lt => a.slt b
    | .le => a.sle b)

def scmpnV (c : SCondN) (a b : Word) : Word :=
  boolWord (match c with
    | .lt => a.ult b
    | .le => a.ule b
    | .gt => b.ult a
    | .ge => b.ule a)

def smovbV (f : SmovbForm) (i : Byte) (d : Word) : Word :=
  match f with
  | .b1 => setByte d 1 i
  | .b2 => setByte d 2 i
  | .b3 => setByte d 3 i

/-! ### Quantising (R124-R126, R137-R139) -/

/-- A quantised block: the scale byte, the elements, and what happened. -/
structure QBlock where
  e : Nat
  q : List Int
  changed : Nat     -- elements that rounding or saturation changed
  clamped : Nat     -- elements that saturated
  iv : Bool
deriving DecidableEq, Repr

/-- D[i] of Table 5-9: the 5-bit reversal of i. -/
def grainD (i : Nat) : Nat :=
  (if i.testBit 0 then 16 else 0) + (if i.testBit 1 then 8 else 0) + (if i.testBit 2 then 4 else 0) +
  (if i.testBit 3 then 2 else 0) + (if i.testBit 4 then 1 else 0)

/-- Rounding y = ±m·2^k to an integer by the grain pattern (R138). -/
def grainRound (phi i : Nat) (neg : Bool) (m : Nat) (k : Int) : Int :=
  let fl := signed neg (roundAt .rd neg m k 0).1
  if 0 ≤ k then fl
  else
    -- f = y − floor(y), in units of 2^k; f ≥ (2D+1)/64 compared in those units
    let f := signed neg m - fl * (2 ^ (-k).toNat : Int)
    if ((2 * grainD ((i + phi) % 32) + 1 : Nat) : Int) * (2 ^ (-k).toNat : Int) ≤ 64 * f then fl + 1 else fl

/-- How a block is quantised: to nearest even, or by the grain pattern with phase φ. -/
inductive QRound where
  | rne
  | grain (phi : Nat)
deriving DecidableEq, Repr

/-- Whether rounding to a multiple of 1 changes the value. -/
def notInteger (m : Nat) (k : Int) : Bool := (roundAt .rz false m k 0).2

/-- floor(log₂) of a finite nonzero value. -/
def FVal.log2 : FVal → Int
  | .fin _ m e => e + (bitLen m : Int) - 1
  | _ => 0

/-- Quantising one block of exact values (R137). -/
def quantise (w : Nat) (qmax : Nat) (mode : QRound) (x : List FVal) : QBlock :=
  let bad := x.any (fun v => match v with
    | .nan _ => true
    | .inf _ => true
    | _ => false)
  if bad then ⟨255, x.map (fun _ => 0), 0, 0, true⟩
  else
    let logs := x.filterMap (fun v => match v with
      | .fin _ m e => some (FVal.log2 (.fin false m e))
      | _ => none)
    match logs with
    | [] => ⟨127, x.map (fun _ => 0), 0, 0, false⟩
    | l :: ls =>
      let top := ls.foldl max l
      let e := max (top - (w : Int) + 127) 0
      let y (v : FVal) : Bool × Nat × Int := match v with
        | .fin n m k => (n, m, k - (e - 127))
        | _ => (false, 0, 0)
      let raw := x.zipIdx.map (fun (v, i) =>
        let (n, m, k) := y v
        match mode with
        | .rne => signed n (roundAt .rne n m k 0).1
        | .grain phi => grainRound phi i n m k)
      let clampOne (q : Int) : Int :=
        if (qmax : Int) < q then (qmax : Int) else if q < -(qmax : Int) then -(qmax : Int) else q
      ⟨e.toNat, raw.map clampOne,
       ((x.zip raw).filter (fun (v, q) => let (_, m, k) := y v; notInteger m k || decide (clampOne q ≠ q))).length,
       (raw.filter (fun q => decide (clampOne q ≠ q))).length, false⟩

/-- q·2^(e−127) as an exact value (R125). -/
def qsVal (q : Int) (e : Nat) : FVal :=
  if q = 0 then .zero false else .fin (decide (q < 0)) q.natAbs ((e : Int) - 127)

/-- DQNT (R139, R161). -/
def dqntV (f : DqForm) (ftz : Bool) (a scale : Word) : WRes :=
  let e := scale.toNat % 256
  let q := match f with
    | .q8 => (a.setWidth 8).toInt
    | .q4 => (a.setWidth 4).toInt
  if e = 255 then ⟨nanWord, ⟨false, false, true, false⟩⟩
  else (f32.finish .rne ftz ⟨qsVal q e, false⟩).w

/-! ### Residue arithmetic (R127-R131) -/

def residueM : Nat := 16776960
def k255 : Nat := 8421376
def k256 : Nat := 16711425
def k257 : Nat := 8421120

/-- A signed integer's residue (R127). -/
def residue (m : Nat) (x : Int) : Nat := (x % (m : Int)).toNat

/-- The signed integer of three channel sums (R128). -/
def residueToInt (c255 c256 c257 : Nat) : Int :=
  let x := (c255 * k255 + c256 * k256 + c257 * k257) % residueM
  if 8388480 ≤ x then (x : Int) - (residueM : Int) else (x : Int)

/-- One channel's sum of products over a K-tile. -/
def channelSum (m : Nat) (a b : List Int) : Nat :=
  (a.zip b).foldl (fun acc xy => (acc + residue m xy.1 * residue m xy.2) % m) 0

/-- The sum of a K-tile through the three channels (R127, R128). -/
def residueDot (a b : List Int) : Int :=
  residueToInt (channelSum 255 a b) (channelSum 256 a b) (channelSum 257 a b)

/-- A QS16 K-tile as four residue sums (R130). -/
def qs16Dot (a b : List Int) : Int :=
  let hi (x : Int) : Int := x / 256
  let lo (x : Int) : Int := x % 256
  residueDot (a.map hi) (b.map hi) * 65536 +
  (residueDot (a.map hi) (b.map lo) + residueDot (a.map lo) (b.map hi)) * 256 +
  residueDot (a.map lo) (b.map lo)

/-! ### Lanes -/

/-- Words of the 32 lanes of one register or source. -/
abbrev LaneWords := Nat → Word

/-- Members that contribute (R162): lanes of the mask that are live. -/
def contributes (member live : Mask) (l : Nat) : Bool := member.getLsbD l && live.getLsbD l

/-- SHFL's source lane (R163), computed in int32. -/
def shflSrc (m : ShflMode) (lane : Nat) (b : Word) : Int :=
  let l : Word := BitVec.ofNat 32 lane
  match m with
  | .idx => b.toInt
  | .xor => (l ^^^ b).toInt
  | .up => (l - b).toInt
  | .dn => (l + b).toInt

/-- An FP32 addition of a reduction: to nearest even, FTZ and flags as FADD (R168). -/
def redAdd (ftz : Bool) (a b : Word) : WRes := faddV .rne ftz a b

/-- GRED's operation (R168) and its identity (Table 6-7). -/
def gredOp (f : GredOp) (ftz : Bool) (a b : Word) : WRes :=
  match f with
  | .addI => ⟨a + b, Flags.none⟩
  | .addF32 => redAdd ftz a b
  | .min => ⟨iminV false a b, Flags.none⟩
  | .max => ⟨imaxV false a b, Flags.none⟩
  | .minN => ⟨iminV true a b, Flags.none⟩
  | .maxN => ⟨imaxV true a b, Flags.none⟩
  | .and => ⟨a &&& b, Flags.none⟩
  | .or => ⟨a ||| b, Flags.none⟩

def gredIdentity : GredOp → Word
  | .addI => 0#32
  | .addF32 => 0x80000000#32
  | .min => 0x7FFFFFFF#32
  | .max => 0x80000000#32
  | .minN => 0xFFFFFFFF#32
  | .maxN => 0#32
  | .and => 0xFFFFFFFF#32
  | .or => 0#32

/-- One level of GRED's tree: neighbours combined in pairs, ascending. -/
def gredLevel (f : GredOp) (ftz : Bool) : List WRes → List WRes
  | a :: b :: rest =>
    let r := gredOp f ftz a.w b.w
    ⟨r.w, (a.fl.or b.fl).or r.fl⟩ :: gredLevel f ftz rest
  | l => l

/-- GRED (R168): t[i] := t[i] op t[i + w] for w = 1, 2, 4, 8, 16. -/
def gredV (f : GredOp) (ftz : Bool) (t : List Word) : WRes :=
  let l0 := t.map (fun w => ⟨w, Flags.none⟩)
  let l5 := (List.range 5).foldl (fun l _ => gredLevel f ftz l) l0
  l5.headD ⟨0, Flags.none⟩

def ScanOp.gred : ScanOp → GredOp
  | .addI => .addI
  | .addF32 => .addF32
  | .min => .min
  | .max => .max

/-- SCAN (R169): the prefix of each lane, ascending, and the flags raised. -/
def scanV (f : ScanOp) (ftz excl : Bool) (member : Nat → Bool) (x : LaneWords) : List Word × Flags :=
  let go := Sys2Proof.lanes.foldl (fun (st : List Word × Word × Flags) l =>
    let (out, acc, fl) := st
    let r : WRes := if member l then gredOp (ScanOp.gred f) ftz acc (x l) else ⟨acc, Flags.none⟩
    (out ++ [if excl then acc else r.w], r.w, fl.or r.fl)) ([], gredIdentity (ScanOp.gred f), Flags.none)
  (go.1, go.2.2)

/-- Distinct words of a list. -/
def distinct (l : List Word) : List Word :=
  l.foldl (fun acc w => if acc.contains w then acc else acc ++ [w]) []

end Sys2Proof.Machine
end

