-- ==== Sys2Proof/WellFormed.lean ====
section
/-! DEFINITION. Which instruction terms are instructions of the device: every register, pair, object,
selector and code in the range Tables 4-5 to 4-14 give it (R97, R99). Range checks against a role's register
budget depend on the executing group and stand at issue (R58). -/

namespace Sys2Proof

/-- A UNI source names s0-s159 or reads zero (Table 4-5). -/
def USrc.ok : USrc → Bool
  | .reg n => decide (n.toNat < 160)
  | .zero => true

/-- A UNI destination names s0-s159 (Table 4-5). -/
def uniDst (d : BitVec 8) : Bool := decide (d.toNat < 160)

/-- A register number that is a multiple of `k` (pairs, quads, uniform blocks). -/
def aligned (k : Nat) (n : BitVec 7) : Bool := decide (n.toNat % k = 0)

/-- A predicate destination is p0-p6 (R69). -/
def predDst (p : BitVec 3) : Bool := decide (p ≠ 7#3)

/-- A rejoin mask number is 0-11 (R108). -/
def rejoinOk (j : BitVec 4) : Bool := decide (j.toNat < 12)

/-- ADD64's A names a vector pair (Table 4-6). -/
def Src.vecPair : Src → Bool
  | .v n => aligned 2 n
  | .s _ => false

/-- ADD64's paired B starts at an even register of either file (Table 4-6). -/
def Src.pair : Src → Bool
  | .v n => aligned 2 n
  | .s n => aligned 2 n

/-- The first register of a load or store of this size (R105). -/
def MemSize.regOk : MemSize → BitVec 7 → Bool
  | .dw, d => aligned 2 d
  | .qw, d => aligned 4 d
  | _, _ => true

/-- The SYS selectors of Table 19-3. -/
def sysSelectors : List Nat :=
  [0x00, 0x01, 0x02, 0x03, 0x04, 0x05, 0x06, 0x07, 0x08, 0x10, 0x11, 0x12, 0x13, 0x14, 0x20]

/-- A selector that Table 19-3 lists (R363). -/
def selectorOk (s : BitVec 8) : Bool := sysSelectors.contains s.toNat

/-- The instruction is one the encoding tables list, with every field in its range. The device's own steps and
the outside world's actions (rows without a word) have no encoding to break. -/
def WellFormed : Instr → Bool
  | .add64 zx d a b => aligned 2 d && a.vecPair && (zx || b.pair)
  | .add64Imm _ d a _ => aligned 2 d && a.vecPair
  | .icmp _ _ _ p _ _ => predDst p
  | .icmpImm _ _ _ p _ _ => predDst p
  | .vtop p _ => predDst p
  | .fcmp _ _ p _ _ => predDst p
  | .voteAnyAll _ p _ _ => predDst p
  | .voteEq p _ _ => predDst p
  | .sadd d a b => uniDst d && a.ok && b.ok
  | .ssub d a b => uniDst d && a.ok && b.ok
  | .smul _ d a b => uniDst d && a.ok && b.ok
  | .smad d a b => uniDst d && a.ok && b.ok
  | .sand d a b => uniDst d && a.ok && b.ok
  | .sor d a b => uniDst d && a.ok && b.ok
  | .sxor d a b => uniDst d && a.ok && b.ok
  | .sshl d a b => uniDst d && a.ok && b.ok
  | .sshr _ d a b => uniDst d && a.ok && b.ok
  | .sminmax _ _ d a b => uniDst d && a.ok && b.ok
  | .scmp _ d a b => uniDst d && a.ok && b.ok
  | .scmpn _ d a b => uniDst d && a.ok && b.ok
  | .saddi d a _ => uniDst d && a.ok
  | .smovi _ d _ => uniDst d
  | .smovb3 _ d _ => uniDst d
  | .smov d a => uniDst d && a.ok
  | .v2s _ d _ => uniDst d
  | .v2sLane d _ _ => uniDst d
  | .srd d c => uniDst d && decide (c.toNat < 0x16)
  | .sctl a => a.ok
  | .sld _ d a _ => uniDst d && a.ok
  | .sst _ d a _ => d.ok && a.ok
  | .sflg a => a.ok
  | .jget d j => uniDst d && decide (d.toNat % 2 = 0) && rejoinOk j
  | .ld _ sz d _ _ => sz.regOk d
  | .st _ sz d _ _ => sz.regOk d
  | .cas _ d _ _ => aligned 2 d
  | .copy _ a => aligned 4 a
  | .copy2 _ a => aligned 8 a
  | .fatom f _ a b => aligned 2 a && (decide (f ≠ .cas) || aligned 2 b)
  | .mpath d a _ => aligned 2 d && aligned 4 a
  | .tex _ _ _ a _ => aligned 4 a
  | .texg _ _ a _ => aligned 4 a
  | .ssetNew a _ => aligned 16 a
  | .mdecl _ a _ => aligned 8 a
  | .mopmap _ _ a => aligned 4 a
  | .mdrain _ _ b => aligned 4 b
  | .ltNew _ a => aligned 16 a
  | .ltAtt _ _ b => aligned 8 b
  | .ltFold _ b => aligned 4 b
  | .bra .always p _ => decide (p = 0#3)
  | .jset j _ => rejoinOk j
  | .join j => rejoinOk j
  | .leave j => rejoinOk j
  | .wait j => rejoinOk j
  | .waitT j _ p => rejoinOk j && predDst p
  | .adv a b => aligned 2 a && decide (b ≠ 127#7)
  | .sysrd _ s => selectorOk s
  | .syswr _ s => selectorOk s
  | .tlbinv a => aligned 4 a
  | .scrub a => aligned 4 a
  | .ctxsv a => aligned 2 a
  | .ctxrs a => aligned 2 a
  | _ => true

end Sys2Proof
end

