-- ==== Sys2Proof/Decode.lean ====
section
/-! DEFINITION. Decoding an instruction word in the class its clause header names (R85, R96-R109, Tables 4-4 to
4-14), total on any word and rejecting by name; the clause header (R83, R84); and the encoder. -/

namespace Sys2Proof

/-- Why a word is no instruction (R99). Each of them ends in ILLEGAL_INSTR at issue. -/
inductive DecodeError where
  | unassignedOp    -- no row of the class has this OP
  | reservedFn      -- FN is reserved for this OP
  | reservedCode    -- a code in another field is reserved
  | mustBeZero      -- a must-be-zero field is not zero
  | wrongFile       -- an operand byte names the other register file (R68, R97)
  | outOfRange      -- a register, pair or object name outside its range (R97, R99)
deriving DecidableEq, Repr

/-! ### Selector codes (Tables 4-6 to 4-14) -/

def AddMode.enc : AddMode → BitVec 2
  | .wrap => 0#2
  | .sat => 1#2
  | .satn => 2#2

def AddMode.dec (x : BitVec 2) : Except DecodeError AddMode :=
  match x.toNat with
  | 0 => .ok .wrap
  | 1 => .ok .sat
  | 2 => .ok .satn
  | _ => .error .reservedFn

def MulMode.enc : MulMode → BitVec 2
  | .low => 0#2
  | .hi => 1#2
  | .hin => 2#2

def MulMode.dec (x : BitVec 2) : Except DecodeError MulMode :=
  match x.toNat with
  | 0 => .ok .low
  | 1 => .ok .hi
  | 2 => .ok .hin
  | _ => .error .reservedFn

def Comb.enc : Comb → BitVec 2
  | .set => 0#2
  | .and => 1#2
  | .or => 2#2

def Comb.dec (x : BitVec 2) : Except DecodeError Comb :=
  match x.toNat with
  | 0 => .ok .set
  | 1 => .ok .and
  | 2 => .ok .or
  | _ => .error .reservedFn

def ICond.enc : ICond → BitVec 3
  | .eq => 0#3
  | .ne => 1#3
  | .lt => 2#3
  | .le => 3#3
  | .gt => 4#3
  | .ge => 5#3

def ICond.dec (x : BitVec 3) : Except DecodeError ICond :=
  match x.toNat with
  | 0 => .ok .eq
  | 1 => .ok .ne
  | 2 => .ok .lt
  | 3 => .ok .le
  | 4 => .ok .gt
  | 5 => .ok .ge
  | _ => .error .reservedCode

def FCond.enc : FCond → BitVec 4
  | .eq => 0#4
  | .ne => 1#4
  | .lt => 2#4
  | .le => 3#4
  | .gt => 4#4
  | .ge => 5#4
  | .un => 6#4
  | .ord => 7#4

def FCond.dec (x : BitVec 4) : Except DecodeError FCond :=
  match x.toNat with
  | 0 => .ok .eq
  | 1 => .ok .ne
  | 2 => .ok .lt
  | 3 => .ok .le
  | 4 => .ok .gt
  | 5 => .ok .ge
  | 6 => .ok .un
  | 7 => .ok .ord
  | _ => .error .reservedCode

def MoviForm.enc : MoviForm → BitVec 3
  | .zext => 0#3
  | .sext => 1#3
  | .b1 => 2#3
  | .b2 => 3#3
  | .b3 => 4#3

def MoviForm.dec (x : BitVec 3) : Except DecodeError MoviForm :=
  match x.toNat with
  | 0 => .ok .zext
  | 1 => .ok .sext
  | 2 => .ok .b1
  | 3 => .ok .b2
  | 4 => .ok .b3
  | _ => .error .reservedFn

def SmovbForm.enc : SmovbForm → BitVec 2
  | .b1 => 0#2
  | .b2 => 1#2
  | .b3 => 2#2

def SmovbForm.dec (x : BitVec 2) : Except DecodeError SmovbForm :=
  match x.toNat with
  | 0 => .ok .b1
  | 1 => .ok .b2
  | 2 => .ok .b3
  | _ => .error .reservedFn

def Rnd.enc : Rnd → BitVec 2
  | .gcr => 0#2
  | .rz => 1#2
  | .rd => 2#2
  | .ru => 3#2

def Rnd.dec (x : BitVec 2) : Except DecodeError Rnd :=
  match x.toNat with
  | 0 => .ok .gcr
  | 1 => .ok .rz
  | 2 => .ok .rd
  | _ => .ok .ru

def FunaOp.enc : FunaOp → BitVec 3
  | .neg => 0#3
  | .abs => 1#3
  | .nabs => 2#3
  | .sat => 3#3
  | .frac => 4#3
  | .floor => 5#3
  | .ceil => 6#3
  | .trunc => 7#3

def FunaOp.dec (x : BitVec 3) : Except DecodeError FunaOp :=
  match x.toNat with
  | 0 => .ok .neg
  | 1 => .ok .abs
  | 2 => .ok .nabs
  | 3 => .ok .sat
  | 4 => .ok .frac
  | 5 => .ok .floor
  | 6 => .ok .ceil
  | _ => .ok .trunc

def HFmt.enc : HFmt → BitVec 1
  | .f16 => 0#1
  | .bf16 => 1#1

def HFmt.dec (x : BitVec 1) : Except DecodeError HFmt :=
  match x.toNat with
  | 0 => .ok .f16
  | _ => .ok .bf16

def CvtForm.enc : CvtForm → BitVec 8
  | .iF32 => 0#8
  | .nF32 => 1#8
  | .f32I => 2#8
  | .f32N => 3#8
  | .f16F32 => 4#8
  | .bf16F32 => 5#8
  | .f32F16 => 6#8
  | .f32Bf16 => 7#8
  | .f32F16h => 8#8
  | .f32Bf16h => 9#8

def CvtForm.dec (x : BitVec 8) : Except DecodeError CvtForm :=
  match x.toNat with
  | 0 => .ok .iF32
  | 1 => .ok .nF32
  | 2 => .ok .f32I
  | 3 => .ok .f32N
  | 4 => .ok .f16F32
  | 5 => .ok .bf16F32
  | 6 => .ok .f32F16
  | 7 => .ok .f32Bf16
  | 8 => .ok .f32F16h
  | 9 => .ok .f32Bf16h
  | _ => .error .reservedCode

def QForm.enc : QForm → BitVec 3
  | .q8 => 0#3
  | .q8grain => 1#3
  | .q4 => 2#3
  | .q4grain => 3#3

def QForm.dec (x : BitVec 3) : Except DecodeError QForm :=
  match x.toNat with
  | 0 => .ok .q8
  | 1 => .ok .q8grain
  | 2 => .ok .q4
  | 3 => .ok .q4grain
  | _ => .error .reservedFn

def DqForm.enc : DqForm → BitVec 3
  | .q8 => 0#3
  | .q4 => 2#3

def DqForm.dec (x : BitVec 3) : Except DecodeError DqForm :=
  match x.toNat with
  | 0 => .ok .q8
  | 2 => .ok .q4
  | _ => .error .reservedFn

def ShflMode.enc : ShflMode → BitVec 2
  | .idx => 0#2
  | .xor => 1#2
  | .up => 2#2
  | .dn => 3#2

def ShflMode.dec (x : BitVec 2) : Except DecodeError ShflMode :=
  match x.toNat with
  | 0 => .ok .idx
  | 1 => .ok .xor
  | 2 => .ok .up
  | _ => .ok .dn

def KCount.enc : KCount → BitVec 2
  | .k1 => 0#2
  | .k2 => 1#2
  | .k4 => 2#2
  | .k8 => 3#2

def KCount.dec (x : BitVec 2) : Except DecodeError KCount :=
  match x.toNat with
  | 0 => .ok .k1
  | 1 => .ok .k2
  | 2 => .ok .k4
  | _ => .ok .k8

def QxOp.enc : QxOp → BitVec 3
  | .h => 0#3
  | .v => 1#3
  | .d => 2#3
  | .ddx => 3#3
  | .ddy => 4#3

def QxOp.dec (x : BitVec 3) : Except DecodeError QxOp :=
  match x.toNat with
  | 0 => .ok .h
  | 1 => .ok .v
  | 2 => .ok .d
  | 3 => .ok .ddx
  | 4 => .ok .ddy
  | _ => .error .reservedFn

def GredOp.enc : GredOp → BitVec 3
  | .addI => 0#3
  | .addF32 => 1#3
  | .min => 2#3
  | .max => 3#3
  | .minN => 4#3
  | .maxN => 5#3
  | .and => 6#3
  | .or => 7#3

def GredOp.dec (x : BitVec 3) : Except DecodeError GredOp :=
  match x.toNat with
  | 0 => .ok .addI
  | 1 => .ok .addF32
  | 2 => .ok .min
  | 3 => .ok .max
  | 4 => .ok .minN
  | 5 => .ok .maxN
  | 6 => .ok .and
  | _ => .ok .or

def ScanOp.enc : ScanOp → BitVec 2
  | .addI => 0#2
  | .addF32 => 1#2
  | .min => 2#2
  | .max => 3#2

def ScanOp.dec (x : BitVec 2) : Except DecodeError ScanOp :=
  match x.toNat with
  | 0 => .ok .addI
  | 1 => .ok .addF32
  | 2 => .ok .min
  | _ => .ok .max

def SCond.enc : SCond → BitVec 2
  | .eq => 0#2
  | .ne => 1#2
  | .lt => 2#2
  | .le => 3#2

def SCond.dec (x : BitVec 2) : Except DecodeError SCond :=
  match x.toNat with
  | 0 => .ok .eq
  | 1 => .ok .ne
  | 2 => .ok .lt
  | _ => .ok .le

def SCondN.enc : SCondN → BitVec 2
  | .lt => 0#2
  | .le => 1#2
  | .gt => 2#2
  | .ge => 3#2

def SCondN.dec (x : BitVec 2) : Except DecodeError SCondN :=
  match x.toNat with
  | 0 => .ok .lt
  | 1 => .ok .le
  | 2 => .ok .gt
  | _ => .ok .ge

def Lvl3.enc : Lvl3 → BitVec 2
  | .core => 0#2
  | .clu => 1#2
  | .chip => 2#2

def Lvl3.dec (x : BitVec 2) : Except DecodeError Lvl3 :=
  match x.toNat with
  | 0 => .ok .core
  | 1 => .ok .clu
  | 2 => .ok .chip
  | _ => .error .reservedFn

def Lvl.enc : Lvl → BitVec 2
  | .priv => 0#2
  | .core => 1#2
  | .clu => 2#2
  | .chip => 3#2

def Lvl.dec (x : BitVec 2) : Except DecodeError Lvl :=
  match x.toNat with
  | 0 => .ok .priv
  | 1 => .ok .core
  | 2 => .ok .clu
  | _ => .ok .chip

def Lvl2.enc : Lvl2 → BitVec 3
  | .core => 0#3
  | .clu => 1#3

def Lvl2.dec (x : BitVec 3) : Except DecodeError Lvl2 :=
  match x.toNat with
  | 0 => .ok .core
  | 1 => .ok .clu
  | _ => .error .reservedFn

def MemSize.enc : MemSize → BitVec 3
  | .b => 0#3
  | .bs => 1#3
  | .h => 2#3
  | .hs => 3#3
  | .w => 4#3
  | .dw => 5#3
  | .qw => 6#3

def MemSize.dec (x : BitVec 3) : Except DecodeError MemSize :=
  match x.toNat with
  | 0 => .ok .b
  | 1 => .ok .bs
  | 2 => .ok .h
  | 3 => .ok .hs
  | 4 => .ok .w
  | 5 => .ok .dw
  | 6 => .ok .qw
  | _ => .error .reservedFn

def AtOp.enc : AtOp → BitVec 3
  | .add => 0#3
  | .min => 1#3
  | .max => 2#3
  | .minN => 3#3
  | .maxN => 4#3
  | .and => 5#3
  | .or => 6#3
  | .exch => 7#3

def AtOp.dec (x : BitVec 3) : Except DecodeError AtOp :=
  match x.toNat with
  | 0 => .ok .add
  | 1 => .ok .min
  | 2 => .ok .max
  | 3 => .ok .minN
  | 4 => .ok .maxN
  | 5 => .ok .and
  | 6 => .ok .or
  | _ => .ok .exch

def Scope.enc : Scope → BitVec 3
  | .grp => 0#3
  | .core => 1#3
  | .clu => 2#3
  | .die => 3#3
  | .dev => 4#3
  | .sys => 5#3

def Scope.dec (x : BitVec 3) : Except DecodeError Scope :=
  match x.toNat with
  | 0 => .ok .grp
  | 1 => .ok .core
  | 2 => .ok .clu
  | 3 => .ok .die
  | 4 => .ok .dev
  | 5 => .ok .sys
  | _ => .error .reservedFn

def FKind.enc : FKind → BitVec 7
  | .acq => 1#7
  | .rel => 2#7
  | .ar => 3#7

def FKind.dec (x : BitVec 7) : Except DecodeError FKind :=
  match x.toNat with
  | 1 => .ok .acq
  | 2 => .ok .rel
  | 3 => .ok .ar
  | _ => .error .reservedCode

def FatomOp.enc : FatomOp → BitVec 3
  | .addI => 0#3
  | .addF32 => 1#3
  | .min => 2#3
  | .max => 3#3
  | .minN => 4#3
  | .maxN => 5#3
  | .exch => 6#3
  | .cas => 7#3

def FatomOp.dec (x : BitVec 3) : Except DecodeError FatomOp :=
  match x.toNat with
  | 0 => .ok .addI
  | 1 => .ok .addF32
  | 2 => .ok .min
  | 3 => .ok .max
  | 4 => .ok .minN
  | 5 => .ok .maxN
  | 6 => .ok .exch
  | _ => .ok .cas

def TrayQ.enc : TrayQ → BitVec 3
  | .cnt => 0#3
  | .free => 1#3
  | .state => 2#3

def TrayQ.dec (x : BitVec 3) : Except DecodeError TrayQ :=
  match x.toNat with
  | 0 => .ok .cnt
  | 1 => .ok .free
  | 2 => .ok .state
  | _ => .error .reservedFn

def TexFilter.enc : TexFilter → BitVec 2
  | .point => 0#2
  | .bil => 1#2
  | .tri => 2#2
  | .aniso => 3#2

def TexFilter.dec (x : BitVec 2) : Except DecodeError TexFilter :=
  match x.toNat with
  | 0 => .ok .point
  | 1 => .ok .bil
  | 2 => .ok .tri
  | _ => .ok .aniso

def SsetQ.enc : SsetQ → BitVec 3
  | .state => 0#3
  | .chunks => 1#3
  | .depth => 2#3
  | .excl => 3#3

def SsetQ.dec (x : BitVec 3) : Except DecodeError SsetQ :=
  match x.toNat with
  | 0 => .ok .state
  | 1 => .ok .chunks
  | 2 => .ok .depth
  | 3 => .ok .excl
  | _ => .error .reservedFn

def SresMode.enc : SresMode → BitVec 3
  | .replace => 0#3
  | .add => 1#3
  | .atop => 2#3
  | .min => 3#3
  | .max => 4#3

def SresMode.dec (x : BitVec 3) : Except DecodeError SresMode :=
  match x.toNat with
  | 0 => .ok .replace
  | 1 => .ok .add
  | 2 => .ok .atop
  | 3 => .ok .min
  | 4 => .ok .max
  | _ => .error .reservedFn

def MmaKind.enc : MmaKind → BitVec 3
  | .dense => 0#3
  | .sp => 1#3
  | .grp => 2#3

def MmaKind.dec (x : BitVec 3) : Except DecodeError MmaKind :=
  match x.toNat with
  | 0 => .ok .dense
  | 1 => .ok .sp
  | 2 => .ok .grp
  | _ => .error .reservedFn

def MapKind.enc : MapKind → BitVec 3
  | .core => 0#3
  | .clu => 1#3
  | .hnd => 2#3

def MapKind.dec (x : BitVec 3) : Except DecodeError MapKind :=
  match x.toNat with
  | 0 => .ok .core
  | 1 => .ok .clu
  | 2 => .ok .hnd
  | _ => .error .reservedFn

def Shape.enc : Shape → BitVec 3
  | .s256 => 0#3
  | .s128 => 1#3
  | .s64 => 2#3

def Shape.dec (x : BitVec 3) : Except DecodeError Shape :=
  match x.toNat with
  | 0 => .ok .s256
  | 1 => .ok .s128
  | 2 => .ok .s64
  | _ => .error .reservedFn

def DrainForm.enc : DrainForm → BitVec 3
  | .stF32 => 0#3
  | .addF32 => 1#3
  | .stQ8 => 2#3
  | .stF16 => 3#3
  | .stBf16 => 4#3

def DrainForm.dec (x : BitVec 3) : Except DecodeError DrainForm :=
  match x.toNat with
  | 0 => .ok .stF32
  | 1 => .ok .addF32
  | 2 => .ok .stQ8
  | 3 => .ok .stF16
  | 4 => .ok .stBf16
  | _ => .error .reservedFn

def LtQ.enc : LtQ → BitVec 3
  | .gen => 0#3
  | .cnt => 1#3
  | .fold => 2#3

def LtQ.dec (x : BitVec 3) : Except DecodeError LtQ :=
  match x.toNat with
  | 0 => .ok .gen
  | 1 => .ok .cnt
  | 2 => .ok .fold
  | _ => .error .reservedFn

def BraCond.enc : BraCond → BitVec 3
  | .always => 0#3
  | .ifT => 1#3
  | .ifN => 2#3

def BraCond.dec (x : BitVec 3) : Except DecodeError BraCond :=
  match x.toNat with
  | 0 => .ok .always
  | 1 => .ok .ifT
  | 2 => .ok .ifN
  | _ => .error .reservedFn

/-! ### Operand bytes (Table 4-5) -/

def Src.enc : Src → BitVec 8
  | .v n => 0#1 ++ n
  | .s n => 1#1 ++ n

def Src.dec (b : BitVec 8) : Src :=
  if b.getLsbD 7 then .s (b.setWidth 7) else .v (b.setWidth 7)

def USrc.enc : USrc → BitVec 8
  | .reg n => n
  | .zero => 0xF0#8

def USrc.dec (b : BitVec 8) : Except DecodeError USrc :=
  if b = 0xF0#8 then .ok .zero else if b.toNat < 160 then .ok (.reg b) else .error .outOfRange

def SysSrc.enc : SysSrc → BitVec 8
  | .h n => 0#4 ++ n
  | .s n => 1#1 ++ n

def SysSrc.dec (b : BitVec 8) : Except DecodeError SysSrc :=
  if b.getLsbD 7 then .ok (.s (b.setWidth 7))
  else if b.toNat < 16 then .ok (.h (b.setWidth 4)) else .error .outOfRange

/-- A byte that must name a vector register. -/
def vecByte (b : BitVec 8) : Except DecodeError (BitVec 7) :=
  if b.getLsbD 7 then .error .wrongFile else .ok (b.setWidth 7)

/-- A byte that must name a uniform. -/
def uniByte (b : BitVec 8) : Except DecodeError (BitVec 7) :=
  if b.getLsbD 7 then .ok (b.setWidth 7) else .error .wrongFile

def encV (n : BitVec 7) : BitVec 8 := 0#1 ++ n
def encS (n : BitVec 7) : BitVec 8 := 1#1 ++ n

/-- A field that must be zero. -/
def zeroField {n : Nat} (x : BitVec n) : Except DecodeError Unit :=
  if x = 0#n then .ok () else .error .mustBeZero

/-- An FN field that must be zero. -/
def zeroFn {n : Nat} (x : BitVec n) : Except DecodeError Unit :=
  if x = 0#n then .ok () else .error .reservedFn

/-- A number held in the low bits of a wider field (an object number, a predicate). -/
def objField {n : Nat} (k : Nat) (x : BitVec n) : Except DecodeError (BitVec k) :=
  if x.toNat < 2 ^ k then .ok (x.setWidth k) else .error .outOfRange

def encObj {k : Nat} (n : Nat) (x : BitVec k) : BitVec n := x.setWidth n

/-! ### Formats (Table 4-4) -/

/-- OP, FN, D (or X), A, B of every class but UNI. -/
def word3 (op : BitVec 6) (fn : BitVec 3) (d : BitVec 7) (a b : BitVec 8) : Word :=
  op ++ fn ++ d ++ a ++ b

/-- OP, FN, D, A, B of a UNI word. -/
def wordU (op : BitVec 6) (fn : BitVec 2) (d a b : BitVec 8) : Word :=
  op ++ fn ++ d ++ a ++ b

def fOp (w : Word) : BitVec 6 := w.extractLsb' 26 6
def fFn (w : Word) : BitVec 3 := w.extractLsb' 23 3
def fD (w : Word) : BitVec 7 := w.extractLsb' 16 7
def fA (w : Word) : BitVec 8 := w.extractLsb' 8 8
def fB (w : Word) : BitVec 8 := w.extractLsb' 0 8
def fUFn (w : Word) : BitVec 2 := w.extractLsb' 24 2
def fUD (w : Word) : BitVec 8 := w.extractLsb' 16 8

/-- FN[2] beside a two-bit selector. -/
def fn21 (hi : Bool) (lo : BitVec 2) : BitVec 3 := BitVec.ofBool hi ++ lo
def fnHi (fn : BitVec 3) : Bool := fn.getLsbD 2
def fnLo (fn : BitVec 3) : BitVec 2 := fn.setWidth 2
/-- FN[2] and FN[1] zero, FN[0] a flag. -/
def fnBit (b : Bool) : BitVec 3 := 0#2 ++ BitVec.ofBool b
def decBit (fn : BitVec 3) : Except DecodeError Bool :=
  match fn.toNat with
  | 0 => .ok false
  | 1 => .ok true
  | _ => .error .reservedFn
/-- FN[0] a flag, FN[1] zero. -/
def lo2Bit (b : Bool) : BitVec 2 := 0#1 ++ BitVec.ofBool b
def decLo2Bit (x : BitVec 2) : Except DecodeError Bool :=
  match x.toNat with
  | 0 => .ok false
  | 1 => .ok true
  | _ => .error .reservedFn
/-- FN[2] must be zero (no immediate form). -/
def noHi (fn : BitVec 3) : Except DecodeError (BitVec 2) :=
  if fnHi fn then .error .reservedFn else .ok (fnLo fn)

/-! ### The seven classes -/

/-- Table 4-6. -/
def decodeVec (op : BitVec 6) (fn : BitVec 3) (d : BitVec 7) (a b : BitVec 8) :
    Except DecodeError Instr :=
  match op.toNat with
  | 0x00 => do
    let m ← AddMode.dec (fnLo fn)
    pure (if fnHi fn then .iaddImm m d (Src.dec a) b else .iadd m d (Src.dec a) (Src.dec b))
  | 0x01 => do
    let m ← AddMode.dec (fnLo fn)
    pure (if fnHi fn then .isubImm m d (Src.dec a) b else .isub m d (Src.dec a) (Src.dec b))
  | 0x02 => do
    let m ← MulMode.dec (fnLo fn)
    pure (if fnHi fn then .imulImm m d (Src.dec a) b else .imul m d (Src.dec a) (Src.dec b))
  | 0x03 => do
    let s ← decLo2Bit (fnLo fn)
    pure (if fnHi fn then .imadImm s d (Src.dec a) b else .imad s d (Src.dec a) (Src.dec b))
  | 0x04 => do
    let n ← decLo2Bit (fnLo fn)
    pure (if fnHi fn then .iminImm n d (Src.dec a) b else .imin n d (Src.dec a) (Src.dec b))
  | 0x05 => do
    let n ← decLo2Bit (fnLo fn)
    pure (if fnHi fn then .imaxImm n d (Src.dec a) b else .imax n d (Src.dec a) (Src.dec b))
  | 0x06 => do let s ← decBit fn; zeroField b; pure (.iabs s d (Src.dec a))
  | 0x07 => do let s ← decBit fn; zeroField b; pure (.ineg s d (Src.dec a))
  | 0x08 => do
    zeroFn (fnLo fn)
    pure (if fnHi fn then .andImm d (Src.dec a) b else .and d (Src.dec a) (Src.dec b))
  | 0x09 => do
    zeroFn (fnLo fn)
    pure (if fnHi fn then .orImm d (Src.dec a) b else .or d (Src.dec a) (Src.dec b))
  | 0x0A => do
    zeroFn (fnLo fn)
    pure (if fnHi fn then .xorImm d (Src.dec a) b else .xor d (Src.dec a) (Src.dec b))
  | 0x0B => do
    zeroFn (fnLo fn)
    pure (if fnHi fn then .andnImm d (Src.dec a) b else .andn d (Src.dec a) (Src.dec b))
  | 0x0C => do
    zeroFn (fnLo fn)
    pure (if fnHi fn then .shlImm d (Src.dec a) b else .shl d (Src.dec a) (Src.dec b))
  | 0x0D => do
    let s ← decLo2Bit (fnLo fn)
    pure (if fnHi fn then .shrImm s d (Src.dec a) b else .shr s d (Src.dec a) (Src.dec b))
  | 0x0E => do
    zeroFn (fnLo fn)
    pure (if fnHi fn then .rotlImm d (Src.dec a) b else .rotl d (Src.dec a) (Src.dec b))
  | 0x0F => do let s ← decBit fn; pure (.bfx s d (Src.dec a) (Src.dec b))
  | 0x10 => do zeroFn fn; pure (.bfi d (Src.dec a) (Src.dec b))
  | 0x11 => do zeroFn fn; zeroField b; pure (.popc d (Src.dec a))
  | 0x12 => do zeroFn fn; zeroField b; pure (.clz d (Src.dec a))
  | 0x13 => do zeroFn fn; zeroField b; pure (.brev d (Src.dec a))
  | 0x14 =>
    .ok (if fnHi fn then .leaImm (fnLo fn) d (Src.dec a) b else .lea (fnLo fn) d (Src.dec a) (Src.dec b))
  | 0x15 => do
    let z ← decLo2Bit (fnLo fn)
    pure (if fnHi fn then .add64Imm z d (Src.dec a) b else .add64 z d (Src.dec a) (Src.dec b))
  | 0x16 => do
    let m ← Comb.dec (fnLo fn)
    let c ← ICond.dec (d.extractLsb' 4 3)
    pure (if fnHi fn then .icmpImm m c (d.getLsbD 3) (d.setWidth 3) (Src.dec a) b
      else .icmp m c (d.getLsbD 3) (d.setWidth 3) (Src.dec a) (Src.dec b))
  | 0x17 => .ok (.sel fn d (Src.dec a) (Src.dec b))
  | 0x18 => do let f ← MoviForm.dec fn; zeroField a; pure (.movi f d b)
  | 0x19 => do zeroFn fn; zeroField b; pure (.mov d (Src.dec a))
  | 0x1A => do zeroField a; zeroField b; pure (.ptov fn d)
  | 0x1B => do zeroFn fn; let p ← objField 3 d; zeroField b; pure (.vtop p (Src.dec a))
  | 0x20 => do let r ← noHi fn; let r ← Rnd.dec r; pure (.fadd r d (Src.dec a) (Src.dec b))
  | 0x21 => do let r ← noHi fn; let r ← Rnd.dec r; pure (.fsub r d (Src.dec a) (Src.dec b))
  | 0x22 => do let r ← noHi fn; let r ← Rnd.dec r; pure (.fmul r d (Src.dec a) (Src.dec b))
  | 0x23 => do let r ← noHi fn; let r ← Rnd.dec r; pure (.ffma r d (Src.dec a) (Src.dec b))
  | 0x24 => do let r ← noHi fn; let r ← Rnd.dec r; pure (.ffms r d (Src.dec a) (Src.dec b))
  | 0x25 => do let n ← decBit fn; pure (.fmin n d (Src.dec a) (Src.dec b))
  | 0x26 => do let n ← decBit fn; pure (.fmax n d (Src.dec a) (Src.dec b))
  | 0x27 => do
    let m ← noHi fn
    let m ← Comb.dec m
    let c ← FCond.dec (d.extractLsb' 3 4)
    pure (.fcmp m c (d.setWidth 3) (Src.dec a) (Src.dec b))
  | 0x28 => do let f ← FunaOp.dec fn; zeroField b; pure (.funa f d (Src.dec a))
  | 0x29 => do zeroFn fn; zeroField b; pure (.frcp d (Src.dec a))
  | 0x2A => do zeroFn fn; zeroField b; pure (.frsq d (Src.dec a))
  | 0x2B => do let r ← noHi fn; let r ← Rnd.dec r; zeroField b; pure (.fsqrt r d (Src.dec a))
  | 0x2C => do zeroFn fn; zeroField b; pure (.fex2 d (Src.dec a))
  | 0x2D => do zeroFn fn; zeroField b; pure (.flg2 d (Src.dec a))
  | 0x2E => do zeroFn fn; zeroField b; pure (.fsinr d (Src.dec a))
  | 0x2F => do zeroFn fn; zeroField b; pure (.fcosr d (Src.dec a))
  | 0x30 => do let t ← decBit fn; let t ← HFmt.dec (BitVec.ofBool t); pure (.padd2 t d (Src.dec a) (Src.dec b))
  | 0x31 => do let t ← decBit fn; let t ← HFmt.dec (BitVec.ofBool t); pure (.pmul2 t d (Src.dec a) (Src.dec b))
  | 0x32 => do let t ← decBit fn; let t ← HFmt.dec (BitVec.ofBool t); pure (.pfma2 t d (Src.dec a) (Src.dec b))
  | 0x33 => do
    let x ← noHi fn
    let t ← HFmt.dec (x.setWidth 1)
    pure (.pminmax2 (x.getLsbD 1) t d (Src.dec a) (Src.dec b))
  | 0x34 => do
    let r ← Rnd.dec (fnLo fn)
    let c ← CvtForm.dec b
    pure (.cvt (fnHi fn) r d (Src.dec a) c)
  | 0x35 => do let t ← decBit fn; let t ← HFmt.dec (BitVec.ofBool t); pure (.cvtp t d (Src.dec a) (Src.dec b))
  | 0x36 => do let f ← QForm.dec fn; let a ← vecByte a; let b ← uniByte b; pure (.qnt f d a b)
  | 0x37 => do let f ← DqForm.dec fn; let a ← vecByte a; let b ← uniByte b; pure (.dqnt f d a b)
  | 0x38 => do
    let m ← ShflMode.dec (fnLo fn)
    let a ← vecByte a
    pure (if fnHi fn then .shflImm m d a b else .shfl m d a (Src.dec b))
  | 0x39 => do
    let k ← noHi fn
    let k ← KCount.dec k
    let a ← vecByte a
    pure (.xgath k d a (Src.dec b))
  | 0x3A => do let f ← QxOp.dec fn; let a ← vecByte a; zeroField b; pure (.qx f d a)
  | 0x3B => do
    let b ← uniByte b
    match fn.toNat with
    | 0 => do let p ← objField 3 d; let q ← objField 3 a; pure (.voteAnyAll false p q b)
    | 1 => do let p ← objField 3 d; let q ← objField 3 a; pure (.voteAnyAll true p q b)
    | 2 => do let q ← objField 3 a; pure (.voteBallot d q b)
    | 3 => do let p ← objField 3 d; let a ← vecByte a; pure (.voteEq p a b)
    | _ => .error .reservedFn
  | 0x3C => do
    let c ← decBit fn
    let a ← vecByte a
    if c then do let b ← uniByte b; pure (.matchCount d a b)
    else do zeroField b; pure (.matchLanes d a)
  | 0x3D => do let f ← GredOp.dec fn; let a ← vecByte a; let b ← uniByte b; pure (.gred f d a b)
  | 0x3E => do
    let m ← ScanOp.dec (fnLo fn)
    let a ← vecByte a
    let b ← uniByte b
    pure (.scan (fnHi fn) m d a b)
  | _ => .error .unassignedOp

/-- Table 4-8. -/
def decodeUni (op : BitVec 6) (fn : BitVec 2) (d a b : BitVec 8) : Except DecodeError Instr :=
  match op.toNat with
  | 0x00 => do zeroFn fn; let a ← USrc.dec a; let b ← USrc.dec b; pure (.sadd d a b)
  | 0x01 => do zeroFn fn; let a ← USrc.dec a; let b ← USrc.dec b; pure (.ssub d a b)
  | 0x02 => do let f ← MulMode.dec fn; let a ← USrc.dec a; let b ← USrc.dec b; pure (.smul f d a b)
  | 0x03 => do zeroFn fn; let a ← USrc.dec a; let b ← USrc.dec b; pure (.smad d a b)
  | 0x04 => do zeroFn fn; let a ← USrc.dec a; let b ← USrc.dec b; pure (.sand d a b)
  | 0x05 => do zeroFn fn; let a ← USrc.dec a; let b ← USrc.dec b; pure (.sor d a b)
  | 0x06 => do zeroFn fn; let a ← USrc.dec a; let b ← USrc.dec b; pure (.sxor d a b)
  | 0x07 => do zeroFn fn; let a ← USrc.dec a; let b ← USrc.dec b; pure (.sshl d a b)
  | 0x08 => do let s ← decLo2Bit fn; let a ← USrc.dec a; let b ← USrc.dec b; pure (.sshr s d a b)
  | 0x09 => do
    let a ← USrc.dec a
    let b ← USrc.dec b
    pure (.sminmax (fn.getLsbD 1) (fn.getLsbD 0) d a b)
  | 0x0A => do let c ← SCond.dec fn; let a ← USrc.dec a; let b ← USrc.dec b; pure (.scmp c d a b)
  | 0x0B => do let c ← SCondN.dec fn; let a ← USrc.dec a; let b ← USrc.dec b; pure (.scmpn c d a b)
  | 0x0C => do zeroFn fn; let a ← USrc.dec a; pure (.saddi d a b)
  | 0x0D => do let s ← decLo2Bit fn; zeroField a; pure (.smovi s d b)
  | 0x0E => do let f ← SmovbForm.dec fn; zeroField a; pure (.smovb3 f d b)
  | 0x0F => do zeroFn fn; let a ← USrc.dec a; zeroField b; pure (.smov d a)
  | 0x10 =>
    match fn.toNat with
    | 0 => do let a ← vecByte a; zeroField b; pure (.v2s false d a)
    | 1 => do let a ← vecByte a; zeroField b; pure (.v2s true d a)
    | 2 => do let a ← vecByte a; let l ← objField 5 b; pure (.v2sLane d a l)
    | _ => .error .reservedFn
  | 0x11 => do zeroFn fn; zeroField a; pure (.srd d b)
  | 0x12 => do zeroFn fn; zeroField d; let a ← USrc.dec a; zeroField b; pure (.sctl a)
  | 0x13 => do let l ← Lvl3.dec fn; let a ← USrc.dec a; pure (.sld l d a b)
  | 0x14 => do let l ← Lvl3.dec fn; let d ← USrc.dec d; let a ← USrc.dec a; pure (.sst l d a b)
  | 0x15 => do zeroFn fn; zeroField d; let a ← USrc.dec a; zeroField b; pure (.sflg a)
  | 0x16 => do zeroFn fn; let j ← objField 4 a; zeroField b; pure (.jget d j)
  | _ => .error .unassignedOp

/-- Table 4-10. -/
def decodeMem (op : BitVec 6) (fn : BitVec 3) (d : BitVec 7) (a b : BitVec 8) :
    Except DecodeError Instr :=
  match op.toNat with
  | 0x00 => do let z ← MemSize.dec fn; pure (.ld .priv z d (Src.dec a) b)
  | 0x01 => do let z ← MemSize.dec fn; pure (.ld .core z d (Src.dec a) b)
  | 0x02 => do let z ← MemSize.dec fn; pure (.ld .clu z d (Src.dec a) b)
  | 0x03 => do let z ← MemSize.dec fn; pure (.ld .chip z d (Src.dec a) b)
  | 0x04 => do let z ← MemSize.dec fn; pure (.st .priv z d (Src.dec a) b)
  | 0x05 => do let z ← MemSize.dec fn; pure (.st .core z d (Src.dec a) b)
  | 0x06 => do let z ← MemSize.dec fn; pure (.st .clu z d (Src.dec a) b)
  | 0x07 => do let z ← MemSize.dec fn; pure (.st .chip z d (Src.dec a) b)
  | 0x08 => do let k ← noHi fn; let k ← KCount.dec k; pure (.ldln .core k d (Src.dec a) b)
  | 0x09 => do let k ← noHi fn; let k ← KCount.dec k; pure (.ldln .clu k d (Src.dec a) b)
  | 0x0A => do let k ← noHi fn; let k ← KCount.dec k; pure (.ldln .chip k d (Src.dec a) b)
  | 0x0C => do let f ← AtOp.dec fn; pure (.atm .core f d (Src.dec a) b)
  | 0x0D => do let f ← AtOp.dec fn; pure (.atm .clu f d (Src.dec a) b)
  | 0x0E => do let f ← AtOp.dec fn; pure (.atm .chip f d (Src.dec a) b)
  | 0x0F => do let l ← noHi fn; let l ← Lvl3.dec l; pure (.cas l d (Src.dec a) b)
  | 0x10 => do
    let s ← Scope.dec fn
    let k ← FKind.dec d
    zeroField a
    zeroField b
    pure (.fence s k)
  | 0x11 => do let l ← Lvl2.dec fn; let a ← uniByte a; pure (.pbarInit l d a b)
  | 0x12 => do let l ← Lvl2.dec fn; zeroField d; let a ← uniByte a; pure (.pbarArr l a b)
  | 0x13 => do
    let l ← Lvl2.dec fn
    let h ← objField 1 d
    let a ← uniByte a
    pure (.pbarWait l (h.getLsbD 0) a b)
  | _ => .error .unassignedOp

/-- Table 4-11. -/
def decodeEng (op : BitVec 6) (fn : BitVec 3) (d : BitVec 7) (a b : BitVec 8) :
    Except DecodeError Instr :=
  match op.toNat with
  | 0x00 => do zeroField d; let a ← uniByte a; zeroField b; pure (.copy fn a)
  | 0x01 => do zeroField d; let a ← uniByte a; zeroField b; pure (.copy2 fn a)
  | 0x02 => do zeroField a; zeroField b; pure (.wptr fn d)
  | 0x03 => do zeroField d; let a ← uniByte a; zeroField b; pure (.cwait fn a)
  | 0x04 => do zeroField d; zeroField a; zeroField b; pure (.crst fn)
  | 0x08 => do let f ← FatomOp.dec fn; let a ← vecByte a; let b ← vecByte b; pure (.fatom f d a b)
  | 0x10 => do let n ← decBit fn; let a ← uniByte a; let b ← vecByte b; pure (.trayPush n d a b)
  | 0x11 => do
    let x ← noHi fn
    let a ← uniByte a
    if x.getLsbD 1 then do let b ← uniByte b; pure (.trayPopbSteal (x.getLsbD 0) d a b)
    else do zeroField b; pure (.trayPopb (x.getLsbD 0) d a)
  | 0x12 => do zeroFn fn; let a ← uniByte a; let b ← vecByte b; pure (.trayInsd d a b)
  | 0x13 => do let q ← TrayQ.dec fn; let a ← uniByte a; zeroField b; pure (.trayQry q d a)
  | 0x14 => do zeroFn fn; zeroField d; let a ← uniByte a; zeroField b; pure (.trayClose a)
  | 0x15 => do zeroFn fn; let a ← uniByte a; let b ← vecByte b; pure (.mpath d a b)
  | 0x18 => do
    let f ← TexFilter.dec (fnLo fn)
    let a ← uniByte a
    let b ← vecByte b
    pure (.tex (fnHi fn) f d a b)
  | 0x19 => do let c ← noHi fn; let a ← uniByte a; let b ← vecByte b; pure (.texg c d a b)
  | 0x20 => do zeroFn fn; zeroField d; let a ← uniByte a; let b ← uniByte b; pure (.ssetNew a b)
  | 0x21 => do zeroFn fn; zeroField d; let a ← uniByte a; zeroField b; pure (.ssetBuild a)
  | 0x22 => do zeroFn fn; zeroField d; let a ← uniByte a; zeroField b; pure (.ssetBind a)
  | 0x23 => do let q ← SsetQ.dec fn; let a ← uniByte a; zeroField b; pure (.ssetQry q d a)
  | 0x24 => do zeroFn fn; zeroField d; let a ← uniByte a; let b ← vecByte b; pure (.prim a b)
  | 0x25 => do let m ← SresMode.dec fn; zeroField d; let a ← vecByte a; let b ← vecByte b; pure (.sres m a b)
  | 0x26 => do zeroFn fn; zeroField d; let a ← uniByte a; zeroField b; pure (.rclear a)
  | 0x27 => do zeroFn fn; zeroField d; let a ← uniByte a; zeroField b; pure (.rdecomp a)
  | 0x30 => do zeroFn fn; zeroField d; let a ← uniByte a; zeroField b; pure (.permit a)
  | _ => .error .unassignedOp

/-- Table 4-12. -/
def decodeMat (op : BitVec 6) (fn : BitVec 3) (d : BitVec 7) (a b : BitVec 8) :
    Except DecodeError Instr :=
  match op.toNat with
  | 0x00 => do zeroFn fn; let g ← objField 3 d; let a ← uniByte a; let b ← uniByte b; pure (.mdecl g a b)
  | 0x01 => do let f ← MmaKind.dec fn; let g ← objField 3 d; zeroField a; zeroField b; pure (.mma f g)
  | 0x02 => do
    let f ← MapKind.dec fn
    let m ← objField 3 d
    let a ← uniByte a
    zeroField b
    pure (.mopmap f m a)
  | 0x03 => do let s ← decBit fn; zeroField d; zeroField a; zeroField b; pure (.mopf s)
  | 0x04 => do let s ← Shape.dec fn; let t ← objField 3 d; zeroField a; zeroField b; pure (.macq s t)
  | 0x05 => do zeroFn fn; let t ← objField 3 d; zeroField a; zeroField b; pure (.mrel t)
  | 0x06 => do zeroFn fn; let t ← objField 3 d; zeroField a; zeroField b; pure (.mzero t)
  | 0x07 => do zeroFn fn; let t ← objField 3 d; zeroField a; zeroField b; pure (.mwait t)
  | 0x08 =>
    if fnHi fn then do
      zeroFn (fnLo fn)
      zeroField (d.setWidth 2)
      let t ← objField 3 a
      zeroField b
      pure (.mrdStat (d.extractLsb' 2 5) t)
    else do
      let k ← KCount.dec (fnLo fn)
      let t ← objField 3 a
      let b ← uniByte b
      pure (.mrd k d t b)
  | 0x09 => do
    let k ← noHi fn
    let k ← KCount.dec k
    let t ← objField 3 a
    let b ← uniByte b
    pure (.mwr k d t b)
  | 0x0A => do let f ← DrainForm.dec fn; zeroField d; let t ← objField 3 a; let b ← uniByte b; pure (.mdrain f t b)
  | 0x10 => do zeroFn fn; let a ← uniByte a; zeroField b; pure (.ltNew d a)
  | 0x11 => do zeroFn fn; let a ← uniByte a; zeroField b; pure (.ltFork d a)
  | 0x12 => do let u ← decBit fn; zeroField d; let a ← uniByte a; let b ← uniByte b; pure (.ltAtt u a b)
  | 0x13 => do zeroFn fn; zeroField d; let a ← uniByte a; let b ← uniByte b; pure (.ltDet a b)
  | 0x14 => do zeroFn fn; zeroField d; let a ← uniByte a; let b ← uniByte b; pure (.ltFold a b)
  | 0x15 => do let f ← LtQ.dec fn; let a ← uniByte a; zeroField b; pure (.ltQry f d a)
  | _ => .error .unassignedOp

/-- Table 4-13. -/
def decodeCtl (op : BitVec 6) (fn : BitVec 3) (d : BitVec 7) (a b : BitVec 8) :
    Except DecodeError Instr :=
  match op.toNat with
  | 0x00 => do let c ← BraCond.dec fn; let p ← objField 3 d; zeroField a; pure (.bra c p b)
  | 0x01 => do let z ← decBit fn; zeroField d; let a ← uniByte a; pure (.brau z a b)
  | 0x02 => do zeroFn fn; zeroField d; let a ← uniByte a; zeroField b; pure (.bras a)
  | 0x03 => do zeroFn fn; zeroField d; let a ← vecByte a; zeroField b; pure (.brx a)
  | 0x04 => do
    let far ← decBit fn
    if far then do let a ← uniByte a; zeroField b; pure (.callFar d a)
    else do zeroField a; pure (.call d b)
  | 0x05 => do zeroFn fn; zeroField d; let a ← vecByte a; zeroField b; pure (.ret a)
  | 0x06 => do zeroFn fn; let j ← objField 4 d; let a ← uniByte a; zeroField b; pure (.jset j a)
  | 0x07 => do zeroFn fn; let j ← objField 4 d; zeroField a; zeroField b; pure (.join j)
  | 0x08 => do zeroFn fn; let j ← objField 4 d; zeroField a; zeroField b; pure (.leave j)
  | 0x09 => do
    let t ← decBit fn
    let j ← objField 4 d
    if t then do let a ← uniByte a; let p ← objField 3 b; pure (.waitT j a p)
    else do zeroField a; zeroField b; pure (.wait j)
  | 0x0A => do let r ← decBit fn; let i ← objField 4 d; zeroField a; zeroField b; pure (.bar r i)
  | 0x0B => do let r ← decBit fn; let i ← objField 4 d; zeroField a; zeroField b; pure (.barArr r i)
  | 0x0C => do let r ← decBit fn; let i ← objField 4 d; zeroField a; zeroField b; pure (.barWait r i)
  | 0x0D => do zeroFn fn; zeroField d; zeroField a; zeroField b; pure .exit
  | 0x0E => do zeroFn fn; zeroField d; let a ← uniByte a; let b ← uniByte b; pure (.adv a b)
  | 0x0F => do zeroFn fn; zeroField d; zeroField a; zeroField b; pure .yield
  | 0x10 => do zeroFn fn; zeroField d; zeroField a; zeroField b; pure .nop
  | 0x11 => do zeroFn fn; zeroField d; zeroField a; pure (.trap b)
  | 0x12 => do zeroFn fn; zeroField d; zeroField a; pure (.bkpt b)
  | _ => .error .unassignedOp

/-- Table 4-14. -/
def decodeSys (op : BitVec 6) (fn : BitVec 3) (d : BitVec 7) (a b : BitVec 8) :
    Except DecodeError Instr :=
  match op.toNat with
  | 0x00 => do zeroFn fn; let d ← objField 4 d; zeroField a; pure (.sysrd d b)
  | 0x01 => do zeroFn fn; zeroField d; let a ← SysSrc.dec a; pure (.syswr a b)
  | 0x02 => do
    zeroField d
    zeroField a
    zeroField b
    match fn.toNat with
    | 0 => .ok .rthFix
    | 1 => .ok .rthSkip
    | 2 => .ok .rthRetry
    | 3 => .ok .rthKill
    | _ => .error .reservedFn
  | 0x03 => do zeroFn fn; zeroField d; let a ← uniByte a; zeroField b; pure (.tlbinv a)
  | 0x04 => do zeroFn fn; zeroField d; let a ← uniByte a; zeroField b; pure (.scrub a)
  | 0x05 => do zeroFn fn; zeroField d; let a ← uniByte a; zeroField b; pure (.ctxsv a)
  | 0x06 => do zeroFn fn; zeroField d; let a ← uniByte a; zeroField b; pure (.ctxrs a)
  | _ => .error .unassignedOp

/-- The fields of a word, read as its class lays them out, before the range checks of `WellFormed`. -/
def decodeFields (c : Cls) (w : Word) : Except DecodeError Instr :=
  match c with
  | .vec => decodeVec (fOp w) (fFn w) (fD w) (fA w) (fB w)
  | .uni => decodeUni (fOp w) (fUFn w) (fUD w) (fA w) (fB w)
  | .mem => decodeMem (fOp w) (fFn w) (fD w) (fA w) (fB w)
  | .eng => decodeEng (fOp w) (fFn w) (fD w) (fA w) (fB w)
  | .mat => decodeMat (fOp w) (fFn w) (fD w) (fA w) (fB w)
  | .ctl => decodeCtl (fOp w) (fFn w) (fD w) (fA w) (fB w)
  | .sys => decodeSys (fOp w) (fFn w) (fD w) (fA w) (fB w)

/-- Decoding a word in a class: a well-formed instruction, or the name of what is wrong with the word (R99). -/
def decode (c : Cls) (w : Word) : Except DecodeError Instr :=
  match decodeFields c w with
  | .ok i => if WellFormed i then .ok i else .error .outOfRange
  | .error e => .error e

/-- What a word of a class stands for at issue: its instruction, or a word that is none (R99). -/
def decodeInstr (c : Cls) (w : Word) : Instr :=
  match decode c w with
  | .ok i => i
  | .error _ => .unassignedOp c w

/-! ### Clause headers (R83, R84, Table 4-1, Table 4-2) -/

/-- A clause header's fields. -/
structure Header where
  n : Nat          -- instructions in the clause, 1-15
  cls : Cls
  b : Bool         -- the run ends after this clause
  w : BitVec 4     -- wait events w0-w3
  t : BitVec 15    -- trap-on-empty bits, bit 14 for instruction 0
  p : Nat          -- block priority 0-31
deriving DecidableEq, Repr

/-- What a word at a header position is (Table 4-2, but for CODELEN, which the group's segment gives). -/
inductive HeaderWord where
  | pad
  | illegal
  | header (h : Header)
deriving DecidableEq, Repr

def Cls.dec (x : BitVec 3) : Option Cls :=
  match x.toNat with
  | 0 => some .vec
  | 1 => some .uni
  | 2 => some .mem
  | 3 => some .eng
  | 4 => some .mat
  | 5 => some .ctl
  | 6 => some .sys
  | _ => none

def Cls.enc : Cls → BitVec 3
  | .vec => 0#3
  | .uni => 1#3
  | .mem => 2#3
  | .eng => 3#3
  | .mat => 4#3
  | .ctl => 5#3
  | .sys => 6#3

/-- The T bit of the instruction at position `i` of a clause (R83: bit 19−i of the word). -/
def Header.tbit (h : Header) (i : Nat) : Bool := h.t.getLsbD (14 - i)

/-- Reading a header word (R83, R84). -/
def decodeHeader (w : Word) : HeaderWord :=
  if w = 0#32 then .pad
  else
    let n := (w.extractLsb' 28 4).toNat
    let t := w.extractLsb' 5 15
    match Cls.dec (w.extractLsb' 25 3) with
    | none => .illegal
    | some c =>
      if n = 0 then .illegal
      else if (t.extractLsb' 0 (15 - n)) ≠ 0 then .illegal
      else .header { n := n, cls := c, b := w.getLsbD 24, w := w.extractLsb' 20 4, t := t,
                     p := (w.extractLsb' 0 5).toNat }

/-- The header word of a clause. -/
def encodeHeader (h : Header) : Word :=
  BitVec.ofNat 4 h.n ++ h.cls.enc ++ BitVec.ofBool h.b ++ h.w ++ h.t ++ BitVec.ofNat 5 h.p

/-! ### The encoder -/

/-- The class and the word of an instruction; none for the rows that have no word. -/
def encode : Instr → Option (Cls × Word)
  | .iadd m d a b => some (.vec, word3 0x00 (fn21 false m.enc) d a.enc b.enc)
  | .iaddImm m d a i => some (.vec, word3 0x00 (fn21 true m.enc) d a.enc i)
  | .isub m d a b => some (.vec, word3 0x01 (fn21 false m.enc) d a.enc b.enc)
  | .isubImm m d a i => some (.vec, word3 0x01 (fn21 true m.enc) d a.enc i)
  | .imul m d a b => some (.vec, word3 0x02 (fn21 false m.enc) d a.enc b.enc)
  | .imulImm m d a i => some (.vec, word3 0x02 (fn21 true m.enc) d a.enc i)
  | .imad s d a b => some (.vec, word3 0x03 (fn21 false (lo2Bit s)) d a.enc b.enc)
  | .imadImm s d a i => some (.vec, word3 0x03 (fn21 true (lo2Bit s)) d a.enc i)
  | .imin n d a b => some (.vec, word3 0x04 (fn21 false (lo2Bit n)) d a.enc b.enc)
  | .iminImm n d a i => some (.vec, word3 0x04 (fn21 true (lo2Bit n)) d a.enc i)
  | .imax n d a b => some (.vec, word3 0x05 (fn21 false (lo2Bit n)) d a.enc b.enc)
  | .imaxImm n d a i => some (.vec, word3 0x05 (fn21 true (lo2Bit n)) d a.enc i)
  | .iabs s d a => some (.vec, word3 0x06 (fnBit s) d a.enc 0)
  | .ineg s d a => some (.vec, word3 0x07 (fnBit s) d a.enc 0)
  | .and d a b => some (.vec, word3 0x08 (fn21 false 0) d a.enc b.enc)
  | .andImm d a i => some (.vec, word3 0x08 (fn21 true 0) d a.enc i)
  | .or d a b => some (.vec, word3 0x09 (fn21 false 0) d a.enc b.enc)
  | .orImm d a i => some (.vec, word3 0x09 (fn21 true 0) d a.enc i)
  | .xor d a b => some (.vec, word3 0x0A (fn21 false 0) d a.enc b.enc)
  | .xorImm d a i => some (.vec, word3 0x0A (fn21 true 0) d a.enc i)
  | .andn d a b => some (.vec, word3 0x0B (fn21 false 0) d a.enc b.enc)
  | .andnImm d a i => some (.vec, word3 0x0B (fn21 true 0) d a.enc i)
  | .shl d a b => some (.vec, word3 0x0C (fn21 false 0) d a.enc b.enc)
  | .shlImm d a i => some (.vec, word3 0x0C (fn21 true 0) d a.enc i)
  | .shr s d a b => some (.vec, word3 0x0D (fn21 false (lo2Bit s)) d a.enc b.enc)
  | .shrImm s d a i => some (.vec, word3 0x0D (fn21 true (lo2Bit s)) d a.enc i)
  | .rotl d a b => some (.vec, word3 0x0E (fn21 false 0) d a.enc b.enc)
  | .rotlImm d a i => some (.vec, word3 0x0E (fn21 true 0) d a.enc i)
  | .bfx s d a b => some (.vec, word3 0x0F (fnBit s) d a.enc b.enc)
  | .bfi d a b => some (.vec, word3 0x10 0 d a.enc b.enc)
  | .popc d a => some (.vec, word3 0x11 0 d a.enc 0)
  | .clz d a => some (.vec, word3 0x12 0 d a.enc 0)
  | .brev d a => some (.vec, word3 0x13 0 d a.enc 0)
  | .lea sh d a b => some (.vec, word3 0x14 (fn21 false sh) d a.enc b.enc)
  | .leaImm sh d a i => some (.vec, word3 0x14 (fn21 true sh) d a.enc i)
  | .add64 z d a b => some (.vec, word3 0x15 (fn21 false (lo2Bit z)) d a.enc b.enc)
  | .add64Imm z d a i => some (.vec, word3 0x15 (fn21 true (lo2Bit z)) d a.enc i)
  | .icmp m c n p a b =>
    some (.vec, word3 0x16 (fn21 false m.enc) (c.enc ++ BitVec.ofBool n ++ p) a.enc b.enc)
  | .icmpImm m c n p a i =>
    some (.vec, word3 0x16 (fn21 true m.enc) (c.enc ++ BitVec.ofBool n ++ p) a.enc i)
  | .sel p d a b => some (.vec, word3 0x17 p d a.enc b.enc)
  | .movi f d i => some (.vec, word3 0x18 f.enc d 0 i)
  | .mov d a => some (.vec, word3 0x19 0 d a.enc 0)
  | .ptov p d => some (.vec, word3 0x1A p d 0 0)
  | .vtop p a => some (.vec, word3 0x1B 0 (encObj 7 p) a.enc 0)
  | .fadd r d a b => some (.vec, word3 0x20 (fn21 false r.enc) d a.enc b.enc)
  | .fsub r d a b => some (.vec, word3 0x21 (fn21 false r.enc) d a.enc b.enc)
  | .fmul r d a b => some (.vec, word3 0x22 (fn21 false r.enc) d a.enc b.enc)
  | .ffma r d a b => some (.vec, word3 0x23 (fn21 false r.enc) d a.enc b.enc)
  | .ffms r d a b => some (.vec, word3 0x24 (fn21 false r.enc) d a.enc b.enc)
  | .fmin n d a b => some (.vec, word3 0x25 (fnBit n) d a.enc b.enc)
  | .fmax n d a b => some (.vec, word3 0x26 (fnBit n) d a.enc b.enc)
  | .fcmp m c p a b => some (.vec, word3 0x27 (fn21 false m.enc) (c.enc ++ p) a.enc b.enc)
  | .funa f d a => some (.vec, word3 0x28 f.enc d a.enc 0)
  | .frcp d a => some (.vec, word3 0x29 0 d a.enc 0)
  | .frsq d a => some (.vec, word3 0x2A 0 d a.enc 0)
  | .fsqrt r d a => some (.vec, word3 0x2B (fn21 false r.enc) d a.enc 0)
  | .fex2 d a => some (.vec, word3 0x2C 0 d a.enc 0)
  | .flg2 d a => some (.vec, word3 0x2D 0 d a.enc 0)
  | .fsinr d a => some (.vec, word3 0x2E 0 d a.enc 0)
  | .fcosr d a => some (.vec, word3 0x2F 0 d a.enc 0)
  | .padd2 t d a b => some (.vec, word3 0x30 (0#2 ++ t.enc) d a.enc b.enc)
  | .pmul2 t d a b => some (.vec, word3 0x31 (0#2 ++ t.enc) d a.enc b.enc)
  | .pfma2 t d a b => some (.vec, word3 0x32 (0#2 ++ t.enc) d a.enc b.enc)
  | .pminmax2 m t d a b => some (.vec, word3 0x33 (0#1 ++ BitVec.ofBool m ++ t.enc) d a.enc b.enc)
  | .cvt s r d a c => some (.vec, word3 0x34 (fn21 s r.enc) d a.enc c.enc)
  | .cvtp t d a b => some (.vec, word3 0x35 (0#2 ++ t.enc) d a.enc b.enc)
  | .qnt f d a b => some (.vec, word3 0x36 f.enc d (encV a) (encS b))
  | .dqnt f d a b => some (.vec, word3 0x37 f.enc d (encV a) (encS b))
  | .shfl m d a b => some (.vec, word3 0x38 (fn21 false m.enc) d (encV a) b.enc)
  | .shflImm m d a i => some (.vec, word3 0x38 (fn21 true m.enc) d (encV a) i)
  | .xgath k d a b => some (.vec, word3 0x39 (fn21 false k.enc) d (encV a) b.enc)
  | .qx f d a => some (.vec, word3 0x3A f.enc d (encV a) 0)
  | .voteAnyAll all p q b =>
    some (.vec, word3 0x3B (fnBit all) (encObj 7 p) (encObj 8 q) (encS b))
  | .voteBallot d q b => some (.vec, word3 0x3B 2 d (encObj 8 q) (encS b))
  | .voteEq p a b => some (.vec, word3 0x3B 3 (encObj 7 p) (encV a) (encS b))
  | .matchLanes d a => some (.vec, word3 0x3C 0 d (encV a) 0)
  | .matchCount d a b => some (.vec, word3 0x3C 1 d (encV a) (encS b))
  | .gred f d a b => some (.vec, word3 0x3D f.enc d (encV a) (encS b))
  | .scan e m d a b => some (.vec, word3 0x3E (fn21 e m.enc) d (encV a) (encS b))
  | .sadd d a b => some (.uni, wordU 0x00 0 d a.enc b.enc)
  | .ssub d a b => some (.uni, wordU 0x01 0 d a.enc b.enc)
  | .smul f d a b => some (.uni, wordU 0x02 f.enc d a.enc b.enc)
  | .smad d a b => some (.uni, wordU 0x03 0 d a.enc b.enc)
  | .sand d a b => some (.uni, wordU 0x04 0 d a.enc b.enc)
  | .sor d a b => some (.uni, wordU 0x05 0 d a.enc b.enc)
  | .sxor d a b => some (.uni, wordU 0x06 0 d a.enc b.enc)
  | .sshl d a b => some (.uni, wordU 0x07 0 d a.enc b.enc)
  | .sshr s d a b => some (.uni, wordU 0x08 (lo2Bit s) d a.enc b.enc)
  | .sminmax n m d a b =>
    some (.uni, wordU 0x09 (BitVec.ofBool n ++ BitVec.ofBool m) d a.enc b.enc)
  | .scmp c d a b => some (.uni, wordU 0x0A c.enc d a.enc b.enc)
  | .scmpn c d a b => some (.uni, wordU 0x0B c.enc d a.enc b.enc)
  | .saddi d a i => some (.uni, wordU 0x0C 0 d a.enc i)
  | .smovi s d i => some (.uni, wordU 0x0D (lo2Bit s) d 0 i)
  | .smovb3 f d i => some (.uni, wordU 0x0E f.enc d 0 i)
  | .smov d a => some (.uni, wordU 0x0F 0 d a.enc 0)
  | .v2s c d a => some (.uni, wordU 0x10 (lo2Bit c) d (encV a) 0)
  | .v2sLane d a l => some (.uni, wordU 0x10 2 d (encV a) (encObj 8 l))
  | .srd d c => some (.uni, wordU 0x11 0 d 0 c)
  | .sctl a => some (.uni, wordU 0x12 0 0 a.enc 0)
  | .sld l d a i => some (.uni, wordU 0x13 l.enc d a.enc i)
  | .sst l d a i => some (.uni, wordU 0x14 l.enc d.enc a.enc i)
  | .sflg a => some (.uni, wordU 0x15 0 0 a.enc 0)
  | .jget d j => some (.uni, wordU 0x16 0 d (encObj 8 j) 0)
  | .ld l z d a o => some (.mem, word3 (0#4 ++ l.enc) z.enc d a.enc o)
  | .st l z d a o => some (.mem, word3 (1#4 ++ l.enc) z.enc d a.enc o)
  | .ldln l k d a o => some (.mem, word3 (2#4 ++ l.enc) (fn21 false k.enc) d a.enc o)
  | .atm l f d a o => some (.mem, word3 (3#4 ++ l.enc) f.enc d a.enc o)
  | .cas l d a o => some (.mem, word3 0x0F (fn21 false l.enc) d a.enc o)
  | .fence s k => some (.mem, word3 0x10 s.enc k.enc 0 0)
  | .pbarInit l d a o => some (.mem, word3 0x11 l.enc d (encS a) o)
  | .pbarArr l a o => some (.mem, word3 0x12 l.enc 0 (encS a) o)
  | .pbarWait l h a o => some (.mem, word3 0x13 l.enc (encObj 7 (BitVec.ofBool h)) (encS a) o)
  | .copy c a => some (.eng, word3 0x00 c 0 (encS a) 0)
  | .copy2 c a => some (.eng, word3 0x01 c 0 (encS a) 0)
  | .wptr c d => some (.eng, word3 0x02 c d 0 0)
  | .cwait c a => some (.eng, word3 0x03 c 0 (encS a) 0)
  | .crst c => some (.eng, word3 0x04 c 0 0 0)
  | .fatom f d a b => some (.eng, word3 0x08 f.enc d (encV a) (encV b))
  | .trayPush n d a b => some (.eng, word3 0x10 (fnBit n) d (encS a) (encV b))
  | .trayPopb n d a => some (.eng, word3 0x11 (fnBit n) d (encS a) 0)
  | .trayPopbSteal n d a b => some (.eng, word3 0x11 (1#2 ++ BitVec.ofBool n) d (encS a) (encS b))
  | .trayInsd d a b => some (.eng, word3 0x12 0 d (encS a) (encV b))
  | .trayQry q d a => some (.eng, word3 0x13 q.enc d (encS a) 0)
  | .trayClose a => some (.eng, word3 0x14 0 0 (encS a) 0)
  | .mpath d a b => some (.eng, word3 0x15 0 d (encS a) (encV b))
  | .tex l f d a b => some (.eng, word3 0x18 (fn21 l f.enc) d (encS a) (encV b))
  | .texg c d a b => some (.eng, word3 0x19 (fn21 false c) d (encS a) (encV b))
  | .ssetNew a b => some (.eng, word3 0x20 0 0 (encS a) (encS b))
  | .ssetBuild a => some (.eng, word3 0x21 0 0 (encS a) 0)
  | .ssetBind a => some (.eng, word3 0x22 0 0 (encS a) 0)
  | .ssetQry q d a => some (.eng, word3 0x23 q.enc d (encS a) 0)
  | .prim a b => some (.eng, word3 0x24 0 0 (encS a) (encV b))
  | .sres m a b => some (.eng, word3 0x25 m.enc 0 (encV a) (encV b))
  | .rclear a => some (.eng, word3 0x26 0 0 (encS a) 0)
  | .rdecomp a => some (.eng, word3 0x27 0 0 (encS a) 0)
  | .permit a => some (.eng, word3 0x30 0 0 (encS a) 0)
  | .mdecl g a b => some (.mat, word3 0x00 0 (encObj 7 g) (encS a) (encS b))
  | .mma f g => some (.mat, word3 0x01 f.enc (encObj 7 g) 0 0)
  | .mopmap f m a => some (.mat, word3 0x02 f.enc (encObj 7 m) (encS a) 0)
  | .mopf c => some (.mat, word3 0x03 (fnBit c) 0 0 0)
  | .macq s t => some (.mat, word3 0x04 s.enc (encObj 7 t) 0 0)
  | .mrel t => some (.mat, word3 0x05 0 (encObj 7 t) 0 0)
  | .mzero t => some (.mat, word3 0x06 0 (encObj 7 t) 0 0)
  | .mwait t => some (.mat, word3 0x07 0 (encObj 7 t) 0 0)
  | .mrd k d t b => some (.mat, word3 0x08 (fn21 false k.enc) d (encObj 8 t) (encS b))
  | .mrdStat d t => some (.mat, word3 0x08 4 (d ++ 0#2) (encObj 8 t) 0)
  | .mwr k d t b => some (.mat, word3 0x09 (fn21 false k.enc) d (encObj 8 t) (encS b))
  | .mdrain f t b => some (.mat, word3 0x0A f.enc 0 (encObj 8 t) (encS b))
  | .ltNew d a => some (.mat, word3 0x10 0 d (encS a) 0)
  | .ltFork d a => some (.mat, word3 0x11 0 d (encS a) 0)
  | .ltAtt u a b => some (.mat, word3 0x12 (fnBit u) 0 (encS a) (encS b))
  | .ltDet a b => some (.mat, word3 0x13 0 0 (encS a) (encS b))
  | .ltFold a b => some (.mat, word3 0x14 0 0 (encS a) (encS b))
  | .ltQry f d a => some (.mat, word3 0x15 f.enc d (encS a) 0)
  | .bra c p i => some (.ctl, word3 0x00 c.enc (encObj 7 p) 0 i)
  | .brau z a i => some (.ctl, word3 0x01 (fnBit z) 0 (encS a) i)
  | .bras a => some (.ctl, word3 0x02 0 0 (encS a) 0)
  | .brx a => some (.ctl, word3 0x03 0 0 (encV a) 0)
  | .call l i => some (.ctl, word3 0x04 0 l 0 i)
  | .callFar l a => some (.ctl, word3 0x04 1 l (encS a) 0)
  | .ret a => some (.ctl, word3 0x05 0 0 (encV a) 0)
  | .jset j a => some (.ctl, word3 0x06 0 (encObj 7 j) (encS a) 0)
  | .join j => some (.ctl, word3 0x07 0 (encObj 7 j) 0 0)
  | .leave j => some (.ctl, word3 0x08 0 (encObj 7 j) 0 0)
  | .wait j => some (.ctl, word3 0x09 0 (encObj 7 j) 0 0)
  | .waitT j a p => some (.ctl, word3 0x09 1 (encObj 7 j) (encS a) (encObj 8 p))
  | .bar r i => some (.ctl, word3 0x0A (fnBit r) (encObj 7 i) 0 0)
  | .barArr r i => some (.ctl, word3 0x0B (fnBit r) (encObj 7 i) 0 0)
  | .barWait r i => some (.ctl, word3 0x0C (fnBit r) (encObj 7 i) 0 0)
  | .exit => some (.ctl, word3 0x0D 0 0 0 0)
  | .adv a b => some (.ctl, word3 0x0E 0 0 (encS a) (encS b))
  | .yield => some (.ctl, word3 0x0F 0 0 0 0)
  | .nop => some (.ctl, word3 0x10 0 0 0 0)
  | .trap i => some (.ctl, word3 0x11 0 0 0 i)
  | .bkpt i => some (.ctl, word3 0x12 0 0 0 i)
  | .sysrd d s => some (.sys, word3 0x00 0 (encObj 7 d) 0 s)
  | .syswr a s => some (.sys, word3 0x01 0 0 a.enc s)
  | .rthFix => some (.sys, word3 0x02 0 0 0 0)
  | .rthSkip => some (.sys, word3 0x02 1 0 0 0)
  | .rthRetry => some (.sys, word3 0x02 2 0 0 0)
  | .rthKill => some (.sys, word3 0x02 3 0 0 0)
  | .tlbinv a => some (.sys, word3 0x03 0 0 (encS a) 0)
  | .scrub a => some (.sys, word3 0x04 0 0 (encS a) 0)
  | .ctxsv a => some (.sys, word3 0x05 0 0 (encS a) 0)
  | .ctxrs a => some (.sys, word3 0x06 0 0 (encS a) 0)
  | _ => none

/-- The class and word a trap record or a check names for an instruction: its own encoding, or the word of an
instruction that is none. -/
def wordOf : Instr → Cls × Word
  | .unassignedOp c w => (c, w)
  | i => (encode i).getD (.vec, 0#32)

/-! ### The opcode table's words (for `decodeTableWord`) -/

/-- Fixed bits of the VEC class: value and mask (Tables 4-6 to 4-14). -/
def rowsVec0 : List (Cls × Nat × Nat) := [
  (.vec, 0x00000000, 0xFE000000), (.vec, 0x02000000, 0xFE000000), (.vec, 0x04000000, 0xFE000000),
  (.vec, 0x06000000, 0xFE000000), (.vec, 0x08000000, 0xFE000000), (.vec, 0x0A000000, 0xFE000000),
  (.vec, 0x0C000000, 0xFF000000), (.vec, 0x0E000000, 0xFF000000), (.vec, 0x10000000, 0xFF000000),
  (.vec, 0x12000000, 0xFF000000), (.vec, 0x14000000, 0xFF000000), (.vec, 0x16000000, 0xFF000000),
  (.vec, 0x18000000, 0xFF0000FF), (.vec, 0x1C000000, 0xFF0000FF), (.vec, 0x20000000, 0xFF800000),
  (.vec, 0x22000000, 0xFF800000), (.vec, 0x24000000, 0xFF800000), (.vec, 0x26000000, 0xFF800000),
  (.vec, 0x28000000, 0xFF800000), (.vec, 0x2A000000, 0xFF800000), (.vec, 0x2C000000, 0xFF800000),
  (.vec, 0x2E000000, 0xFF800000), (.vec, 0x30000000, 0xFF800000), (.vec, 0x32000000, 0xFF800000),
  (.vec, 0x34000000, 0xFF000000), (.vec, 0x36000000, 0xFF000000), (.vec, 0x38000000, 0xFF800000),
  (.vec, 0x3A000000, 0xFF800000), (.vec, 0x3C000000, 0xFF000000), (.vec, 0x40000000, 0xFF800000),
  (.vec, 0x44000000, 0xFF8000FF), (.vec, 0x48000000, 0xFF8000FF), (.vec, 0x4C000000, 0xFF8000FF),
  (.vec, 0x50000000, 0xFE000000), (.vec, 0x52000000, 0xFE000000), (.vec, 0x54000000, 0xFF000000),
  (.vec, 0x56000000, 0xFF000000), (.vec, 0x58000000, 0xFE000000), (.vec, 0x5A000000, 0xFE000000),
  (.vec, 0x5C000000, 0xFC000000)]

/-- Fixed bits of the VEC class: value and mask (Tables 4-6 to 4-14). -/
def rowsVec1 : List (Cls × Nat × Nat) := [
  (.vec, 0x60000000, 0xFC00FF00), (.vec, 0x64000000, 0xFF8000FF), (.vec, 0x68000000, 0xFC00FFFF),
  (.vec, 0x6C000000, 0xFFF800FF), (.vec, 0x80000000, 0xFE000000), (.vec, 0x84000000, 0xFE000000),
  (.vec, 0x88000000, 0xFE000000), (.vec, 0x8C000000, 0xFE000000), (.vec, 0x90000000, 0xFE000000),
  (.vec, 0x94000000, 0xFF000000), (.vec, 0x98000000, 0xFF000000), (.vec, 0x9C000000, 0xFE000000),
  (.vec, 0xA0000000, 0xFC0000FF), (.vec, 0xA4000000, 0xFF8000FF), (.vec, 0xA8000000, 0xFF8000FF),
  (.vec, 0xAC000000, 0xFE0000FF), (.vec, 0xB0000000, 0xFF8000FF), (.vec, 0xB4000000, 0xFF8000FF),
  (.vec, 0xB8000000, 0xFF8000FF), (.vec, 0xBC000000, 0xFF8000FF), (.vec, 0xC0000000, 0xFF000000),
  (.vec, 0xC4000000, 0xFF000000), (.vec, 0xC8000000, 0xFF000000), (.vec, 0xCC000000, 0xFE000000),
  (.vec, 0xD0000000, 0xFC000000), (.vec, 0xD4000000, 0xFF000000), (.vec, 0xD8000080, 0xFE008080),
  (.vec, 0xDC000080, 0xFE808080), (.vec, 0xE0000000, 0xFE008000), (.vec, 0xE2000000, 0xFE008000),
  (.vec, 0xE4000000, 0xFE008000), (.vec, 0xE8000000, 0xFC0080FF), (.vec, 0xEC000080, 0xFF78F880),
  (.vec, 0xED000080, 0xFF80F880), (.vec, 0xED800080, 0xFFF88080), (.vec, 0xF0000000, 0xFF8080FF),
  (.vec, 0xF0800080, 0xFF808080), (.vec, 0xF4000080, 0xFC008080), (.vec, 0xF8000080, 0xFC008080)]

/-- Fixed bits of the UNI class: value and mask (Tables 4-6 to 4-14). -/
def rowsUni0 : List (Cls × Nat × Nat) := [
  (.uni, 0x00000000, 0xFF000000), (.uni, 0x04000000, 0xFF000000), (.uni, 0x08000000, 0xFC000000),
  (.uni, 0x0C000000, 0xFF000000), (.uni, 0x10000000, 0xFF000000), (.uni, 0x14000000, 0xFF000000),
  (.uni, 0x18000000, 0xFF000000), (.uni, 0x1C000000, 0xFF000000), (.uni, 0x20000000, 0xFE000000),
  (.uni, 0x24000000, 0xFC000000), (.uni, 0x28000000, 0xFC000000), (.uni, 0x2C000000, 0xFC000000),
  (.uni, 0x30000000, 0xFF000000), (.uni, 0x34000000, 0xFE00FF00), (.uni, 0x38000000, 0xFC00FF00),
  (.uni, 0x3C000000, 0xFF0000FF), (.uni, 0x40000000, 0xFE0080FF), (.uni, 0x42000000, 0xFF0080E0),
  (.uni, 0x44000000, 0xFF00FF00), (.uni, 0x48000000, 0xFFFF00FF), (.uni, 0x4C000000, 0xFC000000),
  (.uni, 0x50000000, 0xFC000000), (.uni, 0x54000000, 0xFFFF00FF), (.uni, 0x58000000, 0xFF00F0FF)]

/-- Fixed bits of the MEM class: value and mask (Tables 4-6 to 4-14). -/
def rowsMem0 : List (Cls × Nat × Nat) := [
  (.mem, 0x00000000, 0xF0000000), (.mem, 0x10000000, 0xF0000000), (.mem, 0x20000000, 0xF2000000),
  (.mem, 0x30000000, 0xF0000000), (.mem, 0x3C000000, 0xFE000000), (.mem, 0x40000000, 0xFC7CFFFF),
  (.mem, 0x44008000, 0xFF008000), (.mem, 0x48008000, 0xFF7F8000), (.mem, 0x4C008000, 0xFF7E8000)]

/-- Fixed bits of the ENG class: value and mask (Tables 4-6 to 4-14). -/
def rowsEng0 : List (Cls × Nat × Nat) := [
  (.eng, 0x00008000, 0xFC7F80FF), (.eng, 0x04008000, 0xFC7F80FF), (.eng, 0x08000000, 0xFC00FFFF),
  (.eng, 0x0C008000, 0xFC7F80FF), (.eng, 0x10000000, 0xFC7FFFFF), (.eng, 0x20000000, 0xFC008080),
  (.eng, 0x40008000, 0xFF008080), (.eng, 0x44008000, 0xFF0080FF), (.eng, 0x45008080, 0xFF008080),
  (.eng, 0x48008000, 0xFF808080), (.eng, 0x4C008000, 0xFE0080FF), (.eng, 0x50008000, 0xFFFF80FF),
  (.eng, 0x54008000, 0xFF808080), (.eng, 0x60008000, 0xFC008080), (.eng, 0x64008000, 0xFE008080),
  (.eng, 0x80008080, 0xFFFF8080), (.eng, 0x84008000, 0xFFFF80FF), (.eng, 0x88008000, 0xFFFF80FF),
  (.eng, 0x8C008000, 0xFE0080FF), (.eng, 0x90008000, 0xFFFF8080), (.eng, 0x94000000, 0xFC7F8080),
  (.eng, 0x98008000, 0xFFFF80FF), (.eng, 0x9C008000, 0xFFFF80FF), (.eng, 0xC0008000, 0xFFFF80FF)]

/-- Fixed bits of the MAT class: value and mask (Tables 4-6 to 4-14). -/
def rowsMat0 : List (Cls × Nat × Nat) := [
  (.mat, 0x00008080, 0xFFF88080), (.mat, 0x04000000, 0xFE78FFFF), (.mat, 0x08008000, 0xFE7880FF),
  (.mat, 0x0C000000, 0xFF7FFFFF), (.mat, 0x10000000, 0xFE78FFFF), (.mat, 0x14000000, 0xFFF8FFFF),
  (.mat, 0x18000000, 0xFFF8FFFF), (.mat, 0x1C000000, 0xFFF8FFFF), (.mat, 0x20000080, 0xFE00F880),
  (.mat, 0x22000000, 0xFF83F8FF), (.mat, 0x24000080, 0xFE00F880), (.mat, 0x28000080, 0xFC7FF880),
  (.mat, 0x40008000, 0xFF8080FF), (.mat, 0x44008000, 0xFF8080FF), (.mat, 0x48008080, 0xFF7F8080),
  (.mat, 0x4C008080, 0xFFFF8080), (.mat, 0x50008080, 0xFFFF8080), (.mat, 0x54008000, 0xFE0080FF)]

/-- Fixed bits of the CTL class: value and mask (Tables 4-6 to 4-14). -/
def rowsCtl0 : List (Cls × Nat × Nat) := [
  (.ctl, 0x00000000, 0xFE78FF00), (.ctl, 0x04008000, 0xFF7F8000), (.ctl, 0x08008000, 0xFFFF80FF),
  (.ctl, 0x0C000000, 0xFFFF80FF), (.ctl, 0x10000000, 0xFF80FF00), (.ctl, 0x10808000, 0xFF8080FF),
  (.ctl, 0x14000000, 0xFFFF80FF), (.ctl, 0x18008000, 0xFFF080FF), (.ctl, 0x1C000000, 0xFFF0FFFF),
  (.ctl, 0x20000000, 0xFFF0FFFF), (.ctl, 0x24000000, 0xFFF0FFFF), (.ctl, 0x24808000, 0xFFF080F8),
  (.ctl, 0x28000000, 0xFF70FFFF), (.ctl, 0x2C000000, 0xFF70FFFF), (.ctl, 0x30000000, 0xFF70FFFF),
  (.ctl, 0x34000000, 0xFFFFFFFF), (.ctl, 0x38008080, 0xFFFF8080), (.ctl, 0x3C000000, 0xFFFFFFFF),
  (.ctl, 0x40000000, 0xFFFFFFFF), (.ctl, 0x44000000, 0xFFFFFF00), (.ctl, 0x48000000, 0xFFFFFF00)]

/-- Fixed bits of the SYS class: value and mask (Tables 4-6 to 4-14). -/
def rowsSys0 : List (Cls × Nat × Nat) := [
  (.sys, 0x00000000, 0xFFF0FF00), (.sys, 0x04000000, 0xFFFF0000), (.sys, 0x08000000, 0xFFFFFFFF),
  (.sys, 0x08800000, 0xFFFFFFFF), (.sys, 0x09000000, 0xFFFFFFFF), (.sys, 0x09800000, 0xFFFFFFFF),
  (.sys, 0x0C008000, 0xFFFF80FF), (.sys, 0x10008000, 0xFFFF80FF), (.sys, 0x14008000, 0xFFFF80FF),
  (.sys, 0x18008000, 0xFFFF80FF)]

/-- Every row that has a word. -/
def opcodeRows : List (Cls × Nat × Nat) :=
  rowsVec0 ++ rowsVec1 ++ rowsUni0 ++ rowsMem0 ++ rowsEng0 ++ rowsMat0 ++ rowsCtl0 ++ rowsSys0

/-- How many bits of a word a mask fixes. -/
def maskBits (m : Nat) : Nat := ((List.range 32).filter (fun i => m.testBit i)).length

/-- The rows a word matches: how many bits the row fixes, and the instruction its class decodes. -/
def tableMatches (w : Nat) : List (Nat × Instr) :=
  opcodeRows.filterMap (fun r =>
    if w &&& r.2.2 = r.2.1 then
      match decode r.1 (BitVec.ofNat 32 w) with
      | .ok i => some (maskBits r.2.2, i)
      | .error _ => none
    else none)

/-- The one of a list of matches that fixes the most bits, the first of equals. -/
def mostFixed : List (Nat × Instr) → Option (Nat × Instr)
  | [] => none
  | x :: l =>
    match mostFixed l with
    | none => some x
    | some y => if y.1 ≤ x.1 then some x else some y

/-- The instruction the decoder reads from a word of the opcode table given without the clause header that would
name its class (R83): in the class whose row fixes the most bits of the word. DESIGN CHOICE (log 6): one
word can stand for instructions of several classes (R85), and the table gives no header. -/
def decodeTableWord (nbits w : Nat) : Option Instr :=
  if nbits ≤ 32 ∧ w < 2 ^ 32 then (mostFixed (tableMatches w)).map (·.2) else none

end Sys2Proof
end

