-- ==== Sys2Proof/Machine/Types.lean ====
section
/-! DEFINITION. The state of one group: registers, frontier, rejoin masks, trap record (Table 3-1, R70, R72, R75,
R77, R81, R177, R188, R194, R359, R363). -/

namespace Sys2Proof.Machine

open Sys2Proof

/-- A register with a full/empty bit: a vector register, a uniform, or a handler register (R77, R359). -/
inductive RegRef where
  | v (n : Nat)
  | u (n : Nat)
  | h (n : Nat)
deriving DecidableEq, Repr

/-- The collective instructions (R193): OP, FN and id. -/
inductive CollOp where
  | bar (role : Bool) (id : Nat)
  | arr (role : Bool) (id : Nat)
  | bwait (role : Bool) (id : Nat)
  | adv
deriving DecidableEq, Repr

/-- The operands an ADV was issued with (R199). -/
structure AdvOps where
  record : Nat
  w0 : Word
  w1 : Word
deriving DecidableEq, Repr

/-- Why an entry does not run: it runs, waits on a rejoin mask, or waits at a collective instruction (R177). -/
inductive Susp where
  | run
  | wait (j : Nat)
  | coll (op : CollOp) (ops : Option AdvOps)
deriving DecidableEq, Repr

/-- The clause an entry stands in: the PC of its header and the header. -/
structure Clause where
  pc : Nat
  h : Header
deriving DecidableEq, Repr

/-- A frontier entry (R177, R88, R179). -/
structure Entry where
  pc : Nat
  mask : Mask
  susp : Susp
  run : Nat                 -- run count (R88)
  last : Nat                -- cycle of its last issue, or of becoming runnable, whichever is later
  clause : Option Clause    -- none at a header position
deriving DecidableEq, Repr

/-- The trap record (R363, Table 19-3). -/
structure TrapRec where
  cause : Word
  pc : Word
  lanes : Mask
  act : Mask
  info0 : Word
  info1 : Word
  info2 : Word
  word : Word
deriving DecidableEq, Repr

def TrapRec.zero : TrapRec := ⟨0, 0, 0, 0, 0, 0, 0, 0⟩

/-- A pending deferred trap (R356): its cause, the poison origin, and its info words. -/
structure Deferred where
  cause : Nat
  origin : Nat
  info0 : Word
  info1 : Word
  info2 : Word
deriving DecidableEq, Repr

/-- A condition an instruction that re-issues waits for (R90): copy completion, barriers in memory, fences, operand
fetch, completion of passes. -/
inductive Cond where
  | regs (l : List RegRef)                       -- R78, R79: these registers full
  | events (w : BitVec 4)                        -- R86
  | release (core : Bool)                        -- earlier stores performed (R212, R195)
  | fence (s : Scope) (k : FKind)                -- R229
  | cwait (c : Nat) (thr : Nat)                  -- R238
  | channel (c : Nat)                            -- R235: room in a channel's queue
  | pbar (l : Lvl2) (addr : Nat) (ph : Bool)     -- R231
  | mopf (clu : Bool)                            -- R254
  | table                                        -- R249: a free entry of the reservation table
  | prim (set : Nat)                             -- R327: room in a stream
  | sres (set chunk work : Nat)                  -- R333: room in a raster unit's result buffer
  | allFull                                      -- R366: every register full
  | code (va : Nat)                              -- R95: a code unit on its way
  | misses (n : Nat)                             -- R205: free miss-status entries
  | window (l : List (Nat × RegRef))             -- R64: registers of other groups full
deriving DecidableEq, Repr

/-- What keeps a group from an issue slot (R90). -/
inductive Why where
  | ready
  | noEntry                 -- no runnable entry (R181)
  | unit                    -- a unit performs its command (R262, R280, R296, R317)
  | cond (c : Cond)
deriving DecidableEq, Repr

/-- An in-flight result: the register it fills and the operation that brings it, in issue order (R77, R79). -/
structure Flight where
  reg : RegRef
  op : Nat
deriving DecidableEq, Repr

/-- A command a unit performs while the group waits (R262, R280, R296, R317): the instruction, what it read at
issue, and the operation that its destination registers wait for. -/
structure UnitCmd where
  op : Nat
  instr : Instr
  act : Mask
  vals : List (Nat × List Word)   -- lane ↦ words of its vector operands
  unis : List Word                -- words of its uniform operands
  issued : Nat                    -- cycle of issue
  waits : Bool                    -- the unit has taken it and it waits there for its turn
deriving DecidableEq, Repr

/-- One group. Maps key lane words at 32·register + lane. -/
structure Group where
  role : Nat
  idx : Nat                  -- group index in role (R25)
  budget : Nat               -- BUDGET: 8·budget vector registers (R58)
  helper : Mask              -- helper lanes of a fragment group (R330)
  live : Mask
  v : FMap Word
  vp : FMap Nat              -- poison of v: origin + 1
  s : FMap Word
  sp : FMap Nat
  h : FMap Word
  hp : FMap Nat
  p : FMap Mask              -- p0-p6
  plink : FMap Nat           -- predicate ↦ vector register + 1 whose full/empty state it takes (R69)
  jE : FMap Mask
  jA : FMap Mask
  dl : FMap Nat              -- lane ↦ WAIT.t deadline + 1 (R190)
  mark : FMap Nat            -- lane ↦ WAIT.t mark predicate
  gcr : Word
  gfl : Word
  clk : Option Word          -- high clock word latched by SRD 0x0D (R172)
  lp : Memory                -- lane-private bytes: key 4096·lane + address
  lpp : FMap Nat             -- poison of lane-private words
  frontier : List Entry
  sel : Bool                 -- the head entry is the chosen one, between selection points
  why : Why
  cmd : Option UnitCmd       -- the command it waits for
  redo : Option (Nat × Nat)  -- after a restore: the operation whose marks stand, and the PC of its instruction (R82)
  woken : Option Nat         -- the PC of a PBAR.WAIT that has found its phase bit (R231)
  primSince : Option Nat     -- cycle since which it is blocked in PRIM (R327)
  readyAt : Option Nat       -- cycle since which it is ready (R56, R90)
  slot : Option Nat          -- issue slot held
  flights : List Flight
  barRec : FMap Nat          -- barrier key ↦ phase last recorded + 1 (R194)
  stage : Nat                -- collective step: 0 none, 1 begun, 2 arrived and waiting
  levelH : Bool
  hseg : Nat                 -- handler code segment and its length (R358)
  hlen : Nat
  saved : List Entry         -- frontier set aside (R359)
  faultPc : Nat              -- PC and entry mask of the faulting entry
  faultMask : Mask
  trap : TrapRec
  tcnt : Word
  kinfo : Word
  pend : List Deferred       -- pending deferred traps, at most one a cause (R356)
deriving DecidableEq, Repr

/-- GCR of a group that starts (Table 3-5, Table 2-3): IVT, MNT, FTZ, RM from FLAGS. -/
def gcrOf (ivt mnt ftz : Bool) (rm : BitVec 2) : Word :=
  (0#27 ++ BitVec.ofBool ivt ++ BitVec.ofBool mnt ++ BitVec.ofBool ftz ++ rm : BitVec 32)

/-- A group at block start (R40): registers zero and full but for s0-s31, all 32 lanes at ENTRY. -/
def Group.start (role idx budget entry : Nat) (consts : FMap Word) (gcr : Word) (cycle : Nat) : Group :=
  { role := role, idx := idx, budget := budget, helper := 0, live := BitVec.allOnes 32,
    v := [], vp := [], s := consts, sp := [], h := [], hp := [], p := [], plink := [], jE := [], jA := [],
    dl := [], mark := [], gcr := gcr, gfl := 0, clk := none, lp := [], lpp := [],
    frontier := [{ pc := entry, mask := BitVec.allOnes 32, susp := .run, run := 0, last := cycle,
                   clause := none }],
    sel := false, why := .ready, cmd := none, redo := none, woken := none, primSince := none, readyAt := none, slot := none, flights := [], barRec := [],
    stage := 0,
    levelH := false, hseg := 0, hlen := 0, saved := [], faultPc := 0, faultMask := 0,
    trap := TrapRec.zero, tcnt := 0, kinfo := 0, pend := [] }

end Sys2Proof.Machine
end

