-- ==== Sys2Proof/Machine/Frontier.lean ====
section
/-! DEFINITION. The frontier of a group: headers, selection and merging (R84, R88, R177-R181), control transfers
(R182), rejoin masks (R188-R191), collective steps (R193) and lane exit (R198). -/

namespace Sys2Proof.Machine

open Sys2Proof

/-- What stands at a header position (R84): a word not yet fetched, an illegal header, a pad or a clause. -/
inductive HeaderAt where
  | fetch (pc : Nat)
  | illegal (pc : Nat) (w : Word)
  | pad
  | clause (h : Header)
deriving DecidableEq, Repr

/-- Reading a header position (Table 4-2). `look` gives the word of the group's segment at a PC, none where it has
not been fetched; `len` is CODELEN. -/
def headerAt (look : Nat → Option Word) (len pc : Nat) : HeaderAt :=
  if len ≤ pc then .illegal pc 0
  else match look pc with
    | none => .fetch pc
    | some w =>
      match decodeHeader w with
      | .pad => .pad
      | .illegal => .illegal pc w
      | .header h => if len < pc + 4 * h.n + 4 then .illegal pc w else .clause h

/-- The header found at a header position after any pads, and its PC. -/
def headerFrom (look : Nat → Option Word) (len : Nat) : Nat → Nat → Nat × HeaderAt
  | 0, pc => (pc, .illegal pc 0)
  | fuel + 1, pc =>
    match headerAt look len pc with
    | .pad => headerFrom look len fuel (pc + 4)
    | x => (pc, x)

/-- How many words a segment holds: the most pads one skip can meet. -/
def padFuel (len : Nat) : Nat := len / 4 + 2

/-- An entry's priority (R178): the P of its clause, or of the header found after any pads. At a header that is illegal it is the low
five bits of the word, and beyond CODELEN it is 0 (DESIGN CHOICE, log 80: R178 gives the P of a legal header only). -/
def Entry.prio (look : Nat → Option Word) (len : Nat) (e : Entry) : Nat :=
  match e.clause with
  | some c => c.h.p
  | none =>
    match (headerFrom look len (padFuel len) e.pc).2 with
    | .clause h => h.p
    | .illegal _ w => (w.extractLsb' 0 5).toNat
    | _ => 0

def Entry.runnable (e : Entry) : Bool := decide (e.susp = .run)

/-- The position of an entry's instruction in its clause. -/
def Entry.pos (e : Entry) : Nat :=
  match e.clause with
  | some c => (e.pc - c.pc) / 4 - 1
  | none => 0

/-- The entry stands at the last instruction of its clause. -/
def Entry.atLast (e : Entry) : Bool :=
  match e.clause with
  | some c => decide (e.pc = c.pc + 4 * c.h.n)
  | none => false

/-- The last instruction of a clause with B = 1 ends the run (R88, R90). -/
def Entry.endsRun (e : Entry) : Bool :=
  match e.clause with
  | some c => e.atLast && c.h.b
  | none => false

/-- An entry once its instruction is complete: at the next word, its count 0 after a clause with B = 1 (R88). -/
def Entry.complete (e : Entry) : Entry :=
  { e with
    pc := e.pc + 4, susp := .run,
    run := if e.endsRun then 0 else e.run,
    clause := if e.atLast then none else e.clause }

/-- The fall-through header position of the clause an entry stands in (R85, R92). -/
def Entry.fall (e : Entry) : Nat :=
  match e.clause with
  | some c => c.pc + 4 * c.h.n + 4
  | none => e.pc + 4

/-- An entry at a header position, made from another by a transfer or a release (R88, R182). -/
def Entry.at (e : Entry) (pc : Nat) (mask : Mask) (cycle : Nat) : Entry :=
  { pc := pc, mask := mask, susp := .run, run := if e.endsRun then 0 else e.run, last := cycle, clause := none }

/-- Two entries that merge at one PC (R180, R88): union, the longer wait, the larger count. -/
def Entry.merge (a b : Entry) : Entry :=
  { a with mask := a.mask ||| b.mask, last := min a.last b.last, run := max a.run b.run }

/-- An entry that may merge with another at this header position. -/
def Entry.mergesAt (pc : Nat) (e : Entry) : Bool :=
  e.runnable && decide (e.clause = none) && decide (e.pc = pc)

/-- Adding an entry to a frontier, merged with a runnable entry at the same header position (R180). -/
def addEntry (e : Entry) : List Entry → List Entry
  | [] => [e]
  | f :: fs =>
    if e.runnable && decide (e.clause = none) && f.mergesAt e.pc then f.merge e :: fs
    else f :: addEntry e fs

def addEntries (es fs : List Entry) : List Entry := es.foldl (fun acc e => addEntry e acc) fs

/-- The entries made from released or returning entries of equal resume PC form one (R180). -/
def joinEqual (es : List Entry) : List Entry :=
  es.foldl (fun acc e =>
    if acc.any (fun f => decide (f.pc = e.pc ∧ f.clause = e.clause)) then
      acc.map (fun f => if f.pc = e.pc ∧ f.clause = e.clause then f.merge e else f)
    else acc ++ [e]) []

/-- What skipping pads at a header position leads to. -/
inductive Reach where
  | fetch (pc : Nat) (e : Entry) (rest : List Entry)
  | illegal (e : Entry) (rest : List Entry) (w : Word)
  | clause (e : Entry) (rest : List Entry) (h : Header)
deriving DecidableEq, Repr

/-- The entry `e` at a header position merges with equal entries and skips pads until a header (R84, R180). -/
def reach (look : Nat → Option Word) (len : Nat) : Nat → Entry → List Entry → Reach
  | 0, e, rest => .illegal e rest 0
  | fuel + 1, e, rest =>
    let same := rest.filter (·.mergesAt e.pc)
    let rest' := rest.filter (fun f => !f.mergesAt e.pc)
    let e' := same.foldl Entry.merge e
    match headerAt look len e'.pc with
    | .pad => reach look len fuel { e' with pc := e'.pc + 4 } rest'
    | .fetch pc => .fetch pc e' rest'
    | .illegal _ w => .illegal e' rest' w
    | .clause h => .clause e' rest' h

/-- Cycles after which an entry that has not issued is chosen first (R179). -/
def agingCycles : Nat := 1024

/-- A runnable entry that has waited so long. -/
def Entry.aged (cycle : Nat) (e : Entry) : Bool := e.runnable && decide (agingCycles ≤ cycle - e.last)

/-- Entry `a` is chosen before entry `b` (R179). -/
def Entry.before (look : Nat → Option Word) (len cycle : Nat) (a b : Entry) : Bool :=
  let agedA := decide (agingCycles ≤ cycle - a.last)
  let agedB := decide (agingCycles ≤ cycle - b.last)
  if agedA || agedB then
    if agedA && agedB then decide (a.last < b.last ∨ (a.last = b.last ∧ a.pc < b.pc)) else agedA
  else
    let pa := a.prio look len
    let pb := b.prio look len
    decide (pb < pa ∨ (pa = pb ∧ a.pc < b.pc))

/-- Taking the chosen runnable entry out of a list: it, and the others in their order. Of two entries that R179 does not tell apart (equal
in priority or wait, and in PC) the first of the list is taken (DESIGN CHOICE, log 81). -/
def chooseFrom (look : Nat → Option Word) (len cycle : Nat) : List Entry → Option (Entry × List Entry)
  | [] => none
  | e :: es =>
    match chooseFrom look len cycle es with
    | none => if e.runnable then some (e, es) else none
    | some (b, rest) =>
      if e.runnable && !Entry.before look len cycle b e then some (e, b :: rest) else some (b, e :: rest)

/-- A runnable entry whose header, and so whose priority, is not fetched yet: the PC that is missing. -/
def missingHeader (look : Nat → Option Word) (len : Nat) (es : List Entry) : Option Nat :=
  (es.filter (fun e => e.runnable && decide (e.clause = none))).findSome? (fun e =>
    match (headerFrom look len (padFuel len) e.pc).2 with
    | .fetch pc => some pc
    | _ => none)

/-- What a selection leads to: a word to fetch, no runnable entry, or the issuing entry at the head of the list,
standing at an instruction, at an illegal header, or at a clause whose events it must check. -/
inductive Selected where
  | fetch (pc : Nat) (es : List Entry)
  | noEntry (es : List Entry)
  | illegal (e : Entry) (rest : List Entry) (w : Word)
  | atClause (e : Entry) (rest : List Entry) (h : Header)
  | instr (e : Entry) (rest : List Entry)
deriving DecidableEq, Repr

/-- Going on with the chosen entry: through pads to a header if it stands at a header position. -/
def goOn (look : Nat → Option Word) (len : Nat) (e : Entry) (rest : List Entry) : Selected :=
  match e.clause with
  | some _ => .instr e rest
  | none =>
    match reach look len (padFuel len) e rest with
    | .fetch pc e' rest' => .fetch pc (e' :: rest')
    | .illegal e' rest' w => .illegal e' rest' w
    | .clause e' rest' h => .atClause e' rest' h

/-- The issuing entry of a group (R179). With `sel`, the head entry has been chosen and goes on between selection
points; a head that has reached a header position passes pads and merges, and the selection point follows. -/
def select (look : Nat → Option Word) (len cycle : Nat) (sel : Bool) (es : List Entry) : Selected :=
  match sel, es with
  | true, e :: rest =>
    match e.clause with
    | some _ => .instr e rest
    | none =>
      match reach look len (padFuel len) e rest with
      | .fetch pc e' rest' => .fetch pc (e' :: rest')
      | .illegal e' rest' _ => pick (e' :: rest')
      | .clause e' rest' _ => pick (e' :: rest')
  | _, es => pick es
where
  pick (es : List Entry) : Selected :=
    match missingHeader look len es with
    | some pc => if es.any (Entry.aged cycle) then choose es else .fetch pc es
    | none => choose es
  choose (es : List Entry) : Selected :=
    match chooseFrom look len cycle es with
    | none => .noEntry es
    | some (e, rest) => goOn look len e rest

/-! ### Group operations -/

/-- The issuing entry of a group that executes an instruction: the head of its frontier. -/
def Group.head (g : Group) : Entry :=
  g.frontier.headD { pc := 0, mask := 0, susp := .run, run := 0, last := 0, clause := none }

/-- The active mask (R7, R179). -/
def Group.active (g : Group) : Mask := g.head.mask

/-- One frontier entry whose mask is the live mask (R67). -/
def Group.converged (g : Group) : Bool :=
  match g.frontier with
  | [e] => decide (e.mask = g.live)
  | _ => false

/-- Replacing the issuing entry. -/
def Group.setHead (g : Group) (e : Entry) : Group := { g with frontier := e :: g.frontier.tail }

/-- The issuing entry's instruction has executed (R88): its count rises by 1 and it has issued now. -/
def Group.counted (g : Group) (cycle : Nat) : Group :=
  g.setHead { g.head with run := g.head.run + 1, last := cycle }

/-- An issuing entry that has reached a header position merges with the runnable entries there (R180). -/
def meet (e : Entry) (rest : List Entry) : List Entry :=
  if e.clause = none then (rest.filter (·.mergesAt e.pc)).foldl Entry.merge e :: rest.filter (fun f => !f.mergesAt e.pc)
  else e :: rest

/-- The instruction is complete and the entry goes to the next word; a header position is a selection point, and a
clause with B = 1 ends the run (R90, R179). The flag says that the run ended. -/
def Group.advance (g : Group) : Group × Bool :=
  ({ g with frontier := meet g.head.complete g.frontier.tail }, g.head.endsRun)

/-- The group has no slot any more; it goes on at a selection point (R179). -/
def Group.release (g : Group) (why : Why) : Group :=
  { g with slot := none, sel := false, why := why, readyAt := none }

/-- Transfers (R182): the issuing entry is replaced by one entry per target and one at the fall-through position. -/
def Group.transfer (g : Group) (targets : List (Nat × Mask)) (stay : Mask) (cycle : Nat) : Group × Bool :=
  let e := g.head
  let moved := targets.map (fun t => e.at t.1 t.2 cycle)
  let here := if stay = 0#32 then [] else [e.at e.fall stay cycle]
  ({ g with frontier := addEntries (joinEqual (moved ++ here)) g.frontier.tail, sel := false }, e.endsRun)

/-- Lanes grouped by target, in order of the lowest lane (R182). -/
def byTarget (f : Nat → Nat) (m : Mask) : List (Nat × Mask) :=
  m.lanes.foldl (fun acc l =>
    if acc.any (fun t => t.1 == f l) then
      acc.map (fun t => if t.1 = f l then (t.1, t.2 ||| Mask.one l) else t)
    else acc ++ [(f l, Mask.one l)]) []

/-- The entries of a frontier once the lanes of `a` waiting on `j` have resumed after their own WAITs: those of equal PC
form one entry (R180, R189). -/
def releaseIn (j : Nat) (a : Mask) (cycle : Nat) (es : List Entry) : List Entry :=
  let waits (e : Entry) : Bool := decide (e.susp = .wait j) && decide (e.mask &&& a ≠ 0#32)
  let freed := es.filter waits
  let kept := es.filterMap (fun e =>
    if waits e then
      (if e.mask &&& ~~~a = 0#32 then none else some { e with mask := e.mask &&& ~~~a })
    else some e)
  addEntries (joinEqual (freed.map (fun e => { e.complete with mask := e.mask &&& a, last := cycle }))) kept

/-- Releasing every lane of A(j) (R189, R190), in the frontier and in one set aside, whose masks a handler shares (R360):
`mark` is the value its WAIT.t lanes' predicates take. -/
def Group.releaseWait (g : Group) (j : Nat) (mark : Bool) (cycle : Nat) : Group :=
  let a : Mask := FMap.get 0#32 g.jA j
  let timed := a.lanes.filter (fun l => FMap.get 0 g.dl l ≠ 0)
  { g with
    frontier := releaseIn j a cycle g.frontier
    saved := releaseIn j a cycle g.saved
    sel := false
    jA := FMap.set 0#32 g.jA j 0#32
    dl := timed.foldl (fun m l => FMap.set 0 m l 0) g.dl
    mark := timed.foldl (fun m l => FMap.set 0 m l 0) g.mark
    p := timed.foldl (fun m l =>
      let k := FMap.get 0 g.mark l
      let old := FMap.get 0#32 m k
      FMap.set 0#32 m k (if mark then old ||| Mask.one l else old &&& ~~~(Mask.one l))) g.p }

/-- The release condition of R189. -/
def Group.waitComplete (g : Group) (j : Nat) : Bool :=
  let a := FMap.get 0#32 g.jA j
  let e := FMap.get 0#32 g.jE j
  decide (a ≠ 0#32) && decide (a &&& e = e)

/-- The check of R189 for one mask. -/
def Group.checkWait (g : Group) (cycle : Nat) (j : Nat) : Group :=
  if g.waitComplete j then g.releaseWait j false cycle else g

/-- The check of R189 for every mask, ascending (R191). -/
def Group.checkWaits (g : Group) (cycle : Nat) : Group :=
  (List.range 12).foldl (fun g j => g.checkWait cycle j) g

/-- Lanes leave: every rejoin mask, and the live mask (R70, R191, R198). -/
def Group.lanesExit (g : Group) (m : Mask) (cycle : Nat) : Group :=
  let clear (x : FMap Mask) : FMap Mask :=
    (List.range 12).foldl (fun x j => FMap.set 0#32 x j (FMap.get 0#32 x j &&& ~~~m)) x
  let g : Group := { g with
    live := g.live &&& ~~~m, jE := clear g.jE, jA := clear g.jA,
    frontier := g.frontier.filterMap (fun (e : Entry) =>
      if e.mask &&& ~~~m = 0#32 then none else some { e with mask := e.mask &&& ~~~m })
    saved := g.saved.filterMap (fun (e : Entry) =>
      if e.mask &&& ~~~m = 0#32 then none else some { e with mask := e.mask &&& ~~~m })
    sel := false }
  g.checkWaits cycle

/-- The group has wholly exited (R42, R198). -/
def Group.exited (g : Group) : Bool := decide (g.live = 0#32)

/-- Some entry can be chosen. -/
def Group.someRunnable (g : Group) : Bool := g.frontier.any (·.runnable)

/-- The collective instruction that every live lane of the group waits at, if there is one (R193). -/
def Group.collective (g : Group) : Option CollOp :=
  match g.frontier with
  | [] => none
  | e :: _ =>
    match e.susp with
    | .coll op _ =>
      if g.frontier.all (fun f => match f.susp with
        | .coll op' _ => decide (op' = op)
        | _ => false) then some op else none
    | _ => none

/-- The operands of the ADVs the group's lanes wait at, where they agree (R49 check 1). -/
def Group.advOps (g : Group) : Option AdvOps :=
  match g.frontier with
  | [] => none
  | e :: _ =>
    match e.susp with
    | .coll .adv (some o) =>
      if g.frontier.all (fun f => decide (f.susp = .coll .adv (some o))) then some o else none
    | _ => none

/-- All lanes of the collective step resume after their own instruction (R193). -/
def Group.resumeColl (g : Group) (cycle : Nat) : Group :=
  { g with
    frontier := addEntries (joinEqual (g.frontier.map (fun e => { e.complete with last := cycle }))) []
    sel := false, stage := 0,
    why := if g.why = .noEntry then .ready else g.why }

/-- Lanes at collective instructions, and lanes at WAITs (R196). -/
def Group.collLanes (g : Group) : Mask :=
  g.frontier.foldl (fun m e => match e.susp with
    | .coll _ _ => m ||| e.mask
    | _ => m) 0#32

def Group.waitLanes (g : Group) : Mask :=
  g.frontier.foldl (fun m e => match e.susp with
    | .wait _ => m ||| e.mask
    | _ => m) 0#32

/-- The PC at which a lane stands. -/
def Group.pcOfLane (g : Group) (l : Nat) : Nat :=
  ((g.frontier.find? (fun e => e.mask.getLsbD l)).map (·.pc)).getD 0

/-- The lanes at collective instructions become runnable again there, not yet arrived (R196, R197). -/
def Group.unColl (g : Group) (cycle : Nat) : Group :=
  { g with
    frontier := g.frontier.map (fun e => match e.susp with
      | .coll _ _ => { e with susp := .run, last := cycle }
      | _ => e)
    sel := false, stage := 0 }

/-- No lane of the group can go on by itself: no runnable entry, no timer, no whole collective step (R181). -/
def Group.stuck (g : Group) : Bool :=
  !g.exited && !g.someRunnable &&
  match g.collective with
  | some _ => false
  | none =>
    -- R196: different collective instructions, or collective ones beside WAITs, whatever timers run
    decide (g.collLanes ≠ 0#32) ||
    -- R181: all lanes at WAITs and no timer pending
    !(g.waitLanes.lanes.any (fun l => FMap.get 0 g.dl l ≠ 0))

/-- The earliest deadline among the lanes of A(j). -/
def Group.deadline (g : Group) (j : Nat) : Option Nat :=
  let a : Mask := FMap.get 0#32 g.jA j
  a.lanes.foldl (fun acc l =>
    match FMap.get 0 g.dl l with
    | 0 => acc
    | d + 1 => match acc with
      | none => some d
      | some x => some (min x d)) none

/-- A release by a deadline that has passed (R190). -/
def Group.expire (g : Group) (j cycle : Nat) : Group :=
  match g.deadline j with
  | some t => if t ≤ cycle then g.releaseWait j true cycle else g
  | none => g

/-- Every deadline that lies at or before a cycle has passed: its lanes are released at that deadline, or now where it came with the
arrival itself (R190). -/
def Group.expireAll (g : Group) (now upto : Nat) : Group :=
  if g.dl.isEmpty then g
  else (List.range 12).foldl (fun (g : Group) j =>
    match g.deadline j with
    | some t => if t ≤ upto then g.releaseWait j true (max t now) else g
    | none => g) g

end Sys2Proof.Machine
end

