-- ==== Sys2Proof/Machine/MemTypes.lean ====
section
/-! DEFINITION. Launch records and region entries (Tables 2-2 to 2-6), scratch spaces, and the pending accesses of
the scratch levels with the first-level cache (R202-R209, R222-R228). -/

namespace Sys2Proof.Machine

open Sys2Proof

/-- A role entry (Table 2-4). -/
structure Role where
  entry : Nat
  budget : Nat
  ngrp : Nat
  lpriv : Nat
  ntile : Nat
  tshape : Nat
deriving DecidableEq, Repr

/-- A launch record (Table 2-2). -/
structure LRecord where
  kind : Nat
  ttype : Nat
  flags : BitVec 16
  deadline : Nat
  extx : Nat
  exty : Nat
  extz : Nat
  cscr : Nat
  cshr : Nat
  code : Nat
  codelen : Nat
  nreg : Nat
  regtab : Nat
  roles : List Role       -- the present roles
  ntray : Word
  nbatch : Nat
  ntime : Nat
  consts : FMap Word      -- s0-s31 (R32)
deriving DecidableEq, Repr

def LRecord.zero : LRecord :=
  { kind := 0, ttype := 0, flags := 0, deadline := 0, extx := 0, exty := 0, extz := 0, cscr := 0, cshr := 0,
    code := 0, codelen := 0, nreg := 0, regtab := 0, roles := [], ntray := 0, nbatch := 0, ntime := 0,
    consts := [] }

/-- FLAGS fields (Table 2-3). -/
def LRecord.repl (r : LRecord) : Bool := r.flags.getLsbD 0
def LRecord.pcls (r : LRecord) : Nat := (r.flags.extractLsb' 1 2).toNat
def LRecord.dl (r : LRecord) : Bool := r.flags.getLsbD 3
def LRecord.mnt (r : LRecord) : Bool := r.flags.getLsbD 4
def LRecord.rm (r : LRecord) : BitVec 2 := r.flags.extractLsb' 5 2
def LRecord.ftz (r : LRecord) : Bool := r.flags.getLsbD 7
def LRecord.ivt (r : LRecord) : Bool := r.flags.getLsbD 8
def LRecord.gcr (r : LRecord) : Word := gcrOf r.ivt r.mnt r.ftz r.rm
/-- Groups of the block (R25). -/
def LRecord.groups (r : LRecord) : Nat := (r.roles.map (·.ngrp)).sum
def LRecord.role (r : LRecord) (i : Nat) : Role := nth r.roles i ⟨0, 0, 0, 0, 0, 0⟩

/-- A region entry (Table 2-6). -/
structure Region where
  src : Nat
  len : Nat
  off : Nat
  level : Nat       -- 0 core scratch, 1 cluster-shared, 2 chip scratchpad
  dir : Nat         -- 0 in, 1 out, 2 inout, 3 zero
  twoD : Bool
  hnd : Bool
  rows : Nat
  spitch : Nat
  dpitch : Nat
deriving DecidableEq, Repr

/-- Rows a region holds: 1 for a 1-D region. -/
def Region.nrows (r : Region) : Nat := if r.twoD then r.rows else 1

/-- A scratch space (R202): which copy of which level. -/
inductive Space where
  | lane (blk grp lane : Nat)
  | core (blk pos : Nat)        -- core scratch and the register windows of one core of a block
  | clu (blk idx : Nat)         -- cluster-shared memory of the block's idx-th cluster
  | chip (part : Nat)
deriving DecidableEq, Repr

/-- One lane's scratch store on its way to its home (R207). -/
structure PStore where
  op : Nat
  instr : Nat                   -- the operation number of its instruction's first store
  core : Nat
  blk : Nat
  grp : Nat
  space : Space
  bytes : List (Nat × Byte)     -- address and byte, without bytes a higher lane writes (R225)
  seen : List (Nat × Nat)       -- the other groups, as block and group, that have read it (R212 item 5)
deriving DecidableEq, Repr

/-- What a scratch atomic does to its word (R227, R228, R231). -/
inductive AtomOp where
  | at (f : AtOp) (x : Word)
  | cas (cmp new : Word)
  | pbarArr
deriving DecidableEq, Repr

/-- One lane's scratch atomic (R227): the instruction it belongs to, and the register that takes the old value. -/
structure PAtom where
  op : Nat
  instr : Nat
  core : Nat
  blk : Nat
  grp : Nat
  lane : Nat
  space : Space
  addr : Nat
  what : AtomOp
  dst : Option RegRef
deriving DecidableEq, Repr

/-- A scratch load (R224, R226, R175): each lane's first byte address, and what each destination register takes. -/
structure PLoad where
  op : Nat
  core : Nat
  blk : Nat
  grp : Nat
  lanes : List (Nat × Space × Nat)   -- lane, space, address (for a line load: the line's address)
  line : Bool                        -- LDLN: register j takes word 32·j + lane
  size : MemSize
  regs : List RegRef                 -- destination registers, ascending
  left : List Nat                    -- indexes of the registers still to fill
  need : List (Space × Nat)          -- sectors still to be filled (R205)
  got : List (Space × Nat × Word × Nat)  -- words captured from the cache: space, word number, value, poison
  vals : Option (List (Nat × List (Word × Nat)))  -- lane ↦ words and poison of each register, once read
deriving DecidableEq, Repr

/-- A 64-byte sector in a first-level cache (R204). -/
structure Sector where
  space : Space
  sec : Nat                      -- address / 64
  words : List (Word × Nat)      -- 16 words and their poison
deriving DecidableEq, Repr

/-- A miss-status entry (R205). -/
structure Miss where
  id : Nat
  space : Space
  sec : Nat
deriving DecidableEq, Repr

/-- A block offered to a core that waits there (R392): its launch and linear index, since when, and the units its part holds meanwhile. -/
structure Offer where
  launch : Nat
  lin : Nat
  since : Nat
  held : List (Nat × Nat)
deriving DecidableEq, Repr

/-- One core (R16, R17, R204, R205, R392, R393): cache, misses, and what the unified store and the slots hold. -/
structure CoreSt where
  l1 : List Sector
  miss : List Miss
  units : List (Nat × Nat × Nat) -- allotment in 1 KiB units (R392): first unit, how many, block
  offer : Option Offer           -- the oldest block offered that is not admitted (R392)
  mark : Bool                    -- drain mark (R392)
  shadow : List (Nat × Nat)      -- shadow slots in use: slot and block (R393)
deriving DecidableEq, Repr

def CoreSt.init : CoreSt := ⟨[], [], [], none, false, []⟩

end Sys2Proof.Machine
end

