-- ==== Sys2Proof/Machine/MatTypes.lean ====
section
/-! DEFINITION. Signing registers, operand maps, passes, tiles, engines and governors (10), the layer table and its
folds (11), copy channels (R232-R240) and drains (R268). -/

namespace Sys2Proof.Machine

open Sys2Proof

/-- An operand map (R251, Table 10-3). -/
inductive OpMap where
  | idle
  | core (pos d0 d1 epitch spitch : Nat) (bm : Option Nat)   -- core scratch of one core of the block
  | clu (d0 d1 epitch spitch : Nat) (bm : Option Nat)        -- the home cluster's cluster-shared memory
  | hnd (h : Word)
deriving DecidableEq, Repr

/-- A pass template (R247, Table 10-1). -/
structure Template where
  kind : Nat
  klen : Nat        -- in elements
  mapA : Nat
  mapB : Nat
  tile : Nat
  fmt : Nat         -- 0 QS8, 1 QS4, 2 QS16
  shape : Nat       -- 0 256, 1 128, 2 64
  gbase : Nat
  ak : Nat
  arow : Nat
  bk : Nat
  bcol : Nat
  gcnt : Nat
  taboff : Nat
deriving DecidableEq, Repr

def Template.zero : Template := ⟨0, 0, 0, 0, 0, 0, 0, 0, 0, 0, 0, 0, 0, 0⟩

/-- A signing register (R248): idle when no set is declared. -/
structure SignReg where
  tpl : Template
  opA : OpMap
  opB : OpMap
  rowoff : List Nat          -- the row-offset table of a grouped pass
  set : List Nat             -- declared set; empty: idle
  signed : List (Nat × Bool) -- groups that have signed, with their GCR.MNT (R74, R249)
  tileId : Nat               -- the tile the name denoted at MDECL (R263)
deriving DecidableEq, Repr

def SignReg.idle : SignReg := ⟨Template.zero, .idle, .idle, [], [], [], 0⟩

/-- A layer slot (Table 11-2). -/
structure Slot where
  lowRank : Bool
  rank : Nat
  alpha : Int
  count : Nat
  addr : Nat
  aux : Nat
deriving DecidableEq, Repr

/-- A layer table entry (Table 11-1). -/
structure LEntry where
  live : Bool
  bfmt : Nat
  vfmt : Nat
  fold : Nat          -- 0 idle, 1 running, 2 failed
  badsp : Bool
  gen : Word
  satv : Nat
  base : Nat
  bscl : Nat
  lines : Nat
  klen : Nat
  epitch : Nat
  spitch : Nat
  spare : Nat
  spscl : Nat
  slots : List Slot   -- NLAY slots, oldest first
deriving DecidableEq, Repr

def LEntry.free : LEntry :=
  ⟨false, 0, 0, 0, false, 0, 0, 0, 0, 0, 0, 0, 0, 0, 0, []⟩

/-- A fold the fixer runs (R285): its handle, snapshot and buffer. -/
structure Fold where
  part : Nat
  h : Nat
  snap : LEntry
  buf : Nat
  bscl : Nat
  auto : Bool
  clu : Nat           -- the cluster whose instruction started it (R375)
deriving DecidableEq, Repr

/-- One operand line over one K-tile, as read: elements, the block scales, and the poison of its first poisoned element. -/
structure Line where
  q : List Int
  scales : List Nat
  bits : List Bool
  poison : Nat
  sats : Nat
deriving DecidableEq, Repr

/-- The operands of a pass: for each K-tile the lines of A and of B, by line offset. -/
structure Operands where
  tiles : List (List Line × List Line)
deriving DecidableEq, Repr

/-- A pass in a reservation table (R258, R259). -/
structure Pass where
  id : Nat
  blk : Nat
  src : Nat                      -- block whose scratchpad holds its operands: the predecessor's after an ADV (R50, R51)
  sign : SignReg                 -- template, maps, row offsets and signers as captured
  snapA : Option LEntry          -- snapshot of a handle operand at the last signature (R278)
  snapB : Option LEntry
  fetchedA : Bool                -- the tile fetch unit has brought the operand (R253)
  fetchedB : Bool
  lines : List (List Line × List Line)   -- the handle operands' lines, K-tile by K-tile, as the tile fetch unit brings them
  came : List Nat                -- the cycle at which each K-tile came (R246)
  ops : Option Operands          -- the operands, once a later pass of a common signer has had them read (R216 note 8)
  tile : Nat
  entered : Nat                  -- cycle it entered
  granted : Bool                 -- its exposure permits are granted (R260)
  reserve : Bool                 -- they come from the block's permit reserve (R343)
  started : Option Nat           -- cycle it started
deriving DecidableEq, Repr

/-- Where a drain or a copy endpoint lies (Tables 9-7, 9-8, 10-5). -/
inductive Place where
  | mem (va : Nat)
  | scratch (space : Space) (off : Nat)
  | view (h : Word) (off : Nat)       -- a layered-tensor handle's view (source only)
deriving DecidableEq, Repr

/-- A drain (R268). -/
structure Drain where
  op : Nat
  blk : Nat
  grp : Nat
  form : DrainForm
  name : Nat          -- tile number, for the info words
  dst : Place
  pitch : Nat
  soff : Nat
deriving DecidableEq, Repr

/-- What stands in a tile's order (R264). -/
inductive TileCmd where
  | pass (id : Nat)
  | mzero
  | mwait (blk grp : Nat)
  | mrel (blk grp : Nat)
  | mrd (op blk grp k q c : Nat) (act : Mask) (regs : List RegRef)
  | mrdStat (op blk grp : Nat) (regs : List RegRef)
  | mwr (k q c : Nat) (act : Mask) (vals : List (List (Nat × Word)))
  | drain (d : Drain)
deriving DecidableEq, Repr

/-- An accumulator tile (R261). -/
structure Tile where
  clu : Nat
  blk : Nat
  shape : Nat                 -- 0 256, 1 128, 2 64
  unit : Nat                  -- first 16 KiB unit of the store
  vals : FMap Word            -- element (i, j) at i·256 + j
  pois : FMap Nat
  satc : Nat
  flsc : Nat
  infc : Nat
  nanc : Nat
  order : List TileCmd
  released : Bool             -- freed: the place is free again
deriving DecidableEq, Repr

/-- A MACQ request (R262). -/
structure Acq where
  blk : Nat
  grp : Nat
  name : Nat
  shape : Nat
deriving DecidableEq, Repr

/-- One matrix engine (R245, R258-R262). -/
structure Engine where
  mode : Nat                  -- shape of the current mode
  table : List Pass
  chosen : Option Nat         -- pass id
  switch : Option (Nat × Nat) -- shape the array is switching to, and since when
  acq : List Acq
deriving DecidableEq, Repr

/-- After reset the array is in 256×256 mode (R259). -/
def Engine.init : Engine := ⟨0, [], none, none, []⟩

/-- Who requests exposure permits (R260, R343). -/
inductive PermitFor where
  | pass (id : Nat)
  | copy (blk c cmd : Nat)
  | reserve (blk : Nat) (grp : Option Nat)
deriving DecidableEq, Repr

/-- A permit request (R260). -/
structure PermitReq where
  who : PermitFor
  part : Nat
  n : Nat
deriving DecidableEq, Repr

/-- A die's governor (R260, R396): requests in the order made; a supply above its ceiling holds grants back. -/
structure Governor where
  queue : List PermitReq
  hot : Bool
deriving DecidableEq, Repr

def Governor.init : Governor := ⟨[], false⟩

/-- A piece of a copy command (R36, R236): row, source and destination offsets, length. -/
structure Piece where
  srcOff : Nat
  dstOff : Nat
  len : Nat
  done : Bool
  got : Nat           -- words delivered so far
deriving DecidableEq, Repr

/-- A copy command (R233, R234). -/
structure CopyCmd where
  id : Nat
  grp : Nat
  src : Place
  dst : Place
  snap : Option LEntry          -- snapshot of a handle source, taken at acceptance (R278)
  total : Nat
  started : Bool
  granted : Bool
  reserve : Bool                -- its permits come from the block's reserve (R343)
  pieces : List Piece
deriving DecidableEq, Repr

/-- A copy channel (R232, R237, R240). -/
structure Channel where
  cmds : List CopyCmd
  base : Nat                     -- lengths of the completed commands
  err : Option (Nat × Nat × Nat) -- cause, poison origin, first failing address
  dests : List (Space × Nat × Nat × Nat)  -- bytes delivered into cached spaces since CRST: address, length, pointer there
deriving DecidableEq, Repr

def Channel.init : Channel := ⟨[], 0, none, []⟩

end Sys2Proof.Machine
end

