-- ==== Sys2Proof/Machine/TrayTypes.lean ====
section
/-! DEFINITION. Trays and node batches (12). -/

namespace Sys2Proof.Machine

open Sys2Proof

/-- A record of a tray (R290, R294): its words with their poison, its key in the deduplication set if it has one,
and its number in the spill sequence if it went to the spill ring. -/
structure Rec where
  words : List (Word × Nat)
  key : Option Word
  spillNo : Option Nat
deriving DecidableEq, Repr

/-- A spill write on its way (R294): the number of the record in the spill sequence and its words. -/
structure SpillWrite where
  no : Nat
  words : List (Word × Nat)
  clu : Nat                   -- the cluster whose instruction inserted it (R375)
deriving DecidableEq, Repr

/-- A spill write whose tray is done: its tray's handle and its place in the spill region. -/
structure LateSpill where
  handle : Word
  addr : Nat
  write : SpillWrite
deriving DecidableEq, Repr

/-- A group waiting at a tray for room or for records (R295, R298, R299), oldest first. -/
structure Waiter where
  blk : Nat
  grp : Nat
  since : Nat
deriving DecidableEq, Repr

/-- The live state of a tray at its home unit (R291-R306). The pool holds the first CAP of `recs`, the spill ring
the rest (R294). -/
structure Tray where
  handle : Word
  rs : Nat
  dedup : Bool
  drem : Bool
  nprod : Nat
  xto : Nat
  cap : Nat
  spcap : Nat
  spill : Nat
  dset : Nat
  dcap : Nat
  recs : List Rec
  keys : List Word
  pushed : Nat
  popped : Nat
  spilled : Nat
  dups : Nat
  closes : Nat
  waitPush : List Waiter
  waitPop : List Waiter
  writes : List SpillWrite
  harm : Nat                  -- stores of the program into the deduplication set while the tray is open (R304)
  bound : Option Nat          -- the node's launch (R305)
  timer : Option Nat          -- cycle at which the batch timer started (R306)
  batchNo : Nat
deriving DecidableEq, Repr

/-- A batch formed and not yet started as a block (R306, R307). -/
structure Batch where
  no : Nat
  recs : List Rec
deriving DecidableEq, Repr

end Sys2Proof.Machine
end

