-- ==== Sys2Proof/Machine/RasterTypes.lean ====
section
/-! DEFINITION. Sample sets, the primitive stream, fragment work and held results (13), and the engine commands whose
results are in flight (R77). -/

namespace Sys2Proof.Machine

open Sys2Proof

/-- A set descriptor (Tables 13-1 and 13-2). -/
structure SetDesc where
  cap : Nat
  w : Nat
  h : Nat
  dwr : Bool
  dfn : Nat
  den : Bool
  comp : Bool
  grid : Bool
  fmt : Nat
  l : Nat
  pos : Nat
  res : Nat
  dep : Nat
  ws : Nat
  frag : Nat
  clrc0 : Word
  clrc1 : Word
  clrd : Word
deriving DecidableEq, Repr

def SetDesc.zero : SetDesc := ⟨0, 0, 0, false, 0, false, false, false, 0, 0, 0, 0, 0, 0, 0, 0, 0, 0⟩

/-- A chunk of the contact sheet (R322): the cell it lies in, in 1/256 pixels, and its samples with positions. -/
structure Chunk where
  x0 : Nat
  y0 : Nat
  size : Nat
  samples : List (Nat × Nat × Nat)    -- sample index, x, y
deriving DecidableEq, Repr

/-- A triangle of a stream (R325, R326): its place keys, its ten words, the launch whose PRIM emitted it. -/
structure Tri where
  epoch : Nat                -- how many RCLEARs and RDECOMPs had been issued to the set when it was emitted (R338)
  key : List Nat             -- launch sequence, block, group, issue, lane
  words : List Word
  launch : Nat
  die : Nat                  -- the reorder buffer that holds it
deriving DecidableEq, Repr

/-- A triangle at a raster unit for one chunk (R328, R330): the fragment groups still to start, each a list of
32 lanes (sample index and whether covered; none where no lane lives), and the groups that have started. -/
structure Work where
  id : Nat
  prim : Nat
  chunk : Nat
  tri : Tri
  tested : Bool
  groups : List (List (Option (Nat × Bool)))
  running : List Nat
deriving DecidableEq, Repr

/-- One SRES whose results the raster unit holds (R333, R335). -/
structure Held where
  op : Nat
  blk : Nat
  work : Nat
  chunk : Nat
  prim : Nat
  mode : SresMode
  desc : SetDesc
  items : List (Nat × List Word × Word)    -- sample, colour words, depth
deriving DecidableEq, Repr

/-- A set table entry (R311, R315). -/
structure SetEntry where
  alloc : Bool
  gen : Nat
  desc : SetDesc
  frag : LRecord
  fragRegions : List Region
  state : Nat                -- Table 13-3: 0 new, 1 building, 2 built, 3 bound, 4 failed
  chunks : List Chunk        -- the contact sheet; a grid set's is not listed
  depth : Nat
  excl : Nat
  stream : List Tri          -- reorder buffers: triangles not yet distributed
  prims : Nat                -- triangles distributed since the binding
  closed : Bool              -- the stream is closed (R327)
  epoch : Nat                -- RCLEARs and RDECOMPs issued to the set while bound
  work : List Work
  held : List Held
deriving DecidableEq, Repr

def SetEntry.free : SetEntry :=
  ⟨false, 0, SetDesc.zero, LRecord.zero, [], 0, [], 0, 0, [], 0, false, 0, [], []⟩

/-- A texture lookup's inputs (R339-R341). -/
structure TexArgs where
  gather : Option Nat          -- TEXG's channel
  lod : Bool
  filter : TexFilter
  desc : List Word
  coords : List (Nat × Word × Word × Word)   -- lane, u, v, λ
  deriv : List (Nat × Word × Word)           -- words of all lanes for the quad derivatives: lane, u, v
  gcr : Word
deriving DecidableEq, Repr

/-- An engine command whose result is in flight. -/
inductive CmdKind where
  | fsqrt (vals : List (Nat × Word)) (fl : Flags)                       -- R152
  | fatom (f : FatomOp) (lanes : List (Nat × Nat × Word × Word))        -- lane, address, operand, new
      (got : List (Nat × List (Word × Nat)))
  | mpath (src : Place) (nrows parts : Nat) (p : List (Nat × Word))     -- R309
  | tex (t : TexArgs)
  | answer (vals : List (Nat × List (Word × Nat)))                      -- a value already read, landing
deriving DecidableEq, Repr

/-- A command in flight: its group, its active lanes and its destination registers. -/
structure Cmd where
  op : Nat
  blk : Nat
  grp : Nat
  act : Mask
  regs : List RegRef
  kind : CmdKind
deriving DecidableEq, Repr

end Sys2Proof.Machine
end

