-- ==== Sys2Proof/Machine/SysTypes.lean ====
section
/-! DEFINITION. Blocks, launches and queues (02, 21), translation and the memory side (20), partitions and the
platform (21). -/

namespace Sys2Proof.Machine

open Sys2Proof

/-- Block life (R54, Table 2-10). -/
inductive Life where
  | staging | running | retiring | capturing | applying | advancing | saved | replaying | ended | done
deriving DecidableEq, Repr

/-- A code unit in the instruction cache (R95): its virtual address / 16, its four words, the poison origin + 1 of
the fetch, and whether a permission failure met it (R374). -/
structure CodeUnit where
  unit : Nat
  words : List Word
  poison : Nat
  refused : Bool
deriving DecidableEq, Repr

/-- The permit reserve of a block (R343). -/
structure Reserve where
  n : Nat                 -- the reserve, raises requested and not yet granted included
  granted : Nat           -- permits of the reserve that the governor has granted
  held : Nat              -- of them, held by running passes and copies
  excess : Nat            -- to go back to the pool once they are free
deriving DecidableEq, Repr

def Reserve.zero : Reserve := ⟨0, 0, 0, 0⟩

/-- What makes a block a fragment group's block (R330, R331): set and work, and the lanes' samples. -/
structure FragInfo where
  set : Nat
  work : Nat
  lanes : List (Option (Nat × Bool))
deriving DecidableEq, Repr

/-- How a block ended (R31, R361, R390). -/
structure Ending where
  status : Nat
  cause : Nat
  kinfo : Word
deriving DecidableEq, Repr

/-- A captured region on its way to memory (R43). -/
structure Captured where
  region : Region
  words : List (Word × Nat)    -- with poison
deriving DecidableEq, Repr

/-- One block (R24, R39, R46, R54). -/
structure Block where
  launch : Nat
  part : Nat
  lin : Nat                   -- linear block index (R326)
  x : Nat
  y : Nat
  z : Nat
  lrec : LRecord
  regions : List Region
  cores : List Nat            -- ascending (R39)
  life : Life
  nrepl : Nat
  ending : Option Ending
  groups : List Group
  core : List Memory          -- core scratch of each core position
  coreP : List (FMap Nat)     -- poison of its words
  clu : List Memory           -- cluster-shared memory of each cluster of the block
  cluP : List (FMap Nat)
  sign : List SignReg
  tiles : List (Option Nat)   -- a0-a7: number of the tile owned
  maps : List OpMap
  chans : List Channel
  phases : FMap Nat           -- phase counts: block barrier id, or 16 + 16·role + id (R192)
  permit : Reserve
  staged : Nat                -- regions staged so far
  stageAt : Nat               -- words of the next region staged so far (R36)
  stageSnap : Option LEntry   -- the snapshot that the region's staging reads through (R278)
  applied : Nat               -- captured words applied so far (R36, R43)
  failed : Bool               -- a staging read or a commit write failed
  captured : List Captured
  scrub : List (Space × Nat × Nat)   -- destinations that an uninherited channel still fills at ADV (Table 2-9)
  code : List CodeUnit
  noReplay : Bool             -- a successor with inheritance (R52)
  succ : Option LRecord       -- the successor that ADV names, once its checks have passed (R49, R50)
  succRegions : List Region
  advOps : Option AdvOps
  pred : Option Nat           -- the predecessor in an ADV chain (R51)
  preempt : Bool              -- chosen for pre-emption (R367)
  frag : Option FragInfo
  batch : Option Batch
  slot : Option (Nat × Nat)   -- shadow slot: core and slot (R393)
deriving DecidableEq, Repr

/-- A block put back in its queue for a replay (R46): where and what it is, its replays so far, the poison whose link must be up again
first (R357: its origin + 4 times the link), and the cores that an error struck (R23). -/
structure Requeue where
  lin : Nat
  nrepl : Nat
  lrec : LRecord
  regions : List Region
  batch : Option Batch
  hold : Option Nat
  avoid : List Nat
deriving DecidableEq, Repr

/-- A launch (R26-R31, R389-R391). -/
structure Launch where
  queue : Nat
  entry : Nat
  recAddr : Nat
  lrec : LRecord
  regions : List Region
  part : Nat
  seq : Word
  arrival : Nat
  dep : Option (Nat × Word)       -- queue and count of the dependence (Table 21-2)
  status : Option Nat             -- rejection status
  started : Bool
  ranges : List (Nat × Nat × Nat) -- unplaced ranges: child, first, past the last (R391)
  requeued : List Requeue         -- replayed blocks
  batches : List Batch
  worst : Option (Nat × Ending)   -- linear index and ending that the queue reports (R390)
  completed : Bool
deriving DecidableEq, Repr

/-- The registers of a queue (Table 21-1). -/
structure Queue where
  en : Bool
  part : Nat
  tier : Nat
  ring : BitVec 64
  size : Word
  tail : Word
  head : Word
  done : Word
  cpl : BitVec 64
  dlm : Word
deriving DecidableEq, Repr

def Queue.init : Queue := ⟨false, 0, 0, 0, 0, 0, 0, 0, 0, 0⟩

/-- A leaf of a page table (Table 20-2). -/
structure Leaf where
  base : Nat        -- virtual address of the page
  bits : Nat        -- page offset bits: 16, 25 or 34
  frame : Nat       -- physical address of the page
  tier : Nat
  link : Nat
  il : Nat
  r : Bool
  w : Bool
  x : Bool
deriving DecidableEq, Repr

/-- An engine TLB entry (R375). -/
structure TlbEntry where
  clu : Nat
  part : Nat
  leaf : Leaf
deriving DecidableEq, Repr

/-- What an engine asks for. -/
inductive Acc where
  | read | write | fetch
deriving DecidableEq, Repr

/-- A translated request: its partition and cluster, its kind (Table 20-3), its number, its block's queue and
launch sequence, and the tier that a queue's own accesses lie in (R388). -/
structure Req where
  part : Nat
  clu : Nat
  kind : Nat
  who : Nat
  queue : Nat := 255
  seq : Word := 0
  tier : Option Nat := none
deriving DecidableEq, Repr

/-- A TLB miss: the request and its access. -/
structure Ask where
  req : Req
  acc : Acc
deriving DecidableEq, Repr

/-- A walk (R376): its page, the misses that joined it, oldest first, and whether it waits for a walker. -/
structure Walk where
  id : Nat
  part : Nat
  clu : Nat
  va : Nat
  asks : List Ask
  waits : Bool
deriving DecidableEq, Repr

/-- A parked request (R377): the page, and what its outcome is once it is known. -/
structure Park where
  id : Nat
  part : Nat
  clu : Nat
  va : Nat
  write : Bool
  kind : Nat
  since : Nat
  walked : Nat          -- cycle of its last walk
  who : List Nat        -- the requests merged here, by number (R376)
  expired : Bool        -- its outcome is known: after 100 ms it completes with poison of origin 3
  out : Option Nat      -- that outcome: poison of an origin, or a permission failure that a joined walk found
  spent : List Nat      -- the requests that have met this completion in the run under way
deriving DecidableEq, Repr

/-- Who a physical line belongs to (R381, R386): real HBM or window space, or the host tier. -/
inductive Tag where
  | tier0 (line : Nat)      -- PA / 2048
  | host (line : Nat)
deriving DecidableEq, Repr

/-- An L2 line (R381, R382). The bytes of window and host lines are held here; those of real HBM lines are the
bytes of `hbm`. -/
structure L2Line where
  slice : Nat
  set : Nat
  tag : Tag
  valid : BitVec 32
  dirty : BitVec 32
  accessed : BitVec 32
  filler : Nat            -- KIND of the requester that filled it (R382)
  part : Nat              -- its partition, for the link-loss counter (R387)
  used : Nat              -- operation number of the last use
  data : Memory           -- key: byte of the line
  pois : FMap Nat         -- word of the line ↦ origin + 1
  excl : Bool             -- a host line that is taken exclusive, not shared (R386)
  pins : List Nat         -- the passes that pin it (R253)
deriving DecidableEq, Repr

/-- A format window (Table 20-6). -/
structure Window where
  wctl : Word
  wnblk : Word
  wbase : BitVec 64
  decc : Nat
  encc : Nat
deriving DecidableEq, Repr

def Window.init : Window := ⟨0, 0, 0, 0, 0⟩

/-- A partition (R395, Table 21-5, R363, R406). -/
structure Part where
  active : Bool
  cfg : PartConfig
  chip : Memory
  chipP : FMap Nat
  layers : FMap LEntry
  trays : List Tray
  poolUsed : Nat
  late : List LateSpill      -- spill writes of trays that are done (R294)
  sets : FMap SetEntry
  accepted : Word            -- launches accepted, modulo 2^32 (R172)
  replc : Word
  eccc : Word
  linkLoss : Nat
  permits : Nat × Nat        -- permits granted on die 0 and die 1
  fqBase : BitVec 64
  fqSize : Word
  fqWr : Word
  fqRd : Word
  fqOvf : Bool
deriving DecidableEq, Repr

def PartConfig.empty : PartConfig :=
  { clusters := [], groups := [], chipShare := 0, slices := [], pool := 0, layerT := 0, permits := (0, 0),
    trapTable := 0, tableRoot := 0, fqBase := 0, fqSize := 0, ctxPool := 0, queues := [], taskTypes := [],
    hostVisible := false }

def Part.init : Part :=
  { active := false, cfg := PartConfig.empty, chip := [], chipP := [], layers := [], trays := [], poolUsed := 0, late := [],
    sets := [], accepted := 0, replc := 0, eccc := 0, linkLoss := 0, permits := (0, 0), fqBase := 0,
    fqSize := 0, fqWr := 0, fqRd := 0, fqOvf := false }

/-- The device's work: everything but the boot controller (R354, R399). Maps hold only what differs from the
state after clearing. -/
structure Dev where
  cycle : Nat
  nextId : Nat                 -- operation numbers (the model's own)
  fresh : Nat                  -- counter of free values (the model's own)
  cur : Option (Nat × Nat)     -- the group that issues now: block and group (the model's own)
  parts : FMap Part
  queues : FMap Queue
  launches : List Launch
  blocks : List Block
  cores : FMap CoreSt
  loads : List PLoad
  stores : List PStore
  atoms : List PAtom
  cmds : List Cmd
  engines : FMap Engine
  tiles : List Tile
  govs : FMap Governor
  folds : List Fold
  hbm : Memory                 -- real HBM by physical address
  hbmP : FMap Nat
  l2 : List L2Line
  predict : FMap Word          -- 4096·slice + entry
  scheme : FMap Nat            -- group scheme table; 1 where not listed
  windows : FMap Window
  tlb : List TlbEntry
  walks : List Walk
  parks : List Park
  hostTrained : Bool           -- the CXL port has trained (R397)
  hostUp : Bool                -- and firmware has reported the link up (R387)
  peerUp : FMap Bool
  timeouts : Nat               -- host-tier requests that will meet a completion timeout
  linkEcc : Nat                -- host and peer responses that will carry an uncorrectable ECC error (R387)
  hostLimit : Nat              -- the completion timeout in cycles that firmware sets (R387)
  lost : List (Nat × Nat)      -- requests outstanding at a link loss, and the poison they complete with (R387)
  exports : List (Nat × Nat × Nat)   -- link, base and length of what firmware exports to a peer (R386, R398)
  peerOut : List (Nat × Nat × Nat)   -- link, base and length of what a peer refuses (R386)
  heldMem : List (Nat × Option Byte) -- CXL.mem requests held during clearing (R403)
  replies : FMap (Word × Nat)  -- the last answer to the host's CXL.mem (0) and to each peer link (1 + link): word and poison
  hostMem : Memory             -- the host's memory (an outside agent's)
  peerMem : FMap Byte          -- the peers' memory: 2^52·link + address
deriving DecidableEq, Repr

/-- What the controller does (R400, R404). -/
inductive Phase where
  | recovery
  | clearing
  | running
deriving DecidableEq, Repr

/-- The mailbox's status word (R399). -/
inductive Mailbox where
  | idle
  | done
  | refused
  | busy
  | quote (log : List (List Byte)) (sig : List Byte)
deriving DecidableEq, Repr

/-- The system controller: boot, image, life cycle, attestation, mailbox (R399-R405). -/
structure Platform where
  phase : Phase
  flash : Image
  rollback : Nat               -- fused rollback counter
  life : LifeCycle
  idLife : LifeCycle           -- the life-cycle state that the identity key was derived with (R402)
  log : List (List Byte)       -- measurement log (R402)
  mailbox : Mailbox
  command : Option Nat         -- the mailbox command in progress (R399)
  args : Memory                -- the mailbox's argument area (R399)
deriving DecidableEq, Repr

end Sys2Proof.Machine
end

