-- ==== Sys2Proof/Machine/State.lean ====
section
/-! DEFINITION. The state of the machine, the state right after reset, and the names of its stops. -/

namespace Sys2Proof.Machine

open Sys2Proof

/-- A move of one agent: which of the device's own steps, of the groups or of the outside world comes next. -/
inductive Move where
  | event (i : Instr)                              -- a row of the opcode table without a word
  | issue (blk grp : Nat)                          -- a group that holds a slot issues its next instruction
  | tick (n : Nat)                                 -- cycles pass
  | hostStore (addr : Nat) (b : Byte)              -- the host writes its own memory
  | peerStore (link addr : Nat) (b : Byte)         -- a peer writes its own memory
  | peerRefuse (link base len : Nat)               -- a peer's firmware stops exporting a range (R386)
  | linkEcc                                        -- the next host or peer response has an uncorrectable ECC error (R387)
  | eccSector (pa : Nat)                           -- an uncorrectable ECC error in a DRAM read or an L2 line (R381)
  | mailboxArg (off : Nat) (b : Byte)              -- the host writes the mailbox's argument area (R399)
  | mailboxCommand (code : Nat)                    -- the host writes the mailbox's command word (R399)
  | fwStore (pa : Nat) (b : Byte)                  -- firmware writes real HBM (R354)
  | fwExport (link base len : Nat)                 -- firmware exports a range to a peer link (R398)
  | fwTimeout (ms : Nat)                           -- firmware sets the completion timeout, 1 to 50 ms (R387)
  | fwFqst (part : Nat) (v : Word)                 -- firmware writes FQST: W1C (R406)
  | fwWdec (w : Nat) (v : Word)                    -- firmware writes WDEC and WENC: W1C (R384)
  | fwWenc (w : Nat) (v : Word)
deriving DecidableEq, Repr

/-- What the instructions and events other than the controller's reach, and the controller. -/
structure State where
  plat : Platform
  dev : Dev
  agenda : List Move     -- moves to take, in order; with none left a fixed fair rule picks (log 2)
  fair : Bool            -- whose turn the fair rule gives: groups, or the device's own steps
deriving DecidableEq, Repr

/-- Why a step stops. -/
inductive Fault where
  /-- An instruction word is executed with no group issuing. `step` never does so. Safe: the machine has no such
  moment (R90). -/
  | noIssuer
deriving DecidableEq, Repr

/-- Why an instruction has no meaning here. -/
inductive Refusal where
  /-- Raised by `exec`'s arms for instructions not modelled yet. Safe. -/
  | notModelled (mnemonic : String)
deriving DecidableEq, Repr

/-- The device after clearing (R403): no partition, every store zero, every queue disabled, links down (R404). -/
def Dev.cleared : Dev :=
  { cycle := 0, nextId := 1, fresh := 0, cur := none, parts := [], queues := [], launches := [], blocks := [],
    cores := [], loads := [], stores := [], atoms := [], cmds := [], engines := [], tiles := [], govs := [],
    folds := [], hbm := [], hbmP := [], l2 := [], predict := [], scheme := [], windows := [], tlb := [],
    walks := [], parks := [], hostTrained := false, hostUp := false, peerUp := [], timeouts := 0,
    linkEcc := 0, hostLimit := 11000000, lost := [], exports := [], peerOut := [], heldMem := [], replies := [],
    hostMem := [], peerMem := [] }

/-- The factory's firmware image (DESIGN CHOICE, log 3: the spec names no image). -/
def factoryImage : Image := ⟨[], 1, true⟩

/-- The controller right after a reset whose image verified: clearing is under way (Table 21-7 steps 2 to 4). -/
def Platform.booted (img : Image) (rollback : Nat) (life : LifeCycle) : Platform :=
  { phase := .clearing, flash := img, rollback := rollback, life := life, idLife := life,
    log := [Config.shake256 [], Config.shake256 img.bytes], mailbox := .idle, command := none, args := [] }

/-- The machine right after reset. -/
def State.reset : State :=
  { plat := Platform.booted factoryImage 0 .deployed, dev := Dev.cleared, agenda := [], fair := false }

/-- Replacing the device's work. -/
def State.withDev (s : State) (d : Dev) : State := { s with dev := d }

/-- Replacing the controller. -/
def State.withPlat (s : State) (p : Platform) : State := { s with plat := p }

end Sys2Proof.Machine
end

