-- ==== Sys2Proof/Machine/Parts.lean ====
section
/-! DEFINITION. Finding and replacing parts of the device, the numbers of cores, clusters and dies (Table 1-1), and the bytes of a
memory. -/

namespace Sys2Proof.Machine

open Sys2Proof

/-! ### Finding and replacing -/

def Dev.modBlock (d : Dev) (b : Nat) (f : Block → Block) : Dev :=
  match d.blocks[b]? with
  | some k => { d with blocks := setNth d.blocks b (f k) }
  | none => d

def Dev.group (d : Dev) (b g : Nat) : Option Group := (d.blocks[b]?).bind (fun k => k.groups[g]?)

def Dev.modGroup (d : Dev) (b g : Nat) (f : Group → Group) : Dev :=
  d.modBlock b (fun k => match k.groups[g]? with
    | some x => { k with groups := setNth k.groups g (f x) }
    | none => k)

def Dev.putGroup (d : Dev) (b g : Nat) (x : Group) : Dev := d.modGroup b g (fun _ => x)

def Dev.part (d : Dev) (p : Nat) : Part := FMap.get Part.init d.parts p
def Dev.putPart (d : Dev) (p : Nat) (x : Part) : Dev := { d with parts := FMap.set Part.init d.parts p x }
def Dev.modPart (d : Dev) (p : Nat) (f : Part → Part) : Dev := d.putPart p (f (d.part p))
def Dev.core (d : Dev) (c : Nat) : CoreSt := FMap.get CoreSt.init d.cores c
def Dev.putCore (d : Dev) (c : Nat) (x : CoreSt) : Dev := { d with cores := FMap.set CoreSt.init d.cores c x }
def Dev.engine (d : Dev) (c : Nat) : Engine := FMap.get Engine.init d.engines c
def Dev.putEngine (d : Dev) (c : Nat) (x : Engine) : Dev := { d with engines := FMap.set Engine.init d.engines c x }
def Dev.gov (d : Dev) (c : Nat) : Governor := FMap.get Governor.init d.govs c
def Dev.putGov (d : Dev) (c : Nat) (x : Governor) : Dev := { d with govs := FMap.set Governor.init d.govs c x }
def Dev.queue (d : Dev) (q : Nat) : Queue := FMap.get Queue.init d.queues q
def Dev.putQueue (d : Dev) (q : Nat) (x : Queue) : Dev := { d with queues := FMap.set Queue.init d.queues q x }
def Dev.modLaunch (d : Dev) (l : Nat) (f : Launch → Launch) : Dev :=
  match d.launches[l]? with
  | some x => { d with launches := setNth d.launches l (f x) }
  | none => d
def Dev.modTile (d : Dev) (t : Nat) (f : Tile → Tile) : Dev :=
  match d.tiles[t]? with
  | some x => { d with tiles := setNth d.tiles t (f x) }
  | none => d

/-- A new operation number. -/
def Dev.newId (d : Dev) : Nat × Dev := (d.nextId, { d with nextId := d.nextId + 1 })

/-! ### Numbers of cores, clusters and dies (Table 1-1) -/

def clusterOf (core : Nat) : Nat := core / 4
def dieOf (clu : Nat) : Nat := clu / 32

/-- Position in the block's cores of a group (R39). -/
def Block.pos (k : Block) (g : Nat) : Nat := g % (max k.cores.length 1)
def Block.coreOf (k : Block) (g : Nat) : Nat := nth k.cores (k.pos g) 0
/-- The block's clusters, ascending. -/
def Block.clusters (k : Block) : List Nat :=
  k.cores.foldl (fun acc c => if acc.contains (clusterOf c) then acc else acc ++ [clusterOf c]) []
/-- The cluster of the lowest-numbered core: the home of the block's tiles (R39). -/
def Block.home (k : Block) : Nat := clusterOf (k.cores.headD 0)
/-- Which of the block's cluster-shared spaces a group reaches (R202). -/
def Block.cluIdx (k : Block) (g : Nat) : Nat := (k.clusters.findIdx? (· == clusterOf (k.coreOf g))).getD 0
/-- Groups of a block that have not wholly exited. -/
def Block.liveGroups (k : Block) : List Nat :=
  (List.range k.groups.length).filter (fun g => match k.groups[g]? with
    | some x => !x.exited
    | none => false)
/-- The block holds cores, so its groups can issue. -/
def Block.running (k : Block) : Bool := decide (k.life = .running)
/-- R45, R52: the replay restrictions bind the block; and whether it can be replayed. -/
def Block.restricted (k : Block) : Bool := k.lrec.repl
def Block.replayable (k : Block) : Bool := k.lrec.repl && !k.noReplay

/-- What a successor reads through engines follows its predecessor's commit release (R51). -/
def Dev.predDone (d : Dev) (b : Nat) : Bool :=
  match d.blocks[b]? with
  | none => true
  | some k => match k.pred with
    | none => true
    | some p => match d.blocks[p]? with
      | none => true
      | some q => decide (q.life = .done ∨ q.life = .ended)

/-! ### Bytes of a memory -/

/-- A little-endian value of `n` bytes (R5). -/
def Memory.readLE (m : Memory) (a : Nat) : Nat → Nat
  | 0 => 0
  | n + 1 => (Memory.read m a).toNat + 256 * Memory.readLE m (a + 1) n

def Memory.writeLE (m : Memory) (a : Nat) (x : Nat) : Nat → Memory
  | 0 => m
  | n + 1 => Memory.writeLE (Memory.write m a (BitVec.ofNat 8 x)) (a + 1) (x / 256) n

/-- Bytes of a value, lowest first. -/
def bytesLE (x : Nat) : Nat → List Byte
  | 0 => []
  | n + 1 => BitVec.ofNat 8 x :: bytesLE (x / 256) n

/-- A value of bytes, lowest first. -/
def ofBytesLE : List Byte → Nat
  | [] => 0
  | b :: bs => b.toNat + 256 * ofBytesLE bs

def Memory.writeBytes (m : Memory) : List (Nat × Byte) → Memory
  | [] => m
  | (a, b) :: rest => Memory.writeBytes (Memory.write m a b) rest

/-- The bytes of words that follow one another. -/
def wordBytes (a : Nat) (w : Word) : List (Nat × Byte) :=
  (bytesLE w.toNat 4).zipIdx.map (fun (b, i) => (a + i, b))

/-- Removing the entries of a map whose keys lie in a range. -/
def FMap.clearRange {α : Type} (m : FMap α) (lo n : Nat) : FMap α :=
  m.filter (fun x => decide (x.1 < lo ∨ lo + n ≤ x.1))

end Sys2Proof.Machine
end

