-- ==== Sys2Proof/Machine/Slices.lean ====
section
/-! DEFINITION. The physical side of the memory: interleave and homes (R378-R380), L2 lines and the footprint predictor
(R381-R383), format windows with the interchange formats (R134-R136, R384, R385), host and peer tiers (R386, R387). -/

namespace Sys2Proof.Machine

open Sys2Proof

/-! ### Physical addresses (R372) -/

/-- A physical location. -/
inductive Phys where
  | real (pa : Nat)
  | window (pa : Nat)
  | host (hpa : Nat)
  | peer (link pa : Nat)
deriving DecidableEq, Repr

def Phys.add : Phys → Nat → Phys
  | .real a, n => .real (a + n)
  | .window a, n => .window (a + n)
  | .host a, n => .host (a + n)
  | .peer l a, n => .peer l (a + n)

def Phys.addr : Phys → Nat
  | .real a => a
  | .window a => a
  | .host a => a
  | .peer _ a => a

def hbmSize : Nat := 2 ^ 39
def windowBase : Nat := 2 ^ 40
def windowSize : Nat := 2 ^ 35

/-- The window a window-space address lies in, and its offset there. -/
def windowOf (pa : Nat) : Nat × Nat := ((pa - windowBase) / windowSize, (pa - windowBase) % windowSize)

/-! ### Interleave (R378-R380) -/

/-- Granule and channels of a scheme (Table 20-4). -/
def ilGran (il : Nat) : Nat := if il = 0 then 256 else if il < 6 then 2048 else if il = 6 then 8192 else 65536
def ilChan (il : Nat) : Nat :=
  if il < 2 then 512 else if il = 2 then 256 else if il = 3 then 64 else if il = 4 then 16 else if il < 7 then 4 else 1

/-- The xor of the m-bit chunks of x, 0 when m = 0 (R379). -/
def foldXor (m : Nat) : Nat → Nat → Nat
  | 0, _ => 0
  | fuel + 1, x => if m = 0 then 0 else (x % 2 ^ m) ^^^ foldXor m fuel (x / 2 ^ m)

/-- Channel and channel address of an address in its group (R379). -/
def mapChannel (il group o : Nat) : Nat × Nat :=
  let g := ilGran il
  let n := ilChan il
  let w := o / (n * 65536)
  let u := (o % (n * 65536)) / g
  let b := (o % (n * 65536)) % g
  let x := group * 2 ^ (16 - Nat.log2 g) + u / n
  (n * w + ((u % n) ^^^ foldXor (Nat.log2 n) 32 x), group * 65536 + (u / n) * g + b)

/-- The group's scheme: 1 after clearing (R378). -/
def Dev.schemeOf (d : Dev) (group : Nat) : Nat := FMap.get 1 d.scheme group

def Dev.channelOf (d : Dev) (pa : Nat) : Nat × Nat :=
  mapChannel (d.schemeOf (pa / 2 ^ 25)) (pa / 2 ^ 25) (pa % 2 ^ 25)

/-- What a channel address selects (R380). -/
structure DramPlace where
  column : Nat
  bankGroup : Nat
  bank : Nat
  row : Nat
  slice : Nat
deriving DecidableEq, Repr

/-- The DRAM location and the slice of a channel's address (R380). -/
def dramOf (c ca : Nat) : DramPlace :=
  { column := ca % 2 ^ 11, bankGroup := (ca / 2 ^ 11 % 4) ^^^ (ca / 2 ^ 15 % 4), bank := (ca / 2 ^ 13 % 4) ^^^ (ca / 2 ^ 17 % 4),
    row := ca / 2 ^ 15 % 2 ^ 15, slice := 2 * c + ca / 2 ^ 11 % 2 }

/-- The DRAM location of a real address. -/
def Dev.dramPlace (d : Dev) (pa : Nat) : DramPlace := dramOf (d.channelOf pa).1 (d.channelOf pa).2

/-- The slice of a channel address. -/
def sliceOf (c ca : Nat) : Nat := (dramOf c ca).slice

/-- The slice, the set, the tag and the line number of an address's home; peers have none here (R381, R384, R386). -/
def Dev.homeOf (d : Dev) : Phys → Option (Nat × Nat × Tag × Nat)
  | .real pa =>
    let (c, ca) := d.channelOf pa
    some (sliceOf c ca, foldXor 4 32 (ca / 4096), .tier0 (pa / 2048), ca / 4096)
  | .window pa =>
    let (w, v) := windowOf pa
    let (c, ca) := mapChannel 1 (1024 * w + v / 2 ^ 25) (v % 2 ^ 25)
    some (sliceOf c ca, foldXor 4 32 (ca / 4096), .tier0 (pa / 2048), ca / 4096)
  | .host hpa => some (foldXor 10 64 (hpa / 2048), foldXor 4 64 (hpa / 2 ^ 21), .host (hpa / 2048), hpa / 2 ^ 21)
  | .peer _ _ => none

/-! ### Real HBM -/

/-- A word of real HBM and its poison. -/
def Dev.hbmWord (d : Dev) (pa : Nat) : Word × Nat :=
  (BitVec.ofNat 32 (Memory.readLE d.hbm pa 4), FMap.get 0 d.hbmP (pa / 4))

/-- Writing bytes of real HBM: a write clears the poison of its words. -/
def Dev.hbmWrite (d : Dev) (pa : Nat) (bs : List Byte) : Dev :=
  { d with
    hbm := Memory.writeBytes d.hbm (bs.zipIdx.map (fun (b, i) => (pa + i, b))),
    hbmP := (List.range bs.length).foldl (fun m i => FMap.set 0 m ((pa + i) / 4) 0) d.hbmP }

/-! ### Format windows -/

def winValid (w : Window) : Bool := w.wctl.getLsbD 31
def winFmt (w : Window) : Nat := (w.wctl.extractLsb' 24 2).toNat
def winQs16 (w : Window) : Bool := w.wctl.getLsbD 16
def Dev.window (d : Dev) (w : Nat) : Window := FMap.get Window.init d.windows w

/-- Bytes of a view's element block, and of its backing block. -/
def winE (w : Window) : Nat := if winQs16 w then 64 else 32
def winB (w : Window) : Nat := if winFmt w = 2 then 16 else 32
/-- Where the view's scales start (R384). -/
def winSoff (w : Window) : Nat := (w.wnblk.toNat * winE w + 2047) / 2048 * 2048
def winBackScale (w : Window) (j : Nat) : Nat := w.wbase.toNat + w.wnblk.toNat * winB w + j

/-- An FP8 or FP4 element as an exact value (Table 5-8). -/
def interchangeVal (fmt x : Nat) : FVal :=
  let eb := if fmt = 0 then 4 else if fmt = 1 then 5 else 2
  let mb := if fmt = 0 then 3 else if fmt = 1 then 2 else 1
  let bias : Int := if fmt = 0 then 7 else if fmt = 1 then 15 else 1
  let neg := x.testBit (eb + mb)
  let e := x / 2 ^ mb % 2 ^ eb
  let m := x % 2 ^ mb
  if fmt = 0 ∧ e = 15 ∧ m = 7 then .nan false
  else if fmt = 1 ∧ e = 31 then (if m = 0 then .inf neg else .nan false)
  else if e = 0 then (if m = 0 then .zero neg else .fin neg m (1 - bias - (mb : Int)))
  else .fin neg (m + 2 ^ mb) ((e : Int) - bias - (mb : Int))

/-- The elements of a backing block. -/
def Dev.winElems (d : Dev) (w : Window) (j : Nat) : List Nat :=
  (List.range 32).map (fun i =>
    if winFmt w = 2 then
      let b := (Memory.read d.hbm (w.wbase.toNat + 16 * j + i / 2)).toNat
      if i % 2 = 0 then b % 16 else b / 16
    else (Memory.read d.hbm (w.wbase.toNat + 32 * j + i)).toNat)

/-- Multiplying an exact value by a power of two. -/
def FVal.scale2 : FVal → Int → FVal
  | .fin n m e, k => .fin n m (e + k)
  | v, _ => v

/-- Decoding one interchange block (R135), and whether its scale fits the view's byte (log 15). -/
def decodeBlock (fmt : Nat) (qs16 : Bool) (s : Nat) (v : List Nat) : QBlock × Bool :=
  let vals := v.map (interchangeVal fmt)
  let bad := vals.any (fun x => match x with
    | .nan _ => true
    | .inf _ => true
    | _ => false)
  if s = 255 ∨ bad then (⟨255, v.map (fun _ => 0), 0, 0, false⟩, true)
  else if fmt = 2 ∧ 1 ≤ s then
    (⟨s - 1, vals.map (fun x => FVal.toInt .rz (x.scale2 1)), 0, 0, false⟩, true)
  else
    let b := quantise (if qs16 then 14 else 6) (if qs16 then 32767 else 127) .rne
      (vals.map (fun x => x.scale2 ((s : Int) - 127)))
    (b, decide (b.e ≤ 254))

/-- A decoded block's element bytes, its scale and how many elements changed; a scale that fits no byte is a free one (log 15). -/
def Dev.winDecode (d : Dev) (w : Window) (j : Nat) : List Byte × Byte × Nat :=
  let (b, fits) := decodeBlock (winFmt w) (winQs16 w) (Memory.read d.hbm (winBackScale w j)).toNat (d.winElems w j)
  ((b.q.map (fun q => bytesLE (BitVec.ofInt 32 q).toNat (if winQs16 w then 2 else 1))).flatten,
   if fits then BitVec.ofNat 8 b.e else (Config.freeWord (w.wbase.toNat + 128 * j + 127)).setWidth 8,
   b.changed)

/-- Origin + 1 of the poison of a backing block, elements and scale. -/
def Dev.winPoison (d : Dev) (w : Window) (j : Nat) : Nat :=
  let words := (List.range (winB w / 4)).map (fun i => FMap.get 0 d.hbmP ((w.wbase.toNat + winB w * j) / 4 + i))
  (words ++ [FMap.get 0 d.hbmP (winBackScale w j / 4)]).foldl (fun a x => if a = 0 then x else a) 0

/-- The block that a view byte belongs to, and whether the byte is its scale; none for the gap. -/
def winBlock (w : Window) (v : Nat) : Option (Nat × Bool) :=
  if v < w.wnblk.toNat * winE w then some (v / winE w, false)
  else if winSoff w ≤ v ∧ v < winSoff w + w.wnblk.toNat then some (v - winSoff w, true)
  else none

/-- A view byte decoded from the backing store, with its poison. -/
def Dev.winBacking (d : Dev) (w : Window) (v : Nat) : Byte × Nat :=
  match winBlock w v with
  | none => (0, 0)
  | some (j, isScale) =>
    let (es, sc, _) := d.winDecode w j
    (if isScale then sc else nth es (v % winE w) 0, d.winPoison w j)

/-- Rounding x to an element format, saturating (R136): the element's code and whether it saturated. -/
def encodeElem (fmt : Nat) (neg : Bool) (m : Nat) (e : Int) : Nat × Bool :=
  let eb := if fmt = 0 then 4 else if fmt = 1 then 5 else 2
  let mb : Nat := if fmt = 0 then 3 else if fmt = 1 then 2 else 1
  let bias : Int := if fmt = 0 then 7 else if fmt = 1 then 15 else 1
  let maxE : Int := if fmt = 0 then 8 else if fmt = 1 then 15 else 2
  let maxM : Nat := if fmt = 0 then 14 else if fmt = 1 then 7 else 3    -- significand of the largest finite value
  let top := e + (bitLen m : Int) - 1
  let q := max top (1 - bias) - (mb : Int)
  let r := (roundAt .rne neg m e q).1
  -- r·2^q; compare with maxM·2^(maxE − mb)
  let extra := decide (r ≠ 0) && decide ((maxM : Int) * 2 ^ (max (maxE - mb - q) 0).toNat < (r : Int) * 2 ^ (max (q - (maxE - mb)) 0).toNat)
  let sgn := if neg then 2 ^ (eb + mb) else 0
  if extra then
    (sgn + (if fmt = 0 then 0x7E else if fmt = 1 then 0x7B else 0x7), true)
  else
    -- field value: (r − implicit) with carry into the exponent
    let expo : Int := q + (mb : Int) + bias          -- biased exponent for r in [2^mb, 2^(mb+1))
    let code : Int := if r < 2 ^ mb then (r : Int) else (expo - 1) * 2 ^ mb + (r : Int)
    (sgn + code.toNat, false)

/-- Encoding one QS block (R136): elements, scale, saturated elements. -/
def encodeBlock (fmt e : Nat) (q : List Int) : List Nat × Nat × Nat :=
  if e = 255 then (q.map (fun _ => if fmt = 2 then 0 else 0x7F), 255, 0)
  else
    let m := q.foldl (fun a x => max a x.natAbs) 0
    if m = 0 then (q.map (fun _ => 0), 127, 0)
    else
      let emax : Int := if fmt = 0 then 8 else if fmt = 1 then 15 else 2
      let lg : Int := (bitLen m : Int) - 1 + ((e : Int) - 127)
      let s : Int := max 0 (min 254 (lg - emax + 127))
      let enc := q.map (fun x => if x = 0 then (0, false) else
        encodeElem fmt (decide (x < 0)) x.natAbs ((e : Int) - 127 - (s - 127)))
      (enc.map (·.1), s.toNat, (enc.filter (·.2)).length)

/-! ### L2 lines -/

/-- Sectors of a line that an access of `n` bytes at an address touches, and those it covers whole. -/
def sectorMask (a n : Nat) : BitVec 32 :=
  (List.range 32).foldl (fun m i => if 64 * i < a % 2048 + n ∧ a % 2048 < 64 * i + 64 then m ||| (1#32 <<< i) else m) 0
def fullSectors (a n : Nat) : BitVec 32 :=
  (List.range 32).foldl (fun m i => if a % 2048 ≤ 64 * i ∧ 64 * i + 64 ≤ a % 2048 + n then m ||| (1#32 <<< i) else m) 0

def L2Line.is (l : L2Line) (slice : Nat) (tag : Tag) : Bool := decide (l.slice = slice ∧ l.tag = tag)

def Dev.line (d : Dev) (slice : Nat) (tag : Tag) : Option L2Line := d.l2.find? (·.is slice tag)

/-- A byte of a window's view: from a line whose sector is valid, else decoded (R385). -/
def Dev.viewByte (d : Dev) (w v : Nat) : Byte × Nat :=
  let pa := windowBase + w * windowSize + v
  match d.homeOf (.window pa) with
  | none => (0, 0)
  | some (slice, _, tag, _) =>
    match d.line slice tag with
    | some l => if l.valid.getLsbD (pa % 2048 / 64) then (Memory.read l.data (pa % 2048), FMap.get 0 l.pois (pa % 2048 / 4))
                else d.winBacking (d.window w) v
    | none => d.winBacking (d.window w) v

/-- A block of a window on its way to its backing store (R385): the addresses and bytes of its elements and of its scale, and how many
elements saturated. -/
structure BackBlock where
  window : Nat
  elemAt : Nat
  elems : List Byte
  scaleAt : Nat
  scale : Byte
  sat : Nat

/-- One block of a window encoded (R136, R385): the other part comes from the slice that holds it, else from the
    backing store, a decode that no DECC counts (log 16). -/
def Dev.winEncode (d : Dev) (w j : Nat) : BackBlock :=
  let x := d.window w
  let es := (List.range 32).map (fun i =>
    if winQs16 x then
      ((BitVec.ofNat 16 ((d.viewByte w (64 * j + 2 * i)).1.toNat + 256 * (d.viewByte w (64 * j + 2 * i + 1)).1.toNat)).toInt)
    else ((d.viewByte w (32 * j + i)).1.toInt))
  let (codes, s, sat) := encodeBlock (winFmt x) (d.viewByte w (winSoff x + j)).1.toNat es
  { window := w, elemAt := x.wbase.toNat + winB x * j, scaleAt := winBackScale x j, scale := BitVec.ofNat 8 s, sat := sat,
    elems := if winFmt x = 2 then
        (List.range 16).map (fun i => BitVec.ofNat 8 (nth codes (2 * i) 0 + 16 * nth codes (2 * i + 1) 0))
      else codes.map (BitVec.ofNat 8) }

/-- The window blocks that some bytes of a view touch, each once. -/
def winBlocks (x : Window) (offs : List Nat) : List Nat :=
  (offs.foldl (fun acc v => match winBlock x v with
    | some (j, _) => if acc.contains j then acc else j :: acc
    | none => acc) ([] : List Nat)).reverse

/-- The blocks that the dirty sectors of a window's line touch, encoded. -/
def Dev.backBlocks (d : Dev) (line : Nat) (dirty : BitVec 32) : List BackBlock :=
  let (w, v0) := windowOf (2048 * line)
  (winBlocks (d.window w) (((List.range 2048).filter (fun i => dirty.getLsbD (i / 64))).map (v0 + ·))).map (d.winEncode w ·)

/-- The predictor's index for a line number and a requester (R382). -/
def predIndex (slice num kind : Nat) : Nat := 4096 * slice + (num ^^^ (256 * kind)) % 4096

/-- A line is gone from its slice, and its footprint is noted (R382). -/
def Dev.dropLine (d : Dev) (l : L2Line) : Dev :=
  let num := match l.tag with
    | .tier0 line => (match d.homeOf (if 2048 * line < windowBase then .real (2048 * line) else .window (2048 * line)) with
      | some (_, _, _, n) => n
      | none => 0)
    | .host line => line / 1024
  { d with
    l2 := d.l2.filter (fun x => !(x.is l.slice l.tag)),
    predict := FMap.set 0#32 d.predict (predIndex l.slice num l.filler) l.accessed }

/-- Room for a line in its set: the least recently used unpinned line leaves a full set (R381). -/
def Dev.makeRoom (leave : Dev → L2Line → Dev) (d : Dev) (slice set : Nat) : Dev :=
  let here := d.l2.filter (fun l => decide (l.slice = slice ∧ l.set = set))
  if here.length < 8 then d
  else
    match (here.filter (fun l => l.pins.isEmpty)).foldl (fun (acc : Option L2Line) l => match acc with
      | none => some l
      | some a => if l.used < a.used then some l else acc) none with
    | some l => leave d l
    | none => d

/-- Changing a line in place. -/
def Dev.modLine (d : Dev) (slice : Nat) (tag : Tag) (f : L2Line → L2Line) : Dev :=
  { d with l2 := d.l2.map (fun l => if l.is slice tag then f l else l) }

/-- The line of an address is present. -/
def Dev.allotBy (leave : Dev → L2Line → Dev) (d : Dev) (p : Phys) (kind part : Nat) : Dev :=
  match d.homeOf p with
  | none => d
  | some (slice, set, tag, _) =>
    match d.line slice tag with
    | some _ => d
    | none =>
      let d := d.makeRoom leave slice set
      { d with l2 := { slice := slice, set := set, tag := tag, valid := 0, dirty := 0, accessed := 0, filler := kind,
                       part := part, used := d.nextId, data := [], pois := [], excl := false, pins := [] } :: d.l2 }

/-- The sectors that a miss fetches: those asked for, with those predicted where the line is not present (R382). -/
def Dev.fetchMask (d : Dev) (p : Phys) (want : BitVec 32) (kind : Nat) : BitVec 32 :=
  match d.homeOf p with
  | none => 0
  | some (slice, _, tag, num) =>
    if (d.line slice tag).isSome then want else want ||| FMap.get 0#32 d.predict (predIndex slice num kind)

/-- An access marks its sectors accessed and the line used. -/
def Dev.useLine (d : Dev) (p : Phys) (secs : BitVec 32) : Dev :=
  match d.homeOf p with
  | none => d
  | some (slice, _, tag, _) =>
    let (n, d) := d.newId
    d.modLine slice tag (fun l => { l with accessed := l.accessed ||| secs, used := n })

/-- An access to real HBM at its home slice, inside one line (R18, R383): its sectors are valid there, and dirty where it writes. -/
def Dev.touchBy (leave : Dev → L2Line → Dev) (d : Dev) (pa n kind part : Nat) (write : Bool) : Dev :=
  let secs := sectorMask pa n
  let mask := d.fetchMask (.real pa) secs kind
  let d := d.allotBy leave (.real pa) kind part
  match d.homeOf (.real pa) with
  | none => d
  | some (slice, _, tag, _) =>
    (d.modLine slice tag (fun l => { l with valid := l.valid ||| mask, dirty := if write then l.dirty ||| secs else l.dirty })).useLine
      (.real pa) secs

/-- A window block is written to its backing store, elements and scale together, through their slices (R18, R385). -/
def Dev.writeBlock (leave : Dev → L2Line → Dev) (part : Nat) (d : Dev) (b : BackBlock) : Dev :=
  let d := d.touchBy leave b.elemAt b.elems.length 0 part true
  let d := d.touchBy leave b.scaleAt 1 0 part true
  let d := (d.hbmWrite b.elemAt b.elems).hbmWrite b.scaleAt [b.scale]
  let x := d.window b.window
  { d with windows := FMap.set Window.init d.windows b.window { x with encc := min 0xFFFFFFFF (x.encc + b.sat) } }

/-- A line leaves its slice; dirty sectors go back (R381, R385, R387). Real HBM's bytes are in `hbm` already. -/
def Dev.leaveBy (leave : Dev → L2Line → Dev) (d : Dev) (l : L2Line) : Dev :=
  match l.tag with
  | .tier0 line =>
    if 2048 * line < windowBase then d.dropLine l
    else (d.backBlocks line l.dirty).foldl (Dev.writeBlock leave l.part) (d.dropLine l)
  | .host line =>
    let d := d.dropLine l
    if l.dirty = 0#32 then d
    else if d.hostUp then
      { d with
        hostMem := Memory.writeBytes d.hostMem
          (((List.range 2048).filter (fun i => l.dirty.getLsbD (i / 64))).map (fun i => (2048 * line + i, Memory.read l.data i))) }
    else d.modPart l.part (fun p => { p with linkLoss := p.linkLoss + 1 })

/-- Eviction: the backing lines that a write-back reaches may push further lines out, `n` deep; each of them is one line fewer that holds
a window. -/
def Dev.evictN : Nat → Dev → L2Line → Dev
  | 0 => Dev.leaveBy (fun d _ => d)
  | n + 1 => Dev.leaveBy (Dev.evictN n)

def Dev.evict (d : Dev) (l : L2Line) : Dev := Dev.evictN d.l2.length d l

def Dev.allot (d : Dev) (p : Phys) (kind part : Nat) : Dev := d.allotBy Dev.evict p kind part

/-- An access to real HBM that is no engine's own (R18): page tables, trap tables, fault rings, backing stores. -/
def Dev.touch (d : Dev) (pa n kind part : Nat) (write : Bool) : Dev := d.touchBy Dev.evict pa n kind part write

/-- Filling window sectors reads the backing blocks, through their slices (R18, R385). -/
def Dev.touchBacking (d : Dev) (p : Phys) (mask : BitVec 32) (kind part : Nat) : Dev :=
  match p with
  | .window pa =>
    let (w, v0) := windowOf (2048 * (pa / 2048))
    let x := d.window w
    (winBlocks x (((List.range 2048).filter (fun i => mask.getLsbD (i / 64))).map (v0 + ·))).foldl (fun d j =>
      (d.touch (x.wbase.toNat + winB x * j) (winB x) kind part false).touch (winBackScale x j) 1 kind part false) d
  | _ => d

/-- Filling one sector of a line that is not valid (R381, R385): window sectors are decoded and counted, host sectors
come over the link. -/
def Dev.fillSector (d : Dev) (p : Phys) (i : Nat) : Dev :=
  match d.homeOf p with
  | none => d
  | some (slice, _, tag, _) =>
    match d.line slice tag with
    | none => d
    | some l =>
      if l.valid.getLsbD i then d
      else
        let base := 2048 * (p.addr / 2048) + 64 * i
        let valid (l : L2Line) : L2Line := { l with valid := l.valid ||| (1#32 <<< i) }
        match p with
        | .real _ => d.modLine slice tag valid
        | .window _ =>
          let (w, v0) := windowOf base
          let x := d.window w
          let bytes := (List.range 64).map (fun j => d.winBacking x (v0 + j))
          let n := ((winBlocks x ((List.range 64).map (v0 + ·))).map (fun b => (d.winDecode x b).2.2)).sum
          let d := { d with windows := FMap.set Window.init d.windows w { x with decc := min 0xFFFFFFFF (x.decc + n) } }
          d.modLine slice tag (fun l => valid { l with
            data := bytes.zipIdx.foldl (fun m bj => Memory.write m (64 * i + bj.2) bj.1.1) l.data,
            pois := bytes.zipIdx.foldl (fun m bj => if bj.1.2 ≠ 0 then FMap.set 0 m ((64 * i + bj.2) / 4) bj.1.2 else m)
              (FMap.clearRange l.pois (16 * i) 16) })
        | .host _ =>
          d.modLine slice tag (fun l => valid { l with
            data := (List.range 64).foldl (fun m j => Memory.write m (64 * i + j) (Memory.read d.hostMem (base + j))) l.data,
            pois := FMap.clearRange l.pois (16 * i) 16 })
        | .peer _ _ => d

/-- A miss fetches the sectors asked for together with those predicted (R382). -/
def Dev.fillFor (d : Dev) (p : Phys) (want : BitVec 32) (kind part : Nat) : Dev :=
  match d.homeOf p with
  | none => d
  | some (slice, _, tag, _) =>
    let mask := d.fetchMask p want kind
    let have' := ((d.line slice tag).map (·.valid)).getD 0
    let d := (d.touchBacking p (mask &&& ~~~have') kind part).allot p kind part
    (List.range 32).foldl (fun d i => if mask.getLsbD i then d.fillSector p i else d) d

/-! ### Pins (R253, R381) -/

/-- Lines of a slice, or of one of its sets, that are pinned. -/
def Dev.pinned (d : Dev) (slice : Nat) (set : Option Nat) : List L2Line :=
  d.l2.filter (fun l => decide (l.slice = slice) && !l.pins.isEmpty && set.all (fun n => decide (l.set = n)))

/-- A pass's pins are released. -/
def Dev.unpin (d : Dev) (pass : Nat) : Dev :=
  { d with l2 := d.l2.map (fun (l : L2Line) => if l.pins.contains pass then { l with pins := l.pins.filter (· ≠ pass) } else l) }

/-- A fetched line is pinned for its pass: at most 6 lines of a set and 32 of a slice are. Beyond that the pass lets go of a line of its own
there, whose elements the array has taken; with none of its own there the fetch waits (R253, R381, log 22). -/
def Dev.pin (d : Dev) (p : Phys) (pass : Nat) : Option Dev :=
  match d.homeOf p with
  | none => some d
  | some (slice, set, tag, _) =>
    match d.line slice tag with
    | none => some d
    | some l =>
      let add (d : Dev) : Dev := d.modLine slice tag (fun l => { l with pins := pass :: l.pins })
      let own (ls : List L2Line) : Option Dev := (ls.find? (fun x => decide (x.pins = [pass]))).map (fun x =>
        add (d.modLine x.slice x.tag (fun x => { x with pins := [] })))
      if l.pins.contains pass then some d
      else if !l.pins.isEmpty then some (add d)
      else if 6 ≤ (d.pinned slice (some set)).length then own (d.pinned slice (some set))
      else if 32 ≤ (d.pinned slice none).length then own (d.pinned slice none)
      else some (add d)

/-- The poisoned answer of a request that cannot be served, word by word. -/
def poisoned (d : Dev) (a origin : Nat) : Word × Nat := (Config.poisonBits d.cycle a, origin + 1)

/-- The poison of a peer link's failure: origin 2, with the link it names (R357). -/
def peerPoison (link : Nat) : Nat := 2 + 4 * link

/-- An address lies in a range of a list of links, bases and lengths. -/
def inRanges (l : List (Nat × Nat × Nat)) (link pa : Nat) : Bool :=
  l.any (fun x => decide (x.1 = link ∧ x.2.1 ≤ pa ∧ pa < x.2.1 + x.2.2))

/-- A request to a host or peer tier, or to a window offset past its end, that completes with poison (R385-R387). -/
def Dev.unserved (d : Dev) (p : Phys) : Option Nat :=
  match p with
  | .real _ => none
  | .window pa =>
    let (w, v) := windowOf pa
    let x := d.window w
    if winSoff x + x.wnblk.toNat ≤ v then some 0 else none
  | .host _ => if d.hostUp then (if d.timeouts = 0 then none else some 1) else some 1
  | .peer l pa =>
    if FMap.get false d.peerUp l then (if hbmSize ≤ pa ∨ inRanges d.peerOut l pa then some 0 else none) else some (peerPoison l)

/-- A completion timeout strikes one host-tier request (R387). -/
def Dev.useTimeout (d : Dev) (p : Phys) : Dev :=
  match p with
  | .host _ => { d with timeouts := d.timeouts - 1 }
  | _ => d

/-- A host line is taken shared for a read, exclusive for a write or an atomic (R386). -/
def Dev.takeLine (d : Dev) (p : Phys) (excl : Bool) : Dev :=
  match p, d.homeOf p with
  | .host _, some (slice, _, tag, _) => d.modLine slice tag (fun l => { l with excl := l.excl || excl })
  | _, _ => d

/-- The word of a host or peer response, poisoned where the response carries an uncorrectable ECC error (R387). -/
def Dev.answerEcc (d : Dev) (fetched : Bool) (w : Word × Nat) : (Word × Nat) × Dev :=
  if fetched && decide (d.linkEcc ≠ 0) then ((w.1, 1), { d with linkEcc := d.linkEcc - 1 }) else (w, d)

/-- A host line's word takes the poison of its response. -/
def Dev.poisonWord (d : Dev) (p : Phys) (poison : Nat) : Dev :=
  match d.homeOf p with
  | none => d
  | some (slice, _, tag, _) => d.modLine slice tag (fun l => { l with pois := FMap.set 0 l.pois (p.addr % 2048 / 4) poison })

/-- The sector of an address is valid in its line. -/
def Dev.hasSector (d : Dev) (p : Phys) : Bool :=
  match d.homeOf p with
  | none => false
  | some (slice, _, tag, _) => ((d.line slice tag).map (fun l => l.valid.getLsbD (p.addr % 2048 / 64))).getD false

/-- Reading one word at its home (R383, R386). -/
def Dev.physRead (d : Dev) (p : Phys) (kind part : Nat) : (Word × Nat) × Dev :=
  match d.unserved p with
  | some o => (poisoned d p.addr o, d.useTimeout p)
  | none =>
    match p with
    | .peer l a =>
      d.answerEcc true (BitVec.ofNat 32 (ofBytesLE ((List.range 4).map (fun i => FMap.get 0 d.peerMem (2 ^ 52 * l + a + i)))), 0)
    | .real a =>
      let d := (d.fillFor p (sectorMask a 4) kind part).useLine p (sectorMask a 4)
      (d.hbmWord a, d)
    | p =>
      let fetched := (match p with
        | .host _ => !d.hasSector p
        | _ => false)
      let d := ((d.fillFor p (sectorMask p.addr 4) kind part).useLine p (sectorMask p.addr 4)).takeLine p false
      match d.homeOf p with
      | none => ((0, 0), d)
      | some (slice, _, tag, _) => match d.line slice tag with
        | none => ((0, 0), d)
        | some l =>
          let (x, d) := d.answerEcc fetched (BitVec.ofNat 32 (Memory.readLE l.data (p.addr % 2048) 4), FMap.get 0 l.pois (p.addr % 2048 / 4))
          (x, if fetched && decide (x.2 ≠ 0) then d.poisonWord p x.2 else d)

/-- A location that holds what is written there: a byte of a window's gap does not (R385). -/
def Dev.viewed (d : Dev) (p : Phys) : Bool :=
  match p with
  | .window pa => (winBlock (d.window (windowOf pa).1) (windowOf pa).2).isSome
  | _ => true

/-- Writing bytes inside one sector at their home; the answer is the origin of a poisoned completion. A smaller write to
an invalid sector first fills it (R381). Bytes of a window's gap are ignored (R385). -/
def Dev.physWrite (d : Dev) (p : Phys) (bs : List Byte) (kind part : Nat) : Option Nat × Dev :=
  match d.unserved p with
  | some o => (some o, d.useTimeout p)
  | none =>
    let n := bs.length
    let secs := sectorMask p.addr n
    let dirty (l : L2Line) : L2Line := { l with valid := l.valid ||| secs, dirty := l.dirty ||| secs }
    match p with
    | .peer l a =>
      (none, { d with peerMem := bs.zipIdx.foldl (fun m bi => FMap.set 0 m (2 ^ 52 * l + a + bi.2) bi.1) d.peerMem })
    | p =>
      let full := fullSectors p.addr n
      let d := if secs = full then d.allot p kind part else d.fillFor p secs kind part
      let d := (d.useLine p secs).takeLine p true
      match d.homeOf p with
      | none => (none, d)
      | some (slice, _, tag, _) =>
        match p with
        | .real a => (none, (d.hbmWrite a bs).modLine slice tag dirty)
        | _ =>
          let keep (i : Nat) : Bool := d.viewed (p.add i)
          (none, d.modLine slice tag (fun l => dirty { l with
            data := bs.zipIdx.foldl (fun m bi => if keep bi.2 then Memory.write m (p.addr % 2048 + bi.2) bi.1 else m) l.data,
            pois := bs.zipIdx.foldl (fun m bi => FMap.set 0 m ((p.addr % 2048 + bi.2) / 4) 0) l.pois }))

/-- Writing a poisoned word at its home (R220). -/
def Dev.physPoison (d : Dev) (p : Phys) (origin kind part : Nat) : Option Nat × Dev :=
  let (r, d) := d.physWrite p (bytesLE (Config.poisonBits d.cycle p.addr).toNat 4) kind part
  match r with
  | some o => (some o, d)
  | none =>
    match p with
    | .real a => (none, { d with hbmP := FMap.set 0 d.hbmP (a / 4) (origin + 1) })
    | .peer _ _ => (none, d)
    | p => match d.homeOf p with
      | none => (none, d)
      | some _ => (none, if d.viewed p then d.poisonWord p (origin + 1) else d)

end Sys2Proof.Machine
end

