-- ==== Sys2Proof/Machine/Ops.lean ====
section
/-! DEFINITION. The shared operations: registers with their full/empty and poison state (R57, R77-R81), landing of results, exposure permits (R260,
R343), ending and replaying blocks (R44-R47), taking a trap (R356-R361) and returning from one (R362). -/

namespace Sys2Proof.Machine

open Sys2Proof

/-! ### Registers -/

def Group.word (g : Group) (r : RegRef) (l : Nat) : Word :=
  match r with
  | .v n => FMap.get 0 g.v (32 * n + l)
  | .u n => FMap.get 0 g.s n
  | .h n => FMap.get 0 g.h (32 * n + l)

/-- Origin + 1 of the word's poison, 0 where it has none. -/
def Group.poison (g : Group) (r : RegRef) (l : Nat) : Nat :=
  match r with
  | .v n => FMap.get 0 g.vp (32 * n + l)
  | .u n => FMap.get 0 g.sp n
  | .h n => FMap.get 0 g.hp (32 * n + l)

/-- Writing a word and its poison (R81). -/
def Group.setRaw (g : Group) (r : RegRef) (l : Nat) (w : Word) (p : Nat) : Group :=
  match r with
  | .v n => { g with v := FMap.set 0 g.v (32 * n + l) w, vp := FMap.set 0 g.vp (32 * n + l) p }
  | .u n => { g with s := FMap.set 0 g.s n w, sp := FMap.set 0 g.sp n p }
  | .h n => { g with h := FMap.set 0 g.h (32 * n + l) w, hp := FMap.set 0 g.hp (32 * n + l) p }

/-- Writing a word: any write clears poison (R81). -/
def Group.setWord (g : Group) (r : RegRef) (l : Nat) (w : Word) : Group := g.setRaw r l w 0

/-- Writing the words of the lanes of a mask (R59). -/
def Group.setWords (g : Group) (r : RegRef) (m : Mask) (f : Nat → Word) : Group :=
  m.lanes.foldl (fun g l => g.setWord r l (f l)) g

/-- Writing a uniform. -/
def Group.setUni (g : Group) (n : Nat) (w : Word) : Group := g.setWord (.u n) 0 w

/-- The register is empty: some result for it is on its way (R77). -/
def Group.empty (g : Group) (r : RegRef) : Bool := g.flights.any (fun f => decide (f.reg = r))

/-- The number a predicate's link uses for a register. -/
def regCode : RegRef → Nat
  | .v n => n
  | .h n => 128 + n
  | .u n => 256 + n

/-- The register whose full/empty state a predicate takes (R69). -/
def Group.predLink (g : Group) (p : Nat) : Option RegRef :=
  match FMap.get 0 g.plink p with
  | 0 => none
  | c + 1 => some (if c < 128 then .v c else .h (c - 128))

def Group.predEmpty (g : Group) (p : Nat) : Bool :=
  match g.predLink p with
  | some r => g.empty r
  | none => false

/-- A predicate; p7 reads true (R69). -/
def Group.pred (g : Group) (p : Nat) : Mask :=
  if p = 7 then BitVec.allOnes 32 else FMap.get 0#32 g.p p

/-- Writing a predicate's bits in the lanes of a mask (R69). -/
def Group.setPred (g : Group) (p : Nat) (m : Mask) (f : Nat → Bool) : Group :=
  let bits : Mask := Mask.ofFn f
  { g with p := FMap.set 0#32 g.p p ((g.pred p &&& ~~~m) ||| (bits &&& m)) }

/-- The register a vector byte names: at level H bytes 0x70-0x7F name h0-h15 (R360). -/
def Group.vreg (g : Group) (n : Nat) : RegRef :=
  if g.levelH && decide (112 ≤ n) then .h (n - 112) else .v n

/-- The vector byte is within the budget (R58), or exempt from it (R360). -/
def Group.vregOk (g : Group) (n : Nat) : Bool :=
  decide (n < 128) && ((g.levelH && decide (112 ≤ n)) || decide (n < 8 * g.budget))

/-- Marking a register empty for an operation (R77). -/
def Group.markEmpty (g : Group) (r : RegRef) (op : Nat) : Group := { g with flights := g.flights ++ [⟨r, op⟩] }

/-- The register still takes the operation's result: an ADV drops the results of registers that are not inherited (R50). -/
def Group.takes (g : Group) (op : Nat) (r : RegRef) : Bool := g.flights.any (fun f => decide (f.reg = r ∧ f.op = op))

/-- An operation's result may land in a register: no earlier result for it is on its way (R79). -/
def Group.mayLand (g : Group) (op : Nat) (r : RegRef) : Bool :=
  !g.takes op r ||
  (match g.flights.find? (fun f => decide (f.reg = r)) with
   | some f => decide (f.op = op)
   | none => true)

/-- Removing the first flight of an operation for a register. -/
def dropFlight (op : Nat) (r : RegRef) : List Flight → List Flight
  | [] => []
  | f :: fs => if f.reg = r ∧ f.op = op then fs else f :: dropFlight op r fs

/-- A result lands: words with their poison go into the lanes given, and the register is full once no other result
for it is on its way (R77, R79). -/
def Group.land (g : Group) (op : Nat) (r : RegRef) (vals : List (Nat × Word × Nat)) : Group :=
  if !g.takes op r then g
  else
  let g : Group := vals.foldl (fun (g : Group) x => g.setRaw r x.1 x.2.1 x.2.2) g
  let g : Group := { g with flights := dropFlight op r g.flights }
  if g.empty r then g
  else { g with plink := g.plink.filter (fun x => decide (x.2 ≠ regCode r + 1)) }

/-- A result that never lands: the operation's marks are taken back. -/
def Group.unmark (g : Group) (op : Nat) : Group :=
  { g with flights := g.flights.filter (fun f => decide (f.op ≠ op)) }

/-- The words of one register over all lanes, as a function of the lane. -/
def Group.words (g : Group) (r : RegRef) : Nat → Word := fun l => g.word r l

/-! ### Exposure permits (R260, R343, R396) -/

/-- A partition's share of a die's pool. -/
def Dev.permitPool (d : Dev) (p die : Nat) : Nat :=
  let c := (d.part p).cfg.permits
  if die = 0 then c.1 else c.2

def Dev.permitsUsed (d : Dev) (p die : Nat) : Nat :=
  let c := (d.part p).permits
  if die = 0 then c.1 else c.2

def Dev.usePermits (d : Dev) (p die : Nat) (f : Nat → Nat) : Dev :=
  d.modPart p (fun x => { x with permits := if die = 0 then (f x.permits.1, x.permits.2) else (x.permits.1, f x.permits.2) })

def Dev.returnPermits (d : Dev) (p die n : Nat) : Dev := d.usePermits p die (· - n)

def Dev.requestPermits (d : Dev) (die : Nat) (r : PermitReq) : Dev :=
  let g := d.gov die
  d.putGov die { g with queue := g.queue ++ [r] }

/-- Work of a block that held `n` permits completes: they go back to the pool, or to the reserve they came from, but
for an excess that a lowered reserve owes the pool (R343). -/
def Dev.donePermits (d : Dev) (b n : Nat) (reserve : Bool) : Dev :=
  match d.blocks[b]? with
  | none => d
  | some k =>
    let die := dieOf k.home
    if reserve then
      let x := min n k.permit.excess
      let d := d.modBlock b (fun k => { k with permit :=
        { k.permit with held := k.permit.held - n, granted := k.permit.granted - x, excess := k.permit.excess - x } })
      d.returnPermits k.part die x
    else d.returnPermits k.part die n

/-- The reserve returns to the pool, but for what running work holds from it (R343). -/
def Dev.dropReserve (d : Dev) (b : Nat) : Dev :=
  match d.blocks[b]? with
  | none => d
  | some k =>
    let die := dieOf k.home
    let free := k.permit.granted - k.permit.held
    let d := d.modBlock b (fun k => { k with permit := ⟨0, k.permit.held, k.permit.held, k.permit.held⟩ })
    (d.putGov die { d.gov die with queue := (d.gov die).queue.filter (fun r => match r.who with
      | .reserve b' _ => decide (b' ≠ b)
      | _ => true) }).returnPermits k.part die free

/-! ### Ending and replaying blocks -/

/-- Permits that a copy command takes (R236, R260). -/
def copyPermits (total : Nat) : Nat := min 16 ((total + 65535) / 65536)

/-- Permits of a pass of a shape. -/
def passPermits (shape : Nat) : Nat := if shape = 0 then 16 else if shape = 1 then 4 else 1

/-- A block loses its engine work, its tiles and its place on its cores (R46). Scratch stores and atomics already
issued to chip scratchpad, and far atomics, are still performed. -/
def Dev.dropWork (d : Dev) (b : Nat) : Dev :=
  match d.blocks[b]? with
  | none => d
  | some k =>
    let part := k.part
    let e := d.engine k.home
    let mine := e.table.filter (fun (x : Pass) => decide (x.blk = b))
    -- permits that running passes and copies hold
    let d := mine.foldl (fun d (x : Pass) => if x.granted then d.donePermits b (passPermits x.sign.tpl.shape) x.reserve else d) d
    let d := k.chans.foldl (fun d c => c.cmds.foldl (fun d (x : CopyCmd) =>
      if x.granted then d.donePermits b (copyPermits x.total) x.reserve else d) d) d
    let d := d.dropReserve b
    let e := d.engine k.home
    let chosenMine := match e.chosen with
      | some i => mine.any (fun x => decide (x.id = i))
      | none => false
    let d := d.putEngine k.home { e with
      table := e.table.filter (fun x => decide (x.blk ≠ b)), acq := e.acq.filter (fun x => decide (x.blk ≠ b)),
      chosen := if chosenMine then none else e.chosen,
      switch := if chosenMine then none else e.switch }
    let die := dieOf k.home
    let d := d.putGov die { d.gov die with queue := (d.gov die).queue.filter (fun r => match r.who with
      | .reserve b' _ => decide (b' ≠ b)
      | .copy b' _ _ => decide (b' ≠ b)
      | .pass i => !mine.any (fun x => decide (x.id = i))) }
    let chip (s : Space) : Bool := match s with
      | .chip _ => true
      | _ => false
    let isFatom (c : Cmd) : Bool := match c.kind with
      | .fatom _ _ _ => true
      | _ => false
    let d := mine.foldl (fun d (x : Pass) => d.unpin x.id) d
    let d := { d with
      loads := d.loads.filter (fun x => decide (x.blk ≠ b))
      stores := d.stores.filter (fun x => decide (x.blk ≠ b) || chip x.space)
      atoms := (d.atoms.filter (fun x => decide (x.blk ≠ b) || chip x.space))
      cmds := d.cmds.filter (fun x => decide (x.blk ≠ b) || isFatom x)
      tiles := d.tiles.map (fun (t : Tile) => if t.blk = b then { t with released := true, order := [] } else t)
      cores := d.cores.map (fun (c : Nat × CoreSt) =>
        (c.1, { c.2 with shadow := c.2.shadow.filter (fun s => decide (s.2 ≠ b))
                         units := c.2.units.filter (fun u => decide (u.2.2 ≠ b)) })) }
    d.modPart part (fun p => { p with trays := p.trays.map (fun (t : Tray) => { t with
      waitPush := t.waitPush.filter (fun w => decide (w.blk ≠ b))
      waitPop := t.waitPop.filter (fun w => decide (w.blk ≠ b)) }) })

/-- The launch keeps the ending that its queue reports: the lowest nonzero status, and among blocks of that status the
lowest linear index (R31, R390). -/
def Launch.note (l : Launch) (lin : Nat) (e : Ending) : Launch :=
  match l.worst with
  | none => { l with worst := some (lin, e) }
  | some (i, w) => if e.status < w.status ∨ (e.status = w.status ∧ lin < i) then { l with worst := some (lin, e) } else l

/-- A block ends with a status of Table 2-5, which its launch reports; a fragment group belongs to no launch's blocks. -/
def Dev.endBlock (d : Dev) (b : Nat) (e : Ending) : Dev :=
  match d.blocks[b]? with
  | none => d
  | some k =>
    let d := d.dropWork b
    let d := d.modBlock b (fun k => { k with life := .ended, ending := some e })
    if k.frag.isSome then d else d.modLaunch k.launch (fun l => l.note k.lin e)

def killed (cause : Nat) (kinfo : Word) : Ending := ⟨1, cause, kinfo⟩

/-- A replayable block is replayed, or ends with REPLAY_LIMIT at the eighth replay (R46, R47); every replay is counted
in REPLC. `hold` is the poison whose link must be up first (R357), `avoid` the cores that an error struck (R23). -/
def Dev.replayBlock (d : Dev) (b : Nat) (hold : Option Nat) (avoid : List Nat) : Dev :=
  match d.blocks[b]? with
  | none => d
  | some k =>
    let d := d.modPart k.part (fun p => { p with replc := p.replc + 1 })
    if 7 ≤ k.nrepl then d.endBlock b ⟨3, 0, 0⟩
    else
      let d := d.dropWork b
      let d := d.modBlock b (fun k => { k with life := .replaying })
      d.modLaunch k.launch (fun l => { l with requeued := l.requeued ++
        [{ lin := k.lin, nrepl := k.nrepl + 1, lrec := k.lrec, regions := k.regions, batch := k.batch, hold := hold, avoid := avoid }] })

/-- An error strikes a block before its commit point (R44, R46, R47). -/
def Dev.failBlock (d : Dev) (b : Nat) (cause : Nat) (kinfo : Word) : Dev :=
  match d.blocks[b]? with
  | none => d
  | some k => if k.replayable then d.replayBlock b none k.cores else d.endBlock b (killed cause kinfo)

/-! ### Traps -/

/-- The cause codes of Table 19-1. -/
def cILLEGAL_HEADER : Nat := 0x01
def cILLEGAL_INSTR : Nat := 0x02
def cRUN_LONG : Nat := 0x03
def cPRIV : Nat := 0x04
def cEMPTY_READ : Nat := 0x05
def cDIVERGED_UNIFORM : Nat := 0x06
def cNONUNIFORM : Nat := 0x07
def cMEMBER_SELF : Nat := 0x08
def cBAR_UNREACHABLE : Nat := 0x09
def cSCRATCH_BOUNDS : Nat := 0x0A
def cMISALIGNED : Nat := 0x0B
def cENGINE_XLATE : Nat := 0x0C
def cPOISON : Nat := 0x0D
def cMATRIX_NAN : Nat := 0x0E
def cLAYER_LIST_FULL : Nat := 0x0F
def cSUCC_SHAPE : Nat := 0x10
def cTRAY_EXHAUSTED : Nat := 0x11
def cGROUP_BOUNDS : Nat := 0x12
def cUSER_TRAP : Nat := 0x13
def cBREAKPOINT : Nat := 0x14
def cSIGN_MISMATCH : Nat := 0x15
def cACC_UNOWNED : Nat := 0x16
def cSSET_LIMIT : Nat := 0x17
def cHANDLE_INVALID : Nat := 0x18
def cREPLAY_VIOLATION : Nat := 0x19
def cCHANNEL_BUSY : Nat := 0x1A

/-- What a trap is taken with (R363). -/
structure TrapInfo where
  cause : Nat
  origin : Nat := 0
  deferred : Bool := false
  pc : Nat
  lanes : Mask
  act : Mask
  info0 : Word := 0
  info1 : Word := 0
  info2 : Word := 0
  word : Word := 0
deriving DecidableEq, Repr

/-- TCAUSE (Table 19-3). -/
def TrapInfo.tcause (t : TrapInfo) : Word :=
  BitVec.ofNat 32 (t.cause % 256 + (if t.deferred then 256 else 0) + 1024 * (t.origin % 4))

/-- The trap table's entry for a cause: the handler's segment and length where the entry is valid (R358). -/
def Dev.trapEntry (d : Dev) (p cause : Nat) : Option (Nat × Nat) :=
  let a := (d.part p).cfg.trapTable + 16 * cause
  if (Memory.read d.hbm (a + 12)).getLsbD 0 then some (Memory.readLE d.hbm a 8, Memory.readLE d.hbm (a + 8) 4) else none

/-- The entry is read at its home slice (R18); the requester codes name none for it, so it counts as an instruction fetch (log 88). -/
def Dev.trapTouch (d : Dev) (p cause : Nat) : Dev := d.touch ((d.part p).cfg.trapTable + 16 * cause) 16 7 p false

/-- A group enters its handler (R359): the record is written, the frontier set aside, and the handler starts at PC 0
of its segment with all live lanes. The run has ended. -/
def Group.enterTrap (g : Group) (t : TrapInfo) (seg len cycle : Nat) : Group :=
  { g with
    trap := { cause := t.tcause, pc := BitVec.ofNat 32 t.pc, lanes := t.lanes, act := t.act, info0 := t.info0,
              info1 := t.info1, info2 := t.info2, word := t.word },
    tcnt := if g.tcnt = 0xFFFFFFFF#32 then g.tcnt else g.tcnt + 1,
    saved := g.frontier, faultPc := t.pc, faultMask := t.act,
    frontier := [{ pc := 0, mask := g.live, susp := .run, run := 0, last := cycle, clause := none }],
    levelH := true, hseg := seg, hlen := len, sel := false, why := .ready, woken := none, primSince := none, readyAt := none, slot := none,
    cmd := none }

/-- Taking a trap (R356-R361): a nested fault or an invalid table entry ends the block KILLED; poison of origin 1 or 2
replays a replayable block; otherwise the group enters its handler. -/
def takeTrap (d : Dev) (b n : Nat) (t : TrapInfo) : Dev :=
  match d.blocks[b]?, d.group b n with
  | some k, some g =>
    if g.levelH then d.endBlock b (killed t.cause g.kinfo)
    else if t.cause = cPOISON ∧ (t.origin % 4 = 1 ∨ t.origin % 4 = 2) ∧ k.replayable = true then d.replayBlock b (some t.origin) []
    else
      let entry := d.trapEntry k.part t.cause
      let d := d.trapTouch k.part t.cause
      match entry with
      | none => d.endBlock b (killed t.cause g.kinfo)
      | some (seg, len) => d.putGroup b n (g.enterTrap t seg len d.cycle)
  | _, _ => d

/-! ### Returning from a trap (R362, Table 19-4) -/

/-- The entry that faulted, in the set-aside frontier. -/
def Group.isFaulting (g : Group) (e : Entry) : Bool := decide (e.pc = g.faultPc) && decide (e.mask &&& g.faultMask ≠ 0#32)

/-- An entry that goes on after the instruction it stands at, without its effect: at a header position the next word,
at an ADV or another instruction that ends its clause the header position after it. -/
def Entry.skip (e : Entry) : Entry :=
  match e.clause with
  | none => { e with pc := e.pc + 4 }
  | some _ => e.complete

/-- The group's own frontier comes back, every run count 0 (R88, R362), each entry with the wait it had (R179); `f` is what becomes of
each entry. -/
def Group.leaveTrap (g : Group) (f : Entry → Entry) : Group :=
  let back := g.saved.map (fun e => { f e with run := 0 })
  { g with
    frontier := back,
    saved := [], levelH := false, trap := TrapRec.zero, sel := false, why := .ready, readyAt := none, slot := none }

/-- The trap that the handler serves is deferred (R348). -/
def Group.servesDeferred (g : Group) : Bool := g.trap.cause.getLsbD 8
def Group.servedCause (g : Group) : Nat := (g.trap.cause.extractLsb' 0 8).toNat

/-- RTH.fix: the faulting entry issues its instruction again; all entries stand where they stood. -/
def Group.rthFix (g : Group) : Group := g.leaveTrap (fun e => e)

/-- RTH.skip. A deferred trap resumes at its PC (R348). For BAR_UNREACHABLE every lane at a collective instruction
goes on after it; for SUCC_SHAPE every lane does, since all of them stand at an ADV (R199). A frontier that CTXRS
brought has no faulting entry and resumes as it stands (R366). -/
def Group.rthSkip (g : Group) : Group :=
  let coll (e : Entry) : Bool := e.runnable && e.clause.isSome && decide (e.mask &&& (g.trap.info0) ≠ 0#32)
  g.leaveTrap (fun e =>
    if g.servesDeferred || decide (g.faultMask = 0#32) then e
    else if g.servedCause = cBAR_UNREACHABLE then (if coll e then e.skip else e)
    else if g.servedCause = cSUCC_SHAPE then e.skip
    else if g.isFaulting e then e.skip else e)

end Sys2Proof.Machine
end

