-- ==== Sys2Proof/Machine/MemSys.lean ====
section
/-! DEFINITION. Translation: page tables, walks, parking and the fault queue (R370-R377, R406), and engine reads and writes at virtual
addresses. -/

namespace Sys2Proof.Machine

open Sys2Proof

/-! ### Page tables (R370-R373) -/

/-- How a walk ends. -/
inductive WalkEnd where
  | leaf (l : Leaf)
  | fault (level : Nat)
  | perm
  | poison (origin : Nat)
deriving DecidableEq, Repr

/-- The frame lies in real HBM or in a valid window, aligned to its page (R371, R372). -/
def Dev.frameOk (d : Dev) (tier frame bits il : Nat) : Bool :=
  decide (frame % 2 ^ bits = 0) &&
  (if tier ≠ 0 then true
   else if frame < hbmSize then
     (List.range (max 1 (2 ^ bits / 2 ^ 25))).all (fun i => decide (d.schemeOf (frame / 2 ^ 25 + i) = il))
   else decide (windowBase ≤ frame ∧ frame < 2 * windowBase) && winValid (d.window (windowOf frame).1))

/-- One entry of a walk (R373): how the walk ends there, or the next table. -/
def Dev.tableEntry (d : Dev) (part va level table : Nat) : WalkEnd ⊕ Nat :=
    let a := table + 8 * (va / 2 ^ (16 + 9 * level) % 512)
    let e := BitVec.ofNat 64 (Memory.readLE d.hbm a 8)
    let pz := if FMap.get 0 d.hbmP (a / 4) ≠ 0 then FMap.get 0 d.hbmP (a / 4) else FMap.get 0 d.hbmP (a / 4 + 1)
    if pz ≠ 0 then .inl (.poison (pz - 1))
    else if !e.getLsbD 0 then .inl (.fault level)
    else
      let leaf := e.getLsbD 4
      let tier := (e.extractLsb' 6 2).toNat
      let next := (e.extractLsb' 12 36).toNat * 4096
      if leaf then
        let bits := 16 + 9 * level
        let frame := (e.extractLsb' 16 32).toNat * 65536
        let il := (e.extractLsb' 8 3).toNat
        let link := (e.extractLsb' 48 4).toNat
        let reserved := decide (e.extractLsb' 52 12 ≠ 0) || decide (e.extractLsb' 14 2 ≠ 0) || e.getLsbD 5 ||
          decide (3 ≤ level) || decide (tier = 3) || (decide (tier ≠ 2) && decide (link ≠ 0)) ||
          (decide (tier = 2) && decide (12 ≤ link))
        if reserved then .inl .perm
        else if (e.extractLsb' 11 3).toNat ≠ part then .inl .perm
        else if !d.frameOk tier frame bits il then .inl .perm
        else if il = 7 ∧ 16 < bits then .inl .perm
        else .inl (.leaf { base := va / 2 ^ bits * 2 ^ bits, bits := bits, frame := frame, tier := tier, link := link, il := il,
                            r := e.getLsbD 1, w := e.getLsbD 2, x := e.getLsbD 3 })
      else if e.extractLsb' 48 16 ≠ 0 ∨ e.extractLsb' 1 11 ≠ 0 ∨ level = 0 then .inl .perm
      else .inr next

/-- A walk from a table at a level down. -/
def Dev.walkFrom (d : Dev) (part va : Nat) : Nat → Nat → WalkEnd
  | 0, table => match d.tableEntry part va 0 table with
    | .inl e => e
    | .inr _ => .perm
  | l + 1, table => match d.tableEntry part va (l + 1) table with
    | .inl e => e
    | .inr next => d.walkFrom part va l next

/-- A walk for a partition. -/
def Dev.walk (d : Dev) (part va : Nat) : WalkEnd := d.walkFrom part va 3 (d.part part).cfg.tableRoot

/-- The table entries that a walk reads, from the root down. -/
def Dev.walkReads (d : Dev) (part va : Nat) : Nat → Nat → List Nat
  | 0, table => [table + 8 * (va / 2 ^ 16 % 512)]
  | l + 1, table => (table + 8 * (va / 2 ^ (16 + 9 * (l + 1)) % 512)) ::
    (match d.tableEntry part va (l + 1) table with
     | .inl _ => []
     | .inr next => d.walkReads part va l next)

/-- A walk reads its entries at their home slices (R373). -/
def Dev.walkTouch (d : Dev) (part va kind : Nat) : Dev :=
  (d.walkReads part va 3 (d.part part).cfg.tableRoot).foldl (fun d a => d.touch a 8 kind part false) d

/-- The access is allowed by the leaf (R373 item 4). -/
def Leaf.allows (l : Leaf) : Acc → Bool
  | .read => l.r
  | .write => l.w
  | .fetch => l.x

/-- The physical location of an address in a leaf's page. -/
def Leaf.phys (l : Leaf) (va : Nat) : Phys :=
  let a := l.frame + va % 2 ^ l.bits
  if l.tier = 0 then (if a < hbmSize then .real a else .window a)
  else if l.tier = 1 then .host a
  else .peer l.link a

/-! ### Translation (R374-R377) -/

/-- What translation gives. -/
inductive Xl where
  | ok (p : Phys)
  | perm
  | poison (origin : Nat)
  | later
deriving DecidableEq, Repr

def Dev.tlbHit (d : Dev) (part clu va : Nat) : Option Leaf :=
  (d.tlb.find? (fun t => decide (t.part = part ∧ t.clu = clu ∧ t.leaf.base = va / 2 ^ t.leaf.bits * 2 ^ t.leaf.bits))).map (·.leaf)

/-- A leaf enters a cluster's TLB of 2,048 entries; the oldest of a full one leaves. -/
def Dev.tlbAdd (d : Dev) (part clu : Nat) (l : Leaf) : Dev :=
  let mine := d.tlb.filter (fun t => decide (t.clu = clu))
  let tlb := if mine.length < 2048 then d.tlb
    else match mine.getLast? with
      | some t => d.tlb.erase t
      | none => d.tlb
  { d with tlb := { clu := clu, part := part, leaf := l } :: tlb }

/-- A request's page at a die: its own park, or the outcome of a walk that it joined. -/
def Park.of (p : Park) (r : Req) (va : Nat) : Bool :=
  decide (p.part = r.part ∧ dieOf p.clu = dieOf r.clu ∧ p.va / 65536 = va / 65536) && p.who.contains r.who

/-- Appending a fault record (Table 20-3) to the partition's ring, or setting OVF (R377, R406). -/
def Dev.faultRecord (d : Dev) (r : Req) (va : Nat) (write : Bool) (level : Nat) : Dev :=
  let p := d.part r.part
  if p.fqSize = 0 ∨ p.fqWr - p.fqRd = p.fqSize then d.putPart r.part { p with fqOvf := true }
  else
    let a := p.fqBase.toNat + 32 * (p.fqWr.toNat % p.fqSize.toNat)
    let acc := (if write then 1 else 0) + 2 * level
    let bytes := bytesLE va 8 ++ bytesLE r.kind 1 ++ bytesLE acc 1 ++ bytesLE r.clu 1 ++ bytesLE r.queue 1 ++
      bytesLE r.seq.toNat 4 ++ bytesLE d.cycle 8 ++ bytesLE 0 8
    ((d.touch a 32 r.kind r.part true).hbmWrite a bytes).modPart r.part (fun p => { p with fqWr := p.fqWr + 1 })

/-- A page fault parks the requests of its walk as one, while the die has a place (R377). -/
def Dev.parkAll (d : Dev) (r : Req) (va : Nat) (write : Bool) (level : Nat) (who : List Nat) : Dev :=
  if 256 ≤ (d.parks.filter (fun p => !p.expired && decide (dieOf p.clu = dieOf r.clu))).length then d
  else
    let d := d.faultRecord r va write level
    let (i, d) := d.newId
    { d with parks := d.parks ++ [{ id := i, part := r.part, clu := r.clu, va := va, write := write, kind := r.kind, since := d.cycle,
                                    walked := d.cycle, who := who, expired := false, out := some 3, spent := [] }] }

def Dev.park (d : Dev) (r : Req) (va : Nat) (write : Bool) (level : Nat) : Dev := d.parkAll r va write level [r.who]

/-- The outcome that requests take from a walk they joined, where it gives them no translation (R376). -/
def Dev.giveOutcome (d : Dev) (part clu va : Nat) (who : List Nat) (out : Option Nat) : Dev :=
  if who.isEmpty then d
  else
    let (i, d) := d.newId
    { d with parks := d.parks ++ [{ id := i, part := part, clu := clu, va := va, write := false, kind := 0, since := d.cycle,
                                    walked := d.cycle, who := who, expired := true, out := out, spent := [] }] }

/-- A run of accesses is over: the requests that have met the completion of a parked fault are done with it (R377). -/
def Dev.settleParks (d : Dev) : Dev :=
  let rest := d.parks.map (fun (q : Park) => { q with who := q.who.filter (fun w => !q.spent.contains w), spent := [] })
  { d with parks := rest.filter (fun q => !(q.expired && q.who.isEmpty)) }

/-- Walkers of a die that are taken. -/
def Dev.walking (d : Dev) (die : Nat) : Nat := (d.walks.filter (fun w => decide (dieOf w.clu = die) && !w.waits)).length

/-- One of a die's 128 walkers is free, and no miss waits for one (R376). -/
def Dev.walkerFree (d : Dev) (die : Nat) : Bool :=
  decide (d.walking die < 128) && !(d.walks.any (fun w => decide (dieOf w.clu = die) && w.waits))

/-- A miss joins the walk of its page at its die (R376). -/
def Dev.joinWalk (d : Dev) (i : Nat) (a : Ask) : Dev :=
  { d with walks := d.walks.map (fun (w : Walk) => if w.id = i ∧ ¬ (w.asks.any (fun b => decide (b.req.who = a.req.who))) then
      { w with asks := w.asks ++ [a] } else w) }

/-- A request to the host or a peer that was outstanding when its link went down fails (R387). -/
def Dev.lostTo (d : Dev) (r : Req) (p : Phys) : Option Nat :=
  (d.lost.find? (fun x => decide (x.1 = r.who) && (match p with
    | .host _ => decide (x.2 = 1)
    | .peer l _ => decide (x.2 = peerPoison l)
    | _ => false))).map (·.2)

/-- A request reaches the location that its leaf gives. A queue's own access to a page of another tier fails as a permission failure
(log 89). -/
def Dev.reach (d : Dev) (r : Req) (acc : Acc) (va : Nat) (l : Leaf) : Xl :=
  if l.allows acc && r.tier.all (fun t => decide (t = l.tier)) then
    match d.lostTo r (l.phys va) with
    | some o => .poison o
    | none => .ok (l.phys va)
  else .perm

/-- Translating one address for a request (R373-R377). All accesses of a run to the page of a parked fault whose 100 ms are over
complete with poison. A walk that finds a walker free takes it and ends in the same step; otherwise the miss waits for one in arrival
order, or joins a walk of its page. -/
def Dev.translate (d : Dev) (r : Req) (acc : Acc) (va : Nat) : Xl × Dev :=
  if 2 ^ 52 ≤ va then (.perm, d)
  else
    match d.tlbHit r.part r.clu va with
    | some l => (d.reach r acc va l, d)
    | none =>
      match d.parks.find? (fun p => p.of r va) with
      | some p =>
        if p.expired then
          (match p.out with
           | some o => .poison o
           | none => .perm,
           { d with parks := d.parks.map (fun (q : Park) => if q.id = p.id then { q with spent := r.who :: q.spent } else q) })
        else (.later, d)
      | none =>
        match d.walks.find? (fun w => decide (w.part = r.part ∧ dieOf w.clu = dieOf r.clu ∧ w.va / 65536 = va / 65536)) with
        | some w => (.later, d.joinWalk w.id ⟨r, acc⟩)
        | none =>
          if d.walkerFree (dieOf r.clu) then
            let answer := d.walk r.part va
            let d := d.walkTouch r.part va r.kind
            match answer with
            | .perm => (.perm, d)
            | .poison o => (.poison o, d)
            | .fault level => (.later, d.park r va (decide (acc = .write)) level)
            | .leaf l => (d.reach r acc va l, if l.allows acc then d.tlbAdd r.part r.clu l else d)
          else
            let (i, d) := d.newId
            (.later, { d with walks := d.walks ++ [⟨i, r.part, r.clu, va, [⟨r, acc⟩], true⟩] })

/-- How an engine's access ends. -/
inductive Got (α : Type) where
  | ok (x : α)
  | perm (va : Nat)
  | later

/-- Reading a word at a virtual address: the word with its poison. A tile fetch pins the line (R253). -/
def Dev.vaRead (d : Dev) (r : Req) (acc : Acc) (va : Nat) : Got (Word × Nat) × Dev :=
  match d.translate r acc va with
  | (.ok p, d) =>
    let (x, d') := d.physRead p r.kind r.part
    if r.kind = 2 then
      match d'.pin p (r.who / 16) with
      | some d' => (.ok x, d')
      | none => (.later, d)
    else (.ok x, d')
  | (.perm, d) => (.perm va, d)
  | (.poison o, d) => (.ok (poisoned d va o), d)
  | (.later, d) => (.later, d)

/-- Reading `n` words at ascending addresses; any wait or failure ends it. -/
def Dev.vaReads (d : Dev) (r : Req) (acc : Acc) (va : Nat) : Nat → Got (List (Word × Nat)) × Dev
  | 0 => (.ok [], d)
  | n + 1 =>
    match d.vaRead r acc va with
    | (.ok x, d) => match d.vaReads r acc (va + 4) n with
      | (.ok xs, d) => (.ok (x :: xs), d)
      | (.perm a, d) => (.perm a, d)
      | (.later, d) => (.later, d)
    | (.perm a, d) => (.perm a, d)
    | (.later, d) => (.later, d)

/-- Writing a word, or a poisoned word, at a virtual address: the origin of a poisoned completion. -/
def Dev.vaWrite (d : Dev) (r : Req) (va : Nat) (w : Word) (poison : Nat) : Got (Option Nat) × Dev :=
  match d.translate r .write va with
  | (.ok p, d) =>
    let (o, d) := if poison = 0 then d.physWrite p (bytesLE w.toNat 4) r.kind r.part else d.physPoison p (poison - 1) r.kind r.part
    (.ok o, d)
  | (.perm, d) => (.perm va, d)
  | (.poison o, d) => (.ok (some o), d)
  | (.later, d) => (.later, d)

/-- Writing one byte at a virtual address. -/
def Dev.vaWriteByte (d : Dev) (r : Req) (va : Nat) (b : Byte) : Got (Option Nat) × Dev :=
  match d.translate r .write va with
  | (.ok p, d) => let (o, d) := d.physWrite p [b] r.kind r.part; (.ok o, d)
  | (.perm, d) => (.perm va, d)
  | (.poison o, d) => (.ok (some o), d)
  | (.later, d) => (.later, d)

/-- A block's request (R375: staging and commit translate at the block's lowest-numbered cluster). -/
def Block.req (k : Block) (clu kind who : Nat) (d : Dev) : Req :=
  { part := k.part, clu := clu, kind := kind, who := 16 * who + kind,
    queue := match d.launches[k.launch]? with
      | some l => if k.frag.isSome then 255 else l.queue
      | none => 255,
    seq := match d.launches[k.launch]? with
      | some l => l.seq
      | none => 0 }

end Sys2Proof.Machine
end

