-- ==== Sys2Proof/Machine/Flags.lean ====
section
/-! DEFINITION. GCR and GFL (R72-R76): their fields, the rounding mode an instruction works under, and how flags are
raised. -/

namespace Sys2Proof.Machine

open Sys2Proof

/-- GCR fields (Table 3-5). -/
def gcrRm (w : Word) : BitVec 2 := w.extractLsb' 0 2
def gcrFtz (w : Word) : Bool := w.getLsbD 2
def gcrMnt (w : Word) : Bool := w.getLsbD 3
def gcrIvt (w : Word) : Bool := w.getLsbD 4
def gcrDph (w : Word) : Nat := (w.extractLsb' 5 5).toNat

/-- SCTL writes GCR bits 9:0 (R103). -/
def gcrWrite (w : Word) : Word := w &&& 0x3FF#32

/-- A grain QNT advances DPH by 7 modulo 32 after it rounds (Table 3-5). -/
def gcrStepDph (w : Word) : Word :=
  (w &&& ~~~0x3E0#32) ||| (BitVec.ofNat 32 ((gcrDph w + 7) % 32) <<< 5)

/-- The rounding mode of an FP32 instruction: FN selects GCR.RM or a fixed mode (R72). -/
def rndMode (r : Rnd) (gcr : Word) : RM :=
  match r with
  | .gcr => RM.ofBits (gcrRm gcr)
  | .rz => .rz
  | .rd => .rd
  | .ru => .ru

/-- Bits of GFL (Table 3-6). -/
def gflSat : Word := 16#32
def gflNz : Word := 8#32
def gflIv : Word := 4#32

/-- Raising flags: they are sticky (R75, R76). -/
def Group.raise (g : Group) (f : Flags) : Group := { g with gfl := g.gfl ||| f.gfl }
def Group.raiseBits (g : Group) (w : Word) : Group := { g with gfl := g.gfl ||| w }

/-- The flags that any lane of a mask raises (R76). -/
def flagsOf (m : Mask) (f : Nat → Flags) : Flags := m.lanes.foldl (fun acc l => acc.or (f l)) Flags.none

/-- R73: with GCR.IVT = 1 an instruction that would set IV traps instead. -/
def Group.ivTrap (g : Group) (f : Flags) : Bool := gcrIvt g.gcr && f.iv

end Sys2Proof.Machine
end

