-- ==== Sys2Proof/Machine/Operands.lean ====
section
/-! DEFINITION. What an instruction names, the checks made at issue in the order of R100, and what becomes of a group
whose instruction executes, transfers, blocks, waits for a unit or traps (R88-R90). -/

namespace Sys2Proof.Machine

open Sys2Proof

/-- The outcome of a step or of one instruction. -/
abbrev Out := Host.Outcome State Fault Refusal

/-- One register or predicate that an instruction names. A vector number is the operand byte (R360). -/
inductive Opnd where
  | v (n : Nat)
  | s (n : Nat)
  | h (n : Nat)
  | p (n : Nat)
deriving DecidableEq, Repr

/-- The lanes whose words an instruction reads, of the active ones: each, the lowest alone, or a named one alone. -/
inductive Which where
  | all
  | lowest
  | lane (l : Nat)
deriving DecidableEq, Repr

def Which.mask (w : Which) (m : Mask) : Mask :=
  match w with
  | .all => m
  | .lowest => m &&& Mask.one (Mask.lowest m)
  | .lane l => m &&& Mask.one l

/-- What an instruction reads, in operand order D, A, B and ascending within an operand; what it writes at a fixed
latency; what it marks empty; whether it is uniform-class (R67) and whether it must end its clause (R85); and the lanes in which
it reads its registers. -/
structure Access where
  reads : List Opnd := []
  fixed : List Opnd := []
  var : List Opnd := []
  uni : Bool := false
  last : Bool := false
  which : Which := .all
deriving DecidableEq, Repr

/-- What an instruction reads through memory: registers of other groups through windows (R64), and the poison of the
scratch words it reads (R81), 0 for none. -/
structure Extra where
  win : List (Nat × RegRef) := []
  poison : Nat := 0
deriving DecidableEq, Repr

/-- The issuing group, where it stands. -/
structure View where
  d : Dev
  b : Nat
  n : Nat
  k : Block
  g : Group

/-- The active mask. -/
def View.act (v : View) : Mask := v.g.active
def View.core (v : View) : Nat := v.k.coreOf v.n
def View.part (v : View) : Part := v.d.part v.k.part

/-- The group that issues. -/
def Dev.issuer (d : Dev) : Option View :=
  match d.cur with
  | none => none
  | some (b, n) =>
    match d.blocks[b]? with
    | none => none
    | some k => match k.groups[n]? with
      | none => none
      | some g => some ⟨d, b, n, k, g⟩

/-- A precise trap an instruction raises: cause, faulting lanes, origin and info words. -/
structure Trap where
  cause : Nat
  lanes : Mask
  origin : Nat := 0
  info0 : Word := 0
  info1 : Word := 0
  info2 : Word := 0
deriving DecidableEq, Repr

/-- What an instruction leads to. -/
inductive Res where
  | done (d : Dev) (g : Group)                                    -- executed; the entry goes to the next word
  | jump (d : Dev) (g : Group) (dest : List (Nat × Mask)) (stay : Mask)  -- a control transfer (R182)
  | stay (d : Dev) (g : Group) (ended : Bool)                     -- executed; the frontier is set, the run ended or not
  | wait (c : Cond)                                               -- blocks before it (R90)
  | retry (d : Dev) (c : Cond) (note : Group → Group := id)       -- the device moves on; blocks, noting something, and issues again (R377)
  | held (d : Dev) (g : Group) (c : UnitCmd)                      -- a unit performs it while the group waits (R296)
  | trap (t : Trap)

/-- ILLEGAL_INSTR by an instruction's own check: info word 0 is the word (R99). -/
def illegal (w : Word) (act : Mask) (info1 : Nat) : Trap :=
  { cause := cILLEGAL_INSTR, lanes := act, info0 := w, info1 := BitVec.ofNat 32 info1 }

/-! ### Registers named -/

def srcOp : Src → Opnd
  | .v n => .v n.toNat
  | .s n => .s n.toNat

def usrcOps : USrc → List Opnd
  | .reg n => [.s n.toNat]
  | .zero => []

def sysOp : SysSrc → Opnd
  | .h n => .h n.toNat
  | .s n => .s n.toNat

/-- `k` vector registers, or uniforms, from a first one. -/
def vs (n : BitVec 7) (k : Nat) : List Opnd := (List.range k).map (fun i => .v (n.toNat + i))
def us (n : Nat) (k : Nat) : List Opnd := (List.range k).map (fun i => .s (n + i))

def Opnd.reg (g : Group) : Opnd → Option RegRef
  | .v n => some (g.vreg n)
  | .s n => some (.u n)
  | .h n => some (.h n)
  | .p _ => none

/-- The register named exists for the group (R58). -/
def Opnd.ok (g : Group) : Opnd → Bool
  | .v n => g.vregOk n
  | .s n => decide (n < 160)
  | .h n => decide (n < 16)
  | .p _ => true

/-- The operand is empty: the register, or the register whose state a predicate takes (R69, R78). -/
def Opnd.emptyReg (g : Group) : Opnd → Option RegRef
  | .p n => if g.predEmpty n then g.predLink n else none
  | o => match o.reg g with
    | some r => if g.empty r then some r else none
    | none => none

/-- Poison of an operand in the lowest active lane that has it (R81). -/
def Opnd.poison (g : Group) (m : Mask) (o : Opnd) : Option (Nat × Nat) :=
  match o.reg g with
  | none => none
  | some r => (m.lanes.find? (fun l => decide (g.poison r l ≠ 0))).map (fun l => (l, g.poison r l - 1))

/-- Info word 0 of EMPTY_READ (R78). -/
def emptyInfo : RegRef → Word
  | .v n => BitVec.ofNat 32 n
  | .u n => BitVec.ofNat 32 (256 + n)
  | .h n => BitVec.ofNat 32 n

/-! ### Checks at issue -/

/-- The class of the instruction's word and the word (R96). -/
def clsOf (i : Instr) : Cls := (wordOf i).1
def opWord (i : Instr) : Word := (wordOf i).2

/-- Every register named exists (R58), and a transfer ends its clause (R85). -/
def formOk (i : Instr) (acc : Access) (g : Group) : Bool :=
  WellFormed i && (acc.reads ++ acc.fixed ++ acc.var).all (Opnd.ok g) && (!acc.last || g.head.atLast)

/-- What stops an instruction at issue. -/
inductive Fail where
  | wait (c : Cond)
  | trap (t : Trap)
deriving DecidableEq, Repr

/-- The instruction's T bit (R83, R87). -/
def Group.tbit (g : Group) : Bool :=
  match g.head.clause with
  | some c => c.h.tbit g.head.pos
  | none => false

/-- Check 5: empty sources (R78), and registers read through windows (R64). -/
def checkEmpty (acc : Access) (ext : Extra) (g : Group) (owner : Nat → RegRef → Bool) : Option Fail :=
  let own := acc.reads.filterMap (Opnd.emptyReg g)
  let win := ext.win.filter (fun x => owner x.1 x.2)
  match own, win with
  | [], [] => none
  | r :: _, _ =>
    if g.tbit then some (.trap { cause := cEMPTY_READ, lanes := g.active, info0 := emptyInfo r })
    else some (.wait (.regs own))
  | [], (m, r) :: _ =>
    if g.tbit then
      some (.trap { cause := cEMPTY_READ, lanes := g.active, info0 := emptyInfo r, info1 := BitVec.ofNat 32 m })
    else some (.wait (.window win))

/-- Check 6: a fixed-latency instruction writes no empty register (R79), nor a predicate that a result on its way
still writes. -/
def checkWrite (acc : Access) (g : Group) : Option Fail :=
  match acc.fixed.filterMap (Opnd.emptyReg g) with
  | [] => none
  | rs => some (.wait (.regs rs))

/-- Check 7: poisoned words of active lanes (R81). The faulting lanes are those that read one; the origin is that of the
first operand's lowest such lane. -/
def checkPoison (acc : Access) (ext : Extra) (g : Group) : Option Fail :=
  let lanes : Mask := acc.which.mask g.active
  match acc.reads.findSome? (Opnd.poison g lanes) with
  | some (_, o) =>
    let bad : Mask := Mask.ofFn (fun l => lanes.getLsbD l && acc.reads.any (fun x => match x.reg g with
      | some r => decide (g.poison r l ≠ 0)
      | none => false))
    some (.trap { cause := cPOISON, lanes := bad, origin := o })
  | none =>
    match ext.poison with
    | 0 => none
    | o + 1 => some (.trap { cause := cPOISON, lanes := g.active, origin := o })

/-- A register of a group of the block, read through a window, is empty (R64). -/
def View.winEmpty (v : View) (m : Nat) (r : RegRef) : Bool :=
  match v.k.groups[m]? with
  | some x => x.empty r
  | none => false

/-- The first failing check of R100, items 1 to 7. -/
def firstFailure (i : Instr) (acc : Access) (ext : Extra) (v : View) : Option Fail :=
  let g := v.g
  if 24 ≤ g.head.run then some (.trap { cause := cRUN_LONG, lanes := g.active })
  else if clsOf i = .sys ∧ g.levelH = false then some (.trap { cause := cPRIV, lanes := g.active })
  else if formOk i acc g = false then
    some (.trap { cause := cILLEGAL_INSTR, lanes := g.active, info0 := opWord i })
  else if acc.uni = true ∧ g.converged = false then some (.trap { cause := cDIVERGED_UNIFORM, lanes := g.active })
  else
    match checkEmpty acc ext g v.winEmpty with
    | some f => some f
    | none =>
      match checkWrite acc g with
      | some f => some f
      | none => checkPoison acc ext g

/-! ### What follows -/

/-- The group after an instruction: at its next word, its run over after a clause with B = 1 (R90). -/
def Group.afterRun (x : Group × Bool) : Group :=
  if x.2 then x.1.release .ready else x.1

/-- The trap record's view of a precise trap at the issuing instruction. -/
def Trap.info (t : Trap) (g : Group) (w : Word) : TrapInfo :=
  { cause := t.cause, origin := t.origin, pc := g.head.pc, lanes := t.lanes, act := g.active, info0 := t.info0,
    info1 := t.info1, info2 := t.info2, word := w }

/-- The device after an instruction. Blocks and traps leave the group as it was (R88, R10); a held instruction counts
when its unit has performed it. -/
def conclude (i : Instr) (v : View) : Res → Dev
  | .done d g => d.putGroup v.b v.n { Group.afterRun g.advance with sel := !g.head.endsRun }
  | .jump d g dest stay => d.putGroup v.b v.n (Group.afterRun (g.transfer dest stay d.cycle))
  | .stay d g ended => d.putGroup v.b v.n (if ended then g.release g.why else g)
  | .wait c => v.d.putGroup v.b v.n (v.g.release (.cond c))
  | .retry d c note => d.putGroup v.b v.n (note (v.g.release (.cond c)))
  | .held d g c => d.putGroup v.b v.n { g.release .unit with frontier := v.g.frontier, cmd := some c }
  | .trap t => takeTrap v.d v.b v.n (t.info v.g (opWord i))

/-- The group with its issuing entry's instruction counted (R88). -/
def View.counted (v : View) : View := { v with g := v.g.counted v.d.cycle }

/-- Checks 1 to 7, then the instruction's own faults and its effect. -/
def verdict (i : Instr) (acc : Access) (ext : View → Extra) (body : View → Res) (v : View) : Res :=
  match firstFailure i acc (ext v) v with
  | some (.wait c) => .wait c
  | some (.trap t) => .trap t
  | none => body v.counted

/-- An instruction word is executed by the issuing group. -/
def issueX (i : Instr) (acc : Access) (ext : View → Extra) (body : View → Res) (s : State) : Out :=
  match s.dev.issuer with
  | none => .fault .noIssuer
  | some v => .next (s.withDev (conclude i v (verdict i acc ext body v)))

/-- The same for an instruction that reads nothing through memory. -/
def issue (i : Instr) (acc : Access) (body : View → Res) (s : State) : Out :=
  issueX i acc (fun _ => {}) body s

/-- An instruction whose effect is on its own group alone. -/
def issueG (i : Instr) (acc : Access) (body : Group → Except Trap Group) (s : State) : Out :=
  issue i acc (fun v => match body v.g with
    | .ok g => .done v.d g
    | .error t => .trap t) s

/-! ### Events -/

/-- A step of the device itself, or of the outside world, once the device runs: in recovery and during clearing no
queue, port or link is enabled (R400, R404). -/
def event (f : Dev → Dev) (s : State) : Out :=
  if s.plat.phase = .running then .next (s.withDev (f s.dev)) else .next s

/-! ### Operand values -/

def Group.src (g : Group) (a : Src) : Nat → Word :=
  match a with
  | .v n => g.words (g.vreg n.toNat)
  | .s n => fun _ => g.word (.u n.toNat) 0

def Group.uni (g : Group) (n : Nat) : Word := g.word (.u n) 0

def Group.usrc (g : Group) (a : USrc) : Word :=
  match a with
  | .reg n => g.uni n.toNat
  | .zero => 0

/-- A 64-bit value of an even uniform pair (R59). -/
def Group.uniPair (g : Group) (n : Nat) : BitVec 64 := pair64 (g.uni n) (g.uni (n + 1))

/-- Writing a vector register named by a D byte in the active lanes. -/
def Group.setD (g : Group) (d : Nat) (f : Nat → Word) : Group := g.setWords (g.vreg d) g.active f

end Sys2Proof.Machine
end

