-- ==== Sys2Proof/Machine/Scratch.lean ====
section
/-! DEFINITION. The scratch levels: spaces, bounds and register windows (R63, R64, R202, R203), homes, first-level caches
(R204-R206), pending loads, stores and atomics and when each may be performed (R206-R210, R224-R228), and the conditions
of releases and acquires (R212, R213). -/

namespace Sys2Proof.Machine

open Sys2Proof

/-! ### Spaces and bounds -/

/-- The chip scratchpad of a partition: share bytes beside each slice of its list (Table 8-1). -/
def Part.chipSize (p : Part) : Nat := p.cfg.chipShare * p.cfg.slices.length

/-- The copy of a level that a lane of a group reaches (R202). -/
def Block.space (k : Block) (b n : Nat) (lvl : Lvl) (lane : Nat) : Space :=
  match lvl with
  | .priv => .lane b n lane
  | .core => .core b (k.pos n)
  | .clu => .clu b (k.cluIdx n)
  | .chip => .chip k.part

def lvl3 : Lvl3 → Lvl
  | .core => .core
  | .clu => .clu
  | .chip => .chip

def lvl2 : Lvl2 → Lvl
  | .core => .core
  | .clu => .clu

/-- The number of a level in info words (R223). -/
def lvlCode : Lvl → Nat
  | .priv => 0
  | .core => 1
  | .clu => 2
  | .chip => 3

/-- Where the register windows start and end (Table 3-2). -/
def winLo : Nat := 0x800000
def winHi : Nat := 0x2800000

/-- The register word a window address names: group, register, lane (Table 3-2). -/
def winReg (a : Nat) : Nat × Nat × Nat :=
  ((a - winLo) / 0x4000, (a - winLo) % 0x4000 / 128, a % 128 / 4)

/-- The address lies in a mapped window of a block's groups on one core (R63). -/
def Block.winOk (k : Block) (pos a : Nat) : Bool :=
  let (m, r, _) := winReg a
  decide (winLo ≤ a ∧ a < winHi) &&
  (match k.groups[m]? with
   | some g => decide (k.pos m = pos ∧ r < 8 * g.budget)
   | none => false)

/-- A byte of a space exists (R63, R203). -/
def Dev.inSpace (d : Dev) (s : Space) (a : Nat) : Bool :=
  match s with
  | .lane b n _ => match d.blocks[b]? with
    | some k => match k.groups[n]? with
      | some g => decide (a < (k.lrec.role g.role).lpriv)
      | none => false
    | none => false
  | .core b pos => match d.blocks[b]? with
    | some k => decide (a < k.lrec.cscr * 4096) || k.winOk pos a
    | none => false
  | .clu b _ => match d.blocks[b]? with
    | some k => decide (a < k.lrec.cshr * 4096)
    | none => false
  | .chip p => decide (a < (d.part p).chipSize)

/-- Every byte of a range exists. -/
def Dev.rangeOk (d : Dev) (s : Space) (a n : Nat) : Bool := (List.range n).all (fun i => d.inSpace s (a + i))

/-- A long range exists and meets no register window: the engines' check (R235, R268). -/
def Dev.flatOk (d : Dev) (s : Space) (a n : Nat) : Bool :=
  match s with
  | .core b _ => match d.blocks[b]? with
    | some k => decide (a + n ≤ k.lrec.cscr * 4096)
    | none => false
  | .clu b _ => match d.blocks[b]? with
    | some k => decide (a + n ≤ k.lrec.cshr * 4096)
    | none => false
  | .chip p => decide (a + n ≤ (d.part p).chipSize)
  | .lane _ _ _ => false

/-- The address lies in a register window of a core-scratch space. -/
def isWin (s : Space) (a : Nat) : Bool :=
  match s with
  | .core _ _ => decide (winLo ≤ a)
  | _ => false

/-- A chip-scratchpad range lies in the block's chip-scratchpad regions (R45). -/
def Block.inChipRegions (k : Block) (a n : Nat) : Bool :=
  (List.range n).all (fun i => k.regions.any (fun r => decide (r.level = 2) &&
    decide (r.off ≤ a + i ∧ a + i < r.off + (if r.twoD then r.dpitch * (r.rows - 1) + r.len else r.len)) &&
    (!r.twoD || decide ((a + i - r.off) % r.dpitch < r.len))))

/-- R45: the block may not write this. -/
def Block.replayBars (k : Block) (s : Space) (a n : Nat) : Bool :=
  match s with
  | .chip _ => k.restricted && !k.inChipRegions a n
  | _ => false

/-! ### Homes -/

/-- The deduplication set of an open tray holds this byte of chip scratchpad (R291). -/
def Tray.ownsByte (t : Tray) (a : Nat) : Bool := t.dedup && decide (t.dset ≤ a ∧ a < t.dset + 8 * t.dcap)

/-- A word of chip scratchpad at its home; the home units keep deduplication sets in layouts of their own (R304). -/
def Dev.chipWord (d : Dev) (part a : Nat) : Word × Nat :=
  let p := d.part part
  if p.trays.any (·.ownsByte a) then
    (BitVec.ofNat 32 (ofBytesLE ((List.range 4).map (fun i => Config.setByte d.cycle (a + i)))), 0)
  else (BitVec.ofNat 32 (Memory.readLE p.chip a 4), FMap.get 0 p.chipP (a / 4))

/-- A word of a space at its home, with its poison. -/
def Dev.homeWord (d : Dev) (s : Space) (a : Nat) : Word × Nat :=
  match s with
  | .lane b n l => match d.group b n with
    | some g => (BitVec.ofNat 32 (Memory.readLE g.lp (4096 * l + a) 4), FMap.get 0 g.lpp (1024 * l + a / 4))
    | none => (0, 0)
  | .core b pos => match d.blocks[b]? with
    | none => (0, 0)
    | some k =>
      if a < winLo then
        (BitVec.ofNat 32 (Memory.readLE (nth k.core pos []) a 4), FMap.get 0 (nth k.coreP pos []) (a / 4))
      else
        let (m, r, l) := winReg a
        match k.groups[m]? with
        | some g => (g.word (.v r) l, g.poison (.v r) l)
        | none => (0, 0)
  | .clu b i => match d.blocks[b]? with
    | none => (0, 0)
    | some k => (BitVec.ofNat 32 (Memory.readLE (nth k.clu i []) a 4), FMap.get 0 (nth k.cluP i []) (a / 4))
  | .chip p => d.chipWord p a

/-- Replacing byte `a mod 4` of a word. -/
def putByte (w : Word) (a : Nat) (x : Byte) : Word := setByte w (a % 4) x

/-- Writing one byte at its home: the word's poison is cleared (R81). -/
def Dev.homeByte (d : Dev) (s : Space) (a : Nat) (x : Byte) : Dev :=
  match s with
  | .lane b n l => d.modGroup b n (fun g =>
      { g with lp := Memory.write g.lp (4096 * l + a) x, lpp := FMap.set 0 g.lpp (1024 * l + a / 4) 0 })
  | .core b pos =>
    if a < winLo then d.modBlock b (fun k =>
      { k with core := setNth k.core pos (Memory.write (nth k.core pos []) a x),
               coreP := setNth k.coreP pos (FMap.set 0 (nth k.coreP pos []) (a / 4) 0) })
    else
      let (m, r, l) := winReg a
      d.modGroup b m (fun g => g.setWord (.v r) l (putByte (g.word (.v r) l) a x))
  | .clu b i => d.modBlock b (fun k =>
      { k with clu := setNth k.clu i (Memory.write (nth k.clu i []) a x),
               cluP := setNth k.cluP i (FMap.set 0 (nth k.cluP i []) (a / 4) 0) })
  | .chip p => d.modPart p (fun x' =>
      { x' with chip := Memory.write x'.chip a x, chipP := FMap.set 0 x'.chipP (a / 4) 0,
                trays := x'.trays.map (fun (t : Tray) => if t.ownsByte a then { t with harm := t.harm + 1 } else t) })

def Dev.homeBytes (d : Dev) (s : Space) (bs : List (Nat × Byte)) : Dev :=
  bs.foldl (fun d x => d.homeByte s x.1 x.2) d

/-- Writing a word, or a poisoned word with its origin (R220). -/
def Dev.homePut (d : Dev) (s : Space) (a : Nat) (w : Word) (poison : Nat) : Dev :=
  let d := d.homeBytes s (wordBytes a w)
  if poison = 0 then d
  else match s with
    | .lane b n l => d.modGroup b n (fun g => { g with lpp := FMap.set 0 g.lpp (1024 * l + a / 4) poison })
    | .core b pos =>
      if a < winLo then d.modBlock b (fun k =>
        { k with coreP := setNth k.coreP pos (FMap.set 0 (nth k.coreP pos []) (a / 4) poison) })
      else
        let (m, r, l) := winReg a
        d.modGroup b m (fun g => g.setRaw (.v r) l (g.word (.v r) l) poison)
    | .clu b i => d.modBlock b (fun k =>
        { k with cluP := setNth k.cluP i (FMap.set 0 (nth k.cluP i []) (a / 4) poison) })
    | .chip p => d.modPart p (fun x => { x with chipP := FMap.set 0 x.chipP (a / 4) poison })

/-! ### What a core's own accesses see (R206) -/

/-- A pending store is one the reader may not see: a later store of its own group (R208). -/
def PStore.later (s : PStore) (b n op : Nat) : Bool := decide (s.blk = b ∧ s.grp = n ∧ op < s.op)

def PStore.touches (x : PStore) (s : Space) (w : Nat) : Bool :=
  decide (x.space = s) && x.bytes.any (fun y => decide (y.1 / 4 = w))
def PAtom.touches (x : PAtom) (s : Space) (w : Nat) : Bool := decide (x.space = s ∧ x.addr / 4 = w)

/-- The pending stores that an access of a group on a core sees over the home of a word, in coherence order: its core's, up to a later
store of its own (R206, R208). A store to a register window is seen by others when it is performed (R65). -/
def Dev.overlaid (d : Dev) (core b n op : Nat) (s : Space) (a : Nat) : List PStore :=
  (d.stores.filter (fun x => decide (x.core = core) && x.touches s (a / 4) && (!isWin s a || decide (x.blk = b ∧ x.grp = n)))).takeWhile
    (fun x => !x.later b n op)

/-- A word as an access of a group on a core sees it: its home with those stores over it. -/
def Dev.seenWord (d : Dev) (core b n op : Nat) (s : Space) (a : Nat) : Word × Nat :=
  let extra := (d.overlaid core b n op s a).flatMap (fun x => x.bytes.filter (fun y => decide (y.1 / 4 = a / 4)))
  let (w, p) := d.homeWord s (a / 4 * 4)
  (extra.foldl (fun w y => putByte w y.1 y.2) w, if extra.isEmpty then p else 0)

/-- The group has read these words: the stores of others that it saw in them hold back its wider releases (R212 item 5). -/
def Dev.noteSeen (d : Dev) (core b n op : Nat) (words : List (Space × Nat)) : Dev :=
  let ops := words.flatMap (fun sw => (d.overlaid core b n op sw.1 (4 * sw.2)).map (·.op))
  if ops.isEmpty then d
  else { d with stores := d.stores.map (fun (x : PStore) =>
    if ops.contains x.op && !decide (x.blk = b ∧ x.grp = n) && !x.seen.contains (b, n) then { x with seen := x.seen ++ [(b, n)] } else x) }

/-! ### First-level cache -/

def Sector.is (x : Sector) (s : Space) (sec : Nat) : Bool := decide (x.space = s ∧ x.sec = sec)

/-- Reading through L1 applies to this space (Table 8-1). -/
def Space.cached : Space → Bool
  | .clu _ _ => true
  | .chip _ => true
  | _ => false

/-- A store updates the sectors of its core's cache that hold its words (R206). -/
def Dev.l1Store (d : Dev) (core : Nat) (s : Space) (bs : List (Nat × Byte)) : Dev :=
  let c := d.core core
  d.putCore core { c with l1 := c.l1.map (fun x =>
    bs.foldl (fun (x : Sector) y =>
      if x.is s (y.1 / 64) then
        let i := y.1 % 64 / 4
        { x with words := setNth x.words i (putByte (nth x.words i (0, 0)).1 y.1 y.2, 0) }
      else x) x) }

/-- Dropping sectors of a core's cache. -/
def Dev.l1Drop (d : Dev) (core : Nat) (f : Sector → Bool) : Dev :=
  let c := d.core core
  d.putCore core { c with l1 := c.l1.filter (fun x => !f x) }

/-- The 256-byte line of a sector. -/
def Sector.line (x : Sector) : Space × Nat := (x.space, x.sec / 4)

/-- A sector enters the cache; with 1,536 lines held the oldest line leaves (R204). -/
def l1Add (x : Sector) (l : List Sector) : List Sector :=
  let l := l.filter (fun y => !(y.is x.space x.sec))
  let lines := l.foldl (fun acc (y : Sector) => if acc.contains y.line then acc else acc ++ [y.line]) ([] : List (Space × Nat))
  let l := if 1536 ≤ lines.length ∧ ¬ lines.contains x.line then
      (match lines.getLast? with
       | some z => l.filter (fun y => decide (y.line ≠ z))
       | none => l)
    else l
  x :: l

/-! ### Pending accesses -/

/-- Bytes `a .. a+n-1` and `b .. b+m-1` share a word. -/
def wordsMeet (a n b m : Nat) : Bool := decide (a / 4 ≤ (b + m - 1) / 4 ∧ b / 4 ≤ (a + n - 1) / 4)

def sizeBytes : MemSize → Nat
  | .b | .bs => 1
  | .h | .hs => 2
  | .w => 4
  | .dw => 8
  | .qw => 16

/-- Word addresses that a load reads: space and word number. -/
def PLoad.words (x : PLoad) : List (Space × Nat) :=
  x.lanes.flatMap (fun (_, s, a) => (List.range x.regs.length).map (fun j => (s, (a + (if x.line then 128 * j else 4 * j)) / 4)))

/-- The load has still to read this word. -/
def PLoad.reads (x : PLoad) (s : Space) (w : Nat) : Bool :=
  if s.cached then x.need.contains (s, w / 16) && x.words.contains (s, w)
  else x.vals.isNone && x.words.contains (s, w)

/-- No result that `held` names is on its way to the register behind a window word (R64). -/
def Dev.winFull (d : Dev) (held : Nat → Bool) (s : Space) (w : Nat) : Bool :=
  match s with
  | .core b _ =>
    if winLo ≤ 4 * w then
      let (m, r, _) := winReg (4 * w)
      match d.group b m with
      | some g => !(g.flights.any (fun f => decide (f.reg = .v r) && held f.op))
      | none => true
    else true
  | _ => true

/-- A store or atomic of a core to a word may be performed: every earlier store and atomic of the core to the word is,
every earlier load of the group has read it, and a register behind a window has what it waits for (R64, R206, R208). -/
def Dev.mayPerform (d : Dev) (held : Nat → Bool) (core b n op : Nat) (s : Space) (w : Nat) : Bool :=
  !(d.stores.any (fun x => decide (x.core = core ∧ x.op < op) && x.touches s w)) &&
  !(d.atoms.any (fun x => decide (x.core = core ∧ x.op < op) && x.touches s w)) &&
  !(d.loads.any (fun x => decide (x.blk = b ∧ x.grp = n ∧ x.op < op) && x.reads s w)) &&
  d.winFull held s w

/-- The store goes to core scratch outside the windows. -/
def PStore.plain (x : PStore) : Bool :=
  match x.space with
  | .core _ _ => x.bytes.any (fun y => decide (y.1 < winLo))
  | _ => false

/-- A store: one to a window waits until the register is full (R64); one to core scratch follows the earlier ones of its group, so that
every observer on the core sees them in order (Table 8-4). -/
def Dev.storeReady (d : Dev) (x : PStore) : Bool :=
  x.bytes.all (fun y => d.mayPerform (fun _ => true) x.core x.blk x.grp x.op x.space (y.1 / 4)) &&
  !(x.plain && d.stores.any (fun y => decide (y.blk = x.blk ∧ y.grp = x.grp ∧ y.instr < x.instr) && y.plain))

/-- An atomic: one on a window word waits for the results on their way when its instruction issued (log 82). -/
def Dev.atomReady (d : Dev) (x : PAtom) : Bool :=
  d.mayPerform (fun f => decide (f < x.instr)) x.core x.blk x.grp x.op x.space (x.addr / 4)

/-- The access is to a register of its own group. -/
def PStore.own (x : PStore) : Bool := x.bytes.any (fun y => isWin x.space y.1 && decide ((winReg y.1).1 = x.grp))
def PAtom.own (x : PAtom) : Bool := isWin x.space x.addr && decide ((winReg x.addr).1 = x.grp)

/-- A group's own access to one of its registers follows an access to the word, or is it: it is performed as soon as it may be, and what
comes before it too, so that later reads and writes of the register by its owner follow it (R65). -/
def Dev.urgent (d : Dev) (core op : Nat) (s : Space) (w : Nat) : Bool :=
  d.stores.any (fun y => decide (y.core = core ∧ op ≤ y.op) && y.own && y.touches s w) ||
  d.atoms.any (fun y => decide (y.core = core ∧ op ≤ y.op) && y.own && y.touches s w)

def Dev.performStore (d : Dev) (x : PStore) : Dev :=
  ({ d with stores := d.stores.filter (fun y => decide (y.op ≠ x.op)) } : Dev).homeBytes x.space x.bytes

/-- AT operations (Table 9-3). -/
def atV (f : AtOp) (old x : Word) : Word :=
  match f with
  | .add => old + x
  | .min => iminV false old x
  | .max => imaxV false old x
  | .minN => iminV true old x
  | .maxN => imaxV true old x
  | .and => old &&& x
  | .or => old ||| x
  | .exch => x

/-- An arrival at a barrier word (R230, R231). -/
def pbarV (w : Word) : Word :=
  let exp := (w.extractLsb' 16 15).toNat
  let pend := (w.extractLsb' 0 15).toNat
  let e := if exp = 0 then 1 else exp
  if pend ≤ 1 then ((w ^^^ 0x80000000#32) &&& ~~~0x7FFF#32) ||| BitVec.ofNat 32 e
  else (w &&& ~~~0x7FFF#32) ||| BitVec.ofNat 32 (pend - 1)

def AtomOp.apply (a : AtomOp) (old : Word) : Word :=
  match a with
  | .at f x => atV f old x
  | .cas cmp new => if old = cmp then new else old
  | .pbarArr => pbarV old

/-- An atomic's word changes at its home, and the old value is on its way to its lane (R227). -/
def Dev.performAtom (d : Dev) (x : PAtom) : Dev :=
  let (old, p) := d.homeWord x.space x.addr
  let d := ({ d with atoms := d.atoms.filter (fun y => decide (y.op ≠ x.op)) } : Dev).homePut x.space x.addr (x.what.apply old) 0
  { d with cmds := d.cmds.map (fun (c : Cmd) => match c.kind with
    | .answer v => if c.op = x.instr then { c with kind := .answer (v ++ [(x.lane, [(old, p)])]) } else c
    | _ => c) }

/-- A loaded value: the bytes of the access out of its word, extended (R224). -/
def sizeVal (sz : MemSize) (a : Nat) (w : Word) : Word :=
  let x := w >>> (8 * (a % 4))
  match sz with
  | .b => zext8 (x.setWidth 8)
  | .bs => sext8 (x.setWidth 8)
  | .h => (x.setWidth 16).setWidth 32
  | .hs => (x.setWidth 16).signExtend 32
  | _ => w

/-- The words each lane's registers take, read by `rd`. -/
def PLoad.value (x : PLoad) (rd : Space → Nat → Word × Nat) : List (Nat × List (Word × Nat)) :=
  x.lanes.map (fun (l, s, a) => (l, (List.range x.regs.length).map (fun j =>
    let b := a + (if x.line then 128 * j else 4 * j)
    let (w, p) := rd s b
    (sizeVal x.size b w, p))))

def PLoad.gotWord (x : PLoad) (s : Space) (a : Nat) : Word × Nat :=
  match x.got.find? (fun y => decide (y.1 = s ∧ y.2.1 = a / 4)) with
  | some y => y.2.2
  | none => (0, 0)

/-- The load may read: its sectors have come, and every earlier load and atomic of the group to its words is done
(R208). -/
def Dev.loadReady (d : Dev) (x : PLoad) : Bool :=
  x.vals.isSome ||
  (x.need.isEmpty &&
   !(d.atoms.any (fun a => decide (a.blk = x.blk ∧ a.grp = x.grp ∧ a.op < x.op) && x.words.any (fun (s, w) => a.touches s w))) &&
   !(d.loads.any (fun y => decide (y.blk = x.blk ∧ y.grp = x.grp ∧ y.op < x.op) && x.words.any (fun (s, w) => y.reads s w))))

/-- The values of a load, read once (R224). -/
def Dev.loadVals (d : Dev) (x : PLoad) : List (Nat × List (Word × Nat)) :=
  match x.vals with
  | some v => v
  | none => x.value (fun s a => if s.cached then x.gotWord s a else d.seenWord x.core x.blk x.grp x.op s a)

/-- The load reads its words where they are not in the cache, and holds their values. -/
def Dev.readLoad (d : Dev) (x : PLoad) : Dev :=
  let vals := d.loadVals x
  let d := d.noteSeen x.core x.blk x.grp x.op (if x.vals.isSome then [] else x.words.filter (fun sw => !sw.1.cached))
  { d with loads := d.loads.map (fun (y : PLoad) => if y.op = x.op then { y with vals := some vals } else y) }

/-- Performing the accesses to a group's own registers, and those that stand before them, as far as they may be. -/
def Dev.settleOwn (d : Dev) : Nat → Dev
  | 0 => d
  | fuel + 1 =>
    match d.stores.find? (fun x => x.bytes.any (fun y => d.urgent x.core x.op x.space (y.1 / 4)) && d.storeReady x) with
    | some x => (d.performStore x).settleOwn fuel
    | none =>
      match d.atoms.find? (fun x => d.urgent x.core x.op x.space (x.addr / 4) && d.atomReady x) with
      | some x => (d.performAtom x).settleOwn fuel
      | none =>
        match d.loads.find? (fun x => x.vals.isNone && x.words.any (fun (s, w) => d.urgent x.core x.op s w) && d.loadReady x) with
        | some x => (d.readLoad x).settleOwn fuel
        | none => d

/-! ### Landing -/

/-- A group's answered commands land in their registers, oldest first, each once no earlier result for any of them is
on its way (R79); then stores that waited for those registers are performed. -/
def Dev.landAnswers (d : Dev) : Nat → Dev
  | 0 => d
  | fuel + 1 =>
    match d.cmds.find? (fun c => match c.kind with
      | .answer _ => (match d.group c.blk c.grp with
        | some g => c.regs.all (g.mayLand c.op) && !(d.atoms.any (fun a => decide (a.instr = c.op)))
        | none => true)
      | _ => false) with
    | none => d
    | some c =>
      let vals := match c.kind with
        | .answer v => v
        | _ => []
      let d := { d with cmds := d.cmds.filter (fun x => decide (x.op ≠ c.op)) }
      (d.modGroup c.blk c.grp (fun g => c.regs.zipIdx.foldl (fun (g : Group) (ri : RegRef × Nat) =>
        g.land c.op ri.1 (vals.map (fun lv => (lv.1, (nth lv.2 ri.2 (0, 0)).1, (nth lv.2 ri.2 (0, 0)).2)))) g)).landAnswers fuel

/-- Landings, and the accesses to registers that waited for them; an atomic performed brings further answers. -/
def Dev.settleN (d : Dev) : Nat → Dev
  | 0 => d
  | fuel + 1 =>
    let d' := (d.landAnswers (d.cmds.length + 1)).settleOwn (d.stores.length + d.atoms.length + d.loads.length + 1)
    if d'.atoms.length < d.atoms.length then d'.settleN fuel else d'

/-- What follows a landing. -/
def Dev.settle (d : Dev) : Dev := d.settleN (d.atoms.length + 1)

/-- Putting an answer on its way: each lane's words for the destination registers. -/
def Dev.answer (d : Dev) (op b n : Nat) (act : Mask) (regs : List RegRef) (vals : List (Nat × List (Word × Nat))) : Dev :=
  ({ d with cmds := d.cmds ++ [{ op := op, blk := b, grp := n, act := act, regs := regs, kind := .answer vals }] } : Dev).settle

/-! ### Loads -/

/-- The sectors a cached load needs. -/
def PLoad.sectors (x : PLoad) : List (Space × Nat) :=
  x.words.foldl (fun acc (s, w) => if s.cached ∧ ¬ acc.contains (s, w / 16) then acc ++ [(s, w / 16)] else acc) []

/-- Words captured from a sector for a load. -/
def PLoad.capture (x : PLoad) (s : Space) (sec : Nat) (ws : List (Word × Nat)) : PLoad :=
  { x with need := x.need.erase (s, sec),
           got := x.got ++ ws.zipIdx.map (fun (wp, i) => (s, 16 * sec + i, wp.1, wp.2)) }

/-- How many new miss-status entries a load takes (R205). -/
def Dev.newMisses (d : Dev) (core : Nat) (x : PLoad) : List (Space × Nat) :=
  let c := d.core core
  x.sectors.filter (fun (s, sec) => !(c.l1.any (·.is s sec)) && !(c.miss.any (fun m => decide (m.space = s ∧ m.sec = sec))))

/-- A load is issued: its registers are marked empty; sectors present are read from the cache, the others are missed on
(R205, R224). A load that reads the group's own registers reads them now (R65). -/
def Dev.issueLoad (d : Dev) (g : Group) (x : PLoad) : Dev × Group :=
  let c := d.core x.core
  let new := d.newMisses x.core x
  let (ids, d) := new.foldl (fun (acc : List Miss × Dev) (sc : Space × Nat) =>
    let (i, d) := acc.2.newId
    (acc.1 ++ [⟨i, sc.1, sc.2⟩], d)) (([] : List Miss), d)
  let x : PLoad := x.sectors.foldl (fun (x : PLoad) (sc : Space × Nat) =>
    match c.l1.find? (·.is sc.1 sc.2) with
    | some y => x.capture sc.1 sc.2 y.words
    | none => { x with need := x.need ++ [sc] }) { x with need := [], got := [] }
  let own := x.lanes.any (fun (_, s, a) => isWin s a && decide ((winReg a).1 = x.grp))
  let d := d.noteSeen x.core x.blk x.grp x.op (x.words.filter (fun sw => if sw.1.cached then !x.need.contains (sw.1, sw.2 / 16) else own))
  let x : PLoad := if own then { x with vals := some (x.value (d.seenWord x.core x.blk x.grp x.op)) } else x
  let d := d.putCore x.core { d.core x.core with miss := (d.core x.core).miss ++ ids }
  ({ d with loads := d.loads ++ [x] }, x.regs.foldl (fun (g : Group) r => g.markEmpty r x.op) g)

/-- Register `reg` of a load lands (SCRATCH_LOAD_COMPLETE). -/
def Dev.loadComplete (d : Dev) (op reg : Nat) : Dev :=
  match d.loads.find? (fun x => decide (x.op = op)) with
  | none => d
  | some x =>
    match d.group x.blk x.grp, x.regs[reg]? with
    | some g, some r =>
      if x.left.contains reg && d.loadReady x && g.mayLand op r then
        let g := g.land op r ((d.loadVals x).map (fun lv => (lv.1, (nth lv.2 reg (0, 0)).1, (nth lv.2 reg (0, 0)).2)))
        let d := d.readLoad x
        let left := x.left.erase reg
        let loads := if left.isEmpty then d.loads.filter (fun y => decide (y.op ≠ op))
          else d.loads.map (fun (y : PLoad) => if y.op = op then { y with left := left } else y)
        (({ d with loads := loads } : Dev).putGroup x.blk x.grp g).settle
      else d
    | _, _ => d

/-- A miss-status entry's sector comes (L1_SECTOR_FILL, R205, R206): loads that wait for it read it, and it enters the
cache; a load behind an atomic of its group on that sector keeps the entry. -/
def Dev.sectorFill (d : Dev) (core miss : Nat) : Dev :=
  let c := d.core core
  match c.miss.find? (fun m => decide (m.id = miss)) with
  | none => d
  | some m =>
    let word (b n op i : Nat) : Word × Nat := d.seenWord core b n op m.space (64 * m.sec + 4 * i)
    let behind (x : PLoad) : Bool := d.atoms.any (fun a =>
      decide (a.blk = x.blk ∧ a.grp = x.grp ∧ a.op < x.op ∧ a.space = m.space ∧ a.addr / 64 = m.sec))
    let waits (x : PLoad) : Bool := decide (x.core = core) && x.need.contains (m.space, m.sec)
    let loads := d.loads.map (fun (x : PLoad) =>
      if waits x && !behind x then
        x.capture m.space m.sec ((List.range 16).map (word x.blk x.grp x.op))
      else x)
    let d := d.loads.foldl (fun (d : Dev) (x : PLoad) => if waits x && !behind x then
        d.noteSeen core x.blk x.grp x.op (x.words.filter (fun sw => decide (sw.1 = m.space ∧ sw.2 / 16 = m.sec)))
      else d) d
    let kept := loads.any waits
    let busy := d.atoms.any (fun a => decide (a.core = core ∧ a.space = m.space ∧ a.addr / 64 = m.sec))
    let all := (List.range 16).map (fun i => d.seenWord core 0 0 d.nextId m.space (64 * m.sec + 4 * i))
    let c := { c with
      miss := if kept then c.miss else c.miss.filter (fun x => decide (x.id ≠ miss)),
      l1 := if busy then c.l1 else l1Add ⟨m.space, m.sec, all⟩ c.l1 }
    ({ d with loads := loads } : Dev).putCore core c

/-! ### Stores and atomics -/

/-- Stores of the lanes of one instruction, ascending: bytes that a higher lane writes are dropped (R225). -/
def stripLanes : List (Nat × Space × List (Nat × Byte)) → List (Nat × Space × List (Nat × Byte))
  | [] => []
  | (l, s, bs) :: rest =>
    let rest' := stripLanes rest
    let kept := bs.filter (fun y => !(rest.any (fun z => decide (z.2.1 = s) && z.2.2.any (fun t => decide (t.1 = y.1)))))
    if kept.isEmpty then rest' else (l, s, kept) :: rest'

/-- A store instruction is issued: the caches of its core are updated and each lane's store is on its way (R206). -/
def Dev.issueStores (d : Dev) (core b n : Nat) (acc : List (Nat × Space × List (Nat × Byte))) : Dev :=
  let first := d.nextId
  ((stripLanes acc).foldl (fun (d : Dev) x =>
    let (i, d) := d.newId
    let d := if x.2.1.cached then d.l1Store core x.2.1 x.2.2 else d
    { d with stores := d.stores ++ [{ op := i, instr := first, core := core, blk := b, grp := n, space := x.2.1, bytes := x.2.2, seen := [] }] }) d).settle

/-- SCRATCH_STORE_PERFORMED (R207). -/
def Dev.storePerformed (d : Dev) (op : Nat) : Dev :=
  match d.stores.find? (fun x => decide (x.op = op)) with
  | none => d
  | some x => if d.storeReady x then (d.performStore x).settle else d

/-- Atomics of an instruction are issued: each removes its word's sector from the core's cache (R206). -/
def Dev.issueAtoms (d : Dev) (core b n instr : Nat) (dst : Option RegRef) (acc : List (Nat × Space × Nat × AtomOp)) : Dev :=
  acc.foldl (fun (d : Dev) x =>
    let (i, d) := d.newId
    let d := if x.2.1.cached then d.l1Drop core (fun y => y.is x.2.1 (x.2.2.1 / 64)) else d
    { d with atoms := d.atoms ++ [{ op := i, instr := instr, core := core, blk := b, grp := n, lane := x.1,
                                    space := x.2.1, addr := x.2.2.1, what := x.2.2.2, dst := dst }] }) d

/-- SCRATCH_ATOMIC_PERFORMED (R227): the word changes at its home and the old value returns. -/
def Dev.atomPerformed (d : Dev) (op : Nat) : Dev :=
  match d.atoms.find? (fun x => decide (x.op = op)) with
  | none => d
  | some x =>
    if d.atomReady x then (d.performAtom x).settle else d

/-! ### Releases and acquires -/

/-- The group's earlier loads, atomics and FATOMs have returned their values (R212 items 1 and 3): an acquire follows what they read
(R214, Tables 8-3 to 8-5). -/
def Dev.returned (d : Dev) (b n : Nat) : Bool :=
  !(d.loads.any (fun x => decide (x.blk = b ∧ x.grp = n))) &&
  !(d.atoms.any (fun x => decide (x.blk = b ∧ x.grp = n))) &&
  !(d.cmds.any (fun x => decide (x.blk = b ∧ x.grp = n) && (match x.kind with
    | .fatom _ _ _ => true
    | .answer _ => true
    | _ => false)))

/-- Conditions of a release (R212): loads and atomics have returned, stores, atomics and FATOMs are performed; wider than
group scope, so is every store of another group that the group has read (item 5). -/
def Dev.released (d : Dev) (b n : Nat) (wide : Bool) : Bool :=
  d.returned b n &&
  !(d.stores.any (fun x => decide (x.blk = b ∧ x.grp = n) || (wide && x.seen.contains (b, n))))

/-- Wait event w0: the group's scratch stores and atomics are performed (R86, R207). -/
def Dev.w0 (d : Dev) (b n : Nat) : Bool :=
  !(d.stores.any (fun x => decide (x.blk = b ∧ x.grp = n))) && !(d.atoms.any (fun x => decide (x.blk = b ∧ x.grp = n)))

/-- Block scope is core, cluster or die scope (R211). -/
def Block.scope (k : Block) : Scope :=
  if k.cores.length = 1 then .core else if k.cores.length ≤ 4 then .clu else .die

/-- An acquire drops the copies of cluster-shared memory from cluster scope up, of chip scratchpad from die scope up
(R213). -/
def Dev.acquire (d : Dev) (core : Nat) (s : Scope) : Dev :=
  let clu := decide (s = .clu ∨ s = .die ∨ s = .dev ∨ s = .sys)
  let die := decide (s = .die ∨ s = .dev ∨ s = .sys)
  d.l1Drop core (fun x => match x.space with
    | .clu _ _ => clu
    | .chip _ => die
    | _ => false)

end Sys2Proof.Machine
end

