-- ==== Sys2Proof/Machine/Issue.lean ====
section
/-! DEFINITION. From a group that holds a slot to its instruction: code units (R92, R95, R374), selection (R179), headers
(R84), wait events (R86), the BAR_UNREACHABLE trap of R181 and R196, and decoding. -/

namespace Sys2Proof.Machine

open Sys2Proof

/-! ### Code -/

/-- The segment a group executes: its launch's, or its handler's (R358). -/
def Block.codeBase (k : Block) (g : Group) : Nat := if g.levelH then g.hseg else k.lrec.code
def Block.codeLen (k : Block) (g : Group) : Nat := if g.levelH then g.hlen else k.lrec.codelen

def Block.unit (k : Block) (va : Nat) : Option CodeUnit := k.code.find? (fun u => decide (u.unit = va / 16))

/-- The word at a PC, once its unit has been fetched whole (R95). -/
def Block.codeWord (k : Block) (g : Group) (pc : Nat) : Option Word :=
  let va := k.codeBase g + pc
  match k.unit va with
  | some u => if u.refused || decide (u.poison ≠ 0) then none else u.words[va % 16 / 4]?
  | none => none

/-- CODE_FETCH_COMPLETE: the unit that the group waits for arrives, is refused, or is poisoned (R374). -/
def Dev.codeFetch (d : Dev) (b n : Nat) : Dev :=
  match d.blocks[b]?, d.group b n with
  | some k, some g =>
    match g.why with
    | .cond (.code va) =>
      if (k.unit va).isSome then d
      else
        let r := k.req (clusterOf (k.coreOf n)) 7 (4096 * b + n) d
        match d.vaReads r .fetch (va / 16 * 16) 4 with
        | (.ok ws, d) =>
          let p := ws.foldl (fun a w => if a = 0 then w.2 else a) 0
          d.settleParks.modBlock b (fun k => { k with code := ⟨va / 16, ws.map (·.1), p, false⟩ :: k.code })
        | (.perm _, d) => d.settleParks.modBlock b (fun k => { k with code := ⟨va / 16, [], 0, true⟩ :: k.code })
        | (.later, d) => d
    | _ => d
  | _, _ => d

/-! ### Groups with no runnable entry (R181, R196) -/

/-- BAR_UNREACHABLE (R196, R197): the record names the lowest lane at a collective instruction, or at a WAIT where
there is none; lanes at collective instructions become runnable there again. -/
def Dev.barUnreachable (d : Dev) (b n : Nat) (info2 : Word) : Dev :=
  match d.group b n with
  | none => d
  | some g =>
    let cl := g.collLanes
    let at_ : Mask := if cl = 0#32 then g.waitLanes else cl
    let pc := g.pcOfLane (Mask.lowest at_)
    let word := match d.blocks[b]? with
      | some k => (k.codeWord g pc).getD 0
      | none => 0
    let d := d.putGroup b n (g.unColl d.cycle)
    takeTrap d b n { cause := cBAR_UNREACHABLE, pc := pc, lanes := at_, act := at_, info0 := cl, info1 := g.waitLanes,
                     info2 := info2, word := word }

/-- A group with no runnable entry blocks, or traps where none can ever be released (R181). -/
def Dev.idleCheck (d : Dev) (b n : Nat) : Dev :=
  match d.group b n with
  | none => d
  | some g =>
    if g.exited || g.someRunnable then d
    else if g.stuck then d.barUnreachable b n 0
    else d.putGroup b n (g.release .noEntry)

/-! ### Wait events (R86, Table 4-3) -/

/-- A drain of the group stands in a tile's order. -/
def Dev.drains (d : Dev) (b n : Nat) : Bool :=
  d.tiles.any (fun t => t.order.any (fun c => match c with
    | .drain x => decide (x.blk = b ∧ x.grp = n)
    | _ => false))

/-- Results of the group's SRES are still held (R335). -/
def Dev.holds (d : Dev) (b : Nat) : Bool :=
  match d.blocks[b]? with
  | none => false
  | some k => (d.part k.part).sets.any (fun s => s.2.held.any (fun h => decide (h.blk = b)))

/-- The events a clause selects hold. Commands are accepted when they issue, so w1 holds (R80). -/
def Dev.eventsHold (d : Dev) (b n : Nat) (w : BitVec 4) : Bool :=
  (!w.getLsbD 0 || d.w0 b n) && (!w.getLsbD 2 || !d.drains b n) && (!w.getLsbD 3 || !d.holds b)

/-! ### The front end -/

/-- What the issuing group does next: nothing more in this step, or an instruction. -/
inductive Front where
  | stop (d : Dev)
  | run (i : Instr) (d : Dev)

/-- The runnable entry that a missing word stops, at it or at pads before it: its mask, and the frontier with the entry at the word. -/
def reachWord (look : Nat → Option Word) (len pc : Nat) : List Entry → Mask × List Entry
  | [] => (0#32, [])
  | e :: es =>
    if e.runnable && decide ((if e.clause = none then (headerFrom look len (padFuel len) e.pc).1 else e.pc) = pc) then
      (e.mask, { e with pc := pc } :: es)
    else
      let (m, fs) := reachWord look len pc es
      (m, e :: fs)

/-- A word that is not there: the group waits for its unit, or traps where the unit's fetch failed (R374). -/
def Dev.noWord (d : Dev) (b n pc : Nat) (k : Block) (g : Group) : Dev :=
  let va := k.codeBase g + pc
  match k.unit va with
  | none => d.putGroup b n (g.release (.cond (.code va)))
  | some u =>
    let (mask, es) := reachWord (k.codeWord g) (k.codeLen g) pc g.frontier
    let d := (d.modBlock b (fun k => { k with code := k.code.filter (fun x => decide (x.unit ≠ u.unit)) })).putGroup b n { g with frontier := es }
    takeTrap d b n { cause := if u.refused then cENGINE_XLATE else cPOISON, origin := u.poison - 1, pc := pc, lanes := mask,
                     act := mask }

/-- The instruction at the head entry, decoded in its clause's class (R85). -/
def Dev.fetchAt (d : Dev) (b n : Nat) (k : Block) (g : Group) : Front :=
  match g.head.clause with
  | none => .stop d
  | some c =>
    match k.codeWord g g.head.pc with
    | none => .stop (d.noWord b n g.head.pc k g)
    | some w => .run (decodeInstr c.h.cls w) { d.putGroup b n g with cur := some (b, n) }

/-- The instruction that a unit held when its group was saved issues again: its marks are taken back, and it makes them anew (R82). -/
def Group.reissue (g : Group) : Group :=
  match g.redo with
  | some (op, pc) => if g.levelH = false ∧ g.head.pc = pc ∧ g.head.clause ≠ none then { g.unmark op with redo := none } else g
  | none => g

/-- Selection, header and events, then the instruction (R84, R86, R179). -/
def Dev.frontEnd (d : Dev) (b n : Nat) : Front :=
  match d.blocks[b]?, d.group b n with
  | some k, some g =>
    match select (k.codeWord g) (k.codeLen g) d.cycle g.sel g.frontier with
    | .fetch pc es => .stop (d.noWord b n pc k { g with frontier := es })
    | .noEntry es => .stop ((d.putGroup b n { g with frontier := es }).idleCheck b n)
    | .illegal e rest w =>
      .stop (takeTrap (d.putGroup b n { g with frontier := e :: rest }) b n
        { cause := cILLEGAL_HEADER, pc := e.pc, lanes := e.mask, act := e.mask, word := w })
    | .atClause e rest h =>
      if d.eventsHold b n h.w then
        d.fetchAt b n k ({ g with frontier := { e with clause := some ⟨e.pc, h⟩, pc := e.pc + 4 } :: rest, sel := true } : Group).reissue
      else .stop (d.putGroup b n ({ g with frontier := e :: rest }.release (.cond (.events h.w))))
    | .instr e rest => d.fetchAt b n k ({ g with frontier := e :: rest, sel := true } : Group).reissue
  | _, _ => .stop d

/-- The group holds a slot in a block that runs. -/
def Dev.mayIssue (d : Dev) (b n : Nat) : Bool :=
  match d.blocks[b]?, d.group b n with
  | some k, some g => k.running && g.slot.isSome && !g.exited
  | _, _ => false

end Sys2Proof.Machine
end

