-- ==== Sys2Proof/Machine/Reads.lean ====
section
/-! DEFINITION. Engine reads and writes of many words in a row: a run ends at the first word that must wait, that its page
refuses, or whose handle is not live (R36, R373, R377). -/

namespace Sys2Proof.Machine

open Sys2Proof

/-- Why a run of engine accesses ends early. -/
inductive Stop where
  | later
  | perm (va : Nat)
  | poisonWrite (origin va : Nat)     -- a write completed with poison
  | dead                              -- the snapshot's handle is not live
deriving DecidableEq, Repr

/-- A run of engine accesses: the device, with what it has parked and moved, and the result or why it ended. -/
abbrev Rd := ExceptT Stop (StateM Dev)

/-- A run that must start again keeps the outcomes that it had met. -/
def Dev.keepParks (old d : Dev) : Dev :=
  let held (q : Park) : Park := (old.parks.find? (fun p => p.expired && decide (p.id = q.id))).getD q
  { d with parks := d.parks.map held ++
      old.parks.filter (fun p => p.expired && !(d.parks.any (fun q => decide (q.id = p.id)))) }

/-- A run that must wait: what it has parked, and the walks it has joined, stay; where there are none new it leaves the device as it
was. -/
def Dev.again (old d : Dev) : Dev :=
  let d := old.keepParks d
  if d.parks = old.parks ∧ d.walks = old.walks then old else d

def Rd.run' {α : Type} (x : Rd α) (d : Dev) : Except Stop α × Dev :=
  match (x.run).run d with
  | (.error .later, d') => (.error .later, d.again d')
  | (y, d') => (y, d'.settleParks)

/-- Lifting an access. -/
def rdOf {α : Type} (f : Dev → Got α × Dev) : Rd α := fun d =>
  match f d with
  | (.ok x, d) => (.ok x, d)
  | (.perm va, d) => (.error (.perm va), d)
  | (.later, d) => (.error .later, d)

/-- A word at a multiple of 4. -/
def rdWord (r : Req) (va : Nat) : Rd (Word × Nat) := rdOf (fun d => d.vaRead r .read va)

/-- A byte, with the poison of its word. -/
def rdByte (r : Req) (va : Nat) : Rd (Byte × Nat) := do
  let (w, p) ← rdWord r (va / 4 * 4)
  pure ((w >>> (8 * (va % 4))).setWidth 8, p)

/-- Bytes at ascending addresses. -/
def rdBytes (r : Req) (va n : Nat) : Rd (List (Byte × Nat)) := (List.range n).mapM (fun i => rdByte r (va + i))

/-- The poison of a row of bytes: that of the first poisoned one. -/
def poisonOf (l : List (Byte × Nat)) : Nat := ((l.map (·.2)).find? (fun p => decide (p ≠ 0))).getD 0

/-- A little-endian number of bytes. -/
def numOf (l : List (Byte × Nat)) : Nat := ofBytesLE (l.map (·.1))

/-- A little-endian number of `n` bytes and its poison. -/
def rdNum (r : Req) (va n : Nat) : Rd (Nat × Nat) := do
  let bs ← rdBytes r va n
  pure (numOf bs, poisonOf bs)

/-- A word at any byte address. -/
def rdWordAt (r : Req) (va : Nat) : Rd (Word × Nat) :=
  if va % 4 = 0 then rdWord r va
  else do
    let (x, p) ← rdNum r va 4
    pure (BitVec.ofNat 32 x, p)

/-- Bytes grouped into words with their poison. -/
def wordsOf : List (Byte × Nat) → List (Word × Nat)
  | a :: b :: c :: e :: rest => (BitVec.ofNat 32 (numOf [a, b, c, e]), poisonOf [a, b, c, e]) :: wordsOf rest
  | _ => []

/-- Writing a word, poisoned or not, at a multiple of 4; a poisoned completion ends the run. -/
def wrWord (r : Req) (va : Nat) (w : Word × Nat) : Rd Unit := do
  match ← rdOf (fun d => d.vaWrite r va w.1 w.2) with
  | none => pure ()
  | some o => throw (.poisonWrite o va)

def wrByte (r : Req) (va : Nat) (b : Byte) : Rd Unit := do
  match ← rdOf (fun d => d.vaWriteByte r va b) with
  | none => pure ()
  | some o => throw (.poisonWrite o va)

/-- A word at any byte address; a poisoned word spreads to the words it touches. -/
def wrWordAt (r : Req) (va : Nat) (w : Word × Nat) : Rd Unit :=
  if va % 4 = 0 then wrWord r va w
  else if w.2 = 0 then (wordBytes va w.1).forM (fun (ab : Nat × Byte) => wrByte r ab.1 ab.2)
  else do
    wrWord r (va / 4 * 4) w
    wrWord r (va / 4 * 4 + 4) w

end Sys2Proof.Machine
end

