-- ==== Sys2Proof/Machine/Layer.lean ====
section
/-! DEFINITION. Layered tensors (11): the view of a handle (R274-R277), the six LT instructions and their performance
(R280-R287), folds (R285, R286); and what happens when a unit performs the command a group waits for. -/

namespace Sys2Proof.Machine

open Sys2Proof

/-! ### The layer table -/

def Part.layer (p : Part) (h : Nat) : LEntry := FMap.get LEntry.free p.layers h
def Dev.putLayer (d : Dev) (part h : Nat) (e : LEntry) : Dev :=
  d.modPart part (fun p => { p with layers := FMap.set LEntry.free p.layers h e })

/-- The live entry of a handle (R271). -/
def Part.liveLayer (p : Part) (h : Nat) : Option LEntry :=
  if h < p.cfg.layerT ∧ (p.layer h).live = true then some (p.layer h) else none

/-- The lowest-numbered free entry (R281). -/
def Part.freeLayer (p : Part) : Option Nat := (List.range p.cfg.layerT).find? (fun h => !(p.layer h).live)

/-! ### What a view holds (R274-R276) -/

/-- Bytes of an element block in a base format: QS8, QS4, QS16. -/
def blockBytes (fmt : Nat) : Nat := if fmt = 0 then 32 else if fmt = 1 then 16 else 64

/-- A kept sparse entry: line, K index, delta. -/
abbrev SparseEntry := Nat × Nat × Int

/-- Counting clips and ignored sparse entries in an entry (R274, R276). -/
def Dev.noteView (d : Dev) (part h sats : Nat) (bad : Bool) : Dev :=
  let e := (d.part part).layer h
  if e.live then d.putLayer part h { e with satv := min 0xFFFFFFFF (e.satv + sats), badsp := e.badsp || bad } else d

/-- The entries of a sparse layer of handle `h` that are not ignored, and their poison; one that is ignored sets BADSP (R274). -/
def sparseRead (r : Req) (h : Nat) (e : LEntry) (addr : Nat) (count : Nat) : Rd (List SparseEntry × Nat) :=
  (List.range count).foldlM (fun (acc : List SparseEntry × Nat) n => do
    let (w, p) ← rdNum r (addr + 8 * n) 8
    let line := w % 2 ^ 24
    let k := w / 2 ^ 24 % 2 ^ 24
    let delta := (BitVec.ofNat 16 (w / 2 ^ 48)).toInt
    let above : Bool := match acc.1 with
      | [] => true
      | (l', k', _) :: _ => decide (l' < line ∨ (l' = line ∧ k' < k))
    let poison := if acc.2 = 0 then p else acc.2
    if line < e.lines ∧ k < e.klen ∧ above = true then pure ((line, k, delta) :: acc.1, poison)
    else do
      modify (fun d => d.noteView r.part h 0 true)
      pure (acc.1, poison)) ([], 0)

/-- A snapshot with its sparse layers read. -/
structure ViewSrc where
  e : LEntry
  sparse : List (List SparseEntry × Nat)    -- one for each slot, with the poison of its entries; empty for a low-rank one

def viewSrc (r : Req) (h : Nat) (e : LEntry) : Rd ViewSrc := do
  let sparse ← e.slots.mapM (fun (s : Slot) =>
    if s.lowRank then pure (([] : List SparseEntry), 0) else sparseRead r h e s.addr s.count)
  pure ⟨e, sparse⟩

/-- The scale byte of a base block, with its poison. -/
def baseScale (r : Req) (e : LEntry) (i b : Nat) : Rd (Byte × Nat) := rdByte r (e.bscl + i * e.spitch + b)

/-- The base element at (i, k). -/
def baseElem (r : Req) (e : LEntry) (i k : Nat) : Rd (Int × Nat) := do
  let a := e.base + i * e.epitch + k / 32 * blockBytes e.bfmt
  if e.bfmt = 0 then
    let (x, p) ← rdByte r (a + k % 32)
    pure (x.toInt, p)
  else if e.bfmt = 1 then
    let (x, p) ← rdByte r (a + k % 32 / 2)
    pure ((BitVec.ofNat 4 (if k % 2 = 0 then x.toNat else x.toNat / 16)).toInt, p)
  else
    let (x, p) ← rdNum r (a + 2 * (k % 32)) 2
    pure ((BitVec.ofNat 16 x).toInt, p)

/-- What a low-rank layer adds at (i, k) (R275): d, whether it was clipped, its poison. -/
def lowRank (r : Req) (e : LEntry) (s : Slot) (eb i k : Nat) : Rd (Int × Bool × Nat) := do
  let u ← rdBytes r (s.addr + 32 * i) s.rank
  let v ← rdBytes r (s.aux + 32 * k) s.rank
  let (eu, pu) ← rdByte r (s.addr + 32 * e.lines + i)
  let (ev, pv) ← rdByte r (s.aux + 32 * e.klen + k)
  let p : Int := ((u.zip v).map (fun uv => uv.1.1.toInt * uv.2.1.toInt)).sum
  let sh : Int := (eu.toNat : Int) + ev.toNat + s.alpha - eb - 127
  let d := FVal.toInt .rne (if p = 0 then .zero false else .fin (decide (p < 0)) p.natAbs sh)
  let poison := ([poisonOf u, poisonOf v, pu, pv].find? (fun x => decide (x ≠ 0))).getD 0
  if 2 ^ 24 < d then pure (2 ^ 24, true, poison)
  else if d < -(2 ^ 24) then pure (-(2 ^ 24), true, poison)
  else pure (d, false, poison)

/-- A view element (R276): its value, whether it was clipped, its poison. -/
def viewElem (r : Req) (v : ViewSrc) (i k : Nat) : Rd (Int × Bool × Nat) := do
  let e := v.e
  let (q, p0) ← baseElem r e i k
  let (eb, pe) ← baseScale r e i (k / 32)
  let lows := e.slots.any (·.lowRank)
  let (x, sat, p) ← (e.slots.zip v.sparse).foldlM (fun (acc : Int × Bool × Nat) (sl : Slot × (List SparseEntry × Nat)) => do
      if sl.1.lowRank then
        let (d, s, p) ← lowRank r e sl.1 eb.toNat i k
        pure (acc.1 + d, acc.2.1 || s, if acc.2.2 = 0 then p else acc.2.2)
      else
        let d := match sl.2.1.find? (fun t => decide (t.1 = i ∧ t.2.1 = k)) with
          | some t => t.2.2
          | none => 0
        pure (acc.1 + d, acc.2.1, if acc.2.2 = 0 then sl.2.2 else acc.2.2)) (q, false, if p0 = 0 ∧ lows then pe else p0)
  let lo : Int := if e.vfmt = 0 then -128 else -32768
  let hi : Int := if e.vfmt = 0 then 127 else 32767
  pure (max lo (min hi x), sat || decide (x < lo ∨ hi < x), p)

/-- A view block's scale (R275, R276). -/
def viewScale (r : Req) (v : ViewSrc) (i b : Nat) : Rd (Byte × Nat) := do
  let e := v.e
  let (eb, pe) ← baseScale r e i b
  let lows := e.slots.filter (·.lowRank)
  let (bad, p) ← lows.foldlM (fun (acc : Bool × Nat) (s : Slot) => do
      let (eu, pu) ← rdByte r (s.addr + 32 * e.lines + i)
      let evs ← rdBytes r (s.aux + 32 * e.klen + 32 * b) 32
      let poison := if pu ≠ 0 then pu else poisonOf evs
      pure (acc.1 || decide (eu = 255#8) || evs.any (fun x => decide (x.1 = 255#8)), if acc.2 = 0 then poison else acc.2))
    (decide (eb = 255#8), pe)
  pure (if bad then 255#8 else eb, p)

/-- Bytes of a view line's elements, of the elements, and where the scales start (R277). -/
def LEntry.rowBytes (e : LEntry) : Nat := if e.vfmt = 0 then e.klen else 2 * e.klen
def LEntry.sv (e : LEntry) : Nat := (e.lines * e.rowBytes + 255) / 256 * 256
def LEntry.viewLen (e : LEntry) : Nat := e.sv + e.lines * (e.klen / 32)

/-- A byte of the view's range, whether it is the first byte of an element that was clipped, and its poison. -/
def viewByteAt (r : Req) (v : ViewSrc) (off : Nat) : Rd (Byte × Bool × Nat) := do
  let e := v.e
  if off < e.lines * e.rowBytes then
    let i := off / e.rowBytes
    let w := if e.vfmt = 0 then 1 else 2
    let k := off % e.rowBytes / w
    let (x, sat, p) ← viewElem r v i k
    let first := decide (off % w = 0)
    pure ((BitVec.ofInt 16 x >>> (8 * (off % w))).setWidth 8, sat && first, p)
  else if off < e.sv then pure (0#8, false, 0)
  else if off < e.viewLen then
    let n := off - e.sv
    let (s, p) ← viewScale r v (n / (e.klen / 32)) (n % (e.klen / 32))
    pure (s, false, p)
  else fun d => (.ok ((Config.poisonBits d.cycle off).setWidth 8, false, 1), d)

/-- `n` bytes of a snapshot's view from a byte on, counted in its entry. -/
def viewBytes (r : Req) (h : Nat) (e : LEntry) (off n : Nat) : Rd (List (Byte × Nat)) := do
  let v ← viewSrc r h e
  let bs ← (List.range n).mapM (fun i => viewByteAt r v (off + i))
  modify (fun d => d.noteView r.part h (bs.filter (·.2.1)).length false)
  pure (bs.map (fun b => (b.1, b.2.2)))

/-! ### A unit performs the command a group waits for -/

/-- What a unit does with a command when its turn comes: done with results for registers (and, for a tray operation, the
bits of p6 in some lanes), waiting, or a fault. -/
inductive UnitRes where
  | done (d : Dev) (vals : List (RegRef × List (Nat × Word × Nat)))
  | donep (d : Dev) (vals : List (RegRef × List (Nat × Word × Nat))) (m bits : Mask)
  | wait (d : Dev)
  | trap (d : Dev) (t : Trap)

/-- A pop of a tray. -/
def popsRecords : Instr → Bool
  | .trayPopb _ _ _ | .trayPopbSteal _ _ _ _ => true
  | _ => false

/-- Where results of a pop have still to land, behind an earlier result for the same register, the group waits for them (R216 note 6). -/
def Dev.landFirst (d : Dev) (b n : Nat) (regs : List RegRef) : Dev :=
  d.modGroup b n (fun g => if regs.any g.empty then { g with why := .cond (.regs regs) } else g)

/-- The group's instruction is complete: it counts and the group goes on; its results land as R79 lets them (R88, R280,
R296). -/
def Dev.unitDone (d : Dev) (b n op : Nat) (vals : List (RegRef × List (Nat × Word × Nat))) (f : Group → Group) : Dev :=
  let d := d.modGroup b n (fun g =>
    let g := f (g.counted d.cycle)
    let g : Group := { g with cmd := none, why := .ready, readyAt := none, sel := false }
    Group.afterRun g.advance)
  match vals with
  | [] => d.settle
  | (_, l) :: _ =>
    d.answer op b n (BitVec.allOnes 32) (vals.map (·.1)) (l.map (fun x => (x.1, vals.map (fun rv =>
      ((rv.2.find? (fun y => decide (y.1 = x.1))).map (·.2)).getD (0, 0)))))

/-- p6 takes its bits and D's full/empty state (R69, R299). -/
def Group.setP6 (g : Group) (m bits : Mask) (reg : RegRef) : Group :=
  let g := g.setPred 6 m (fun l => bits.getLsbD l)
  if g.empty reg then { g with plink := FMap.set 0 g.plink 6 (regCode reg + 1) } else g

/-- A unit faults the command: precise, at the instruction, whose destination is not marked any more (R280, R296). -/
def Dev.unitTrap (d : Dev) (b n : Nat) (c : UnitCmd) (t : Trap) : Dev :=
  match d.group b n with
  | none => d
  | some g =>
    let d := d.putGroup b n { g.unmark c.op with cmd := none, why := .ready }
    takeTrap d b n (t.info g (opWord c.instr))

/-- The command that a group waits for, once its unit acts on it. -/
def Dev.unitAct (d : Dev) (b n : Nat) (f : Dev → Nat → Nat → Block → UnitCmd → UnitRes) : Dev :=
  match d.blocks[b]?, d.group b n with
  | some k, some g =>
    match g.cmd with
    | none => d
    | some c =>
      if k.running then
        match f d b n k c with
        | .done d vals => d.unitDone b n c.op vals id
        | .donep d vals m bits => (d.unitDone b n c.op vals (fun g => match vals with
            | rv :: _ => g.setP6 m bits rv.1
            | [] => g)).landFirst b n (if popsRecords c.instr then vals.map (·.1) else [])
        | .wait d => d
        | .trap d t => d.unitTrap b n c t
      else d
  | _, _ => d

/-- A command handed to a unit: its destination registers are marked empty and the group waits (R296). -/
def hold (v : View) (i : Instr) (regs : List RegRef) (vals : List (Nat × List Word)) (unis : List Word) : Res :=
  let (op, d) := v.d.newId
  let g := regs.foldl (fun (g : Group) r => g.markEmpty r op) v.g
  .held d g { op := op, instr := i, act := v.act, vals := vals, unis := unis, issued := v.d.cycle, waits := false }

/-! ### The LT instructions: issue -/

/-- The index of the first word of a descriptor that breaks its table. -/
def firstBad (oks : List Bool) : Option Nat := oks.findIdx? (fun b => !b)

def uniList (g : Group) (a : BitVec 7) (n : Nat) : List Word := (List.range n).map (fun i => g.uni (a.toNat + i))
def uword (l : List Word) (i : Nat) : Nat := (nth l i 0).toNat
/-- Bits 31:20 of a high address word are zero. -/
def hiOk (l : List Word) (i : Nat) : Bool := decide (uword l i < 2 ^ 20)
def addr52 (l : List Word) (i : Nat) : Nat := uword l i + 2 ^ 32 * uword l (i + 1)

/-- Table 11-5. -/
def newOk (l : List Word) : List Bool :=
  let bfmt := uword l 0 % 4
  let klen := uword l 6
  [decide (uword l 0 % 256 / 4 = 0 ∧ uword l 0 / 1024 = 0 ∧ uword l 0 / 256 % 4 < 2 ∧ bfmt < 3),
   decide (uword l 1 % 16 = 0), hiOk l 2, true, hiOk l 4,
   decide (1 ≤ uword l 5 ∧ uword l 5 ≤ 2 ^ 24), decide (klen % 32 = 0 ∧ 32 ≤ klen ∧ klen ≤ 2 ^ 24),
   decide (uword l 7 % 16 = 0 ∧ klen / 32 * blockBytes bfmt ≤ uword l 7), decide (klen / 32 ≤ uword l 8),
   decide (uword l 9 % 16 = 0), hiOk l 10,
   decide (addr52 l 9 = 0 → uword l 11 = 0), hiOk l 12 && decide (addr52 l 9 = 0 → uword l 12 = 0),
   decide (uword l 13 = 0), decide (uword l 14 = 0), decide (uword l 15 = 0)]

/-- Table 11-2, as LT.ATT gives a layer (R283). -/
def attOk (l : List Word) : List Bool :=
  let low := decide (uword l 0 % 256 = 1)
  let rank := uword l 0 / 256 % 256
  let alpha := uword l 0 / 65536 % 256
  let al := if low then 32 else 8
  [decide (uword l 0 % 256 < 2) && decide (uword l 0 / 2 ^ 24 = 0) &&
     (if low then decide (1 ≤ rank ∧ rank ≤ 32) else decide (rank = 0 ∧ alpha = 0)),
   if low then decide (uword l 1 = 0) else decide (uword l 1 ≤ 2 ^ 24),
   decide (uword l 2 % al = 0), hiOk l 3,
   if low then decide (uword l 4 % 32 = 0) else decide (uword l 4 = 0),
   if low then hiOk l 5 else decide (uword l 5 = 0),
   decide (uword l 6 = 0), decide (uword l 7 = 0)]

def attSlot (l : List Word) : Slot :=
  let low := decide (uword l 0 % 256 = 1)
  { lowRank := low, rank := uword l 0 / 256 % 256, alpha := (BitVec.ofNat 8 (uword l 0 / 65536)).toInt, count := uword l 1,
    addr := addr52 l 2, aux := addr52 l 4 }

/-- The buffer addresses of LT.FOLD (R285). -/
def foldOk (l : List Word) : List Bool := [decide (uword l 0 % 16 = 0), hiOk l 1, true, hiOk l 3]

/-- Checks 1 and 2 of R280, then the layer unit has the command. -/
def ltIssue (i : Instr) (acc : Access) (blocks : View → List Bool) (changes : Bool) (regs : List RegRef)
    (unis : View → List Word) (s : State) : Out :=
  issue i acc (fun v =>
    match firstBad (blocks v) with
    | some n => .trap (illegal (opWord i) v.act n)
    | none =>
      if changes ∧ v.k.restricted = true then .trap { cause := cREPLAY_VIOLATION, lanes := v.act }
      else hold v i regs [] (unis v)) s

def execLtNew (d a : BitVec 7) (s : State) : Out :=
  ltIssue (.ltNew d a) { reads := us a.toNat 16, var := [.s d.toNat], uni := true } (fun v => newOk (uniList v.g a 16)) true
    [.u d.toNat] (fun v => uniList v.g a 16) s

def execLtFork (d a : BitVec 7) (s : State) : Out :=
  ltIssue (.ltFork d a) { reads := [.s a.toNat], var := [.s d.toNat], uni := true } (fun _ => []) true [.u d.toNat]
    (fun v => [v.g.uni a.toNat]) s

def execLtAtt (auto : Bool) (a b : BitVec 7) (s : State) : Out :=
  ltIssue (.ltAtt auto a b) { reads := .s a.toNat :: us b.toNat 8 } (fun v => attOk (uniList v.g b 8)) true []
    (fun v => v.g.uni a.toNat :: uniList v.g b 8) s

def execLtDet (a b : BitVec 7) (s : State) : Out :=
  ltIssue (.ltDet a b) { reads := [.s a.toNat, .s b.toNat] } (fun _ => []) true []
    (fun v => [v.g.uni a.toNat, v.g.uni b.toNat]) s

def execLtFold (a b : BitVec 7) (s : State) : Out :=
  ltIssue (.ltFold a b) { reads := .s a.toNat :: us b.toNat 4 } (fun v => foldOk (uniList v.g b 4)) true []
    (fun v => v.g.uni a.toNat :: uniList v.g b 4) s

def execLtQry (f : LtQ) (d a : BitVec 7) (s : State) : Out :=
  ltIssue (.ltQry f d a) { reads := [.s a.toNat], var := [.s d.toNat], uni := true } (fun _ => []) false [.u d.toNat]
    (fun v => [v.g.uni a.toNat]) s

/-! ### The LT instructions: performance -/

/-- A value that lands in a uniform. -/
def landUni (d : BitVec 7) (x : Word) : List (RegRef × List (Nat × Word × Nat)) := [(.u d.toNat, [(0, x, 0)])]

/-- A new entry in the lowest free place, GEN one above the last (R281, R282). -/
def Dev.newLayer (d : Dev) (part : Nat) (e : LEntry) : Word × Dev :=
  match (d.part part).freeLayer with
  | none => (0xFFFFFFFF#32, d)
  | some h =>
    let old := (d.part part).layer h
    (BitVec.ofNat 32 h, d.putLayer part h
      { e with live := true, gen := old.gen + 1, fold := 0, badsp := false, satv := 0 })

def entryOf (l : List Word) : LEntry :=
  { LEntry.free with
    bfmt := uword l 0 % 4, vfmt := uword l 0 / 256 % 4, base := addr52 l 1, bscl := addr52 l 3, lines := uword l 5, klen := uword l 6,
    epitch := uword l 7, spitch := uword l 8, spare := addr52 l 9, spscl := addr52 l 11, slots := [] }

/-- A fold starts: its snapshot is taken (R285). -/
def Dev.startFold (d : Dev) (part h : Nat) (buf bscl : Nat) (auto : Bool) (clu : Nat) : Dev :=
  let e := (d.part part).layer h
  let d := d.putLayer part h (if auto then { e with fold := 1, spare := 0, spscl := 0 } else { e with fold := 1 })
  { d with folds := d.folds ++ [{ part := part, h := h, snap := e, buf := buf, bscl := bscl, auto := auto, clu := clu }] }

/-- Two byte ranges meet. -/
def meets (a n b m : Nat) : Bool := decide (a < b + m ∧ b < a + n)

/-- The buffer of a fold overlaps the base arrays (R285). -/
def LEntry.overlaps (e : LEntry) (buf bscl : Nat) : Bool :=
  let packed := e.klen / 32 * blockBytes e.bfmt
  let n := e.lines * e.rowBytes
  let m := e.lines * (e.klen / 32)
  let be := e.epitch * (e.lines - 1) + packed
  let bs := e.spitch * (e.lines - 1) + e.klen / 32
  meets buf n e.base be || meets buf n e.bscl bs || meets bscl m e.base be || meets bscl m e.bscl bs

/-- The entry's layer unit performs an LT instruction (R280 checks 3 and 4, R281-R287). LT.ATT and LT.DET are releases at device scope,
LT.QRY an acquire (R289). -/
def ltPerform (d : Dev) (b n : Nat) (k : Block) (c : UnitCmd) : UnitRes :=
  let h := uword c.unis 0
  let part := k.part
  let live := (d.part part).liveLayer h
  let badHandle (n : Nat) : UnitRes := .trap d { cause := cHANDLE_INVALID, lanes := c.act, info1 := BitVec.ofNat 32 n }
  let full (n : Nat) : UnitRes := .trap d { cause := cLAYER_LIST_FULL, lanes := c.act, info1 := BitVec.ofNat 32 n }
  let overlap : UnitRes := .trap d (illegal (opWord c.instr) c.act 9)
  let clu := clusterOf (k.coreOf n)
  match c.instr with
  | .ltNew r _ =>
    let (x, d) := d.newLayer part (entryOf c.unis)
    .done d (landUni r x)
  | .ltFork r _ => match live with
    | none => badHandle 0
    | some e =>
      let (x, d) := d.newLayer part { e with spare := 0, spscl := 0 }
      .done d (landUni r x)
  | .ltAtt auto _ _ => match live with
    | none => badHandle 0
    | some e =>
      if !d.released b n true then .wait d
      else if e.slots.length < 8 then .done (d.putLayer part h { e with slots := e.slots ++ [attSlot (c.unis.drop 1)] }) []
      else if !auto then full 0
      else if e.fold = 1 then .wait (d.modGroup b n (fun g => { g with cmd := some { c with waits := true } }))
      else if c.waits && decide (e.fold = 2) then full 2
      else if e.spare = 0 then full 0
      else if e.overlaps e.spare e.spscl then overlap
      else
        let d := d.startFold part h e.spare e.spscl true clu
        .wait (d.modGroup b n (fun g => { g with cmd := some { c with waits := true } }))
  | .ltDet _ _ => match live with
    | none => badHandle 0
    | some e =>
      let x := uword c.unis 1
      if x ≠ 0xFFFFFFFF ∧ e.slots.length ≤ x then badHandle 1
      else if e.fold = 1 ∨ d.released b n true = false then .wait d
      else if x = 0xFFFFFFFF then .done (d.putLayer part h { LEntry.free with gen := e.gen }) []
      else .done (d.putLayer part h { e with slots := e.slots.eraseIdx x }) []
  | .ltFold _ _ => match live with
    | none => badHandle 0
    | some e =>
      let buf := addr52 c.unis 1
      let bscl := addr52 c.unis 3
      if e.overlaps buf bscl then overlap
      else if e.fold = 1 then .wait d
      else .done (d.startFold part h buf bscl false clu) []
  | .ltQry f r _ => match live with
    | none => badHandle 0
    | some e =>
      let x : Word := match f with
        | .gen => e.gen
        | .cnt => BitVec.ofNat 32 e.slots.length
        | .fold => BitVec.ofNat 32 (e.fold + if e.badsp then 4 else 0)
      if d.returned b n then .done (d.acquire (k.coreOf n) .dev) (landUni r x) else .wait d
  | _ => .wait d

def isLt : Instr → Bool
  | .ltNew _ _ | .ltFork _ _ | .ltAtt _ _ _ | .ltDet _ _ | .ltFold _ _ | .ltQry _ _ _ => true
  | _ => false

def execLtOpPerformed (blk grp : Nat) (s : State) : Out :=
  event (fun d => d.unitAct blk grp (fun d b n k c => if isLt c.instr then ltPerform d b n k c else .wait d)) s

/-! ### Folds (R285, R286) -/

/-- The fixer writes a snapshot's view, packed, and its scales into the buffer; each clip is counted (R276, R285). -/
def runFold (r : Req) (f : Fold) : Rd Unit := do
  let e := f.snap
  let v ← viewSrc r f.h e
  let wd := if e.vfmt = 0 then 1 else 2
  (List.range e.lines).forM (fun i =>
    (List.range (e.klen / 32)).forM (fun b => do
      (List.range 32).forM (fun j => do
        let (x, sat, p) ← viewElem r v i (32 * b + j)
        if sat then modify (fun d => d.noteView r.part f.h 1 false)
        if p ≠ 0 then throw (.poisonWrite (p - 1) 0)
        let a := f.buf + i * e.rowBytes + (32 * b + j) * wd
        ((bytesLE (BitVec.ofInt 16 x).toNat wd).zipIdx).forM (fun (bi : Byte × Nat) => wrByte r (a + bi.2) bi.1))
      let (sc, p) ← viewScale r v i b
      if p ≠ 0 then throw (.poisonWrite (p - 1) 0)
      wrByte r (f.bscl + i * (e.klen / 32) + b) sc))

/-- A unit of the cache die makes requests on behalf of no block; they are translated by the TLB of the cluster whose instruction it
serves (R375). -/
def unitReq (part clu kind who : Nat) : Req := { part := part, clu := clu, kind := kind, who := 16 * who + kind }

def Dev.dropFold (d : Dev) (part h : Nat) : Dev :=
  { d with folds := d.folds.filter (fun f => !decide (f.part = part ∧ f.h = h)) }

/-- The cache die that homes an entry: its 256 bytes lie in the slices of the partition in turn (log 84). -/
def Part.layerDie (p : Part) (h : Nat) : Nat := nth p.cfg.slices (h % max 1 p.cfg.slices.length) 0 / 512

/-- The fold that its die's fixer runs now: the first started of those whose entries are homed there (R285). -/
def Dev.fixing (d : Dev) (part h : Nat) : Option Fold :=
  let die (part h : Nat) : Nat := (d.part part).layerDie h
  match d.folds.find? (fun f => decide (die f.part f.h = die part h)) with
  | some f => if f.part = part ∧ f.h = h then some f else none
  | none => none

/-- How the fixer's run ends. Where it must wait for a page it begins again, and the clips of this run are not counted. -/
def Dev.runFixer (d : Dev) (f : Fold) : Except Stop Unit × Dev :=
  match (runFold (unitReq f.part f.clu 8 f.h) f).run' d with
  | (.error .later, d') => (.error .later, d'.putLayer f.part f.h
      { (d'.part f.part).layer f.h with satv := ((d.part f.part).layer f.h).satv })
  | x => x

/-- FOLD_SWAP: the buffer is written and the base swapped, one indivisible change. -/
def Dev.foldSwap (d : Dev) (part h : Nat) : Dev :=
  match d.fixing part h with
  | none => d
  | some f =>
    match d.runFixer f with
    | (.ok _, d') =>
      let e := (d'.part part).layer h
      (d'.putLayer part h { e with
        base := f.buf, bscl := f.bscl, bfmt := if e.vfmt = 0 then 0 else 2, epitch := e.rowBytes, spitch := e.klen / 32,
        slots := e.slots.drop f.snap.slots.length, gen := e.gen + 1, fold := 0 }).dropFold part h
    | (.error .later, d') => d'
    | (.error _, _) => d

/-- FOLD_FAIL: a read or a write of the fold fails (R286). -/
def Dev.foldFail (d : Dev) (part h : Nat) : Dev :=
  match d.fixing part h with
  | none => d
  | some f =>
    match d.runFixer f with
    | (.ok _, _) => d
    | (.error .later, d') => d'
    | (.error _, d') =>
      let e := (d'.part part).layer h
      (d'.putLayer part h { e with fold := 2 }).dropFold part h

def execFoldSwap (part : BitVec 3) (h : Nat) (s : State) : Out := event (·.foldSwap part.toNat h) s
def execFoldFail (part : BitVec 3) (h : Nat) (s : State) : Out := event (·.foldFail part.toNat h) s

end Sys2Proof.Machine
end

