-- ==== Sys2Proof/Machine/VecInt.lean ====
section
/-! DEFINITION. VEC: integer, bit, move and predicate instructions (R147-R151). -/

namespace Sys2Proof.Machine

open Sys2Proof

/-- A VEC instruction that writes D in the active lanes from values of each lane (R144). -/
def vecOp (i : Instr) (d : BitVec 7) (srcs : List Opnd) (f : Group → Nat → Word) (s : State) : Out :=
  issueG i { reads := srcs, fixed := [.v d.toNat] } (fun g => .ok (g.setD d.toNat (f g))) s

/-- Two sources. -/
def vec2 (i : Instr) (d : BitVec 7) (a b : Src) (f : Word → Word → Word) (s : State) : Out :=
  vecOp i d [srcOp a, srcOp b] (fun g l => f (g.src a l) (g.src b l)) s

/-- One source and an immediate (R98). -/
def vecI (i : Instr) (d : BitVec 7) (a : Src) (imm : Word) (f : Word → Word → Word) (s : State) : Out :=
  vecOp i d [srcOp a] (fun g l => f (g.src a l) imm) s

/-- One source. -/
def vec1 (i : Instr) (d : BitVec 7) (a : Src) (f : Word → Word) (s : State) : Out :=
  vecOp i d [srcOp a] (fun g l => f (g.src a l)) s

/-- Two sources and the destination's old value. -/
def vec3 (i : Instr) (d : BitVec 7) (a b : Src) (f : Word → Word → Word → Word) (s : State) : Out :=
  vecOp i d [.v d.toNat, srcOp a, srcOp b] (fun g l => f (g.src a l) (g.src b l) (g.src (.v d) l)) s

/-- One source, an immediate and the destination's old value. -/
def vec3I (i : Instr) (d : BitVec 7) (a : Src) (imm : Word) (f : Word → Word → Word → Word) (s : State) : Out :=
  vecOp i d [.v d.toNat, srcOp a] (fun g l => f (g.src a l) imm (g.src (.v d) l)) s

/-- A condition combined into a predicate in the active lanes (R150): .and and .or read it. -/
def predOp (i : Instr) (m : Comb) (p : BitVec 3) (srcs : List Opnd) (c : Group → Nat → Bool) (s : State) : Out :=
  issueG i { reads := (if m = .set then [] else [.p p.toNat]) ++ srcs, fixed := [.p p.toNat] }
    (fun g => .ok (g.setPred p.toNat g.active (fun l => combine m ((g.pred p.toNat).getLsbD l) (c g l)))) s

def execIadd (m : AddMode) (d : BitVec 7) (a b : Src) (s : State) : Out :=
  vec2 (.iadd m d a b) d a b (iaddV m) s
def execIaddImm (m : AddMode) (d : BitVec 7) (a : Src) (i : BitVec 8) (s : State) : Out :=
  vecI (.iaddImm m d a i) d a (sext8 i) (iaddV m) s
def execIsub (m : AddMode) (d : BitVec 7) (a b : Src) (s : State) : Out :=
  vec2 (.isub m d a b) d a b (isubV m) s
def execIsubImm (m : AddMode) (d : BitVec 7) (a : Src) (i : BitVec 8) (s : State) : Out :=
  vecI (.isubImm m d a i) d a (sext8 i) (isubV m) s
def execImul (m : MulMode) (d : BitVec 7) (a b : Src) (s : State) : Out :=
  vec2 (.imul m d a b) d a b (imulV m) s
def execImulImm (m : MulMode) (d : BitVec 7) (a : Src) (i : BitVec 8) (s : State) : Out :=
  vecI (.imulImm m d a i) d a (sext8 i) (imulV m) s
def execImad (sat : Bool) (d : BitVec 7) (a b : Src) (s : State) : Out :=
  vec3 (.imad sat d a b) d a b (imadV sat) s
def execImadImm (sat : Bool) (d : BitVec 7) (a : Src) (i : BitVec 8) (s : State) : Out :=
  vec3I (.imadImm sat d a i) d a (sext8 i) (imadV sat) s
def execImin (n : Bool) (d : BitVec 7) (a b : Src) (s : State) : Out :=
  vec2 (.imin n d a b) d a b (iminV n) s
def execIminImm (n : Bool) (d : BitVec 7) (a : Src) (i : BitVec 8) (s : State) : Out :=
  vecI (.iminImm n d a i) d a (sext8 i) (iminV n) s
def execImax (n : Bool) (d : BitVec 7) (a b : Src) (s : State) : Out :=
  vec2 (.imax n d a b) d a b (imaxV n) s
def execImaxImm (n : Bool) (d : BitVec 7) (a : Src) (i : BitVec 8) (s : State) : Out :=
  vecI (.imaxImm n d a i) d a (sext8 i) (imaxV n) s
def execIabs (sat : Bool) (d : BitVec 7) (a : Src) (s : State) : Out := vec1 (.iabs sat d a) d a (iabsV sat) s
def execIneg (sat : Bool) (d : BitVec 7) (a : Src) (s : State) : Out := vec1 (.ineg sat d a) d a (inegV sat) s
def execAnd (d : BitVec 7) (a b : Src) (s : State) : Out :=
  vec2 (.and d a b) d a b (fun x y => x &&& y) s
def execAndImm (d : BitVec 7) (a : Src) (i : BitVec 8) (s : State) : Out :=
  vecI (.andImm d a i) d a (zext8 i) (fun x y => x &&& y) s
def execOr (d : BitVec 7) (a b : Src) (s : State) : Out :=
  vec2 (.or d a b) d a b (fun x y => x ||| y) s
def execOrImm (d : BitVec 7) (a : Src) (i : BitVec 8) (s : State) : Out :=
  vecI (.orImm d a i) d a (zext8 i) (fun x y => x ||| y) s
def execXor (d : BitVec 7) (a b : Src) (s : State) : Out :=
  vec2 (.xor d a b) d a b (fun x y => x ^^^ y) s
def execXorImm (d : BitVec 7) (a : Src) (i : BitVec 8) (s : State) : Out :=
  vecI (.xorImm d a i) d a (zext8 i) (fun x y => x ^^^ y) s
def execAndn (d : BitVec 7) (a b : Src) (s : State) : Out :=
  vec2 (.andn d a b) d a b (fun x y => x &&& ~~~y) s
def execAndnImm (d : BitVec 7) (a : Src) (i : BitVec 8) (s : State) : Out :=
  vecI (.andnImm d a i) d a (zext8 i) (fun x y => x &&& ~~~y) s
def execShl (d : BitVec 7) (a b : Src) (s : State) : Out :=
  vec2 (.shl d a b) d a b shlV s
def execShlImm (d : BitVec 7) (a : Src) (i : BitVec 8) (s : State) : Out :=
  vecI (.shlImm d a i) d a (sext8 i) shlV s
def execShr (arith : Bool) (d : BitVec 7) (a b : Src) (s : State) : Out :=
  vec2 (.shr arith d a b) d a b (shrV arith) s
def execShrImm (arith : Bool) (d : BitVec 7) (a : Src) (i : BitVec 8) (s : State) : Out :=
  vecI (.shrImm arith d a i) d a (sext8 i) (shrV arith) s
def execRotl (d : BitVec 7) (a b : Src) (s : State) : Out :=
  vec2 (.rotl d a b) d a b rotlV s
def execRotlImm (d : BitVec 7) (a : Src) (i : BitVec 8) (s : State) : Out :=
  vecI (.rotlImm d a i) d a (sext8 i) rotlV s
def execBfx (sg : Bool) (d : BitVec 7) (a b : Src) (s : State) : Out :=
  vec2 (.bfx sg d a b) d a b (bfxV sg) s
def execBfi (d : BitVec 7) (a b : Src) (s : State) : Out := vec3 (.bfi d a b) d a b bfiV s
def execPopc (d : BitVec 7) (a : Src) (s : State) : Out := vec1 (.popc d a) d a popcV s
def execClz (d : BitVec 7) (a : Src) (s : State) : Out := vec1 (.clz d a) d a clzV s
def execBrev (d : BitVec 7) (a : Src) (s : State) : Out := vec1 (.brev d a) d a brevV s
def execLea (sh : BitVec 2) (d : BitVec 7) (a b : Src) (s : State) : Out :=
  vec2 (.lea sh d a b) d a b (leaV sh) s
def execLeaImm (sh : BitVec 2) (d : BitVec 7) (a : Src) (i : BitVec 8) (s : State) : Out :=
  vecI (.leaImm sh d a i) d a (sext8 i) (leaV sh) s

/-- ADD64 (R149): the sum of two 64-bit values goes to D and D+1. -/
def add64Op (i : Instr) (d : BitVec 7) (a : Src) (srcs : List Opnd) (b : Group → Nat → BitVec 64) (s : State) : Out :=
  issueG i { reads := srcs, fixed := vs d 2 }
    (fun g =>
      let lo := fun l => g.src a l
      let hi := fun l => match a with
        | .v n => g.word (g.vreg (n.toNat + 1)) l
        | .s n => g.uni (n.toNat + 1)
      let sum := fun l => pair64 (lo l) (hi l) + b g l
      .ok ((g.setD d.toNat (fun l => lo64 (sum l))).setD (d.toNat + 1) (fun l => hi64 (sum l)))) s

/-- The two registers of a pair. -/
def pairOps : Src → List Opnd
  | .v n => vs n 2
  | .s n => us n.toNat 2

def Group.srcPair (g : Group) (a : Src) (l : Nat) : BitVec 64 :=
  match a with
  | .v n => pair64 (g.word (g.vreg n.toNat) l) (g.word (g.vreg (n.toNat + 1)) l)
  | .s n => g.uniPair n.toNat

def execAdd64 (zx : Bool) (d : BitVec 7) (a b : Src) (s : State) : Out :=
  add64Op (.add64 zx d a b) d a (pairOps a ++ (if zx then [srcOp b] else pairOps b))
    (fun g l => if zx then (g.src b l).zeroExtend 64 else g.srcPair b l) s

def execAdd64Imm (zx : Bool) (d : BitVec 7) (a : Src) (i : BitVec 8) (s : State) : Out :=
  add64Op (.add64Imm zx d a i) d a (pairOps a) (fun _ _ => if zx then i.zeroExtend 64 else i.signExtend 64) s

def execIcmp (m : Comb) (c : ICond) (n : Bool) (p : BitVec 3) (a b : Src) (s : State) : Out :=
  predOp (.icmp m c n p a b) m p [srcOp a, srcOp b] (fun g l => icmpV c n (g.src a l) (g.src b l)) s
def execIcmpImm (m : Comb) (c : ICond) (n : Bool) (p : BitVec 3) (a : Src) (i : BitVec 8) (s : State) : Out :=
  predOp (.icmpImm m c n p a i) m p [srcOp a] (fun g l => icmpV c n (g.src a l) (sext8 i)) s

/-- SEL: a where the predicate is true, b elsewhere (R150). The predicate is looked at after A and B (R78, log 91). -/
def execSel (p : BitVec 3) (d : BitVec 7) (a b : Src) (s : State) : Out :=
  vecOp (.sel p d a b) d [srcOp a, srcOp b, .p p.toNat]
    (fun g l => if (g.pred p.toNat).getLsbD l then g.src a l else g.src b l) s

def execMovi (f : MoviForm) (d : BitVec 7) (i : BitVec 8) (s : State) : Out :=
  vecOp (.movi f d i) d (if MoviForm.readsD f then [.v d.toNat] else []) (fun g l => moviV f i (g.src (.v d) l)) s

def execMov (d : BitVec 7) (a : Src) (s : State) : Out := vec1 (.mov d a) d a (fun x => x) s

def execPtov (p : BitVec 3) (d : BitVec 7) (s : State) : Out :=
  vecOp (.ptov p d) d [.p p.toNat] (fun g l => boolWord ((g.pred p.toNat).getLsbD l)) s

def execVtop (p : BitVec 3) (a : Src) (s : State) : Out :=
  predOp (.vtop p a) .set p [srcOp a] (fun g l => decide (g.src a l ≠ 0)) s

end Sys2Proof.Machine
end

