-- ==== Sys2Proof/Machine/VecFp.lean ====
section
/-! DEFINITION. VEC: floating point, packed, conversions and quantising (R152-R161). -/

namespace Sys2Proof.Machine

open Sys2Proof

/-- The trap of R73: USER_TRAP with bit 31 and the OP in info word 0. -/
def ivTrapOf (i : Instr) (m : Mask) (f : Nat → Flags) : Trap :=
  { cause := cUSER_TRAP, lanes := Mask.ofFn (fun l => m.getLsbD l && (f l).iv),
    info0 := 0x80000000#32 + (opWord i >>> 26) }

/-- An FP instruction that writes D in the active lanes: flags are raised once for the group, or IV traps (R145, R73). -/
def vecFl (i : Instr) (d : BitVec 7) (srcs : List Opnd) (f : Group → Nat → WRes) (s : State) : Out :=
  issueG i { reads := srcs, fixed := [.v d.toNat] }
    (fun g =>
      let fl := flagsOf g.active (fun l => (f g l).fl)
      if g.ivTrap fl then .error (ivTrapOf i g.active (fun l => (f g l).fl))
      else .ok ((g.setD d.toNat (fun l => (f g l).w)).raise fl)) s

def fp2 (i : Instr) (d : BitVec 7) (a b : Src) (f : Word → Word → Word → WRes) (s : State) : Out :=
  vecFl i d [srcOp a, srcOp b] (fun g l => f g.gcr (g.src a l) (g.src b l)) s

def fp3 (i : Instr) (d : BitVec 7) (a b : Src) (f : Word → Word → Word → Word → WRes) (s : State) : Out :=
  vecFl i d [.v d.toNat, srcOp a, srcOp b] (fun g l => f g.gcr (g.src a l) (g.src b l) (g.src (.v d) l)) s

def fp1 (i : Instr) (d : BitVec 7) (a : Src) (f : Word → Word → WRes) (s : State) : Out :=
  vecFl i d [srcOp a] (fun g l => f g.gcr (g.src a l)) s

def execFadd (r : Rnd) (d : BitVec 7) (a b : Src) (s : State) : Out :=
  fp2 (.fadd r d a b) d a b (fun gcr x y => faddV (rndMode r gcr) (gcrFtz gcr) x y) s
def execFsub (r : Rnd) (d : BitVec 7) (a b : Src) (s : State) : Out :=
  fp2 (.fsub r d a b) d a b (fun gcr x y => fsubV (rndMode r gcr) (gcrFtz gcr) x y) s
def execFmul (r : Rnd) (d : BitVec 7) (a b : Src) (s : State) : Out :=
  fp2 (.fmul r d a b) d a b (fun gcr x y => fmulV (rndMode r gcr) (gcrFtz gcr) x y) s
def execFfma (r : Rnd) (d : BitVec 7) (a b : Src) (s : State) : Out :=
  fp3 (.ffma r d a b) d a b (fun gcr x y z => ffmaV (rndMode r gcr) (gcrFtz gcr) x y z) s
def execFfms (r : Rnd) (d : BitVec 7) (a b : Src) (s : State) : Out :=
  fp3 (.ffms r d a b) d a b (fun gcr x y z => ffmsV (rndMode r gcr) (gcrFtz gcr) x y z) s
def execFmin (nan : Bool) (d : BitVec 7) (a b : Src) (s : State) : Out :=
  fp2 (.fmin nan d a b) d a b (fun gcr x y => fminmaxV false nan (gcrFtz gcr) x y) s
def execFmax (nan : Bool) (d : BitVec 7) (a b : Src) (s : State) : Out :=
  fp2 (.fmax nan d a b) d a b (fun gcr x y => fminmaxV true nan (gcrFtz gcr) x y) s

/-- FCMP (R154): the condition is combined into the predicate; only a signalling NaN sets IV. -/
def execFcmp (m : Comb) (c : FCond) (p : BitVec 3) (a b : Src) (s : State) : Out :=
  let i : Instr := .fcmp m c p a b
  issueG i { reads := (if m = .set then [] else [.p p.toNat]) ++ [srcOp a, srcOp b], fixed := [.p p.toNat] }
    (fun g =>
      let f := fun l => fcmpV c (gcrFtz g.gcr) (g.src a l) (g.src b l)
      let fl := fun l => (⟨false, false, (f l).2, false⟩ : Flags)
      if g.ivTrap (flagsOf g.active fl) then .error (ivTrapOf i g.active fl)
      else .ok ((g.setPred p.toNat g.active (fun l => combine m ((g.pred p.toNat).getLsbD l) (f l).1)).raise
        (flagsOf g.active fl))) s

def execFuna (f : FunaOp) (d : BitVec 7) (a : Src) (s : State) : Out :=
  fp1 (.funa f d a) d a (fun gcr x => funaV f (gcrFtz gcr) x) s
def execFrcp (d : BitVec 7) (a : Src) (s : State) : Out :=
  fp1 (.frcp d a) d a (fun gcr x => frcpV (gcrFtz gcr) x) s
def execFrsq (d : BitVec 7) (a : Src) (s : State) : Out :=
  fp1 (.frsq d a) d a (fun gcr x => frsqV (gcrFtz gcr) x) s
def execFex2 (d : BitVec 7) (a : Src) (s : State) : Out :=
  fp1 (.fex2 d a) d a (fun gcr x => fex2V (gcrFtz gcr) x) s
def execFlg2 (d : BitVec 7) (a : Src) (s : State) : Out :=
  fp1 (.flg2 d a) d a (fun gcr x => flg2V (gcrFtz gcr) x) s
def execFsinr (d : BitVec 7) (a : Src) (s : State) : Out :=
  fp1 (.fsinr d a) d a (fun gcr x => ftrigV false (gcrFtz gcr) x) s
def execFcosr (d : BitVec 7) (a : Src) (s : State) : Out :=
  fp1 (.fcosr d a) d a (fun gcr x => ftrigV true (gcrFtz gcr) x) s

/-- FSQRT (R152): D is marked empty and the results land later; the flags are the group's when it completes (R76). GCR is
read at issue. -/
def execFsqrt (r : Rnd) (d : BitVec 7) (a : Src) (s : State) : Out :=
  let i : Instr := .fsqrt r d a
  issue i { reads := [srcOp a], var := [.v d.toNat] }
    (fun v =>
      let g := v.g
      let f := fun l => fsqrtV (rndMode r g.gcr) (gcrFtz g.gcr) (g.src a l)
      let fl := flagsOf g.active (fun l => (f l).fl)
      if g.ivTrap fl then .trap (ivTrapOf i g.active (fun l => (f l).fl))
      else
        let (op, dv) := v.d.newId
        let reg := g.vreg d.toNat
        .done { dv with cmds := dv.cmds ++ [{ op := op, blk := v.b, grp := v.n, act := g.active, regs := [reg],
                                              kind := .fsqrt (g.active.lanes.map (fun l => (l, (f l).w))) fl }] }
          (g.markEmpty reg op)) s

/-- FSQRT_COMPLETE (R152): the results land in D and the flags are raised. -/
def execFsqrtComplete (op : Nat) (s : State) : Out :=
  event (fun d =>
    match d.cmds.find? (fun c => decide (c.op = op)) with
    | some ⟨_, b, n, _, [r], .fsqrt vals fl⟩ =>
      match d.group b n with
      | none => { d with cmds := d.cmds.filter (fun c => decide (c.op ≠ op)) }
      | some g =>
        if g.mayLand op r then
          (({ d with cmds := d.cmds.filter (fun c => decide (c.op ≠ op)) } : Dev).putGroup b n
            ((g.land op r (vals.map (fun x => (x.1, x.2, 0)))).raise fl)).settle
        else d
    | _ => d) s

def execPadd2 (t : HFmt) (d : BitVec 7) (a b : Src) (s : State) : Out :=
  fp2 (.padd2 t d a b) d a b (fun _ x y => padd2V (HFmt.fmt t) x y) s
def execPmul2 (t : HFmt) (d : BitVec 7) (a b : Src) (s : State) : Out :=
  fp2 (.pmul2 t d a b) d a b (fun _ x y => pmul2V (HFmt.fmt t) x y) s
def execPfma2 (t : HFmt) (d : BitVec 7) (a b : Src) (s : State) : Out :=
  fp3 (.pfma2 t d a b) d a b (fun _ x y z => pfma2V (HFmt.fmt t) x y z) s
def execPminmax2 (max : Bool) (t : HFmt) (d : BitVec 7) (a b : Src) (s : State) : Out :=
  fp2 (.pminmax2 max t d a b) d a b (fun _ x y => pminmax2V max (HFmt.fmt t) x y) s
def execCvt (sat : Bool) (r : Rnd) (d : BitVec 7) (a : Src) (c : CvtForm) (s : State) : Out :=
  fp1 (.cvt sat r d a c) d a (fun gcr x => cvtV sat (rndMode r gcr) (gcrFtz gcr) c x) s
def execCvtp (t : HFmt) (d : BitVec 7) (a b : Src) (s : State) : Out :=
  fp2 (.cvtp t d a b) d a b (fun gcr x y => cvtpV (HFmt.fmt t) (gcrFtz gcr) x y) s

def QForm.w : QForm → Nat
  | .q8 => 6
  | .q8grain => 6
  | .q4 => 2
  | .q4grain => 2
def QForm.qmax : QForm → Nat
  | .q8 => 127
  | .q8grain => 127
  | .q4 => 7
  | .q4grain => 7
def QForm.grain : QForm → Bool
  | .q8grain => true
  | .q4grain => true
  | _ => false

/-- The block QNT quantises: the live lanes' words, +0 elsewhere (R160). -/
def qntBlock (f : QForm) (g : Group) (a : BitVec 7) : QBlock :=
  quantise (QForm.w f) (QForm.qmax f) (if QForm.grain f then .grain (gcrDph g.gcr) else .rne)
    (Sys2Proof.lanes.map (fun l => if g.live.getLsbD l then f32.read (g.src (.v a) l).toNat else .zero false))

/-- QNT (R160): elements to D in the live lanes, the scale to the uniform, and the grain phase advances. -/
def execQnt (f : QForm) (d a b : BitVec 7) (s : State) : Out :=
  let i : Instr := .qnt f d a b
  issueG i { reads := [.v a.toNat], fixed := [.v d.toNat, .s b.toNat], uni := true }
    (fun g =>
      let q := qntBlock f g a
      let fl : Flags := ⟨false, false, q.iv, decide (q.clamped ≠ 0)⟩
      if g.ivTrap fl then
        .error { cause := cUSER_TRAP, info0 := 0x80000000#32 + (opWord i >>> 26),
                 lanes := Mask.ofFn (fun l => g.active.getLsbD l && (match f32.read (g.src (.v a) l).toNat with
                   | .nan _ => true
                   | .inf _ => true
                   | _ => false)) }
      else
        let g1 := (g.setD d.toNat (fun l => BitVec.ofInt 32 (nth q.q l 0))).setUni b.toNat (BitVec.ofNat 32 q.e)
        let g2 := g1.raise fl
        .ok (if QForm.grain f then { g2 with gcr := gcrStepDph g2.gcr } else g2)) s

def execDqnt (f : DqForm) (d a b : BitVec 7) (s : State) : Out :=
  vecFl (.dqnt f d a b) d [.v a.toNat, .s b.toNat]
    (fun g l => dqntV f (gcrFtz g.gcr) (g.src (.v a) l) (g.uni b.toNat)) s

end Sys2Proof.Machine
end

