-- ==== Sys2Proof/Machine/VecLane.lean ====
section
/-! DEFINITION. VEC: cross-lane instructions (R162-R169). A lane that is not active is read without a poison check (R81). -/

namespace Sys2Proof.Machine

open Sys2Proof

/-- SHFL (R163): the source lane's word and p6, or the lane's own word and p6 false. -/
def shflOp (i : Instr) (m : ShflMode) (d a : BitVec 7) (srcs : List Opnd) (b : Group → Nat → Word) (s : State) : Out :=
  issueG i { reads := .v a.toNat :: srcs, fixed := [.v d.toNat, .p 6] }
    (fun g =>
      let k := fun l => shflSrc m l (b g l)
      let ok := fun l => decide (0 ≤ k l ∧ k l ≤ 31) && g.live.getLsbD (k l).toNat
      .ok ((g.setD d.toNat (fun l => g.src (.v a) (if ok l then (k l).toNat else l))).setPred 6 g.active ok)) s

def execShfl (m : ShflMode) (d a : BitVec 7) (b : Src) (s : State) : Out :=
  shflOp (.shfl m d a b) m d a [srcOp b] (fun g l => g.src b l) s
def execShflImm (m : ShflMode) (d a : BitVec 7) (i : BitVec 8) (s : State) : Out :=
  shflOp (.shflImm m d a i) m d a [] (fun _ _ => sext8 i) s

def KCount.n : KCount → Nat
  | .k1 => 1
  | .k2 => 2
  | .k4 => 4
  | .k8 => 8

/-- XGATH (R164): a word of k registers, whatever the state of the lane that holds it. -/
def execXgath (k : KCount) (d a : BitVec 7) (b : Src) (s : State) : Out :=
  vecOp (.xgath k d a b) d (vs a (KCount.n k) ++ [srcOp b])
    (fun g l =>
      let w := (g.src b l).toNat % (32 * KCount.n k)
      g.word (g.vreg (a.toNat + w / 32)) (w % 32)) s

/-- QX (R165). -/
def execQx (f : QxOp) (d a : BitVec 7) (s : State) : Out :=
  vecFl (.qx f d a) d [.v a.toNat]
    (fun g l =>
      let x := fun m => g.src (.v a) m
      let sub := fun p q => fsubV (rndMode .gcr g.gcr) (gcrFtz g.gcr) p q
      match f with
      | .h => ⟨x (l ^^^ 1), Flags.none⟩
      | .v => ⟨x (l ^^^ 2), Flags.none⟩
      | .d => ⟨x (l ^^^ 3), Flags.none⟩
      | .ddx => sub (x (l ||| 1)) (x (l / 2 * 2))
      | .ddy => sub (x (l ||| 2)) (x ((l ||| 2) - 2))) s

/-- The member check of R162. -/
def memberCheck (g : Group) (m : Word) : Option Trap :=
  if g.active &&& ~~~m = 0#32 then none
  else some { cause := cMEMBER_SELF, lanes := g.active &&& ~~~m, info0 := g.active &&& ~~~m }

/-- The lanes that contribute: members that are live (R162). -/
def members (g : Group) (m : Word) : Mask := m &&& g.live

/-- An instruction over the members of a mask in uniform `b`. -/
def memberOp (i : Instr) (acc : Access) (b : BitVec 7) (f : Group → Mask → Except Trap Group) (s : State) : Out :=
  issueG i acc
    (fun g => match memberCheck g (g.uni b.toNat) with
      | some t => .error t
      | none => f g (members g (g.uni b.toNat))) s

/-- VOTE.any and VOTE.all (R166). -/
def execVoteAnyAll (all : Bool) (p q : BitVec 3) (b : BitVec 7) (s : State) : Out :=
  memberOp (.voteAnyAll all p q b) { reads := [.p q.toNat, .s b.toNat], fixed := [.p p.toNat] } b
    (fun g m =>
      let r := if all then decide (m &&& ~~~(g.pred q.toNat) = 0#32) else decide (m &&& g.pred q.toNat ≠ 0#32)
      .ok (g.setPred p.toNat g.active (fun _ => r))) s

def execVoteBallot (d : BitVec 7) (q : BitVec 3) (b : BitVec 7) (s : State) : Out :=
  memberOp (.voteBallot d q b) { reads := [.p q.toNat, .s b.toNat], fixed := [.v d.toNat] } b
    (fun g m => .ok (g.setD d.toNat (fun _ => m &&& g.pred q.toNat))) s

/-- VOTE.eq: true when all contributing members hold one word, and when none contributes (R166). -/
def execVoteEq (p : BitVec 3) (a b : BitVec 7) (s : State) : Out :=
  memberOp (.voteEq p a b) { reads := [.v a.toNat, .s b.toNat], fixed := [.p p.toNat] } b
    (fun g m =>
      let r := m.lanes.all (fun l => decide (g.src (.v a) l = g.src (.v a) (Mask.lowest m)))
      .ok (g.setPred p.toNat g.active (fun _ => r))) s

/-- The active lanes whose key equals a lane's (R167). -/
def matchMask (g : Group) (a : BitVec 7) (l : Nat) : Mask :=
  Mask.ofFn (fun k => g.active.getLsbD k && decide (g.src (.v a) k = g.src (.v a) l))

def execMatchLanes (d a : BitVec 7) (s : State) : Out :=
  vecOp (.matchLanes d a) d [.v a.toNat] (fun g l => matchMask g a l) s

def execMatchCount (d a b : BitVec 7) (s : State) : Out :=
  issueG (.matchCount d a b) { reads := [.v a.toNat], fixed := [.v d.toNat, .s b.toNat], uni := true }
    (fun g => .ok ((g.setD d.toNat (matchMask g a)).setUni b.toNat
      (BitVec.ofNat 32 (distinct (g.active.lanes.map (g.src (.v a)))).length))) s

/-- GRED (R168): the reduction goes to a uniform; an IVT trap names every active lane (log 92). -/
def execGred (f : GredOp) (d a b : BitVec 7) (s : State) : Out :=
  let i : Instr := .gred f d a b
  memberOp i { reads := [.v a.toNat, .s b.toNat], fixed := [.s d.toNat], uni := true } b
    (fun g m =>
      let r := gredV f (gcrFtz g.gcr) (Sys2Proof.lanes.map (fun l => if m.getLsbD l then g.src (.v a) l else gredIdentity f))
      if g.ivTrap r.fl then .error (ivTrapOf i g.active (fun _ => r.fl))
      else .ok ((g.setUni d.toNat r.w).raise r.fl)) s

/-- SCAN (R169): the prefix of each active lane; an IVT trap names every active lane (log 92). -/
def execScan (excl : Bool) (m : ScanOp) (d a b : BitVec 7) (s : State) : Out :=
  let i : Instr := .scan excl m d a b
  memberOp i { reads := [.v a.toNat, .s b.toNat], fixed := [.v d.toNat] } b
    (fun g mem =>
      let r := scanV m (gcrFtz g.gcr) excl (fun l => mem.getLsbD l) (g.src (.v a))
      if g.ivTrap r.2 then .error (ivTrapOf i g.active (fun _ => r.2))
      else .ok ((g.setD d.toNat (fun l => nth r.1 l 0)).raise r.2)) s

end Sys2Proof.Machine
end

