-- ==== Sys2Proof/Machine/Uni.lean ====
section
/-! DEFINITION. UNI: uniform arithmetic, moves, SRD, SCTL, SFLG, JGET, and the uniform loads and stores (R146, R170-R176). -/

namespace Sys2Proof.Machine

open Sys2Proof

/-- A UNI instruction that writes one uniform. -/
def uniOp (i : Instr) (d : BitVec 8) (srcs : List Opnd) (f : Group → Word) (s : State) : Out :=
  issueG i { reads := srcs, fixed := [.s d.toNat], uni := true } (fun g => .ok (g.setUni d.toNat (f g))) s

def uni2 (i : Instr) (d : BitVec 8) (a b : USrc) (f : Word → Word → Word) (s : State) : Out :=
  uniOp i d (usrcOps a ++ usrcOps b) (fun g => f (g.usrc a) (g.usrc b)) s

def execSadd (d : BitVec 8) (a b : USrc) (s : State) : Out := uni2 (.sadd d a b) d a b (fun x y => x + y) s
def execSsub (d : BitVec 8) (a b : USrc) (s : State) : Out := uni2 (.ssub d a b) d a b (fun x y => x - y) s
def execSand (d : BitVec 8) (a b : USrc) (s : State) : Out := uni2 (.sand d a b) d a b (fun x y => x &&& y) s
def execSor (d : BitVec 8) (a b : USrc) (s : State) : Out := uni2 (.sor d a b) d a b (fun x y => x ||| y) s
def execSxor (d : BitVec 8) (a b : USrc) (s : State) : Out := uni2 (.sxor d a b) d a b (fun x y => x ^^^ y) s
def execSshl (d : BitVec 8) (a b : USrc) (s : State) : Out := uni2 (.sshl d a b) d a b shlV s
def execSmul (f : MulMode) (d : BitVec 8) (a b : USrc) (s : State) : Out := uni2 (.smul f d a b) d a b (imulV f) s
def execSmad (d : BitVec 8) (a b : USrc) (s : State) : Out :=
  uniOp (.smad d a b) d (.s d.toNat :: (usrcOps a ++ usrcOps b)) (fun g => g.uni d.toNat + g.usrc a * g.usrc b) s
def execSshr (arith : Bool) (d : BitVec 8) (a b : USrc) (s : State) : Out :=
  uni2 (.sshr arith d a b) d a b (shrV arith) s
def execSminmax (n max : Bool) (d : BitVec 8) (a b : USrc) (s : State) : Out :=
  uni2 (.sminmax n max d a b) d a b (sminmaxV n max) s
def execScmp (c : SCond) (d : BitVec 8) (a b : USrc) (s : State) : Out := uni2 (.scmp c d a b) d a b (scmpV c) s
def execScmpn (c : SCondN) (d : BitVec 8) (a b : USrc) (s : State) : Out := uni2 (.scmpn c d a b) d a b (scmpnV c) s
def execSaddi (d : BitVec 8) (a : USrc) (i : BitVec 8) (s : State) : Out :=
  uniOp (.saddi d a i) d (usrcOps a) (fun g => g.usrc a + sext8 i) s
def execSmovi (sg : Bool) (d : BitVec 8) (i : BitVec 8) (s : State) : Out :=
  uniOp (.smovi sg d i) d [] (fun _ => if sg then sext8 i else zext8 i) s
def execSmovb3 (f : SmovbForm) (d : BitVec 8) (i : BitVec 8) (s : State) : Out :=
  uniOp (.smovb3 f d i) d [.s d.toNat] (fun g => smovbV f i (g.uni d.toNat)) s
def execSmov (d : BitVec 8) (a : USrc) (s : State) : Out := uniOp (.smov d a) d (usrcOps a) (fun g => g.usrc a) s

/-- V2S and V2S.chk (R171). -/
def execV2s (chk : Bool) (d : BitVec 8) (a : BitVec 7) (s : State) : Out :=
  issueG (.v2s chk d a) { reads := [.v a.toNat], fixed := [.s d.toNat], uni := true, which := if chk then .all else .lowest }
    (fun g =>
      let x := g.src (.v a) (Mask.lowest g.active)
      let differ : Mask := Mask.ofFn (fun l => g.active.getLsbD l && decide (g.src (.v a) l ≠ x))
      if chk && decide (differ ≠ 0#32) then .error { cause := cNONUNIFORM, lanes := differ, info0 := differ }
      else .ok (g.setUni d.toNat x)) s

def execV2sLane (d : BitVec 8) (a : BitVec 7) (l : BitVec 5) (s : State) : Out :=
  issueG (.v2sLane d a l) { reads := [.v a.toNat], fixed := [.s d.toNat], uni := true, which := .lane l.toNat }
    (fun g => .ok (g.setUni d.toNat (g.src (.v a) l.toNat))) s

/-- The value SRD reads (R104, R172). -/
def srdValue (v : View) (code : Nat) : Word :=
  let g := v.g
  let k := v.k
  match code with
  | 0x00 => BitVec.ofNat 32 (Mask.count g.live)
  | 0x01 => BitVec.ofNat 32 g.idx
  | 0x02 => BitVec.ofNat 32 g.role
  | 0x03 => BitVec.ofNat 32 (k.lrec.role g.role).ngrp
  | 0x04 => BitVec.ofNat 32 k.x
  | 0x05 => BitVec.ofNat 32 k.y
  | 0x06 => BitVec.ofNat 32 k.z
  | 0x07 => BitVec.ofNat 32 k.lrec.extx
  | 0x08 => BitVec.ofNat 32 k.lrec.exty
  | 0x09 => BitVec.ofNat 32 k.lrec.extz
  | 0x0A => BitVec.ofNat 32 v.core
  | 0x0B => BitVec.ofNat 32 (clusterOf v.core)
  | 0x0C => BitVec.ofNat 32 (dieOf (clusterOf v.core))
  | 0x0D => BitVec.ofNat 32 v.d.cycle
  | 0x0E => match g.clk with
    | some w => w
    | none => BitVec.ofNat 32 (v.d.cycle / 2 ^ 32)
  | 0x0F => g.live
  | 0x10 => g.live
  | 0x11 => 1
  | 0x12 => g.gfl
  | 0x13 => g.gcr
  | 0x14 => match v.d.launches[k.launch]? with
    | some l => l.seq
    | none => 0
  | _ => BitVec.ofNat 32 k.part

/-- SRD (R172): code 0x0D latches the high word of the counter for a following code 0x0E. -/
def execSrd (d : BitVec 8) (c : BitVec 8) (s : State) : Out :=
  issue (.srd d c) { fixed := [.s d.toNat], uni := true }
    (fun v => .done v.d { v.g.setUni d.toNat (srdValue v c.toNat) with
      clk := if c = 0x0D#8 then some (BitVec.ofNat 32 (v.d.cycle / 2 ^ 32)) else none }) s

def execSctl (a : USrc) (s : State) : Out :=
  issueG (.sctl a) { reads := usrcOps a, uni := true } (fun g => .ok { g with gcr := gcrWrite (g.usrc a) }) s

def execSflg (a : USrc) (s : State) : Out :=
  issueG (.sflg a) { reads := usrcOps a, uni := true } (fun g => .ok { g with gfl := g.gfl &&& ~~~(g.usrc a) }) s

def execJget (d : BitVec 8) (j : BitVec 4) (s : State) : Out :=
  issueG (.jget d j) { fixed := us d.toNat 2, uni := true }
    (fun g => .ok ((g.setUni d.toNat (FMap.get 0#32 g.jE j.toNat)).setUni (d.toNat + 1) (FMap.get 0#32 g.jA j.toNat))) s

end Sys2Proof.Machine
end

