-- ==== Sys2Proof/Machine/Mem.lean ====
section
/-! DEFINITION. MEM instructions and the uniform loads and stores: LD, ST, LDLN, AT, CAS, FENCE, PBAR (R222-R231), SLD and
SST (R175), with the completions of scratch accesses. -/

namespace Sys2Proof.Machine

open Sys2Proof

/-- A lane's effective address (R222). -/
def ea (g : Group) (a : Src) (o : BitVec 8) (u l : Nat) : Nat := (g.src a l + BitVec.ofNat 32 (o.toNat * u)).toNat

/-- The first failing check of R223 items 2 to 4 over the active lanes: alignment, bounds, replay. -/
def memFault (v : View) (lvl : Lvl) (m : Mask) (addr : Nat → Nat) (align n : Nat) (writes : Bool) : Option Trap :=
  let sp := fun l => v.k.space v.b v.n lvl l
  let mis : Mask := Mask.ofFn (fun l => m.getLsbD l && decide (addr l % align ≠ 0))
  let out : Mask := Mask.ofFn (fun l => m.getLsbD l && !(v.d.rangeOk (sp l) (addr l) n))
  let bar : Mask := Mask.ofFn (fun l => m.getLsbD l && writes && v.k.replayBars (sp l) (addr l) n)
  let t := fun (c : Nat) (f : Mask) => some ({ cause := c, lanes := f, info0 := BitVec.ofNat 32 (addr (Mask.lowest f)),
                                               info1 := BitVec.ofNat 32 (lvlCode lvl) } : Trap)
  if mis ≠ 0#32 then t cMISALIGNED mis
  else if out ≠ 0#32 then t cSCRATCH_BOUNDS out
  else if bar ≠ 0#32 then t cREPLAY_VIOLATION bar
  else none

/-- The poison that a load of a core would meet in a word now: in the cache where the sector is present, else in what the
core sees of the home. -/
def View.wordPoison (v : View) (s : Space) (a : Nat) : Nat :=
  match (v.d.core v.core).l1.find? (·.is s (a / 64)) with
  | some y => if s.cached then (nth y.words (a % 64 / 4) (0, 0)).2 else (v.d.seenWord v.core v.b v.n v.d.nextId s a).2
  | none => (v.d.seenWord v.core v.b v.n v.d.nextId s a).2

/-- The words of a range that exist. -/
def View.rangeWords (v : View) (s : Space) (a n : Nat) : List Nat :=
  ((List.range (n / 4 + 2)).map (fun i => a / 4 * 4 + 4 * i)).filter (fun w => decide (w < a + n) && v.d.inSpace s w)

/-- What an access reads through memory: registers behind windows and poison (R64, R81). -/
def memExtra (v : View) (acc : List (Space × Nat × Nat)) (windows : Bool) : Extra :=
  let words := acc.flatMap (fun x => (v.rangeWords x.1 x.2.1 x.2.2).map (fun w => (x.1, w)))
  { win := if windows then (words.filter (fun x => isWin x.1 x.2)).map (fun x => ((winReg x.2).1, .v (winReg x.2).2.1)) else [],
    poison := ((words.map (fun x => v.wordPoison x.1 x.2)).find? (fun p => decide (p ≠ 0))).getD 0 }

/-- The registers a load fills or a store reads. -/
def MemSize.regs : MemSize → Nat
  | .dw => 2
  | .qw => 4
  | _ => 1

/-- Issuing a load, or blocking while the miss-status entries are too few (R205). -/
def startLoad (v : View) (x : PLoad) : Res :=
  let n := (v.d.newMisses v.core x).length
  if 256 < (v.d.core v.core).miss.length + n then .wait (.misses n)
  else
    let (op, d) := v.d.newId
    let (d, g) := d.issueLoad v.g { x with op := op }
    .done d g

def View.load (v : View) (lanes : List (Nat × Space × Nat)) (line : Bool) (size : MemSize) (regs : List RegRef) : PLoad :=
  { op := 0, core := v.core, blk := v.b, grp := v.n, lanes := lanes, line := line, size := size, regs := regs,
    left := List.range regs.length, need := [], got := [], vals := none }

/-- LD (R224). -/
def execLd (l : Lvl) (sz : MemSize) (d : BitVec 7) (a : Src) (o : BitVec 8) (s : State) : Out :=
  let n := sizeBytes sz
  let k := MemSize.regs sz
  issueX (.ld l sz d a o) { reads := [srcOp a], var := vs d k }
    (fun v => memExtra v (v.act.lanes.map (fun x => (v.k.space v.b v.n l x, ea v.g a o n x, n))) true)
    (fun v => match memFault v l v.act (ea v.g a o n) n n false with
      | some t => .trap t
      | none => startLoad v (v.load (v.act.lanes.map (fun x => (x, v.k.space v.b v.n l x, ea v.g a o n x))) false sz
          ((List.range k).map (fun i => v.g.vreg (d.toNat + i))))) s

/-- The bytes a lane stores (R224): data registers in ascending order, low bytes first. -/
def storeBytes (g : Group) (sz : MemSize) (d l addr : Nat) : List (Nat × Byte) :=
  ((List.range (MemSize.regs sz)).flatMap (fun i =>
    wordBytes (addr + 4 * i) (g.word (g.vreg (d + i)) l))).take (sizeBytes sz)

/-- Lanes whose stores, atomics and pushes are performed: helper lanes' are not (R332). -/
def View.doers (v : View) : List Nat := (v.act &&& ~~~v.g.helper : Mask).lanes

/-- ST (R224, R225). -/
def execSt (l : Lvl) (sz : MemSize) (d : BitVec 7) (a : Src) (o : BitVec 8) (s : State) : Out :=
  let n := sizeBytes sz
  issue (.st l sz d a o) { reads := vs d (MemSize.regs sz) ++ [srcOp a] }
    (fun v => match memFault v l v.act (ea v.g a o n) n n true with
      | some t => .trap t
      | none =>
        let d' := (v.d.putGroup v.b v.n v.g).issueStores v.core v.b v.n (v.doers.map (fun x =>
          (x, v.k.space v.b v.n l x, storeBytes v.g sz d.toNat x (ea v.g a o n x))))
        .done d' ((d'.group v.b v.n).getD v.g)) s

/-- LDLN (R226): a vector A must give one address. -/
def execLdln (l : Lvl3) (k : KCount) (d : BitVec 7) (a : Src) (o : BitVec 8) (s : State) : Out :=
  let n := KCount.n k
  let lv := lvl3 l
  issueX (.ldln l k d a o) { reads := [srcOp a], var := vs d n }
    (fun v => memExtra v ((List.range n).flatMap (fun j => v.act.lanes.map (fun x =>
      (v.k.space v.b v.n lv 0, ea v.g a o 128 (Mask.lowest v.act) + 128 * j + 4 * x, 4)))) true)
    (fun v =>
      let base := ea v.g a o 128 (Mask.lowest v.act)
      let differ : Mask := Mask.ofFn (fun x => v.act.getLsbD x && decide (ea v.g a o 128 x ≠ base))
      if differ ≠ 0#32 then
        .trap { cause := cNONUNIFORM, lanes := differ, info0 := BitVec.ofNat 32 (ea v.g a o 128 (Mask.lowest differ)),
                info1 := BitVec.ofNat 32 (lvlCode lv) }
      else match memFault v lv v.act (fun _ => base) 128 (128 * n) false with
        | some t => .trap t
        | none => startLoad v (v.load (v.act.lanes.map (fun x => (x, v.k.space v.b v.n lv x, base + 4 * x))) true .w
            ((List.range n).map (fun i => v.g.vreg (d.toNat + i))))) s

/-- Atomics of the doing lanes: D is marked empty and takes the old values; a helper lane's takes 0 (R227, R332). -/
def startAtoms (v : View) (lv : Lvl) (d : Nat) (addr : Nat → Nat) (what : Nat → AtomOp) : Res :=
  let (op, dv) := v.d.newId
  let reg := v.g.vreg d
  let g := v.g.markEmpty reg op
  let idle := (v.act &&& v.g.helper : Mask).lanes
  let dv := (dv.putGroup v.b v.n g).issueAtoms v.core v.b v.n op (some reg)
    (v.doers.map (fun x => (x, v.k.space v.b v.n lv x, addr x, what x)))
  let dv := dv.answer op v.b v.n v.act [reg] (idle.map (fun x => (x, [((0 : Word), 0)])))
  .done dv ((dv.group v.b v.n).getD g)

/-- AT (R227). -/
def execAtm (l : Lvl3) (f : AtOp) (d : BitVec 7) (a : Src) (o : BitVec 8) (s : State) : Out :=
  let lv := lvl3 l
  issueX (.atm l f d a o) { reads := [.v d.toNat, srcOp a], var := [.v d.toNat] }
    (fun v => memExtra v (v.act.lanes.map (fun x => (v.k.space v.b v.n lv x, ea v.g a o 4 x, 4))) false)
    (fun v => match memFault v lv v.act (ea v.g a o 4) 4 4 true with
      | some t => .trap t
      | none => startAtoms v lv d.toNat (ea v.g a o 4) (fun x => .at f (v.g.src (.v d) x))) s

/-- CAS (R228). -/
def execCas (l : Lvl3) (d : BitVec 7) (a : Src) (o : BitVec 8) (s : State) : Out :=
  let lv := lvl3 l
  issueX (.cas l d a o) { reads := vs d 2 ++ [srcOp a], var := [.v d.toNat] }
    (fun v => memExtra v (v.act.lanes.map (fun x => (v.k.space v.b v.n lv x, ea v.g a o 4 x, 4))) false)
    (fun v => match memFault v lv v.act (ea v.g a o 4) 4 4 true with
      | some t => .trap t
      | none => startAtoms v lv d.toNat (ea v.g a o 4)
          (fun x => .cas (v.g.src (.v d) x) (v.g.word (v.g.vreg (d.toNat + 1)) x))) s

/-- What a fence waits for: a release for what R212 lists, an acquire for the values that the group's earlier accesses return (R214,
log 83). -/
def Dev.fenced (d : Dev) (b n : Nat) (sc : Scope) (k : FKind) : Bool :=
  if k = .acq then d.returned b n else d.released b n (decide (sc ≠ .grp))

/-- FENCE (R229): an acquire drops copies (R213). -/
def execFence (sc : Scope) (k : FKind) (s : State) : Out :=
  issue (.fence sc k) {}
    (fun v =>
      if v.d.fenced v.b v.n sc k = false then .wait (.fence sc k)
      else .done (if k = .rel then v.d else v.d.acquire v.core sc) v.g) s

/-! ### Phase-bit barriers (R230, R231) -/

/-- The address of a barrier word. -/
def pbarAddr (g : Group) (a : BitVec 7) (o : BitVec 8) : Nat := ea g (.s a) o 4 0

/-- The checks of a barrier instruction: a register window is out of bounds (R231). -/
def pbarFault (v : View) (l : Lvl2) (addr : Nat) : Option Trap :=
  let lv := lvl2 l
  match memFault v lv v.act (fun _ => addr) 4 4 false with
  | some t => some t
  | none =>
    if isWin (v.k.space v.b v.n lv 0) addr then
      some { cause := cSCRATCH_BOUNDS, lanes := v.act, info0 := BitVec.ofNat 32 addr, info1 := BitVec.ofNat 32 (lvlCode lv) }
    else none

def pbarExtra (v : View) (l : Lvl2) (a : BitVec 7) (o : BitVec 8) : Extra :=
  memExtra v [(v.k.space v.b v.n (lvl2 l) 0, pbarAddr v.g a o, 4)] false

/-- PBAR.INIT stores PH = 0 and EXP = PEND = n. -/
def execPbarInit (l : Lvl2) (d : BitVec 7) (a : BitVec 7) (o : BitVec 8) (s : State) : Out :=
  issue (.pbarInit l d a o) { reads := [.s d.toNat, .s a.toNat] }
    (fun v =>
      let addr := pbarAddr v.g a o
      match pbarFault v l addr with
      | some t => .trap t
      | none =>
        let n0 := v.g.uni d.toNat &&& 0x7FFF#32
        let n := if n0 = 0 then 1#32 else n0
        .done (v.d.issueStores v.core v.b v.n [(0, v.k.space v.b v.n (lvl2 l) 0, wordBytes addr ((n <<< 16) ||| n))]) v.g) s

/-- The scope at which PBAR.ARR releases and PBAR.WAIT acquires (R218). -/
def pbarScope : Lvl2 → Scope
  | .core => .core
  | .clu => .clu

def execPbarArr (l : Lvl2) (a : BitVec 7) (o : BitVec 8) (s : State) : Out :=
  issueX (.pbarArr l a o) { reads := [.s a.toNat] } (fun v => pbarExtra v l a o)
    (fun v =>
      let addr := pbarAddr v.g a o
      match pbarFault v l addr with
      | some t => .trap t
      | none =>
        if v.d.released v.b v.n true = false then .wait (.release true)
        else
          let (op, d) := v.d.newId
          .done (d.issueAtoms v.core v.b v.n op none [(0, v.k.space v.b v.n (lvl2 l) 0, addr, .pbarArr)]) v.g) s

/-- The phase bit of a barrier word at its home. -/
def Dev.phaseBit (d : Dev) (s : Space) (addr : Nat) : Bool := (d.homeWord s addr).1.getLsbD 31

/-- A barrier word's phase bit is `ph` as a group sees it: its own stores and atomics to the word are performed (R208, R231). -/
def Dev.phaseIs (d : Dev) (b n : Nat) (s : Space) (addr : Nat) (ph : Bool) : Bool :=
  !(d.stores.any (fun x => decide (x.blk = b ∧ x.grp = n) && x.touches s (addr / 4))) &&
  !(d.atoms.any (fun x => decide (x.blk = b ∧ x.grp = n) && x.touches s (addr / 4))) &&
  decide (d.phaseBit s addr = ph)

/-- A wait that has found its phase bit: it completes where it issues again (R231). -/
def Group.wokenAt (g : Group) (pc : Nat) : Bool := decide (g.woken = some pc)

def execPbarWait (l : Lvl2) (ph : Bool) (a : BitVec 7) (o : BitVec 8) (s : State) : Out :=
  issueX (.pbarWait l ph a o) { reads := [.s a.toNat] } (fun v => pbarExtra v l a o)
    (fun v =>
      let addr := pbarAddr v.g a o
      match pbarFault v l addr with
      | some t => .trap t
      | none =>
        if v.g.wokenAt v.g.head.pc || v.d.phaseIs v.b v.n (v.k.space v.b v.n (lvl2 l) 0) addr ph then
          if v.d.returned v.b v.n then .done (v.d.acquire v.core (pbarScope l)) { v.g with woken := none }
          else .retry v.d (.fence .grp .acq) (fun g => { g with woken := some g.head.pc })
        else .wait (.pbar l addr ph)) s

/-! ### Uniform loads and stores (R175) -/

def sldAddr (g : Group) (a : USrc) (i : BitVec 8) : Nat := (g.usrc a + BitVec.ofNat 32 (4 * i.toNat)).toNat

/-- The checks of SLD and SST, for the group as a whole. -/
def sldFault (v : View) (lv : Lvl) (addr : Nat) (writes : Bool) : Option Trap :=
  (memFault v lv v.act (fun _ => addr) 4 4 writes).map (fun t => { t with info0 := 0, info1 := 0 })

def execSld (l : Lvl3) (d : BitVec 8) (a : USrc) (i : BitVec 8) (s : State) : Out :=
  let lv := lvl3 l
  issueX (.sld l d a i) { reads := usrcOps a, var := [.s d.toNat], uni := true }
    (fun v => memExtra v [(v.k.space v.b v.n lv 0, sldAddr v.g a i, 4)] true)
    (fun v => match sldFault v lv (sldAddr v.g a i) false with
      | some t => .trap t
      | none => startLoad v (v.load [(0, v.k.space v.b v.n lv 0, sldAddr v.g a i)] false .w [.u d.toNat])) s

def execSst (l : Lvl3) (d : USrc) (a : USrc) (i : BitVec 8) (s : State) : Out :=
  let lv := lvl3 l
  issue (.sst l d a i) { reads := usrcOps d ++ usrcOps a }
    (fun v => match sldFault v lv (sldAddr v.g a i) true with
      | some t => .trap t
      | none =>
        let d' := (v.d.putGroup v.b v.n v.g).issueStores v.core v.b v.n
          [(0, v.k.space v.b v.n lv 0, wordBytes (sldAddr v.g a i) (v.g.usrc d))]
        .done d' ((d'.group v.b v.n).getD v.g)) s

/-! ### Completions -/

def execScratchLoadComplete (op reg : Nat) (s : State) : Out := event (·.loadComplete op reg) s
def execScratchStorePerformed (op : Nat) (s : State) : Out := event (·.storePerformed op) s
def execScratchAtomicPerformed (op : Nat) (s : State) : Out := event (·.atomPerformed op) s
def execL1SectorFill (core miss : Nat) (s : State) : Out := event (·.sectorFill core miss) s

end Sys2Proof.Machine
end

