-- ==== Sys2Proof/Machine/Tiles.lean ====
section
/-! DEFINITION. Accumulator tiles (R261-R268): places in the store, acquisition and release, the tile order, reads, writes and
drains (R142). -/

namespace Sys2Proof.Machine

open Sys2Proof

/-! ### Places (R261, R262) -/

def shapeCode : Shape → Nat
  | .s256 => 0
  | .s128 => 1
  | .s64 => 2

/-- Rows and columns of a shape. -/
def side (shape : Nat) : Nat := if shape = 0 then 256 else if shape = 1 then 128 else 64
/-- Units of 16 KiB that a tile takes, aligned. -/
def tileUnits (shape : Nat) : Nat := if shape = 0 then 16 else if shape = 1 then 4 else 1

/-- The lowest aligned free place of a shape in a cluster's store of 128 units. -/
def Dev.tilePlace (d : Dev) (clu shape : Nat) : Option Nat :=
  let n := tileUnits shape
  ((List.range (128 / n)).map (· * n)).find? (fun u =>
    !(d.tiles.any (fun t => !t.released && decide (t.clu = clu) && meets u n t.unit (tileUnits t.shape))))

def tileNew (clu blk shape unit : Nat) : Tile :=
  { clu := clu, blk := blk, shape := shape, unit := unit, vals := [], pois := [], satc := 0, flsc := 0, infc := 0, nanc := 0,
    order := [], released := false }

/-- A new tile, zero with zero counters, in a free place: its number. -/
def Dev.acquireTile (d : Dev) (clu blk shape : Nat) : Option (Nat × Dev) :=
  (d.tilePlace clu shape).map (fun u => (d.tiles.length, { d with tiles := d.tiles ++ [tileNew clu blk shape u] }))

/-- Tiles of several shapes, all or none (R28, R40). -/
def Dev.acquireTiles (d : Dev) (clu blk : Nat) : List Nat → Option (List Nat × Dev)
  | [] => some ([], d)
  | s :: ss => match d.acquireTile clu blk s with
    | none => none
    | some (t, d) => (d.acquireTiles clu blk ss).map (fun x => (t :: x.1, x.2))

/-- The tile a name denotes. -/
def Block.tile (k : Block) (n : Nat) : Option Nat := nth k.tiles n none

def Dev.tileOf (d : Dev) (k : Block) (n : Nat) : Option (Nat × Tile) :=
  (k.tile n).bind (fun i => (d.tiles[i]?).map (fun t => (i, t)))

def unowned (act : Mask) : Trap := { cause := cACC_UNOWNED, lanes := act }

/-- A command enters a tile's order (R264). -/
def Dev.pushTile (d : Dev) (t : Nat) (c : TileCmd) : Dev := d.modTile t (fun x => { x with order := x.order ++ [c] })
def Dev.popTile (d : Dev) (t : Nat) : Dev := d.modTile t (fun x => { x with order := x.order.tail })

/-- Element (i, j). -/
def tileKey (i j : Nat) : Nat := i * 256 + j
def Tile.elem (t : Tile) (i j : Nat) : Word := FMap.get 0 t.vals (tileKey i j)
def Tile.poison (t : Tile) (i j : Nat) : Nat := FMap.get 0 t.pois (tileKey i j)
/-- Writing an element clears its poison. -/
def Tile.put (t : Tile) (i j : Nat) (x : Word) : Tile :=
  { t with vals := FMap.set 0 t.vals (tileKey i j) x, pois := FMap.set 0 t.pois (tileKey i j) 0 }
def Tile.zero (t : Tile) : Tile := { t with vals := [], pois := [], satc := 0, flsc := 0, infc := 0, nanc := 0 }
/-- Counters saturate (R140). -/
def addSat (x n : Nat) : Nat := min 0xFFFFFFFF (x + n)

/-! ### Instructions -/

/-- MACQ (R262). -/
def execMacq (sh : Shape) (t : BitVec 3) (s : State) : Out :=
  issue (.macq sh t) {} (fun v =>
    if (v.k.tile t.toNat).isSome then
      .trap { cause := cHANDLE_INVALID, lanes := v.act, info0 := BitVec.ofNat 32 t.toNat }
    else match hold v (.macq sh t) [] [] [] with
      | .held d g c =>
        let e := d.engine v.k.home
        .held (d.putEngine v.k.home { e with acq := e.acq ++ [⟨v.b, v.n, t.toNat, shapeCode sh⟩] }) g c
      | r => r) s

/-- TILE_ACQUIRE_SERVED: the oldest request of a cluster's engine gets a place. A name that another request has filled
meanwhile faults as at issue. -/
def Dev.serveAcq (d : Dev) (clu : Nat) : Dev :=
  let e := d.engine clu
  match e.acq with
  | [] => d
  | a :: rest =>
    let pop (d : Dev) : Dev := d.putEngine clu { d.engine clu with acq := rest }
    match d.blocks[a.blk]?, (d.group a.blk a.grp).bind (·.cmd) with
    | some k, some c =>
      if (k.tile a.name).isSome then
        (pop d).unitTrap a.blk a.grp c { cause := cHANDLE_INVALID, lanes := c.act, info0 := BitVec.ofNat 32 a.name }
      else match d.acquireTile clu a.blk a.shape with
        | none => d
        | some (t, d) =>
          ((pop d).modBlock a.blk (fun k => { k with tiles := setNth k.tiles a.name (some t) })).unitDone a.blk a.grp c.op [] id
    | _, _ => pop d

def execTileAcquireServed (clu : Nat) (s : State) : Out := event (·.serveAcq clu) s

/-- MREL (R263): the name is unowned at issue; the group waits for the tile's order. -/
def execMrel (t : BitVec 3) (s : State) : Out :=
  issue (.mrel t) {} (fun v =>
    match v.d.tileOf v.k t.toNat with
    | none => .trap (unowned v.act)
    | some (i, _) => match hold v (.mrel t) [] [] [] with
      | .held d g c =>
        .held ((d.pushTile i (.mrel v.b v.n)).modBlock v.b (fun k => { k with tiles := setNth k.tiles t.toNat none })) g c
      | r => r) s

/-- MZERO (R265). -/
def execMzero (t : BitVec 3) (s : State) : Out :=
  issue (.mzero t) {} (fun v =>
    match v.d.tileOf v.k t.toNat with
    | none => .trap (unowned v.act)
    | some (i, _) => .done (v.d.pushTile i .mzero) v.g) s

/-- The group's wait at this MWAIT has ended, and the MWAIT completes at its next issue (R265, R348). -/
def Group.waited (g : Group) (t : BitVec 3) (act : Mask) : Bool :=
  match g.cmd with
  | some c => c.waits && decide (c.instr = .mwait t ∧ c.act = act)
  | none => false

/-- The wait of a group at MWAIT ends: the group is ready and stands at the MWAIT still, where a deferred trap is taken
before it completes (R265, R348). -/
def Dev.mwaitOver (d : Dev) (b n : Nat) : Dev :=
  (d.modGroup b n (fun g => { g with cmd := g.cmd.map (fun c => { c with waits := true }), why := .ready, readyAt := none, sel := false })).settle

/-- MWAIT (R265): the group waits for its place in the order. -/
def execMwait (t : BitVec 3) (s : State) : Out :=
  issue (.mwait t) {} (fun v =>
    if v.g.waited t v.act then .done v.d { v.g with cmd := none }
    else match v.d.tileOf v.k t.toNat with
      | none => .trap (unowned v.act)
      | some (i, _) => match hold v (.mwait t) [] [] [] with
        | .held d g c => .held (d.pushTile i (.mwait v.b v.n)) g c
        | r => r) s

/-- The window of MRD and MWR: first row and column, and whether it lies in the tile (R266). -/
def windowOut (shape : Nat) (sb : Word) (k : Nat) : Bool :=
  decide (side shape ≤ sb.toNat / 65536 + 31 ∨ side shape ≤ sb.toNat % 65536 + k - 1)

def groupBounds (act : Mask) (t : Nat) (sb : Word) : Trap :=
  { cause := cGROUP_BOUNDS, lanes := act, info0 := BitVec.ofNat 32 t, info1 := sb }

/-- MRD.k (R266). -/
def execMrd (k : KCount) (d : BitVec 7) (t : BitVec 3) (b : BitVec 7) (s : State) : Out :=
  let n := KCount.n k
  issue (.mrd k d t b) { reads := [.s b.toNat], var := vs d n } (fun v =>
    match v.d.tileOf v.k t.toNat with
    | none => .trap (unowned v.act)
    | some (i, x) =>
      let sb := v.g.uni b.toNat
      if windowOut x.shape sb n then .trap (groupBounds v.act t.toNat sb)
      else
        let (op, dv) := v.d.newId
        let regs := (List.range n).map (fun j => v.g.vreg (d.toNat + j))
        let g := regs.foldl (fun (g : Group) r => g.markEmpty r op) v.g
        .done (dv.pushTile i (.mrd op v.b v.n n (sb.toNat / 65536) (sb.toNat % 65536) v.act regs)) g) s

/-- MRD.stat (R266): four uniforms. -/
def execMrdStat (d : BitVec 5) (t : BitVec 3) (s : State) : Out :=
  issue (.mrdStat d t) { var := us (4 * d.toNat) 4, uni := true } (fun v =>
    match v.d.tileOf v.k t.toNat with
    | none => .trap (unowned v.act)
    | some (i, _) =>
      let (op, dv) := v.d.newId
      let regs := (List.range 4).map (fun j => RegRef.u (4 * d.toNat + j))
      let g := regs.foldl (fun (g : Group) r => g.markEmpty r op) v.g
      .done (dv.pushTile i (.mrdStat op v.b v.n regs)) g) s

/-- MWR.k (R267): registers are read at issue. -/
def execMwr (k : KCount) (d : BitVec 7) (t : BitVec 3) (b : BitVec 7) (s : State) : Out :=
  let n := KCount.n k
  issue (.mwr k d t b) { reads := vs d n ++ [.s b.toNat] } (fun v =>
    match v.d.tileOf v.k t.toNat with
    | none => .trap (unowned v.act)
    | some (i, x) =>
      let sb := v.g.uni b.toNat
      if windowOut x.shape sb n then .trap (groupBounds v.act t.toNat sb)
      else
        let vals := (List.range n).map (fun j => v.act.lanes.map (fun l => (l, v.g.word (v.g.vreg (d.toNat + j)) l)))
        .done (v.d.pushTile i (.mwr n (sb.toNat / 65536) (sb.toNat % 65536) v.act vals)) v.g) s

/-! ### Drains: issue (R268) -/

def drainSize : DrainForm → Nat
  | .stF32 | .addF32 => 4
  | .stQ8 => 1
  | .stF16 | .stBf16 => 2

/-- Where a place's bytes start. -/
def Place.off : Place → Nat
  | .mem a => a
  | .scratch _ a => a
  | .view _ a => a

/-- A destination of Table 10-5, for a group: where, and nothing where a field breaks the table. -/
def destOf (k : Block) (b n : Nat) (lo hi : Word) : Option Place :=
  let kind := hi.toNat / 2 ^ 20 % 16
  let top := hi.toNat % 2 ^ 20
  if hi.toNat / 2 ^ 24 ≠ 0 then none
  else if kind = 0 then some (.mem (lo.toNat + 2 ^ 32 * top))
  else if top ≠ 0 then none
  else if kind = 2 then some (.scratch (k.space b n .core 0) lo.toNat)
  else if kind = 3 then some (.scratch (k.space b n .clu 0) lo.toNat)
  else if kind = 4 then some (.scratch (k.space b n .chip 0) lo.toNat)
  else none

/-- The bytes that a drain writes, from its base: its rows, and the scales of .st.q8. -/
def drainSpans (form : DrainForm) (shape pitch soff : Nat) : List (Nat × Nat) :=
  let s := side shape
  (List.range s).map (fun i => (i * pitch, s * drainSize form)) ++ (if form = .stQ8 then [(soff, s * (s / 32))] else [])

/-- MDRAIN: the checks at issue, then a place in the tile's order. -/
def execMdrain (f : DrainForm) (t : BitVec 3) (b : BitVec 7) (s : State) : Out :=
  let i : Instr := .mdrain f t b
  issue i { reads := us b.toNat 4 } (fun v =>
    let u := uniList v.g b 4
    let own := v.d.tileOf v.k t.toNat
    let pitch := uword u 2
    let soff := uword u 3
    let sz := drainSize f
    let dst := destOf v.k v.b v.n (nth u 0 0) (nth u 1 0)
    let short := match own with
      | some (_, x) => decide (pitch < side x.shape * sz)
      | none => false
    match dst with
    | none => .trap (illegal (opWord i) v.act 0)
    | some p =>
      if 2 ^ 20 ≤ pitch ∨ short = true ∨ (f ≠ .stQ8 ∧ soff ≠ 0) then .trap (illegal (opWord i) v.act 0)
      else match own with
        | none => .trap (unowned v.act)
        | some (ti, x) =>
          let base := p.off
          let spans := drainSpans f x.shape pitch soff
          if base % sz ≠ 0 ∨ pitch % sz ≠ 0 then .trap { cause := cMISALIGNED, lanes := v.act }
          else if (match p with
              | .scratch sp a => spans.any (fun y => !(v.d.flatOk sp (a + y.1) y.2))
              | _ => false) then .trap { cause := cSCRATCH_BOUNDS, lanes := v.act }
          else if v.k.restricted && (match p with
              | .mem _ => true
              | .scratch (.chip _) a => spans.any (fun y => !(v.k.inChipRegions (a + y.1) y.2))
              | _ => false) then .trap { cause := cREPLAY_VIOLATION, lanes := v.act }
          else
            let (op, d) := v.d.newId
            .done (d.pushTile ti (.drain ⟨op, v.b, v.n, f, t.toNat, p, pitch, soff⟩)) v.g) s

/-! ### The head of a tile's order -/

/-- TILE_ORDER_TURN: the command at the head acts (R263-R267). Passes, reads and drains have events of their own. -/
def Dev.tileTurn (d : Dev) (t : Nat) : Dev :=
  match d.tiles[t]? with
  | none => d
  | some x =>
    let opOf (b n : Nat) : Nat := (((d.group b n).bind (·.cmd)).map (·.op)).getD 0
    match x.order with
    | .mzero :: _ => (d.popTile t).modTile t Tile.zero
    | .mwr n q c act vals :: _ =>
      (d.popTile t).modTile t (fun x => (List.range n).foldl (fun (x : Tile) i => act.lanes.foldl (fun (x : Tile) l =>
        x.put (q + l) (c + i) (((nth vals i []).find? (fun y => decide (y.1 = l))).map (·.2) |>.getD 0)) x) x)
    | .mwait b n :: _ =>
      let core := match d.blocks[b]? with
        | some k => k.coreOf n
        | none => 0
      ((d.popTile t).acquire core .clu).mwaitOver b n
    | .mrel b n :: _ =>
      ((d.popTile t).modTile t (fun x => { x with released := true, vals := [], pois := [] })).unitDone b n (opOf b n) [] id
    | _ => d

def execTileOrderTurn (tile : Nat) (s : State) : Out := event (·.tileTurn tile) s

/-- MRD_COMPLETE: a read at the head of its tile's order reads the tile; its words land as R79 lets them. -/
def Dev.mrdComplete (d : Dev) (t : Nat) : Dev :=
  match d.tiles[t]? with
  | none => d
  | some x =>
    match x.order with
    | .mrd op b n k q c act regs :: _ =>
      (d.popTile t).answer op b n act regs (act.lanes.map (fun l => (l, (List.range k).map (fun i =>
        (x.elem (q + l) (c + i), x.poison (q + l) (c + i))))))
    | .mrdStat op b n regs :: _ =>
      (d.popTile t).answer op b n 1#32 regs [(0, [x.satc, x.flsc, x.infc, x.nanc].map (fun c => (BitVec.ofNat 32 c, 0)))]
    | _ => d

def execMrdComplete (tile : Nat) (s : State) : Out := event (·.mrdComplete tile) s

/-! ### Drains: performance (R142, R268) -/

/-- A byte to be written, with the poison of what it holds. -/
abbrev OutByte := Nat × Byte × Nat

/-- What a drain writes: bytes from its base, and, for each element, the flags; then clamps. -/
structure Drained where
  bytes : List OutByte
  fl : Flags
  clamps : Nat

def outBytes (a x n p : Nat) : List OutByte := (bytesLE x n).zipIdx.map (fun b => (a + b.2, b.1, p))

/-- Quantising the runs of 32 elements of a row (R137, R142). -/
def drainQ8 (x : Tile) (i pitch soff : Nat) : Drained :=
  let s := side x.shape
  (List.range (s / 32)).foldl (fun (acc : Drained) b =>
    let ws := (List.range 32).map (fun j => x.elem i (32 * b + j))
    let q := quantise 6 127 .rne (ws.map (fun w => f32.read w.toNat))
    let bytes := q.q.zipIdx.map (fun (qj : Int × Nat) =>
      (i * pitch + 32 * b + qj.2, BitVec.ofInt 8 qj.1, x.poison i (32 * b + qj.2)))
    { bytes := acc.bytes ++ bytes ++ [(soff + i * (s / 32) + b, BitVec.ofNat 8 q.e, 0)],
      fl := acc.fl.or ⟨false, false, q.iv, decide (q.clamped ≠ 0)⟩, clamps := acc.clamps + q.clamped }) ⟨[], Flags.none, 0⟩

/-- One row of a drain, `old` the destination's words for .add.f32. -/
def drainRow (f : DrainForm) (x : Tile) (i pitch soff : Nat) (old : Nat → Word × Nat) : Drained :=
  let s := side x.shape
  match f with
  | .stQ8 => drainQ8 x i pitch soff
  | _ => (List.range s).foldl (fun (acc : Drained) j =>
      let w := x.elem i j
      let p := x.poison i j
      let v := f32.read w.toNat
      let a := i * pitch + j * drainSize f
      let (bits, fl, p) : Nat × Flags × Nat := match f with
        | .stF32 => (w.toNat, ⟨false, false, v.isNan, false⟩, p)
        | .addF32 =>
          let (o, po) := old a
          let r := faddV .rne false o w
          (r.w.toNat, r.fl.or ⟨false, false, (f32.read r.w.toNat).isNan, false⟩, if p = 0 then po else p)
        | .stF16 =>
          let r := f16.finish .rne false ⟨v, v.isNan⟩
          (r.bits, r.fl, p)
        | .stBf16 =>
          let r := bf16.finish .rne false ⟨v, v.isNan⟩
          (r.bits, r.fl, p)
        | .stQ8 => (0, Flags.none, 0)
      { acc with bytes := acc.bytes ++ outBytes a bits (drainSize f) p, fl := acc.fl.or fl }) ⟨[], Flags.none, 0⟩

def drainAll (f : DrainForm) (x : Tile) (pitch soff : Nat) (old : Nat → Word × Nat) : Drained :=
  (List.range (side x.shape)).foldl (fun (acc : Drained) i =>
    let r := drainRow f x i pitch soff old
    ⟨acc.bytes ++ r.bytes, acc.fl.or r.fl, acc.clamps + r.clamps⟩) ⟨[], Flags.none, 0⟩

/-- Bytes gathered into the words they lie in, in order: word address, bytes, poison. -/
def byWord : List OutByte → List (Nat × List (Nat × Byte) × Nat)
  | [] => []
  | (a, b, p) :: rest =>
    match byWord rest with
    | (wa, bs, wp) :: more =>
      if a / 4 * 4 = wa then (wa, (a, b) :: bs, if p = 0 then wp else p) :: more
      else (a / 4 * 4, [(a, b)], p) :: (wa, bs, wp) :: more
    | [] => [(a / 4 * 4, [(a, b)], p)]

/-- All the translations of a run of accesses go through: otherwise the device, with what has been parked. -/
def Dev.probe (d : Dev) (r : Req) (acc : Acc) (vas : List Nat) : Option Dev :=
  let (wait, d') := vas.foldl (fun (x : Bool × Dev) va =>
    match x.2.translate r acc va with
    | (.later, d) => (true, d)
    | (_, d) => (x.1, d)) (false, d)
  if wait then
    some (d.again d')
  else none

/-- A failed write of a drain: a poisoned completion is POISON for the host and peer tiers, ENGINE_XLATE for HBM (R268). -/
def Dev.drainFails (d : Dev) (r : Req) (o va : Nat) : Nat × Nat × Nat :=
  if o % 4 = 1 ∨ o % 4 = 2 ∨ (d.tlbHit r.part r.clu va).any (fun l => decide (l.tier ≠ 0)) then (cPOISON, o, va) else (cENGINE_XLATE, 0, va)

/-- Writing a word's bytes at its home in DRAM-backed memory: the first failure is kept (R268). -/
def writeMem (r : Req) (acc : Dev × Option (Nat × Nat × Nat)) (x : Nat × List (Nat × Byte) × Nat) :
    Dev × Option (Nat × Nat × Nat) :=
  let (d, bad) := acc
  let note (d : Dev) (f : Nat × Nat × Nat) : Dev × Option (Nat × Nat × Nat) := (d, some (bad.getD f))
  if x.2.2 ≠ 0 then
    match d.vaWrite r x.1 0 x.2.2 with
    | (.ok none, d) => (d, bad)
    | (.ok (some o), d) => note d (d.drainFails r o x.1)
    | (.perm va, d) => note d (cENGINE_XLATE, 0, va)
    | (.later, d) => (d, bad)
  else x.2.1.foldl (fun (acc : Dev × Option (Nat × Nat × Nat)) ab =>
    let (d, bad) := acc
    let note (d : Dev) (f : Nat × Nat × Nat) : Dev × Option (Nat × Nat × Nat) := (d, some (bad.getD f))
    match d.vaWriteByte r ab.1 ab.2 with
    | (.ok none, d) => (d, bad)
    | (.ok (some o), d) => note d (d.drainFails r o ab.1)
    | (.perm va, d) => note d (cENGINE_XLATE, 0, va)
    | (.later, d) => (d, bad)) acc

/-- Writing a word's bytes at its home in scratch. -/
def writeScratch (sp : Space) (d : Dev) (x : Nat × List (Nat × Byte) × Nat) : Dev :=
  if x.2.2 ≠ 0 then d.homePut sp x.1 (Config.poisonBits d.cycle x.1) x.2.2 else d.homeBytes sp x.2.1

/-- The destination's words before .add.f32, by offset. -/
def oldWords (d : Dev) (r : Req) (dst : Place) : Nat → Word × Nat :=
  match dst with
  | .scratch sp base => fun a => d.homeWord sp (base + a)
  | .mem base => fun a => match d.vaRead r .write (base + a) with
    | (.ok x, _) => x
    | _ => (0, 0)
  | .view _ _ => fun _ => (0, 0)

/-- A pending deferred trap of a group, at most one of its kind (R143, R268, R356). -/
def Group.defer (g : Group) (same : Nat → Bool) (t : Deferred) : Group :=
  if g.pend.any (fun p => same p.cause) then g else { g with pend := g.pend ++ [t] }

/-- Two places lie in one memory. -/
def Place.same : Place → Place → Bool
  | .mem _, .mem _ => true
  | .scratch s _, .scratch t _ => decide (s = t)
  | _, _ => false

/-- Destination bytes of two drains overlap. -/
def Drain.meets (x y : Drain) (shapeX shapeY : Nat) : Bool :=
  x.dst.same y.dst && (drainSpans x.form shapeX x.pitch x.soff).any (fun a => (drainSpans y.form shapeY y.pitch y.soff).any (fun b =>
    Sys2Proof.Machine.meets (x.dst.off + a.1) a.2 (y.dst.off + b.1) b.2))

/-- A drain waits for an earlier one of its group whose bytes overlap (R216 note 4), and a read of what an ADV's predecessor commits (R51). -/
def Dev.drainHeld (d : Dev) (x : Drain) (shape : Nat) : Bool :=
  (decide (x.form = .addF32) && !(d.predDone x.blk)) ||
  d.tiles.any (fun t => t.order.any (fun c => match c with
    | .drain y => decide (y.blk = x.blk ∧ y.grp = x.grp ∧ y.op < x.op) && x.meets y shape t.shape
    | _ => false))

/-- DRAIN_PERFORMED: a drain at the head of its tile's order is applied whole. -/
def Dev.drainPerformed (d : Dev) (op : Nat) : Dev :=
  match d.tiles.findIdx? (fun t => match t.order with
    | .drain x :: _ => decide (x.op = op)
    | _ => false) with
  | none => d
  | some ti =>
    match d.tiles[ti]? with
    | none => d
    | some t =>
      match t.order with
      | .drain x :: _ =>
        if d.drainHeld x t.shape then d
        else (match d.blocks[x.blk]? with
         | none => d.popTile ti
         | some k =>
          let r := k.req (clusterOf (k.coreOf x.grp)) 6 op d
          let done := drainAll x.form t x.pitch x.soff (oldWords d r x.dst)
          let words := byWord (done.bytes.map (fun (y : OutByte) => (x.dst.off + y.1, y.2)))
          let finish (d : Dev) (bad : Option (Nat × Nat × Nat)) : Dev :=
            let d := (d.popTile ti).modTile ti (fun t => { t with satc := addSat t.satc done.clamps })
            d.modGroup x.blk x.grp (fun g =>
              let g := g.raise done.fl
              match bad with
              | none => g
              | some (c, o, va) =>
                g.defer (fun c => decide (c = cENGINE_XLATE ∨ c = cPOISON))
                  { cause := c, origin := o, info0 := BitVec.ofNat 32 x.name, info1 := BitVec.ofNat 32 va,
                    info2 := BitVec.ofNat 32 (va / 2 ^ 32) })
          match x.dst with
          | .scratch sp _ => finish (words.foldl (writeScratch sp) d) none
          | .mem _ => (match d.probe r .write (words.map (·.1)) with
            | some d' => d'
            | none =>
              let (d, bad) := words.foldl (writeMem r) (d, none)
              finish d.settleParks bad)
          | .view _ _ => finish d none)
      | _ => d

def execDrainPerformed (op : Nat) (s : State) : Out := event (·.drainPerformed op) s

end Sys2Proof.Machine
end

