-- ==== Sys2Proof/Machine/Matrix.lean ====
section
/-! DEFINITION. Operand maps, declaring and signing passes (R247-R257), the reservation table, the arbiter, exposure permits
(R258-R260, R343), tile fetch, and the arithmetic of a pass (R127-R133, R140, R141, R143, R245, R246). -/

namespace Sys2Proof.Machine

open Sys2Proof

/-! ### Operand maps (R251, R252) -/

def mopMap (f : MapKind) (pos : Nat) (l : List Word) : OpMap :=
  let bm := if uword l 3 = 0xFFFFFFFF then none else some (uword l 3)
  match f with
  | .core => .core pos (uword l 0) (uword l 1) (uword l 2 % 65536) (uword l 2 / 65536) bm
  | .clu => .clu (uword l 0) (uword l 1) (uword l 2 % 65536) (uword l 2 / 65536) bm
  | .hnd => .hnd (nth l 0 0)

def execMopmap (f : MapKind) (m : BitVec 3) (a : BitVec 7) (s : State) : Out :=
  let i : Instr := .mopmap f m a
  issue i { reads := us a.toNat 4 } (fun v =>
    let l := uniList v.g a 4
    let hnd := decide (f = .hnd)
    let off := clusterOf (v.k.coreOf v.n) ≠ v.k.home
    if (if hnd then uword l 1 ≠ 0 ∨ uword l 2 ≠ 0 ∨ uword l 3 ≠ 0 else uword l 2 % 16 ≠ 0) then .trap (illegal (opWord i) v.act 0)
    else if !hnd ∧ (uword l 0 % 16 ≠ 0 ∨ (uword l 3 ≠ 0xFFFFFFFF ∧ uword l 3 % 4 ≠ 0)) then
      .trap { cause := cMISALIGNED, lanes := v.act }
    else if !hnd ∧ off then .trap { cause := cSCRATCH_BOUNDS, lanes := v.act }
    else if hnd ∧ (v.part.liveLayer (uword l 0)).isNone then .trap { cause := cHANDLE_INVALID, lanes := v.act }
    else .done (v.d.modBlock v.b (fun k => { k with maps := setNth k.maps m.toNat (mopMap f (v.k.pos v.n) l) })) v.g) s

/-- MOPF (R254): the group's stores, atomics and FATOMs, and what it may have read of others' in the scope, are
performed. -/
def Dev.mopfOk (d : Dev) (core b n : Nat) (clu : Bool) : Bool :=
  let mine (sp : Space) : Bool := match sp with
    | .core _ _ => !clu
    | .clu _ _ => clu
    | .chip _ => clu
    | .lane _ _ _ => false
  !(d.stores.any (fun x => decide (x.core = core) && mine x.space)) &&
  !(d.atoms.any (fun x => decide (x.blk = b ∧ x.grp = n) && mine x.space)) &&
  !(d.cmds.any (fun x => decide (x.blk = b ∧ x.grp = n) && (match x.kind with
    | .fatom _ _ _ => true
    | _ => false)))

def execMopf (clu : Bool) (s : State) : Out :=
  issue (.mopf clu) {} (fun v => if v.d.mopfOk v.core v.b v.n clu then .done v.d v.g else .wait (.mopf clu)) s

/-! ### Templates (R247) -/

def template (l : List Word) : Template :=
  { kind := uword l 0 / 2 ^ 20 % 4, klen := 32 * (uword l 0 / 2 ^ 16 % 16), mapA := uword l 0 / 2 ^ 8 % 8,
    mapB := uword l 0 / 2 ^ 12 % 8, tile := uword l 0 / 16 % 8, fmt := uword l 0 / 4 % 4, shape := uword l 0 % 4, gbase := uword l 1,
    ak := uword l 2 / 65536, arow := uword l 2 % 65536, bk := uword l 3 / 65536, bcol := uword l 3 % 65536,
    gcnt := uword l 4, taboff := uword l 5 }

/-- Words of a template that meet Table 10-1; word 0 also holds the shape of the tile it names. -/
def templateOk (l : List Word) (tileShape : Option Nat) : List Bool :=
  let t := template l
  let grouped := decide (t.kind = 2)
  [decide (uword l 0 / 2 ^ 22 = 0 ∧ t.kind ≠ 3 ∧ 32 ≤ t.klen ∧ t.klen ≤ 256 ∧ t.fmt ≠ 3 ∧ t.shape ≠ 3) &&
     !((nth l 0 0).getLsbD 15) && !((nth l 0 0).getLsbD 11) && !((nth l 0 0).getLsbD 7) &&
     (match tileShape with
      | some s => decide (s = t.shape)
      | none => true),
   decide (uword l 1 < 2 ^ 11), true, true,
   if grouped then decide (1 ≤ uword l 4 ∧ uword l 4 ≤ 32) else decide (uword l 4 = 0),
   if grouped then decide (uword l 5 % 4 = 0) else decide (uword l 5 = 0),
   decide (uword l 6 = 0), decide (uword l 7 = 0)]

/-- The element block bytes of a pass's format: 0 QS8, 1 QS4, 2 QS16. -/
def fmtBytes (fmt : Nat) : Nat := blockBytes fmt

/-- A map may serve a pass: set, with a bitmap for a sparse pass, a handle's view of the pass's format (R248 check 1). -/
def mapOk (p : Part) (t : Template) (m : OpMap) : Bool :=
  match m with
  | .idle => false
  | .core _ _ _ _ _ bm => decide (t.kind ≠ 1) || bm.isSome
  | .clu _ _ _ _ bm => decide (t.kind ≠ 1) || bm.isSome
  | .hnd h =>
    decide (t.kind ≠ 1) && decide (t.fmt ≠ 1) &&
    (match p.liveLayer h.toNat with
     | some e => decide ((t.fmt = 0 ∧ e.vfmt = 0) ∨ (t.fmt = 2 ∧ e.vfmt = 1))
     | none => true)

/-- The handle of a map is live and the window of `n` lines from `row` lies in its view (R248 check 4). -/
def handleOk (p : Part) (t : Template) (m : OpMap) (row n k0 : Nat) : Bool :=
  match m with
  | .hnd h => (match p.liveLayer h.toNat with
    | some e => decide (row + n ≤ e.lines ∧ 32 * k0 + t.klen ≤ e.klen)
    | none => false)
  | _ => true

/-- The space of a scratch map of a block and its descriptor. -/
def mapSpace (b : Nat) (m : OpMap) : Option (Space × Nat × Nat × Nat × Nat × Option Nat) :=
  match m with
  | .core pos d0 d1 ep sp bm => some (.core b pos, d0, d1, ep, sp, bm)
  | .clu d0 d1 ep sp bm => some (.clu b 0, d0, d1, ep, sp, bm)
  | _ => none

/-- Every operand byte of a window lies in the map's level (R248 check 5). -/
def mapBounds (d : Dev) (b : Nat) (t : Template) (m : OpMap) (row n k0 : Nat) : Bool :=
  match mapSpace b m with
  | none => true
  | some (s, d0, d1, ep, sp, bm) =>
    if n = 0 then true
    else
      let last := row + n - 1
      let kb := t.klen / 32
      d.flatOk s (d0 + last * ep + k0 * fmtBytes t.fmt) (kb * fmtBytes t.fmt) &&
      d.flatOk s (d1 + last * sp + k0) kb &&
      (match bm with
       | some d3 => decide (t.kind ≠ 1) || d.flatOk s (d3 + 4 * (last * sp + k0)) (4 * kb)
       | none => true)

/-- The words of a row-offset table (R257). -/
def View.rowTable (v : View) (t : Template) : List Nat :=
  (List.range (t.gcnt + 1)).map (fun i =>
    (v.d.seenWord v.core v.b v.n v.d.nextId (v.k.space v.b v.n .core 0) (t.taboff + 4 * i)).1.toNat)

/-- The group has read the words of the table (R212 item 5). -/
def View.noteTable (v : View) (off : List Nat) (t : Template) : Dev :=
  v.d.noteSeen v.core v.b v.n v.d.nextId ((List.range off.length).map (fun i => (v.k.space v.b v.n .core 0, t.taboff / 4 + i)))

/-- The first index that breaks R257: 0, a g whose successor is less, or G (DEDUCED, log 44). -/
def badGroup (off : List Nat) (s : Nat) : Option Nat :=
  if nth off 0 0 ≠ 0 then some 0
  else match (List.range (off.length - 1)).find? (fun g => decide (nth off (g + 1) 0 < nth off g 0)) with
    | some g => some g
    | none => if s < nth off (off.length - 1) 0 then some (off.length - 1) else none

/-- The groups that a group-set mask names. -/
def groupSet (base : Nat) (mask : Word) : List Nat := (Mask.lanes mask).map (· + base)

def tableOk (v : View) (t : Template) : Bool :=
  decide (t.kind ≠ 2) || v.d.flatOk (v.k.space v.b v.n .core 0) t.taboff (4 * (t.gcnt + 1))

/-- MDECL (R248). -/
def execMdecl (g : BitVec 3) (a b : BitVec 7) (s : State) : Out :=
  let i : Instr := .mdecl g a b
  issueX i { reads := us a.toNat 8 ++ [.s b.toNat] }
    (fun v =>
      let t := template (uniList v.g a 8)
      if t.kind = 2 ∧ t.taboff % 4 = 0 ∧ tableOk v t = true then
        memExtra v [(v.k.space v.b v.n .core 0, t.taboff, 4 * (t.gcnt + 1))] false
      else {})
    (fun v =>
      let l := uniList v.g a 8
      let t := template l
      let mask := v.g.uni b.toNat
      let own := v.d.tileOf v.k t.tile
      let ma := nth v.k.maps t.mapA .idle
      let mb := nth v.k.maps t.mapB .idle
      let reg := nth v.k.sign g.toNat SignReg.idle
      let sz := side t.shape
      let set := groupSet t.gbase mask
      let grouped := decide (t.kind = 2)
      let tok := tableOk v t
      let off := if grouped && tok then v.rowTable t else []
      let rowsA := if grouped then (if tok then nth off (off.length - 1) 0 else sz) else sz
      let linesB := if grouped then sz * t.gcnt else sz
      let bad (c n : Nat) : Res := .trap { cause := c, lanes := v.act, info1 := BitVec.ofNat 32 n }
      match firstBad (templateOk l (own.map (fun x => x.2.shape))) with
      | some n => .trap (illegal (opWord i) v.act n)
      | none =>
        if !(mapOk v.part t ma) || !(mapOk v.part t mb) then .trap (illegal (opWord i) v.act 8)
        else match own with
          | none => .trap (unowned v.act)
          | some (ti, _) =>
            if !reg.signed.isEmpty then bad cSIGN_MISMATCH 5
            else if set.isEmpty || set.any (fun n => match v.k.groups[n]? with
                | some x => x.exited
                | none => true) then bad cSIGN_MISMATCH 6
            else if !(handleOk v.part t ma t.arow rowsA t.ak) || !(handleOk v.part t mb t.bcol linesB t.bk) then
              .trap { cause := cHANDLE_INVALID, lanes := v.act }
            else if !(mapBounds v.d v.b t ma t.arow rowsA t.ak) || !(mapBounds v.d v.b t mb t.bcol linesB t.bk) || !tok then
              .trap { cause := cSCRATCH_BOUNDS, lanes := v.act }
            else match (if grouped then badGroup off sz else none) with
              | some n => bad cGROUP_BOUNDS n
              | none =>
                let reg : SignReg := { tpl := t, opA := ma, opB := mb, rowoff := off, set := set, signed := [], tileId := ti }
                .done ((v.noteTable off t).modBlock v.b (fun k => { k with sign := setNth k.sign g.toNat reg })) v.g) s

/-! ### Entering the reservation table (R249, R250, R258) -/

def snapOf (p : Part) (m : OpMap) : Option LEntry :=
  match m with
  | .hnd h => p.liveLayer h.toNat
  | _ => none

def isHandle : OpMap → Bool
  | .hnd _ => true
  | _ => false

/-- Signers by ascending group number. -/
def byGroup (l : List (Nat × Bool)) : List (Nat × Bool) :=
  l.foldl (fun acc x => (acc.takeWhile (fun y => decide (y.1 ≤ x.1))) ++ x :: (acc.dropWhile (fun y => decide (y.1 ≤ x.1)))) []

/-- A pass enters: its snapshots are taken, it joins its tile's order, and its register keeps the template with an empty
signed set. -/
def Dev.enterPass (d : Dev) (b g : Nat) : Dev :=
  match d.blocks[b]? with
  | none => d
  | some k =>
    let reg := nth k.sign g SignReg.idle
    let (id, d) := d.newId
    let p := d.part k.part
    let pass : Pass :=
      { id := id, blk := b, src := b, sign := { reg with signed := byGroup reg.signed }, snapA := snapOf p reg.opA, snapB := snapOf p reg.opB,
        fetchedA := !(isHandle reg.opA), fetchedB := !(isHandle reg.opB), lines := [], came := [], ops := none, tile := reg.tileId,
        entered := d.cycle, granted := false, reserve := false, started := none }
    let e := d.engine k.home
    let d := d.putEngine k.home { e with table := e.table ++ [pass] }
    (d.pushTile reg.tileId (.pass id)).modBlock b (fun k => { k with sign := setNth k.sign g { reg with signed := [] } })

/-- The tile a register was declared for is still the one its name denotes. -/
def Block.signLive (k : Block) (reg : SignReg) : Bool := decide (k.tile reg.tpl.tile = some reg.tileId)

def SignReg.complete (r : SignReg) : Bool := !r.set.isEmpty && r.set.all (fun n => r.signed.any (fun x => decide (x.1 = n)))

/-- Registers whose remaining members have all signed enter while the table has room; one whose tile has been released is
dropped (R250). -/
def Dev.enterComplete (d : Dev) (b : Nat) : Dev :=
  (List.range 8).foldl (fun (d : Dev) g =>
    match d.blocks[b]? with
    | none => d
    | some k =>
      let reg := nth k.sign g SignReg.idle
      if !reg.complete then d
      else if !(k.signLive reg) then d.modBlock b (fun k => { k with sign := setNth k.sign g { reg with signed := [] } })
      else if (d.engine k.home).table.length < 32 then d.enterPass b g
      else d) d

/-- Blocks whose exits have completed a pass enter it once an engine's table has room, in ascending home-core order (R250, R258). -/
def Dev.enterWaiting (d : Dev) (clu : Nat) : Dev :=
  (List.range 4).foldl (fun (d : Dev) c => (List.range d.blocks.length).foldl (fun (d : Dev) b =>
    if (d.blocks[b]?).any (fun k => k.running && decide (k.cores.head? = some (4 * clu + c))) then d.enterComplete b else d) d) d

/-- A group that exits wholly leaves the declared sets (R250). -/
def Dev.leaveSets (d : Dev) (b n : Nat) : Dev :=
  let d := d.modBlock b (fun k => { k with sign := k.sign.map (fun (r : SignReg) =>
    if r.set.contains n then
      (let set := r.set.filter (· ≠ n)
       if set.isEmpty then SignReg.idle else { r with set := set, signed := r.signed.filter (fun x => decide (x.1 ≠ n)) })
    else r) })
  d.enterComplete b

/-- MMA (R249). -/
def kindCode : MmaKind → Nat
  | .dense => 0
  | .sp => 1
  | .grp => 2

def execMma (f : MmaKind) (g : BitVec 3) (s : State) : Out :=
  issue (.mma f g) {} (fun v =>
    let reg := nth v.k.sign g.toNat SignReg.idle
    let bad (n : Nat) : Res := .trap { cause := cSIGN_MISMATCH, lanes := v.act, info1 := BitVec.ofNat 32 n }
    if reg.set.isEmpty then bad 1
    else if !(reg.set.contains v.n) then bad 2
    else if reg.signed.any (fun x => decide (x.1 = v.n)) then bad 3
    else if kindCode f ≠ reg.tpl.kind then bad 4
    else if !(v.k.signLive reg) then .trap (unowned v.act)
    else
      let reg' := { reg with signed := reg.signed ++ [(v.n, gcrMnt v.g.gcr)] }
      if reg'.complete ∧ 32 ≤ (v.d.engine v.k.home).table.length then .wait .table
      else
        let d := v.d.modBlock v.b (fun k => { k with sign := setNth k.sign g.toNat reg' })
        .done (if reg'.complete then d.enterPass v.b g.toNat else d) v.g) s

/-! ### Reading operands -/

/-- The element `i` of a block of a format. -/
def elemOf (fmt : Nat) (bs : List Byte) (i : Nat) : Int :=
  if fmt = 0 then (nth bs i 0).toInt
  else if fmt = 1 then (BitVec.ofNat 4 (if i % 2 = 0 then (nth bs (i / 2) 0).toNat else (nth bs (i / 2) 0).toNat / 16)).toInt
  else (BitVec.ofNat 16 ((nth bs (2 * i) 0).toNat + 256 * (nth bs (2 * i + 1) 0).toNat)).toInt

/-- A byte of scratch at its home, with its word's poison. -/
def Dev.homeAt (d : Dev) (s : Space) (a : Nat) : Byte × Nat :=
  let (x, p) := d.homeWord s (a / 4 * 4)
  ((x >>> (8 * (a % 4))).setWidth 8, p)

/-- A block of a scratch map: elements, scale, bitmap, poison. -/
def scratchBlock (d : Dev) (t : Template) (s : Space) (d0 d1 ep sp : Nat) (bm : Option Nat) (l b : Nat) :
    List Int × Nat × List Bool × Nat :=
  let n := fmtBytes t.fmt
  let bs := (List.range n).map (fun i => d.homeAt s (d0 + l * ep + b * n + i))
  let (sc, ps) := d.homeAt s (d1 + l * sp + b)
  let (mw, pm) := match bm with
    | some d3 => if t.kind = 1 then d.homeWord s (d3 + 4 * (l * sp + b)) else (0xFFFFFFFF#32, 0)
    | none => (0xFFFFFFFF#32, 0)
  let bits := (List.range 32).map (fun i => mw.getLsbD i)
  let q := (List.range 32).map (fun i => if mw.getLsbD i then elemOf t.fmt (bs.map (·.1)) i else 0)
  (q, sc.toNat, bits, ([poisonOf bs, ps, pm].find? (fun x => decide (x ≠ 0))).getD 0)

/-- A failed read of an element or a scale poisons it with origin 0 (R253); waiting goes on. -/
def orPoison {α : Type} (x : Rd α) (bad : α) : Rd α :=
  tryCatch x (fun e => match e with
    | .later => throw .later
    | _ => pure bad)

/-- A block of a handle map, from the pass's snapshot. -/
def handleBlock (r : Req) (snap : Option ViewSrc) (l b : Nat) : Rd (List Int × Nat × List Bool × Nat × Nat) := do
  match snap with
  | none => pure (List.replicate 32 0, 0, List.replicate 32 true, 1, 0)
  | some v =>
    let es ← (List.range 32).mapM (fun j => orPoison (viewElem r v l (32 * b + j)) (0, false, 1))
    let (sc, ps) ← orPoison (viewScale r v l b) (0#8, 1)
    let p := ((es.map (·.2.2) ++ [ps]).find? (fun x => decide (x ≠ 0))).getD 0
    pure (es.map (·.1), sc.toNat, List.replicate 32 true, p, (es.filter (·.2.1)).length)

/-- A line of an operand over blocks `k0 .. k0+n-1`. -/
def readLine (r : Req) (b : Nat) (t : Template) (m : OpMap) (snap : Option ViewSrc) (l k0 n : Nat) : Rd Line := do
  (List.range n).foldlM (fun (acc : Line) j => do
    let (q, sc, bits, p, sats) ← (match mapSpace b m with
      | some (s, d0, d1, ep, sp, bm) => do
        let d ← get
        let (q, sc, bits, p) := scratchBlock d t s d0 d1 ep sp bm l (k0 + j)
        pure (q, sc, bits, p, 0)
      | none => handleBlock r snap l (k0 + j))
    pure { q := acc.q ++ q, scales := acc.scales ++ [sc], bits := acc.bits ++ bits,
           poison := if acc.poison = 0 then p else acc.poison, sats := acc.sats + sats }) ⟨[], [], [], 0, 0⟩

/-- A line after the scale alignment of a K-tile (R131): elements, scale, whether it is a NaN line, elements changed. -/
structure Aligned where
  q : List Int
  e : Nat
  nan : Bool
  changed : Nat
  poison : Nat

def align (l : Line) : Aligned :=
  if l.scales.any (· == 255) then ⟨l.q, 0, true, 0, l.poison⟩
  else
    let emax := l.scales.foldl max 0
    let out := l.q.zipIdx.map (fun (qi : Int × Nat) =>
      let sh := emax - nth l.scales (qi.2 / 32) 0
      (FVal.toInt .rne ((qsVal qi.1 127).scale2 (-(sh : Int))), decide (qi.1 % (2 ^ sh : Int) ≠ 0)))
    ⟨out.map (·.1), emax, false, (out.filter (·.2)).length, l.poison⟩

/-- Blocks of a K-tile: 256 elements, 128 for QS16 (R129). -/
def ktileBlocks (fmt : Nat) : Nat := if fmt = 2 then 4 else 8

/-- The K-tiles of a pass: first block and how many. -/
def ktiles (t : Template) : List (Nat × Nat) :=
  let n := t.klen / 32
  let m := ktileBlocks t.fmt
  (List.range ((n + m - 1) / m)).map (fun i => (i * m, min m (n - i * m)))

/-- Rows of A that the pass works on. -/
def SignReg.rows (s : SignReg) : Nat := if s.tpl.kind = 2 then nth s.rowoff (s.rowoff.length - 1) 0 else side s.tpl.shape

/-- The row group of a row (R257). -/
def SignReg.groupOf (s : SignReg) (i : Nat) : Nat :=
  if s.tpl.kind = 2 then
    ((List.range s.tpl.gcnt).find? (fun g => decide (nth s.rowoff g 0 ≤ i ∧ i < nth s.rowoff (g + 1) 0))).getD 0
  else 0

/-- The line offset of B that row i and column j use. -/
def SignReg.colOf (s : SignReg) (i j : Nat) : Nat := s.groupOf i * side s.tpl.shape + j

/-- The entry that a handle map names (R251). -/
def OpMap.entry : OpMap → Nat
  | .hnd h => h.toNat
  | _ => 0

/-- A handle operand's view. -/
def passView (r : Req) (m : OpMap) (e : LEntry) : Rd ViewSrc := viewSrc r m.entry e

/-- Lines of B that some row uses. -/
def SignReg.usesB (s : SignReg) (l : Nat) : Bool :=
  (List.range s.rows).any (fun i => decide (s.groupOf i = l / side s.tpl.shape))

def linesB (s : SignReg) : Nat := if s.tpl.kind = 2 then side s.tpl.shape * s.tpl.gcnt else side s.tpl.shape

/-- The views of a pass's handle operands. -/
def passViews (r : Req) (p : Pass) : Rd (Option ViewSrc × Option ViewSrc) := do
  let va ← (match p.snapA with
    | some e => some <$> passView r p.sign.opA e
    | none => pure none)
  let vb ← (match p.snapB with
    | some e => some <$> passView r p.sign.opB e
    | none => pure none)
  pure (va, vb)

/-- The lines of A, or those of B that some row uses, over a K-tile. -/
def linesOfA (r : Req) (p : Pass) (va : Option ViewSrc) (kt : Nat × Nat) : Rd (List Line) :=
  (List.range p.sign.rows).mapM (fun i =>
    readLine r p.src p.sign.tpl p.sign.opA va (p.sign.tpl.arow + i) (p.sign.tpl.ak + kt.1) kt.2)
def linesOfB (r : Req) (p : Pass) (vb : Option ViewSrc) (kt : Nat × Nat) : Rd (List Line) :=
  (List.range (linesB p.sign)).mapM (fun j =>
    if p.sign.usesB j then readLine r p.src p.sign.tpl p.sign.opB vb (p.sign.tpl.bcol + j) (p.sign.tpl.bk + kt.1) kt.2
    else pure ⟨[], [], [], 0, 0⟩)

/-- A K-tile of the handle operands, which the tile fetch unit brings (R253). -/
def fetchKtile (r : Req) (p : Pass) (kt : Nat × Nat) : Rd (List Line × List Line) := do
  let (va, vb) ← passViews r p
  let a ← if isHandle p.sign.opA then linesOfA r p va kt else pure []
  let b ← if isHandle p.sign.opB then linesOfB r p vb kt else pure []
  pure (a, b)

/-- The snapshots' sparse layers cannot be read: every element is poisoned (R253). -/
def fetchKtileOr (r : Req) (p : Pass) (kt : Nat × Nat) : Rd (List Line × List Line) :=
  tryCatch (fetchKtile r p kt) (fun e => match e with
    | .later => throw .later
    | _ => fetchKtile r { p with snapA := none, snapB := none } kt)

/-- The operands of a pass: what the tile fetch unit has brought, and the scratch lines as they stand. -/
def readOperands (r : Req) (p : Pass) : Rd Operands := do
  let tiles ← (ktiles p.sign.tpl).zipIdx.mapM (fun (kt : (Nat × Nat) × Nat) => do
    let got := nth p.lines kt.2 ([], [])
    let a ← if isHandle p.sign.opA then pure got.1 else linesOfA r p none kt.1
    let b ← if isHandle p.sign.opB then pure got.2 else linesOfB r p none kt.1
    pure (a, b))
  pure ⟨tiles⟩

/-! ### The arithmetic of a pass -/

/-- What a pass changes: its tile, and the first element that became NaN. -/
structure PassOut where
  tile : Tile
  nan : Option (Nat × Nat × Nat)      -- K-tile, row, column

/-- The product of a row and a column over a K-tile (R128, R130, R132), with its underflow. -/
def product (fmt : Nat) (a b : Aligned) : FRes :=
  if a.nan || b.nan then ⟨f32.nanBits, Flags.none⟩
  else
    let x := if fmt = 2 then qs16Dot a.q b.q else residueDot a.q b.q
    let v : FVal := if x = 0 then .zero false else .fin (decide (x < 0)) x.natAbs ((a.e : Int) + (b.e : Int) - 254)
    f32.finish .rne false ⟨v, false⟩

/-- One element's update (R132) and what it counts (R140). `poison` is that of the pass: a poisoned operand word poisons the whole of what
the pass writes (R220). -/
def passElem (x : Tile) (i j : Nat) (fmt : Nat) (a b : Aligned) (poison : Nat) : Tile × Bool :=
  let p := product fmt a b
  let old := f32.read (x.elem i j).toNat
  let r := f32.finish .rne false (addExact .rne old (f32.read p.bits))
  let new := f32.read r.bits
  let under := p.fl.uf || r.fl.uf
  let inf := match old, new with
    | .fin _ _ _, .inf _ => true
    | .zero _, .inf _ => true
    | _, _ => false
  let nan := !old.isNan && new.isNan
  let poison := if x.poison i j = 0 then poison else x.poison i j
  let x : Tile := { x with
    vals := FMap.set 0 x.vals (tileKey i j) r.word, pois := FMap.set 0 x.pois (tileKey i j) poison,
    flsc := addSat x.flsc (if under then 1 else 0), infc := addSat x.infc (if inf then 1 else 0),
    nanc := addSat x.nanc (if nan then 1 else 0) }
  (x, nan)

/-- A whole K-tile over the tile. -/
def passKtile (s : SignReg) (poison kt : Nat) (la lb : List Line) (acc : PassOut) : PassOut :=
  let a := la.map align
  let b := lb.map align
  let zero : Aligned := ⟨[], 0, false, 0, 0⟩
  let flush := (a.map (·.changed)).sum + (b.map (·.changed)).sum
  let sats := if s.tpl.fmt = 2 then 0 else (la.map (·.sats)).sum + (lb.map (·.sats)).sum
  let acc := { acc with tile := { acc.tile with flsc := addSat acc.tile.flsc flush, satc := addSat acc.tile.satc sats } }
  (List.range s.rows).foldl (fun (acc : PassOut) i =>
    (List.range (side s.tpl.shape)).foldl (fun (acc : PassOut) j =>
      let (x, nan) := passElem acc.tile i j s.tpl.fmt (nth a i zero) (nth b (s.colOf i j) zero) poison
      { tile := x, nan := match acc.nan with
          | some n => some n
          | none => if nan then some (kt, i, j) else none }) acc) acc

/-- The poison of the first poisoned operand line. -/
def Operands.poison (o : Operands) : Nat :=
  ((o.tiles.flatMap (fun t => (t.1 ++ t.2).map (·.poison))).find? (fun p => decide (p ≠ 0))).getD 0

def passResult (s : SignReg) (x : Tile) (o : Operands) : PassOut :=
  o.tiles.zipIdx.foldl (fun (acc : PassOut) (tk : (List Line × List Line) × Nat) => passKtile s o.poison tk.2 tk.1.1 tk.1.2 acc) ⟨x, none⟩

/-- Steps of a K-tile that survive sparsity (R246, R256). -/
def tileSteps (s : SignReg) (blocks : Nat) (ab : List Line × List Line) : Nat :=
  let t := s.tpl
  let per := if t.fmt = 1 then 2 else 1
  let n := (ab.1.headD ⟨[], [], [], 0, 0⟩).q.length
  let alive := ((List.range (n / per)).filter (fun st => (List.range per).any (fun x =>
    ab.1.any (fun l => nth l.bits (st * per + x) false) && ab.2.any (fun l => nth l.bits (st * per + x) false)))).length
  let steps := if t.kind = 1 then alive else 32 * blocks / per
  if t.fmt = 2 then 4 * steps else steps

/-- The steps of a pass, K-tile by K-tile. -/
def ktileSteps (s : SignReg) (o : Operands) : List Nat :=
  (ktiles s.tpl).zipIdx.map (fun (kt : (Nat × Nat) × Nat) => tileSteps s kt.1.2 (nth o.tiles kt.2 ([], [])))

def passSteps (s : SignReg) (o : Operands) : Nat := (ktileSteps s o).sum

def passCycles (s : SignReg) (o : Operands) : Nat := 20 + passSteps s o + 12

/-- The cycle at which a pass that started at `t0` completes (R246): a K-tile whose operands are missing holds its steps back until they
come. -/
def passEnd (s : SignReg) (o : Operands) (came : List Nat) (t0 : Nat) : Nat :=
  (ktileSteps s o).zipIdx.foldl (fun t (n : Nat × Nat) => max t (nth came n.2 0) + n.1) (t0 + 20) + 12

/-! ### Arbiter and permits (R258-R260, R343) -/

def Dev.findPass (d : Dev) (clu id : Nat) : Option Pass := (d.engine clu).table.find? (fun p => decide (p.id = id))
def Dev.modPass (d : Dev) (clu id : Nat) (f : Pass → Pass) : Dev :=
  let e := d.engine clu
  d.putEngine clu { e with table := e.table.map (fun p => if p.id = id then f p else p) }

/-- A pass whose earlier entries on its tile have completed, not started yet. -/
def Engine.eligible (e : Engine) (p : Pass) : Bool :=
  p.started.isNone && !(e.table.any (fun q => decide (q.tile = p.tile ∧ q.id < p.id)))

def Dev.pcls (d : Dev) (b : Nat) : Nat := ((d.blocks[b]?).map (fun k => k.lrec.pcls)).getD 0

/-- The arbiter's choice (R259). -/
def Dev.passPick (d : Dev) (clu : Nat) : Option Pass :=
  let e := d.engine clu
  let ok := e.table.filter e.eligible
  match ok.find? (fun p => decide (p.entered + 4096 ≤ d.cycle)) with
  | some p => some p
  | none => ok.foldl (fun (acc : Option Pass) p => match acc with
      | none => some p
      | some q => if d.pcls q.blk < d.pcls p.blk then some p else some q) none

/-- The unused part of a block's reserve serves work of `n` permits (R343). -/
def Dev.fromReserve (d : Dev) (b n : Nat) : Option Dev :=
  match d.blocks[b]? with
  | none => none
  | some k =>
    if k.permit.held + n ≤ k.permit.granted ∧ k.permit.granted ≠ 0 then
      some (d.modBlock b (fun k => { k with permit := { k.permit with held := k.permit.held + n } }))
    else none

def Engine.running (e : Engine) : List Pass := e.table.filter (fun p => p.started.isSome)

/-- Sub-arrays of a mode (R245). -/
def subArrays (shape : Nat) : Nat := if shape = 0 then 1 else if shape = 1 then 4 else 16

/-- The chosen pass starts when its permits are granted, its tile's order has come to it, and a sub-array of its shape is
free; another shape's mode switch begins as soon as no pass runs (R259, R264). -/
def Dev.tryStart (d : Dev) (clu : Nat) : Dev :=
  let e := d.engine clu
  match e.chosen.bind (fun i => d.findPass clu i) with
  | none => d
  | some p =>
    let shape := p.sign.tpl.shape
    let turn := match d.tiles[p.tile]? with
      | some t => decide (t.order.head? = some (.pass p.id))
      | none => false
    if e.switch.isSome then d
    else if e.mode ≠ shape then (if e.running.isEmpty then d.putEngine clu { e with switch := some (shape, d.cycle) } else d)
    else if p.granted && turn && decide (e.running.length < subArrays shape) then
      (d.putEngine clu { e with chosen := none }).modPass clu p.id (fun p => { p with started := some d.cycle })
    else d

/-- PASS_CHOOSE: the arbiter chooses, and the chosen pass requests its permits. -/
def Dev.passChoose (d : Dev) (clu : Nat) : Dev :=
  let e := d.engine clu
  if e.chosen.isSome then d.tryStart clu
  else match d.passPick clu with
    | none => d
    | some p =>
      let n := passPermits p.sign.tpl.shape
      let d := d.putEngine clu { e with chosen := some p.id }
      match d.fromReserve p.blk n with
      | some d => (d.modPass clu p.id (fun p => { p with granted := true, reserve := true })).tryStart clu
      | none =>
        let part := ((d.blocks[p.blk]?).map (·.part)).getD 0
        (d.requestPermits (dieOf clu) { who := .pass p.id, part := part, n := n }).tryStart clu

def execPassChoose (clu : Nat) (s : State) : Out := event (·.passChoose clu) s

/-- The reserve meets its target: what lies above it goes back at once, but for what running work holds, which goes back with that work,
beside what earlier lowerings left with it (R343). -/
def Dev.settleReserve (d : Dev) (b : Nat) : Dev :=
  match d.blocks[b]? with
  | none => d
  | some k =>
    let extra := k.permit.granted - k.permit.excess - k.permit.n
    let give := min extra (k.permit.granted - k.permit.held)
    (d.modBlock b (fun k => { k with permit :=
      { k.permit with granted := k.permit.granted - give, excess := k.permit.excess + (extra - give) } })).returnPermits k.part
        (dieOf k.home) give

/-- PERMIT_GRANT: the oldest request of a die is granted whole if it fits and the supply allows it (R260, R396). A restored
block runs once its reserve is granted (R343). -/
def Dev.permitGrant (d : Dev) (die : Nat) : Dev :=
  let g := d.gov die
  match g.queue with
  | [] => d
  | r :: rest =>
    if g.hot || decide (d.permitPool r.part die < d.permitsUsed r.part die + r.n) then d
    else
      let d := (d.putGov die { g with queue := rest }).usePermits r.part die (· + r.n)
      match r.who with
      | .pass id =>
        (match (List.range 64).find? (fun clu => (d.findPass clu id).isSome) with
         | some clu => (d.modPass clu id (fun p => { p with granted := true })).tryStart clu
         | none => d)
      | .copy b c cmd =>
        d.modBlock b (fun k =>
          let ch := nth k.chans c Channel.init
          let cmds := ch.cmds.map (fun (x : CopyCmd) => if x.id = cmd then { x with granted := true } else x)
          { k with chans := setNth k.chans c { ch with cmds := cmds } })
      | .reserve b grp =>
        let d := (d.modBlock b (fun k => { k with permit := { k.permit with granted := k.permit.granted + r.n } })).settleReserve b
        match grp with
        | none => d.modBlock b (fun k => { k with preempt := false })
        | some n => match (d.group b n).bind (·.cmd) with
          | some c => d.unitDone b n c.op [] id
          | none => d

def execPermitGrant (die : Nat) (s : State) : Out := event (·.permitGrant die) s

/-- SUPPLY_CURRENT_OVER: the current monitors hold every grant of a die, or let grants go on (R396). -/
def execSupplyCurrentOver (die : Nat) (hot : Bool) (s : State) : Out :=
  event (fun d => if die < 2 then d.putGov die { d.gov die with hot := hot } else d) s

/-- PERMIT (R343). -/
def execPermit (a : BitVec 7) (s : State) : Out :=
  let i : Instr := .permit a
  issue i { reads := [.s a.toNat] } (fun v =>
    let x := (v.g.uni a.toNat).toNat
    if 64 < x then .trap (illegal (opWord i) v.act 0)
    else
      let die := dieOf v.k.home
      let n := min x (v.d.permitPool v.k.part die)
      let old := v.k.permit.n
      let d := v.d.modBlock v.b (fun k => { k with permit := { k.permit with n := n } })
      if old < n then
        match hold { v with d := d } i [] [] [] with
        | .held d g c => .held (d.requestPermits die { who := .reserve v.b (some v.n), part := v.k.part, n := n - old }) g c
        | r => r
      else .done (d.settleReserve v.b) v.g) s

/-- MODE_SWITCH_DONE: 8 cycles after the switch began the array is in its new mode and the chosen pass starts. -/
def Dev.modeSwitchDone (d : Dev) (clu : Nat) : Dev :=
  let e := d.engine clu
  match e.switch with
  | some (shape, since) =>
    if since + 8 ≤ d.cycle then (d.putEngine clu { e with mode := shape, switch := none }).tryStart clu else d
  | none => d

def execModeSwitchDone (clu : Nat) (s : State) : Out := event (·.modeSwitchDone clu) s

/-! ### Tile fetch and completion -/

def Dev.passReq (d : Dev) (clu : Nat) (p : Pass) : Req :=
  match d.blocks[p.src]? with
  | some k => k.req clu 2 p.id d
  | none => { part := 0, clu := clu, kind := 2, who := 0 }

/-- TILE_FETCH_COMPLETE: the next K-tile of a pass's handle operands has come, poisoned where a read failed (R253). A fetch that must
wait, for a page or for a pin, holds no pins (R377). -/
def Dev.tileFetch (d : Dev) (clu ent : Nat) : Dev :=
  match d.findPass clu ent with
  | none => d
  | some p =>
    if p.fetchedA && p.fetchedB || !(d.predDone p.src) then d
    else match (ktiles p.sign.tpl)[p.lines.length]? with
      | none => d
      | some kt =>
        match (fetchKtileOr (d.passReq clu p) p kt).run' d with
        | (.ok x, d') => d'.modPass clu ent (fun p =>
            let all := decide ((ktiles p.sign.tpl).length ≤ p.lines.length + 1)
            { p with lines := p.lines ++ [x], came := p.came ++ [d.cycle], fetchedA := p.fetchedA || all, fetchedB := p.fetchedB || all })
        | (.error _, d') => d'.unpin p.id

def execTileFetchComplete (clu ent : Nat) (s : State) : Out := event (·.tileFetch clu ent) s

/-- Clips of the QS16 views that a pass has fetched are counted in their entries (R276). -/
def Dev.notePass (d : Dev) (part : Nat) (s : SignReg) (o : Operands) : Dev :=
  if s.tpl.fmt = 2 then
    let count (f : List Line × List Line → List Line) : Nat := (o.tiles.map (fun t => ((f t).map (·.sats)).sum)).sum
    let d := if isHandle s.opA then d.noteView part s.opA.entry (count (·.1)) false else d
    if isHandle s.opB then d.noteView part s.opB.entry (count (·.2)) false else d
  else d

/-- The operands of a pass as they are now, unless they have been read. -/
def Dev.passOps (d : Dev) (clu : Nat) (p : Pass) : Option Operands × Dev :=
  match p.ops with
  | some o => (some o, d)
  | none => if !(p.fetchedA && p.fetchedB) then (none, d)
    else match (readOperands (d.passReq clu p) p).run' d with
      | (.ok o, d) => (some o, d)
      | (.error _, d) => (none, d)

/-- Earlier passes of a common signer whose operands have not been read. -/
def Dev.passesBefore (d : Dev) (clu : Nat) (p : Pass) : List Pass :=
  (d.engine clu).table.filter (fun q => decide (q.blk = p.blk ∧ q.id < p.id) && q.ops.isNone &&
    q.sign.signed.any (fun x => p.sign.signed.any (fun y => decide (x.1 = y.1))))

/-- The passes that a group signs read their operands in signing order (R216 note 8): those before a pass read theirs first. -/
def Dev.readBefore (d : Dev) (clu : Nat) (p : Pass) : Option Dev :=
  (d.passesBefore clu p).foldl (fun (acc : Option Dev) q => acc.bind (fun d => match d.passOps clu q with
    | (some o, d) => some (d.modPass clu q.id (fun q => { q with ops := some o }))
    | (none, _) => none)) (some d)

/-- PASS_COMPLETE (R132, R140, R141, R143, R246): the tile is updated, permits and pins go back, the signers' NZ is set, and the
first NaN is delivered to the lowest signer, whose trap was enabled, where that group still stands (R350). -/
def Dev.passComplete (d : Dev) (clu ent : Nat) : Dev :=
  match d.findPass clu ent with
  | none => d
  | some p =>
    match p.started, d.tiles[p.tile]?, d.readBefore clu p with
    | some t0, some x, some d1 =>
      match d1.passOps clu p with
      | (none, _) => d
      | (some o, d') =>
        if d.cycle < passEnd p.sign o p.came t0 then d
        else
          let r := passResult p.sign x o
          let d := ((d'.notePass (d.passReq clu p).part p.sign o).modTile p.tile (fun y => { r.tile with order := y.order, released := y.released })).popTile p.tile
          let e := d.engine clu
          let d := (d.putEngine clu { e with table := e.table.filter (fun q => decide (q.id ≠ ent)) }).unpin ent
          let d := d.donePermits p.blk (passPermits p.sign.tpl.shape) p.reserve
          let d := if r.nan.isNone then d else p.sign.signed.foldl (fun (d : Dev) g => d.modGroup p.blk g.1 (·.raiseBits gflNz)) d
          let d := match r.nan, p.sign.signed.head? with
            | some (kt, i, j), some (g, true) => d.modGroup p.blk g (fun y => y.defer (fun c => decide (c = cMATRIX_NAN))
                { cause := cMATRIX_NAN, origin := 0, info0 := BitVec.ofNat 32 p.sign.tpl.tile, info1 := BitVec.ofNat 32 kt,
                  info2 := BitVec.ofNat 32 (i * 65536 + j) })
            | _, _ => d
          let d := d.enterWaiting clu
          d.tryStart clu
    | _, _, _ => d

def execPassComplete (clu ent : Nat) (s : State) : Out := event (·.passComplete clu ent) s

end Sys2Proof.Machine
end

