-- ==== Sys2Proof/Machine/Copy.lean ====
section
/-! DEFINITION. Copy channels: COPY, COPY2, WPTR, CWAIT, CRST (R232-R240) with their command starts and deliveries, and far
atomics (R241, R242). -/

namespace Sys2Proof.Machine

open Sys2Proof

/-! ### Channels -/

def Block.chan (k : Block) (c : Nat) : Channel := nth k.chans c Channel.init
def Block.putChan (k : Block) (c : Nat) (x : Channel) : Block := { k with chans := setNth k.chans c x }
def Dev.modChan (d : Dev) (b c : Nat) (f : Channel → Channel) : Dev := d.modBlock b (fun k => k.putChan c (f (k.chan c)))

/-- The contiguous delivered prefix of a command (R237). -/
def prefixLen : List Piece → Nat
  | [] => 0
  | p :: ps => if p.done then p.len + prefixLen ps else 4 * p.got

/-- The write pointer, before it is taken modulo 2^32. -/
def Channel.pointer (c : Channel) : Nat :=
  c.base + (match c.cmds with
    | [] => 0
    | x :: _ => prefixLen x.pieces)

/-- A command has a parked request (R377). -/
def Dev.copyParked (d : Dev) (x : CopyCmd) : Bool := d.parks.any (fun p => !p.expired && p.who.contains (16 * x.id))

/-- The oldest command requests its permits whole, or takes them from the block's reserve (R236, R343). -/
def Dev.copyHead (d : Dev) (b c : Nat) : Dev :=
  match d.blocks[b]? with
  | none => d
  | some k =>
    match (k.chan c).cmds with
    | [] => d
    | x :: rest =>
      let die := dieOf k.home
      if x.granted || d.copyParked x || (d.gov die).queue.any (fun r => decide (r.who = .copy b c x.id)) then d
      else match d.fromReserve b (copyPermits x.total) with
        | some d => d.modChan b c (fun ch => { ch with cmds := { x with granted := true, reserve := true } :: rest })
        | none => d.requestPermits die { who := .copy b c x.id, part := k.part, n := copyPermits x.total }

/-! ### Commands -/

/-- A row cut where either side reaches a 64 KiB page boundary (R36). -/
def cutRow (src dst : Option Nat) : Nat → Nat → Nat → Nat → List Piece
  | 0, _, _, _ => []
  | fuel + 1, so, dof, n =>
    if n = 0 then []
    else
      let room (a : Option Nat) (o : Nat) : Nat := match a with
        | some a => 65536 - (a + o) % 65536
        | none => n
      let m := min n (min (room src so) (room dst dof))
      ⟨so, dof, m, false, 0⟩ :: cutRow src dst fuel (so + m) (dof + m) (n - m)

def memOf : Place → Option Nat
  | .mem a => some a
  | _ => none

/-- The pieces of a command in delivery order. -/
def piecesOf (src dst : Place) (len rows spitch dpitch : Nat) : List Piece :=
  (List.range rows).flatMap (fun i => cutRow (memOf src) (memOf dst) (2 * (len / 65536) + 4) (i * spitch) (i * dpitch) len)

/-- The checks of R235 from the second on, then acceptance (R232). -/
def copyIssue (v : View) (i : Instr) (c : Nat) (src dst : Place) (len rows spitch dpitch : Nat) : Res :=
  let low : Place → Nat := fun p => match p with
    | .mem a => a
    | .scratch _ a => a
    | .view _ _ => 0
  let bounds (p : Place) (pitch : Nat) : Bool := match p with
    | .scratch s a => v.d.flatOk s a (pitch * (rows - 1) + len)
    | _ => true
  let ch := v.k.chan c
  let snap := match src with
    | .view h _ => v.part.liveLayer h.toNat
    | _ => none
  let dead := match src with
    | .view _ _ => snap.isNone
    | _ => false
  let outside := match dst with
    | .mem _ => true
    | .scratch (.chip _) a => (List.range rows).any (fun r => !(v.k.inChipRegions (a + r * dpitch) len))
    | _ => false
  if low src % 4 ≠ 0 ∨ low dst % 4 ≠ 0 then .trap { cause := cMISALIGNED, lanes := v.act }
  else if !(bounds src spitch) || !(bounds dst dpitch) then .trap { cause := cSCRATCH_BOUNDS, lanes := v.act }
  else if dead then .trap { cause := cHANDLE_INVALID, lanes := v.act }
  else match ch.err with
    | some (cause, o, va) => .trap { cause := cause, origin := o, lanes := v.act, info0 := BitVec.ofNat 32 c,
                                     info1 := BitVec.ofNat 32 va, info2 := BitVec.ofNat 32 (va / 2 ^ 32) }
    | none =>
      if v.k.restricted && outside then .trap { cause := cREPLAY_VIOLATION, lanes := v.act }
      else if 8 ≤ ch.cmds.length then .wait (.channel c)
      else
        let (id, d) := v.d.newId
        let cmd : CopyCmd := { id := id, grp := v.n, src := src, dst := dst, snap := snap, total := len * rows, started := false,
                               granted := false, reserve := false, pieces := piecesOf src dst len rows spitch dpitch }
        let _ := i
        .done ((d.modChan v.b c (fun ch => { ch with cmds := ch.cmds ++ [cmd] })).copyHead v.b c) v.g

/-- COPY (Table 9-7). -/
def execCopy (c : BitVec 3) (a : BitVec 7) (s : State) : Out :=
  let i : Instr := .copy c a
  issue i { reads := us a.toNat 4 } (fun v =>
    let l := uniList v.g a 4
    let lvl := uword l 1 / 2 ^ 20 % 4
    let len := uword l 3 % 2 ^ 24
    match firstBad [true, decide (uword l 1 / 2 ^ 23 = 0 ∧ lvl ≠ 3), true,
        decide (uword l 3 / 2 ^ 24 = 0 ∧ len ≠ 0 ∧ len % 4 = 0)] with
    | some n => .trap (illegal (opWord i) v.act n)
    | none =>
      let mem : Place := .mem (uword l 0 + 2 ^ 32 * (uword l 1 % 2 ^ 20))
      let lv : Lvl := if lvl = 0 then .core else if lvl = 1 then .clu else .chip
      let scr : Place := .scratch (v.k.space v.b v.n lv 0) (uword l 2)
      if (nth l 1 0).getLsbD 22 then copyIssue v i c.toNat scr mem len 1 len len
      else copyIssue v i c.toNat mem scr len 1 len len) s

/-- An endpoint of COPY2 (Table 9-8). -/
def endpoint (v : View) (l : List Word) (i : Nat) : Place :=
  let kind := uword l (i + 1) / 2 ^ 20 % 16
  let hi := uword l (i + 1) % 2 ^ 20
  if kind = 0 then .mem (uword l i + 2 ^ 32 * hi)
  else if kind = 1 then .view (nth l i 0) (256 * hi)
  else .scratch (v.k.space v.b v.n (if kind = 2 then .core else if kind = 3 then .clu else .chip) 0) (uword l i)

def endpointOk (l : List Word) (i : Nat) (source : Bool) : Bool :=
  let kind := uword l (i + 1) / 2 ^ 20 % 16
  decide (uword l (i + 1) / 2 ^ 24 = 0 ∧ kind < 5) && (source || decide (kind ≠ 1)) &&
  (decide (kind < 2) || decide (uword l (i + 1) % 2 ^ 20 = 0))

/-- COPY2 (Table 9-8). -/
def execCopy2 (c : BitVec 3) (a : BitVec 7) (s : State) : Out :=
  let i : Instr := .copy2 c a
  issue i { reads := us a.toNat 8 } (fun v =>
    let l := uniList v.g a 8
    let len := uword l 4 % 2 ^ 24
    let rows := uword l 5 % 2 ^ 16
    let pitchOk (j : Nat) : Bool := decide (uword l j % 4 = 0) && (decide (rows ≤ 1) || decide (len ≤ uword l j))
    match firstBad [true, endpointOk l 0 true, true, endpointOk l 2 false,
        decide (uword l 4 / 2 ^ 24 = 0 ∧ len ≠ 0 ∧ len % 4 = 0),
        decide (uword l 5 / 2 ^ 16 = 0 ∧ rows ≠ 0 ∧ len * rows < 2 ^ 31), pitchOk 6, pitchOk 7] with
    | some n => .trap (illegal (opWord i) v.act n)
    | none => copyIssue v i c.toNat (endpoint v l 0) (endpoint v l 2) len rows (uword l 6) (uword l 7)) s

/-- The acquire of a pointer read: the core's copies of the bytes below it are dropped (R217, R238). -/
def Dev.copyAcquire (d : Dev) (core : Nat) (ch : Channel) : Dev :=
  let p := ch.pointer
  d.l1Drop core (fun x => ch.dests.any (fun t => decide (t.1 = x.space ∧ t.2.2.2 < p) &&
    meets t.2.1 t.2.2.1 (64 * x.sec) 64))

/-- WPTR (R238): a channel with an error gives a poisoned D. The value is there from the issuing step on (log 34). -/
def execWptr (c : BitVec 3) (d : BitVec 7) (s : State) : Out :=
  issue (.wptr c d) { var := [.v d.toNat] } (fun v =>
    let ch := v.k.chan c.toNat
    let (op, dv) := v.d.newId
    let reg := v.g.vreg d.toNat
    let g := v.g.markEmpty reg op
    let val : Word × Nat := match ch.err with
      | some (_, o, va) => (Config.poisonBits v.d.cycle va, o + 1)
      | none => (BitVec.ofNat 32 ch.pointer, 0)
    let dv := ((dv.copyAcquire v.core ch).putGroup v.b v.n g).answer op v.b v.n v.act [reg]
      (v.act.lanes.map (fun l => (l, [val])))
    .done dv ((dv.group v.b v.n).getD g)) s

/-- CWAIT (R238). -/
def execCwait (c : BitVec 3) (a : BitVec 7) (s : State) : Out :=
  issue (.cwait c a) { reads := [.s a.toNat] } (fun v =>
    let ch := v.k.chan c.toNat
    let thr := (v.g.uni a.toNat).toNat
    match ch.err with
    | some (cause, o, va) => .trap { cause := cause, origin := o, lanes := v.act, info0 := BitVec.ofNat 32 c.toNat,
                                     info1 := BitVec.ofNat 32 va, info2 := BitVec.ofNat 32 (va / 2 ^ 32) }
    | none =>
      if thr ≤ ch.pointer % 2 ^ 32 then .done (v.d.copyAcquire v.core ch) v.g else .wait (.cwait c.toNat thr)) s

/-- CRST (R239). -/
def execCrst (c : BitVec 3) (s : State) : Out :=
  issue (.crst c) {} (fun v =>
    if (v.k.chan c.toNat).cmds.isEmpty then .done (v.d.modChan v.b c.toNat (fun _ => Channel.init)) v.g
    else .trap { cause := cCHANNEL_BUSY, lanes := v.act }) s

/-! ### Deliveries -/

/-- COPY_COMMAND_START: the oldest command starts once its permits are granted (R236). -/
def Dev.copyStart (d : Dev) (b c : Nat) : Dev :=
  match d.blocks[b]? with
  | none => d
  | some k =>
    match (k.chan c).cmds with
    | [] => d
    | x :: rest =>
      if (x.started && x.granted) || !(d.predDone b) then d
      else if x.granted then d.modChan b c (fun ch => { ch with cmds := { x with started := true } :: rest })
      else d.copyHead b c

def execCopyCommandStart (blk : Nat) (c : BitVec 3) (s : State) : Out := event (·.copyStart blk c.toNat) s

def addOff (p : Place) (n : Nat) : Place :=
  match p with
  | .mem a => .mem (a + n)
  | .scratch s a => .scratch s (a + n)
  | .view h a => .view h (a + n)

/-- A source word of a copy: a view's words come from the command's snapshot (R234, R278). -/
def copyRead (r : Req) (src : Place) (snap : Option LEntry) : Rd (Word × Nat) :=
  match src with
  | .mem a => rdWord r a
  | .scratch s a => do
    let d ← get
    pure (d.homeWord s a)
  | .view h a => match snap with
    | none => throw .dead
    | some e => do
      let bs ← viewBytes r h.toNat e a 4
      pure ((wordsOf bs).headD (0, 0))

def copyWrite (r : Req) (dst : Place) (x : Word × Nat) : Rd Unit :=
  match dst with
  | .mem a => wrWord r a x
  | .scratch s a => modify (fun d => d.homePut s a x.1 x.2)
  | .view _ _ => pure ()

/-- The words of a piece, in delivery order: how many were delivered, and why it ended. -/
def copyWords (r : Req) (x : CopyCmd) (p : Piece) : Nat → Nat → Dev → (Nat × Option Stop) × Dev
  | 0, n, d => ((n, none), d)
  | fuel + 1, n, d =>
    if p.len ≤ 4 * n then ((n, none), d)
    else
      let move : Rd Unit := do
        let w ← copyRead r (addOff x.src (p.srcOff + 4 * n)) x.snap
        copyWrite r (addOff x.dst (p.dstOff + 4 * n)) w
      match move.run' d with
      | (.ok _, d) => copyWords r x p fuel (n + 1) d
      | (.error e, d) => ((n, some e), d)

/-- The head of a channel's queue is complete (R236, R237). -/
def Dev.copyDone (d : Dev) (b c : Nat) (x : CopyCmd) : Dev :=
  ((d.modChan b c (fun ch => { ch with base := ch.base + x.total, cmds := ch.cmds.tail })).donePermits b (copyPermits x.total)
    x.reserve).copyHead b c

/-- An error of a channel (R240): undelivered bytes and later commands are dropped. -/
def Dev.copyError (d : Dev) (b c : Nat) (x : CopyCmd) (pointer cause origin va : Nat) : Dev :=
  (d.modChan b c (fun ch => { ch with base := pointer, cmds := [], err := some (cause, origin, va) })).donePermits b
    (copyPermits x.total) x.reserve

/-- A command that has parked a request gives its permits back, and asks for them again once it goes on (R377). -/
def Dev.copyWaits (d : Dev) (b c : Nat) (x : CopyCmd) : Dev :=
  if d.copyParked x then
    (match (d.blocks[b]?).map (fun (k : Block) => (k.chan c).cmds) with
     | some (_ :: rest) => d.modChan b c (fun ch => { ch with cmds := { x with granted := false, reserve := false } :: rest })
     | _ => d).donePermits b (copyPermits x.total) x.reserve
  else d

/-- COPY_PIECE_DELIVERED: a piece of the oldest command, which has started (R237); while that command is parked nothing is delivered
(R377). A piece that must wait goes on later from where it stands. -/
def Dev.copyPiece (d : Dev) (b c piece : Nat) : Dev :=
  match d.blocks[b]? with
  | none => d
  | some k =>
    let ch := k.chan c
    match ch.cmds with
    | [] => d
    | x :: rest =>
      match x.pieces[piece]? with
      | none => d
      | some p =>
        if p.done || !x.started || !x.granted || d.copyParked x then d
        else
          let r := k.req (clusterOf (k.coreOf x.grp)) 0 x.id d
          match copyWords r x p (p.len / 4 + 1) p.got d with
          | ((n, stop), d') =>
            let before := (x.pieces.take piece).all (·.done)
            let start := ch.base + ((x.pieces.take piece).map (·.len)).sum
            let reached := if before then start + 4 * n else ch.pointer
            let x' := { x with pieces := setNth x.pieces piece { p with done := stop.isNone, got := n } }
            let dest := match x.dst with
              | .scratch s a => if s.cached && decide (p.got = 0 ∧ n ≠ 0) then [(s, a + p.dstOff, p.len, start)] else []
              | _ => []
            let moved := d'.modChan b c (fun ch => { ch with cmds := x' :: rest, dests := ch.dests ++ dest })
            match stop with
            | some .later => moved.copyWaits b c x'
            | some (.perm va) => d'.copyError b c x reached cENGINE_XLATE 0 va
            | some (.poisonWrite o va) => d'.copyError b c x reached cPOISON o va
            | some .dead => d'.copyError b c x reached cENGINE_XLATE 0 0
            | none => if x'.pieces.all (·.done) then moved.copyDone b c x' else moved

def execCopyPieceDelivered (blk : Nat) (c : BitVec 3) (piece : Nat) (s : State) : Out := event (·.copyPiece blk c.toNat piece) s

/-! ### Far atomics (R241, R242) -/

/-- The 64-bit address of a lane. -/
def farAddr (g : Group) (a : BitVec 7) (l : Nat) : BitVec 64 :=
  pair64 (g.word (g.vreg a.toNat) l) (g.word (g.vreg (a.toNat + 1)) l)

/-- The new value of a far atomic; `y` is cas's new value. -/
def fatomV (f : FatomOp) (old x y : Word) : Word :=
  match f with
  | .addI => old + x
  | .addF32 => (faddV .rne false old x).w
  | .min => iminV false old x
  | .max => imaxV false old x
  | .minN => iminV true old x
  | .maxN => imaxV true old x
  | .exch => x
  | .cas => if old = x then y else old

def execFatom (f : FatomOp) (d a b : BitVec 7) (s : State) : Out :=
  let n := if f = .cas then 2 else 1
  issue (.fatom f d a b) { reads := vs a 2 ++ vs b n, var := [.v d.toNat] } (fun v =>
    let addr := farAddr v.g a
    let mis : Mask := Mask.ofFn (fun l => v.act.getLsbD l && decide ((addr l).toNat % 4 ≠ 0))
    let far : Mask := Mask.ofFn (fun l => v.act.getLsbD l && decide (2 ^ 52 ≤ (addr l).toNat))
    let t (c : Nat) (m : Mask) : Res :=
      .trap { cause := c, lanes := m, info0 := lo64 (addr (Mask.lowest m)), info1 := hi64 (addr (Mask.lowest m)) }
    if mis ≠ 0#32 then t cMISALIGNED mis
    else if far ≠ 0#32 then t cENGINE_XLATE far
    else if v.k.restricted then t cREPLAY_VIOLATION v.act
    else
      let (op, dv) := v.d.newId
      let reg := v.g.vreg d.toNat
      let g := v.g.markEmpty reg op
      let lanes := v.doers.map (fun l => (l, (addr l).toNat, v.g.src (.v b) l, v.g.word (v.g.vreg (b.toNat + n - 1)) l))
      let idle := (v.act &&& v.g.helper : Mask).lanes.map (fun l => (l, [((0 : Word), 0)]))
      let dv := dv.putGroup v.b v.n g
      let dv := if lanes.isEmpty then dv.answer op v.b v.n v.act [reg] idle
        else { dv with cmds := dv.cmds ++ [{ op := op, blk := v.b, grp := v.n, act := v.act, regs := [reg],
                                             kind := .fatom f lanes idle }] }
      .done dv ((dv.group v.b v.n).getD g)) s

/-- A lane's far atomic at its word's home: the old value, poisoned where it cannot be performed. -/
def Dev.farApply (d : Dev) (r : Req) (f : FatomOp) (addr : Nat) (x y : Word) : Option (Word × Nat) × Dev :=
  match d.translate r .write addr with
  | (.later, d) => (none, d)
  | (.perm, d) => (some (poisoned d addr 0), d.settleParks)
  | (.poison o, d) => (some (poisoned d addr o), d.settleParks)
  | (.ok p, d) =>
    match p with
    | .window _ => (some (poisoned d addr 0), d)
    | p =>
      let ((old, po), d) := d.physRead p r.kind r.part
      if po ≠ 0 then (some (old, po), d)
      else match d.physWrite p (bytesLE (fatomV f old x y).toNat 4) r.kind r.part with
        | (none, d) => (some (old, 0), d)
        | (some o, d) => (some (poisoned d addr o), d)

/-- FATOM_PERFORMED: one lane, after the group's earlier far atomics and lower lanes on the same word (R216 note 10). -/
def Dev.fatomPerformed (d : Dev) (op lane : Nat) : Dev :=
  match d.cmds.find? (fun c => decide (c.op = op)) with
  | none => d
  | some c =>
    match c.kind with
    | .fatom f lanes got =>
      match lanes.find? (fun x => decide (x.1 = lane)) with
      | none => d
      | some (_, addr, x, y) =>
        let lower := lanes.any (fun z => decide (z.1 < lane ∧ z.2.1 = addr))
        let earlier := d.cmds.any (fun e => decide (e.blk = c.blk ∧ e.grp = c.grp ∧ e.op < op) && (match e.kind with
          | .fatom _ ls _ => ls.any (fun z => decide (z.2.1 = addr))
          | _ => false))
        if lower || earlier || !(d.predDone c.blk) then d
        else
          let r := match d.blocks[c.blk]? with
            | some k => k.req (clusterOf (k.coreOf c.grp)) 4 (64 * op + lane) d
            | none => { part := 0, clu := 0, kind := 4, who := 0 }
          match d.farApply r f addr x y with
          | (none, d) => d
          | (some old, d) =>
            let left := lanes.filter (fun z => decide (z.1 ≠ lane))
            let got := got ++ [(lane, [old])]
            let kind : CmdKind := if left.isEmpty then .answer got else .fatom f left got
            ({ d with cmds := d.cmds.map (fun (e : Cmd) => if e.op = op then { e with kind := kind } else e) } : Dev).settle
    | _ => d

def execFatomPerformed (op lane : Nat) (s : State) : Out := event (·.fatomPerformed op lane) s

end Sys2Proof.Machine
end

