-- ==== Sys2Proof/Machine/Trays.lean ====
section
/-! DEFINITION. Trays (12): opening, insertion, delivery, the end of a tray, batches of a bound tray (R290-R306, R352), and
the merge-path unit (R309, R310). -/

namespace Sys2Proof.Machine

open Sys2Proof

/-! ### Handles and descriptors (R290-R292) -/

/-- The descriptor's offset and the record size code of a handle. -/
def trayOff (h : Word) : Nat := h.toNat / 128 * 128
def trayRs (h : Word) : Nat := h.toNat % 4
/-- Words of a record. -/
def recWords (rs : Nat) : Nat := if rs = 0 then 4 else if rs = 1 then 8 else 16

def Tray.w (t : Tray) : Nat := recWords t.rs
def Tray.room (t : Tray) : Nat := t.cap + t.spcap - t.recs.length
def Tray.closed (t : Tray) : Bool := decide (t.nprod ≤ t.closes)

def Part.tray (p : Part) (h : Word) : Option Tray := p.trays.find? (fun t => decide (trayOff t.handle = trayOff h))
def Dev.modTray (d : Dev) (part : Nat) (h : Word) (f : Tray → Tray) : Dev :=
  d.modPart part (fun p => { p with trays := p.trays.map (fun (t : Tray) => if trayOff t.handle = trayOff h then f t else t) })

def powerOfTwo (n : Nat) : Bool := decide (n ≠ 0 ∧ 2 ^ Nat.log2 n = n)

/-- A failure of a tray operation (Table 12-4): the cause, its code and the handle it concerns. -/
structure TrayFail where
  cause : Nat
  code : Nat
  handle : Word

/-- What an operation finds at its home unit. -/
inductive TrayAt where
  | live (t : Tray)
  | done (room : Nat)       -- a done tray, and the room its descriptor gives
  | fails (f : TrayFail)

/-- Table 12-1, but for RS: the descriptor at an offset of chip scratchpad. -/
def trayRead (m : Memory) (h : Word) (size : Nat) : Option Tray :=
  let o := trayOff h
  let num (a n : Nat) : Nat := Memory.readLE m (o + a) n
  let dedup := (Memory.read m (o + 2)).getLsbD 0
  let spcap := num 0xC 4
  let dcap := num 0x1C 4
  let ok := decide (num 2 1 < 4 ∧ num 3 1 = 0 ∧ num 4 2 ≠ 0 ∧ 32 ≤ num 8 4 ∧ num 8 4 ≤ 2 ^ 20 ∧ spcap ≤ 2 ^ 28 ∧
      num 0x10 8 % 64 = 0 ∧ (spcap = 0 → num 0x10 8 = 0)) &&
    (if dedup then decide (num 0x18 4 % 128 = 0 ∧ 32 ≤ dcap ∧ dcap ≤ 2 ^ 20 ∧ num 0x18 4 + 8 * dcap ≤ size) && powerOfTwo dcap
     else decide (num 0x18 4 = 0 ∧ dcap = 0)) &&
    (List.range 80).all (fun i => decide (num (0x30 + i) 1 = 0))
  if ok then
    some { handle := h, rs := trayRs h, dedup := dedup, drem := (Memory.read m (o + 2)).getLsbD 1, nprod := num 4 2, xto := num 6 2,
           cap := num 8 4, spcap := spcap, spill := num 0x10 8, dset := num 0x18 4, dcap := dcap, recs := [], keys := [],
           pushed := 0, popped := 0, spilled := 0, dups := 0, closes := 0, waitPush := [], waitPop := [], writes := [], harm := 0,
           bound := none, timer := none, batchNo := 0 }
  else none

/-- The home unit looks a handle up, and opens the tray where its STATE is 1 (R292). -/
def Dev.trayLook (d : Dev) (part : Nat) (h : Word) : TrayAt × Dev :=
  let p := d.part part
  let o := trayOff h
  let size := p.cfg.chipShare * p.cfg.slices.length
  let bad (cause code : Nat) : TrayAt × Dev := (.fails ⟨cause, code, h⟩, d)
  if h.toNat % 128 / 4 ≠ 0 ∨ trayRs h = 3 ∨ size < o + 128 then bad cHANDLE_INVALID 0
  else match p.tray h with
    | some t => if t.rs = trayRs h then (.live t, d) else bad cHANDLE_INVALID 1
    | none =>
      let state := (Memory.read p.chip o).toNat
      let rsOk := decide ((Memory.read p.chip (o + 1)).toNat = trayRs h)
      if state = 1 then
        if !rsOk then bad cHANDLE_INVALID 1
        else match trayRead p.chip h size with
          | none => bad cHANDLE_INVALID 6
          | some t =>
            if p.cfg.pool < p.poolUsed + t.cap * (4 * t.w) then bad cTRAY_EXHAUSTED 1
            else
              let d := d.putPart part { p with trays := p.trays ++ [t], poolUsed := p.poolUsed + t.cap * (4 * t.w) }
              (.live t, d.homeByte (.chip part) o 2)
      else if state = 4 then
        (if rsOk then (.done (Memory.readLE p.chip (o + 8) 4 + Memory.readLE p.chip (o + 0xC) 4), d) else bad cHANDLE_INVALID 1)
      else bad cHANDLE_INVALID 0

/-! ### Batches (R306, R352) -/

/-- Keys of records that leave a tray with DREM leave the set. -/
def Tray.dropKeys (t : Tray) (rs : List Rec) : Tray :=
  if t.drem then { t with keys := t.keys.filter (fun k => !(rs.any (fun r => decide (r.key = some k)))) } else t

/-- The oldest records leave the tray, delivered or batched. -/
def Tray.take (t : Tray) (n : Nat) : Tray :=
  { t.dropKeys (t.recs.take n) with recs := t.recs.drop n, popped := t.popped + min n t.recs.length }

/-- A batch of the oldest `n` records forms for the node's launch; the timer starts again where records are left. -/
def Dev.formBatch (d : Dev) (part : Nat) (h : Word) (n : Nat) : Dev :=
  match (d.part part).tray h with
  | none => d
  | some t => match t.bound with
    | none => d
    | some l =>
      let b : Batch := { no := t.batchNo, recs := t.recs.take n }
      let d := d.modLaunch l (fun x => { x with batches := x.batches ++ [b] })
      d.modTray part h (fun t =>
        let t := t.take n
        { t with batchNo := t.batchNo + 1, timer := if t.recs.isEmpty then none else some d.cycle })

/-- NBATCH and NTIME of the node a tray is bound to. -/
def Dev.nodeOf (d : Dev) (t : Tray) : Option LRecord := t.bound.bind (fun l => (d.launches[l]?).map (·.lrec))

/-- Every full batch that the held records allow. -/
def Dev.formFull (d : Dev) (part : Nat) (h : Word) : Nat → Dev
  | 0 => d
  | fuel + 1 =>
    match (d.part part).tray h with
    | none => d
    | some t => match d.nodeOf t with
      | none => d
      | some r => if r.nbatch ≤ t.recs.length ∧ r.nbatch ≠ 0 then (d.formBatch part h r.nbatch).formFull part h fuel else d

/-- The partial batch of an expiry or of the close. -/
def Dev.formRest (d : Dev) (part : Nat) (h : Word) : Dev :=
  match (d.part part).tray h with
  | none => d
  | some t => if t.bound.isSome && !t.recs.isEmpty then d.formBatch part h t.recs.length else d

/-! ### Insertion (R294, R297, R301) -/

/-- A record enters at the newest end: in the pool while it has room, else in the spill ring, whose write starts. -/
def Tray.insert (t : Tray) (ws : List Word) (key : Option Word) (clu cycle : Nat) : Tray :=
  let words : List (Word × Nat) := ws.map (fun w => (w, 0))
  let spills := decide (t.cap ≤ t.recs.length)
  { t with
    recs := t.recs ++ [{ words := words, key := key, spillNo := if spills then some t.spilled else none }],
    writes := if spills then t.writes ++ [{ no := t.spilled, words := words, clu := clu }] else t.writes,
    spilled := if spills then t.spilled + 1 else t.spilled,
    pushed := t.pushed + 1,
    timer := if t.bound.isSome ∧ t.recs.isEmpty then some cycle else t.timer }

/-- A record of one lane of a push or an insert; full batches form when all its lanes are served (R297, R306). -/
def Dev.insertRec (d : Dev) (part clu : Nat) (h : Word) (ws : List Word) (key : Option Word) : Dev :=
  d.modTray part h (fun t => t.insert ws key clu d.cycle)

/-! ### The end of a tray (R293) -/

/-- A spill write, while its record's words are held (R294): written; failed, with the origin of the poison and whether
the failure is a permission failure; or waiting for a page. -/
inductive SpillEnd where
  | ok
  | fails (origin : Nat) (perm : Bool)
  | later

def spillWords (r : Req) (a : Nat) (ws : List (Word × Nat)) : Rd Unit :=
  ws.zipIdx.forM (fun (wi : (Word × Nat) × Nat) => wrWord r (a + 4 * wi.2) wi.1)

/-- The record's place in the spill ring. -/
def Tray.spillAddr (t : Tray) (x : SpillWrite) : Nat := t.spill + 4 * t.w * (x.no % t.spcap)

def Dev.spillWrite (d : Dev) (part : Nat) (x : LateSpill) : SpillEnd × Dev :=
  let r := unitReq part x.write.clu 5 (2 ^ 30 * (trayOff x.handle / 128) + x.write.no)
  match (spillWords r x.addr x.write.words).run' d with
  | (.ok _, d) => (.ok, d)
  | (.error .later, d) => (.later, d)
  | (.error (.perm _), d) => (.fails 0 true, d)
  | (.error (.poisonWrite o _), d) => (.fails o false, d)
  | (.error .dead, d) => (.fails 0 false, d)

/-- Groups that wait at a tray issue their operation to the unit anew: it finds the tray as it is now. -/
def Dev.unwait (d : Dev) (l : List Waiter) : Dev :=
  l.foldl (fun (d : Dev) w => d.modGroup w.blk w.grp (fun g => match g.cmd with
    | some c => { g with cmd := some { c with waits := false } }
    | none => g)) d

/-- A closed tray with no record is done: the pool is given back, and the counts and STATE 4 are written. Spill writes
still on their way go on (R294), and the deduplication set's bytes hold what the unit left there (R304). -/
def Dev.trayDone (d : Dev) (part : Nat) (h : Word) : Dev :=
  match (d.part part).tray h with
  | none => d
  | some t =>
    if t.closed && t.recs.isEmpty then
      let d := d.modPart part (fun p => { p with
        trays := p.trays.filter (fun (x : Tray) => decide (trayOff x.handle ≠ trayOff h)),
        late := p.late ++ t.writes.map (fun x => ⟨t.handle, t.spillAddr x, x⟩),
        poolUsed := p.poolUsed - t.cap * (4 * t.w) })
      let d := d.homeBytes (.chip part) (if t.dedup then
        (List.range (8 * t.dcap)).map (fun i => (t.dset + i, Config.setByte d.cycle (t.dset + i))) else [])
      let o := trayOff t.handle
      let put (d : Dev) (a x : Nat) : Dev := d.homeBytes (.chip part) (wordBytes (o + a) (BitVec.ofNat 32 x))
      let d := put (put (put (put d 0x20 t.pushed) 0x24 t.popped) 0x28 t.spilled) 0x2C t.dups
      (d.homeByte (.chip part) o 4).unwait (t.waitPush ++ t.waitPop)
    else d

/-- The close that closes a tray: the last partial batch forms, and pushes that wait find it closed (R303, R352). -/
def Dev.trayClose (d : Dev) (part : Nat) (h : Word) : Dev :=
  let d := d.modTray part h (fun t => { t with closes := t.closes + 1 })
  match (d.part part).tray h with
  | none => d
  | some t =>
    if t.closed then
      let d := (d.formRest part h).unwait t.waitPush
      (d.modTray part h (fun t => { t with waitPush := [] })).trayDone part h
    else d

/-! ### Operations at the home unit -/

/-- The device-scope release that a push, an insert or a close is (R216 note 5). -/
def Dev.trayRelease (d : Dev) (b n : Nat) : Bool := d.released b n true

def trayTrap (c : UnitCmd) (f : TrayFail) : Trap :=
  { cause := f.cause, lanes := c.act, info0 := f.handle, info1 := BitVec.ofNat 32 f.code }

/-- The answer of an operation that writes one word to D in some lanes. -/
def answer1 (reg : RegRef) (l : List (Nat × Word)) : List (RegRef × List (Nat × Word × Nat)) :=
  [(reg, l.map (fun x => (x.1, x.2, 0)))]

/-- The group waits at the tray. -/
def Dev.trayWait (d : Dev) (b n : Nat) (c : UnitCmd) : Dev :=
  d.modGroup b n (fun g => { g with cmd := some { c with waits := true } })

/-- Lanes of an operation that insert: helper lanes do not (R332). -/
def UnitCmd.doers (c : UnitCmd) (g : Group) : List Nat := Mask.lanes (c.act &&& ~~~g.helper)

def UnitCmd.words (c : UnitCmd) (l : Nat) : List Word := ((c.vals.find? (fun x => decide (x.1 = l))).map (·.2)).getD []

/-- Inserting the records of a push: each lane's answer is 1. -/
def Dev.pushAll (d : Dev) (part clu : Nat) (h : Word) (c : UnitCmd) (ls : List Nat) : Dev :=
  ls.foldl (fun (d : Dev) l => d.insertRec part clu h (c.words l) none) d

/-- TRAY.PUSH.nb: each lane while room lasts and nobody waits. -/
def Dev.pushNb (d : Dev) (part clu : Nat) (h : Word) (c : UnitCmd) (ls : List Nat) : List (Nat × Word) × Mask × Dev :=
  ls.foldl (fun (acc : List (Nat × Word) × Mask × Dev) l =>
    let (vals, bits, d) := acc
    match (d.part part).tray h with
    | some t =>
      if t.waitPush.isEmpty && decide (0 < t.room) then
        (vals ++ [(l, 1#32)], bits ||| Mask.one l, d.insertRec part clu h (c.words l) none)
      else (vals ++ [(l, 0#32)], bits, d)
    | none => (vals ++ [(l, 0#32)], bits, d)) ([], 0#32, d)

/-- The set holds a key; after a store into its bytes the unit may answer otherwise for the keys that the store touched (R304). -/
def Tray.holdsKey (t : Tray) (k : Word) : Bool :=
  if t.harm = 0 then t.keys.contains k else (Config.keyAnswer t.harm (t.pushed + t.dups) k).getD (t.keys.contains k)

/-- TRAY.INSD: a record for each key that is not in the set (R301). -/
def Dev.insertAll (d : Dev) (part clu : Nat) (h : Word) (w : Nat) (c : UnitCmd) (ls : List Nat) : List (Nat × Word) × Dev :=
  ls.foldl (fun (acc : List (Nat × Word) × Dev) l =>
    let (vals, d) := acc
    let k := nth (c.words l) 0 0
    let ws := k :: List.replicate (w - 1) 0#32
    match (d.part part).tray h with
    | some t =>
      if t.holdsKey k then (vals ++ [(l, 0#32)], d.modTray part h (fun t => { t with dups := t.dups + 1 }))
      else if t.dcap ≤ t.keys.length then (vals ++ [(l, 2#32)], d.insertRec part clu h ws none)
      else (vals ++ [(l, 1#32)], (d.modTray part h (fun t => { t with keys := t.keys ++ [k] })).insertRec part clu h ws (some k))
    | none => (vals, d)) ([], d)

/-- Delivery of records to the lanes of a pop: their words, and p6 (R299). -/
def deliver (regs : List RegRef) (ls : List Nat) (rs : List Rec) : List (RegRef × List (Nat × Word × Nat)) × Mask :=
  (regs.zipIdx.map (fun (ri : RegRef × Nat) => (ri.1, ls.zipIdx.map (fun (li : Nat × Nat) =>
      let x : Word × Nat := match rs[li.2]? with
        | some r => nth r.words ri.2 (0, 0)
        | none => (0, 0)
      (li.1, x.1, x.2)))),
   (ls.zipIdx.filter (fun li => decide (li.2 < rs.length))).foldl (fun (m : Mask) li => m ||| Mask.one li.1) 0#32)

/-- The newest records leave a victim (R300). -/
def Tray.steal (t : Tray) (n : Nat) : List Rec × Tray :=
  let m := min n t.recs.length
  let rs := t.recs.drop (t.recs.length - m)
  (rs, { t.dropKeys rs with recs := t.recs.take (t.recs.length - m), popped := t.popped + m })

/-- A pop that delivers something, or that finds the tray done, is a device-scope acquire (R299). -/
def Dev.popAcquire (d : Dev) (k : Block) (n : Nat) : Dev := d.acquire (k.coreOf n) .dev

/-- A pop joins the waiters of a tray. -/
def Dev.waitPop (d : Dev) (part : Nat) (h : Word) (b n : Nat) : Dev :=
  d.modTray part h (fun t => if t.waitPop.any (fun w => decide (w.blk = b ∧ w.grp = n)) then t
    else { t with waitPop := t.waitPop ++ [⟨b, n, d.cycle⟩] })

def Dev.unwaitPop (d : Dev) (part : Nat) (b n : Nat) : Dev :=
  d.modPart part (fun p => { p with trays := p.trays.map (fun (t : Tray) =>
    { t with waitPop := t.waitPop.filter (fun w => decide (w.blk ≠ b ∨ w.grp ≠ n)) }) })

/-- The group may take records of a tray: no other waits there before it (R295). A pop that does not wait takes what is held (log 46). -/
def Tray.turn (t : Tray) (nb : Bool) (b n : Nat) : Bool :=
  nb || (match t.waitPop.head? with
    | some w => decide (w.blk = b ∧ w.grp = n)
    | none => true)

/-- The victim's part of a steal (R300): tray A holds no record; `liveA` says that A may still get some. `finish` delivers. -/
def trayStealFrom (d : Dev) (b n : Nat) (k : Block) (c : UnitCmd) (nb : Bool) (hb : Word) (liveA : Bool)
    (finish : Dev → List Rec → Bool → UnitRes) : UnitRes :=
  let part := k.part
  let ha := nth c.unis 0 0
  let fails (d : Dev) (f : TrayFail) : UnitRes := .trap (d.unwaitPop part b n) (trayTrap c f)
  let nothing (d : Dev) (liveB : Bool) : UnitRes :=
    if nb || (!liveA && !liveB) then finish d [] (!liveA || !liveB)
    else
      let d := if liveA then d.waitPop part ha b n else d
      let d := if liveB then d.waitPop part hb b n else d
      .wait (d.trayWait b n c)
  if ha = hb then nothing d liveA
  else match d.trayLook part hb with
    | (.fails f, d) => fails d f
    | (.done _, d) => if trayRs ha = trayRs hb then nothing d false else fails d ⟨cHANDLE_INVALID, 1, hb⟩
    | (.live t, d) =>
      if trayRs ha ≠ trayRs hb then fails d ⟨cHANDLE_INVALID, 1, hb⟩
      else if t.bound.isSome then fails d ⟨cHANDLE_INVALID, 4, hb⟩
      else if t.recs.isEmpty || !t.turn nb b n then nothing d true
      else
        let (rs, t') := t.steal (Mask.lanes c.act).length
        finish ((d.modTray part hb (fun _ => t')).trayDone part hb) rs true

/-- A pop at tray A, and where A holds nothing at its victim. A pop that acquires follows what the group has read (log 83). -/
def trayPop (d : Dev) (b n : Nat) (k : Block) (c : UnitCmd) (nb : Bool) (reg : Nat) (victim : Option Word) : UnitRes :=
  let part := k.part
  let ha := nth c.unis 0 0
  let ls := Mask.lanes c.act
  let regs := match d.group b n with
    | some g => (List.range (recWords (trayRs ha))).map (fun i => g.vreg (reg + i))
    | none => []
  let finish (d : Dev) (rs : List Rec) (acq : Bool) : UnitRes :=
    let (vals, bits) := deliver regs ls rs
    let d := d.unwaitPop part b n
    .donep (if acq then d.popAcquire k n else d) vals c.act bits
  if !d.returned b n then .wait d
  else match d.trayLook part ha with
  | (.fails f, d) => .trap (d.unwaitPop part b n) (trayTrap c f)
  | (.done _, d) => match victim with
    | none => finish d [] true
    | some hb => trayStealFrom d b n k c nb hb false finish
  | (.live t, d) =>
    if t.bound.isSome then .trap (d.unwaitPop part b n) (trayTrap c ⟨cHANDLE_INVALID, 4, ha⟩)
    else if t.turn nb b n && !t.recs.isEmpty then
      finish ((d.modTray part ha (fun t => t.take ls.length)).trayDone part ha) (t.recs.take ls.length) true
    else match victim with
      | some hb => if t.recs.isEmpty then trayStealFrom d b n k c nb hb true finish
          else .wait ((d.waitPop part ha b n).trayWait b n c)
      | none => if nb then finish d [] false else .wait ((d.waitPop part ha b n).trayWait b n c)

/-- A push or an insert that may take room now: no earlier one waits, or its turn has come, and there is room for all
its records (R298). -/
def Tray.mayPush (t : Tray) (n : Nat) (serve : Bool) : Bool := (serve || t.waitPush.isEmpty) && decide (n ≤ t.room)

/-- The home unit performs or refuses a tray operation. -/
def trayPerform (serve : Bool) (d : Dev) (b n : Nat) (k : Block) (c : UnitCmd) : UnitRes :=
  let part := k.part
  let h := nth c.unis 0 0
  let g := (d.group b n).getD (Group.start 0 0 0 0 [] 0 0)
  let ls := c.doers g
  let closedFail : Trap := trayTrap c ⟨cHANDLE_INVALID, 2, h⟩
  let release := d.trayRelease b n
  let clu := clusterOf (k.coreOf n)
  /- the waiting form: `body` once the records fit -/
  let waitRoom (d : Dev) (t : Tray) (body : Dev → UnitRes) : UnitRes :=
    if t.mayPush ls.length serve then body d
    else if t.waitPush.any (fun w => decide (w.blk = b ∧ w.grp = n)) then .wait d
    else .wait ((d.modTray part h (fun t => { t with waitPush := t.waitPush ++ [⟨b, n, d.cycle⟩] })).trayWait b n c)
  let pop (d : Dev) : Dev := if serve then d.modTray part h (fun t => { t with waitPush := t.waitPush.tail }) else d
  match c.instr with
  | .trayPush nb r _ _ =>
    if !release then .wait d
    else match d.trayLook part h with
      | (.fails f, d) => .trap d (trayTrap c f)
      | (.done _, d) => .trap d closedFail
      | (.live t, d) =>
        if t.closed then .trap d closedFail
        else if nb then
          let (vals, bits, d) := d.pushNb part clu h c ls
          .donep (d.formFull part h 33) (answer1 (g.vreg r.toNat) vals) (c.act &&& ~~~g.helper) bits
        else waitRoom d t (fun d => .done (pop ((d.pushAll part clu h c ls).formFull part h 33)) (answer1 (g.vreg r.toNat) (ls.map (fun l => (l, 1#32)))))
  | .trayInsd r _ _ =>
    if !release then .wait d
    else match d.trayLook part h with
      | (.fails f, d) => .trap d (trayTrap c f)
      | (.done _, d) => .trap d closedFail
      | (.live t, d) =>
        if t.closed then .trap d closedFail
        else if !t.dedup then .trap d (trayTrap c ⟨cHANDLE_INVALID, 5, h⟩)
        else waitRoom d t (fun d =>
          let (vals, d) := d.insertAll part clu h t.w c ls
          .done (pop (d.formFull part h 33)) (answer1 (g.vreg r.toNat) vals))
  | .trayPopb nb r _ => trayPop d b n k c nb r.toNat none
  | .trayPopbSteal nb r _ _ => trayPop d b n k c nb r.toNat (some (nth c.unis 1 0))
  | .trayQry q r _ => match d.trayLook part h with
    | (.fails f, d) => .trap d (trayTrap c f)
    | (x, d) =>
      let val : Nat := match x, q with
        | .live t, .cnt => t.recs.length
        | .live t, .free => t.room
        | .live t, .state => if t.closed then 3 else 2
        | .done _, .cnt => 0
        | .done room, .free => room
        | .done _, .state => 4
        | .fails _, _ => 0
      let isDone := match x with
        | .done _ => true
        | _ => false
      .done (if isDone && decide (q = .state) then d.popAcquire k n else d)
        (answer1 (g.vreg r.toNat) ((Mask.lanes c.act).map (fun l => (l, BitVec.ofNat 32 val))))
  | .trayClose _ =>
    if !release then .wait d
    else match d.trayLook part h with
      | (.fails f, d) => .trap d (trayTrap c f)
      | (.done _, d) => .trap d (trayTrap c ⟨cHANDLE_INVALID, 3, h⟩)
      | (.live t, d) => if t.closed then .trap d (trayTrap c ⟨cHANDLE_INVALID, 3, h⟩) else .done (d.trayClose part h) []
  | _ => .wait d

def isTray : Instr → Bool
  | .trayPush _ _ _ _ | .trayPopb _ _ _ | .trayPopbSteal _ _ _ _ | .trayInsd _ _ _ | .trayQry _ _ _ | .trayClose _ => true
  | _ => false

def Dev.trayAct (d : Dev) (b n : Nat) (serve : Bool) : Dev :=
  d.unitAct b n (fun d b n k c =>
    if isTray c.instr && (serve || !c.waits) then trayPerform serve d b n k c else .wait d)

/-- TRAY_OP_PERFORMED: an operation reaches its tray's order. -/
def execTrayOpPerformed (blk grp : Nat) (s : State) : Out := event (·.trayAct blk grp false) s

/-- TRAY_PUSH_WAITER_SERVED: the oldest waiting push or insert, once all its records have room. -/
def Dev.servePush (d : Dev) (part : Nat) (h : Word) : Dev :=
  match ((d.part part).tray h).bind (·.waitPush.head?) with
  | none => d
  | some w => d.trayAct w.blk w.grp true

def execTrayPushWaiterServed (part : BitVec 3) (handle : Word) (s : State) : Out := event (·.servePush part.toNat handle) s

/-- TRAY_PUSH_TIMEOUT: XTO·4,096 cycles have passed (R298). -/
def Dev.pushTimeout (d : Dev) (part : Nat) (h : Word) (b n : Nat) : Dev :=
  match (d.part part).tray h with
  | none => d
  | some t =>
    match t.waitPush.find? (fun w => decide (w.blk = b ∧ w.grp = n)), (d.group b n).bind (·.cmd) with
    | some w, some c =>
      if t.xto ≠ 0 ∧ w.since + 4096 * t.xto ≤ d.cycle then
        (d.modTray part h (fun t => { t with waitPush := t.waitPush.filter (fun w => decide (w.blk ≠ b ∨ w.grp ≠ n)) })).unitTrap
          b n c (trayTrap c ⟨cTRAY_EXHAUSTED, 2, h⟩)
      else d
    | _, _ => d

def execTrayPushTimeout (part : BitVec 3) (handle : Word) (blk grp : Nat) (s : State) : Out :=
  event (·.pushTimeout part.toNat handle blk grp) s

/-- TRAY_POP_WAITER_SERVED: the oldest waiting pop, once a record is held or the tray is done. -/
def Dev.servePop (d : Dev) (part : Nat) (h : Word) : Dev :=
  match ((d.part part).tray h).bind (·.waitPop.head?) with
  | none => d
  | some w => d.trayAct w.blk w.grp true

def execTrayPopWaiterServed (part : BitVec 3) (handle : Word) (s : State) : Out := event (·.servePop part.toNat handle) s

/-- A late spill write of a tray that is done: the oldest for its place in the ring (R294). -/
def Dev.lateSpill (d : Dev) (part : Nat) (x : LateSpill) : Dev :=
  match d.spillWrite part x with
  | (.later, d) => d
  | (_, d) => d.modPart part (fun p => { p with late := p.late.erase x })

/-- SPILL_WRITE_COMPLETE (R294): the write of the j-th record spilled, after earlier ones to its place in the ring. A
permission failure poisons the record wherever it is held, a poisoned completion while it is in the spill ring. -/
def Dev.spillComplete (d : Dev) (part : Nat) (h : Word) (j : Nat) : Dev :=
  match (d.part part).late.find? (fun x => decide (trayOff x.handle = trayOff h ∧ x.write.no = j)) with
  | some x => if (d.part part).late.find? (fun y => decide (y.addr = x.addr)) = some x then d.lateSpill part x else d
  | none =>
    match (d.part part).tray h with
    | none => d
    | some t =>
      match t.writes.find? (fun w => decide (w.no % t.spcap = j % t.spcap)) with
      | none => d
      | some x =>
        if x.no ≠ j || (d.part part).late.any (fun y => decide (y.addr = t.spillAddr x)) then d
        else match d.spillWrite part ⟨t.handle, t.spillAddr x, x⟩ with
          | (.later, d) => d
          | (.ok, d) => d.modTray part h (fun t => { t with writes := t.writes.filter (fun w => decide (w.no ≠ j)) })
          | (.fails o perm, d) => d.modTray part h (fun t => { t with
              writes := t.writes.filter (fun w => decide (w.no ≠ j)),
              recs := t.recs.zipIdx.map (fun (ri : Rec × Nat) =>
                if ri.1.spillNo = some j ∧ (perm = true ∨ t.cap ≤ ri.2) then
                  { ri.1 with words := ri.1.words.map (fun w => (w.1, o + 1)) }
                else ri.1) })

def execSpillWriteComplete (part : BitVec 3) (handle : Word) (j : Nat) (s : State) : Out :=
  event (·.spillComplete part.toNat handle j) s

/-- NODE_BATCH_TIMEOUT: the batch timer reaches NTIME·256 cycles, and the records held form a partial batch. -/
def Dev.batchTimeout (d : Dev) (part : Nat) (h : Word) : Dev :=
  match (d.part part).tray h with
  | none => d
  | some t =>
    match t.timer, d.nodeOf t with
    | some since, some r => if since + 256 * r.ntime ≤ d.cycle then (d.formRest part h).trayDone part h else d
    | _, _ => d

def execNodeBatchTimeout (part : BitVec 3) (handle : Word) (s : State) : Out := event (·.batchTimeout part.toNat handle) s

/-! ### The instructions at issue (R296) -/

/-- Registers of a record that lie within the group's budget: those beyond it are ILLEGAL_INSTR after the checks of R100. A handle of
size code 3 names none. -/
def recRegs (g : Group) (r : BitVec 7) (h : Word) : List Opnd :=
  if trayRs h = 3 then [] else (vs r (recWords (trayRs h))).filter (fun o => o.ok g)

/-- The record registers that the handle's size asks for lie within the budget. -/
def recOk (g : Group) (r : BitVec 7) (h : Word) : Bool :=
  decide (trayRs h = 3) || (vs r (recWords (trayRs h))).all (fun o => o.ok g)

/-- The registers an instruction touches depend on the handle in its uniform; an empty uniform blocks before it is used. -/
def withHandle (s : State) (a : BitVec 7) (f : Group → Word → List Opnd) : List Opnd :=
  match s.dev.issuer with
  | some v => if v.g.empty (.u a.toNat) then [] else f v.g (v.g.uni a.toNat)
  | none => []

/-- Checks 1 and 2 of R296, then the home unit has the operation. -/
def trayIssue (i : Instr) (acc : Access) (big : View → Bool) (bars : Bool) (regs : View → List RegRef)
    (vals : View → List (Nat × List Word)) (unis : View → List Word) (s : State) : Out :=
  issue i acc (fun v =>
    if big v then .trap (illegal (opWord i) v.act 0)
    else if bars ∧ v.k.restricted = true then .trap { cause := cREPLAY_VIOLATION, lanes := v.act, info0 := (unis v).headD 0 }
    else hold v i (regs v) (vals v) (unis v)) s

/-- The words of each lane's record. -/
def laneRecs (v : View) (b : BitVec 7) (n : Nat) : List (Nat × List Word) :=
  v.act.lanes.map (fun l => (l, (List.range n).map (fun i => v.g.word (v.g.vreg (b.toNat + i)) l)))

def execTrayPush (nb : Bool) (d a b : BitVec 7) (s : State) : Out :=
  let h := fun (v : View) => v.g.uni a.toNat
  trayIssue (.trayPush nb d a b)
    { reads := .s a.toNat :: withHandle s a (fun g h => recRegs g b h), var := [.v d.toNat] }
    (fun v => !(recOk v.g b (h v))) true (fun v => [v.g.vreg d.toNat]) (fun v => laneRecs v b (recWords (trayRs (h v))))
    (fun v => [h v]) s

def execTrayPopb (nb : Bool) (d a : BitVec 7) (s : State) : Out :=
  let h := fun (v : View) => v.g.uni a.toNat
  trayIssue (.trayPopb nb d a) { reads := [.s a.toNat], var := [.v d.toNat] }
    (fun v => !(recOk v.g d (h v))) true
    (fun v => if trayRs (h v) = 3 then [] else (List.range (recWords (trayRs (h v)))).map (fun i => v.g.vreg (d.toNat + i)))
    (fun _ => []) (fun v => [h v]) s

def execTrayPopbSteal (nb : Bool) (d a b : BitVec 7) (s : State) : Out :=
  let h := fun (v : View) => v.g.uni a.toNat
  trayIssue (.trayPopbSteal nb d a b) { reads := [.s a.toNat, .s b.toNat], var := [.v d.toNat] }
    (fun v => !(recOk v.g d (h v))) true
    (fun v => if trayRs (h v) = 3 then [] else (List.range (recWords (trayRs (h v)))).map (fun i => v.g.vreg (d.toNat + i)))
    (fun _ => []) (fun v => [h v, v.g.uni b.toNat]) s

def execTrayInsd (d a b : BitVec 7) (s : State) : Out :=
  trayIssue (.trayInsd d a b) { reads := [.s a.toNat, .v b.toNat], var := [.v d.toNat] }
    (fun _ => false) true (fun v => [v.g.vreg d.toNat]) (fun v => laneRecs v b 1)
    (fun v => [v.g.uni a.toNat]) s

def execTrayQry (q : TrayQ) (d a : BitVec 7) (s : State) : Out :=
  trayIssue (.trayQry q d a) { reads := [.s a.toNat], var := [.v d.toNat] } (fun _ => false) false
    (fun v => [v.g.vreg d.toNat]) (fun _ => []) (fun v => [v.g.uni a.toNat]) s

def execTrayClose (a : BitVec 7) (s : State) : Out :=
  trayIssue (.trayClose a) { reads := [.s a.toNat] } (fun _ => false) true (fun _ => []) (fun _ => [])
    (fun v => [v.g.uni a.toNat]) s

/-! ### Binding a node (R305) -/

/-- A node record can be bound to its tray: the handle is sound, and the tray is not idle, done or bound. -/
def Dev.trayBindable (d : Dev) (part : Nat) (h : Word) : Bool :=
  let p := d.part part
  let o := trayOff h
  decide (h.toNat % 128 / 4 = 0 ∧ trayRs h ≠ 3 ∧ o + 128 ≤ p.chipSize) &&
  (match p.tray h with
   | some t => decide (t.rs = trayRs h) && t.bound.isNone
   | none => decide ((Memory.read p.chip o).toNat = 1))

/-- NODE_BIND: the tray opens if it is new, and is bound to a launch; records that it holds form batches. -/
def Dev.bindNode (d : Dev) (part : Nat) (h : Word) (l : Nat) : Option Dev :=
  match d.trayLook part h with
  | (.live _, d) =>
    let d := d.modTray part h (fun t => { t with bound := some l, timer := if t.recs.isEmpty then none else some d.cycle })
    let n := (((d.part part).tray h).map (·.recs.length)).getD 0
    let d := d.formFull part h (n + 1)
    match (d.part part).tray h with
    | some t => some (if t.closed then (d.formRest part h).trayDone part h else d)
    | none => some d
  | _ => none

/-! ### Merge path (R309, R310) -/

/-- The row-pointer array a descriptor names. -/
def mpathSrc (v : View) (l : List Word) : Option Place :=
  let kind := uword l 1 / 2 ^ 20 % 16
  if uword l 1 / 2 ^ 24 ≠ 0 then none
  else if kind = 0 then some (.mem (uword l 0 + 2 ^ 32 * (uword l 1 % 2 ^ 20)))
  else if uword l 1 % 2 ^ 20 ≠ 0 then none
  else if kind = 2 then some (.scratch (v.k.space v.b v.n .core 0) (uword l 0))
  else if kind = 3 then some (.scratch (v.k.space v.b v.n .clu 0) (uword l 0))
  else if kind = 4 then some (.scratch (v.k.space v.b v.n .chip 0) (uword l 0))
  else none

def execMpath (d a b : BitVec 7) (s : State) : Out :=
  let i : Instr := .mpath d a b
  issue i { reads := us a.toNat 4 ++ [.v b.toNat], var := vs d 2 } (fun v =>
    let l := uniList v.g a 4
    let src := mpathSrc v l
    let rows := uword l 2
    let bad := firstBad [true, src.isSome, decide (1 ≤ rows ∧ rows ≤ 2 ^ 28), decide (1 ≤ uword l 3 ∧ uword l 3 ≤ 2 ^ 24)]
    match bad, src with
    | some n, _ => .trap (illegal (opWord i) v.act n)
    | none, none => .trap (illegal (opWord i) v.act 1)
    | none, some src =>
      if uword l 0 % 4 ≠ 0 then .trap { cause := cMISALIGNED, lanes := v.act }
      else if (match src with
          | .scratch sp o => !(v.d.flatOk sp o (4 * (rows + 1)))
          | _ => false) then .trap { cause := cSCRATCH_BOUNDS, lanes := v.act }
      else
        let (op, dv) := v.d.newId
        let regs := [v.g.vreg d.toNat, v.g.vreg (d.toNat + 1)]
        let g := regs.foldl (fun (g : Group) r => g.markEmpty r op) v.g
        let p := v.act.lanes.map (fun x => (x, v.g.src (.v b) x))
        .done { dv with cmds := dv.cmds ++ [{ op := op, blk := v.b, grp := v.n, act := v.act, regs := regs,
                                              kind := .mpath src rows (uword l 3) p }] } g) s

/-- Word `i` of the row pointers; a poisoned one ends the search. -/
def rowptr (r : Req) (src : Place) (i : Nat) : Rd Nat := do
  let (w, p) ← match src with
    | .mem a => rdWord r (a + 4 * i)
    | .scratch s a => do
      let d ← get
      pure (d.homeWord s (a + 4 * i))
    | .view _ _ => pure ((0 : Word), 0)
  if p ≠ 0 then throw (.poisonWrite (p - 1) i)
  pure w.toNat

/-- The search of R309. -/
def mpathSearch (r : Req) (src : Place) (b0 d : Nat) : Nat → Nat → Nat → Rd Nat
  | 0, lo, _ => pure lo
  | fuel + 1, lo, hi =>
    if lo < hi then do
      let mid := (lo + hi + 1) / 2
      let x ← rowptr r src mid
      if (x + 2 ^ 32 - b0) % 2 ^ 32 + mid ≤ d then mpathSearch r src b0 d fuel mid hi
      else mpathSearch r src b0 d fuel lo (mid - 1)
    else pure lo

/-- The start of part `p`: row and absolute nonzero index. -/
def mpathStart (r : Req) (src : Place) (nrows parts p : Nat) : Rd (Word × Word) := do
  let b0 ← rowptr r src 0
  let last ← rowptr r src nrows
  let nnz := (last + 2 ^ 32 - b0) % 2 ^ 32
  let d := min p parts * (nrows + nnz) / parts
  let lo ← mpathSearch r src b0 d 32 (d - nnz) (min d nrows)
  pure (BitVec.ofNat 32 lo, BitVec.ofNat 32 (b0 + d - lo))

/-- MPATH_COMPLETE: every lane's pair; a read that fails gives the lane a poisoned pair (R309); a
    successor's search waits for its predecessor's commit (R51). -/
def Dev.mpathComplete (d : Dev) (op : Nat) : Dev :=
  match d.cmds.find? (fun c => decide (c.op = op) && d.predDone c.blk) with
  | none => d
  | some c =>
    match c.kind with
    | .mpath src nrows parts ps =>
      (match d.blocks[c.blk]? with
       | none => d
       | some k =>
         let bad (d : Dev) (o a : Nat) : List (Word × Nat) := [poisoned d a o, poisoned d (a + 1) o]
         let (vals, d) := ps.foldl (fun (acc : Option (List (Nat × List (Word × Nat))) × Dev) (lp : Nat × Word) =>
           match acc.1 with
           | none => acc
           | some vals =>
             match (mpathStart (k.req (clusterOf (k.coreOf c.grp)) 0 op acc.2) src nrows parts lp.2.toNat).run' acc.2 with
             | (.ok (x, y), d) => (some (vals ++ [(lp.1, [(x, 0), (y, 0)])]), d)
             | (.error .later, d) => (none, d)
             | (.error (.perm va), d) => (some (vals ++ [(lp.1, bad d 0 va)]), d)
             | (.error (.poisonWrite o va), d) => (some (vals ++ [(lp.1, bad d o va)]), d)
             | (.error .dead, d) => (some (vals ++ [(lp.1, bad d 0 0)]), d)) (some [], d)
         match vals with
         | none => d
         | some vals =>
           ({ d with cmds := d.cmds.map (fun (x : Cmd) => if x.op = op then { x with kind := .answer vals } else x) } : Dev).settle)
    | _ => d

def execMpathComplete (op : Nat) (s : State) : Out := event (·.mpathComplete op) s

end Sys2Proof.Machine
end

