-- ==== Sys2Proof/Machine/Launch.lean ====
section
/-! DEFINITION. Launch records and their checks (R26-R34, R305), queue reads and starts (R388, R389), distribution (R391),
placement and allotment (R39, R392), staging (R35-R37), block start (R40), retirement and commit (R42-R44), node blocks
(R307), tasks (R393, R394), and the launch's completion (R390). -/

namespace Sys2Proof.Machine

open Sys2Proof

/-! ### Records -/

/-- A field of a record's words: `n` bytes at an offset, 1, 2, 4 or 8, aligned. -/
def recNum (l : List Word) (o n : Nat) : Nat :=
  if n = 8 then uword l (o / 4) + 2 ^ 32 * uword l (o / 4 + 1)
  else uword l (o / 4) / 2 ^ (8 * (o % 4)) % 2 ^ (8 * n)

/-- A role entry as it stands (Table 2-4). -/
def roleAt (l : List Word) (r : Nat) : Role :=
  let o := 0x30 + 16 * r
  { entry := recNum l o 4, budget := recNum l (o + 4) 1, ngrp := recNum l (o + 6) 2, lpriv := recNum l (o + 8) 2,
    ntile := recNum l (o + 10) 1, tshape := recNum l (o + 11) 1 }

/-- The record's fields (Table 2-2). -/
def recOf (l : List Word) : LRecord :=
  { kind := recNum l 0 1, ttype := recNum l 1 1, flags := BitVec.ofNat 16 (recNum l 2 2), deadline := recNum l 4 4, extx := recNum l 8 4,
    exty := recNum l 0xC 2, extz := recNum l 0xE 2, cscr := recNum l 0x10 2, cshr := recNum l 0x12 2, code := recNum l 0x18 8,
    codelen := recNum l 0x20 4, nreg := recNum l 0x24 1, regtab := recNum l 0x28 8,
    roles := ((List.range 4).map (roleAt l)).filter (fun r => decide (r.budget ≠ 0)),
    ntray := BitVec.ofNat 32 (recNum l 0x70 4), nbatch := recNum l 0x74 1, ntime := recNum l 0x76 2,
    consts := (List.range 32).foldl (fun m i => FMap.set 0 m i (nth l (32 + i) 0)) [] }

/-- The first failing check of a list of conditions and statuses. -/
def firstStatus (l : List (Bool × Nat)) : Option Nat := (l.find? (fun x => x.1)).map (·.2)

/-- A task record fits its type (R29). -/
def taskFits (t : TaskType) (r : LRecord) : Bool :=
  let e := r.role 0
  t.vld && decide (e.budget ≤ t.budget ∧ e.lpriv ≤ t.lpriv ∧ e.ntile ≤ t.ntile ∧ r.cscr ≤ t.cscr) &&
  (decide (e.ntile = 0) || decide (e.tshape = t.tshape))

def noType : TaskType := ⟨false, 0, 0, 0, 0, 0⟩

def badTask (p : Part) (l : List Word) (r : LRecord) : Bool :=
  !(decide ((roleAt l 0).budget ≠ 0 ∧ (roleAt l 1).budget = 0 ∧ (roleAt l 2).budget = 0 ∧ (roleAt l 3).budget = 0 ∧
      (roleAt l 0).ngrp = 1 ∧ r.cshr = 0)) || !(taskFits (nth p.cfg.taskTypes r.ttype noType) r)

def badKind (p : Part) (l : List Word) (r : LRecord) : Bool :=
  decide (2 < r.kind ∨ 15 < r.ttype) || (decide (r.kind = 2) && badTask p l r)

/-- Reserved bytes of the record are zero. -/
def reservedZero (l : List Word) : Bool :=
  decide (recNum l 0x14 4 = 0 ∧ recNum l 0x25 1 = 0 ∧ recNum l 0x26 2 = 0 ∧ recNum l 0x75 1 = 0 ∧ recNum l 0x78 8 = 0) &&
  (List.range 4).all (fun r => decide (recNum l (0x35 + 16 * r) 1 = 0 ∧ recNum l (0x3C + 16 * r) 4 = 0))

def badField (d : Dev) (part : Nat) (l : List Word) (r : LRecord) : Bool :=
  !(reservedZero l) || decide (r.flags.toNat / 512 ≠ 0) || decide (288 < r.cscr) || decide (1152 < r.cshr) ||
  (if r.dl then decide (r.deadline = 0) else decide (r.deadline ≠ 0)) || decide (16 < r.nreg) ||
  (decide (r.kind ≠ 2) && decide (r.ttype ≠ 0)) ||
  (if r.kind = 1 then decide (r.nbatch = 0) || decide (32 < r.nbatch) || decide (r.ntime = 0) || !(d.trayBindable part r.ntray)
   else decide (r.ntray ≠ 0) || decide (r.nbatch ≠ 0) || decide (r.ntime ≠ 0))

def badExtent (r : LRecord) : Bool :=
  decide (r.extx = 0) || decide (r.exty = 0) || decide (r.extz = 0) ||
  (decide (r.kind = 1) && (decide (r.extx ≠ 1) || decide (r.exty ≠ 1) || decide (r.extz ≠ 1)))

/-- R28 and Table 2-4, but for ENTRY in a present role. -/
def badRole (l : List Word) : Bool :=
  let rs := (List.range 4).map (roleAt l)
  let present := rs.filter (fun r => decide (r.budget ≠ 0))
  let shape (r : Role) : Bool :=
    if r.budget = 0 then decide (r = ⟨0, 0, 0, 0, 0, 0⟩)
    else decide (r.budget ≤ 16 ∧ 1 ≤ r.ngrp ∧ r.ngrp ≤ 2048 ∧ r.lpriv % 16 = 0 ∧ r.lpriv ≤ 4096 ∧ r.ntile ≤ 8 ∧ r.tshape ≤ 2)
  !(rs.all shape) || decide (present = []) || decide (rs.take present.length ≠ present) ||
  decide (2048 < (present.map (·.ngrp)).sum) || decide (8 < (present.map (·.ntile)).sum)

def badCode (r : LRecord) : Bool :=
  decide (r.code % 256 ≠ 0) || decide (2 ^ 52 ≤ r.code) || decide (r.codelen = 0) || decide (r.codelen % 16 ≠ 0) ||
  r.roles.any (fun x => decide (x.entry % 16 ≠ 0) || decide (r.codelen ≤ x.entry))

/-- The checks that precede the region table, in the order of Table 2-5. -/
def recStatus (d : Dev) (part : Nat) (l : List Word) (r : LRecord) : Option Nat :=
  firstStatus [(badKind (d.part part) l r, 0x10), (badField d part l r, 0x11), (badExtent r, 0x12), (badRole l, 0x13), (badCode r, 0x14)]

/-! ### Regions (R33, R34) -/

def regionOf (l : List Word) : Region :=
  let ctrl := nth l 4 0
  { src := recNum l 0 8, len := uword l 2, off := uword l 3, level := ctrl.toNat % 4, dir := ctrl.toNat / 4 % 4, twoD := ctrl.getLsbD 4,
    hnd := ctrl.getLsbD 5, rows := uword l 5, spitch := uword l 6, dpitch := uword l 7 }

/-- A region entry that meets Table 2-6. -/
def regionOk (l : List Word) : Bool :=
  let r := regionOf l
  decide (r.len ≠ 0 ∧ r.len % 4 = 0 ∧ r.off % 4 = 0 ∧ r.level ≠ 3 ∧ uword l 4 / 64 = 0) &&
  (if r.twoD then decide (1 ≤ r.rows ∧ r.rows ≤ 65535 ∧ r.len ≤ r.spitch ∧ r.spitch % 4 = 0 ∧ r.len ≤ r.dpitch ∧ r.dpitch % 4 = 0)
   else decide (r.rows = 0 ∧ r.spitch = 0 ∧ r.dpitch = 0)) &&
  (!r.hnd || decide (r.src < 2 ^ 32)) && !(r.hnd && (decide (r.dir = 1) || decide (r.dir = 2)))

/-- The first byte past a region in its level. -/
def Region.last (r : Region) : Nat := r.off + r.dpitch * (r.nrows - 1) + r.len

def levelSize (p : Part) (r : LRecord) (level : Nat) : Nat :=
  if level = 0 then r.cscr * 4096 else if level = 1 then r.cshr * 4096 else p.chipSize

/-- The bytes `x .. x+n-1` meet some row of a region. -/
def Region.meetsRow (r : Region) (x n : Nat) : Bool :=
  let i := if x < r.off + r.len then 0 else if r.dpitch = 0 then 1 else (x - r.off - r.len) / r.dpitch + 1
  decide (i < r.nrows ∧ r.off + i * r.dpitch < x + n)

/-- Two regions share a byte of one level. -/
def Region.overlap (a b : Region) : Bool :=
  decide (a.level = b.level) && (List.range a.nrows).any (fun i => b.meetsRow (a.off + i * a.dpitch) a.len)

def Region.staged (r : Region) : Bool := decide (r.dir ≠ 1)

def pairwiseFree : List Region → Bool
  | [] => true
  | r :: rs => !(rs.any (fun x => r.staged && x.staged && r.overlap x)) && pairwiseFree rs

/-- Bytes of core scratch that a node's batch takes (R305, R307). -/
def LRecord.batchBytes (r : LRecord) : Nat := 64 + r.nbatch * (4 * recWords (trayRs r.ntray))

def badRegion (p : Part) (r : LRecord) (ws : List (List Word)) : Bool :=
  let rs := ws.map regionOf
  !(ws.all regionOk) || rs.any (fun x => decide (levelSize p r x.level < x.last)) || !(pairwiseFree rs) ||
  (decide (r.kind = 1) && (decide (r.cscr * 4096 < r.batchBytes) || rs.any (fun x => decide (x.level = 0) && x.meetsRow 0 r.batchBytes)))

/-! ### Placement (R39) -/

/-- The role of a group number (R25). -/
def roleOfGroup : List Role → Nat → Nat × Nat
  | [], n => (0, n)
  | r :: rs, n => if n < r.ngrp then (0, n) else
      let x := roleOfGroup rs (n - r.ngrp)
      (x.1 + 1, x.2)

def LRecord.groupRole (r : LRecord) (n : Nat) : Role := r.role (roleOfGroup r.roles n).1

/-- The groups of core position k of C. -/
def LRecord.groupsAt (r : LRecord) (c k : Nat) : List Nat := (List.range r.groups).filter (fun n => decide (n % c = k))

def LRecord.regUnits (r : LRecord) (c k : Nat) : List Nat := (r.groupsAt c k).map (fun n => (r.groupRole n).budget)

/-- F(k) without the registers, in bytes. -/
def LRecord.scratchAt (r : LRecord) (c k : Nat) : Nat :=
  r.cscr * 4096 + (r.cshr * 4096 + min c 4 * 4096 - 1) / (min c 4 * 4096) * 4096 +
  ((r.groupsAt c k).map (fun n => 32 * (r.groupRole n).lpriv)).sum

def LRecord.footprint (r : LRecord) (c k : Nat) : Nat := (r.regUnits c k).sum * 1024 + r.scratchAt c k

/-- SH, in 1 KiB units: four slots of the largest valid type (R393). -/
def Part.shadowUnits (p : Part) : Nat :=
  4 * (p.cfg.taskTypes.filter (·.vld)).foldl (fun m t => max m ((t.budget * 1024 + 32 * t.lpriv + t.cscr * 4096 + 1023) / 1024)) 0

/-- The smallest C whose every core holds its part. -/
def LRecord.coresNeeded (r : LRecord) (shadow : Nat) : Option Nat :=
  [1, 2, 4, 8, 16, 32].find? (fun c => (List.range c).all (fun k =>
    decide ((r.groupsAt c k).length ≤ 64 ∧ r.footprint c k ≤ (1152 - shadow) * 1024)))

/-- The cores form a set of R39 for C, within a partition. -/
def Part.coresOk (p : Part) (c : Nat) (cores : List Nat) : Bool :=
  let first := cores.headD 0
  decide (cores = (List.range c).map (· + first) ∧ first + c ≤ 256 ∧ first % c = 0) &&
  cores.all (fun x => p.cfg.clusters.contains (clusterOf x)) && decide (dieOf (clusterOf first) = dieOf (clusterOf (first + c - 1)))

/-! ### Reading a record -/

/-- What the dispatcher makes of a record (R31). -/
structure Checked where
  status : Option Nat
  lrec : LRecord
  regions : List Region

/-- Words read from memory; none where a read is refused or poisoned. -/
def readOr (r : Req) (va n : Nat) : Rd (Option (List Word)) :=
  tryCatch (do
    let ws ← (List.range n).mapM (fun i => rdWord r (va + 4 * i))
    pure (if ws.all (fun w => decide (w.2 = 0)) then some (ws.map (·.1)) else none))
    (fun e => match e with
      | .later => throw .later
      | _ => pure none)

def chunks8 : Nat → List Word → List (List Word)
  | 0, _ => []
  | n + 1, l => l.take 8 :: chunks8 n (l.drop 8)

/-- Reading and checking the record at an address (R31). -/
def readLaunch (r : Req) (part addr : Nat) : Rd Checked := do
  let none' : Checked := ⟨some 0x17, LRecord.zero, []⟩
  if addr % 64 ≠ 0 then pure none'
  else match ← readOr r addr 64 with
    | none => pure none'
    | some l =>
      let lr := recOf l
      let d ← get
      match recStatus d part l lr with
      | some s => pure ⟨some s, lr, []⟩
      | none =>
        if lr.regtab % 32 ≠ 0 then pure ⟨some 0x17, lr, []⟩
        else match ← readOr { r with tier := none } lr.regtab (8 * lr.nreg) with
          | none => pure ⟨some 0x17, lr, []⟩
          | some t =>
            let ws := chunks8 lr.nreg t
            let d ← get
            let p := d.part part
            if badRegion p lr ws then pure ⟨some 0x15, lr, []⟩
            else if lr.kind ≠ 2 ∧ (lr.coresNeeded p.shadowUnits).isNone then pure ⟨some 0x16, lr, []⟩
            else pure ⟨none, lr, ws.map regionOf⟩

/-! ### Queues (R388, R389) -/

def Queue.validSize (n : Nat) : Bool := powerOfTwo n && decide (16 ≤ n ∧ n ≤ 65536)

/-- A queue's own requests are translated for its partition's lowest cluster. -/
def Dev.queueReq (d : Dev) (q : Nat) : Req :=
  let p := (d.queue q).part
  { part := p, clu := (d.part p).cfg.clusters.headD 0, kind := 1, who := 16 * (2 ^ 40 + q) + 1, queue := q, seq := (d.part p).accepted,
    tier := some (d.queue q).tier }

/-- A ring entry (Table 21-2): record address and dependence. -/
def ringEntry (r : Req) (va : Nat) : Rd (Option (Nat × Option (Nat × Word))) := do
  match ← readOr r va 8 with
  | none => pure none
  | some l => pure (some (recNum l 0 8, if (nth l 2 0).getLsbD 31 then some (uword l 2 % 256, nth l 3 0) else none))

/-- The launch that an entry gives. -/
def newLaunch (d : Dev) (q : Nat) (addr : Nat) (dep : Option (Nat × Word)) (c : Checked) : Launch :=
  let x := d.queue q
  { queue := q, entry := x.head.toNat, recAddr := addr, lrec := c.lrec, regions := c.regions, part := x.part,
    seq := (d.part x.part).accepted, arrival := d.cycle, dep := dep, status := c.status, started := false, ranges := [],
    requeued := [], batches := [], worst := none, completed := false }

/-- An entry has been read and checked: HEAD rises, the launch stands in the list, a node is bound to its tray, and an
accepted launch takes a sequence number. -/
def Dev.takeEntry (d : Dev) (q addr : Nat) (dep : Option (Nat × Word)) (c : Checked) : Dev :=
  let x := d.queue q
  let n := d.launches.length
  let d := { (d.putQueue q { x with head := x.head + 1 }) with launches := d.launches ++ [newLaunch d q addr dep c] }
  if c.status.isNone then
    match (if c.lrec.kind = 1 then d.bindNode x.part c.lrec.ntray n else some d) with
    | some d => d.modPart x.part (fun p => { p with accepted := p.accepted + 1 })
    | none => d.modLaunch n (fun l => { l with status := some 0x11 })
  else d

/-- QUEUE_READ_ENTRY: a queue that its partition holds (R395). -/
def Dev.queueRead (d : Dev) (q : Nat) : Dev :=
  let x := d.queue q
  if !x.en || decide (x.head = x.tail) || !(d.part x.part).active || !(d.part x.part).cfg.queues.contains q then d
  else
    let r := d.queueReq q
    let read : Rd (Nat × Option (Nat × Word) × Checked) := do
      match ← ringEntry r (x.ring.toNat + 32 * (x.head.toNat % x.size.toNat)) with
      | none => pure (0, none, ⟨some 0x17, LRecord.zero, []⟩)
      | some (addr, dep) => do
        let c ← readLaunch r x.part addr
        pure (addr, dep, c)
    match read.run' d with
    | (.ok (addr, dep, c), d) => d.takeEntry q addr dep c
    | (.error _, d) => d

def execQueueReadEntry (q : BitVec 8) (s : State) : Out := event (·.queueRead q.toNat) s

/-- The dependence of a launch holds (Table 21-2). -/
def Dev.depHolds (d : Dev) (l : Launch) : Bool :=
  match l.dep with
  | none => true
  | some (q, n) => decide (0 ≤ ((d.queue q).done - n).toInt)

/-- The launch may start: accepted, its queue enabled, every earlier entry of the queue started, and its dependence holds. -/
def Dev.startable (d : Dev) (l : Launch) : Bool :=
  !l.started && l.status.isNone && (d.queue l.queue).en && d.depHolds l &&
  !(d.launches.any (fun x => decide (x.queue = l.queue) && decide (x.seq.toNat < l.seq.toNat ∨ x.entry < l.entry) &&
      !x.started && x.status.isNone && decide (x.arrival < l.arrival ∨ (x.arrival = l.arrival ∧ x.entry < l.entry))))

/-- Cycle by which a launch's blocks should retire. -/
def Launch.due (l : Launch) : Nat := l.arrival + 1100 * l.lrec.deadline

/-- One launch is served before another (R389). -/
def Launch.ahead (a b : Launch) : Bool :=
  if a.lrec.pcls ≠ b.lrec.pcls then decide (b.lrec.pcls < a.lrec.pcls)
  else if a.lrec.dl ≠ b.lrec.dl then a.lrec.dl
  else if a.lrec.dl && decide (a.due ≠ b.due) then decide (a.due < b.due)
  else decide (a.arrival < b.arrival)

/-- The distributors (R391): a cluster's by its number, those of the two dies, and the device's. -/
def dieNode (die : Nat) : Nat := 64 + die
def deviceNode : Nat := 66

/-- The parent of a distributor, and whether one distributor is another or lies below it. -/
def parentOf (n : Nat) : Nat := if n < 64 then dieNode (dieOf n) else deviceNode
def below (n top : Nat) : Bool := decide (n = top ∨ parentOf n = top)

/-- The distributors of a partition. -/
def Part.nodes (p : Part) : List Nat :=
  p.cfg.clusters ++ ([0, 1].filter (fun x => p.cfg.clusters.any (fun c => decide (dieOf c = x)))).map dieNode

/-- LAUNCH_START: the best of the startable launches. Its blocks stand as one range at the device's distributor. -/
def Dev.launchStart (d : Dev) (i : Nat) : Dev :=
  match d.launches[i]? with
  | none => d
  | some l =>
    if d.startable l && !(d.launches.any (fun x => d.startable x && x.ahead l)) then
      let n := l.lrec.extx * l.lrec.exty * l.lrec.extz
      d.modLaunch i (fun l => { l with started := true, ranges := if l.lrec.kind = 1 then [] else [(deviceNode, 0, n)] })
    else d

def execLaunchStart (l : Nat) (s : State) : Out := event (·.launchStart l) s

/-- Blocks in a list of ranges. -/
def blocksIn (rs : List (Nat × Nat × Nat)) : Nat := (rs.map (fun r => r.2.2 - r.2.1)).sum

/-- The last `n` blocks of the ranges below a distributor pass to a child: the ranges left, and the child's. -/
def takeLast (from' child : Nat) : List (Nat × Nat × Nat) → Nat → List (Nat × Nat × Nat) × List (Nat × Nat × Nat)
  | [], _ => ([], [])
  | r :: rs, n =>
    let (left, got) := takeLast from' child rs n
    let m := n - blocksIn got
    if !below r.1 from' || decide (m = 0) then (r :: left, got)
    else
      let k := min m (r.2.2 - r.2.1)
      (if k < r.2.2 - r.2.1 then (r.1, r.2.1, r.2.2 - k) :: left else left, (child, r.2.2 - k, r.2.2) :: got)

/-- The sibling with the most blocks unplaced. -/
def Launch.richest (l : Launch) (sibs : List Nat) : Option (Nat × Nat) :=
  sibs.foldl (fun (m : Option (Nat × Nat)) c =>
    let n := blocksIn (l.ranges.filter (fun r => below r.1 c))
    match m with
    | some x => if x.2 < n then some (c, n) else m
    | none => if n = 0 then none else some (c, n)) none

/-- DISTRIBUTE_BLOCKS: a child that has placed every block of its range is handed a contiguous range by its parent, as long as that has
blocks of its own (how many is log 85), and then takes half the unplaced part of a sibling's, rounded down, at least one block (R391). -/
def Dev.distribute (d : Dev) (i child : Nat) : Dev :=
  d.modLaunch i (fun l =>
    let nodes := (d.part l.part).nodes
    if !(nodes.contains child) || l.ranges.any (fun r => below r.1 child) then l
    else
      let sibs := nodes.filter (fun c => decide (c ≠ child ∧ parentOf c = parentOf child))
      match l.ranges.find? (fun r => decide (r.1 = parentOf child)) with
      | some r =>
        let n := max 1 ((r.2.2 - r.2.1) / (sibs.length + 1))
        { l with ranges := l.ranges.flatMap (fun x => if x = r then
            (child, r.2.1, r.2.1 + n) :: (if r.2.1 + n < r.2.2 then [(r.1, r.2.1 + n, r.2.2)] else []) else [x]) }
      | none =>
        match l.richest sibs with
        | none => l
        | some (c, n) =>
          let (left, got) := takeLast c child l.ranges (max 1 (n / 2))
          { l with ranges := left ++ got })

def execDistributeBlocks (l : Nat) (child : Nat) (s : State) : Out := event (·.distribute l child) s

/-! ### Allotment (R392, R16) -/

/-- The block holds its cores. -/
def Life.holds : Life → Bool
  | .staging | .running | .retiring | .capturing | .advancing => true
  | _ => false

/-- Groups resident on a core. -/
def Dev.resident (d : Dev) (core : Nat) : Nat :=
  (d.blocks.map (fun (k : Block) => if k.life.holds ∧ k.cores.contains core then
    ((k.succ.getD k.lrec).groupsAt (max k.cores.length 1) ((k.cores.findIdx? (· == core)).getD 0)).length else 0)).sum

/-- The device with a block's place on its cores given up. -/
def Dev.without (d : Dev) (b : Nat) (k : Block) : Dev :=
  { d with
    blocks := setNth d.blocks b { k with life := .ended },
    cores := d.cores.map (fun (c : Nat × CoreSt) => (c.1, { c.2 with units := c.2.units.filter (fun u => decide (u.2.2 ≠ b)) })) }

/-- The lowest address where a range of `n` units fits. -/
def fitRange (used : List (Nat × Nat)) (lim n : Nat) : Option Nat :=
  let ok (u : Nat) : Bool := decide (u + n ≤ lim) && !(used.any (fun x => meets u n x.1 x.2))
  (0 :: used.map (fun x => x.1 + x.2)).foldl (fun m u => if ok u then (match m with
    | none => some u
    | some v => some (min u v)) else m) none

/-- Ranges of several sizes, each at the lowest place left. -/
def fitAll (used : List (Nat × Nat)) (lim : Nat) : List Nat → Option (List (Nat × Nat))
  | [] => some []
  | n :: ns =>
    if n = 0 then fitAll used lim ns
    else match fitRange used lim n with
      | none => none
      | some u => (fitAll ((u, n) :: used) lim ns).map ((u, n) :: ·)

/-- Units of a core that are in use, those held for a waiting block among them. -/
def CoreSt.used (x : CoreSt) : List (Nat × Nat) :=
  x.units.map (fun u => (u.1, u.2.1)) ++ (match x.offer with
    | some o => o.held
    | none => [])

/-- The places of a record's part on a core, where it fits. -/
def Dev.fitCore (d : Dev) (part core : Nat) (r : LRecord) (c k : Nat) : Option (List (Nat × Nat)) :=
  if 64 < d.resident core + (r.groupsAt c k).length then none
  else fitAll (d.core core).used (1152 - (d.part part).shadowUnits) (r.regUnits c k ++ [(r.scratchAt c k + 1023) / 1024])

/-- Every core of a set admits its part. -/
def Dev.fitCores (d : Dev) (part : Nat) (r : LRecord) (cores : List Nat) : Option (List (List (Nat × Nat))) :=
  cores.zipIdx.mapM (fun (ck : Nat × Nat) => d.fitCore part ck.1 r cores.length ck.2)

/-- The parts of a block are allotted. -/
def Dev.allotUnits (d : Dev) (b : Nat) (cores : List Nat) (fits : List (List (Nat × Nat))) : Dev :=
  (cores.zip fits).foldl (fun (d : Dev) cf =>
    let x := d.core cf.1
    d.putCore cf.1 { x with units := x.units ++ cf.2.map (fun u => (u.1, u.2, b)) }) d

/-- The offer is that of a block of a launch. -/
def Offer.is (o : Offer) (l lin : Nat) : Bool := decide (o.launch = l ∧ o.lin = lin)

/-- The block waits at no core any more: it is admitted, and the drain marks set for it are cleared. -/
def Dev.clearOffers (d : Dev) (l lin : Nat) : Dev :=
  (d.cores.map (·.1)).foldl (fun (d : Dev) c =>
    let x := d.core c
    match x.offer with
    | some o => if o.is l lin then d.putCore c { x with offer := none, mark := false } else d
    | none => d) d

/-- What a core holds for a waiting block goes back to it while the block is tried again. -/
def Dev.offerBack (d : Dev) (l lin : Nat) : Dev :=
  { d with cores := d.cores.map (fun (c : Nat × CoreSt) => (c.1, match c.2.offer with
      | some o => if o.is l lin then { c.2 with offer := some { o with held := [] } } else c.2
      | none => c.2)) }

/-- A block waits at the cores offered to it. A core that fits its part holds the part, until its drain mark is set (R392). -/
def Dev.offerAt (d : Dev) (l lin : Nat) (r : LRecord) (part : Nat) (cores : List Nat) : Dev :=
  cores.zipIdx.foldl (fun (d : Dev) (ck : Nat × Nat) =>
    let x := d.core ck.1
    let held := if x.mark then [] else (d.fitCore part ck.1 r cores.length ck.2).getD []
    match x.offer with
    | some o => if o.is l lin then d.putCore ck.1 { x with offer := some { o with held := held } } else d
    | none => d.putCore ck.1 { x with offer := some ⟨l, lin, d.cycle, held⟩ }) d

/-- Another block was offered before at one of the cores, and is not admitted yet. -/
def Dev.heldBack (d : Dev) (l lin : Nat) (cores : List Nat) : Bool :=
  cores.any (fun c => match (d.core c).offer with
    | some o => !(o.is l lin)
    | none => false)

/-- DRAIN_MARK_TIMEOUT: the offer has waited 4,096 cycles; a part held for it is returned. -/
def execDrainMarkTimeout (core : Nat) (s : State) : Out :=
  event (fun d =>
    let x := d.core core
    match x.offer with
    | some o => if o.since + 4096 ≤ d.cycle then d.putCore core { x with mark := true, offer := some { o with held := [] } } else d
    | none => d) s

/-! ### Placement -/

/-- Shapes of the tiles acquired at start, in role order (R28). -/
def LRecord.tileShapes (r : LRecord) : List Nat := r.roles.flatMap (fun x => List.replicate x.ntile x.tshape)

/-- Names a0 upward for tiles. -/
def tileNames (ts : List Nat) : List (Option Nat) := (List.range 8).map (fun i => ts[i]?)

/-- A block that takes its cores. -/
def newBlock (l part lin : Nat) (xyz : Nat × Nat × Nat) (r : LRecord) (regions : List Region) (cores : List Nat) (nrepl : Nat)
    (batch : Option Batch) : Block :=
  let nclu := (cores.length + 3) / 4
  { launch := l, part := part, lin := lin, x := xyz.1, y := xyz.2.1, z := xyz.2.2, lrec := r, regions := regions, cores := cores,
    life := .staging, nrepl := nrepl, ending := none, groups := [], core := List.replicate cores.length [],
    coreP := List.replicate cores.length [], clu := List.replicate nclu [], cluP := List.replicate nclu [],
    sign := List.replicate 8 SignReg.idle, tiles := List.replicate 8 none, maps := List.replicate 8 OpMap.idle,
    chans := List.replicate 8 Channel.init, phases := [], permit := Reserve.zero, staged := 0, stageAt := 0, stageSnap := none, applied := 0, failed := false,
    captured := [], scrub := [], code := [], noReplay := false, succ := none, succRegions := [], advOps := none, pred := none, preempt := false,
    frag := none, batch := batch, slot := none }

/-- The batch in core scratch (R307): count, zeros, records. -/
def batchWords (w : Nat) (x : Batch) : List (Nat × Word × Nat) :=
  (0, BitVec.ofNat 32 x.recs.length, 0) :: x.recs.zipIdx.flatMap (fun (rj : Rec × Nat) =>
    rj.1.words.zipIdx.map (fun (wi : (Word × Nat) × Nat) => (64 + 4 * w * rj.2 + 4 * wi.2, wi.1.1, wi.1.2)))

/-- The batch is written into the core scratch of every core of the block. -/
def Dev.writeBatch (d : Dev) (b : Nat) : Dev :=
  match d.blocks[b]? with
  | none => d
  | some k =>
    match k.batch with
    | none => d
    | some x =>
      let ws := batchWords (recWords (trayRs k.lrec.ntray)) x
      (List.range k.cores.length).foldl (fun (d : Dev) pos =>
        ws.foldl (fun (d : Dev) w => d.homePut (.core b pos) w.1 w.2.1 w.2.2) d) d

def coords (r : LRecord) (lin : Nat) : Nat × Nat × Nat := (lin % r.extx, lin / r.extx % r.exty, lin / (r.extx * r.exty))

/-- A block is admitted on its cores with its tiles, all or none; otherwise it waits at them. -/
def Dev.place (d : Dev) (l : Nat) (k : Block) (after : Launch → Launch) : Dev :=
  let part := k.part
  let p := d.part part
  match k.lrec.coresNeeded p.shadowUnits with
  | none => d
  | some c =>
    if !(p.coresOk c k.cores) || d.heldBack l k.lin k.cores then d
    else
      let b := d.blocks.length
      let free := d.offerBack l k.lin
      match free.fitCores part k.lrec k.cores, free.acquireTiles k.home b k.lrec.tileShapes with
      | some fits, some (ts, d) =>
        let d := { d with blocks := d.blocks ++ [{ k with tiles := tileNames ts }] }
        (((d.allotUnits b k.cores fits).clearOffers l k.lin).modLaunch l after).writeBatch b
      | _, _ => free.offerAt l k.lin k.lrec part k.cores

/-- Some set of cores of a partition for C has none of those that an error struck. -/
def Part.elsewhere (p : Part) (c : Nat) (struck : List Nat) : Bool :=
  (List.range 256).any (fun f => let l := (List.range c).map (f + ·); p.coresOk c l && l.all (fun x => !struck.contains x))

/-- A replay after an error starts on other cores, where the partition has them (R23). -/
def Requeue.mayTake (r : Requeue) (p : Part) (cores : List Nat) : Bool :=
  r.avoid.isEmpty || cores.all (fun x => !r.avoid.contains x) || !(p.elsewhere cores.length r.avoid)

/-- A block put back by a replay that may start on some cores, once no link holds it. -/
def Launch.again (l : Launch) (p : Part) (cores : List Nat) : Option Requeue :=
  l.requeued.find? (fun r => r.hold.isNone && r.mayTake p cores)

/-- BLOCK_PLACE: a replayed block, or the next block of a cluster's range (R39, R391). -/
def Dev.blockPlace (d : Dev) (i clu : Nat) (cores : List Nat) : Dev :=
  match d.launches[i]? with
  | none => d
  | some l =>
    if clusterOf (cores.headD 0) ≠ clu ∨ l.lrec.kind ≠ 0 then d
    else match l.again (d.part l.part) cores with
      | some r => d.place i (newBlock i l.part r.lin (coords r.lrec r.lin) r.lrec r.regions cores r.nrepl none)
          (fun l => { l with requeued := l.requeued.erase r })
      | none =>
        match l.ranges.find? (fun r => decide (r.1 = clu)) with
        | none => d
        | some r => d.place i (newBlock i l.part r.2.1 (coords l.lrec r.2.1) l.lrec l.regions cores 0 none)
            (fun l => { l with ranges := l.ranges.filterMap (fun x =>
              if x = r then (if r.2.1 + 1 < r.2.2 then some (r.1, r.2.1 + 1, r.2.2) else none) else some x) })

def execBlockPlace (l : Nat) (cluster : Nat) (cores : List Nat) (s : State) : Out := event (·.blockPlace l cluster cores) s

/-- NODE_BLOCK_START: the next batch of a node starts a block, with the batch in its core scratch (R307, R353). -/
def Dev.nodePlace (d : Dev) (i clu : Nat) (cores : List Nat) : Dev :=
  match d.launches[i]? with
  | none => d
  | some l =>
    if clusterOf (cores.headD 0) ≠ clu ∨ l.lrec.kind ≠ 1 ∨ l.started = false then d
    else match l.again (d.part l.part) cores with
      | some r => d.place i (newBlock i l.part r.lin (r.lin % 2 ^ 32, 0, 0) r.lrec r.regions cores r.nrepl r.batch)
          (fun l => { l with requeued := l.requeued.erase r })
      | none => match l.batches with
        | [] => d
        | x :: rest => d.place i (newBlock i l.part x.no (x.no % 2 ^ 32, 0, 0) l.lrec l.regions cores 0 (some x))
            (fun l => { l with batches := rest })

def execNodeBlockStart (l : Nat) (cluster : Nat) (cores : List Nat) (s : State) : Out := event (·.nodePlace l cluster cores) s

/-- A shadow slot of a core is free, and the core has room for one more group (R16, R393). -/
def Dev.slotFree (d : Dev) (part core slot : Nat) : Bool :=
  decide (slot < 4) && (d.part part).cfg.clusters.contains (clusterOf core) && decide (core < 256) && decide (d.resident core < 64) &&
  !((d.core core).shadow.any (fun s => decide (s.1 = slot)))

/-- A task takes a slot; its tiles are acquired before it starts (R394). -/
def Dev.takeSlot (d : Dev) (k : Block) (core slot : Nat) : Dev :=
  let b := d.blocks.length
  let x := d.core core
  { d.putCore core { x with shadow := x.shadow ++ [(slot, b)] } with blocks := d.blocks ++ [{ k with slot := some (core, slot) }] }

/-- TASK_START: the next block of a task launch takes a free slot of any cluster of the partition (R393). -/
def Dev.taskStart (d : Dev) (i core slot : Nat) : Dev :=
  match d.launches[i]? with
  | none => d
  | some l =>
    if l.lrec.kind ≠ 2 ∨ d.slotFree l.part core slot = false then d
    else match l.again (d.part l.part) [core] with
      | some r => (d.takeSlot (newBlock i l.part r.lin (coords r.lrec r.lin) r.lrec r.regions [core] r.nrepl none) core slot).modLaunch i
          (fun l => { l with requeued := l.requeued.erase r })
      | none => match l.ranges with
        | [] => d
        | r :: rest => (d.takeSlot (newBlock i l.part r.2.1 (coords l.lrec r.2.1) l.lrec l.regions [core] 0 none) core slot).modLaunch i
            (fun l => { l with ranges := if r.2.1 + 1 < r.2.2 then (r.1, r.2.1 + 1, r.2.2) :: rest else rest })

def execTaskStart (l : Nat) (core slot : Nat) (s : State) : Out := event (·.taskStart l core slot) s

/-! ### Staging (R35-R37) -/

/-- The spaces a region is staged into. -/
def Block.stageInto (k : Block) (b : Nat) (r : Region) : List Space :=
  if r.level = 0 then (List.range k.cores.length).map (fun p => Space.core b p)
  else if r.level = 1 then (List.range k.clusters.length).map (fun c => Space.clu b c)
  else [.chip k.part]

/-- Offsets of a region's words: in the source, and in the level. -/
def Region.wordOffs (r : Region) : List (Nat × Nat) :=
  (List.range r.nrows).flatMap (fun i => (List.range (r.len / 4)).map (fun j => (i * r.spitch + 4 * j, r.off + i * r.dpitch + 4 * j)))

/-- The word at an offset of a region's source; a view is read through the snapshot of when the region's staging began. -/
def stageWord (r : Req) (x : Region) (snap : Option LEntry) (o : Nat) : Rd (Word × Nat) :=
  if x.hnd then
    match snap with
    | none => throw .dead
    | some e => do
      let bs ← viewBytes r x.src e o 4
      pure ((wordsOf bs).headD (0, 0))
  else rdWordAt r (x.src + o)

/-- A region is not staged: an out region, but for one in chip scratchpad of a replayable block, which is zeroed (R37). -/
def Block.skips (k : Block) (r : Region) : Bool := decide (r.dir = 1) && !(k.replayable && decide (r.level = 2))

/-- A word of the block's region is written into every space it is staged into. -/
def Dev.stagePut (d : Dev) (b : Nat) (k : Block) (x : Region) (o : Nat) (w : Word × Nat) : Dev :=
  (k.stageInto b x).foldl (fun (d : Dev) s => d.homePut s o w.1 w.2) d

/-- A piece ends between two addresses of an access that goes up in memory (R36): at a page, where tier, scheme and attributes may
change, or at a jump. -/
def pieceEnds (a b : Nat) : Bool := decide (b ≠ a + 4 ∨ b % 65536 < 4)

/-- A piece of a region, from the words given on: each word staged is counted, and one that must wait ends the step. -/
def Dev.stagePiece (d : Dev) (b : Nat) (x : Region) (snap : Option LEntry) : List (Nat × Nat) → Dev
  | [] => d.modBlock b (fun k => { k with staged := k.staged + 1, stageAt := 0, stageSnap := none })
  | o :: os =>
    match d.blocks[b]? with
    | none => d
    | some k =>
      match (stageWord (k.req k.home 1 (4096 * b + 4095) d) x snap o.1).run' d with
      | (.error .later, d) => d
      | (.error _, d) => d.endBlock b ⟨2, 0, 0⟩
      | (.ok w, d) =>
        if w.2 ≠ 0 then d.endBlock b ⟨2, 0, 0⟩
        else
          let d := (d.stagePut b k x o.2 w).modBlock b (fun k => { k with stageAt := k.stageAt + 1 })
          if os.head?.any (fun o' => pieceEnds (x.src + o.1) (x.src + o'.1)) then d else d.stagePiece b x snap os

/-- STAGING_READ_COMPLETE: the next piece of the next region of the table is staged. -/
def Dev.stageNext (d : Dev) (b : Nat) : Dev :=
  match d.blocks[b]? with
  | none => d
  | some k =>
    if k.life ≠ .staging ∨ d.predDone b = false then d
    else match k.regions[k.staged]? with
      | none => d
      | some x =>
        let next (d : Dev) : Dev := d.modBlock b (fun k => { k with staged := k.staged + 1 })
        if k.skips x then next d
        else if x.dir = 1 ∨ x.dir = 3 then next (x.wordOffs.foldl (fun (d : Dev) o => d.stagePut b k x o.2 (0, 0)) d)
        else
          let snap := if !x.hnd then none else if k.stageAt = 0 ∧ k.stageSnap = none then (d.part k.part).liveLayer x.src else k.stageSnap
          (d.modBlock b (fun k => { k with stageSnap := snap })).stagePiece b x snap (x.wordOffs.drop k.stageAt)

def execStagingReadComplete (blk : Nat) (s : State) : Out := event (·.stageNext blk) s

/-! ### Start (R40) -/

/-- The groups of a block at its start. -/
def startGroups (r : LRecord) (cycle : Nat) : List Group :=
  (List.range r.groups).map (fun n =>
    let (ro, i) := roleOfGroup r.roles n
    Group.start ro i (r.role ro).budget (r.role ro).entry r.consts r.gcr cycle)

/-- Lanes of a fragment group: its live mask, and those covered (R330). -/
def fragLive (l : List (Option (Nat × Bool))) : Mask := Mask.ofFn (fun i => (nth l i none).isSome)
def fragCovered (l : List (Option (Nat × Bool))) : Mask := Mask.ofFn (fun i => match nth l i none with
  | some (_, c) => c
  | none => false)

/-- What a dependence, a batch or a triangle's release makes visible to a block's first instruction (R214, R307, R325, R389). -/
def Dev.startAcquire (d : Dev) (k : Block) : Dev :=
  let dep := match d.launches[k.launch]? with
    | some l => l.dep.isSome
    | none => false
  if dep || k.batch.isSome || k.frag.isSome then k.cores.foldl (fun (d : Dev) c => d.acquire c .dev) d else d

/-- The block's groups become runnable; `dress` sets what a fragment group starts with. A task's tiles are acquired here. -/
def Dev.startBlock (d : Dev) (b : Nat) (dress : Block → Group → Group) : Dev :=
  match d.blocks[b]? with
  | none => d
  | some k =>
    if k.life ≠ .staging ∨ k.staged < k.regions.length then d
    else
      let tiles := if k.slot.isSome ∧ k.groups.isEmpty then d.acquireTiles k.home b k.lrec.tileShapes else some ([], d)
      match tiles with
      | none => d
      | some (ts, d) =>
        (d.modBlock b (fun k => { k with
          life := .running,
          tiles := if k.slot.isSome ∧ k.groups.isEmpty then tileNames ts else k.tiles,
          groups := if k.groups.isEmpty then (startGroups k.lrec d.cycle).map (dress k) else k.groups })).startAcquire k

/-! ### Retirement and commit (R42-R44) -/

/-- The conditions of R42: the block's stores and atomics are performed, and its commands, passes, drains, results and
channels are complete. An SSET.BUILD or a fold that the block started does not hold it (log 86). -/
def Dev.retireReady (d : Dev) (b : Nat) (k : Block) : Bool :=
  !(d.stores.any (fun x => decide (x.blk = b))) && !(d.atoms.any (fun x => decide (x.blk = b))) &&
  !(d.cmds.any (fun x => decide (x.blk = b) && (match x.kind with
    | .answer _ => false
    | _ => true))) &&
  !((d.engine k.home).table.any (fun p => decide (p.blk = b))) &&
  !(d.tiles.any (fun t => decide (t.blk = b) && !t.order.isEmpty)) &&
  k.chans.all (fun c => c.cmds.isEmpty) && !(d.holds b)

/-- The words of an out or inout region in scratch: of the lowest core, the lowest cluster, or chip scratchpad. -/
def Dev.captureRegion (d : Dev) (b : Nat) (k : Block) (r : Region) : Captured :=
  let s : Space := if r.level = 0 then .core b 0 else if r.level = 1 then .clu b 0 else .chip k.part
  { region := r, words := r.wordOffs.map (fun o => d.homeWord s o.2) }

def Dev.captureAll (d : Dev) (b : Nat) (k : Block) : List Captured :=
  (k.regions.filter (fun r => decide (r.dir = 1 ∨ r.dir = 2))).map (d.captureRegion b k)

/-- A block retires past its launch's deadline (R30): that of the record its queue took, in an ADV chain too (log 87). -/
def Dev.countDeadline (d : Dev) (k : Block) : Dev :=
  match d.launches[k.launch]? with
  | none => d
  | some l =>
    if l.lrec.dl && decide (l.due < d.cycle) && k.frag.isNone then
      let q := d.queue l.queue
      d.putQueue l.queue { q with dlm := if q.dlm = 0xFFFFFFFF#32 then q.dlm else q.dlm + 1 }
    else d

/-- BLOCK_CAPTURE: a retiring block whose work is done is captured; its reserve and its tiles go back (R263, R343). -/
def Dev.blockCapture (d : Dev) (b : Nat) : Dev :=
  match d.blocks[b]? with
  | none => d
  | some k =>
    if k.life = .retiring ∧ d.retireReady b k = true then
      let got := d.captureAll b k
      let d := ((d.countDeadline k).dropReserve b).modBlock b (fun k => { k with life := .capturing, captured := got })
      { d with tiles := d.tiles.map (fun (t : Tile) => if t.blk = b then { t with released := true, vals := [], pois := [] } else t) }
    else d

def execBlockCapture (blk : Nat) (s : State) : Out := event (·.blockCapture blk) s

/-- COMMIT_POINT: capture ends, and the block gives its cores back. -/
def Dev.commitPoint (d : Dev) (b : Nat) : Dev :=
  match d.blocks[b]? with
  | none => d
  | some k => if k.life = .capturing then (d.dropWork b).modBlock b (fun k => { k with life := .applying }) else d

def execCommitPoint (blk : Nat) (s : State) : Out := event (·.commitPoint blk) s

/-- The words to apply, with their addresses. -/
def Captured.writes (c : Captured) : List (Nat × Word × Nat) :=
  (c.region.wordOffs.zip c.words).map (fun ow => (c.region.src + ow.1.1, ow.2.1, ow.2.2))

/-- How a commit write ends (R44): made, dropped, or waiting for a page. -/
inductive Applied where
  | made
  | dropped
  | later
deriving DecidableEq, Repr

def commitWrite (r : Req) (d : Dev) (w : Nat × Word × Nat) : Applied × Dev :=
  match (wrWordAt r w.1 w.2).run' d with
  | (.ok _, d) => (.made, d)
  | (.error .later, d) => (.later, d)
  | (.error _, d) => (.dropped, d)

/-- A piece of the apply, from the writes given on: each is counted as it is made or dropped, and one that must wait ends the step. The
last write ends the apply: it is released at device scope. -/
def Dev.applyPiece (d : Dev) (b : Nat) (r : Req) : List (Nat × Word × Nat) → Dev
  | [] =>
    match d.blocks[b]? with
    | none => d
    | some k =>
      let e : Ending := ⟨if k.failed then 4 else 0, 0, 0⟩
      let d := d.modBlock b (fun k => { k with life := .done, captured := [], applied := 0, ending := some e })
      if k.failed && k.frag.isNone then d.modLaunch k.launch (fun l => l.note k.lin e) else d
  | w :: ws =>
    match commitWrite r d w with
    | (.later, d) => d
    | (x, d) =>
      let d := d.modBlock b (fun k => { k with applied := k.applied + 1, failed := k.failed || decide (x = .dropped) })
      if ws.head?.any (fun w' => pieceEnds w.1 w'.1) then d else d.applyPiece b r ws

/-- COMMIT_APPLY_DONE: the next piece of the captured bytes is written to SRC, in table order (R36, R43). -/
def Dev.commitApply (d : Dev) (b : Nat) : Dev :=
  match d.blocks[b]? with
  | none => d
  | some k =>
    if k.life ≠ .applying then d
    else d.applyPiece b (k.req k.home 1 (4096 * b + 4094) d) ((k.captured.flatMap Captured.writes).drop k.applied)

def execCommitApplyDone (blk : Nat) (s : State) : Out := event (·.commitApply blk) s

/-! ### Completion of a launch (R390) -/

/-- A block of a launch has nothing more to do. -/
def Life.gone : Life → Bool
  | .done | .ended | .replaying => true
  | _ => false

/-- Every block of the launch has committed or ended. -/
def Dev.launchOver (d : Dev) (i : Nat) (l : Launch) : Bool :=
  l.status.isSome ||
  (l.started && l.ranges.isEmpty && l.requeued.isEmpty && l.batches.isEmpty &&
   d.blocks.all (fun k => decide (k.launch ≠ i) || k.frag.isSome || k.life.gone) &&
   !((d.part l.part).trays.any (fun t => decide (t.bound = some i))))

/-- The completion record. -/
def Launch.record (l : Launch) : List Word :=
  let status := match l.status with
    | some s => s
    | none => (l.worst.map (fun w => w.2.status)).getD 0
  let (cause, kinfo) : Nat × Word := match l.status, l.worst with
    | none, some (_, e) => if e.status = 1 then (e.cause, e.kinfo) else (0, 0)
    | _, _ => (0, 0)
  [l.seq, BitVec.ofNat 32 (status + 256 * cause), kinfo, BitVec.ofNat 32 l.entry]

/-- QDONE counts the longest completed prefix. -/
def Dev.raiseDone (d : Dev) (q : Nat) : Nat → Dev
  | 0 => d
  | fuel + 1 =>
    let x := d.queue q
    if x.done ≠ x.head ∧ d.launches.any (fun l => decide (l.queue = q ∧ l.entry = x.done.toNat) && l.completed) then
      (d.putQueue q { x with done := x.done + 1 }).raiseDone q fuel
    else d

/-- LAUNCH_COMPLETE: the record is written at QCPL + 16·(i mod QSIZE), then QDONE rises. -/
def Dev.launchComplete (d : Dev) (i : Nat) : Dev :=
  match d.launches[i]? with
  | none => d
  | some l =>
    if l.completed || !(d.launchOver i l) then d
    else
      let q := d.queue l.queue
      let r := { d.queueReq l.queue with part := l.part, seq := l.seq }
      let a := q.cpl.toNat + 16 * (l.entry % max q.size.toNat 1)
      match d.probe r .write [a] with
      | some d' => d'
      | none =>
        let ws := l.record.zipIdx.map (fun (wi : Word × Nat) => (a + 4 * wi.2, wi.1, 0))
        let d := (ws.foldl (fun (d : Dev) w => (commitWrite r d w).2) d).settleParks
        (d.modLaunch i (fun l => { l with completed := true })).raiseDone l.queue (d.launches.length + 1)

def execLaunchComplete (l : Nat) (s : State) : Out := event (·.launchComplete l) s

/-! ### Errors (R23, R44, R46, R47) -/

/-- An uncorrectable error or a core fault strikes a block that holds its cores. -/
def Dev.strike (d : Dev) (b : Nat) : Dev :=
  match d.blocks[b]? with
  | none => d
  | some k => if k.life.holds then d.failBlock b 0 0 else d

def execSoftError (blk : Nat) (s : State) : Out := event (·.strike blk) s
def execCoreFault (blk : Nat) (s : State) : Out := event (fun d => d.strike blk) s

/-- A corrected error is counted. -/
def execCorrectedError (part : BitVec 3) (s : State) : Out :=
  event (fun d => if (d.part part.toNat).active then d.modPart part.toNat (fun p => { p with eccc := p.eccc + 1 }) else d) s

end Sys2Proof.Machine
end

