-- ==== Sys2Proof/Machine/Ctl.lean ====
section
/-! DEFINITION. CTL (R182-R201): transfers, rejoin masks, barriers, EXIT, YIELD, NOP, TRAP and BKPT; and the collective
steps of a block (R192-R197, R199). -/

namespace Sys2Proof.Machine

open Sys2Proof

/-! ### Transfers (R93, R94, R182-R187) -/

/-- The target of a near transfer: 16-byte units from the header of its clause (R93). -/
def Group.near (g : Group) (i : BitVec 8) : Int :=
  (match g.head.clause with
   | some c => (c.pc : Int)
   | none => 0) + 16 * i.toInt

/-- A transfer of the lanes of `m` to targets: R94's check in lane order, then R182. -/
def transferTo (v : View) (m : Mask) (ok : Int → Bool) (f : Nat → Int) : Res :=
  match m.lanes.find? (fun l => !(ok (f l))) with
  | some l => .trap { cause := cILLEGAL_INSTR, lanes := Mask.ofFn (fun x => m.getLsbD x && !(ok (f x))), info0 := BitVec.ofInt 32 (f l) }
  | none => .jump v.d v.g (byTarget (fun l => (f l).toNat) m) (v.act &&& ~~~m)

def View.nearOk (v : View) (t : Int) : Bool := decide (0 ≤ t ∧ t < v.k.codeLen v.g)
def View.farOk (v : View) (t : Int) : Bool := decide (t % 16 = 0 ∧ t < v.k.codeLen v.g)

def View.goNear (v : View) (m : Mask) (i : BitVec 8) : Res := transferTo v m v.nearOk (fun _ => v.g.near i)
def View.goFar (v : View) (f : Nat → Word) : Res := transferTo v v.act v.farOk (fun l => ((f l).toNat : Int))

def execBra (c : BraCond) (p : BitVec 3) (i : BitVec 8) (s : State) : Out :=
  issue (.bra c p i) { reads := if c = .always then [] else [.p p.toNat], last := true }
    (fun v => v.goNear (match c with
      | .always => v.act
      | .ifT => v.act &&& v.g.pred p.toNat
      | .ifN => v.act &&& ~~~(v.g.pred p.toNat)) i) s

def execBrau (z : Bool) (a : BitVec 7) (i : BitVec 8) (s : State) : Out :=
  issue (.brau z a i) { reads := [.s a.toNat], last := true }
    (fun v => v.goNear (if decide (v.g.uni a.toNat = 0) = z then v.act else 0#32) i) s

def execBras (a : BitVec 7) (s : State) : Out :=
  issue (.bras a) { reads := [.s a.toNat], last := true } (fun v => v.goFar (fun _ => v.g.uni a.toNat)) s

def execBrx (a : BitVec 7) (s : State) : Out :=
  issue (.brx a) { reads := [.v a.toNat], last := true } (fun v => v.goFar (v.g.src (.v a))) s

/-- RET acts as BRX does (R186). -/
def execRet (a : BitVec 7) (s : State) : Out :=
  issue (.ret a) { reads := [.v a.toNat], last := true } (fun v => v.goFar (v.g.src (.v a))) s

/-- The link of a CALL in the active lanes: the fall-through header position (R187). -/
def View.linked (v : View) (l : BitVec 7) : View :=
  { v with g := v.g.setD l.toNat (fun _ => BitVec.ofNat 32 v.g.head.fall) }

def execCall (l : BitVec 7) (i : BitVec 8) (s : State) : Out :=
  issue (.call l i) { fixed := [.v l.toNat], last := true } (fun v => (v.linked l).goNear v.act i) s

def execCallFar (l a : BitVec 7) (s : State) : Out :=
  issue (.callFar l a) { reads := [.s a.toNat], fixed := [.v l.toNat], last := true }
    (fun v => let t := v.g.uni a.toNat
      (v.linked l).goFar (fun _ => t)) s

/-! ### Rejoin masks (R188-R191) -/

/-- An instruction that completes and may release lanes: the issuing entry goes on, and the check of R189 follows. -/
def View.thenCheck (v : View) (g : Group) (j : Nat) : Res :=
  let ended := g.head.endsRun
  .stay v.d ({ g.advance.1 with sel := !ended }.checkWait v.d.cycle j) ended

def execJset (j : BitVec 4) (a : BitVec 7) (s : State) : Out :=
  issue (.jset j a) { reads := [.s a.toNat] }
    (fun v => v.thenCheck { v.g with jE := FMap.set 0#32 v.g.jE j.toNat (v.g.uni a.toNat &&& v.g.live) } j.toNat) s

def execJoin (j : BitVec 4) (s : State) : Out :=
  issue (.join j) {}
    (fun v => v.thenCheck { v.g with jE := FMap.set 0#32 v.g.jE j.toNat (FMap.get 0#32 v.g.jE j.toNat ||| v.act) } j.toNat) s

def execLeave (j : BitVec 4) (s : State) : Out :=
  issue (.leave j) {}
    (fun v => v.thenCheck { v.g with jE := FMap.set 0#32 v.g.jE j.toNat (FMap.get 0#32 v.g.jE j.toNat &&& ~~~v.act) } j.toNat) s

/-- The issuing entry arrives at a WAIT and is suspended there. -/
def Group.arriveWait (g : Group) (j : Nat) : Group :=
  { g.setHead { g.head with susp := .wait j } with
    jA := FMap.set 0#32 g.jA j (FMap.get 0#32 g.jA j ||| g.active), sel := false }

/-- What follows an arrival: the check of R189, then the deadlines. A suspended entry gives the slot back where another
entry is runnable; else the group blocks when it goes on (R90, R181). -/
def View.thenWait (v : View) (g : Group) (j : Nat) : Res :=
  let e := v.g.head
  let x := (g.checkWait v.d.cycle j).expire j v.d.cycle
  .stay v.d x (if x.waitLanes &&& e.mask = 0#32 then e.endsRun else x.someRunnable)

def execWait (j : BitVec 4) (s : State) : Out :=
  issue (.wait j) {} (fun v => v.thenWait (v.g.arriveWait j.toNat) j.toNat) s

/-- WAIT.t arms a deadline and a mark in the arriving lanes. -/
def execWaitT (j : BitVec 4) (a : BitVec 7) (p : BitVec 3) (s : State) : Out :=
  issue (.waitT j a p) { reads := [.s a.toNat], fixed := [.p p.toNat] }
    (fun v =>
      let t := v.d.cycle + (v.g.uni a.toNat).toNat + 1
      let g := v.g.arriveWait j.toNat
      v.thenWait { g with
        dl := v.act.lanes.foldl (fun m l => FMap.set 0 m l t) g.dl,
        mark := v.act.lanes.foldl (fun m l => FMap.set 0 m l p.toNat) g.mark } j.toNat) s

/-- WAIT_TIMEOUT: the earliest deadline of A(j) passes. -/
def execWaitTimeout (blk grp : Nat) (j : BitVec 4) (s : State) : Out :=
  event (fun d => match d.blocks[blk]? with
    | some k => if k.running then d.modGroup blk grp (fun g => g.expire j.toNat d.cycle) else d
    | none => d) s

/-! ### Barriers (R192-R197) -/

def barKey (role : Bool) (r id : Nat) : Nat := if role then 16 + 16 * r + id else id

/-- The phase count of a barrier, and whether a group's last arrival at it is in a phase that is open (R194). -/
def Block.phase (k : Block) (key : Nat) : Nat := FMap.get 0 k.phases key
def Block.pending (k : Block) (g : Group) (key : Nat) : Bool := decide (FMap.get 0 g.barRec key = k.phase key + 1)

/-- A barrier's participants: groups of the block, or of the role, that have not wholly exited. -/
def Block.participants (k : Block) (key : Nat) : List Group :=
  k.groups.filter (fun g => !g.exited && (decide (key < 16) || decide (g.role = (key - 16) / 16)))

/-- One collective step of a group at a barrier, where it can be taken. -/
def Dev.barStep (d : Dev) (b n : Nat) (k : Block) (g : Group) : Option Dev :=
  let core := k.coreOf n
  let rel := d.released b n true
  let arrive (key : Nat) : Group := { g with barRec := FMap.set 0 g.barRec key (k.phase key + 1) }
  match g.collective with
  | some (.arr role id) =>
    let key := barKey role g.role id
    if k.pending g key || !rel then none else some (d.putGroup b n ((arrive key).resumeColl d.cycle))
  | some (.bar role id) =>
    let key := barKey role g.role id
    if g.stage = 2 then
      if k.pending g key then none else some ((d.acquire core k.scope).putGroup b n (g.resumeColl d.cycle))
    else if k.pending g key || !rel then none else some (d.putGroup b n { arrive key with stage := 2 })
  | some (.bwait role id) =>
    if k.pending g (barKey role g.role id) || !d.returned b n then none else some ((d.acquire core k.scope).putGroup b n (g.resumeColl d.cycle))
  | _ => none

/-- A phase that every participant has arrived in completes. -/
def Block.completePhases (k : Block) : Block :=
  let keys := k.groups.flatMap (fun g => g.barRec.map (·.1))
  let full (key : Nat) : Bool := !(k.participants key).isEmpty && (k.participants key).all (fun g => k.pending g key)
  { k with phases := keys.foldl (fun m key => if full key && decide (FMap.get 0 m key = k.phase key) then
      FMap.set 0 m key (k.phase key + 1) else m) k.phases }

/-- The collective steps of a block's groups at barriers, as far as they go. -/
def Dev.barriers (d : Dev) (b : Nat) : Nat → Dev
  | 0 => d
  | fuel + 1 =>
    let d := d.modBlock b Block.completePhases
    match d.blocks[b]? with
    | none => d
    | some k =>
      match k.liveGroups.findSome? (fun n => (k.groups[n]?).bind (d.barStep b n k)) with
      | some d => d.barriers b fuel
      | none => d

/-- A group at a barrier has not arrived at it any more: BAR withdraws its arrival in the open phase (R197). -/
def Group.withdraw (g : Group) : Group :=
  match g.collective with
  | some (.bar role id) => if g.stage = 2 then { g with barRec := FMap.set 0 g.barRec (barKey role g.role id) 0 } else g
  | _ => g

/-- R197: every live group waits at a collective step that cannot complete, some at ADV and some at barriers. -/
def Dev.barTraps (d : Dev) (b : Nat) : Dev :=
  match d.blocks[b]? with
  | none => d
  | some k =>
    let live := k.liveGroups.filterMap (fun n => (k.groups[n]?).map (fun g => (n, g)))
    let atBar := live.filter (fun x => match x.2.collective with
      | some .adv => false
      | some _ => true
      | none => false)
    let atAdv := live.filter (fun x => decide (x.2.collective = some .adv))
    -- a group held back by its own release has a step that can still be taken
    let held := atBar.any (fun x => decide (x.2.stage ≠ 2) && (match x.2.collective with
       | some (.bwait _ _) => !(d.returned b x.1)
       | _ => !(d.released b x.1 true)))
    if atAdv.isEmpty || atBar.isEmpty || decide (atAdv.length + atBar.length ≠ live.length) || held then d
    else atBar.foldl (fun d x => (d.modGroup b x.1 Group.withdraw).barUnreachable b x.1 1) d

/-! ### ADV's checks (R49) -/

/-- The fields of the inheritance words (Tables 2-7, 2-8). -/
structure Inherit where
  csh : Bool
  scr : Nat
  uni : Nat
  vec : Nat
  tile : BitVec 8
  chan : BitVec 8
deriving DecidableEq, Repr

def inheritOf (o : AdvOps) : Inherit :=
  { csh := o.w0.getLsbD 27, scr := (o.w0.extractLsb' 18 9).toNat, uni := (o.w0.extractLsb' 13 5).toNat,
    vec := (o.w0.extractLsb' 8 5).toNat, tile := o.w0.extractLsb' 0 8, chan := o.w1.extractLsb' 0 8 }

/-- Any inheritance bit is set (R52). -/
def AdvOps.any (o : AdvOps) : Bool := decide (o.w0 ≠ 0 ∨ o.w1 ≠ 0)

/-- The tiles a record's acquisition names: a0 upward with their shapes (R28). -/
def LRecord.tileShape (r : LRecord) (i : Nat) : Option Nat := r.tileShapes[i]?

/-- A successor fits the shadow slot that its predecessor holds: the slot's size (R393). -/
def Part.slotFits (p : Part) (k : Block) (r : LRecord) : Bool :=
  decide (k.slot.isSome) && decide (r.footprint 1 0 ≤ p.shadowUnits / 4 * 1024)

/-- The cores admit the successor's parts once the predecessor's are freed (R49 check 8). -/
def Dev.succFits (d : Dev) (b : Nat) (k : Block) (r : LRecord) : Bool :=
  decide (r.coresNeeded (d.part k.part).shadowUnits = some k.cores.length) &&
  (if k.slot.isSome then decide (r.groups = 1) && (d.part k.part).slotFits k r else ((d.without b k).fitCores k.part r k.cores).isSome)

/-- The first failing check of R49 for operands on which all groups agree. -/
def Dev.advFail (d : Dev) (b : Nat) (k : Block) (o : AdvOps) (c : Checked) : Option Nat :=
  let i := inheritOf o
  let r := c.lrec
  firstStatus [
    (decide (o.w0.extractLsb' 28 4 ≠ 0) || decide (o.w1.extractLsb' 8 24 ≠ 0) || decide (16 < i.vec ∨ 20 < i.uni ∨ 288 < i.scr), 2),
    (c.status.isSome || decide (r.kind ≠ 0) || decide (r.extx ≠ k.lrec.extx ∨ r.exty ≠ k.lrec.exty ∨ r.extz ≠ k.lrec.extz), 3),
    ((k.lrec.roles ++ r.roles).any (fun x => decide (x.budget < i.vec)), 4),
    (decide (k.lrec.cscr < i.scr ∨ r.cscr < i.scr), 5),
    (i.csh && decide (k.lrec.cshr ≠ r.cshr), 6),
    ((List.range 8).any (fun t => i.tile.getLsbD t &&
      (match d.tileOf k t with
       | none => true
       | some (_, x) => decide (r.tileShape t ≠ some x.shape))), 7),
    (!(d.succFits b k r), 8)]

/-- The destinations that the channels which are not inherited still fill (Table 2-9). -/
def Block.drainRanges (k : Block) (chan : BitVec 8) : List (Space × Nat × Nat) :=
  (List.range 8).flatMap (fun c => if chan.getLsbD c then [] else
    (nth k.chans c Channel.init).cmds.flatMap (fun (x : CopyCmd) => match x.dst with
      | .scratch s a => x.pieces.map (fun p => (s, a + p.dstOff, p.len))
      | _ => []))

/-- The checks have passed: the block advances, and its successor's parts are allotted in place of its own. -/
def Dev.advBegin (d : Dev) (b : Nat) (k : Block) (o : AdvOps) (c : Checked) : Dev :=
  let fits := if k.slot.isSome then none else (d.without b k).fitCores k.part c.lrec k.cores
  let d := d.modBlock b (fun k => { k with
    life := .advancing, succ := some c.lrec, succRegions := c.regions, advOps := some o,
    scrub := k.drainRanges (inheritOf o).chan })
  match fits with
  | none => d
  | some fits =>
    ({ d with cores := d.cores.map (fun (x : Nat × CoreSt) =>
      (x.1, { x.2 with units := x.2.units.filter (fun u => decide (u.2.2 ≠ b)) })) } : Dev).allotUnits b k.cores fits

/-- SUCC_SHAPE at every waiting group: its lanes stay at their ADVs (R199). -/
def Dev.advTraps (d : Dev) (b : Nat) (k : Block) (check : Nat) : Dev :=
  k.liveGroups.foldl (fun (d : Dev) n =>
    match d.group b n with
    | none => d
    | some g =>
      let pc := g.pcOfLane (Mask.lowest g.live)
      takeTrap (d.putGroup b n (g.unColl d.cycle)) b n
        { cause := cSUCC_SHAPE, pc := pc, lanes := g.live, act := g.live, info0 := BitVec.ofNat 32 check,
          word := (k.codeWord g pc).getD 0 }) d

/-- Every live group waits at ADV: the checks of R49 decide the block's fate. An unfinished read of the record is taken up
again when the block's steps are next considered. -/
def Dev.advStep (d : Dev) (b : Nat) : Dev :=
  match d.blocks[b]? with
  | none => d
  | some k =>
    let live := k.liveGroups.filterMap (fun n => k.groups[n]?)
    if live.isEmpty || !k.running || !(live.all (fun g => decide (g.collective = some .adv))) ||
        !(k.liveGroups.all (fun n => d.released b n true)) then d
    else
      match live.map (·.advOps) with
      | some o :: rest =>
        if rest.all (fun x => decide (x = some o)) then
          match (readLaunch (k.req k.home 1 (4096 * b + 4093) d) k.part o.record).run' d with
          | (.error _, d) => d
          | (.ok c, d) =>
            match d.advFail b k o c with
            | some n => d.advTraps b k n
            | none => d.advBegin b k o c
        else d.advTraps b k 1
      | _ => d.advTraps b k 1

/-- The collective steps of a block. -/
def Dev.collSettle (d : Dev) (b : Nat) : Dev :=
  match d.blocks[b]? with
  | none => d
  | some k => if k.running then ((d.barriers b (4 * k.groups.length + 4)).barTraps b).advStep b else d

/-- The issuing entry is suspended at a collective instruction, and the block's steps follow. -/
def View.collect (v : View) (op : CollOp) (ops : Option AdvOps) : Res :=
  let e := v.g.head
  let d := (v.d.putGroup v.b v.n { v.g.setHead { e with susp := .coll op ops } with sel := false }).collSettle v.b
  match d.group v.b v.n with
  | some g => .stay d g (if g.collLanes = 0#32 then e.endsRun else g.someRunnable)
  | none => .stay d v.g true

def execBar (role : Bool) (i : BitVec 4) (s : State) : Out :=
  issue (.bar role i) {} (fun v => v.collect (.bar role i.toNat) none) s

def execBarArr (role : Bool) (i : BitVec 4) (s : State) : Out :=
  issue (.barArr role i) {} (fun v => v.collect (.arr role i.toNat) none) s

def execBarWait (role : Bool) (i : BitVec 4) (s : State) : Out :=
  issue (.barWait role i) {} (fun v => v.collect (.bwait role i.toNat) none) s

/-- ADV (R199): the record's address from an even pair, the inheritance words from the next two uniforms. -/
def execAdv (a b : BitVec 7) (s : State) : Out :=
  issue (.adv a b) { reads := us a.toNat 2 ++ us b.toNat 2, last := true }
    (fun v => v.collect .adv (some ⟨(v.g.uniPair a.toNat).toNat, v.g.uni b.toNat, v.g.uni (b.toNat + 1)⟩)) s

/-! ### EXIT, YIELD, NOP, TRAP, BKPT -/

/-- A group that has wholly exited leaves the declared sets (R249) and the barriers; the block begins to retire with its
last group (R42, R198). -/
def Dev.groupExit (d : Dev) (b n : Nat) : Dev :=
  let d := (d.leaveSets b n).collSettle b
  d.modBlock b (fun k => if k.running && k.liveGroups.isEmpty then { k with life := .retiring } else k)

/-- EXIT (R198). -/
def execExit (s : State) : Out :=
  issue .exit { last := true }
    (fun v =>
      let ended := v.g.head.endsRun
      let g := v.g.lanesExit v.act v.d.cycle
      if g.exited then
        let d := (v.d.putGroup v.b v.n (g.release .ready)).groupExit v.b v.n
        .stay d ((d.group v.b v.n).getD g) true
      else .stay v.d g ended) s

/-- YIELD ends the run; the entry goes on at the fall-through header position (R200). -/
def execYield (s : State) : Out :=
  issue .yield { last := true } (fun v => .stay v.d v.g.advance.1 true) s

def execNop (s : State) : Out := issue .nop {} (fun v => .done v.d v.g) s

def execTrap (i : BitVec 8) (s : State) : Out :=
  issue (.trap i) {} (fun v => .trap { cause := cUSER_TRAP, lanes := v.act, info0 := zext8 i }) s

def execBkpt (i : BitVec 8) (s : State) : Out :=
  issue (.bkpt i) {} (fun v => .trap { cause := cBREAKPOINT, lanes := v.act, info0 := zext8 i }) s

end Sys2Proof.Machine
end

