-- ==== Sys2Proof/Machine/Adv.lean ====
section
/-! DEFINITION. The successor of a block that advances (R50-R52, R350, R51) and the start of staged blocks (R40). -/

namespace Sys2Proof.Machine

open Sys2Proof

/-- The predecessor's outstanding work is settled (Table 2-9): nothing writes scratch any more but inherited channels, and nothing works
on tiles that are not inherited. -/
def Dev.advSettled (d : Dev) (b : Nat) (k : Block) (i : Inherit) : Bool :=
  !(d.stores.any (fun x => decide (x.blk = b))) && !(d.atoms.any (fun x => decide (x.blk = b))) &&
  (List.range 8).all (fun c => i.chan.getLsbD c || (nth k.chans c Channel.init).cmds.isEmpty) &&
  (List.range 8).all (fun t => i.tile.getLsbD t || (match d.tileOf k t with
    | some (_, x) => x.order.isEmpty
    | none => true))

/-- A register is inherited (Table 2-7). -/
def Inherit.keeps (i : Inherit) : RegRef → Bool
  | .v n => decide (n < 8 * i.vec)
  | .u n => decide (n < 8 * i.uni)
  | .h _ => false

/-- Entries of a map with keys below a bound, or from it up. -/
def FMap.below {α : Type} (m : FMap α) (n : Nat) : FMap α := m.filter (fun x => decide (x.1 < n))
def FMap.from {α : Type} (m : FMap α) (n : Nat) : FMap α := m.filter (fun x => decide (n ≤ x.1))

/-- A successor group (R51): what it inherits from the group of the same role and index, and what starts anew. -/
def Group.successor (r : LRecord) (i : Inherit) (n cycle : Nat) (old : Option Group) : Group :=
  let (role, idx) := roleOfGroup r.roles n
  let g := Group.start role idx (r.role role).budget (r.role role).entry (FMap.from r.consts (8 * i.uni)) r.gcr cycle
  match old with
  | none => g
  | some o => { g with
      helper := o.helper,
      v := FMap.below o.v (256 * i.vec), vp := FMap.below o.vp (256 * i.vec),
      s := FMap.below o.s (8 * i.uni) ++ g.s, sp := FMap.below o.sp (8 * i.uni),
      gcr := g.gcr ||| (o.gcr &&& 0x3E0#32), gfl := o.gfl,
      flights := o.flights.filter (fun f => i.keeps f.reg), pend := o.pend }

/-- The number that a group of the predecessor has in the successor; a number of no group where it has none. -/
def Block.groupMap (k : Block) (r : LRecord) (m : Nat) : Nat :=
  match k.groups[m]? with
  | none => 2048 + m
  | some g => ((List.range r.groups).find? (fun n => decide (roleOfGroup r.roles n = (g.role, g.idx)))).getD (2048 + m)

def TileCmd.remap (c : TileCmd) (f : Nat → Nat) : TileCmd :=
  match c with
  | .mwait b g => .mwait b (f g)
  | .mrel b g => .mrel b (f g)
  | .mrd op b g k q c act regs => .mrd op b (f g) k q c act regs
  | .mrdStat op b g regs => .mrdStat op b (f g) regs
  | .drain x => .drain { x with grp := f x.grp }
  | c => c

/-- A pass that block `b` signed, once the block is the predecessor `pred` of its successor. -/
def Pass.remap (p : Pass) (b pred : Nat) (f : Nat → Nat) : Pass :=
  if p.blk = b then
    { p with
      src := if p.src = b then pred else p.src,
      sign := { p.sign with set := p.sign.set.map f, signed := p.sign.signed.map (fun (x : Nat × Bool) => (f x.1, x.2)) } }
  else p

/-- Scratch of block `b`, which stands under the number `pred` once the block has advanced. -/
def Space.reblock (s : Space) (b pred : Nat) : Space :=
  match s with
  | .core b' pos => .core (if b' = b then pred else b') pos
  | .clu b' i => .clu (if b' = b then pred else b') i
  | s => s

/-- A command that block `b` issued, once its groups are the successor's: a merge path goes on in the predecessor's scratchpad. -/
def Cmd.remap (c : Cmd) (b pred : Nat) (f : Nat → Nat) : Cmd :=
  if c.blk = b then
    { c with grp := f c.grp, kind := match c.kind with
        | .mpath (.scratch s a) rows parts p => .mpath (.scratch (s.reblock b pred) a) rows parts p
        | x => x }
  else c

/-- The loads in flight of a block that advances hold what they read in its scratch; those of registers that are not inherited are
dropped (Table 2-9). -/
def Dev.settleLoads (d : Dev) (b : Nat) (i : Inherit) (f : Nat → Nat) : Dev :=
  let d := (d.loads.filter (fun x => decide (x.blk = b))).foldl (fun (d : Dev) (x : PLoad) =>
    let vals := x.vals.getD (x.value (fun s a =>
      if x.got.any (fun y => decide (y.1 = s ∧ y.2.1 = a / 4)) then x.gotWord s a else d.seenWord x.core x.blk x.grp x.op s a))
    let d := d.noteSeen x.core x.blk (f x.grp) x.op (if x.vals.isSome then [] else x.words)
    { d with loads := d.loads.map (fun (y : PLoad) => if y.op = x.op then { y with need := [], vals := some vals, grp := f y.grp } else y) }) d
  { d with loads := d.loads.filter (fun x => decide (x.blk ≠ b) || (decide (x.grp < 2048) && x.regs.any i.keeps)) }

/-- Work under way that names groups of the block names the successor's. Passes that the block signed go on reading its
own scratchpad, which stands under the predecessor's number `pred`. -/
def Dev.remapWork (d : Dev) (b pred : Nat) (f : Nat → Nat) : Dev :=
  { d with
    cmds := d.cmds.map (fun (c : Cmd) => c.remap b pred f),
    engines := d.engines.map (fun (e : Nat × Engine) => (e.1, { e.2 with table := e.2.table.map (fun (p : Pass) => p.remap b pred f) })),
    tiles := d.tiles.map (fun (t : Tile) => if t.blk = b then { t with order := t.order.map (fun (c : TileCmd) => c.remap f) } else t) }

/-- The tiles that the successor does not inherit are scrubbed and released. -/
def Dev.releaseTiles (d : Dev) (k : Block) (keep : BitVec 8) : Dev :=
  (List.range 8).foldl (fun (d : Dev) t => match keep.getLsbD t, k.tile t with
    | false, some x => d.modTile x (fun y => { y with released := true, vals := [], pois := [] })
    | _, _ => d) d

/-- The successor's tiles under their names: inherited ones, and new ones, all or none. -/
def Dev.succTiles (d : Dev) (b : Nat) (k : Block) (keep : BitVec 8) (shapes : List Nat) : Option (List (Option Nat) × Dev) :=
  (List.range 8).foldl (fun (acc : Option (List (Option Nat) × Dev)) t =>
    match acc with
    | none => none
    | some (ts, d) =>
      match shapes[t]? with
      | none => some (ts ++ [none], d)
      | some s =>
        if keep.getLsbD t then some (ts ++ [k.tile t], d)
        else match d.acquireTile k.home b s with
          | none => none
          | some (x, d) => some (ts ++ [some x], d)) (some ([], d))

/-- Scrubbing a range of scratch that a channel filled which is not inherited (Table 2-9). -/
def Dev.zeroRange (d : Dev) (x : Space × Nat × Nat) : Dev :=
  (List.range (x.2.2 / 4)).foldl (fun (d : Dev) j => d.homePut x.1 (x.2.1 + 4 * j) 0 0) d

/-- The predecessor as it goes on to apply its regions (R51, R54); its scratchpad stays for the passes it signed. -/
def Block.predecessor (k : Block) (got : List Captured) : Block :=
  { k with life := .applying, captured := got, groups := [], code := [],
           succ := none, advOps := none, frag := none, slot := none, preempt := false }

/-- The successor block (R51, R52). -/
def Block.successor (k : Block) (r : LRecord) (o : AdvOps) (tiles : List (Option Nat)) (pred cycle : Nat) : Block :=
  let i := inheritOf o
  { k with
    lrec := r, regions := k.succRegions, life := if k.succRegions.isEmpty then .running else .staging, nrepl := 0,
    groups := (List.range r.groups).map (fun n =>
      let (role, idx) := roleOfGroup r.roles n
      Group.successor r i n cycle (k.groups.find? (fun g => decide (g.role = role ∧ g.idx = idx)))),
    core := k.core.map (fun (m : Memory) => FMap.below m (4096 * i.scr)), coreP := k.coreP.map (fun (m : FMap Nat) => FMap.below m (1024 * i.scr)),
    clu := if i.csh then k.clu else k.clu.map (fun _ => []), cluP := if i.csh then k.cluP else k.cluP.map (fun _ => []),
    sign := List.replicate 8 SignReg.idle, tiles := tiles, maps := List.replicate 8 OpMap.idle,
    chans := (List.range 8).map (fun c => if i.chan.getLsbD c then nth k.chans c Channel.init else Channel.init),
    phases := [], staged := 0, stageAt := 0, stageSnap := none, applied := 0, failed := false, captured := [], scrub := [], code := [], noReplay := o.any, succ := none,
    succRegions := [], advOps := none, pred := some pred, preempt := false, batch := none }

/-- ADV_SUCCESSOR_START: once everything is settled and captured, the successor takes the block's place; its predecessor
goes on to apply its regions under a number of its own. -/
def Dev.advStart (d : Dev) (b : Nat) : Dev :=
  match d.blocks[b]? with
  | none => d
  | some k =>
    match k.life, k.succ, k.advOps with
    | .advancing, some r, some o =>
      let i := inheritOf o
      if !(d.advSettled b k i) then d
      else match (d.releaseTiles k i.tile).succTiles b k i.tile r.tileShapes with
        | none => d
        | some (tiles, d) =>
          let got := d.captureAll b k
          let d := (((d.countDeadline k).dropReserve b).settleLoads b i (k.groupMap r)).remapWork b d.blocks.length (k.groupMap r)
          let d := { d with blocks := d.blocks ++ [k.predecessor got] }
          let d := d.modBlock b (fun k' => { k.successor r o tiles (d.blocks.length - 1) d.cycle with permit := k'.permit })
          let d := k.scrub.foldl Dev.zeroRange d
          k.cores.foldl (fun (d : Dev) c => (d.acquire c k.scope).l1Drop c (fun x => match x.space with
            | .clu b' _ => decide (b' = b) && !i.csh
            | _ => false)) d
    | _, _, _ => d

def execAdvSuccessorStart (blk : Nat) (s : State) : Out := event (·.advStart blk) s

end Sys2Proof.Machine
end

