-- ==== Sys2Proof/Machine/Arb.lean ====
section
/-! DEFINITION. Issue slots: when a blocked group is ready, arbitration (R56, R90), and deferred traps at run boundaries
(R348, R356); pre-emption, saving and restoring (R367, R368). -/

namespace Sys2Proof.Machine

open Sys2Proof

/-! ### Readiness -/

/-- A block's channel. -/
def Block.channel (k : Block) (c : Nat) : Channel := nth k.chans c Channel.init

/-- Triangles in a die's reorder buffer (R327). -/
def Dev.buffered (d : Dev) (die : Nat) : Nat :=
  (d.parts.map (fun (p : Nat × Part) =>
    (p.2.sets.map (fun (s : Nat × SetEntry) => (s.2.stream.filter (fun t => decide (t.die = die))).length)).sum)).sum

/-- A PRIM blocked on a set is worth another try: there is room, or its stream is closed. -/
def Dev.streamRoom (d : Dev) (part set die : Nat) : Bool :=
  let s := FMap.get SetEntry.free (d.part part).sets set
  decide (s.state ≠ 3) || s.closed || decide (d.buffered die < 8192)

/-- The raster unit's buffer takes a result of a work for a chunk: no result of another work fills it (R333). What it holds for the work itself
can be applied in turn (R335). -/
def SetEntry.resultRoom (e : SetEntry) (chunk work : Nat) : Bool :=
  let others := e.held.filter (fun h => decide (h.chunk = chunk ∧ work < h.work))
  let all := e.held.filter (fun h => decide (h.chunk = chunk))
  decide (others.length = all.length) || decide (all.length ≤ Config.resultRoom)

/-- What a blocked instruction waits for holds; it then issues again. -/
def Dev.condHolds (d : Dev) (b n : Nat) (k : Block) (g : Group) (c : Cond) : Bool :=
  let core := k.coreOf n
  match c with
  | .regs l => l.all (fun r => !g.empty r)
  | .events w => d.eventsHold b n w
  | .release wide => d.released b n wide
  | .fence sc kd => d.fenced b n sc kd
  | .cwait c thr => (k.channel c).err.isSome || decide (thr ≤ (k.channel c).pointer % 2 ^ 32)
  | .channel c => (k.channel c).err.isSome || decide ((k.channel c).cmds.length < 8)
  | .pbar l addr ph => d.phaseIs b n (k.space b n (lvl2 l) 0) addr ph
  | .mopf clu => d.mopfOk core b n clu
  | .table => decide ((d.engine k.home).table.length < 32)
  | .prim set => d.streamRoom k.part set (dieOf k.home)
  | .sres set chunk work => (FMap.get SetEntry.free (d.part k.part).sets set).resultRoom chunk work
  | .allFull => g.flights.isEmpty
  | .code va => (k.unit va).isSome
  | .misses m => decide ((d.core core).miss.length + m ≤ 256)
  | .window l => l.all (fun x => match k.groups[x.1]? with
    | some o => !o.empty x.2
    | none => true)

/-- The group could use an issue slot. -/
def Dev.groupReady (d : Dev) (b n : Nat) (k : Block) (g : Group) : Bool :=
  k.running && (!k.preempt || g.levelH) && !g.exited && g.slot.isNone &&
  (match g.why with
   | .ready => true
   | .noEntry => g.someRunnable
   | .unit => false
   | .cond c => d.condHolds b n k g c)

/-- The priority class of a block: its launch's, or its fragment record's (R27, R30); a block that ADV started keeps its launch's
(log 87). -/
def Dev.classOf (d : Dev) (k : Block) : Nat :=
  if k.frag.isSome then k.lrec.pcls
  else match d.launches[k.launch]? with
    | some l => l.lrec.pcls
    | none => k.lrec.pcls

/-- The groups of a core in running blocks. -/
def Dev.groupsOn (d : Dev) (core : Nat) : List (Nat × Nat) :=
  (List.range d.blocks.length).flatMap (fun b => match d.blocks[b]? with
    | none => []
    | some k => if k.running then
        ((List.range k.groups.length).filter (fun n => decide (k.coreOf n = core))).map (fun n => (b, n))
      else [])

/-- Groups in running blocks. -/
def Dev.runningGroups (d : Dev) : List (Nat × Nat) :=
  (List.range d.blocks.length).flatMap (fun b => match d.blocks[b]? with
    | none => []
    | some k => if k.running then (List.range k.groups.length).map (fun n => (b, n)) else [])

/-- Since when each of some groups has been ready: since this cycle where it has just become so. -/
def Dev.noteReady (d : Dev) (l : List (Nat × Nat)) : Dev :=
  l.foldl (fun (d : Dev) x =>
    match d.blocks[x.1]?, d.group x.1 x.2 with
    | some k, some g =>
      let since := if d.groupReady x.1 x.2 k g then some (g.readyAt.getD d.cycle) else none
      if g.readyAt = since then d else d.putGroup x.1 x.2 { g with readyAt := since }
    | _, _ => d) d

/-- Each step that may have written a barrier word rechecks the groups that wait for its phase bit, and a group that finds it is released
(R231): it goes on from its wait whatever the bit does later. -/
def Dev.recheck (d : Dev) (l : List (Nat × Nat)) : Dev :=
  l.foldl (fun (d : Dev) x =>
    match d.blocks[x.1]?, d.group x.1 x.2 with
    | some k, some g =>
      match g.why with
      | .cond (.pbar l addr ph) => if d.condHolds x.1 x.2 k g (.pbar l addr ph) then
          d.putGroup x.1 x.2 { g with why := .ready, woken := some g.head.pc } else d
      | _ => d
    | _, _ => d) d

/-- `n` cycles pass. Deadlines of WAIT.t that lie in them release their lanes (R190), and groups that have become ready are ready from the
cycle that ends here (R56, R90). -/
def Dev.passTime (d : Dev) (n : Nat) : Dev :=
  match n with
  | 0 => d
  | m + 1 =>
    let d := d.runningGroups.foldl (fun (d : Dev) x => d.modGroup x.1 x.2 (fun g => g.expireAll d.cycle (d.cycle + m))) d
    let d := (d.recheck d.runningGroups).noteReady d.runningGroups
    { d with cycle := d.cycle + n }

/-- Cycles after which a ready group wins the next slot (R56). -/
def slotCycles : Nat := 4096

/-- A ready group goes before another: class and ready cycle of each (R56, R90). -/
def slotBefore (cycle : Nat) (a b : Nat × Nat) : Bool :=
  let agedA := decide (slotCycles ≤ cycle - a.2)
  let agedB := decide (slotCycles ≤ cycle - b.2)
  if agedA || agedB then agedA && (!agedB || decide (a.2 < b.2))
  else decide (b.1 < a.1 ∨ (a.1 = b.1 ∧ a.2 < b.2))

/-- A group's claim to a slot, where it is ready. -/
def Dev.claim (d : Dev) (b n : Nat) : Option (Nat × Nat) :=
  match d.blocks[b]?, d.group b n with
  | some k, some g => if d.groupReady b n k g then g.readyAt.map (fun r => (d.classOf k, r)) else none
  | _, _ => none

/-! ### Deferred traps (R348, R356) -/

/-- The PC at which the group would have resumed: that of the entry which R179 chooses. Where the choice needs a header whose code unit
is not fetched, the group waits for that unit first (an error names the PC); a unit that could not be fetched is where it stops. -/
def Dev.resumePc (d : Dev) (k : Block) (g : Group) : Except Nat Nat :=
  match select (k.codeWord g) (k.codeLen g) d.cycle false g.frontier with
  | .fetch pc _ => if (k.unit (k.codeBase g + pc)).isSome then .ok pc else .error pc
  | .noEntry _ => .ok g.head.pc
  | .illegal e _ _ => .ok e.pc
  | .atClause e _ _ => .ok e.pc
  | .instr e _ => .ok e.pc

/-- The pending deferred trap of the lowest cause. -/
def Group.nextDeferred (g : Group) : Option Deferred :=
  g.pend.foldl (fun (m : Option Deferred) x => match m with
    | none => some x
    | some y => if x.cause < y.cause then some x else some y) none

/-- A group that wins a slot takes its pending deferred trap before any instruction. -/
def Dev.takeDeferred (d : Dev) (b n : Nat) : Dev :=
  match d.blocks[b]?, d.group b n with
  | some k, some g =>
    if g.levelH then d
    else match g.nextDeferred with
      | none => d
      | some t =>
        match d.resumePc k g with
        | .error pc => d.putGroup b n (g.release (.cond (.code (k.codeBase g + pc))))
        | .ok pc =>
          takeTrap (d.putGroup b n { g with pend := g.pend.erase t }) b n
            { cause := t.cause, origin := t.origin, deferred := true, pc := pc, lanes := g.live, act := g.live,
              info0 := t.info0, info1 := t.info1, info2 := t.info2 }
  | _, _ => d

/-! ### Arbitration (R90) -/

/-- ISSUE_SLOT_ARBITRATION: the block's collective steps go on, readiness is noted, and a ready group that no other goes
before wins a free slot of its core. -/
def Dev.arbitrate (d : Dev) (core slot b n : Nat) : Dev :=
  let d := d.collSettle b
  let d := d.noteReady (d.groupsOn core)
  let taken := (d.groupsOn core).any (fun x => match d.group x.1 x.2 with
    | some g => decide (g.slot = some slot)
    | none => false)
  if 4 ≤ slot ∨ taken ∨ !((d.groupsOn core).contains (b, n)) then d
  else match d.claim b n with
    | none => d
    | some c =>
      let first := (d.groupsOn core).all (fun x => match d.claim x.1 x.2 with
        | some y => !(slotBefore d.cycle y c)
        | none => true)
      if first then
        (d.modGroup b n (fun g => { g with slot := some slot, why := .ready, sel := false, readyAt := none })).takeDeferred b n
      else d

def execIssueSlotArbitration (core slot blk grp : Nat) (s : State) : Out := event (·.arbitrate core slot blk grp) s

/-! ### Pre-emption (R367) -/

/-- The block may be chosen. -/
def Block.mayPreempt (k : Block) : Bool :=
  k.running && k.slot.isNone && k.frag.isNone && !(k.groups.any (·.levelH)) && !(k.replayable && decide (7 ≤ k.nrepl))

/-- No group holds a slot, and what the block has under way is complete (R270, R367). -/
def Dev.quiet (d : Dev) (b : Nat) (k : Block) : Bool :=
  k.groups.all (·.slot.isNone) && !(k.groups.any (·.levelH)) &&
  !((d.engine k.home).table.any (fun p => decide (p.blk = b))) &&
  !(d.tiles.any (fun t => decide (t.blk = b) && !t.released && !t.order.isEmpty)) &&
  k.chans.all (fun c => c.cmds.isEmpty) &&
  !(d.loads.any (fun x => decide (x.blk = b))) && !(d.stores.any (fun x => decide (x.blk = b))) &&
  !(d.atoms.any (fun x => decide (x.blk = b))) && !(d.cmds.any (fun x => decide (x.blk = b)))

/-- A group as it is saved: an instruction that a unit holds issues again, and its registers stay empty until then (R82); times count
from the moment of saving. -/
def Group.saveAt (g : Group) (cycle : Nat) : Group :=
  let g := match g.cmd with
    | some c => { g with cmd := none, why := .ready, redo := some (c.op, g.head.pc) }
    | none => g
  let age (e : Entry) : Entry := { e with last := cycle - e.last }
  { g with
    frontier := g.frontier.map age, saved := g.saved.map age, sel := false, readyAt := none,
    why := match g.why with
      | .noEntry => .noEntry
      | _ => .ready
    dl := g.dl.map (fun (x : Nat × Nat) => (x.1, x.2 - 1 - cycle + 1)) }

/-- A group as it comes back. -/
def Group.restoreAt (g : Group) (cycle : Nat) : Group :=
  let back (e : Entry) : Entry := { e with last := cycle - e.last }
  { g with
    frontier := g.frontier.map back, saved := g.saved.map back,
    dl := g.dl.map (fun (x : Nat × Nat) => (x.1, x.2 + cycle)) }

/-- The block is saved and gives its cores, its tiles and its reserve back. -/
def Dev.saveBlock (d : Dev) (b : Nat) (k : Block) : Dev :=
  let d := d.dropWork b
  let d := d.modBlock b (fun k' => { k' with
    life := .saved, preempt := false, permit := ⟨k.permit.n, 0, 0, 0⟩,
    groups := k.groups.map (fun (g : Group) => g.saveAt d.cycle) })
  { d with cores := d.cores.map (fun (c : Nat × CoreSt) => (c.1, { c.2 with l1 := c.2.l1.filter (fun x => match x.space with
      | .clu b' _ => decide (b' ≠ b)
      | _ => true) })) }

/-- Each group stops at its next run boundary (R90, R367): a replayable block is then replayed, any other is saved once it is quiet. A group
that traps before its boundary runs its handler to RTH first (R361). -/
def Dev.preempt (d : Dev) (b : Nat) : Dev :=
  match d.blocks[b]? with
  | none => d
  | some k =>
    if !k.mayPreempt then d
    else if k.replayable && k.groups.all (·.slot.isNone) then d.replayBlock b none []
    else if !k.replayable && d.quiet b k then d.saveBlock b k
    else d.modBlock b (fun k => { k with preempt := true })

/-- Blocks of the launch still wait for a core. -/
def Launch.waiting (l : Launch) : Bool :=
  l.started && !l.completed && (!l.ranges.isEmpty || !l.requeued.isEmpty || !l.batches.isEmpty)

/-- A queue with DL = 1 needs a core, and the block is of a lower class (R369); or its pre-emption is under way. -/
def Dev.wanted (d : Dev) (k : Block) : Bool :=
  k.preempt || d.launches.any (fun l => l.lrec.dl && l.waiting && decide (l.part = k.part ∧ d.classOf k < l.lrec.pcls))

/-- PREEMPT. -/
def execPreempt (blk : Nat) (s : State) : Out :=
  event (fun d => match d.blocks[blk]? with
    | some k => if d.wanted k then d.preempt blk else d
    | none => d) s

/-! ### Restoring (R368) -/

/-- A saved tile's contents in a new tile. -/
def Tile.fill (t old : Tile) : Tile :=
  { t with vals := old.vals, pois := old.pois, satc := old.satc, flsc := old.flsc, infc := old.infc, nanc := old.nanc }

/-- New tiles for the names that held one, with the saved contents; the tile numbers old and new. -/
def Dev.restoreTiles (d : Dev) (home b : Nat) : List (Option Nat) → Option (List (Option Nat) × List (Nat × Nat) × Dev)
  | [] => some ([], [], d)
  | none :: ts => (d.restoreTiles home b ts).map (fun x => (none :: x.1, x.2))
  | some t :: ts =>
    match d.tiles[t]? with
    | none => none
    | some old => match d.acquireTile home b old.shape with
      | none => none
      | some (n, d) => ((d.modTile n (fun x => x.fill old)).restoreTiles home b ts).map
          (fun x => (some n :: x.1, (t, n) :: x.2.1, x.2.2))

def renamed (m : List (Nat × Nat)) (t : Nat) : Nat := ((m.find? (fun x => decide (x.1 = t))).map (·.2)).getD t

/-- BLOCK_RESTORE: the block comes back on cores that meet R39, with tiles at its new home; it runs once its reserve is
granted again (R343). -/
def Dev.restore (d : Dev) (b : Nat) (cores : List Nat) : Dev :=
  match d.blocks[b]? with
  | none => d
  | some k =>
    if k.life ≠ .saved ∨ cores.length ≠ k.cores.length ∨ (d.part k.part).coresOk cores.length cores = false ∨
        cores.any (fun c => (d.core c).mark) = true then d
    else match d.fitCores k.part k.lrec cores, d.restoreTiles (clusterOf (cores.headD 0)) b k.tiles with
      | some fits, some (tiles, names, d) =>
        let d := d.modBlock b (fun k => { k with
          life := .running, cores := cores, tiles := tiles, preempt := decide (k.permit.n ≠ 0),
          sign := k.sign.map (fun (r : SignReg) => { r with tileId := renamed names r.tileId }),
          groups := k.groups.map (fun (g : Group) => g.restoreAt d.cycle) })
        -- the new cores hold copies of chip scratchpad from before: the block's accesses are not older than what it has seen (R208)
        let d := cores.foldl (fun (d : Dev) c => d.acquire c .dev) (d.allotUnits b cores fits)
        if k.permit.n = 0 then d
        else d.requestPermits (dieOf (clusterOf (cores.headD 0))) { who := .reserve b none, part := k.part, n := k.permit.n }
      | _, _ => d

def execBlockRestore (blk : Nat) (cores : List Nat) (s : State) : Out := event (·.restore blk cores) s

end Sys2Proof.Machine
end

