-- ==== Sys2Proof/Machine/Xlate.lean ====
section
/-! DEFINITION. The steps of translation and of the memory side that stand by themselves: walks (R373, R376), parked
requests (R377), code fetches (R374), fills and accesses of slices (R381, R383), CXL.mem requests and snoops (R386,
R397), link-down and completion timeouts (R387), and peer links (R386, R387, R398). -/

namespace Sys2Proof.Machine

open Sys2Proof

/-! ### The mailbox (R399) -/

/-- A command is done. -/
def State.answered (s : State) : State := s.withPlat { s.plat with mailbox := .done }

/-- A mailbox command of a code: one written while another is in progress is refused as busy, and outside the phase that accepts it, it
is refused; otherwise it is carried out, its status word is written, and none is in progress any more. -/
def mailboxIn (accepted : Phase) (code : Nat) (f : State → Option State) (s : State) : Out :=
  if s.plat.command.any (fun c => decide (c ≠ code)) then .next (s.withPlat { s.plat with mailbox := .busy })
  else
    let s := s.withPlat { s.plat with command := none }
    let no := s.withPlat { s.plat with mailbox := .refused }
    .next (if s.plat.phase = accepted then (f s).getD no else no)

/-- All commands but LOAD_IMAGE are accepted in the running device (Table 21-6). -/
def mailbox (code : Nat) (f : State → Option State) (s : State) : Out := mailboxIn .running code f s

/-- The host writes a byte of the 4 KiB mailbox's argument area. -/
def State.mailboxArg (s : State) (off : Nat) (b : Byte) : State :=
  if off < 4096 then s.withPlat { s.plat with args := Memory.write s.plat.args off b } else s

/-- The host writes the command word: the command is in progress, unless another one is. -/
def State.mailboxCommand (s : State) (code : Nat) : State :=
  s.withPlat (match s.plat.command with
    | some _ => { s.plat with mailbox := .busy }
    | none => { s.plat with command := some code })

/-! ### Walks -/

/-- A TLB miss of a cluster for a page takes a free walker of its die: 128 of them (R376). -/
def Dev.walkStart (d : Dev) (part clu va : Nat) : Dev :=
  let die := dieOf clu
  if (d.tlbHit part clu va).isSome then d
  else if d.walks.any (fun w => decide (w.part = part ∧ dieOf w.clu = die ∧ w.va / 65536 = va / 65536)) then d
  else if d.walkerFree die = false then d
  else if (d.part part).active = false then d
  else
    let (i, d) := d.newId
    { d with walks := d.walks ++ [⟨i, part, clu, va, [], false⟩] }

/-- A walker is free again: the miss of its die that has waited longest takes it (R376). -/
def Dev.nextWalk (d : Dev) (die : Nat) : Dev :=
  match d.walks.find? (fun w => decide (dieOf w.clu = die) && w.waits) with
  | some w => if d.walking die < 128 then
      { d with walks := d.walks.map (fun (x : Walk) => if x.id = w.id then { x with waits := false } else x) } else d
  | none => d

/-- The misses of a walk that found a translation: it enters the TLB of each that may use it, and the rest fail (R373, R375). -/
def Dev.giveLeaf (d : Dev) (w : Walk) (l : Leaf) : Dev :=
  let d := (w.asks.filter (fun a => l.allows a.acc)).foldl (fun (d : Dev) a =>
    if (d.tlbHit w.part a.req.clu w.va).isSome then d else d.tlbAdd w.part a.req.clu l) d
  d.giveOutcome w.part w.clu w.va ((w.asks.filter (fun a => !l.allows a.acc)).map (·.req.who)) none

/-- A walk ends (R373, R375, R376). Every miss that joined it takes its outcome: a translation, a failure, or a page fault, which parks
them as one. A walk of no request of the model is a read: its translation enters its cluster's TLB. -/
def Dev.walkComplete (d : Dev) (i : Nat) : Dev :=
  match d.walks.find? (fun w => decide (w.id = i) && !w.waits) with
  | none => d
  | some w =>
    let who := w.asks.map (·.req.who)
    let answer := d.walk w.part w.va
    let d := ({ d with walks := d.walks.filter (fun w => decide (w.id ≠ i)) } : Dev).nextWalk (dieOf w.clu)
    let d := d.walkTouch w.part w.va ((w.asks.head?.map (·.req.kind)).getD 0)
    match answer with
    | .leaf l => if w.asks.isEmpty then (if l.r then d.tlbAdd w.part w.clu l else d) else d.giveLeaf w l
    | .perm => d.giveOutcome w.part w.clu w.va who none
    | .poison o => d.giveOutcome w.part w.clu w.va who (some o)
    | .fault level => match w.asks with
      | a :: _ => d.parkAll a.req w.va (decide (a.acc = .write)) level who
      | [] => d

/-- A parked request walks again: parked still where the page is not mapped, otherwise it resumes (R377). -/
def Dev.rewalk (d : Dev) (i : Nat) : Dev :=
  match d.parks.find? (fun p => decide (p.id = i)) with
  | none => d
  | some p =>
    let answer := d.walk p.part p.va
    let d := d.walkTouch p.part p.va p.kind
    match answer with
    | .fault _ => { d with parks := d.parks.map (fun (q : Park) => if q.id = i then { q with walked := d.cycle } else q) }
    | _ => { d with parks := d.parks.filter (fun q => decide (q.id ≠ i)) }

/-- Every parked request of a partition walks again. -/
def Dev.rewalkPart (d : Dev) (part : Nat) : Dev :=
  (d.parks.filter (fun p => decide (p.part = part) && !p.expired)).foldl (fun (d : Dev) p => d.rewalk p.id) d

def execWalkStart (part : BitVec 3) (clu : Nat) (va : BitVec 52) (s : State) : Out :=
  event (·.walkStart part.toNat clu va.toNat) s

def execWalkComplete (walk : Nat) (s : State) : Out := event (·.walkComplete walk) s

/-- Every 1,100,000 cycles a parked request walks again. -/
def execParkedRewalkTimer (park : Nat) (s : State) : Out :=
  event (fun d => match d.parks.find? (fun p => decide (p.id = park)) with
    | some p => if !p.expired ∧ p.walked + 1100000 ≤ d.cycle then d.rewalk park else d
    | none => d) s

/-- After 110,000,000 cycles a parked request completes with poison of origin 3. -/
def execParkedTimeout (park : Nat) (s : State) : Out :=
  event (fun d => { d with parks := d.parks.map (fun (p : Park) =>
    if p.id = park ∧ p.since + 110000000 ≤ d.cycle then { p with expired := true } else p) }) s

/-- RESUME_FAULT: every parked request of a partition walks again. -/
def execResumeFault (part : BitVec 3) (s : State) : Out :=
  mailbox 6 (fun s => some (s.withDev (s.dev.rewalkPart part.toNat)).answered) s

/-- FQRES: any write makes every parked request of the partition walk again (R406). -/
def execFqresWrite (part : BitVec 3) (_v : Word) (s : State) : Out := event (·.rewalkPart part.toNat) s

/-! ### Code, fills and slices -/

def execCodeFetchComplete (blk grp : Nat) (s : State) : Out := event (·.codeFetch blk grp) s

/-- The location an address of the slices names: real HBM, window space, and above them host physical addresses. -/
def physOf (pa : Nat) : Option Phys :=
  if pa < hbmSize then some (.real pa)
  else if windowBase ≤ pa ∧ pa < 2 * windowBase then some (.window pa)
  else if 2 * windowBase ≤ pa then some (.host (pa - 2 * windowBase))
  else none

/-- The partition that holds an HBM address's group (R395). -/
def Dev.ownerOf (d : Dev) (pa : Nat) : Option Nat :=
  (d.parts.find? (fun p => p.2.active && p.2.cfg.groups.any (fun g => decide (g.1 = pa / 2 ^ 25)))).map (·.1)

/-- A window location whose window is valid, or any other one that can be served. -/
def Dev.served (d : Dev) (p : Phys) : Bool :=
  (d.unserved p).isNone &&
  (match p with
   | .window pa => winValid (d.window (windowOf pa).1)
   | _ => true)

/-- DRAM or link data arrive for the sector of an address: it is filled together with those that the predictor names
(R381, R382). -/
def execL2FillComplete (pa : Nat) (kind : BitVec 8) (s : State) : Out :=
  event (fun d => match physOf pa with
    | some p => if d.served p then d.fillFor p (sectorMask pa 1) kind.toNat ((d.ownerOf pa).getD 0) else d
    | none => d) s

/-- An access at its home slice (R383): a read of the word, or a write of a byte. -/
def execL2SliceAccess (pa : Nat) (kind : BitVec 8) (wr : Option Byte) (s : State) : Out :=
  event (fun d => match physOf pa with
    | some p =>
      if d.served p then
        (match wr with
         | none => (d.physRead (match p with
             | .real a => .real (a / 4 * 4)
             | .window a => .window (a / 4 * 4)
             | .host a => .host (a / 4 * 4)
             | .peer l a => .peer l (a / 4 * 4)) kind.toNat ((d.ownerOf pa).getD 0)).2
         | some b => (d.physWrite p [b] kind.toNat ((d.ownerOf pa).getD 0)).2)
      else d
    | none => d) s

/-- The last answer that a port got: 0 for the host's CXL.mem, 1 + link for a peer. -/
def Dev.reply (d : Dev) (port : Nat) (x : Word × Nat) : Dev := { d with replies := FMap.set (0, 0) d.replies port x }

/-- An outside agent's read of a word or write of a byte of real HBM, at its home slice after the back-invalidation of a host-cached
copy (R383), and its answer. -/
def Dev.outside (d : Dev) (port pa : Nat) (wr : Option Byte) (part : Nat) : Dev :=
  match wr with
  | none => let (x, d) := d.physRead (.real (pa / 4 * 4)) 0 part; d.reply port x
  | some b => (d.physWrite (.real pa) [b] 0 part).2.reply port (0, 0)

/-- A request that is refused completes with a poisoned response (R386, R397). -/
def Dev.refuse (d : Dev) (port pa : Nat) : Dev := d.reply port (poisoned d pa 0)

/-- A CXL.mem request that the host port brings: only the HBM of partitions that are host-visible is exported (R397). -/
def Dev.cxlMem (d : Dev) (pa : Nat) (wr : Option Byte) : Dev :=
  match d.ownerOf pa with
  | some p => if (d.part p).cfg.hostVisible ∧ pa < hbmSize then d.outside 0 pa wr p else d.refuse 0 pa
  | none => d.refuse 0 pa

/-- CXL_MEM_REQUEST: none arrives while the link is down; during clearing it is held (R403). -/
def execCxlMemRequest (pa : Nat) (wr : Option Byte) (s : State) : Out :=
  match s.plat.phase with
  | .running => .next (if s.dev.hostTrained then s.withDev (s.dev.cxlMem pa wr) else s)
  | .clearing => .next (s.withDev { s.dev with heldMem := s.dev.heldMem ++ [(pa, wr)] })
  | .recovery => .next s

/-- A snoop: the slice writes its dirty sectors back and gives the line up (R386). -/
def Dev.snoop (d : Dev) (hpa : Nat) : Dev :=
  match d.homeOf (.host hpa) with
  | some (slice, _, tag, _) => (match d.line slice tag with
    | some l => d.evict l
    | none => d)
  | none => d

def execHostSnoop (hpa : Nat) (s : State) : Out := event (·.snoop hpa) s

/-- The host stores to its own memory: it snoops the line first, which the slice gives up (R386). -/
def Dev.hostStore (d : Dev) (a : Nat) (x : Byte) : Dev :=
  let d := d.snoop a
  { d with hostMem := Memory.write d.hostMem a x }

/-- Firmware's write of real HBM, at its home slice (R18, R354). -/
def Dev.fwStore (d : Dev) (a : Nat) (x : Byte) : Dev :=
  if a < hbmSize then (d.touch a 1 0 ((d.ownerOf a).getD 0) true).hbmWrite a [x] else d

/-- Firmware sets the completion timeout, 1 to 50 ms of 1,100,000 cycles (R387). -/
def Dev.fwTimeout (d : Dev) (ms : Nat) : Dev := if 1 ≤ ms ∧ ms ≤ 50 then { d with hostLimit := 1100000 * ms } else d

/-- An uncorrectable ECC error in a DRAM read, or in a line: the sector's words are poisoned with origin 0 (R381). -/
def Dev.eccSector (d : Dev) (pa : Nat) : Dev :=
  match physOf pa with
  | some (.real a) => { d with hbmP := (List.range 16).foldl (fun m i => FMap.set 0 m (a / 64 * 16 + i) 1) d.hbmP }
  | some p => if d.hasSector p then (List.range 16).foldl (fun (d : Dev) i => d.poisonWord (match p with
      | .window a => .window (a / 64 * 64 + 4 * i)
      | .host a => .host (a / 64 * 64 + 4 * i)
      | q => q) 1) d else d
  | none => d

/-! ### Links -/

/-- A line of the host tier. -/
def L2Line.isHost (l : L2Line) : Bool := match l.tag with
  | .host _ => true
  | .tier0 _ => false

/-- Requests that engines have made and that no answer has come for: far atomics, reads in flight, started copies, spill writes, tile
fetches and folds, as they number themselves. -/
def Dev.outstanding (d : Dev) : List Nat :=
  d.cmds.flatMap (fun c => match c.kind with
    | .fatom _ lanes _ => lanes.map (fun x => 16 * (64 * c.op + x.1) + 4)
    | .tex _ => [16 * c.op + 3]
    | .mpath _ _ _ _ => [16 * c.op + 8]
    | _ => []) ++
  d.blocks.flatMap (fun k => k.chans.flatMap (fun ch => (ch.cmds.filter (·.started)).map (fun c => 16 * c.id))) ++
  d.engines.flatMap (fun e => (e.2.table.filter (fun p => p.started.isSome)).map (fun p => 16 * p.id + 2)) ++
  d.parts.flatMap (fun p => p.2.trays.flatMap (fun t => t.writes.map (fun w => 16 * w.no + 5)))

/-- The requests outstanding on a link that goes down complete with poison (R387). -/
def Dev.loseLink (d : Dev) (poison : Nat) : Dev := { d with lost := d.lost ++ d.outstanding.map (fun w => (w, poison)) }

/-- The CXL link goes down: outstanding host-tier requests fail, and dirty host lines are lost, each counted in its partition's link-loss
counter (R387). -/
def execCxlLinkDown (s : State) : Out :=
  event (fun d =>
    let lost := d.l2.filter (fun l => l.isHost && decide (l.dirty ≠ 0#32))
    let d := (lost.foldl (fun (d : Dev) l => d.modPart l.part (fun p => { p with linkLoss := p.linkLoss + 1 })) d).loseLink 1
    { d with hostTrained := false, hostUp := false, timeouts := 0, l2 := d.l2.filter (fun l => !l.isHost) }) s

/-- The CXL port has trained again; host-tier requests are served once firmware reports it (R387). -/
def execCxlLinkUp (s : State) : Out := event (fun d => { d with hostTrained := true }) s

/-- A completion timeout: the next host-tier request completes with poison of origin 1 (R387). -/
def execCxlCompletionTimeout (s : State) : Out :=
  event (fun d => if d.hostUp then { d with timeouts := d.timeouts + 1 } else d) s

/-- The device has twelve peer links (R398). The requests on a link that goes down fail (R387). -/
def execPeerLinkDown (link : BitVec 4) (s : State) : Out :=
  event (fun d => if link.toNat < 12 then
      ({ d with peerUp := FMap.set false d.peerUp link.toNat false } : Dev).loseLink (peerPoison link.toNat)
    else d) s

/-- A link is up after training and an exchange of device identity quotes (R398): the event stands for both. -/
def execPeerLinkUp (link : BitVec 4) (s : State) : Out :=
  event (fun d => if link.toNat < 12 then { d with peerUp := FMap.set false d.peerUp link.toNat true } else d) s

/-- A peer's request to this device's real HBM is performed at its home slice; an address that firmware does not export to its link is
refused (R386, R398). -/
def execPeerRequest (link : BitVec 4) (pa : Nat) (wr : Option Byte) (s : State) : Out :=
  event (fun d =>
    if FMap.get false d.peerUp link.toNat = false then d
    else if inRanges d.exports link.toNat pa ∧ pa < hbmSize then d.outside (1 + link.toNat) pa wr ((d.ownerOf pa).getD 0)
    else d.refuse (1 + link.toNat) pa) s

/-- Replays held for a link go back to their queues (R357). -/
def Dev.releaseHeld (d : Dev) (poison : Nat) : Dev :=
  { d with launches := d.launches.map (fun (l : Launch) => { l with
      requeued := l.requeued.map (fun (r : Requeue) => if r.hold = some poison then { r with hold := none } else r) }) }

/-- LINK_STATE: firmware reports a link up (R357, R387, R398). -/
def execLinkState (r : LinkReport) (s : State) : Out :=
  mailbox 7 (fun s =>
    let d := s.dev
    let d := match r with
      | .hostUp => if d.hostTrained then ({ d with hostUp := true } : Dev).releaseHeld 1 else d
      | .peerUp link => if FMap.get false d.peerUp link.toNat then d.releaseHeld (peerPoison link.toNat) else d
    some (s.withDev d).answered) s

end Sys2Proof.Machine
end

