-- ==== Sys2Proof/Machine/Sys.lean ====
section
/-! DEFINITION. SYS (R362-R366): the record and partition selectors, RTH, TLBINV, SCRUB, and the context area. -/

namespace Sys2Proof.Machine

open Sys2Proof

/-! ### SYSRD, SYSWR, RTH (R362, R363) -/

/-- The queue of a block's launch. -/
def View.queue (v : View) : Nat := match v.d.launches[v.k.launch]? with
  | some l => l.queue
  | none => 0

/-- Table 19-3. -/
def sysValue (v : View) (sel : Nat) : Word :=
  let t := v.g.trap
  match sel with
  | 0x00 => t.cause
  | 0x01 => t.pc
  | 0x02 => t.lanes
  | 0x03 => t.act
  | 0x04 => t.info0
  | 0x05 => t.info1
  | 0x06 => t.info2
  | 0x07 => t.word
  | 0x08 => v.g.tcnt
  | 0x10 => BitVec.ofNat 32 v.k.part
  | 0x11 => BitVec.ofNat 32 v.queue
  | 0x12 => BitVec.ofNat 32 v.k.nrepl
  | 0x13 => v.part.replc
  | 0x14 => v.part.eccc
  | _ => v.g.kinfo

def execSysrd (d : BitVec 4) (sel : BitVec 8) (s : State) : Out :=
  issue (.sysrd d sel) { fixed := [.h d.toNat] }
    (fun v => .done v.d (v.g.setWords (.h d.toNat) v.act (fun _ => sysValue v sel.toNat))) s

/-- The value SYSWR writes: of the lowest active lane, or of a uniform. -/
def Group.sysSrc (g : Group) (a : SysSrc) : Word :=
  match a with
  | .h n => g.word (.h n.toNat) (Mask.lowest g.active)
  | .s n => g.uni n.toNat

def execSyswr (a : SysSrc) (sel : BitVec 8) (s : State) : Out :=
  issueG (.syswr a sel) { reads := [sysOp a], which := .lowest }
    (fun g => .ok (if sel.toNat = 0x20 then { g with kinfo := g.sysSrc a } else g)) s

/-- RTH must end its clause and be converged; otherwise it is a nested fault (R361, R362). -/
def rthAccess : Access := { uni := true, last := true }

def execRthFix (s : State) : Out := issue .rthFix rthAccess (fun v => .stay v.d v.g.rthFix true) s
def execRthSkip (s : State) : Out := issue .rthSkip rthAccess (fun v => .stay v.d v.g.rthSkip true) s

/-- The block ends KILLED with the served cause and KINFO. -/
def View.kill (v : View) : Dev := v.d.endBlock v.b (killed v.g.servedCause v.g.kinfo)

def execRthRetry (s : State) : Out :=
  issue .rthRetry rthAccess (fun v => .stay (if v.k.replayable then v.d.replayBlock v.b none [] else v.kill) v.g true) s

/-- RTH.kill: the block ends KILLED, a replayable one too (R46, R362; log 90). -/
def execRthKill (s : State) : Out := issue .rthKill rthAccess (fun v => .stay v.kill v.g true) s

/-! ### Words that no row of the map lists (R99) -/

/-- UNASSIGNED_OP: ILLEGAL_INSTR, or PRIV for a SYS word at level U. -/
def execUnassignedOp (c : Cls) (w : Word) (s : State) : Out :=
  issue (.unassignedOp c w) {} (fun v => .trap (illegal w v.act 0)) s

/-! ### TLBINV (R364, R376) -/

/-- Words of the descriptor that meet R364. -/
def tlbOk (l : List Word) : List Bool :=
  let all := (nth l 1 0).getLsbD 31
  [if all then decide (uword l 0 = 0) else decide (uword l 0 % 65536 = 0),
   decide (uword l 1 / 2 ^ 22 % 512 = 0) && (if all then decide (uword l 1 % 2 ^ 22 = 0) else decide (uword l 1 / 2 ^ 20 % 4 < 3)),
   if all then decide (uword l 2 = 0) else decide (1 ≤ uword l 2 ∧ uword l 2 ≤ 65536), decide (uword l 3 = 0)]

/-- First byte and length of the pages named. -/
def tlbRange (l : List Word) : Nat × Nat :=
  let va := uword l 0 + 2 ^ 32 * (uword l 1 % 2 ^ 20)
  let size := 2 ^ (16 + 9 * (uword l 1 / 2 ^ 20 % 4))
  (va / size * size, uword l 2 * size)

/-- The partition's entries for the pages leave every TLB, walks for them are dropped, and its parked requests walk again
(R377). -/
def Dev.tlbInv (d : Dev) (part : Nat) (l : List Word) : Dev :=
  let all := (nth l 1 0).getLsbD 31
  let (va, n) := tlbRange l
  ({ d with
    tlb := d.tlb.filter (fun t => !(decide (t.part = part) && (all || decide (t.leaf.base < va + n ∧ va < t.leaf.base + 2 ^ t.leaf.bits)))),
    walks := d.walks.filter (fun w => !(decide (w.part = part) && (all || decide (va ≤ w.va ∧ w.va < va + n)))) } : Dev).rewalkPart part

def execTlbinv (a : BitVec 7) (s : State) : Out :=
  issue (.tlbinv a) { reads := us a.toNat 4 } (fun v =>
    let l := uniList v.g a 4
    match firstBad (tlbOk l) with
    | some n => .trap (illegal (opWord (.tlbinv a)) v.act n)
    | none => .done (v.d.tlbInv v.k.part l) v.g) s

/-! ### SCRUB (R365) -/

/-- A run of engine accesses by the group itself (log 26). -/
def View.req (v : View) : Req := v.k.req (clusterOf v.core) 1 (4096 * v.b + v.n) v.d

/-- What a SYS instruction's run of accesses comes to: it goes on, waits for a translation, or is a nested fault. -/
def afterRun {α : Type} (v : View) (x : Except Stop α × Dev) (f : Dev → α → Res) : Res :=
  match x with
  | (.ok a, d) => f d a
  | (.error .later, d) => .retry d (.regs [])
  | (.error (.poisonWrite o va), _) =>
    .trap { cause := cPOISON, origin := o, lanes := v.act, info0 := BitVec.ofNat 32 va, info1 := BitVec.ofNat 32 (va / 2 ^ 32) }
  | (.error (.perm va), _) =>
    .trap { cause := cENGINE_XLATE, lanes := v.act, info0 := BitVec.ofNat 32 va, info1 := BitVec.ofNat 32 (va / 2 ^ 32) }
  | (.error .dead, _) => .trap { cause := cENGINE_XLATE, lanes := v.act }

def scrubOk (k : Block) (b n : Nat) (l : List Word) : List Bool :=
  let bad : Bool := (destOf k b n (nth l 0 0) (nth l 1 0)).isNone
  [true, !bad, decide (uword l 2 ≠ 0 ∧ uword l 2 % 4 = 0 ∧ uword l 2 < 2 ^ 31), decide (uword l 3 = 0)]

/-- Zeros over a scratch range, in the core's cache too. -/
def Dev.scrubScratch (d : Dev) (core : Nat) (sp : Space) (a n : Nat) : Dev :=
  (List.range (n / 4)).foldl (fun (d : Dev) j =>
    let d := if sp.cached then d.l1Store core sp (wordBytes (a + 4 * j) 0) else d
    d.homePut sp (a + 4 * j) 0 0) d

/-- Zeros over a range in memory: nothing is written while some page must wait. -/
def scrubMem (v : View) (a n : Nat) : Res :=
  let addrs := (List.range (n / 4)).map (fun j => a + 4 * j)
  match v.d.probe v.req .write addrs with
  | some d => .retry d (.regs [])
  | none => afterRun v ((addrs.forM (fun (x : Nat) => wrWord v.req x (0, 0))).run' v.d) (fun d _ => .done d v.g)

def execScrub (a : BitVec 7) (s : State) : Out :=
  issue (.scrub a) { reads := us a.toNat 4 } (fun v =>
    let l := uniList v.g a 4
    let len := uword l 2
    match firstBad (scrubOk v.k v.b v.n l), destOf v.k v.b v.n (nth l 0 0) (nth l 1 0) with
    | none, some (.scratch sp base) =>
      if base % 4 ≠ 0 then .trap { cause := cMISALIGNED, lanes := v.act, info0 := BitVec.ofNat 32 base }
      else if !(v.d.flatOk sp base len) then .trap { cause := cSCRATCH_BOUNDS, lanes := v.act, info0 := BitVec.ofNat 32 base }
      else if v.d.released v.b v.n true = false then .wait (.release true)
      else .done (v.d.scrubScratch v.core sp base len) v.g
    | none, some (.mem base) =>
      if base % 4 ≠ 0 then .trap { cause := cMISALIGNED, lanes := v.act, info0 := BitVec.ofNat 32 base }
      else if v.d.released v.b v.n true = false then .wait (.release true)
      else scrubMem v base len
    | bad, _ => .trap (illegal (opWord (.scrub a)) v.act (bad.getD 1))) s

/-! ### The context area (R366, Table 19-5) -/

/-- A bit map of `n` words, bit `i` of the whole given by `f`. -/
def bitWords (n : Nat) (f : Nat → Bool) : List Word :=
  (List.range n).map (fun w => Mask.ofFn (fun i => f (32 * w + i)))

def zeros (n : Nat) : List Word := List.replicate n 0

/-- Exactly `n` words of a list. -/
def padTo (n : Nat) (l : List Word) : List Word := (l ++ zeros (n - l.length)).take n

/-- One frontier entry and its priority. -/
def ctxEntry (cycle : Nat) (x : Entry × Nat) : List Word :=
  [BitVec.ofNat 32 x.1.pc, x.1.mask,
   BitVec.ofNat 32 (x.2 % 32 + (if x.1.runnable then 0 else 256) + 65536 * (x.1.run % 32)), BitVec.ofNat 32 (cycle - x.1.last)]

/-- A lane's timer; the cycles left of a deadline beyond the field's 24 bits are free (log 27). -/
def ctxTimer (g : Group) (cycle fresh l : Nat) : Word :=
  match FMap.get 0 g.dl l with
  | 0 => 0
  | t + 1 =>
    let left := t - cycle
    let low := if left < 2 ^ 24 then BitVec.ofNat 32 left else Config.freeWord (fresh + l) &&& 0xFFFFFF#32
    0x80000000#32 ||| (BitVec.ofNat 32 (FMap.get 0 g.mark l) <<< 24) ||| low

/-- The registers of a file as the area lays them out. -/
def ctxRegs (g : Group) (r : Nat → RegRef) (n : Nat) : List Word :=
  (List.range n).flatMap (fun i => (List.range 32).map (fun l => g.word (r i) l))

/-- The group's state as the program sees it outside the handler, with its entries' priorities: the words of the area. -/
def ctxWords (g : Group) (prios : List Nat) (cycle fresh : Nat) : List Word :=
  let pendBit (c : Nat) : Nat := if g.pend.any (fun t => decide (t.cause = c)) then 2 ^ (c - 0x0C) else 0
  let head := [1, BitVec.ofNat 32 (g.budget + 256 * g.role + 65536 * g.idx), g.live, BitVec.ofNat 32 g.saved.length, g.gcr, g.gfl,
    BitVec.ofNat 32 (pendBit 0x0C + pendBit 0x0D + pendBit 0x0E)]
  padTo 16 head ++
  padTo 128 ((g.saved.zip prios).flatMap (ctxEntry cycle)) ++
  (List.range 12).flatMap (fun j => [FMap.get 0#32 g.jE j, FMap.get 0#32 g.jA j]) ++
  (List.range 32).map (ctxTimer g cycle fresh) ++
  padTo 8 ((List.range 7).map (fun p => FMap.get 0#32 g.p p)) ++
  padTo 16 (bitWords 4 (fun n => if n < 8 * g.budget then !g.empty (.v n) else (Config.freeWord (fresh + 32 + n)).getLsbD 0) ++
    bitWords 5 (fun n => !g.empty (.u n)) ++ bitWords 5 (fun n => decide (g.poison (.u n) 0 ≠ 0))) ++
  zeros 32 ++ (List.range 160).map (fun n => g.uni n) ++ zeros 32 ++ ctxRegs g .h 16 ++
  bitWords 128 (fun i => decide (g.poison (.v (i / 32)) (i % 32) ≠ 0)) ++ bitWords 16 (fun i => decide (g.poison (.h (i / 32)) (i % 32) ≠ 0)) ++
  zeros 48 ++ ctxRegs g .v (8 * g.budget)

/-- The words of the group's own segment, one after another past pads: the P of the header there (R178). -/
def ctxHeader (r : Req) (base len : Nat) : Nat → Nat → Rd Nat
  | 0, _ => pure 0
  | fuel + 1, pc =>
    if len ≤ pc then pure 0
    else do
      let (w, p) ← rdOf (fun d => d.vaRead r .fetch (base + pc))
      if p ≠ 0 then throw (.poisonWrite (p - 1) (base + pc))
      else match decodeHeader w with
        | .pad => ctxHeader r base len fuel (pc + 4)
        | .header h => pure h.p
        | .illegal => pure (w.extractLsb' 0 5).toNat

/-- The priority of each entry set aside. -/
def ctxPrios (r : Req) (k : Block) (g : Group) : Rd (List Nat) :=
  g.saved.mapM (fun e => match e.clause with
    | some c => pure c.h.p
    | none => ctxHeader { r with kind := 7 } k.lrec.code k.lrec.codelen (padFuel k.lrec.codelen) e.pc)

/-- The area's address: an aligned one. -/
def ctxAddr (v : View) (a : BitVec 7) : Except Trap Nat :=
  let va := (v.g.uniPair a.toNat).toNat
  if va % 256 = 0 then .ok va else .error { cause := cMISALIGNED, lanes := v.act, info0 := v.g.uni a.toNat, info1 := v.g.uni (a.toNat + 1) }

def execCtxsv (a : BitVec 7) (s : State) : Out :=
  issue (.ctxsv a) { reads := us a.toNat 2 } (fun v =>
    if !v.g.flights.isEmpty then .wait .allFull
    else match ctxAddr v a with
      | .error t => .trap t
      | .ok va =>
        afterRun v ((ctxPrios v.req v.k v.g).run' v.d) (fun d prios =>
          let ws := (ctxWords v.g prios v.d.cycle v.d.fresh).zipIdx.map (fun (x : Word × Nat) => (va + 4 * x.2, x.1))
          match d.probe v.req .write (ws.map (·.1)) with
          | some d => .retry d (.regs [])
          | none => afterRun v ((ws.forM (fun (x : Nat × Word) => wrWord v.req x.1 (x.2, 0))).run' { d with fresh := d.fresh + 160 })
              (fun d _ => .done d v.g))) s

/-- The clause that holds a PC, found from the start of the segment; none at a header position, or where the words before
it are no clauses (log 28). -/
def clauseAt (look : Nat → Option Word) (len pc : Nat) : Nat → Nat → Option Clause
  | 0, _ => none
  | fuel + 1, p =>
    if pc ≤ p then none
    else match headerAt look len p with
      | .pad => clauseAt look len pc fuel (p + 4)
      | .clause h => if pc ≤ p + 4 * h.n then some ⟨p, h⟩ else clauseAt look len pc fuel (p + 4 * h.n + 4)
      | _ => none

/-- What a suspended entry waits for: the instruction at its PC says (log 28). -/
def suspOf (g : Group) (w : Word) : Susp :=
  match decodeInstr .ctl w with
  | .wait j => .wait j.toNat
  | .waitT j _ _ => .wait j.toNat
  | .bar r i => .coll (.bar r i.toNat) none
  | .barArr r i => .coll (.arr r i.toNat) none
  | .barWait r i => .coll (.bwait r i.toNat) none
  | .adv a b => .coll .adv (some ⟨(g.uniPair a.toNat).toNat, g.uni b.toNat, g.uni (b.toNat + 1)⟩)
  | _ => .run

def ctxWord (l : List Word) (o : Nat) : Word := nth l (o / 4) 0
def ctxBit (l : List Word) (o i : Nat) : Bool := (ctxWord l (o + i / 32 * 4)).getLsbD (i % 32)

/-- A restored frontier entry. -/
def ctxReadEntry (g : Group) (look : Nat → Option Word) (len cycle : Nat) (l : List Word) (i : Nat) : Entry :=
  let o := 0x40 + 16 * i
  let pc := (ctxWord l o).toNat
  let bits := ctxWord l (o + 8)
  { pc := pc, mask := ctxWord l (o + 4),
    susp := if bits.getLsbD 8 then suspOf g ((look pc).getD 0) else .run, run := (bits.extractLsb' 16 5).toNat,
    last := cycle - (ctxWord l (o + 12)).toNat, clause := clauseAt look len pc (padFuel len) 0 }

/-- Poison of a restored word: its origin is not in the area and is free (log 27). -/
def freeOrigin (fresh i : Nat) : Nat :=
  let w := (Config.freeWord (fresh + i)).toNat
  if w % 4 = 2 then peerPoison (w / 4 % 12) + 1 else w % 4 + 1

/-- A register file of the area: words and poison. -/
def ctxFile (l : List Word) (o po n fresh : Nat) : FMap Word × FMap Nat :=
  let keys := List.range (32 * n)
  (keys.foldl (fun m i => FMap.set 0 m i (ctxWord l (o + 4 * i))) [],
   keys.foldl (fun m i => FMap.set 0 m i (if ctxBit l po i then freeOrigin fresh i else 0)) [])

/-- A pending deferred trap that the area names: what this group holds of it, else free info words (log 27). -/
def ctxPending (g : Group) (fresh c : Nat) : Deferred :=
  (g.pend.find? (fun t => decide (t.cause = c))).getD
    { cause := c, origin := (Config.freeWord (fresh + 5000 + c)).toNat % 4, info0 := Config.freeWord (fresh + 5100 + c),
      info1 := Config.freeWord (fresh + 5200 + c), info2 := Config.freeWord (fresh + 5300 + c) }

/-- Registers that the area marks empty. No operation brings them a value. -/
def ctxEmpty (l : List Word) (budget op : Nat) : List Flight :=
  ((List.range (8 * budget)).filter (fun n => !(ctxBit l 0x340 n))).map (fun n => ⟨.v n, op⟩) ++
  ((List.range 160).filter (fun n => !(ctxBit l 0x350 n))).map (fun n => ⟨.u n, op⟩)

/-- The group with the area's state in place of its own, but for the h registers. The handler goes on in the restored live
lanes. -/
def ctxRestore (g : Group) (look : Nat → Option Word) (len cycle fresh op : Nat) (l : List Word) : Group :=
  let live := ctxWord l 8
  let others : Mask := g.frontier.tail.foldl (fun m e => m ||| e.mask) 0#32
  let (v, vp) := ctxFile l 0x1200 0xF00 (8 * g.budget) fresh
  let lanes32 := List.range 32
  let g := { g with
    live := live, gcr := gcrWrite (ctxWord l 0x10), gfl := ctxWord l 0x14 &&& 0x1F#32,
    pend := ([0x0C, 0x0D, 0x0E].filter (fun c => (ctxWord l 0x18).getLsbD (c - 0x0C))).map (ctxPending g fresh),
    jE := (List.range 12).foldl (fun m j => FMap.set 0#32 m j (ctxWord l (0x240 + 8 * j))) [],
    jA := (List.range 12).foldl (fun m j => FMap.set 0#32 m j (ctxWord l (0x244 + 8 * j))) [],
    dl := lanes32.foldl (fun m i => FMap.set 0 m i (let w := ctxWord l (0x2A0 + 4 * i)
      if w.getLsbD 31 then cycle + (w.extractLsb' 0 24).toNat + 1 else 0)) [],
    mark := lanes32.foldl (fun m i => FMap.set 0 m i (let w := ctxWord l (0x2A0 + 4 * i)
      if w.getLsbD 31 then (w.extractLsb' 24 3).toNat else 0)) [],
    p := (List.range 7).foldl (fun m i => FMap.set 0#32 m i (ctxWord l (0x320 + 4 * i))) [], plink := [],
    s := (List.range 160).foldl (fun m i => FMap.set 0 m i (ctxWord l (0x400 + 4 * i))) [],
    sp := (List.range 160).foldl (fun m i => FMap.set 0 m i (if ctxBit l 0x364 i then freeOrigin fresh (4096 + i) else 0)) [],
    v := v, vp := vp,
    flights := g.flights.filter (fun (f : Flight) => match f.reg with
      | .h _ => true
      | _ => false) ++ ctxEmpty l g.budget op }
  let e := g.head
  let rest : List Entry := g.frontier.tail.filterMap (fun (e : Entry) =>
    if e.mask &&& live = 0#32 then none else some { e with mask := e.mask &&& live })
  { g with
    faultMask := 0, saved := (List.range (min 32 (ctxWord l 0xC).toNat)).map (ctxReadEntry g look len cycle l),
    frontier := { e with mask := (e.mask &&& live) ||| (live &&& ~~~(e.mask ||| others)) } :: rest }

/-- The words of an area; a poisoned one is a failure. -/
def ctxRead (r : Req) (va n : Nat) : Rd (List Word) :=
  (List.range n).mapM (fun i => do
    let (w, p) ← rdWord r (va + 4 * i)
    if p = 0 then pure w else throw (.poisonWrite (p - 1) (va + 4 * i)))

/-- The group's own segment up to a PC, as it stands in memory. -/
def ctxCode (r : Req) (base pc : Nat) : Rd (List Word) :=
  (List.range (pc / 4 + 1)).mapM (fun i => do
    let (w, _) ← rdOf (fun d => d.vaRead r .fetch (base + 4 * i))
    pure w)

def execCtxrs (a : BitVec 7) (s : State) : Out :=
  issue (.ctxrs a) { reads := us a.toNat 2 } (fun v =>
    match ctxAddr v a with
    | .error t => .trap t
    | .ok va =>
      let run : Rd (List Word × List Word) := do
        let l ← ctxRead v.req va (0x480 + 256 * v.g.budget)
        let far := ((List.range (min 32 (ctxWord l 0xC).toNat)).map (fun i => (ctxWord l (0x40 + 16 * i)).toNat)).foldl max 0
        let c ← ctxCode { v.req with kind := 7 } v.k.lrec.code (min far (v.k.lrec.codelen - 1))
        pure (l, c)
      afterRun v (run.run' v.d) (fun d x =>
        if ctxWord x.1 0 ≠ 1#32 ∨ (ctxWord x.1 4).extractLsb' 0 8 ≠ BitVec.ofNat 8 v.g.budget then
          .trap (illegal (opWord (.ctxrs a)) v.act 0)
        else
          let (op, d) := d.newId
          let g := ctxRestore v.g (fun pc => x.2[pc / 4]?) v.k.lrec.codelen d.cycle d.fresh op x.1
          let d := { d with fresh := d.fresh + 6000 }
          if g.exited then
            let d := (d.putGroup v.b v.n g).groupExit v.b v.n
            .stay d ((d.group v.b v.n).getD g) true
          else .done d g)) s

end Sys2Proof.Machine
end

