-- ==== Sys2Proof/Machine/Raster.lean ====
section
/-! DEFINITION. Sample sets (R311-R321), the contact sheet (R322-R324), the primitive stream (R325-R327), coverage (R328,
R329) and fragment groups (R330, R331, R346); and the start of every staged block (R40). -/

namespace Sys2Proof.Machine

open Sys2Proof

/-! ### Handles and descriptors -/

def Part.set (p : Part) (i : Nat) : SetEntry := FMap.get SetEntry.free p.sets i
def Dev.modSet (d : Dev) (part i : Nat) (f : SetEntry → SetEntry) : Dev :=
  d.modPart part (fun p => { p with sets := FMap.set SetEntry.free p.sets i (f (p.set i)) })

def setIdx (h : Word) : Nat := h.toNat % 256

/-- The entry of a live handle (R311). -/
def Part.liveSet (p : Part) (h : Word) : Option SetEntry :=
  let e := p.set (setIdx h)
  if e.alloc ∧ e.gen = h.toNat / 256 then some e else none

def SetEntry.handle (e : SetEntry) (i : Nat) : Word := BitVec.ofNat 32 (i + 256 * e.gen)

/-- Words of a descriptor that meet Tables 13-1 and 13-2. -/
def setOk (l : List Word) : List Bool :=
  let w := uword l 1 % 65536 + 1
  let h := uword l 1 / 65536 + 1
  let ctl := nth l 2 0
  let grid := ctl.getLsbD 13
  let den := ctl.getLsbD 15
  let fmt := uword l 2 / 256 % 4
  let cap := uword l 0
  [decide (1 ≤ cap ∧ cap ≤ 2 ^ 24) && (!grid || decide (cap = w * h)), !grid || decide (w % 8 = 0 ∧ h % 8 = 0),
   decide (uword l 2 / 2 ^ 24 % 128 = 0 ∧ uword l 2 / 2 ^ 16 % 16 = 0 ∧ uword l 2 / 2 ^ 10 % 8 = 0) &&
     (den || (!ctl.getLsbD 23 && decide (uword l 2 / 2 ^ 20 % 8 = 0))) && (!ctl.getLsbD 14 || (grid && decide (fmt = 0))) &&
     (decide (fmt ≠ 3) || den) && (grid || decide (4 ≤ uword l 2 % 256 ∧ uword l 2 % 256 ≤ 64)),
   decide (uword l 3 % 8 = 0) && (!grid || decide (uword l 3 = 0)), hiOk l 4 && (!grid || decide (uword l 4 = 0)),
   decide (uword l 5 % 256 = 0), hiOk l 6, decide (uword l 7 % 256 = 0) && (den || decide (uword l 7 = 0)),
   hiOk l 8 && (den || decide (uword l 8 = 0)), decide (uword l 9 % 256 = 0), hiOk l 10, true, hiOk l 12, true, true, true]

/-- Words of a descriptor with FREE = 1. -/
def freeOk (l : List Word) : List Bool :=
  (List.range 16).map (fun i => if i = 0 then true else if i = 2 then decide (nth l 2 0 = 0x80000000#32) else decide (nth l i 0 = 0))

def descOf (l : List Word) : SetDesc :=
  let ctl := nth l 2 0
  { cap := uword l 0, w := uword l 1 % 65536 + 1, h := uword l 1 / 65536 + 1, dwr := ctl.getLsbD 23, dfn := uword l 2 / 2 ^ 20 % 8,
    den := ctl.getLsbD 15, comp := ctl.getLsbD 14, grid := ctl.getLsbD 13, fmt := uword l 2 / 256 % 4, l := uword l 2 % 256,
    pos := addr52 l 3, res := addr52 l 5, dep := addr52 l 7, ws := addr52 l 9, frag := addr52 l 11, clrc0 := nth l 13 0,
    clrc1 := nth l 14 0, clrd := nth l 15 0 }

/-! ### Faults (R317) -/

def setTrap (v : View) (cause code : Nat) (h : Word) : Trap :=
  { cause := cause, lanes := v.act, info0 := h, info1 := BitVec.ofNat 32 code }

/-- Checks 2 and 3: a replayable block, and the handle. -/
def setCheck (v : View) (h : Word) (barred : Bool) (f : SetEntry → Res) : Res :=
  if barred && v.k.restricted then .trap (setTrap v cREPLAY_VIOLATION 0 h)
  else match v.part.liveSet h with
    | none => .trap (setTrap v cHANDLE_INVALID 0 h)
    | some e => f e

/-! ### Raster work of a set -/

/-- Every group of a block that started has exited. -/
def Block.allExited (k : Block) : Bool :=
  match k.life with
  | .staging => false
  | .running | .advancing | .saved => k.liveGroups.isEmpty
  | _ => true

/-- A triangle's work at a chunk is over: tested, and its fragment groups have exited. -/
def Dev.workOver (d : Dev) (w : Work) : Bool :=
  w.tested && w.groups.isEmpty && w.running.all (fun b => match d.blocks[b]? with
    | some k => k.allExited
    | none => true)

/-- Work that is over is forgotten. -/
def Dev.tidy (d : Dev) (part i : Nat) : Dev :=
  d.modSet part i (fun e => { e with work := e.work.filter (fun w => !(d.workOver w)) })

/-- Pending RCLEARs and RDECOMPs on a bound set: their epochs. -/
def Dev.clears (d : Dev) (part : Nat) (h : Word) : List Nat :=
  d.blocks.flatMap (fun (k : Block) => if k.part ≠ part ∨ !k.running then [] else k.groups.filterMap (fun g =>
    match g.cmd with
    | none => none
    | some c =>
      let mine := decide (nth c.unis 0 0 = h ∧ nth c.unis 2 0 = 1#32)
      match c.instr with
      | .rclear _ => if mine then some (nth c.unis 1 0).toNat else none
      | .rdecomp _ => if mine then some (nth c.unis 1 0).toNat else none
      | _ => none))

/-- Every triangle below an epoch has been distributed and its fragment groups have exited (R327, R338). -/
def Dev.drainedTo (d : Dev) (e : SetEntry) (epoch : Nat) : Bool :=
  e.stream.all (fun t => decide (epoch ≤ t.epoch)) && e.work.all d.workOver

def Dev.drained (d : Dev) (e : SetEntry) : Bool := e.stream.isEmpty && e.work.all d.workOver

/-! ### Set life (R315, R316, R318-R321) -/

def SetEntry.startBuild (e : SetEntry) : SetEntry :=
  { e with state := 1, chunks := [], depth := 0, excl := 0, stream := [], work := [], closed := false, epoch := 0 }

def SetEntry.bind (e : SetEntry) : SetEntry :=
  { e with state := 3, prims := 0, stream := [], work := [], closed := false, epoch := 0 }

/-- A freed entry keeps its generation, and results that are still held. -/
def SetEntry.freed (e : SetEntry) : SetEntry := { SetEntry.free with gen := e.gen, held := e.held }

def Part.boundSets (p : Part) : Nat := (p.sets.filter (fun x => decide (x.2.state = 3))).length

/-- A handle, or 0xFFFF_FFFF, for the uniform an instruction named, now. -/
def giveUni (v : View) (d : Dev) (b : BitVec 7) (x : Word) : Res :=
  let (op, d) := d.newId
  let reg : RegRef := .u b.toNat
  let d := (d.putGroup v.b v.n (v.g.markEmpty reg op)).answer op v.b v.n v.act [reg] [(0, [(x, 0)])]
  .done d ((d.group v.b v.n).getD v.g)

/-- SSET.NEW with FREE (R318). -/
def freeSet (v : View) (a b : BitVec 7) (h : Word) : Res :=
  setCheck v h true (fun e =>
    if e.state = 1 ∨ e.state = 3 then
      hold { v with d := v.d.modSet v.k.part (setIdx h) (fun e => { e with closed := decide (e.state = 3) }) } (.ssetNew a b)
        [.u b.toNat] [] [h, if e.state = 3 then 1 else 0]
    else giveUni v (v.d.modSet v.k.part (setIdx h) SetEntry.freed) b 0xFFFFFFFF#32)

/-- The lowest free entry (R318). -/
def Part.freeEntry (p : Part) : Option Nat := (List.range 256).find? (fun i => !(p.set i).alloc)

/-- A fragment record that meets R323. -/
def fragOk (c : Checked) : Bool := c.status.isNone && decide (c.lrec.kind = 2) && !c.lrec.repl

/-- SSET.NEW with FREE = 0: the fragment record is read once. -/
def allocSet (v : View) (a b : BitVec 7) (l : List Word) : Res :=
  let desc := descOf l
  match (readLaunch (v.k.req (clusterOf v.core) 9 (4096 * v.b + v.n) v.d) v.k.part desc.frag).run' v.d with
  | (.error _, d) => .retry d (.regs [])
  | (.ok c, d) =>
    if !(fragOk c) then .trap (illegal (opWord (.ssetNew a b)) v.act 11)
    else if v.k.restricted then .trap (setTrap v cREPLAY_VIOLATION 0 0)
    else match (d.part v.k.part).freeEntry with
      | none => .trap (setTrap v cSSET_LIMIT 0 0)
      | some i =>
        let gen := (((d.part v.k.part).set i).gen + 1) % 2 ^ 24
        let e : SetEntry := { SetEntry.free with
          alloc := true, gen := gen, desc := desc, frag := c.lrec, fragRegions := c.regions, held := ((d.part v.k.part).set i).held }
        giveUni v (d.modSet v.k.part i (fun _ => e)) b (e.handle i)

def execSsetNew (a b : BitVec 7) (s : State) : Out :=
  issue (.ssetNew a b) { reads := us a.toNat 16, var := [.s b.toNat], uni := true } (fun v =>
    let l := uniList v.g a 16
    let free := (nth l 2 0).getLsbD 31
    match firstBad (if free then freeOk l else setOk l) with
    | some n => .trap (if free then setTrap v cILLEGAL_INSTR n (nth l 0 0) else illegal (opWord (.ssetNew a b)) v.act n)
    | none => if free then freeSet v a b (nth l 0 0) else allocSet v a b l) s

/-- SSET.BUILD (R316, R319): at once, or after the set's stream or its running build. -/
def execSsetBuild (a : BitVec 7) (s : State) : Out :=
  issue (.ssetBuild a) { reads := [.s a.toNat] } (fun v =>
    let h := v.g.uni a.toNat
    setCheck v h true (fun e =>
      if e.state = 1 ∨ e.state = 3 then
        hold { v with d := v.d.modSet v.k.part (setIdx h) (fun e => { e with closed := decide (e.state = 3) }) } (.ssetBuild a) [] []
          [h, if e.state = 3 then 1 else 0]
      else .done (v.d.modSet v.k.part (setIdx h) SetEntry.startBuild) v.g)) s

/-- SSET.BIND (R320). -/
def execSsetBind (a : BitVec 7) (s : State) : Out :=
  issue (.ssetBind a) { reads := [.s a.toNat] } (fun v =>
    let h := v.g.uni a.toNat
    setCheck v h false (fun e =>
      if e.state = 1 then hold v (.ssetBind a) [] [] [h]
      else if e.state = 3 then .done v.d v.g
      else if e.state ≠ 2 then .trap (setTrap v cHANDLE_INVALID 1 h)
      else if 16 ≤ v.part.boundSets then .trap (setTrap v cSSET_LIMIT 1 h)
      else .done (v.d.modSet v.k.part (setIdx h) SetEntry.bind) v.g)) s

/-- Chunks of a set (R322). -/
def SetEntry.chunkCount (e : SetEntry) : Nat := if e.desc.grid then e.desc.w / 8 * (e.desc.h / 8) else e.chunks.length

/-- What SSET.QRY reads (R321). -/
def SetEntry.query (e : SetEntry) (q : SsetQ) : Nat :=
  let known := decide (e.state = 2 ∨ e.state = 3)
  match q with
  | .state => e.state
  | .chunks => if known then e.chunkCount else 0
  | .depth => if known then e.depth else 0
  | .excl => if known then e.excl else 0

/-- SSET.QRY (R321); the value is there from the issuing step on (log 34). -/
def execSsetQry (q : SsetQ) (d a : BitVec 7) (s : State) : Out :=
  issue (.ssetQry q d a) { reads := [.s a.toNat], var := [.v d.toNat] } (fun v =>
    let h := v.g.uni a.toNat
    setCheck v h false (fun e =>
      let (op, dv) := v.d.newId
      let reg := v.g.vreg d.toNat
      let x := BitVec.ofNat 32 (e.query q)
      let dv := (dv.putGroup v.b v.n (v.g.markEmpty reg op)).answer op v.b v.n v.act [reg] ((Mask.lanes v.act).map (fun l => (l, [(x, 0)])))
      .done dv ((dv.group v.b v.n).getD v.g))) s

/-! ### The contact sheet (R322) -/

/-- Interleaved bits, `x` in the even ones. -/
def morton (x y : Nat) : Nat → Nat
  | 0 => 0
  | n + 1 => x % 2 + 2 * (y % 2) + 4 * morton (x / 2) (y / 2) n

/-- A sample that is indexed: base cell, Morton key, index, position. -/
structure Sample where
  cell : Nat
  key : Nat
  idx : Nat
  x : Nat
  y : Nat
deriving DecidableEq, Repr

/-- An excluded position (R313). -/
def SetDesc.excludes (s : SetDesc) (x y : Nat) : Bool := decide (256 * s.w ≤ x ∨ 256 * s.h ≤ y)

def SetDesc.sample (s : SetDesc) (i x y : Nat) : Sample :=
  { cell := y / 8192 * ((s.w + 31) / 32) + x / 8192, key := morton (x % 8192) (y % 8192) 13, idx := i, x := x, y := y }

def Sample.before (a b : Sample) : Bool :=
  decide (a.cell < b.cell ∨ (a.cell = b.cell ∧ (a.key < b.key ∨ (a.key = b.key ∧ a.idx ≤ b.idx))))

/-- Consecutive parts of `n` samples. -/
def cut (n : Nat) : Nat → List (Nat × Nat × Nat) → List (List (Nat × Nat × Nat))
  | 0, _ => []
  | fuel + 1, l => if l.isEmpty then [] else l.take n :: cut n fuel (l.drop n)

/-- The chunks of a cell in sorted order, and the depth of its deepest leaf. -/
def leaves (cap : Nat) (depth x0 y0 size : Nat) (l : List Sample) : Nat → List Chunk × Nat
  | 0 => ((cut cap l.length (l.map (fun s => (s.idx, s.x, s.y)))).map (fun c => ⟨x0, y0, size, c⟩), depth)
  | fuel + 1 =>
    if l.length ≤ cap then ((if l.isEmpty then [] else [⟨x0, y0, size, l.map (fun s => (s.idx, s.x, s.y))⟩]), depth)
    else
      let half := size / 2
      let part (right low : Bool) : List Chunk × Nat :=
        leaves cap (depth + 1) (if right then x0 + half else x0) (if low then y0 + half else y0) half
          (l.filter (fun s => decide (x0 + half ≤ s.x) == right && decide (y0 + half ≤ s.y) == low)) fuel
      let a := part false false
      let b := part true false
      let c := part false true
      let d := part true true
      (a.1 ++ b.1 ++ c.1 ++ d.1, max (max a.2 b.2) (max c.2 d.2))

/-- The base cells, in order. -/
def baseCells (l : List Sample) : List Nat :=
  (l.foldl (fun (acc : List Nat) s => if acc.head? = some s.cell then acc else s.cell :: acc) []).reverse

/-- The sheet of a set's positions. -/
def sheet (s : SetDesc) (pos : List (Nat × Nat)) : List Chunk × Nat × Nat :=
  let all := pos.zipIdx
  let kept := (all.filter (fun x => !(s.excludes x.1.1 x.1.2))).map (fun x => s.sample x.2 x.1.1 x.1.2)
  let sorted := kept.mergeSort Sample.before
  let row := (s.w + 31) / 32
  let cells := (baseCells sorted).map (fun c =>
    leaves s.l 0 (c % row * 8192) (c / row * 8192) 8192 (sorted.filter (fun x => decide (x.cell = c))) 13)
  (cells.flatMap (·.1), (cells.map (·.2)).foldl max 0, all.length - kept.length)

/-- The requests of a build (log 30). -/
def Dev.buildReq (d : Dev) (part i : Nat) : Req :=
  { part := part, clu := (d.part part).cfg.clusters.headD 0, kind := 9, who := 16 * (2 ^ 41 + 256 * part + i) + 9 }

/-- Positions are read and the workspace is written; its bytes are free (log 30). -/
def buildRun (r : Req) (s : SetDesc) : Rd (List (Nat × Nat)) := do
  let pos ← (List.range s.cap).mapM (fun i => do
    let (x, px) ← rdWord r (s.pos + 8 * i)
    let (y, py) ← rdWord r (s.pos + 8 * i + 4)
    if px = 0 ∧ py = 0 then pure (x.toNat, y.toNat) else throw (.poisonWrite 0 (s.pos + 8 * i)))
  let d ← get
  (List.range (12 * s.cap + 16384)).forM (fun i => wrWord r (s.ws + 4 * i) (Config.freeWord (d.fresh + i), 0))
  modify (fun d => { d with fresh := d.fresh + 12 * s.cap + 16384 })
  pure pos

/-- A build ends: the set is built, or failed (Table 13-3). -/
def Dev.buildEnd (d : Dev) (part i : Nat) : Dev :=
  let e := (d.part part).set i
  if e.state ≠ 1 then d
  else if e.desc.grid then d.modSet part i (fun e => { e with state := 2, depth := 2, excl := 0 })
  else match (buildRun (d.buildReq part i) e.desc).run' d with
    | (.error .later, d) => d
    | (.error _, d) => d.modSet part i (fun e => { e with state := 4 })
    | (.ok pos, d) =>
      let (cs, depth, excl) := sheet e.desc pos
      d.modSet part i (fun e => { e with state := 2, chunks := cs, depth := depth, excl := excl })

/-! ### Coverage (R328, R329) -/

/-- Coordinates of a triangle. -/
def Tri.coord (t : Tri) (v : Nat) : Int × Int := ((nth t.words (3 * v) 0).toInt, (nth t.words (3 * v + 1) 0).toInt)
def Tri.z (t : Tri) (v : Nat) : Word := nth t.words (3 * v + 2) 0

/-- E(i, p) of three vertices. -/
def edge (q : Nat → Int × Int) (i : Nat) (p : Int × Int) : Int :=
  let a := q i
  let b := q ((i + 1) % 3)
  (b.1 - a.1) * (p.2 - a.2) - (b.2 - a.2) * (p.1 - a.1)

def Tri.area (t : Tri) : Int := edge t.coord 0 (t.coord 2)

/-- Coverage of a position. -/
def Tri.covers (t : Tri) (p : Int × Int) : Bool :=
  let a := t.area
  if a = 0 then false
  else
    let q (v : Nat) : Int × Int := if a < 0 ∧ v = 1 then t.coord 2 else if a < 0 ∧ v = 2 then t.coord 1 else t.coord v
    (List.range 3).all (fun i =>
      let e := edge q i p
      let dx := (q ((i + 1) % 3)).1 - (q i).1
      let dy := (q ((i + 1) % 3)).2 - (q i).2
      decide (0 < e) || (decide (e = 0) && (decide (dy = 0 ∧ 0 < dx) || decide (dy < 0))))

/-- A ratio of integers, exact but for one sticky bit below any quantum of f32. -/
def ratio (num : Int) (den : Nat) : FVal :=
  if num = 0 ∨ den = 0 then .zero false
  else
    let k := 64 + bitLen den
    let q := num.natAbs * 2 ^ k / den
    let sticky := if num.natAbs * 2 ^ k % den = 0 then 0 else 1
    .fin (decide (num < 0)) (2 * q + sticky) (-(k : Int) - 1)

/-- A ratio rounded once to f32. -/
def ratioWord (num : Int) (den : Nat) : Word := BitVec.ofNat 32 (f32.finish .rne false ⟨ratio num den, false⟩).bits

/-- λ1, λ2 and the depth at a position (R329). -/
def Tri.inner (t : Tri) (p : Int × Int) : Word × Word × Word :=
  let a := t.area
  let sgn : Int := if a < 0 then -1 else 1
  let l1 := ratioWord (sgn * edge t.coord 2 p) a.natAbs
  let l2 := ratioWord (sgn * edge t.coord 0 p) a.natAbs
  let t1 := (fsubV .rne false (t.z 1) (t.z 0)).w
  let t2 := (fsubV .rne false (t.z 2) (t.z 0)).w
  (l1, l2, (ffmaV .rne false l2 t2 (ffmaV .rne false l1 t1 (t.z 0)).w).w)

/-! ### Chunks -/

/-- Position of pixel `m` of a tile. -/
def tileXY (m : Nat) : Nat × Nat :=
  (m % 2 + m / 4 % 2 * 2 + m / 16 % 2 * 4, m / 2 % 2 + m / 8 % 2 * 2 + m / 32 % 2 * 4)

/-- A chunk of a set (R314, R322). -/
def SetEntry.chunk (e : SetEntry) (c : Nat) : Chunk :=
  if e.desc.grid then
    let tx := c % (e.desc.w / 8)
    let ty := c / (e.desc.w / 8)
    { x0 := 2048 * tx, y0 := 2048 * ty, size := 2048,
      samples := (List.range 64).map (fun m =>
        let xy := tileXY m
        (64 * c + m, 2048 * tx + 256 * xy.1 + 128, 2048 * ty + 256 * xy.2 + 128)) }
  else nth e.chunks c ⟨0, 0, 0, []⟩

/-- Least and greatest of three. -/
def min3 (f : Nat → Int) : Int := min (f 0) (min (f 1) (f 2))
def max3 (f : Nat → Int) : Int := max (f 0) (max (f 1) (f 2))

/-- A coordinate out of range: the triangle is discarded (R325). -/
def Tri.discarded (t : Tri) : Bool :=
  (List.range 3).any (fun v => !(decide (-16777216 ≤ (t.coord v).1 ∧ (t.coord v).1 < 16777216) &&
    decide (-16777216 ≤ (t.coord v).2 ∧ (t.coord v).2 < 16777216)))

/-- The triangle's bounding box meets a cell (R327). -/
def Tri.meetsCell (t : Tri) (x0 y0 size : Nat) : Bool :=
  decide (min3 (fun v => (t.coord v).1) < x0 + size ∧ (x0 : Int) ≤ max3 (fun v => (t.coord v).1) ∧
          min3 (fun v => (t.coord v).2) < y0 + size ∧ (y0 : Int) ≤ max3 (fun v => (t.coord v).2))

/-- The chunks that a triangle is sent to. -/
def SetEntry.targets (e : SetEntry) (t : Tri) : List Nat :=
  if t.discarded then []
  else if e.desc.grid then
    let cols := e.desc.w / 8
    let rows := e.desc.h / 8
    let span (f : Nat → Int) (n : Nat) : List Nat := (List.range n).filter (fun (i : Nat) =>
      decide (min3 f < (2048 * i : Int) + 2048 ∧ (2048 * i : Int) ≤ max3 f))
    (span (fun v => (t.coord v).2) rows).flatMap (fun y => (span (fun v => (t.coord v).1) cols).map (fun x => y * cols + x))
  else (List.range e.chunks.length).filter (fun c =>
    let k := nth e.chunks c ⟨0, 0, 0, []⟩
    t.meetsCell k.x0 k.y0 k.size)

/-- The cluster that owns a chunk (R324). -/
def Part.ownerOf (p : Part) (c : Nat) : Nat :=
  nth p.cfg.clusters (c * 0x9E3779B1 % 2 ^ 32 / 65536 % max p.cfg.clusters.length 1) 0

/-! ### The stream (R325-R327) -/

/-- Keys of stream order. -/
def keyLt : List Nat → List Nat → Bool
  | [], _ => false
  | _ :: _, [] => false
  | a :: as, b :: bs => decide (a < b) || (decide (a = b) && keyLt as bs)

def Tri.before (a b : Tri) : Bool := decide (a.epoch < b.epoch) || (decide (a.epoch = b.epoch) && keyLt a.key b.key)

/-- A launch has been accepted and has not completed, and is of a partition (R327). -/
def Launch.alive (l : Launch) (part : Nat) : Bool := decide (l.part = part) && l.status.isNone && !l.completed

/-- Blocks of a launch, without fragment groups. -/
def Dev.blocksOf (d : Dev) (i : Nat) : List Block := d.blocks.filter (fun k => decide (k.launch = i) && k.frag.isNone)

/-- Blocks of a launch below a linear index are still to start. -/
def Dev.unstarted (d : Dev) (i : Nat) (l : Launch) (lin : Nat) : Bool :=
  !l.started || l.ranges.any (fun r => decide (r.2.1 < lin)) || l.requeued.any (fun r => decide (r.lin < lin)) ||
  l.batches.any (fun x => decide (x.no < lin)) || (d.part l.part).trays.any (fun t => decide (t.bound = some i ∧ t.batchNo < lin)) ||
  (d.blocksOf i).any (fun k => decide (k.lin < lin) && decide (k.life = .staging))

/-- No group before these keys can still emit (R327). -/
def Dev.placeFixed (d : Dev) (part seq lin grp : Nat) : Bool :=
  d.launches.zipIdx.all (fun li =>
    let l := li.1
    if !(l.alive part) || decide (seq < l.seq.toNat) then true
    else
      let top := if l.seq.toNat < seq then 2 ^ 64 else lin
      !(d.unstarted li.2 l top) &&
      (d.blocksOf li.2).all (fun k => decide (top < k.lin) ||
        (if k.lin = top ∧ l.seq.toNat = seq then
          k.life.gone || ((List.range k.groups.length).all (fun n => decide (grp ≤ n) || !(k.liveGroups.contains n)))
         else k.allExited)))

/-- A block before these keys has not retired. -/
def Dev.olderBlock (d : Dev) (part seq lin : Nat) : Bool :=
  d.launches.zipIdx.any (fun li =>
    let l := li.1
    l.alive part && decide (l.seq.toNat ≤ seq) &&
    (let top := if l.seq.toNat < seq then 2 ^ 64 else lin
     d.unstarted li.2 l top || (d.blocksOf li.2).any (fun k => decide (k.lin < top) && (match k.life with
       | .staging | .running | .retiring | .capturing | .advancing | .saved => true
       | _ => false))))

/-- The sequence number of a block's launch. -/
def Dev.seqOf (d : Dev) (k : Block) : Nat := match d.launches[k.launch]? with
  | some l => l.seq.toNat
  | none => 0

/-- PRIM (R325, R327): a release, then room in the die's reorder buffer, of which 512 entries are kept for the oldest block. -/
def execPrim (a b : BitVec 7) (s : State) : Out :=
  issue (.prim a b) { reads := .s a.toNat :: vs b 10 } (fun v =>
    let h := v.g.uni a.toNat
    setCheck v h true (fun e =>
      if e.state ≠ 3 ∨ e.closed then .trap (setTrap v cHANDLE_INVALID 1 h)
      else if v.d.released v.b v.n true = false then .wait (.release true)
      else
        let die := dieOf v.k.home
        let seq := v.d.seqOf v.k
        let limit := if v.d.olderBlock v.k.part seq v.k.lin then 8192 - 512 else 8192
        if limit < v.d.buffered die + Mask.count v.act then
          .retry v.d (.prim (setIdx h)) (fun g => { g with primSince := some (g.primSince.getD v.d.cycle) })
        else
          let (op, d) := v.d.newId
          let tris := (Mask.lanes v.act).map (fun (l : Nat) =>
            Tri.mk e.epoch [seq, v.k.lin, v.n, op, l] ((List.range 10).map (fun i => v.g.word (v.g.vreg (b.toNat + i)) l)) v.k.launch die)
          .done (d.modSet v.k.part (setIdx h) (fun e => { e with stream := e.stream ++ tris })) { v.g with primSince := none })) s

/-- The first triangle of a stream. -/
def firstTri (l : List Tri) : Option Tri :=
  l.foldl (fun (m : Option Tri) t => match m with
    | none => some t
    | some x => if t.before x then some t else some x) none

/-- TRIANGLE_DISTRIBUTE: the stream's first triangle, once its place is fixed, takes its primitive id and goes to the owner
of every chunk that its bounding box meets. -/
def Dev.distributeTri (d : Dev) (part i : Nat) : Dev :=
  let e := (d.part part).set i
  match firstTri e.stream with
  | none => d
  | some t =>
    let fixed := e.closed || decide (t.epoch < e.epoch) || d.placeFixed part (nth t.key 0 0) (nth t.key 1 0) (nth t.key 2 0)
    if e.state ≠ 3 ∨ !fixed ∨ (d.clears part (e.handle i)).any (fun c => decide (c ≤ t.epoch)) then d
    else
      let (works, d) := (e.targets t).foldl (fun (acc : List Work × Dev) c =>
        let (w, d) := acc.2.newId
        (acc.1 ++ [{ id := w, prim := e.prims, chunk := c, tri := t, tested := false, groups := [], running := [] }], d)) (([] : List Work), d)
      (d.modSet part i (fun e => { e with stream := e.stream.erase t, prims := e.prims + 1, work := e.work ++ works })).tidy part i

def execTriangleDistribute (part : BitVec 3) (set : BitVec 8) (s : State) : Out :=
  event (·.distributeTri part.toNat set.toNat) s

/-- The cycle since which a block is blocked in PRIM: that of its group that has been blocked longest. -/
def Block.primBlocked (k : Block) : Option Nat :=
  (k.groups.filterMap (fun g => match g.why with
    | .cond (.prim _) => g.primSince
    | _ => none)).min?

/-- PRIM_STALL_TIMEOUT: a block blocked in PRIM for 65,536 cycles, while an earlier block has not started, is pre-empted. -/
def Dev.primStall (d : Dev) (b : Nat) : Dev :=
  match d.blocks[b]? with
  | none => d
  | some k =>
    match k.primBlocked with
    | none => d
    | some t =>
      let seq := d.seqOf k
      let earlier := d.launches.zipIdx.any (fun li =>
        li.1.alive k.part && decide (li.1.seq.toNat ≤ seq) && d.unstarted li.2 li.1 (if li.1.seq.toNat < seq then 2 ^ 64 else k.lin))
      if t + 65536 ≤ d.cycle ∧ earlier then d.preempt b else d

def execPrimStallTimeout (blk : Nat) (s : State) : Out := event (·.primStall blk) s

/-! ### Fragment groups (R330, R331) -/

/-- The lanes of a chunk's quads that hold a covered sample, eight quads to a group. -/
def Chunk.groups (c : Chunk) (t : Tri) : List (List (Option (Nat × Bool))) :=
  let n := c.samples.length
  let at_ (i : Nat) : Nat × Nat × Nat := nth c.samples i (0, 0, 0)
  let cov (i : Nat) : Bool := decide (i < n) && t.covers (((at_ i).2.1 : Int), ((at_ i).2.2 : Int))
  let member (i : Nat) : Option (Nat × Bool) := if i < n then some ((at_ i).1, cov i) else some ((at_ (n - 1)).1, false)
  let quads := (List.range ((n + 3) / 4)).filter (fun q => (List.range 4).any (fun j => cov (4 * q + j)))
  (List.range ((quads.length + 7) / 8)).map (fun g =>
    let qs := (quads.drop (8 * g)).take 8
    let ls := qs.flatMap (fun q => (List.range 4).map (fun j => member (4 * q + j)))
    ls ++ List.replicate (32 - ls.length) none)

def Dev.modWork (d : Dev) (part i w : Nat) (f : Work → Work) : Dev :=
  d.modSet part i (fun e => { e with work := e.work.map (fun x => if x.id = w then f x else x) })

/-- COVERAGE_TEST: one triangle against one chunk. -/
def Dev.coverage (d : Dev) (part i w : Nat) : Dev :=
  let e := (d.part part).set i
  match e.work.find? (fun x => decide (x.id = w)) with
  | none => d
  | some x => if x.tested then d
    else d.modWork part i w (fun x => { x with tested := true, groups := (e.chunk x.chunk).groups x.tri })

def execCoverageTest (part : BitVec 3) (set : BitVec 8) (work : Nat) (s : State) : Out :=
  event (·.coverage part.toNat set.toNat work) s

/-- FRAGMENT_GROUP_START: the next fragment group of a chunk, in primitive order, takes a shadow slot of a core of the owning
cluster. -/
def Dev.fragStart (d : Dev) (part i w core slot : Nat) : Dev :=
  let e := (d.part part).set i
  match e.work.find? (fun x => decide (x.id = w)) with
  | none => d
  | some x =>
    match x.groups with
    | [] => d
    | g :: rest =>
      let turn := e.work.all (fun y => decide (y.chunk ≠ x.chunk ∨ x.prim ≤ y.prim) || (y.tested && y.groups.isEmpty))
      if !x.tested ∨ !turn ∨ clusterOf core ≠ (d.part part).ownerOf x.chunk ∨ !(d.slotFree part core slot) then d
      else
        let b := d.blocks.length
        let k := newBlock x.tri.launch part 0 (0, 0, 0) e.frag e.fragRegions [core] 0 none
        (d.takeSlot { k with frag := some ⟨i, w, g⟩ } core slot).modWork part i w
          (fun x => { x with groups := rest, running := x.running ++ [b] })

def execFragmentGroupStart (part : BitVec 3) (set : BitVec 8) (work core slot : Nat) (s : State) : Out :=
  event (·.fragStart part.toNat set.toNat work core slot) s

/-- What a fragment group starts with (R331). -/
def fragDress (e : SetEntry) (x : Work) (f : FragInfo) (g : Group) : Group :=
  let live := fragLive f.lanes
  let cov := fragCovered f.lanes
  let c := e.chunk x.chunk
  let pos (i : Nat) : Int × Int := match c.samples.find? (fun s => decide (s.1 = i)) with
    | some s => ((s.2.1 : Int), (s.2.2 : Int))
    | none => (0, 0)
  let sample (l : Nat) : Nat := match nth f.lanes l none with
    | some (i, _) => i
    | none => 0
  let val (l : Nat) : Word × Word × Word := x.tri.inner (pos (sample l))
  let g := g.setWords (.v 0) live (fun l => BitVec.ofNat 32 (sample l))
  let g := g.setWords (.v 1) live (fun l => (val l).1)
  let g := g.setWords (.v 2) live (fun l => (val l).2.1)
  let g := g.setWords (.v 3) live (fun l => (val l).2.2)
  let g := (((g.setUni 32 (BitVec.ofNat 32 x.prim)).setUni 33 (nth x.tri.words 9 0)).setUni 34 (e.handle f.set)).setUni 35
    (BitVec.ofNat 32 x.chunk)
  { g with live := live, helper := live &&& ~~~cov, p := FMap.set 0#32 [] 0 cov,
           frontier := g.frontier.map (fun en => { en with mask := live }) }

/-! ### BLOCK_START (R40) -/

/-- How a block's groups start: as R40 says, or as a fragment group. -/
def Dev.dress (d : Dev) (k : Block) (g : Group) : Group :=
  match k.frag with
  | none => g
  | some f =>
    let e := (d.part k.part).set f.set
    match e.work.find? (fun x => decide (x.id = f.work)) with
    | some x => fragDress e x f g
    | none => g

def execBlockStart (blk : Nat) (s : State) : Out := event (fun d => d.startBlock blk d.dress) s

end Sys2Proof.Machine
end

