-- ==== Sys2Proof/Machine/Auto.lean ====
section
/-! DEFINITION. What the fair rule picks from when the agenda is empty (log 2). -/

namespace Sys2Proof.Machine

open Sys2Proof

/-- A row with a word of its own class; the others are steps of the device or of the outside. -/
def hasWord (i : Instr) : Bool :=
  match i with
  | .unassignedOp _ _ => true
  | i => (encode i).isSome

/-- The cycle of a group's last issue. -/
def Group.lastIssue (g : Group) : Nat := (g.frontier.map (·.last)).foldl max 0

/-- The slot holder that has issued least recently. -/
def Dev.slotHolder (d : Dev) : Option (Nat × Nat) :=
  let holders := (List.range d.blocks.length).flatMap (fun b => match d.blocks[b]? with
    | none => []
    | some k => (List.range k.groups.length).filterMap (fun n =>
        if d.mayIssue b n then (d.group b n).map (fun g => (g.lastIssue, b, n)) else none))
  (holders.foldl (fun (m : Option (Nat × Nat × Nat)) x => match m with
    | none => some x
    | some y => if x.1 < y.1 then some x else some y) none).map (·.2)

/-! ### The device's own steps, by what they act on -/

def bv (w n : Nat) : BitVec w := BitVec.ofNat w n

/-- Steps on parked requests and walks. -/
def Dev.walkSteps (d : Dev) : List Instr :=
  d.parks.flatMap (fun p => [.parkedTimeout p.id, .parkedRewalkTimer p.id]) ++ d.walks.map (fun w => .walkComplete w.id)

/-- Steps on accesses in flight. -/
def Dev.accessSteps (d : Dev) : List Instr :=
  d.stores.map (fun x => .scratchStorePerformed x.op) ++ d.atoms.map (fun x => .scratchAtomicPerformed x.op) ++
  d.cores.flatMap (fun c => c.2.miss.map (fun m => .l1SectorFill c.1 m.id)) ++
  d.loads.flatMap (fun x => x.left.map (fun r => .scratchLoadComplete x.op r)) ++
  d.cmds.flatMap (fun c => match c.kind with
    | .fsqrt _ _ => [.fsqrtComplete c.op]
    | .fatom _ lanes _ => lanes.map (fun x => .fatomPerformed c.op x.1)
    | .mpath _ _ _ _ => [.mpathComplete c.op]
    | .tex _ => [.texComplete c.op]
    | _ => [])

/-- Steps on engines, tiles, folds and permits. -/
def Dev.engineSteps (d : Dev) : List Instr :=
  [.permitGrant 0, .permitGrant 1] ++
  d.engines.flatMap (fun e => e.2.table.flatMap (fun p => [.tileFetchComplete e.1 p.id, .passComplete e.1 p.id]) ++
    [.passChoose e.1, .modeSwitchDone e.1, .tileAcquireServed e.1]) ++
  d.tiles.zipIdx.flatMap (fun ti => match ti.1.order with
    | [] => []
    | .drain x :: _ => [.drainPerformed x.op]
    | _ => [.tileOrderTurn ti.2, .mrdComplete ti.2]) ++
  d.folds.flatMap (fun f => [.foldSwap (bv 3 f.part) f.h, .foldFail (bv 3 f.part) f.h])

/-- Steps on a group: its code, its waits with a deadline, and the commands that it waits for. -/
def groupSteps (b n : Nat) (g : Group) : List Instr :=
  (match g.why with
   | .cond (.code _) => [.codeFetchComplete b n]
   | _ => []) ++
  (if g.dl.isEmpty then [] else (List.range 16).map (fun j => .waitTimeout b n (bv 4 j))) ++
  (match g.cmd with
   | none => []
   | some _ => [.ltOpPerformed b n, .trayOpPerformed b n, .streamDrainComplete b n])

/-- Steps on a block. -/
def blockSteps (b : Nat) (k : Block) : List Instr :=
  (match k.life with
   | .staging => [.stagingReadComplete b, .blockStart b]
   | .running => k.groups.zipIdx.flatMap (fun gn => groupSteps b gn.2 gn.1) ++
       (List.range 8).flatMap (fun c =>
         let ch := nth k.chans c Channel.init
         .copyCommandStart b (bv 3 c) :: (match ch.cmds with
           | [] => []
           | x :: _ => (List.range x.pieces.length).map (fun p => .copyPieceDelivered b (bv 3 c) p))) ++
       (if k.primBlocked.isSome then [.primStallTimeout b] else [])
   | .retiring => [.blockCapture b]
   | .capturing => [.commitPoint b]
   | .applying => [.commitApplyDone b]
   | .advancing => [.advSuccessorStart b]
   | _ => []) ++
  (if k.life = .advancing then (List.range 8).flatMap (fun c =>
     .copyCommandStart b (bv 3 c) :: (List.range ((nth k.chans c Channel.init).cmds.headD ⟨0, 0, .mem 0, .mem 0, none, 0, false, false, false, []⟩).pieces.length).map
       (fun p => .copyPieceDelivered b (bv 3 c) p)) else [])

/-- Aligned runs of `c` cores that start in a cluster. -/
def runsOf (clu c : Nat) : List (List Nat) :=
  ((List.range 4).filter (fun i => decide ((4 * clu + i) % max c 1 = 0))).map (fun i => (List.range c).map (fun j => 4 * clu + i + j))

/-- Steps on queues and launches. -/
def Dev.launchSteps (d : Dev) : List Instr :=
  (d.queues.filter (fun q => q.2.en)).map (fun q => .queueReadEntry (bv 8 q.1)) ++
  d.launches.zipIdx.flatMap (fun li =>
    let l := li.1
    let i := li.2
    let p := d.part l.part
    if l.completed then []
    else
      [.launchComplete i, .launchStart i] ++
      (if l.started then
        p.cfg.clusters.flatMap (fun c =>
          let runs := match l.lrec.coresNeeded p.shadowUnits with
            | some n => runsOf c n
            | none => []
          .distributeBlocks i (dieNode (dieOf c)) :: .distributeBlocks i c :: (match l.lrec.kind with
            | 0 => runs.map (fun r => .blockPlace i c r)
            | 1 => runs.map (fun r => .nodeBlockStart i c r)
            | _ => (List.range 4).flatMap (fun j => (List.range 4).map (fun slot => .taskStart i (4 * c + j) slot))))
       else [])) ++
  d.cores.flatMap (fun c => if c.2.offer.isSome then [.drainMarkTimeout c.1] else []) ++
  d.blocks.zipIdx.flatMap (fun kb => if kb.1.life = .saved then
      (d.part kb.1.part).cfg.clusters.flatMap (fun c => (runsOf c kb.1.cores.length).map (fun r => .blockRestore kb.2 r))
    else [])

/-- Steps on trays and sets of a partition. -/
def Dev.partSteps (d : Dev) : List Instr :=
  d.parts.flatMap (fun p =>
    p.2.late.map (fun x => .spillWriteComplete (bv 3 p.1) x.handle x.write.no) ++
    p.2.trays.flatMap (fun t =>
      [.trayPushWaiterServed (bv 3 p.1) t.handle, .trayPopWaiterServed (bv 3 p.1) t.handle, .nodeBatchTimeout (bv 3 p.1) t.handle] ++
      t.waitPush.map (fun w => .trayPushTimeout (bv 3 p.1) t.handle w.blk w.grp) ++
      t.writes.map (fun w => .spillWriteComplete (bv 3 p.1) t.handle w.no)) ++
    p.2.sets.flatMap (fun s =>
      let e := s.2
      (if e.state = 1 then [.ssetBuildComplete (bv 3 p.1) (bv 8 s.1)] else []) ++
      e.held.map (fun h => .sresApply h.op) ++
      (if e.stream.isEmpty then [] else [.triangleDistribute (bv 3 p.1) (bv 8 s.1)]) ++
      e.work.flatMap (fun w =>
        (if w.tested then [] else [.coverageTest (bv 3 p.1) (bv 8 s.1) w.id]) ++
        (if w.groups.isEmpty then [] else
          p.2.cfg.clusters.flatMap (fun c => (List.range 4).flatMap (fun j => (List.range 4).map (fun slot =>
            .fragmentGroupStart (bv 3 p.1) (bv 8 s.1) w.id (4 * c + j) slot)))))))

/-- Issue slots that are free, and the groups that may take them. -/
def Dev.slotSteps (d : Dev) : List Instr :=
  d.blocks.zipIdx.flatMap (fun kb => if kb.1.life = .running then
      kb.1.groups.zipIdx.flatMap (fun gn => if gn.1.slot.isSome then [] else
        (List.range 4).map (fun slot => .issueSlotArbitration (nth kb.1.cores (gn.2 % max kb.1.cores.length 1) 0) slot kb.2 gn.2))
    else [])

/-- The device's own steps, in the order in which they are tried. -/
def Dev.candidates (d : Dev) : List Instr :=
  .clearingDone :: d.walkSteps ++ d.accessSteps ++ d.engineSteps ++
  d.blocks.zipIdx.flatMap (fun kb => blockSteps kb.2 kb.1) ++ d.partSteps ++ d.launchSteps ++
  d.blocks.zipIdx.flatMap (fun kb => if d.wanted kb.1 then [.preempt kb.2] else []) ++ d.slotSteps

end Sys2Proof.Machine
end

