-- ==== Sys2Proof/Machine/Platform.lean ====
section
/-! DEFINITION. The host's registers (R388-R390), the fault queue's registers (R406), the mailbox and the controller: images
(R400, R401), partitions (R395), windows (R384), quotes (R402), the life cycle (R403) and reset (R404). -/

namespace Sys2Proof.Machine

open Sys2Proof

/-! ### Queue registers (Table 21-1) -/

/-- A host write of a register: the register space answers in every phase but recovery (R400, Table 21-7). -/
def hostWrite (f : Dev → Dev) (s : State) : Out :=
  match s.plat.phase with
  | .recovery => .next s
  | _ => .next (s.withDev (f s.dev))

def Dev.modQueue (d : Dev) (q : Nat) (f : Queue → Queue) : Dev := d.putQueue q (f (d.queue q))

/-- A ring size the device accepts: a power of 2 from 16 to 65,536. -/
def ringSizeOk (n : Nat) : Bool := (List.range 13).any (fun i => decide (n = 2 ^ (i + 4)))

/-- QCTL: PART is writable only while EN = 0, and EN stays 0 without a ring size. -/
def Queue.writeCtl (q : Queue) (v : Word) : Queue :=
  { q with en := v.getLsbD 31 && ringSizeOk q.size.toNat, part := if q.en then q.part else v.toNat / 256 % 8, tier := v.toNat / 64 % 4 }

def execQctlWrite (q : BitVec 8) (v : Word) (s : State) : Out := hostWrite (·.modQueue q.toNat (·.writeCtl v)) s
def execQtailWrite (q : BitVec 8) (v : Word) (s : State) : Out := hostWrite (·.modQueue q.toNat (fun x => { x with tail := v })) s

/-- The other registers of a queue: QRING, QSIZE and QCPL hold what is written, QDLM is cleared by ones, and the rest are
read-only (R6). -/
def Queue.writeReg (q : Queue) (off : Nat) (v : BitVec 64) : Queue :=
  match off with
  | 0x08 => { q with ring := v }
  | 0x10 => { q with size := v.setWidth 32 }
  | 0x20 => { q with cpl := v }
  | 0x28 => { q with dlm := q.dlm &&& ~~~(v.setWidth 32) }
  | _ => q

/-- A write of the register space: the queues lie at 0x1_0000 + 64q. -/
def execRegisterWrite (off : Nat) (v : BitVec 64) (s : State) : Out :=
  hostWrite (fun d =>
    let q := (off - 0x10000) / 64
    if off < 0x10000 ∨ 256 ≤ q then d
    else match off % 64 with
      | 0x00 => d.modQueue q (·.writeCtl (v.setWidth 32))
      | 0x14 => d.modQueue q (fun x => { x with tail := v.setWidth 32 })
      | o => d.modQueue q (·.writeReg o v)) s

/-! ### Fault-queue registers (Table 20-7) -/

/-- FQRD, unless WR − RD would exceed SIZE. -/
def execFqrdWrite (part : BitVec 3) (v : Word) (s : State) : Out :=
  event (·.modPart part.toNat (fun p => if (p.fqWr - v).toNat ≤ p.fqSize.toNat then { p with fqRd := v } else p)) s

def execFqbaseWrite (part : BitVec 3) (v : BitVec 64) (s : State) : Out :=
  event (·.modPart part.toNat (fun p => { p with fqBase := v, fqWr := 0, fqRd := 0 })) s

/-- A size that is no power of 2 from 128 to 65,536 is read as 0. -/
def fqSizeOf (v : Word) : Word := if (List.range 10).any (fun i => decide (v.toNat = 2 ^ (i + 7))) then v else 0

def execFqsizeWrite (part : BitVec 3) (v : Word) (s : State) : Out :=
  event (·.modPart part.toNat (fun p => { p with fqSize := fqSizeOf v, fqWr := 0, fqRd := 0 })) s

/-- Firmware's write of FQST: W1C. -/
def Dev.writeFqst (d : Dev) (part : Nat) (v : Word) : Dev :=
  d.modPart part (fun p => if v.getLsbD 0 then { p with fqOvf := false } else p)

/-- Firmware's writes of WDEC and WENC: W1C. -/
def clearOnes (n : Nat) (v : Word) : Nat := (BitVec.ofNat 32 n &&& ~~~v).toNat
def Dev.writeWdec (d : Dev) (w : Nat) (v : Word) : Dev :=
  let x := d.window w
  { d with windows := FMap.set Window.init d.windows w { x with decc := clearOnes x.decc v } }
def Dev.writeWenc (d : Dev) (w : Nat) (v : Word) : Dev :=
  let x := d.window w
  { d with windows := FMap.set Window.init d.windows w { x with encc := clearOnes x.encc v } }

/-! ### The mailbox (R399) -/

/-- A command that is done, with its argument in the measurement log (R402). -/
def State.measured (s : State) (code : Nat) (arg : List Nat) : State :=
  s.withPlat { s.plat with mailbox := .done, log := s.plat.log ++ [Config.shake256 (Config.argument code arg)] }

/-! ### SET_PART (R395, Table 21-5) -/

/-- Lists without a common element, and without one twice. -/
def apart (l : List (List Nat)) : Bool := decide l.flatten.Nodup

/-- Ascending clusters; eight or more come in whole runs of eight. -/
def clustersOk (l : List Nat) : Bool :=
  !l.isEmpty && l.all (fun c => decide (c < 64)) && decide (l.Pairwise (· < ·)) &&
  (decide (l.length < 8) || l.all (fun c => (List.range 8).all (fun i => l.contains (c / 8 * 8 + i))))

/-- Permits of a die: none without a cluster there, else 16 to the fused ceiling (R396). -/
def permitsOk (l : List Nat) (die n : Nat) : Bool :=
  if l.any (fun c => decide (dieOf c = die)) then decide (16 ≤ n ∧ n ≤ 512) else decide (n = 0)

def PartConfig.ok (c : PartConfig) : Bool :=
  clustersOk c.clusters && c.groups.all (fun g => decide (g.1 < 16384 ∧ g.2 < 8)) &&
  decide (4096 ≤ c.chipShare ∧ c.chipShare ≤ 65536 ∧ c.chipShare % 256 = 0) && !c.slices.isEmpty &&
  c.slices.all (fun x => decide (x < 1024)) && decide (c.pool % 4096 = 0) && decide (c.layerT ≤ 8192) &&
  permitsOk c.clusters 0 c.permits.1 && permitsOk c.clusters 1 c.permits.2 &&
  decide (c.trapTable < hbmSize ∧ c.tableRoot < hbmSize ∧ c.fqBase < hbmSize ∧ c.ctxPool < hbmSize) &&
  c.queues.all (fun q => decide (q < 256)) && decide (c.taskTypes.length = 16)

/-- One to eight partitions that share nothing. -/
def partsOk (l : List PartConfig) : Bool :=
  decide (1 ≤ l.length ∧ l.length ≤ 8) && l.all PartConfig.ok && apart (l.map (·.clusters)) &&
  apart (l.map (fun c => c.groups.map (·.1))) && apart (l.map (·.slices)) && apart (l.map (·.queues)) &&
  decide ((l.map (·.permits.1)).foldl (· + ·) 0 ≤ 512 ∧ (l.map (·.permits.2)).foldl (· + ·) 0 ≤ 512)

/-- The partitions that a list of configurations changes (R395). -/
def Dev.concerned (d : Dev) (l : List PartConfig) (p : Nat) : Bool :=
  match l[p]? with
  | some c => !(d.part p).active || decide ((d.part p).cfg ≠ c)
  | none => (d.part p).active

/-- No queue of a partition concerned is enabled, and no block of theirs is resident. -/
def Dev.atRest (d : Dev) (l : List PartConfig) : Bool :=
  d.queues.all (fun q => !(q.2.en && d.concerned l q.2.part)) && d.blocks.all (fun k => k.life.gone || !(d.concerned l k.part))

def partOf (c : PartConfig) : Part :=
  { Part.init with active := true, cfg := c, fqBase := BitVec.ofNat 64 c.fqBase, fqSize := fqSizeOf (BitVec.ofNat 32 c.fqSize) }

/-- The partitions and the group scheme table as the command gives them; a partition that the command does not change keeps its state. -/
def Dev.setParts (d : Dev) (l : List PartConfig) : Dev :=
  let parts := l.zipIdx.foldl (fun (m : FMap Part) (ci : PartConfig × Nat) =>
    FMap.set Part.init m ci.2 (if d.concerned l ci.2 then partOf ci.1 else d.part ci.2)) []
  let scheme := (l.flatMap (·.groups)).foldl (fun (m : FMap Nat) g => FMap.set 1 m g.1 g.2) d.scheme
  { d with parts := parts, scheme := scheme, tlb := d.tlb.filter (fun t => !(d.concerned l t.part)),
           walks := d.walks.filter (fun w => !(d.concerned l w.part)), parks := d.parks.filter (fun p => !(d.concerned l p.part)) }

/-- The numbers of the argument, for the measurement log. -/
def PartConfig.numbers (c : PartConfig) : List Nat :=
  c.clusters.length :: c.clusters ++ c.groups.length :: c.groups.flatMap (fun g => [g.1, g.2]) ++ [c.chipShare] ++
  c.slices.length :: c.slices ++ [c.pool, c.layerT, c.permits.1, c.permits.2, c.trapTable, c.tableRoot, c.fqBase, c.fqSize, c.ctxPool] ++
  c.queues.length :: c.queues ++
  c.taskTypes.flatMap (fun t => [if t.vld then 1 else 0, t.budget, t.cscr, t.lpriv, t.ntile, t.tshape]) ++ [if c.hostVisible then 1 else 0]

def execSetPart (l : List PartConfig) (s : State) : Out :=
  mailbox 2 (fun s =>
    if partsOk l && s.dev.atRest l then some ((s.withDev (s.dev.setParts l)).measured 2 (l.flatMap PartConfig.numbers)) else none) s

/-! ### SET_WINDOW (R384, Table 20-6) -/

/-- WCTL as it is held: reserved fields read 0, and VALID cannot be set with the reserved format. -/
def winCtl (v : Word) : Word :=
  let x := v &&& 0x83010000#32
  if x.toNat / 2 ^ 24 % 4 = 3 then x &&& 0x7FFFFFFF#32 else x

/-- A number of blocks and a backing store that the table allows. -/
def WindowCfg.ok (c : WindowCfg) : Bool :=
  decide (1 ≤ c.wnblk.toNat ∧ c.wnblk.toNat ≤ 2 ^ 28 ∧ c.wbase.toNat % 2048 = 0 ∧ c.wbase.toNat < hbmSize)

def execSetWindow (w : BitVec 5) (c : WindowCfg) (s : State) : Out :=
  mailbox 3 (fun s =>
    if c.wctl.getLsbD 31 && !(WindowCfg.ok c) then none
    else
      let x : Window := { s.dev.window w.toNat with wctl := winCtl c.wctl, wnblk := c.wnblk, wbase := c.wbase }
      some ((s.withDev { s.dev with windows := FMap.set Window.init s.dev.windows w.toNat x }).measured 3
        [w.toNat, c.wctl.toNat, c.wnblk.toNat, c.wbase.toNat])) s

/-! ### QUOTE (R402) -/

def LifeCycle.number : LifeCycle → Nat
  | .manufactured => 0
  | .provisioned => 1
  | .deployed => 2
  | .returned => 3

def execQuote (nonce : List Byte) (s : State) : Out :=
  mailbox 4 (fun s =>
    if nonce.length ≠ 32 then none
    else some (s.withPlat { s.plat with
      mailbox := .quote s.plat.log (Config.sign (LifeCycle.number s.plat.idLife) (Config.shake256 (s.plat.log.flatten ++ nonce))) })) s

/-! ### Reset, images and the life cycle (R400, R401, R403, R404) -/

/-- The device after a reset (R404); what belongs to the host and to the peers stays theirs. -/
def Dev.wiped (d : Dev) : Dev :=
  { Dev.cleared with fresh := d.fresh + 1, peerOut := d.peerOut, hostMem := d.hostMem, peerMem := d.peerMem }

/-- A partition whose stores are zeroed: chip scratchpad, layer table, trays and sets (R403). -/
def Part.zeroed (p : Part) : Part :=
  { p with chip := [], chipP := [], layers := [], trays := [], poolUsed := 0, late := [], sets := [], permits := (0, 0) }

/-- Clearing at a life-cycle transition zeroes the stores that R403 lists; the work that stood in them is gone (log 63). Registers of queues,
partitions, windows, links and fault queues are none of them. -/
def Dev.zeroed (d : Dev) : Dev :=
  { d with
    cur := none, launches := [], blocks := [], cores := [], loads := [], stores := [], atoms := [], cmds := [], engines := [],
    tiles := [], govs := [], folds := [], hbm := [], hbmP := [], l2 := [], predict := [], scheme := [], walks := [], parks := [],
    lost := [], parts := d.parts.map (fun p => (p.1, p.2.zeroed)) }

/-- The rollback counter after the image ran: it may have been raised, to its version at most (R400). -/
def raisedTo (n : Nat) (img : Image) (rollback : Nat) : Nat :=
  rollback + (Config.freeWord n).toNat % (img.version - rollback + 1)

/-- The boot ROM verifies the image in flash: it runs and clears the device, or the controller stays in recovery. -/
def boot (s : State) (img : Image) : State :=
  let p : Platform :=
    if img.authentic && decide (s.plat.rollback ≤ img.version) then
      Platform.booted img (raisedTo s.dev.fresh img s.plat.rollback) s.plat.life
    else { phase := .recovery, flash := img, rollback := s.plat.rollback, life := s.plat.life, idLife := s.plat.life,
           log := [Config.shake256 []], mailbox := .idle, command := none, args := [] }
  { s with plat := p, dev := s.dev.wiped }

/-- RESET: a reset of any cause. -/
def execReset (s : State) : Out := .next (boot s s.plat.flash)

/-- LOAD_IMAGE, in recovery only: the image goes to flash, is verified, and the device resets. -/
def execLoadImage (img : Image) (s : State) : Out := mailboxIn .recovery 1 (fun s => some (boot s img)) s

/-- POWER_LOSS: a reset when power returns; during LOAD_IMAGE it leaves an image that does not verify (R401). -/
def execPowerLoss (loading : Bool) (s : State) : Out :=
  .next (boot s (if loading && decide (s.plat.phase = .recovery) then { s.plat.flash with authentic := false } else s.plat.flash))

/-- CLEARING_DONE: the device runs; the CXL port has trained (Table 21-7), and CXL.mem requests held meanwhile complete with zeros
(R403). -/
def execClearingDone (s : State) : Out :=
  match s.plat.phase with
  | .clearing =>
    let d := if s.dev.heldMem.isEmpty then s.dev else ({ s.dev with heldMem := [] } : Dev).reply 0 (0, 0)
    .next ((s.withDev { d with hostTrained := true, hostUp := true }).withPlat { s.plat with phase := .running })
  | _ => .next s

/-- The transitions of the life cycle. -/
def LifeCycle.next (a b : LifeCycle) : Bool :=
  match a, b with
  | .manufactured, .provisioned => true
  | .provisioned, .deployed => true
  | .deployed, .returned => true
  | .returned, .provisioned => true
  | _, _ => false

/-- LIFECYCLE: a signed request for a transition, with clearing (R403). -/
def execLifecycle (next : LifeCycle) (signed : Bool) (s : State) : Out :=
  mailbox 5 (fun s =>
    if signed && LifeCycle.next s.plat.life next then
      let s := s.measured 5 [LifeCycle.number next]
      some ((s.withDev s.dev.zeroed).withPlat { s.plat with life := next, phase := .clearing })
    else none) s

end Sys2Proof.Machine
end

