-- ==== Sys2Proof/Machine/Results.lean ====
section
/-! DEFINITION. Results (R333-R335), colour-delta compression and fast clear (R336-R338), and the waits of the set
instructions (R316, R318, R327, R344). -/

namespace Sys2Proof.Machine

open Sys2Proof

/-! ### Blending (R334) -/

/-- Colour words of a result. -/
def SetDesc.colours (s : SetDesc) : Nat := nth [1, 2, 1, 0] s.fmt 0

/-- Byte `ch` of an RGBA8 colour. -/
def chan8 (w : Word) (ch : Nat) : Nat := w.toNat / 256 ^ ch % 256

def blend8 (m : SresMode) (s c sa : Nat) : Nat :=
  match m with
  | .replace => s
  | .add => min 255 (c + s)
  | .atop => min 255 (s + (c * (255 - sa) + 127) / 255)
  | .min => min s c
  | .max => max s c

/-- A float channel: the value, before its one rounding. -/
def blendF (m : SresMode) (s c sa : FVal) : Exact :=
  match m with
  | .replace => ⟨s, false⟩
  | .add => addExact .rne c s
  | .atop => addExact .rne s (mulExact c (addExact .rne (.fin false 1 0) sa.neg).v).v
  | .min => minmaxVal false false s c
  | .max => minmaxVal true false s c

def blendHalf (m : SresMode) (s c sa : Nat) : Nat := (f16.finish .rne false (blendF m (f16.read s) (f16.read c) (f16.read sa))).bits

/-- New colour words from the source and the stored ones. -/
def blend (fmt : Nat) (m : SresMode) (s c : List Word) : List Word :=
  match fmt with
  | 0 =>
    let x := nth s 0 0
    let y := nth c 0 0
    [BitVec.ofNat 32 ((List.range 4).foldl (fun a ch => a + 256 ^ ch * blend8 m (chan8 x ch) (chan8 y ch) (chan8 x 3)) 0)]
  | 1 =>
    let sa := half (nth s 1 0) 1
    (List.range 2).map (fun i => BitVec.ofNat 32
      (blendHalf m (half (nth s i 0) 0) (half (nth c i 0) 0) sa + 65536 * blendHalf m (half (nth s i 0) 1) (half (nth c i 0) 1) sa))
  | 2 =>
    let mode : SresMode := if m = .atop then .replace else m
    [BitVec.ofNat 32 (f32.finish .rne false (blendF mode (f32.read (nth s 0 0).toNat) (f32.read (nth c 0 0).toNat) (.zero false))).bits]
  | _ => []

/-- The depth test `z op stored` (Table 13-2, R333). -/
def depthPass (dfn : Nat) (z stored : Word) : Bool :=
  match dfn with
  | 0 => true
  | 1 => (fcmpV .lt false z stored).1
  | 2 => (fcmpV .le false z stored).1
  | 3 => (fcmpV .gt false z stored).1
  | 4 => (fcmpV .ge false z stored).1
  | 5 => (fcmpV .eq false z stored).1
  | 6 => (fcmpV .ne false z stored).1
  | _ => false

/-! ### Tiles (R336, R337) -/

/-- Deltas of a tile of 64 pixels, from pixel 0, as signed numbers. -/
def deltas (px : List Word) : List Int :=
  (List.range 256).map (fun f =>
    let x := (chan8 (nth px (f / 4) 0) (f % 4) + 256 - chan8 (nth px 0 0) (f % 4)) % 256
    if x < 128 then (x : Int) else (x : Int) - 256)

/-- Every delta fits `n` bits. -/
def fits (n : Nat) (ds : List Int) : Bool := ds.all (fun d => decide (-(2 ^ (n - 1) : Int) ≤ d ∧ d < (2 ^ (n - 1) : Int)))

/-- A word of the delta area: fields of `n` bits. -/
def packWord (n : Nat) (ds : List Int) (w : Nat) : Word :=
  BitVec.ofNat 32 ((List.range (32 / n)).foldl (fun a i =>
    a + (nth ds (w * (32 / n) + i) 0 % (2 ^ n : Int)).toNat * 2 ^ (n * i)) 0)

/-- The first mode that holds a tile, and its slot's words. -/
def packTile (px : List Word) : Byte × List Word :=
  let ds := deltas px
  if fits 2 ds then (1, nth px 0 0 :: (List.range 16).map (packWord 2 ds))
  else if fits 4 ds then (2, nth px 0 0 :: (List.range 32).map (packWord 4 ds))
  else (0, px)

/-- A pixel of a tile kept with deltas of `n` bits. -/
def unpackPixel (n : Nat) (slot : List Word) (p : Nat) : Word :=
  let p0 := nth slot 0 0
  BitVec.ofNat 32 ((List.range 4).foldl (fun a ch =>
    let f := 4 * p + ch
    let x := (nth slot (1 + n * f / 32) 0).toNat / 2 ^ (n * f % 32) % 2 ^ n
    let x := if x < 2 ^ (n - 1) then x else x + 256 - 2 ^ n
    a + 256 ^ ch * ((chan8 p0 ch + x) % 256)) 0)

/-- Words of a slot that a mode uses. -/
def slotWords (mode : Byte) : Nat := if mode = 0x80#8 then 0 else if mode = 1#8 then 17 else if mode = 2#8 then 33 else 64

/-- The pixels of a slot. -/
def unpackTile (mode : Byte) (clr : Word) (slot : List Word) : List Word :=
  (List.range 64).map (fun p =>
    if mode = 0x80#8 then clr else if mode = 1#8 then unpackPixel 2 slot p else if mode = 2#8 then unpackPixel 4 slot p
    else nth slot p 0)

/-- Reading a tile: its mode, and its pixels with their poison. -/
def readTile (r : Req) (s : SetDesc) (t : Nat) : Rd (Byte × List (Word × Nat)) := do
  let (mode, pm) ← rdByte r (s.ws + t)
  let slot ← (List.range (slotWords mode)).mapM (fun i => rdWord r (s.res + 256 * t + 4 * i))
  let any := if pm ≠ 0 then pm else ((slot.map (·.2)).find? (fun p => decide (p ≠ 0))).getD 0
  let px := unpackTile mode s.clrc0 (slot.map (·.1))
  pure (mode, px.zipIdx.map (fun (wi : Word × Nat) =>
    (wi.1, if slotWords mode = 64 ∧ pm = 0 then (nth slot wi.2 (0, 0)).2 else any)))

/-- Writing a tile in its first fitting mode; a poisoned pixel poisons every word of a slot that holds deltas. -/
def writeTile (r : Req) (s : SetDesc) (t : Nat) (px : List (Word × Nat)) : Rd Unit := do
  let (mode, ws) := packTile (px.map (·.1))
  let any := ((px.map (·.2)).find? (fun p => decide (p ≠ 0))).getD 0
  ws.zipIdx.forM (fun (wi : Word × Nat) =>
    wrWord r (s.res + 256 * t + 4 * wi.2) (wi.1, if mode = 0#8 then (nth px wi.2 (0, 0)).2 else any))
  wrByte r (s.ws + t) mode

/-! ### One result (R333) -/

/-- The test of one result, and the poison that it rests on. -/
def testResult (r : Req) (s : SetDesc) (i : Nat) (z : Word) : Rd (Bool × Nat) := do
  if s.dfn = 0 then pure (true, 0)
  else if 7 ≤ s.dfn then pure (false, 0)
  else
    let (w, p) ← rdWord r (s.dep + 4 * i)
    pure (depthPass s.dfn z w, p)

/-- Blending one result with the stored colour. -/
def blendStored (s : SetDesc) (m : SresMode) (cs : List Word) (old : List (Word × Nat)) (p : Nat) : List (Word × Nat) :=
  (blend s.fmt m cs (old.map (·.1))).zipIdx.map (fun (wi : Word × Nat) =>
    (wi.1, if p ≠ 0 then p else if m = .replace then 0 else (nth old wi.2 (0, 0)).2))

/-- A result of a set without compression. -/
def applyPlain (r : Req) (s : SetDesc) (m : SresMode) (x : Nat × List Word × Word) : Rd Unit := do
  let (pass, p) ← testResult r s x.1 x.2.2
  if pass then
    let a := s.res + 4 * s.colours * x.1
    let old ← if m = .replace then pure [] else (List.range s.colours).mapM (fun i => rdWord r (a + 4 * i))
    (blendStored s m x.2.1 old p).zipIdx.forM (fun (wi : (Word × Nat) × Nat) => wrWord r (a + 4 * wi.2) wi.1)
    if s.dwr then wrWord r (s.dep + 4 * x.1) (x.2.2, p)

/-- Results of one tile of a compressed set. -/
def applyTile (r : Req) (s : SetDesc) (m : SresMode) (t : Nat) (xs : List (Nat × List Word × Word)) : Rd Unit := do
  let (_, px) ← readTile r s t
  let (some?, px) ← xs.foldlM (fun (acc : Bool × List (Word × Nat)) x => do
    let (pass, p) ← testResult r s x.1 x.2.2
    if pass then
      if s.dwr then wrWord r (s.dep + 4 * x.1) (x.2.2, p)
      let q := x.1 % 64
      match blendStored s m x.2.1 [nth acc.2 q (0, 0)] p with
      | w :: _ => pure (true, setNth acc.2 q w)
      | [] => pure acc
    else pure acc) (false, px)
  if some? then writeTile r s t px

/-- A run of accesses that is dropped whole where an access fails; what the failing accesses used up stays used. -/
def Dev.tryRun (d : Dev) (x : Rd Unit) : Dev :=
  match x.run' d with
  | (.ok _, d') => d'
  | (.error _, d') => { d with parks := d'.parks, timeouts := d'.timeouts, walks := d'.walks, nextId := d'.nextId }

/-! ### SRES (R333) -/

/-- The set that a fragment group serves. -/
def View.fragSet (v : View) : Option (FragInfo × SetEntry) :=
  v.k.frag.map (fun f => (f, v.part.set f.set))

/-- Registers of SRES: the sample, the colour words, and the depth of a set that has one. -/
def sresAccess (a b : BitVec 7) (s : State) : Access :=
  match s.dev.issuer with
  | none => {}
  | some v => { reads := .v a.toNat :: vs b (match v.fragSet with
      | some (_, e) => e.desc.colours + (if e.desc.den then 1 else 0)
      | none => 1) }

/-- Samples that are covered in a fragment group. -/
def FragInfo.coveredSamples (f : FragInfo) : List Nat := f.lanes.filterMap (fun x => match x with
  | some (i, true) => some i
  | _ => none)

/-- SRES (R333): the group blocks while the raster unit's result buffer for its chunk is full. -/
def execSres (m : SresMode) (a b : BitVec 7) (s : State) : Out :=
  issue (.sres m a b) (sresAccess a b s) (fun v =>
    if v.k.restricted then .trap (setTrap v cREPLAY_VIOLATION 0 0)
    else match v.fragSet with
      | none => .trap (setTrap v cHANDLE_INVALID 2 0)
      | some (f, e) =>
        let idx (l : Nat) : Nat := (v.g.word (v.g.vreg a.toNat) l).toNat
        let doers : List Nat := Mask.lanes (v.act &&& ~~~v.g.helper)
        let bad := doers.filter (fun l => !(f.coveredSamples.contains (idx l)))
        if !bad.isEmpty then
          .trap { setTrap v cSSET_LIMIT 2 (e.handle f.set) with lanes := Mask.ofFn (fun l => bad.contains l) }
        else
          let (op, d) := v.d.newId
          let items := doers.map (fun (l : Nat) =>
            (idx l, (List.range e.desc.colours).map (fun i => v.g.word (v.g.vreg (b.toNat + i)) l),
             v.g.word (v.g.vreg (b.toNat + e.desc.colours)) l))
          match e.work.find? (fun x => decide (x.id = f.work)) with
          | none => .done d v.g
          | some w => if !(e.resultRoom w.chunk w.id) then .wait (.sres f.set w.chunk w.id) else
            let h : Held := { op := op, blk := v.b, work := w.id, chunk := w.chunk, prim := w.prim, mode := m, desc := e.desc, items := items }
            .done (d.modSet v.k.part f.set (fun e => { e with held := e.held ++ [h] })) v.g) s

/-! ### SRES_APPLY (R335) -/

/-- No fragment group of an earlier primitive of the chunk is left, and no earlier result of the chunk is held. -/
def Dev.mayApply (d : Dev) (e : SetEntry) (h : Held) : Bool :=
  e.work.all (fun w => decide (w.chunk ≠ h.chunk ∨ h.work ≤ w.id) || d.workOver w) &&
  e.held.all (fun x => decide (x.chunk ≠ h.chunk) || !(decide (x.work < h.work) || (decide (x.work = h.work ∧ x.blk = h.blk ∧ x.op < h.op))))

/-- Where a set's held result is. -/
def Dev.findHeld (d : Dev) (op : Nat) : Option (Nat × Nat × Held) :=
  d.parts.findSome? (fun p => p.2.sets.findSome? (fun s =>
    (s.2.held.find? (fun h => decide (h.op = op))).map (fun h => (p.1, s.1, h))))

/-- Addresses that a held result reads or writes. -/
def Held.touches (h : Held) : List Nat :=
  let s := h.desc
  h.items.flatMap (fun x =>
    (if s.dfn ≠ 0 ∨ s.dwr then [s.dep + 4 * x.1] else []) ++
    (if s.fmt = 3 then [] else if s.comp then [s.ws + x.1 / 64, s.res + 256 * (x.1 / 64)] else [s.res + 4 * s.colours * x.1]))

/-- A held result is applied: results of the raster unit, at their home slices. A result whose write is refused or poisoned is
dropped. -/
def Dev.applySres (d : Dev) (op : Nat) : Dev :=
  match d.findHeld op with
  | none => d
  | some (part, i, h) =>
    let e := (d.part part).set i
    match d.blocks[h.blk]? with
    | none => d
    | some k =>
      if !(d.mayApply e h) then d
      else
        let r := k.req (clusterOf (k.cores.headD 0)) 9 (4096 * h.blk) d
        match d.probe r .write h.touches with
        | some d' => d'
        | none =>
          let d := if h.desc.comp then
              d.tryRun (applyTile r h.desc h.mode ((h.items.map (fun x => x.1 / 64)).headD 0) h.items)
            else h.items.foldl (fun (d : Dev) x => d.tryRun (applyPlain r h.desc h.mode x)) d
          (d.modSet part i (fun e => { e with held := e.held.filter (fun x => decide (x.op ≠ op)) })).tidy part i

def execSresApply (op : Nat) (s : State) : Out := event (·.applySres op) s

/-! ### RCLEAR and RDECOMP (R338) -/

/-- Issue: on a bound set the instruction takes its place in the stream. -/
def clearIssue (i : Instr) (a : BitVec 7) (s : State) : Out :=
  issue i { reads := [.s a.toNat] } (fun v =>
    let h := v.g.uni a.toNat
    setCheck v h true (fun e =>
      if e.state = 3 then
        hold { v with d := v.d.modSet v.k.part (setIdx h) (fun e => { e with epoch := e.epoch + 1 }) } i [] []
          [h, BitVec.ofNat 32 (e.epoch + 1), 1]
      else hold v i [] [] [h, 0, 0])) s

def execRclear (a : BitVec 7) (s : State) : Out := clearIssue (.rclear a) a s
def execRdecomp (a : BitVec 7) (s : State) : Out := clearIssue (.rdecomp a) a s

/-- One address in every page of a range. -/
def pagesOf (base n : Nat) : List Nat :=
  if n = 0 then [] else base :: ((List.range ((base + n - 1) / 65536 - base / 65536)).map (fun i => (base / 65536 + i + 1) * 65536))

/-- The clear words of one sample. -/
def SetDesc.clearWords (s : SetDesc) : List Word := [s.clrc0, s.clrc1].take s.colours

/-- RCLEAR's writes. -/
def Dev.clearSet (d : Dev) (r : Req) (s : SetDesc) : Dev :=
  let d := if s.comp then (List.range (s.cap / 64)).foldl (fun (d : Dev) t => d.tryRun (wrByte r (s.ws + t) 0x80#8)) d
    else (List.range s.cap).foldl (fun (d : Dev) i => s.clearWords.zipIdx.foldl (fun (d : Dev) (wi : Word × Nat) =>
      d.tryRun (wrWord r (s.res + 4 * s.colours * i + 4 * wi.2) (wi.1, 0))) d) d
  if s.den then (List.range s.cap).foldl (fun (d : Dev) i => d.tryRun (wrWord r (s.dep + 4 * i) (s.clrd, 0))) d else d

/-- RDECOMP's rewriting of one tile. -/
def decompTile (r : Req) (s : SetDesc) (t : Nat) : Rd Unit := do
  let (mode, px) ← readTile r s t
  if slotWords mode ≠ 64 then
    px.zipIdx.forM (fun (wi : (Word × Nat) × Nat) => wrWord r (s.res + 256 * t + 4 * wi.2) wi.1)
    wrByte r (s.ws + t) 0#8

def Dev.decompSet (d : Dev) (r : Req) (s : SetDesc) : Dev :=
  if s.comp then (List.range (s.cap / 64)).foldl (fun (d : Dev) t => d.tryRun (decompTile r s t)) d else d

/-- Pages that RCLEAR writes. -/
def SetDesc.clearPages (s : SetDesc) : List Nat :=
  (if s.comp then pagesOf s.ws (s.cap / 64) else pagesOf s.res (4 * s.colours * s.cap)) ++ (if s.den then pagesOf s.dep (4 * s.cap) else [])

def SetDesc.decompPages (s : SetDesc) : List Nat :=
  if s.comp then pagesOf s.ws (s.cap / 64) ++ pagesOf s.res (4 * s.cap) else []

/-! ### The waits (R316, R318, R320, R327, R338, R344) -/

/-- A wait on a bound set that completes is an acquire at device scope for the group (R344). -/
def Dev.acquireFor (d : Dev) (k : Block) (n : Nat) : Dev := d.acquire (k.coreOf n) .dev

/-- FREE of a set: what a group that waits gets. -/
def freeDone (d : Dev) (part i : Nat) (b : BitVec 7) : UnitRes :=
  .done (d.modSet part i SetEntry.freed) [(.u b.toNat, [(0, 0xFFFFFFFF#32, 0)])]

/-- An RCLEAR or RDECOMP whose turn has come. -/
def clearPerform (d : Dev) (b n : Nat) (k : Block) (pages : List Nat) (f : Dev → Req → Dev) (bound : Bool) : UnitRes :=
  let r := k.req (clusterOf (k.coreOf n)) 9 (4096 * b + n) d
  match d.probe r .write pages with
  | some d' => .wait d'
  | none => let d := f d r; .done (if bound then d.acquireFor k n else d) []

/-- A held set instruction, when its unit acts on it. -/
def setPerform (d : Dev) (b n : Nat) (k : Block) (c : UnitCmd) : UnitRes :=
  let h := nth c.unis 0 0
  let i := setIdx h
  let bad (cause code : Nat) : UnitRes := .trap d { cause := cause, lanes := c.act, info0 := h, info1 := BitVec.ofNat 32 code }
  match (d.part k.part).liveSet h with
  | none => bad cHANDLE_INVALID 0
  | some e =>
    let waited (d : Dev) : Dev := if e.state = 3 ∨ nth c.unis 1 0 = 1#32 then d.acquireFor k n else d
    let afterStream (f : Dev → UnitRes) : UnitRes :=
      if e.state = 1 then .wait d
      else if e.state = 3 then
        (if !e.closed then .wait (d.modSet k.part i (fun e => { e with closed := true }))
         else if d.drained e then f (waited d) else .wait d)
      else f (waited d)
    let afterEpoch (pages : List Nat) (f : Dev → Req → Dev) : UnitRes :=
      let epoch := (nth c.unis 1 0).toNat
      let bound := decide (nth c.unis 2 0 = 1#32)
      if bound && decide (e.state = 3) && !(d.drainedTo e epoch && (d.clears k.part h).all (fun x => decide (epoch ≤ x))) then .wait d
      else clearPerform d b n k pages f bound
    match c.instr with
    | .ssetNew _ dst => afterStream (fun d => freeDone d k.part i dst)
    | .ssetBuild _ => afterStream (fun d => .done (d.modSet k.part i SetEntry.startBuild) [])
    | .ssetBind _ =>
      if e.state = 1 then .wait d
      else if e.state = 3 then .done d []
      else if e.state ≠ 2 then bad cHANDLE_INVALID 1
      else if 16 ≤ (d.part k.part).boundSets then bad cSSET_LIMIT 1
      else .done (d.modSet k.part i SetEntry.bind) []
    | .rclear _ => afterEpoch e.desc.clearPages (fun d r => d.clearSet r e.desc)
    | .rdecomp _ => afterEpoch e.desc.decompPages (fun d r => d.decompSet r e.desc)
    | _ => .wait d

/-- Instructions that the raster units perform while their group waits. -/
def isSetOp (i : Instr) : Bool :=
  match i with
  | .ssetNew _ _ => true
  | .ssetBuild _ => true
  | .ssetBind _ => true
  | .rclear _ => true
  | .rdecomp _ => true
  | _ => false

def Dev.streamDrain (d : Dev) (b n : Nat) : Dev :=
  d.unitAct b n (fun d b n k c => if isSetOp c.instr then setPerform d b n k c else .wait d)

def execStreamDrainComplete (blk grp : Nat) (s : State) : Out := event (·.streamDrain blk grp) s

/-- Groups that wait for a set. -/
def Dev.setWaiters (d : Dev) (part i : Nat) : List (Nat × Nat) :=
  d.blocks.zipIdx.flatMap (fun (kb : Block × Nat) => if kb.1.part ≠ part then [] else
    (kb.1.groups.zipIdx.filter (fun (gn : Group × Nat) => match gn.1.cmd with
      | some c => (match c.instr with
        | .ssetNew _ _ => decide (setIdx (nth c.unis 0 0) = i)
        | .ssetBuild _ => decide (setIdx (nth c.unis 0 0) = i)
        | .ssetBind _ => decide (setIdx (nth c.unis 0 0) = i)
        | _ => false)
      | none => false)).map (fun (gn : Group × Nat) => (kb.2, gn.2)))

/-- SSET_BUILD_COMPLETE: the build ends, and the groups that wait for it go on. -/
def execSsetBuildComplete (part : BitVec 3) (set : BitVec 8) (s : State) : Out :=
  event (fun d =>
    let d := d.buildEnd part.toNat set.toNat
    if ((d.part part.toNat).set set.toNat).state = 1 then d
    else (d.setWaiters part.toNat set.toNat).foldl (fun (d : Dev) bn => d.streamDrain bn.1 bn.2) d) s

end Sys2Proof.Machine
end

