-- ==== Sys2Proof/Machine/Tex.lean ====
section
/-! DEFINITION. Texture units: TEX and TEXG (R339-R342). -/

namespace Sys2Proof.Machine

open Sys2Proof

/-! ### Descriptors and texels (R339) -/

/-- A texture descriptor's fields (Table 13-10). -/
structure Texture where
  base : Nat
  w : Nat
  h : Nat
  amax : Nat
  wru : Nat
  wrv : Nat
  tiled : Bool
  lvl : Nat
  fmt : Nat
deriving DecidableEq, Repr

/-- W0 and H0 are the width and the height: the fields hold them less 1 (log 41). -/
def textureOf (l : List Word) : Texture :=
  let t3 := uword l 3
  { base := addr52 l 0, w := uword l 2 % 65536 + 1, h := uword l 2 / 65536 + 1, amax := t3 / 2 ^ 13 % 16, wru := t3 / 512 % 4,
    wrv := t3 / 2048 % 4, tiled := decide (t3 / 256 % 2 = 1), lvl := t3 / 16 % 16, fmt := t3 % 16 }

/-- Words of a descriptor that meet Table 13-10. -/
def texOk (l : List Word) : List Bool :=
  let t3 := uword l 3
  [decide (uword l 0 % 256 = 0), hiOk l 1, true,
   decide (t3 / 2 ^ 17 = 0 ∧ t3 / 2048 % 4 ≠ 3 ∧ t3 / 512 % 4 ≠ 3 ∧ t3 % 16 < 3)]

def Texture.bytes (t : Texture) : Nat := if t.fmt = 1 then 8 else 4
def Texture.wl (t : Texture) (l : Nat) : Nat := max 1 (t.w / 2 ^ l)
def Texture.hl (t : Texture) (l : Nat) : Nat := max 1 (t.h / 2 ^ l)
def Texture.pitch (t : Texture) (l : Nat) : Nat := (t.wl l * t.bytes + 15) / 16 * 16

def Texture.size (t : Texture) (l : Nat) : Nat :=
  if t.tiled then (t.wl l + 7) / 8 * ((t.hl l + 7) / 8) * (64 * t.bytes) else t.hl l * t.pitch l

/-- Where a level starts. -/
def Texture.start (t : Texture) : Nat → Nat
  | 0 => t.base
  | l + 1 => t.start l + (t.size l + 255) / 256 * 256

def Texture.texel (t : Texture) (l x y : Nat) : Nat :=
  t.start l + (if t.tiled then (y / 8 * ((t.wl l + 7) / 8) + x / 8) * (64 * t.bytes) + morton (x % 8) (y % 8) 3 * t.bytes
    else y * t.pitch l + x * t.bytes)

/-- Wrapping an index. -/
def wrap (mode w : Nat) (i : Int) : Nat :=
  match mode with
  | 0 => (i % (w : Int)).toNat
  | 1 => (min i ((w : Int) - 1)).toNat
  | _ => let j := (i % (2 * w : Int)).toNat; if j < w then j else 2 * w - 1 - j

/-! ### Coordinates and LOD (R340) -/

/-- The nearest integer to n/d, ties to even. -/
def roundRatio (n : Int) (d : Nat) : Int :=
  let q := n / (d : Int)
  let r := n - q * (d : Int)
  if 2 * r < (d : Int) then q else if (d : Int) < 2 * r then q + 1 else if q % 2 = 0 then q else q + 1

/-- A coordinate: a NaN or an infinity reads as 0. -/
def coordVal (w : Word) : FVal := match f32.read w.toNat with
  | .fin n m e => .fin n m e
  | _ => .zero false

/-- A value as an integer times a power of two. -/
def FVal.dyadic : FVal → Int × Int
  | .fin n m e => (signed n m, e)
  | _ => (0, 0)

def FVal.finite : FVal → Bool
  | .nan _ => false
  | .inf _ => false
  | _ => true

/-- 256·X for a level: u·wl − 0.5 with the aniso offset (2k + 1 − N)/(2N) of the derivative, rounded once. -/
def place (u deriv : FVal) (dim wl n k : Nat) : Int :=
  let a := u.dyadic
  let b := deriv.dyadic
  let s := max (max (-a.2) (-b.2)) 0
  let den := 2 * n * dim * 2 ^ s.toNat
  let off : Int := 2 * (k : Int) + 1 - (n : Int)
  roundRatio (256 * (wl : Int) * (a.1 * 2 ^ (a.2 + s).toNat * (2 * n * dim : Int) + off * b.1 * 2 ^ (b.2 + s).toNat) -
    128 * (den : Int)) den

/-- λ rounded to 1/256 and clamped; none for a NaN. -/
def lodFix (lvl : Nat) (v : FVal) : Option Nat :=
  match v with
  | .nan _ => none
  | .inf n => some (if n then 0 else 256 * lvl)
  | .zero _ => some 0
  | .fin n m e => some (min (256 * lvl) (roundRatio (signed n (256 * m * 2 ^ e.toNat)) (2 ^ (-e).toNat)).toNat)

/-- A lookup's choice: λ in 1/256, N, and the derivative along which aniso samples. -/
structure Lod where
  lam : Nat
  n : Nat
  du : FVal
  dv : FVal
deriving DecidableEq, Repr

/-- log₂ of the square root of x/N², within FLG2's bound. -/
def lodLog (x : FVal) (n : Nat) : FVal :=
  match x with
  | .fin _ m e =>
    let y := log2Real (m * 2 ^ 200 / (n * n)) (e - 200)
    let key := 16 * (((m * 4096 + (e + 2048).toNat) * 32) + n) + 6
    f32.read (approxRes key 0 false (some 2) { y with e := y.e - 1 }).w.toNat
  | .zero _ => .inf true
  | v => v

/-- The device's LOD from the quad's derivatives. -/
def TexArgs.quadLod (t : TexArgs) (d : Texture) (l : Nat) : Option Lod :=
  let mode := rndMode .gcr t.gcr
  let ftz := gcrFtz t.gcr
  let at_ (m : Nat) : Word × Word := ((t.deriv.find? (fun x => decide (x.1 = m))).map (·.2)).getD (0, 0)
  let fin (w : Word) : Word := match f32.read w.toNat with
    | .nan _ => 0
    | .inf _ => 0
    | _ => w
  let dim (n : Nat) : Word := BitVec.ofNat 32 (f32.write (FVal.ofInt n))
  let u (m : Nat) : Word := (fmulV mode ftz (fin (at_ m).1) (dim d.w)).w
  let v (m : Nat) : Word := (fmulV mode ftz (fin (at_ m).2) (dim d.h)).w
  let dx (f : Nat → Word) : FVal := f32.read (fsubV mode ftz (f (l ||| 1)) (f (l / 2 * 2))).w.toNat
  let dy (f : Nat → Word) : FVal := f32.read (fsubV mode ftz (f (l ||| 2)) (f ((l ||| 2) - 2))).w.toNat
  let sq (a b : FVal) : FVal := (addExact .rne (mulExact a a).v (mulExact b b).v).v
  let px := sq (dx u) (dx v)
  let py := sq (dy u) (dy v)
  if px.isNan || py.isNan then none
  else
    let yMajor := FVal.lt false px py
    let major := if yMajor then py else px
    let minor := if yMajor then px else py
    if t.filter = .aniso then
      match minor with
      | .inf _ => none
      | _ =>
        let enough (n : Nat) : Bool := !(FVal.lt false (mulExact minor (.fin false (n * n) 0)).v major)
        let n := match minor with
          | .zero _ => 1
          | _ => ((List.range d.amax).find? (fun i => enough (i + 1))).map (· + 1) |>.getD (d.amax + 1)
        let du := if yMajor then dy u else dx u
        let dv := if yMajor then dy v else dx v
        if 1 < n ∧ !(du.finite && dv.finite) then none
        else (lodFix d.lvl (lodLog major n)).map (fun lam => ⟨lam, n, if n = 1 then .zero false else du, if n = 1 then .zero false else dv⟩)
    else (lodFix d.lvl (lodLog major 1)).map (fun lam => ⟨lam, 1, .zero false, .zero false⟩)

/-! ### Taps -/

/-- A texel with its weight. -/
structure Tap where
  level : Nat
  x : Nat
  y : Nat
  weight : Nat
deriving DecidableEq, Repr

def Texture.tap (d : Texture) (l : Nat) (x y : Int) (w : Nat) : Tap :=
  ⟨l, wrap d.wru (d.wl l) x, wrap d.wrv (d.hl l) y, w⟩

/-- Four texels around a position given in 1/256. -/
def Texture.bilinear (d : Texture) (l : Nat) (x y : Int) (w : Nat) : List Tap :=
  let fx := (x % 256).toNat
  let fy := (y % 256).toNat
  let i := x / 256
  let j := y / 256
  [d.tap l i j (w * (256 - fx) * (256 - fy)), d.tap l (i + 1) j (w * fx * (256 - fy)), d.tap l i (j + 1) (w * (256 - fx) * fy),
   d.tap l (i + 1) (j + 1) (w * fx * fy)]

/-- A trilinear lookup at position k of N. -/
def Texture.trilinear (d : Texture) (u v : FVal) (o : Lod) (k : Nat) : List Tap :=
  let l := o.lam / 256
  let f := o.lam % 256
  let at_ (l w : Nat) : List Tap := d.bilinear l (place u o.du d.w (d.wl l) o.n k) (place v o.dv d.h (d.hl l) o.n k) w
  at_ l (256 - f) ++ (if l < d.lvl then at_ (l + 1) f else [])

/-- The level that point and bilinear lookups use. -/
def Lod.level (o : Lod) : Nat := (roundRatio (o.lam : Int) 256).toNat

/-- Texels of a lookup with their weights, and what the weights sum to. -/
def Texture.taps (d : Texture) (f : TexFilter) (u v : FVal) (o : Lod) : List Tap × Nat :=
  let l := o.level
  let x := place u (.zero false) d.w (d.wl l) 1 0
  let y := place v (.zero false) d.h (d.hl l) 1 0
  match f with
  | .point => ([d.tap l ((x + 128) / 256) ((y + 128) / 256) 1], 1)
  | .bil => (d.bilinear l x y 1, 65536)
  | .tri => (d.trilinear u v { o with n := 1 } 0, 2 ^ 24)
  | .aniso => ((List.range o.n).flatMap (d.trilinear u v o), 2 ^ 24 * o.n)

/-! ### Texel values and sums -/

/-- A channel of a texel, over 255 for RGBA8. -/
def texelChan (fmt : Nat) (ws : List Word) (ch : Nat) : FVal :=
  match fmt with
  | 0 => FVal.ofInt (chan8 (nth ws 0 0) ch)
  | 1 => f16.read (half (nth ws (ch / 2) 0) (ch % 2))
  | _ => if ch = 0 then f32.read (nth ws 0 0).toNat else if ch = 3 then .fin false 1 0 else .zero false

/-- A word whose bits in `open_` the spec does not give. -/
structure Part32 where
  w : Word
  open_ : Word
deriving DecidableEq, Repr

/-- The exact weighted sum, rounded once. A NaN texel gives the canonical NaN. No value is stated where an infinite texel has
weight 0 or meets its opposite, nor the sign of a zero that rests on a texel −0 (log 43). -/
def weighted (den : Nat) (l : List (Nat × FVal)) : Part32 :=
  if l.any (fun x => x.2.isNan) then ⟨nanWord, 0⟩
  else if l.any (fun x => !x.2.finite) then
    (if l.any (fun x => !x.2.finite && decide (x.1 = 0)) || (l.any (fun x => decide (x.2 = .inf true)) && l.any (fun x => decide (x.2 = .inf false)))
     then ⟨0, BitVec.allOnes 32⟩ else ⟨infWord (l.any (fun x => decide (x.2 = .inf true))), 0⟩)
  else
    let q := l.foldl (fun (q : Int) x => min q x.2.dyadic.2) 0
    let s := l.foldl (fun (s : Int) x => s + (x.1 : Int) * x.2.dyadic.1 * 2 ^ (x.2.dyadic.2 - q).toNat) 0
    if s = 0 then ⟨0, if l.any (fun x => decide (x.2 = .zero true)) then 0x80000000#32 else 0⟩
    else ⟨ratioWord s (den * 2 ^ (-q).toNat), 0⟩

def Texture.scale (d : Texture) : Nat := if d.fmt = 0 then 255 else 1

/-! ### Reads -/

/-- A texel's words; a read that fails translation is poisoned (R342). -/
def rdTexel (r : Req) (d : Texture) (t : Tap) : Rd (List (Word × Nat)) :=
  (List.range (d.bytes / 4)).mapM (fun i => fun dv =>
    let a := d.texel t.level t.x t.y + 4 * i
    match (rdWord r a) dv with
    | (.error (.perm _), dv) => (.ok (poisoned dv a 0), dv)
    | x => x)

/-- A fresh free word where bits are open. -/
def closePart (p : Part32) : Rd Word := fun dv =>
  if p.open_ = 0 then (.ok p.w, dv)
  else (.ok ((p.w &&& ~~~p.open_) ||| (Config.freeWord dv.fresh &&& p.open_)), { dv with fresh := dv.fresh + 1 })

/-- The four words of one lane. -/
def texLane (r : Req) (t : TexArgs) (lane : Nat) (uw vw lw : Word) : Rd (List (Word × Nat)) := do
  let d := textureOf t.desc
  let u := coordVal uw
  let v := coordVal vw
  let finish (tap : List Tap) (f : List (List Word) → List Part32) : Rd (List (Word × Nat)) := do
    let texels ← tap.mapM (rdTexel r d)
    match (texels.flatten.map (·.2)).find? (fun p => decide (p ≠ 0)) with
    | some p => (List.range 4).mapM (fun i => do
        let dv ← get
        pure (poisoned dv (32 * lane + i) (p - 1)))
    | none => (f (texels.map (fun x => x.map (·.1)))).mapM (fun p => do
        let w ← closePart p
        pure (w, 0))
  match t.gather with
  | some c =>
    let x := place u (.zero false) d.w (d.wl 0) 1 0 / 256
    let y := place v (.zero false) d.h (d.hl 0) 1 0 / 256
    finish [d.tap 0 x (y + 1) 1, d.tap 0 (x + 1) (y + 1) 1, d.tap 0 (x + 1) y 1, d.tap 0 x y 1]
      (fun ts => ts.map (fun ws => weighted d.scale [(1, texelChan d.fmt ws c)]))
  | none =>
    let o : Option Lod := if t.lod then (lodFix d.lvl (f32.read lw.toNat)).map (fun lam => ⟨lam, 1, .zero false, .zero false⟩)
      else t.quadLod d lane
    match o with
    | none => (List.range 4).mapM (fun _ => do
        let w ← closePart ⟨0, BitVec.allOnes 32⟩
        pure (w, 0))
    | some o =>
      let (taps, den) := d.taps t.filter u v o
      finish taps (fun ts => (List.range 4).map (fun ch =>
        weighted (den * (if d.fmt = 0 then 255 else 1)) ((taps.zip ts).map (fun (x : Tap × List Word) => (x.1.weight, texelChan d.fmt x.2 ch)))))

/-! ### TEX and TEXG -/

/-- A texture instruction at issue: its descriptor is checked, its inputs are read, and its destinations marked empty. -/
def texIssue (i : Instr) (gather : Option Nat) (lod : Bool) (f : TexFilter) (d a b : BitVec 7) (s : State) : Out :=
  issue i { reads := us a.toNat 4 ++ vs b (if lod then 3 else 2), var := vs d 4 } (fun v =>
    let desc := uniList v.g a 4
    match firstBad (texOk desc) with
    | some n => .trap (illegal (opWord i) v.act n)
    | none =>
      let (op, dv) := v.d.newId
      let regs : List RegRef := (List.range 4).map (fun j => v.g.vreg (d.toNat + j))
      let word (j l : Nat) : Word := v.g.word (v.g.vreg (b.toNat + j)) l
      let args : TexArgs := { gather := gather, lod := lod, filter := f, desc := desc,
                              coords := (Mask.lanes v.act).map (fun (l : Nat) => (l, word 0 l, word 1 l, if lod then word 2 l else 0)),
                              deriv := (List.range 32).map (fun (l : Nat) => (l, word 0 l, word 1 l)), gcr := v.g.gcr }
      let g := regs.foldl (fun (g : Group) x => g.markEmpty x op) v.g
      .done { dv with cmds := dv.cmds ++ [{ op := op, blk := v.b, grp := v.n, act := v.act, regs := regs, kind := .tex args }] } g) s

def execTex (lod : Bool) (f : TexFilter) (d a b : BitVec 7) (s : State) : Out := texIssue (.tex lod f d a b) none lod f d a b s
def execTexg (c : BitVec 2) (d a b : BitVec 7) (s : State) : Out := texIssue (.texg c d a b) (some c.toNat) false .bil d a b s

/-- TEX_COMPLETE: the texels are read and the filtered values land; a successor's lookup waits for its
    predecessor's commit (R51). -/
def Dev.texDone (d : Dev) (op : Nat) : Dev :=
  match d.cmds.find? (fun c => decide (c.op = op) && d.predDone c.blk) with
  | none => d
  | some c =>
    match c.kind, d.blocks[c.blk]? with
    | .tex t, some k =>
      let r := k.req (clusterOf (k.coreOf c.grp)) 3 (64 * op) d
      let run : Rd (List (Nat × List (Word × Nat))) := t.coords.mapM (fun (x : Nat × Word × Word × Word) => do
        let ws ← texLane r t x.1 x.2.1 x.2.2.1 x.2.2.2
        pure (x.1, ws))
      (match run.run' d with
       | (.ok vals, d) =>
         ({ d with cmds := d.cmds.map (fun (e : Cmd) => if e.op = op then { e with kind := .answer vals } else e) } : Dev).settle
       | (.error _, d) => d)
    | _, _ => d

def execTexComplete (op : Nat) (s : State) : Out := event (·.texDone op) s

end Sys2Proof.Machine
end

