-- ==== Sys2Proof/Machine/Dispatch.lean ====
section
/-! DEFINITION. One arm per row of the opcode table: each names its meaning. -/

namespace Sys2Proof.Machine

open Sys2Proof

def exec (i : Instr) (s : State) : Host.Outcome State Fault Refusal :=
  match i with
  | .iadd m d a b => Sys2Proof.Machine.execIadd m d a b s
  | .iaddImm m d a imm => Sys2Proof.Machine.execIaddImm m d a imm s
  | .isub m d a b => Sys2Proof.Machine.execIsub m d a b s
  | .isubImm m d a imm => Sys2Proof.Machine.execIsubImm m d a imm s
  | .imul m d a b => Sys2Proof.Machine.execImul m d a b s
  | .imulImm m d a imm => Sys2Proof.Machine.execImulImm m d a imm s
  | .imad sat d a b => Sys2Proof.Machine.execImad sat d a b s
  | .imadImm sat d a imm => Sys2Proof.Machine.execImadImm sat d a imm s
  | .imin n d a b => Sys2Proof.Machine.execImin n d a b s
  | .iminImm n d a imm => Sys2Proof.Machine.execIminImm n d a imm s
  | .imax n d a b => Sys2Proof.Machine.execImax n d a b s
  | .imaxImm n d a imm => Sys2Proof.Machine.execImaxImm n d a imm s
  | .iabs sat d a => Sys2Proof.Machine.execIabs sat d a s
  | .ineg sat d a => Sys2Proof.Machine.execIneg sat d a s
  | .and d a b => Sys2Proof.Machine.execAnd d a b s
  | .andImm d a imm => Sys2Proof.Machine.execAndImm d a imm s
  | .or d a b => Sys2Proof.Machine.execOr d a b s
  | .orImm d a imm => Sys2Proof.Machine.execOrImm d a imm s
  | .xor d a b => Sys2Proof.Machine.execXor d a b s
  | .xorImm d a imm => Sys2Proof.Machine.execXorImm d a imm s
  | .andn d a b => Sys2Proof.Machine.execAndn d a b s
  | .andnImm d a imm => Sys2Proof.Machine.execAndnImm d a imm s
  | .shl d a b => Sys2Proof.Machine.execShl d a b s
  | .shlImm d a imm => Sys2Proof.Machine.execShlImm d a imm s
  | .shr arith d a b => Sys2Proof.Machine.execShr arith d a b s
  | .shrImm arith d a imm => Sys2Proof.Machine.execShrImm arith d a imm s
  | .rotl d a b => Sys2Proof.Machine.execRotl d a b s
  | .rotlImm d a imm => Sys2Proof.Machine.execRotlImm d a imm s
  | .bfx sf d a b => Sys2Proof.Machine.execBfx sf d a b s
  | .bfi d a b => Sys2Proof.Machine.execBfi d a b s
  | .popc d a => Sys2Proof.Machine.execPopc d a s
  | .clz d a => Sys2Proof.Machine.execClz d a s
  | .brev d a => Sys2Proof.Machine.execBrev d a s
  | .lea sh d a b => Sys2Proof.Machine.execLea sh d a b s
  | .leaImm sh d a imm => Sys2Proof.Machine.execLeaImm sh d a imm s
  | .add64 zx d a b => Sys2Proof.Machine.execAdd64 zx d a b s
  | .add64Imm zx d a imm => Sys2Proof.Machine.execAdd64Imm zx d a imm s
  | .icmp m c n p a b => Sys2Proof.Machine.execIcmp m c n p a b s
  | .icmpImm m c n p a imm => Sys2Proof.Machine.execIcmpImm m c n p a imm s
  | .sel p d a b => Sys2Proof.Machine.execSel p d a b s
  | .movi f d imm => Sys2Proof.Machine.execMovi f d imm s
  | .mov d a => Sys2Proof.Machine.execMov d a s
  | .ptov p d => Sys2Proof.Machine.execPtov p d s
  | .vtop p a => Sys2Proof.Machine.execVtop p a s
  | .fadd r d a b => Sys2Proof.Machine.execFadd r d a b s
  | .fsub r d a b => Sys2Proof.Machine.execFsub r d a b s
  | .fmul r d a b => Sys2Proof.Machine.execFmul r d a b s
  | .ffma r d a b => Sys2Proof.Machine.execFfma r d a b s
  | .ffms r d a b => Sys2Proof.Machine.execFfms r d a b s
  | .fmin nan d a b => Sys2Proof.Machine.execFmin nan d a b s
  | .fmax nan d a b => Sys2Proof.Machine.execFmax nan d a b s
  | .fcmp m c p a b => Sys2Proof.Machine.execFcmp m c p a b s
  | .funa f d a => Sys2Proof.Machine.execFuna f d a s
  | .frcp d a => Sys2Proof.Machine.execFrcp d a s
  | .frsq d a => Sys2Proof.Machine.execFrsq d a s
  | .fsqrt r d a => Sys2Proof.Machine.execFsqrt r d a s
  | .fex2 d a => Sys2Proof.Machine.execFex2 d a s
  | .flg2 d a => Sys2Proof.Machine.execFlg2 d a s
  | .fsinr d a => Sys2Proof.Machine.execFsinr d a s
  | .fcosr d a => Sys2Proof.Machine.execFcosr d a s
  | .padd2 t d a b => Sys2Proof.Machine.execPadd2 t d a b s
  | .pmul2 t d a b => Sys2Proof.Machine.execPmul2 t d a b s
  | .pfma2 t d a b => Sys2Proof.Machine.execPfma2 t d a b s
  | .pminmax2 max t d a b => Sys2Proof.Machine.execPminmax2 max t d a b s
  | .cvt sat r d a c => Sys2Proof.Machine.execCvt sat r d a c s
  | .cvtp t d a b => Sys2Proof.Machine.execCvtp t d a b s
  | .qnt f d a b => Sys2Proof.Machine.execQnt f d a b s
  | .dqnt f d a b => Sys2Proof.Machine.execDqnt f d a b s
  | .shfl m d a b => Sys2Proof.Machine.execShfl m d a b s
  | .shflImm m d a imm => Sys2Proof.Machine.execShflImm m d a imm s
  | .xgath k d a b => Sys2Proof.Machine.execXgath k d a b s
  | .qx f d a => Sys2Proof.Machine.execQx f d a s
  | .voteAnyAll all p q b => Sys2Proof.Machine.execVoteAnyAll all p q b s
  | .voteBallot d q b => Sys2Proof.Machine.execVoteBallot d q b s
  | .voteEq p a b => Sys2Proof.Machine.execVoteEq p a b s
  | .matchLanes d a => Sys2Proof.Machine.execMatchLanes d a s
  | .matchCount d a b => Sys2Proof.Machine.execMatchCount d a b s
  | .gred f d a b => Sys2Proof.Machine.execGred f d a b s
  | .scan excl m d a b => Sys2Proof.Machine.execScan excl m d a b s
  | .sadd d a b => Sys2Proof.Machine.execSadd d a b s
  | .ssub d a b => Sys2Proof.Machine.execSsub d a b s
  | .smul f d a b => Sys2Proof.Machine.execSmul f d a b s
  | .smad d a b => Sys2Proof.Machine.execSmad d a b s
  | .sand d a b => Sys2Proof.Machine.execSand d a b s
  | .sor d a b => Sys2Proof.Machine.execSor d a b s
  | .sxor d a b => Sys2Proof.Machine.execSxor d a b s
  | .sshl d a b => Sys2Proof.Machine.execSshl d a b s
  | .sshr arith d a b => Sys2Proof.Machine.execSshr arith d a b s
  | .sminmax n max d a b => Sys2Proof.Machine.execSminmax n max d a b s
  | .scmp c d a b => Sys2Proof.Machine.execScmp c d a b s
  | .scmpn c d a b => Sys2Proof.Machine.execScmpn c d a b s
  | .saddi d a imm => Sys2Proof.Machine.execSaddi d a imm s
  | .smovi sf d imm => Sys2Proof.Machine.execSmovi sf d imm s
  | .smovb3 f d imm => Sys2Proof.Machine.execSmovb3 f d imm s
  | .smov d a => Sys2Proof.Machine.execSmov d a s
  | .v2s chk d a => Sys2Proof.Machine.execV2s chk d a s
  | .v2sLane d a l => Sys2Proof.Machine.execV2sLane d a l s
  | .srd d c => Sys2Proof.Machine.execSrd d c s
  | .sctl a => Sys2Proof.Machine.execSctl a s
  | .sld l d a imm => Sys2Proof.Machine.execSld l d a imm s
  | .sst l d a imm => Sys2Proof.Machine.execSst l d a imm s
  | .sflg a => Sys2Proof.Machine.execSflg a s
  | .jget d j => Sys2Proof.Machine.execJget d j s
  | .ld l sz d a o => Sys2Proof.Machine.execLd l sz d a o s
  | .st l sz d a o => Sys2Proof.Machine.execSt l sz d a o s
  | .ldln l k d a o => Sys2Proof.Machine.execLdln l k d a o s
  | .atm l f d a o => Sys2Proof.Machine.execAtm l f d a o s
  | .cas l d a o => Sys2Proof.Machine.execCas l d a o s
  | .fence sf k => Sys2Proof.Machine.execFence sf k s
  | .pbarInit l d a o => Sys2Proof.Machine.execPbarInit l d a o s
  | .pbarArr l a o => Sys2Proof.Machine.execPbarArr l a o s
  | .pbarWait l ph a o => Sys2Proof.Machine.execPbarWait l ph a o s
  | .copy c a => Sys2Proof.Machine.execCopy c a s
  | .copy2 c a => Sys2Proof.Machine.execCopy2 c a s
  | .wptr c d => Sys2Proof.Machine.execWptr c d s
  | .cwait c a => Sys2Proof.Machine.execCwait c a s
  | .crst c => Sys2Proof.Machine.execCrst c s
  | .fatom f d a b => Sys2Proof.Machine.execFatom f d a b s
  | .trayPush nb d a b => Sys2Proof.Machine.execTrayPush nb d a b s
  | .trayPopb nb d a => Sys2Proof.Machine.execTrayPopb nb d a s
  | .trayPopbSteal nb d a b => Sys2Proof.Machine.execTrayPopbSteal nb d a b s
  | .trayInsd d a b => Sys2Proof.Machine.execTrayInsd d a b s
  | .trayQry q d a => Sys2Proof.Machine.execTrayQry q d a s
  | .trayClose a => Sys2Proof.Machine.execTrayClose a s
  | .mpath d a b => Sys2Proof.Machine.execMpath d a b s
  | .tex lod f d a b => Sys2Proof.Machine.execTex lod f d a b s
  | .texg c d a b => Sys2Proof.Machine.execTexg c d a b s
  | .ssetNew a b => Sys2Proof.Machine.execSsetNew a b s
  | .ssetBuild a => Sys2Proof.Machine.execSsetBuild a s
  | .ssetBind a => Sys2Proof.Machine.execSsetBind a s
  | .ssetQry q d a => Sys2Proof.Machine.execSsetQry q d a s
  | .prim a b => Sys2Proof.Machine.execPrim a b s
  | .sres m a b => Sys2Proof.Machine.execSres m a b s
  | .rclear a => Sys2Proof.Machine.execRclear a s
  | .rdecomp a => Sys2Proof.Machine.execRdecomp a s
  | .permit a => Sys2Proof.Machine.execPermit a s
  | .mdecl g a b => Sys2Proof.Machine.execMdecl g a b s
  | .mma f g => Sys2Proof.Machine.execMma f g s
  | .mopmap f m a => Sys2Proof.Machine.execMopmap f m a s
  | .mopf clu => Sys2Proof.Machine.execMopf clu s
  | .macq sf t => Sys2Proof.Machine.execMacq sf t s
  | .mrel t => Sys2Proof.Machine.execMrel t s
  | .mzero t => Sys2Proof.Machine.execMzero t s
  | .mwait t => Sys2Proof.Machine.execMwait t s
  | .mrd k d t b => Sys2Proof.Machine.execMrd k d t b s
  | .mrdStat d t => Sys2Proof.Machine.execMrdStat d t s
  | .mwr k d t b => Sys2Proof.Machine.execMwr k d t b s
  | .mdrain f t b => Sys2Proof.Machine.execMdrain f t b s
  | .ltNew d a => Sys2Proof.Machine.execLtNew d a s
  | .ltFork d a => Sys2Proof.Machine.execLtFork d a s
  | .ltAtt auto a b => Sys2Proof.Machine.execLtAtt auto a b s
  | .ltDet a b => Sys2Proof.Machine.execLtDet a b s
  | .ltFold a b => Sys2Proof.Machine.execLtFold a b s
  | .ltQry f d a => Sys2Proof.Machine.execLtQry f d a s
  | .bra c p imm => Sys2Proof.Machine.execBra c p imm s
  | .brau z a imm => Sys2Proof.Machine.execBrau z a imm s
  | .bras a => Sys2Proof.Machine.execBras a s
  | .brx a => Sys2Proof.Machine.execBrx a s
  | .call l imm => Sys2Proof.Machine.execCall l imm s
  | .callFar l a => Sys2Proof.Machine.execCallFar l a s
  | .ret a => Sys2Proof.Machine.execRet a s
  | .jset j a => Sys2Proof.Machine.execJset j a s
  | .join j => Sys2Proof.Machine.execJoin j s
  | .leave j => Sys2Proof.Machine.execLeave j s
  | .wait j => Sys2Proof.Machine.execWait j s
  | .waitT j a p => Sys2Proof.Machine.execWaitT j a p s
  | .waitTimeout blk grp j => Sys2Proof.Machine.execWaitTimeout blk grp j s
  | .bar role imm => Sys2Proof.Machine.execBar role imm s
  | .barArr role imm => Sys2Proof.Machine.execBarArr role imm s
  | .barWait role imm => Sys2Proof.Machine.execBarWait role imm s
  | .exit => Sys2Proof.Machine.execExit s
  | .adv a b => Sys2Proof.Machine.execAdv a b s
  | .yield => Sys2Proof.Machine.execYield s
  | .nop => Sys2Proof.Machine.execNop s
  | .trap imm => Sys2Proof.Machine.execTrap imm s
  | .bkpt imm => Sys2Proof.Machine.execBkpt imm s
  | .sysrd d sf => Sys2Proof.Machine.execSysrd d sf s
  | .syswr a sf => Sys2Proof.Machine.execSyswr a sf s
  | .rthFix => Sys2Proof.Machine.execRthFix s
  | .rthSkip => Sys2Proof.Machine.execRthSkip s
  | .rthRetry => Sys2Proof.Machine.execRthRetry s
  | .rthKill => Sys2Proof.Machine.execRthKill s
  | .tlbinv a => Sys2Proof.Machine.execTlbinv a s
  | .scrub a => Sys2Proof.Machine.execScrub a s
  | .ctxsv a => Sys2Proof.Machine.execCtxsv a s
  | .ctxrs a => Sys2Proof.Machine.execCtxrs a s
  | .queueReadEntry q => Sys2Proof.Machine.execQueueReadEntry q s
  | .launchStart l => Sys2Proof.Machine.execLaunchStart l s
  | .distributeBlocks l child => Sys2Proof.Machine.execDistributeBlocks l child s
  | .blockPlace l cluster cores => Sys2Proof.Machine.execBlockPlace l cluster cores s
  | .drainMarkTimeout core => Sys2Proof.Machine.execDrainMarkTimeout core s
  | .stagingReadComplete blk => Sys2Proof.Machine.execStagingReadComplete blk s
  | .blockStart blk => Sys2Proof.Machine.execBlockStart blk s
  | .blockCapture blk => Sys2Proof.Machine.execBlockCapture blk s
  | .commitPoint blk => Sys2Proof.Machine.execCommitPoint blk s
  | .commitApplyDone blk => Sys2Proof.Machine.execCommitApplyDone blk s
  | .advSuccessorStart blk => Sys2Proof.Machine.execAdvSuccessorStart blk s
  | .blockRestore blk cores => Sys2Proof.Machine.execBlockRestore blk cores s
  | .issueSlotArbitration core slot blk grp => Sys2Proof.Machine.execIssueSlotArbitration core slot blk grp s
  | .scratchLoadComplete op reg => Sys2Proof.Machine.execScratchLoadComplete op reg s
  | .scratchStorePerformed op => Sys2Proof.Machine.execScratchStorePerformed op s
  | .scratchAtomicPerformed op => Sys2Proof.Machine.execScratchAtomicPerformed op s
  | .l1SectorFill core miss => Sys2Proof.Machine.execL1SectorFill core miss s
  | .fsqrtComplete op => Sys2Proof.Machine.execFsqrtComplete op s
  | .fatomPerformed op lane => Sys2Proof.Machine.execFatomPerformed op lane s
  | .copyCommandStart blk c => Sys2Proof.Machine.execCopyCommandStart blk c s
  | .copyPieceDelivered blk c piece => Sys2Proof.Machine.execCopyPieceDelivered blk c piece s
  | .passChoose clu => Sys2Proof.Machine.execPassChoose clu s
  | .permitGrant die => Sys2Proof.Machine.execPermitGrant die s
  | .modeSwitchDone clu => Sys2Proof.Machine.execModeSwitchDone clu s
  | .tileFetchComplete clu ent => Sys2Proof.Machine.execTileFetchComplete clu ent s
  | .passComplete clu ent => Sys2Proof.Machine.execPassComplete clu ent s
  | .tileAcquireServed clu => Sys2Proof.Machine.execTileAcquireServed clu s
  | .tileOrderTurn tile => Sys2Proof.Machine.execTileOrderTurn tile s
  | .mrdComplete tile => Sys2Proof.Machine.execMrdComplete tile s
  | .drainPerformed op => Sys2Proof.Machine.execDrainPerformed op s
  | .ltOpPerformed blk grp => Sys2Proof.Machine.execLtOpPerformed blk grp s
  | .foldSwap part h => Sys2Proof.Machine.execFoldSwap part h s
  | .foldFail part h => Sys2Proof.Machine.execFoldFail part h s
  | .trayOpPerformed blk grp => Sys2Proof.Machine.execTrayOpPerformed blk grp s
  | .trayPushWaiterServed part handle => Sys2Proof.Machine.execTrayPushWaiterServed part handle s
  | .trayPushTimeout part handle blk grp => Sys2Proof.Machine.execTrayPushTimeout part handle blk grp s
  | .trayPopWaiterServed part handle => Sys2Proof.Machine.execTrayPopWaiterServed part handle s
  | .spillWriteComplete part handle j => Sys2Proof.Machine.execSpillWriteComplete part handle j s
  | .nodeBatchTimeout part handle => Sys2Proof.Machine.execNodeBatchTimeout part handle s
  | .nodeBlockStart l cluster cores => Sys2Proof.Machine.execNodeBlockStart l cluster cores s
  | .mpathComplete op => Sys2Proof.Machine.execMpathComplete op s
  | .texComplete op => Sys2Proof.Machine.execTexComplete op s
  | .ssetBuildComplete part set => Sys2Proof.Machine.execSsetBuildComplete part set s
  | .triangleDistribute part set => Sys2Proof.Machine.execTriangleDistribute part set s
  | .primStallTimeout blk => Sys2Proof.Machine.execPrimStallTimeout blk s
  | .coverageTest part set work => Sys2Proof.Machine.execCoverageTest part set work s
  | .fragmentGroupStart part set work core slot => Sys2Proof.Machine.execFragmentGroupStart part set work core slot s
  | .sresApply op => Sys2Proof.Machine.execSresApply op s
  | .streamDrainComplete blk grp => Sys2Proof.Machine.execStreamDrainComplete blk grp s
  | .taskStart l core slot => Sys2Proof.Machine.execTaskStart l core slot s
  | .preempt blk => Sys2Proof.Machine.execPreempt blk s
  | .walkComplete walk => Sys2Proof.Machine.execWalkComplete walk s
  | .parkedRewalkTimer park => Sys2Proof.Machine.execParkedRewalkTimer park s
  | .parkedTimeout park => Sys2Proof.Machine.execParkedTimeout park s
  | .codeFetchComplete blk grp => Sys2Proof.Machine.execCodeFetchComplete blk grp s
  | .clearingDone => Sys2Proof.Machine.execClearingDone s
  | .launchComplete l => Sys2Proof.Machine.execLaunchComplete l s
  | .unassignedOp c w => Sys2Proof.Machine.execUnassignedOp c w s
  | .l2SliceAccess pa kind wr => Sys2Proof.Machine.execL2SliceAccess pa kind wr s
  | .registerWrite off v => Sys2Proof.Machine.execRegisterWrite off v s
  | .qctlWrite q v => Sys2Proof.Machine.execQctlWrite q v s
  | .qtailWrite q v => Sys2Proof.Machine.execQtailWrite q v s
  | .softError blk => Sys2Proof.Machine.execSoftError blk s
  | .coreFault blk => Sys2Proof.Machine.execCoreFault blk s
  | .correctedError part => Sys2Proof.Machine.execCorrectedError part s
  | .walkStart part clu va => Sys2Proof.Machine.execWalkStart part clu va s
  | .supplyCurrentOver die hot => Sys2Proof.Machine.execSupplyCurrentOver die hot s
  | .cxlMemRequest pa wr => Sys2Proof.Machine.execCxlMemRequest pa wr s
  | .hostSnoop hpa => Sys2Proof.Machine.execHostSnoop hpa s
  | .peerLinkDown link => Sys2Proof.Machine.execPeerLinkDown link s
  | .peerLinkUp link => Sys2Proof.Machine.execPeerLinkUp link s
  | .peerRequest link pa wr => Sys2Proof.Machine.execPeerRequest link pa wr s
  | .loadImage img => Sys2Proof.Machine.execLoadImage img s
  | .setPart cfg => Sys2Proof.Machine.execSetPart cfg s
  | .setWindow w c => Sys2Proof.Machine.execSetWindow w c s
  | .quote nonce => Sys2Proof.Machine.execQuote nonce s
  | .lifecycle next signed => Sys2Proof.Machine.execLifecycle next signed s
  | .resumeFault part => Sys2Proof.Machine.execResumeFault part s
  | .linkState r => Sys2Proof.Machine.execLinkState r s
  | .fqresWrite part v => Sys2Proof.Machine.execFqresWrite part v s
  | .fqrdWrite part v => Sys2Proof.Machine.execFqrdWrite part v s
  | .fqbaseWrite part v => Sys2Proof.Machine.execFqbaseWrite part v s
  | .fqsizeWrite part v => Sys2Proof.Machine.execFqsizeWrite part v s
  | .powerLoss loading => Sys2Proof.Machine.execPowerLoss loading s
  | .reset => Sys2Proof.Machine.execReset s
  | .l2FillComplete pa kind => Sys2Proof.Machine.execL2FillComplete pa kind s
  | .cxlLinkDown => Sys2Proof.Machine.execCxlLinkDown s
  | .cxlLinkUp => Sys2Proof.Machine.execCxlLinkUp s
  | .cxlCompletionTimeout => Sys2Proof.Machine.execCxlCompletionTimeout s

end Sys2Proof.Machine
end

