-- ==== Sys2Proof/Machine/Step.lean ====
section
/-! DEFINITION. One step: the next move of the agenda, or, with none left, what the fair rule picks (log 2). -/

namespace Sys2Proof.Machine

open Sys2Proof

/-- Cycles pass once the device runs; the counter is 0 at the end of reset (R172). -/
def State.tick (s : State) (n : Nat) : State :=
  if s.plat.phase = .running then s.withDev (s.dev.passTime n) else s

/-- A step takes one cycle. -/
def oneCycle : Out → Out
  | .next s => .next (s.tick 1)
  | o => o

/-- A group that holds a slot goes on: to the instruction it reaches, which is executed, or to a block or a trap before
one (R84, R86, R179). -/
def issueStep (b n : Nat) (s : State) : Out :=
  if s.plat.phase = .running ∧ s.dev.mayIssue b n = true then
    match s.dev.frontEnd b n with
    | .stop d => .next (s.withDev d)
    | .run i d => exec i (s.withDev d)
  else .next s

/-- One move. -/
def moveStep (m : Move) (s : State) : Out :=
  match m with
  | .event i => if hasWord i then .next s else exec i s
  | .issue b n => issueStep b n s
  | .tick n => .next (s.tick n)
  | .hostStore a x => .next (s.withDev (s.dev.hostStore a x))
  | .peerStore l a x => .next (s.withDev { s.dev with peerMem := FMap.set 0 s.dev.peerMem (2 ^ 52 * l + a) x })
  | .peerRefuse l a n => .next (s.withDev { s.dev with peerOut := (l, a, n) :: s.dev.peerOut })
  | .linkEcc => .next (s.withDev { s.dev with linkEcc := s.dev.linkEcc + 1 })
  | .eccSector a => .next (s.withDev (s.dev.eccSector a))
  | .mailboxArg a x => .next (s.mailboxArg a x)
  | .mailboxCommand c => .next (s.mailboxCommand c)
  | .fwStore a x => .next (s.withDev (s.dev.fwStore a x))
  | .fwExport l a n => .next (s.withDev { s.dev with exports := (l, a, n) :: s.dev.exports })
  | .fwTimeout ms => .next (s.withDev (s.dev.fwTimeout ms))
  | .fwFqst p v => .next (s.withDev (s.dev.writeFqst p v))
  | .fwWdec w v => .next (s.withDev (s.dev.writeWdec w v))
  | .fwWenc w v => .next (s.withDev (s.dev.writeWenc w v))

/-- With no move given, groups and the device's own steps take turns: a group that holds a slot issues, or the first
step of the device that changes something is taken. -/
def autoStep (s : State) : Out :=
  let s' := { s with fair := !s.fair }
  match s.fair, s.dev.slotHolder with
  | true, some (b, n) => issueStep b n s'
  | _, _ =>
    match (s.dev.candidates).find? (fun i => match exec i s' with
      | .next t => decide (t.dev ≠ s'.dev)
      | _ => false) with
    | some i => exec i s'
    | none => .next s'

/-- One step. -/
def step (s : State) : Out :=
  oneCycle (match s.agenda with
    | m :: rest => moveStep m { s with agenda := rest }
    | [] => autoStep s)

/-! ### The state from which the next step runs a given word -/

/-- A partition and a launch of one block for a word: a role of 16 registers octets and one group, with all of the
core scratch, cluster-shared memory and chip scratchpad the spec allows it. -/
def fetchRecord : LRecord :=
  { LRecord.zero with extx := 1, exty := 1, extz := 1, cscr := 288, cshr := 288, codelen := 16,
                      roles := [⟨0, 16, 1, 4096, 0, 0⟩] }

def fetchLaunch : Launch :=
  { queue := 0, entry := 0, recAddr := 0, lrec := fetchRecord, regions := [], part := 0, seq := 0, arrival := 0, dep := none,
    status := none, started := true, ranges := [], requeued := [], batches := [], worst := none, completed := false }

/-- The header of a clause of one instruction, and the word. -/
def fetchUnit (c : Cls) (w : Nat) : CodeUnit :=
  ⟨0, [encodeHeader { n := 1, cls := c, b := false, w := 0, t := 0, p := 0 }, BitVec.ofNat 32 w, 0, 0], 0, false⟩

def fetchGroup (c : Cls) : Group :=
  { Group.start 0 0 16 0 [] 0 0 with slot := some 0, levelH := decide (c = .sys), hlen := 16 }

def fetchBlock (c : Cls) (w : Nat) : Block :=
  { launch := 0, part := 0, lin := 0, x := 0, y := 0, z := 0, lrec := fetchRecord, regions := [], cores := [0],
    life := .running, nrepl := 0, ending := none, groups := [fetchGroup c], core := [[]], coreP := [[]], clu := [[]],
    cluP := [[]], sign := List.replicate 8 SignReg.idle, tiles := List.replicate 8 none,
    maps := List.replicate 8 OpMap.idle, chans := List.replicate 8 Channel.init, phases := [], permit := Reserve.zero,
    staged := 0, stageAt := 0, stageSnap := none, applied := 0, failed := false, captured := [], scrub := [], code := [fetchUnit c w], noReplay := false, succ := none,
    succRegions := [], advOps := none, pred := none, preempt := false, frag := none, batch := none, slot := none }

def fetchPart : Part :=
  { Part.init with active := true, cfg := { PartConfig.empty with clusters := [0], chipShare := 4096, slices := [0] } }

/-- The state in which the next step runs the word `w` of the opcode table, alone in a clause of the class that
`decodeTableWord` reads it in: a program that a host loaded and launched stands at it (log 9). A SYS word stands in a
handler. -/
def State.withFetchWord (s : State) (nbits w : Nat) : State :=
  let c : Cls := match decodeTableWord nbits w with
    | some i => clsOf i
    | none => .vec
  { s with
    plat := { s.plat with phase := .running },
    agenda := [.issue 0 0],
    dev := { s.dev with parts := [(0, fetchPart)], launches := [fetchLaunch], blocks := [fetchBlock c w] } }

end Sys2Proof.Machine
end

