-- ==== Sys2Proof/Safety.lean ====
section
/-! DEFINITION. What counts as safe, and the words that claims are made in: what each instruction names (Tables 4-6 to
4-14), when none of the checks of R100 stops it, where its group stands afterwards, and what frames keep. -/

namespace Sys2Proof.Machine

open Sys2Proof

/-! ### The controller -/

/-- While the device clears or runs, the image in flash verifies (R400). -/
def Platform.sound (p : Platform) : Prop :=
  p.phase ≠ .recovery → p.flash.authentic = true ∧ p.rollback ≤ p.flash.version

/-! ### What an instruction names -/

/-- Operands that depend on a handle held in a uniform: none while the uniform is empty. -/
def handleOps (g : Group) (a : BitVec 7) (f : Word → List Opnd) : List Opnd :=
  if g.empty (.u a.toNat) then [] else f (g.uni a.toNat)

/-- Registers that SRES reads from B: the colour words, and a depth for a set that has one. -/
def sresWords (v : View) : Nat :=
  match v.k.frag with
  | some f => (v.part.set f.set).desc.colours + (if (v.part.set f.set).desc.den then 1 else 0)
  | none => 1

/-- A predicate is read where a result is combined into it (R150). -/
def combReads (m : Comb) (p : BitVec 3) : List Opnd := if m = .set then [] else [.p p.toNat]

/-- The registers that each instruction word reads (in the order D, A, B), writes at a fixed latency, and marks empty;
whether it is uniform-class (R67), whether it must end its clause (R85), and, where not in every active lane, the lanes in which
it reads them. -/
def accessOf (i : Instr) (v : View) : Access :=
  match i with
  | .iadd _ d a b | .isub _ d a b | .imul _ d a b | .imin _ d a b | .imax _ d a b | .and d a b | .or d a b | .xor d a b
  | .andn d a b | .shl d a b | .shr _ d a b | .rotl d a b | .bfx _ d a b | .lea _ d a b | .fadd _ d a b | .fsub _ d a b
  | .fmul _ d a b | .fmin _ d a b | .fmax _ d a b | .padd2 _ d a b | .pmul2 _ d a b | .pminmax2 _ _ d a b | .cvtp _ d a b =>
    { reads := [srcOp a, srcOp b], fixed := [.v d.toNat] }
  | .iaddImm _ d a _ | .isubImm _ d a _ | .imulImm _ d a _ | .iminImm _ d a _ | .imaxImm _ d a _ | .andImm d a _
  | .orImm d a _ | .xorImm d a _ | .andnImm d a _ | .shlImm d a _ | .shrImm _ d a _ | .rotlImm d a _ | .leaImm _ d a _
  | .iabs _ d a | .ineg _ d a | .popc d a | .clz d a | .brev d a | .mov d a | .funa _ d a | .frcp d a | .frsq d a
  | .fex2 d a | .flg2 d a | .fsinr d a | .fcosr d a | .cvt _ _ d a _ =>
    { reads := [srcOp a], fixed := [.v d.toNat] }
  | .imad _ d a b | .bfi d a b | .ffma _ d a b | .ffms _ d a b | .pfma2 _ d a b =>
    { reads := [.v d.toNat, srcOp a, srcOp b], fixed := [.v d.toNat] }
  | .imadImm _ d a _ => { reads := [.v d.toNat, srcOp a], fixed := [.v d.toNat] }
  | .add64 zx d a b => { reads := pairOps a ++ (if zx then [srcOp b] else pairOps b), fixed := vs d 2 }
  | .add64Imm _ d a _ => { reads := pairOps a, fixed := vs d 2 }
  | .icmp m _ _ p a b | .fcmp m _ p a b => { reads := combReads m p ++ [srcOp a, srcOp b], fixed := [.p p.toNat] }
  | .icmpImm m _ _ p a _ => { reads := combReads m p ++ [srcOp a], fixed := [.p p.toNat] }
  | .sel p d a b => { reads := [srcOp a, srcOp b, .p p.toNat], fixed := [.v d.toNat] }
  | .movi f d _ => { reads := if MoviForm.readsD f then [.v d.toNat] else [], fixed := [.v d.toNat] }
  | .ptov p d => { reads := [.p p.toNat], fixed := [.v d.toNat] }
  | .vtop p a => { reads := [srcOp a], fixed := [.p p.toNat] }
  | .fsqrt _ d a => { reads := [srcOp a], var := [.v d.toNat] }
  | .qnt _ d a b => { reads := [.v a.toNat], fixed := [.v d.toNat, .s b.toNat], uni := true }
  | .dqnt _ d a b => { reads := [.v a.toNat, .s b.toNat], fixed := [.v d.toNat] }
  | .shfl _ d a b => { reads := [.v a.toNat, srcOp b], fixed := [.v d.toNat, .p 6] }
  | .shflImm _ d a _ => { reads := [.v a.toNat], fixed := [.v d.toNat, .p 6] }
  | .xgath k d a b => { reads := vs a (KCount.n k) ++ [srcOp b], fixed := [.v d.toNat] }
  | .qx _ d a | .matchLanes d a => { reads := [.v a.toNat], fixed := [.v d.toNat] }
  | .voteAnyAll _ p q b => { reads := [.p q.toNat, .s b.toNat], fixed := [.p p.toNat] }
  | .voteBallot d q b => { reads := [.p q.toNat, .s b.toNat], fixed := [.v d.toNat] }
  | .voteEq p a b => { reads := [.v a.toNat, .s b.toNat], fixed := [.p p.toNat] }
  | .matchCount d a b => { reads := [.v a.toNat], fixed := [.v d.toNat, .s b.toNat], uni := true }
  | .gred _ d a b => { reads := [.v a.toNat, .s b.toNat], fixed := [.s d.toNat], uni := true }
  | .scan _ _ d a b => { reads := [.v a.toNat, .s b.toNat], fixed := [.v d.toNat] }
  | .sadd d a b | .ssub d a b | .smul _ d a b | .sand d a b | .sor d a b | .sxor d a b | .sshl d a b | .sshr _ d a b
  | .sminmax _ _ d a b | .scmp _ d a b | .scmpn _ d a b =>
    { reads := usrcOps a ++ usrcOps b, fixed := [.s d.toNat], uni := true }
  | .smad d a b => { reads := .s d.toNat :: (usrcOps a ++ usrcOps b), fixed := [.s d.toNat], uni := true }
  | .saddi d a _ | .smov d a => { reads := usrcOps a, fixed := [.s d.toNat], uni := true }
  | .smovi _ d _ | .srd d _ => { fixed := [.s d.toNat], uni := true }
  | .smovb3 _ d _ => { reads := [.s d.toNat], fixed := [.s d.toNat], uni := true }
  | .v2s chk d a => { reads := [.v a.toNat], fixed := [.s d.toNat], uni := true, which := if chk then .all else .lowest }
  | .v2sLane d a l => { reads := [.v a.toNat], fixed := [.s d.toNat], uni := true, which := .lane l.toNat }
  | .sctl a | .sflg a => { reads := usrcOps a, uni := true }
  | .sld _ d a _ => { reads := usrcOps a, var := [.s d.toNat], uni := true }
  | .sst _ d a _ => { reads := usrcOps d ++ usrcOps a }
  | .jget d _ => { fixed := us d.toNat 2, uni := true }
  | .ld _ sz d a _ => { reads := [srcOp a], var := vs d (MemSize.regs sz) }
  | .st _ sz d a _ => { reads := vs d (MemSize.regs sz) ++ [srcOp a] }
  | .ldln _ k d a _ => { reads := [srcOp a], var := vs d (KCount.n k) }
  | .atm _ _ d a _ => { reads := [.v d.toNat, srcOp a], var := [.v d.toNat] }
  | .cas _ d a _ => { reads := vs d 2 ++ [srcOp a], var := [.v d.toNat] }
  | .pbarInit _ d a _ => { reads := [.s d.toNat, .s a.toNat] }
  | .pbarArr _ a _ | .pbarWait _ _ a _ => { reads := [.s a.toNat] }
  | .copy _ a | .tlbinv a | .scrub a | .mopmap _ _ a => { reads := us a.toNat 4 }
  | .copy2 _ a => { reads := us a.toNat 8 }
  | .wptr _ d => { var := [.v d.toNat] }
  | .cwait _ a | .ssetBuild a | .ssetBind a | .rclear a | .rdecomp a | .permit a | .trayClose a => { reads := [.s a.toNat] }
  | .fatom f d a b => { reads := vs a 2 ++ vs b (if f = .cas then 2 else 1), var := [.v d.toNat] }
  | .trayPush _ d a b =>
    { reads := .s a.toNat :: handleOps v.g a (fun h => recRegs v.g b h), var := [.v d.toNat] }
  | .trayPopb _ d a | .trayQry _ d a | .ssetQry _ d a => { reads := [.s a.toNat], var := [.v d.toNat] }
  | .trayPopbSteal _ d a b => { reads := [.s a.toNat, .s b.toNat], var := [.v d.toNat] }
  | .trayInsd d a b => { reads := [.s a.toNat, .v b.toNat], var := [.v d.toNat] }
  | .mpath d a b => { reads := us a.toNat 4 ++ [.v b.toNat], var := vs d 2 }
  | .tex lod _ d a b => { reads := us a.toNat 4 ++ vs b (if lod then 3 else 2), var := vs d 4 }
  | .texg _ d a b => { reads := us a.toNat 4 ++ vs b 2, var := vs d 4 }
  | .ssetNew a b => { reads := us a.toNat 16, var := [.s b.toNat], uni := true }
  | .prim a b => { reads := .s a.toNat :: vs b 10 }
  | .sres _ a b => { reads := .v a.toNat :: vs b (sresWords v) }
  | .mdecl _ a b => { reads := us a.toNat 8 ++ [.s b.toNat] }
  | .mrd k d _ b => { reads := [.s b.toNat], var := vs d (KCount.n k) }
  | .mrdStat d _ => { var := us (4 * d.toNat) 4, uni := true }
  | .mwr k d _ b => { reads := vs d (KCount.n k) ++ [.s b.toNat] }
  | .mdrain _ _ b => { reads := us b.toNat 4 }
  | .ltNew d a => { reads := us a.toNat 16, var := [.s d.toNat], uni := true }
  | .ltFork d a | .ltQry _ d a => { reads := [.s a.toNat], var := [.s d.toNat], uni := true }
  | .ltAtt _ a b => { reads := .s a.toNat :: us b.toNat 8 }
  | .ltDet a b => { reads := [.s a.toNat, .s b.toNat] }
  | .ltFold a b => { reads := .s a.toNat :: us b.toNat 4 }
  | .bra c p _ => { reads := if c = .always then [] else [.p p.toNat], last := true }
  | .brau _ a _ | .bras a => { reads := [.s a.toNat], last := true }
  | .brx a | .ret a => { reads := [.v a.toNat], last := true }
  | .call l _ => { fixed := [.v l.toNat], last := true }
  | .callFar l a => { reads := [.s a.toNat], fixed := [.v l.toNat], last := true }
  | .jset _ a => { reads := [.s a.toNat] }
  | .waitT _ a p => { reads := [.s a.toNat], fixed := [.p p.toNat] }
  | .adv a b => { reads := us a.toNat 2 ++ us b.toNat 2, last := true }
  | .exit | .yield => { last := true }
  | .sysrd d _ => { fixed := [.h d.toNat] }
  | .syswr a _ => { reads := [sysOp a], which := .lowest }
  | .rthFix | .rthSkip | .rthRetry | .rthKill => { uni := true, last := true }
  | .ctxsv a | .ctxrs a => { reads := us a.toNat 2 }
  | _ => {}

/-- What an instruction reads through memory at issue (R64, R81): loads and atomics their words, barriers their word,
MDECL a row-offset table. -/
def extraOf (i : Instr) (v : View) : Extra :=
  match i with
  | .ld l sz _ a o =>
    memExtra v (v.act.lanes.map (fun x => (v.k.space v.b v.n l x, ea v.g a o (sizeBytes sz) x, sizeBytes sz))) true
  | .ldln l k _ a o =>
    memExtra v ((List.range (KCount.n k)).flatMap (fun j => v.act.lanes.map (fun x =>
      (v.k.space v.b v.n (lvl3 l) 0, ea v.g a o 128 (Mask.lowest v.act) + 128 * j + 4 * x, 4)))) true
  | .atm l _ _ a o | .cas l _ a o =>
    memExtra v (v.act.lanes.map (fun x => (v.k.space v.b v.n (lvl3 l) x, ea v.g a o 4 x, 4))) false
  | .pbarArr l a o | .pbarWait l _ a o => pbarExtra v l a o
  | .sld l _ a i => memExtra v [(v.k.space v.b v.n (lvl3 l) 0, sldAddr v.g a i, 4)] true
  | .mdecl _ a _ =>
    let t := template (uniList v.g a 8)
    if t.kind = 2 ∧ t.taboff % 4 = 0 ∧ tableOk v t = true then
      memExtra v [(v.k.space v.b v.n .core 0, t.taboff, 4 * (t.gcnt + 1))] false
    else {}
  | _ => {}

/-! ### When nothing stops an instruction at issue -/

/-- The lanes in which an instruction reads its registers. -/
def readLanes (i : Instr) (v : View) (l : Nat) : Bool :=
  v.act.getLsbD l && (match (accessOf i v).which with
    | .all => true
    | .lowest => decide (l = Mask.lowest v.act)
    | .lane x => decide (l = x))

/-- None of checks 1 to 7 of R100 stops the instruction: its run is not too long (R88), its level may run it (R358), it is
well formed for its group (R58, R85, R99), converged where it is uniform-class (R67), its sources full (R64, R78), its fixed-latency
destinations full (R79), and nothing it reads in a lane is poisoned (R81). -/
structure Ready (i : Instr) (v : View) : Prop where
  short : v.g.head.run < 24
  level : clsOf i = .sys → v.g.levelH = true
  form : formOk i (accessOf i v) v.g = true
  uniform : (accessOf i v).uni = true → v.g.converged = true
  full : ∀ o ∈ (accessOf i v).reads, o.emptyReg v.g = none
  windows : ∀ x ∈ (extraOf i v).win, v.winEmpty x.1 x.2 = false
  writable : ∀ o ∈ (accessOf i v).fixed, o.emptyReg v.g = none
  clean : ∀ o ∈ (accessOf i v).reads, ∀ r, o.reg v.g = some r → ∀ l < 32, readLanes i v l = true → v.g.poison r l = 0
  sound : (extraOf i v).poison = 0

/-! ### Where a group stands afterwards -/

/-- The group once its instruction has been counted: its entry's run count is one more, and it issued now (R88). -/
def View.issued (v : View) : Group :=
  { v.g with frontier := { v.g.head with run := v.g.head.run + 1, last := v.d.cycle } :: v.g.frontier.tail }

/-- The issuing entry, as it stands now, before the others: at a header position those that can run there have merged with it: the union of
the masks, the longest wait, the largest count (R88, R180). -/
def gathers (e : Entry) (rest : List Entry) : List Entry :=
  let same (f : Entry) : Bool := decide (e.clause = none ∧ f.clause = none ∧ f.susp = .run ∧ f.pc = e.pc)
  { e with
    mask := (rest.filter same).foldl (fun m f => m ||| f.mask) e.mask, last := (rest.filter same).foldl (fun t f => min t f.last) e.last,
    run := (rest.filter same).foldl (fun n f => max n f.run) e.run } :: rest.filter (fun f => !same f)

/-- The group goes on to the next word; after the last word of a clause it stands at a header position, where entries merge, and with
B = 1 its run is over, its count is 0 and its slot is given back (R88, R90, R180). -/
def Group.goesOn (g : Group) : Group :=
  if g.head.endsRun then
    { g with
      frontier := gathers { g.head with pc := g.head.pc + 4, susp := .run, run := 0, clause := none } g.frontier.tail,
      slot := none, sel := false, why := .ready, readyAt := none }
  else
    { g with
      frontier := gathers { g.head with pc := g.head.pc + 4, susp := .run, clause := if g.head.atLast then none else g.head.clause }
        g.frontier.tail,
      sel := true }

/-- The device once the instruction has completed with group `g` over `d`. -/
def View.completes (v : View) (d : Dev) (g : Group) : Dev := d.putGroup v.b v.n g.goesOn

/-- The group blocks before the instruction: it gives its slot back and waits (R90). -/
def View.blocks (v : View) (d : Dev) (c : Cond) : Dev :=
  d.putGroup v.b v.n { v.g with slot := none, sel := false, why := .cond c, readyAt := none }

/-- No line that would be written back lies outside real HBM. -/
def Dev.plainLines (d : Dev) : Prop := ∀ l ∈ d.l2, l.dirty ≠ 0 → ∃ n, l.tag = .tier0 n ∧ 2048 * n < 2 ^ 40

/-- Slices have served accesses of the device's own to real HBM: their lines have moved, and what was dirty in a line that left has gone
back; nothing else has changed (R18, R381, R385). -/
structure Served (d d' : Dev) : Prop where
  rest : d' = { d with l2 := d'.l2, predict := d'.predict, nextId := d'.nextId, hbm := d'.hbm, hbmP := d'.hbmP, hostMem := d'.hostMem,
                       windows := d'.windows, parts := d'.parts }
  parts : ∀ p, d'.part p = { d.part p with linkLoss := (d'.part p).linkLoss }
  clean : d.plainLines → d'.hbm = d.hbm ∧ d'.hbmP = d.hbmP ∧ d'.hostMem = d.hostMem ∧ d'.windows = d.windows ∧ ∀ p, d'.part p = d.part p

/-- The trap record's contents for a precise trap at the issuing instruction (R363). -/
def View.trapInfo (v : View) (i : Instr) (t : Trap) : TrapInfo :=
  { cause := t.cause, origin := t.origin, pc := v.g.head.pc, lanes := t.lanes, act := v.g.active, info0 := t.info0,
    info1 := t.info1, info2 := t.info2, word := opWord i }

/-- The instruction traps. -/
def View.traps (v : View) (i : Instr) (t : Trap) : Dev := takeTrap v.d v.b v.n (v.trapInfo i t)

/-- The group waits while a unit performs its command (R296): registers are marked empty for operation `op`. -/
def View.waitsFor (v : View) (d : Dev) (i : Instr) (op : Nat) (regs : List RegRef) (vals : List (Nat × List Word))
    (unis : List Word) : Dev :=
  d.putGroup v.b v.n
    { v.g with
      flights := v.g.flights ++ regs.map (fun r => ⟨r, op⟩), slot := none, sel := false, why := .unit, readyAt := none,
      cmd := some { op := op, instr := i, act := v.act, vals := vals, unis := unis, issued := v.d.cycle, waits := false } }

/-! ### Shapes of claims -/

/-- The instruction, where nothing stops it, answers the next state whose device is `f v`. -/
def Answers (i : Instr) (f : View → Dev) : Prop :=
  ∀ s v, s.dev.issuer = some v → Ready i v → exec i s = .next (s.withDev (f v))

/-- The same under a condition on the issuing view. -/
def AnswersIf (i : Instr) (c : View → Prop) (f : View → Dev) : Prop :=
  ∀ s v, s.dev.issuer = some v → Ready i v → c v → exec i s = .next (s.withDev (f v))

/-- It writes `f g l` to vector register `d` in each active lane `l`, and completes. -/
def WritesV (i : Instr) (d : BitVec 7) (f : Group → Nat → Word) : Prop :=
  Answers i (fun v => v.completes v.d (v.issued.setWords (v.g.vreg d.toNat) v.act (f v.g)))

/-- It writes predicate bits `f g l` in the active lanes, and completes. -/
def WritesP (i : Instr) (p : BitVec 3) (f : Group → Nat → Bool) : Prop :=
  Answers i (fun v => v.completes v.d (v.issued.setPred p.toNat v.act (f v.g)))

/-- It writes a uniform, and completes. -/
def WritesU (i : Instr) (d : Nat) (f : Group → Word) : Prop :=
  Answers i (fun v => v.completes v.d (v.issued.setUni d (f v.g)))

/-- A floating-point instruction writes `f g l` to `d` and raises what any active lane raises; with GCR.IVT = 1 (bit 4) an invalid
operation in any active lane is USER_TRAP instead, with bit 31 and the OP in info word 0 (R73, R76). -/
def WritesF (i : Instr) (d : BitVec 7) (f : Group → Nat → WRes) : Prop :=
  AnswersIf i (fun v => v.g.gcr.getLsbD 4 = false ∨ ∀ l ∈ v.act.lanes, (f v.g l).fl.iv = false)
    (fun v => v.completes v.d ((v.issued.setWords (v.g.vreg d.toNat) v.act (fun l => (f v.g l).w)).raise
      (flagsOf v.act (fun l => (f v.g l).fl)))) ∧
  AnswersIf i (fun v => v.g.gcr.getLsbD 4 = true ∧ ∃ l ∈ v.act.lanes, (f v.g l).fl.iv = true)
    (fun v => v.traps i { cause := 0x13, lanes := Mask.ofFn (fun l => v.act.getLsbD l && (f v.g l).fl.iv),
                          info0 := 0x80000000#32 + (opWord i >>> 26) })

/-- An event, once the device runs, changes the device by `f`. -/
def Happens (i : Instr) (c : Dev → Prop) (f : Dev → Dev) : Prop :=
  ∀ s : State, s.plat.phase = .running → c s.dev → exec i s = .next (s.withDev (f s.dev))

/-! ### Frames -/

/-- A group keeps all that is not named: registers with their poison in the lanes outside `regs`, predicates outside `preds`, and
every control and exception register. GFL only gains bits. -/
structure Group.Keeps (g g' : Group) (regs : RegRef → Nat → Prop) (preds : Nat → Prop) : Prop where
  word : ∀ r l, l < 32 → ¬ regs r l → g'.word r l = g.word r l ∧ g'.poison r l = g.poison r l
  pred : ∀ p, ¬ preds p → g'.pred p = g.pred p
  gfl : g'.gfl &&& g.gfl = g.gfl
  gcr : g'.gcr = g.gcr
  live : g'.live = g.live ∧ g'.helper = g.helper
  masks : g'.jE = g.jE ∧ g'.jA = g.jA ∧ g'.dl = g.dl ∧ g'.mark = g.mark
  mem : g'.lp = g.lp ∧ g'.lpp = g.lpp
  exc : g'.levelH = g.levelH ∧ g'.saved = g.saved ∧ g'.trap = g.trap ∧ g'.tcnt = g.tcnt ∧ g'.kinfo = g.kinfo ∧ g'.pend = g.pend

/-- Every byte of memory reads as before: HBM, the host's and the peers' memory, and every scratch word outside the register
windows with its poison. -/
structure SameMemory (s t : State) : Prop where
  hbm : ∀ a, Memory.read t.dev.hbm a = Memory.read s.dev.hbm a
  host : ∀ a, Memory.read t.dev.hostMem a = Memory.read s.dev.hostMem a
  peer : ∀ a, FMap.get 0 t.dev.peerMem a = FMap.get 0 s.dev.peerMem a
  scratch : ∀ sp a, isWin sp a = false → t.dev.homeWord sp a = s.dev.homeWord sp a

/-- The step touched the issuing group alone, which keeps what is not named. -/
structure OnlyGroup (s t : State) (v : View) (regs : RegRef → Nat → Prop) (preds : Nat → Prop) : Prop where
  group : ∃ g', t = s.withDev (s.dev.putGroup v.b v.n g') ∧ v.g.Keeps g' regs preds
  others : ∀ b n, ¬ (b = v.b ∧ n = v.n) → t.dev.group b n = s.dev.group b n
  memory : SameMemory s t

/-! ### Words of single claims -/

/-- A register or uniform `b`, or an immediate in its place. -/
def rhs (b : Src ⊕ Word) (g : Group) (l : Nat) : Word :=
  match b with
  | .inl a => g.src a l
  | .inr x => x

/-- The form of an instruction with a register, and the one with an immediate extended by `ext`, write the same function. -/
def WritesBoth (r : BitVec 7 → Src → Src → Instr) (im : BitVec 7 → Src → BitVec 8 → Instr) (ext : BitVec 8 → Word)
    (f : Word → Word → Word) : Prop :=
  (∀ d a b, WritesV (r d a b) d (fun g l => f (g.src a l) (rhs (.inl b) g l))) ∧
  (∀ d a i, WritesV (im d a i) d (fun g l => f (g.src a l) (rhs (.inr (ext i)) g l)))

/-- An exact integer clamped to int32, and to uint32. -/
def clampSigned (x : Int) : Word := BitVec.ofInt 32 (max (-2 ^ 31) (min (2 ^ 31 - 1) x))
def clampUnsigned (x : Int) : Word := BitVec.ofInt 32 (max 0 (min (2 ^ 32 - 1) x))

/-- The field of R148: its position, and its length cut at bit 31. -/
def fieldAt (b : Word) : Nat × Nat := (b.toNat % 32, min (b.toNat / 256 % 32) (32 - b.toNat % 32))

/-- ICMP's condition (R150). -/
def condOf (c : ICond) (n : Bool) (a b : Word) : Bool :=
  let x : Int := if n then (a.toNat : Int) else a.toInt
  let y : Int := if n then (b.toNat : Int) else b.toInt
  match c with
  | .eq => decide (x = y)
  | .ne => decide (x ≠ y)
  | .lt => decide (x < y)
  | .le => decide (x ≤ y)
  | .gt => decide (y < x)
  | .ge => decide (y ≤ x)

/-- A condition combined into a predicate's old bit (R150). -/
def combined (m : Comb) (old c : Bool) : Bool :=
  match m with
  | .set => c
  | .and => old && c
  | .or => old || c

/-- The exact number that a finite value stands for; 0 for NaN and the infinities. -/
def FVal.number : FVal → ℚ
  | .fin neg m e => (if neg then -1 else 1) * (m : ℚ) * (2 : ℚ) ^ e
  | _ => 0

/-- The value is a number: a zero or finite. -/
def FVal.isNumber : FVal → Bool
  | .zero _ => true
  | .fin _ _ _ => true
  | _ => false

/-- GCR.FTZ, bit 2 (Table 3-5). -/
def ftzOf (g : Group) : Bool := g.gcr.getLsbD 2

/-- An operand: under FTZ a subnormal reads as zero of its sign (R120). -/
def fsrc (g : Group) (a : Src) (l : Nat) : FVal := (f32.read (g.src a l).toNat).flush f32 (ftzOf g)

/-- An f32 result: an exact value rounded once, flushed under FTZ. -/
def rounded (r : Rnd) (g : Group) (x : Exact) : WRes := (f32.finish (rndMode r g.gcr) (ftzOf g) x).w

/-- Two 16-bit results as one word, low half first, with the flags of both (R157). -/
def halves (lo hi : FRes) : WRes := ⟨BitVec.ofNat 16 hi.bits ++ BitVec.ofNat 16 lo.bits, lo.fl.or hi.fl⟩

/-- The half `h` of a lane's word, read in a 16-bit format. -/
def hsrc (t : HFmt) (g : Group) (a : Src) (l h : Nat) : FVal :=
  (HFmt.fmt t).read ((g.src a l).extractLsb' (16 * h) 16).toNat

/-- A packed result: each half rounded once to nearest even, neither FTZ nor RM applying (R157). -/
def packed (t : HFmt) (x : Nat → Exact) : WRes :=
  halves ((HFmt.fmt t).finish .rne false (x 0)) ((HFmt.fmt t).finish .rne false (x 1))

/-- FCMP's conditions (Table 6-3). -/
def fcondOf (c : FCond) (x y : FVal) : Bool :=
  let un := x.isNan || y.isNan
  match c with
  | .eq => !un && x.eqv y
  | .ne => un || !x.eqv y
  | .lt => FVal.lt false x y
  | .le => !un && !FVal.lt false y x
  | .gt => FVal.lt false y x
  | .ge => !un && !FVal.lt false x y
  | .un => un
  | .ord => !un

/-- The unit in the last place of f32 at a magnitude: it is no more than 2^u. -/
def ulpF32 (u : Int) (x : ℚ) : Prop := u = -149 ∨ (2 : ℚ) ^ (u + 23) ≤ |x|

/-- An operand's word: under FTZ a subnormal is the zero of its sign (R120). -/
def flushedWord (ftz : Bool) (w : Word) : Word := if ftz = true ∧ w.extractLsb' 23 8 = 0#8 then w &&& 0x80000000#32 else w

/-- The order of IEEE 754 on words that are no NaN, −0 below +0 (R153). -/
def orderKey (w : Word) : Int := if w.msb then -((w.extractLsb' 0 31).toNat : Int) - 1 else ((w.extractLsb' 0 31).toNat : Int)

/-- A result is its word and the flags OF, UF, IV and SAT. -/
def gives (r : WRes) (w : Word) (of uf iv sat : Bool) : Prop := r = ⟨w, ⟨of, uf, iv, sat⟩⟩

/-- A real rounded to an integer in a mode. -/
def toInteger (mode : RM) (x : ℚ) : Int :=
  match mode with
  | .rne => let f : Int := ⌊x⌋
    if x - f < 1 / 2 then f else if 1 / 2 < x - f then f + 1 else if f % 2 = 0 then f else f + 1
  | .rz => if 0 ≤ x then ⌊x⌋ else ⌈x⌉
  | .rd => ⌊x⌋
  | .ru => ⌈x⌉

/-- `w` holds a real within `t` units in the last place, and is an infinity of its sign only where it is beyond the largest finite
magnitude (Table 5-2). -/
def withinUlps (t : Nat) (w : Word) (x : ℝ) : Prop :=
  let y := f32.read w.toNat
  (|x| ≤ ((2 ^ 24 - 1 : Nat) : ℝ) * 2 ^ 104 → y.isNumber = true) ∧
  (y.isNumber = true → ∃ u : Int, |(y.number : ℝ) - x| ≤ t * (2 : ℝ) ^ u ∧ (u = -149 ∨ (2 : ℝ) ^ (u + 23) ≤ |x|)) ∧
  (y.isNumber = false → ∃ n, y = .inf n ∧ (n = true ↔ x < 0))

/-- Under FTZ an approximate function reads a subnormal as zero and flushes a subnormal result, with UF (R156). -/
def flushesTo (f : Bool → Word → WRes) : Prop :=
  ∀ w, f true w = (let r := f false (flushedWord true w)
    if r.w.extractLsb' 23 8 = 0#8 ∧ r.w.extractLsb' 0 23 ≠ 0#23 then ⟨r.w &&& 0x80000000#32, { r.fl with uf := true }⟩ else r)

/-- The command of an FSQRT: the roots of the active lanes, rounded as read at issue, with their flags. -/
def sqrtCmd (v : View) (r : Rnd) (d : BitVec 7) (a : Src) : Cmd :=
  { op := v.d.nextId, blk := v.b, grp := v.n, act := v.act, regs := [v.g.vreg d.toNat],
    kind := .fsqrt (v.act.lanes.map (fun l => (l, (rounded r v.g (sqrtExact (fsrc v.g a l))).w)))
      (flagsOf v.act (fun l => (rounded r v.g (sqrtExact (fsrc v.g a l))).fl)) }

/-- SHFL's source lane (R163), in int32. -/
def shuffleFrom (m : ShflMode) (lane : Nat) (b : Word) : Int :=
  match m with
  | .idx => b.toInt
  | .xor => (BitVec.ofNat 32 lane ^^^ b).toInt
  | .up => (BitVec.ofNat 32 lane - b).toInt
  | .dn => (BitVec.ofNat 32 lane + b).toInt

/-- The lane exists and is live. -/
def liveLane (g : Group) (k : Int) : Bool := decide (0 ≤ k ∧ k ≤ 31) && g.live.getLsbD k.toNat

/-- The members that contribute: lanes of the mask in uniform `b` that are live (R162). -/
def contributors (g : Group) (b : BitVec 7) : List Nat :=
  (List.range 32).filter (fun l => (g.uni b.toNat).getLsbD l && g.live.getLsbD l)

/-- Every active lane is in the mask of uniform `b` (R162). -/
def selfMember (v : View) (b : BitVec 7) : Prop := ∀ l, v.act.getLsbD l → (v.g.uni b.toNat).getLsbD l

/-- The operation of a reduction (R168). -/
def reduceBy (f : GredOp) (g : Group) (x y : Word) : Word :=
  match f with
  | .addI => x + y
  | .addF32 => (f32.finish .rne (ftzOf g) (addExact .rne ((f32.read x.toNat).flush f32 (ftzOf g)) ((f32.read y.toNat).flush f32 (ftzOf g)))).word
  | .min => if x.toInt ≤ y.toInt then x else y
  | .max => if x.toInt ≤ y.toInt then y else x
  | .minN => if x.toNat ≤ y.toNat then x else y
  | .maxN => if x.toNat ≤ y.toNat then y else x
  | .and => x &&& y
  | .or => x ||| y

/-- Table 6-7. -/
def identityOf : GredOp → Word
  | .addI | .or | .maxN => 0
  | .addF32 | .max => 0x80000000
  | .min => 0x7FFFFFFF
  | .minN | .and => 0xFFFFFFFF

/-- The tree of R168 after `k` levels: t[i] := t[i] op t[i + w] for w = 1, 2, 4 .. -/
def reduceTree (op : Word → Word → Word) (t : Nat → Word) : Nat → Nat → Word
  | 0, i => t i
  | k + 1, i => op (reduceTree op t k i) (reduceTree op t k (i + 2 ^ k))

/-- The flags of one step of .add.f32, and those of the tree of R168. -/
def stepFlags (f : GredOp) (g : Group) (x y : Word) : Flags :=
  if f = .addF32 then
    (f32.finish .rne (ftzOf g) (addExact .rne ((f32.read x.toNat).flush f32 (ftzOf g)) ((f32.read y.toNat).flush f32 (ftzOf g)))).fl
  else Flags.none
def treeFlags (op : Word → Word → Word) (fl : Word → Word → Flags) (t : Nat → Word) : Nat → Nat → Flags
  | 0, _ => Flags.none
  | k + 1, i => ((treeFlags op fl t k i).or (treeFlags op fl t k (i + 2 ^ k))).or (fl (reduceTree op t k i) (reduceTree op t k (i + 2 ^ k)))

/-- The operation of a scan, as a reduction's. -/
def scanAs : ScanOp → GredOp
  | .addI => .addI
  | .addF32 => .addF32
  | .min => .min
  | .max => .max

/-- The accumulator of R169 before lane `n`, over the contributing members in ascending order. -/
def scanBefore (op : Word → Word → Word) (ident : Word) (member : Nat → Bool) (x : Nat → Word) : Nat → Word
  | 0 => ident
  | n + 1 => if member n then op (scanBefore op ident member x n) (x n) else scanBefore op ident member x n

/-- The flags of the steps before lane `n`. -/
def scanFlags (op : Word → Word → Word) (fl : Word → Word → Flags) (ident : Word) (member : Nat → Bool) (x : Nat → Word) : Nat → Flags
  | 0 => Flags.none
  | n + 1 => if member n then (scanFlags op fl ident member x n).or (fl (scanBefore op ident member x n) (x n))
      else scanFlags op fl ident member x n

/-- Table 5-9. -/
def grainTable : List Nat :=
  [0, 16, 8, 24, 4, 20, 12, 28, 2, 18, 10, 26, 6, 22, 14, 30, 1, 17, 9, 25, 5, 21, 13, 29, 3, 19, 11, 27, 7, 23, 15, 31]

/-- R137's rounding of element `i`: to nearest even, or R138's grain at a phase. -/
def quantRound (mode : QRound) (i : Nat) (y : ℚ) : Int :=
  match mode with
  | .rne => toInteger .rne y
  | .grain phi => if ((grainTable.getD ((i + phi) % 32) 0 : ℚ) + 1 / 2) / 32 ≤ y - ⌊y⌋ then ⌊y⌋ + 1 else ⌊y⌋

/-- What R137 makes of a block of values. -/
structure Quantised (w qmax : Nat) (mode : QRound) (x : List FVal) (q : QBlock) : Prop where
  size : q.q.length = x.length
  bad : (∃ v ∈ x, v.isNumber = false) → q.e = 255 ∧ q.iv = true ∧ q.clamped = 0 ∧ ∀ y ∈ q.q, y = 0
  clean : (∀ v ∈ x, v.isNumber = true) → q.iv = false
  zeros : (∀ v ∈ x, v.isNumber = true ∧ v.number = 0) → q.e = 127 ∧ q.clamped = 0 ∧ ∀ y ∈ q.q, y = 0
  scale : (∀ v ∈ x, v.isNumber = true) → ∀ m ∈ x, m.number ≠ 0 → (∀ v ∈ x, |v.number| ≤ |m.number|) →
    |m.number| < (2 : ℚ) ^ ((w : Int) + 1 + q.e - 127) ∧ (q.e ≠ 0 → (2 : ℚ) ^ ((w : Int) + q.e - 127) ≤ |m.number|)
  elems : (∀ v ∈ x, v.isNumber = true) → (∃ v ∈ x, v.number ≠ 0) →
    (∀ i < x.length, q.q.getD i 0 = max (-(qmax : Int)) (min qmax
      (quantRound mode i ((x.getD i (.zero false)).number / (2 : ℚ) ^ ((q.e : Int) - 127))))) ∧
    q.clamped = (List.range x.length).countP (fun i => decide ((qmax : Int) <
      |quantRound mode i ((x.getD i (.zero false)).number / (2 : ℚ) ^ ((q.e : Int) - 127))|))

/-- A lane stands at a header position and can run. -/
def Group.atHeader (g : Group) (l pc : Nat) : Prop :=
  ∃ e ∈ g.frontier, e.mask.getLsbD l = true ∧ e.pc = pc ∧ e.susp = .run ∧ e.clause = none

/-- A lane stands at a word, in whatever clause, and can run. -/
def Group.runsAt (g : Group) (l pc : Nat) : Prop := ∃ e ∈ g.frontier, e.mask.getLsbD l = true ∧ e.pc = pc ∧ e.susp = .run

/-- A lane of these entries stands where it stood. -/
def Group.staysPut (es : List Entry) (g' : Group) (l : Nat) : Prop :=
  ∀ e ∈ es, e.mask.getLsbD l = true →
    ∃ e' ∈ g'.frontier, e'.mask.getLsbD l = true ∧ e'.pc = e.pc ∧ e'.susp = e.susp ∧ e'.clause = e.clause

/-- No lane stands in two entries (R177). -/
def Group.apart (g : Group) : Prop := g.frontier.Pairwise (fun a b => a.mask &&& b.mask = 0#32)

/-- The lanes `taken` of the issuing entry go to `f`, its other lanes to the fall-through header position (R85, R182); all else of the
group is `g`, and a clause with B = 1 has ended the run. -/
structure Moves (g g' : Group) (taken : Mask) (f : Nat → Nat) : Prop where
  rest : g' = { (if g.head.endsRun then { g with slot := none, why := .ready, readyAt := none } else g) with
    frontier := g'.frontier, sel := false }
  goes : ∀ l < 32, taken.getLsbD l = true → g'.atHeader l (f l)
  falls : ∀ l < 32, g.active.getLsbD l = true → taken.getLsbD l = false → g'.atHeader l g.head.fall
  others : ∀ l, Group.staysPut g.frontier.tail g' l
  apart : g.apart → g'.apart

/-- A transfer of R182 and R183: a target that fails its check, in a lane that takes the transfer, is ILLEGAL_INSTR and no lane
moves; else every lane moves. `mid` is the group with whatever else the instruction writes. -/
def Transfers (i : Instr) (mid : View → Group) (taken : View → Mask) (target : View → Nat → Int) (ok : View → Int → Bool) : Prop :=
  ∀ s v, s.dev.issuer = some v → Ready i v →
    let wrong : Mask := Mask.ofFn (fun l => (taken v).getLsbD l && !(ok v (target v l)))
    (wrong = 0#32 → ∃ g', exec i s = .next (s.withDev (v.d.putGroup v.b v.n g')) ∧
      Moves (mid v) g' (taken v) (fun l => (target v l).toNat)) ∧
    (wrong ≠ 0#32 → exec i s = .next (s.withDev (v.traps i
      { cause := 0x02, lanes := wrong, info0 := BitVec.ofInt 32 (target v (Mask.lowest wrong)) })))

/-- A near target: 16-byte units from the header of the transfer's clause (R93). It must lie in the segment. -/
def nearTarget (i : BitVec 8) (v : View) (_ : Nat) : Int := (((v.g.head.clause.map (·.pc)).getD 0 : Nat) : Int) + 16 * i.toInt
def nearOk (v : View) (t : Int) : Bool := decide (0 ≤ t ∧ t < v.k.codeLen v.g)

/-- A far target is a multiple of 16 in the segment (R94). -/
def farOk (v : View) (t : Int) : Bool := decide (t % 16 = 0 ∧ t < v.k.codeLen v.g)

/-- The link of a CALL: the header position after its clause, in each active lane (R187). -/
def linkOf (l : BitVec 7) (v : View) : Group :=
  v.issued.setWords (v.g.vreg l.toNat) v.act (fun _ => BitVec.ofNat 32 v.g.head.fall)

/-- All lanes of A(j) are released (R189, R190): each goes on at the word after its own WAIT, A(j) is empty, E is as it was, and the mark
predicates of those with a deadline become `mark`. Other lanes stay where they are. -/
structure Releases (g g' : Group) (j : Nat) (mark : Bool) : Prop where
  rest : g' = { g with frontier := g'.frontier, saved := g'.saved, jA := g'.jA, dl := g'.dl, mark := g'.mark, p := g'.p, sel := false }
  freed : ∀ e ∈ g.frontier, e.susp = .wait j → ∀ l < 32, e.mask.getLsbD l = true → (FMap.get 0 g.jA j).getLsbD l = true →
    g'.runsAt l (e.pc + 4)
  others : ∀ l, (FMap.get 0 g.jA j).getLsbD l = false → Group.staysPut g.frontier g' l
  masks : ∀ i, FMap.get 0 g'.jA i = if i = j then 0 else FMap.get 0 g.jA i
  timers : ∀ l < 32, FMap.get 0 g'.dl l = if (FMap.get 0 g.jA j).getLsbD l then 0 else FMap.get 0 g.dl l
  marks : ∀ k < 7, ∀ l < 32, (g'.pred k).getLsbD l =
    if (FMap.get 0 g.jA j).getLsbD l = true ∧ FMap.get 0 g.dl l ≠ 0 ∧ FMap.get 0 g.mark l = k then mark else (g.pred k).getLsbD l

/-- The check of R189. -/
def MaskChecked (g g' : Group) (j : Nat) : Prop :=
  if FMap.get 0 g.jA j ≠ 0 ∧ FMap.get 0 g.jA j &&& FMap.get 0 g.jE j = FMap.get 0 g.jE j then Releases g g' j false else g' = g

/-- The earliest deadline of A(j) has passed (R190). -/
def Group.overdue (g : Group) (j cycle : Nat) : Prop :=
  ∃ l < 32, (FMap.get 0 g.jA j).getLsbD l = true ∧ FMap.get 0 g.dl l ≠ 0 ∧ FMap.get 0 g.dl l ≤ cycle + 1

/-- The issuing entry is at the next word; nothing else of the group has changed. -/
def Group.nextWord (g : Group) : Group := { g with frontier := g.goesOn.frontier, sel := !g.head.endsRun }

/-- The group is `g`, which has given its slot back where its run has ended. -/
def View.leaves (v : View) (ended : Bool) (g : Group) : Dev :=
  v.d.putGroup v.b v.n (if ended then { g with slot := none, sel := false, readyAt := none } else g)

/-- The issuing entry waits at its WAIT: its lanes are in A(j) (R188). -/
def View.arrives (v : View) (j : Nat) : Group :=
  { v.issued with
    frontier := { v.issued.head with susp := .wait j } :: v.g.frontier.tail,
    jA := FMap.set 0 v.g.jA j (FMap.get 0 v.g.jA j ||| v.act), sel := false }

/-- The other live lanes of the group wait at the same collective instruction (R193). -/
def View.allThere (v : View) (op : CollOp) : Prop := ∀ e ∈ v.g.frontier.tail, ∃ o, e.susp = .coll op o

/-- No other group of the block has a collective step that it can take, and no phase stands complete. -/
def View.othersRest (v : View) : Prop :=
  v.k.completePhases = v.k ∧ ∀ m g, m ≠ v.n → v.k.groups[m]? = some g → g.exited = false → v.d.barStep v.b m v.k g = none

/-- Every lane of the issuing group goes on at the word after its own instruction. -/
def View.allGoOn (v : View) (g' : Group) : Prop :=
  ∀ e ∈ v.g.frontier, ∀ l < 32, e.mask.getLsbD l = true → g'.runsAt l (e.pc + 4)

/-- Checks 1 to 7 of R100, one by one. -/
def passesCheck (i : Instr) (v : View) : Nat → Prop
  | 1 => v.g.head.run < 24
  | 2 => clsOf i = .sys → v.g.levelH = true
  | 3 => formOk i (accessOf i v) v.g = true
  | 4 => (accessOf i v).uni = true → v.g.converged = true
  | 5 => (accessOf i v).reads.filterMap (Opnd.emptyReg v.g) = [] ∧ (extraOf i v).win.filter (fun x => v.winEmpty x.1 x.2) = []
  | 6 => (accessOf i v).fixed.filterMap (Opnd.emptyReg v.g) = []
  | _ => True

/-- The number of an empty register in EMPTY_READ's info word 0: a vector register's own, a uniform's plus 256 (R78). -/
def emptyCode : RegRef → Word
  | .v n => BitVec.ofNat 32 n
  | .u n => BitVec.ofNat 32 (256 + n)
  | .h n => BitVec.ofNat 32 n

/-- A lane reads a poisoned word of a register that the instruction names. -/
def readsPoison (i : Instr) (v : View) (l : Nat) : Bool :=
  readLanes i v l && (accessOf i v).reads.any (fun o => match o.reg v.g with
    | some r => decide (v.g.poison r l ≠ 0)
    | none => false)

/-- The block has ended with a status of Table 2-5. -/
def EndsAs (d : Dev) (b : Nat) (e : Ending) : Prop := ∃ k, d.blocks[b]? = some k ∧ k.life = .ended ∧ k.ending = some e

/-- The block is on its way back to its queue: its launch holds it with one replay more, REPLC counts it, and a poison origin whose link
it waits for stands with it, and no core that it must keep away from (R23, R46, R357). -/
def Replays (d d' : Dev) (b : Nat) (k : Block) (hold : Option Nat) : Prop :=
  (∃ k', d'.blocks[b]? = some k' ∧ k'.life = .replaying) ∧ (d'.part k.part).replc = (d.part k.part).replc + 1 ∧
  ∀ l, d.launches[k.launch]? = some l → ∃ l', d'.launches[k.launch]? = some l' ∧
    l'.requeued = l.requeued ++ [{ lin := k.lin, nrepl := k.nrepl + 1, lrec := k.lrec, regions := k.regions, batch := k.batch, hold := hold, avoid := [] }]

/-- An entry goes on after the instruction it stands at. -/
def Entry.passed (e : Entry) : Entry :=
  match e.clause with
  | none => { e with pc := e.pc + 4 }
  | some c => { e with pc := e.pc + 4, susp := .run, clause := if e.pc = c.pc + 4 * c.h.n then none else some c }

/-- A byte of a level exists for the group (R63, R203): below LPRIV, CSCR, CSHR or the partition's share; in core scratch also a
register window of a group of the block on the same core, within its budget. -/
def View.holdsByte (v : View) (lvl : Lvl) (a : Nat) : Bool :=
  match lvl with
  | .priv => decide (a < (v.k.lrec.role v.g.role).lpriv)
  | .core => decide (a < v.k.lrec.cscr * 4096) || (decide (0x800000 ≤ a ∧ a < 0x2800000) &&
      (match v.k.groups[(a - 0x800000) / 0x4000]? with
       | some x => decide (v.k.pos ((a - 0x800000) / 0x4000) = v.k.pos v.n ∧ (a - 0x800000) % 0x4000 / 128 < 8 * x.budget)
       | none => false))
  | .clu => decide (a < v.k.lrec.cshr * 4096)
  | .chip => decide (a < v.part.cfg.chipShare * v.part.cfg.slices.length)

/-- Core scratch or cluster-shared memory without register windows (R231). -/
def View.holdsPlain (v : View) (lvl : Lvl) (a : Nat) : Bool := v.holdsByte lvl a && (decide (lvl ≠ .core) || decide (a < 0x800000))

/-- A replayable block writes chip scratchpad outside its regions (R45). -/
def View.barred (v : View) (lvl : Lvl) (a n : Nat) : Bool := decide (lvl = .chip) && v.k.lrec.repl && !v.k.inChipRegions a n

/-- The three checks of R223 that follow NONUNIFORM, over the active lanes. -/
structure Access223 where
  lvl : Lvl
  addr : View → Nat → Nat
  align : Nat
  size : Nat
  holds : View → Nat → Bool
  writes : Bool

def Access223.bad (x : Access223) (v : View) (check l : Nat) : Bool :=
  v.act.getLsbD l && (match check with
    | 0 => decide (x.addr v l % x.align ≠ 0)
    | 1 => !((List.range x.size).all (fun i => x.holds v (x.addr v l + i)))
    | _ => x.writes && v.barred x.lvl (x.addr v l) x.size)

/-- No lane fails a check. -/
def Access223.passes (x : Access223) (v : View) (check : Nat) : Prop := Mask.ofFn (x.bad v check) = 0#32
def Access223.ok (x : Access223) (v : View) : Prop := x.passes v 0 ∧ x.passes v 1 ∧ x.passes v 2

/-- The first failing check of R223 traps: MISALIGNED, SCRATCH_BOUNDS, REPLAY_VIOLATION, with the lanes that fail it, the address of the lowest
in info word 0 and the level in info word 1 (both 0 for SLD and SST, R175). -/
def Faults223 (i : Instr) (c : View → Prop) (x : Access223) (info : Bool) : Prop :=
  ∀ s v, s.dev.issuer = some v → Ready i v → c v →
    let level : Word := match x.lvl with
      | .priv => 0
      | .core => 1
      | .clu => 2
      | .chip => 3
    let traps (code check : Nat) : Prop :=
      exec i s = .next (s.withDev (v.traps i
        { cause := code, lanes := Mask.ofFn (x.bad v check),
          info0 := if info then BitVec.ofNat 32 (x.addr v (Mask.lowest (Mask.ofFn (x.bad v check)))) else 0,
          info1 := if info then level else 0 }))
    (¬ x.passes v 0 → traps 0x0B 0) ∧ (x.passes v 0 → ¬ x.passes v 1 → traps 0x0A 1) ∧
    (x.passes v 0 → x.passes v 1 → ¬ x.passes v 2 → traps 0x19 2)

/-- The accesses of the MEM instructions (R222, Table 9-1). -/
def ldAccess (l : Lvl) (sz : MemSize) (a : Src) (o : BitVec 8) (writes : Bool) : Access223 :=
  { lvl := l, addr := fun v => ea v.g a o (sizeBytes sz), align := sizeBytes sz, size := sizeBytes sz,
    holds := fun v => v.holdsByte l, writes := writes }
def lineAccess (l : Lvl3) (k : KCount) (a : Src) (o : BitVec 8) : Access223 :=
  { lvl := lvl3 l, addr := fun v _ => ea v.g a o 128 (Mask.lowest v.act), align := 128, size := 128 * KCount.n k,
    holds := fun v => v.holdsByte (lvl3 l), writes := false }
def atAccess (l : Lvl3) (a : Src) (o : BitVec 8) : Access223 :=
  { lvl := lvl3 l, addr := fun v => ea v.g a o 4, align := 4, size := 4, holds := fun v => v.holdsByte (lvl3 l), writes := true }
def uniAccess (l : Lvl3) (a : USrc) (i : BitVec 8) (writes : Bool) : Access223 :=
  { lvl := lvl3 l, addr := fun v _ => (v.g.usrc a + BitVec.ofNat 32 (4 * i.toNat)).toNat, align := 4, size := 4,
    holds := fun v => v.holdsByte (lvl3 l), writes := writes }
def barAccess (l : Lvl2) (a : BitVec 7) (o : BitVec 8) : Access223 :=
  { lvl := lvl2 l, addr := fun v _ => ea v.g (.s a) o 4 0, align := 4, size := 4, holds := fun v => v.holdsPlain (lvl2 l), writes := false }

/-- A barrier's word passes the checks (R231). -/
def barOk (l : Lvl2) (a : BitVec 7) (o : BitVec 8) (v : View) : Prop :=
  ea v.g (.s a) o 4 0 % 4 = 0 ∧ ∀ i < 4, v.holdsPlain (lvl2 l) (ea v.g (.s a) o 4 0 + i) = true

/-- An LDLN with a vector A names one address in all active lanes (R226). -/
def oneLine (a : Src) (o : BitVec 8) (v : View) : Prop := ∀ l ∈ v.act.lanes, ea v.g a o 128 l = ea v.g a o 128 (Mask.lowest v.act)

/-- Pending stores but for who has read them. -/
def unseen (l : List PStore) : List PStore := l.map (fun x => { x with seen := [] })

/-- A load is on its way: its registers are empty and the group goes on; stores, atomics and every other group are as they were. With
more new misses than the miss-status entries can take, the group blocks (R205). -/
def StartsLoad (i : Instr) (c : View → Prop) (line : Bool) (sz : MemSize) (lanes : View → List (Nat × Space × Nat))
    (regs : View → List RegRef) : Prop :=
  ∀ s v, s.dev.issuer = some v → Ready i v → c v →
    let misses := (v.d.newMisses v.core (v.load (lanes v) line sz (regs v))).length
    (256 < (v.d.core v.core).miss.length + misses → exec i s = .next (s.withDev (v.blocks v.d (.misses misses)))) ∧
    ((v.d.core v.core).miss.length + misses ≤ 256 → ∃ d x,
      exec i s = .next (s.withDev (v.completes d
        { v.issued with flights := v.g.flights ++ (regs v).map (fun r => ⟨r, v.d.nextId⟩) })) ∧
      d.loads = v.d.loads ++ [x] ∧ d.blocks = v.d.blocks ∧ unseen d.stores = unseen v.d.stores ∧ d.atoms = v.d.atoms ∧
      x.op = v.d.nextId ∧ x.core = v.core ∧ x.blk = v.b ∧ x.grp = v.n ∧ x.lanes = lanes v ∧ x.line = line ∧ x.size = sz ∧
      x.regs = regs v ∧ x.left = List.range (regs v).length ∧
      (v.d.core v.core).miss.length + misses = (d.core v.core).miss.length)

/-- A loaded word of R224: the bytes of the access, extended. -/
def loadedWord (sz : MemSize) (a : Nat) (w : Word) : Word :=
  match sz with
  | .b => (w.extractLsb' (8 * (a % 4)) 8).zeroExtend 32
  | .bs => (w.extractLsb' (8 * (a % 4)) 8).signExtend 32
  | .h => (w.extractLsb' (8 * (a % 4)) 16).zeroExtend 32
  | .hs => (w.extractLsb' (8 * (a % 4)) 16).signExtend 32
  | _ => w

/-- The word that a load takes for its lane and register `j`: from the sector it captured at a cached level, else as its core sees it. -/
def takenWord (d : Dev) (x : PLoad) (sp : Space) (a j : Nat) : Word × Nat :=
  let b := a + (if x.line then 128 * j else 4 * j)
  let w := if sp.cached then x.gotWord sp b else d.seenWord x.core x.blk x.grp x.op sp b
  (loadedWord x.size b w.1, w.2)

/-- Byte `a` of a space at its home. -/
def Dev.byteAt (d : Dev) (sp : Space) (a : Nat) : Byte := (d.homeWord sp (a / 4 * 4)).1.extractLsb' (8 * (a % 4)) 8

/-- The bytes of a space have a home, which no tray's unit lays out for itself (R304). -/
def Dev.backs (d : Dev) (sp : Space) (a : Nat) : Prop :=
  match sp with
  | .lane b n l => (d.group b n).isSome = true ∧ l < 32 ∧ a < 4096
  | .core b pos => ∃ k, d.blocks[b]? = some k ∧
      if a < 0x800000 then pos < k.core.length ∧ pos < k.coreP.length
      else (k.groups[(a - 0x800000) / 0x4000]?).isSome = true
  | .clu b i => ∃ k, d.blocks[b]? = some k ∧ i < k.clu.length ∧ i < k.cluP.length
  | .chip p => ∀ t ∈ (d.part p).trays, t.ownsByte (a / 4 * 4) = false

/-- The bytes that ST stores for a lane: the data registers in ascending order, low bytes first (R224). -/
def bytesStored (g : Group) (sz : MemSize) (d l addr : Nat) : List (Nat × Byte) :=
  (List.range (sizeBytes sz)).map (fun j => (addr + j, (g.word (g.vreg (d + j / 4)) l).extractLsb' (8 * (j % 4)) 8))

/-- Lanes that store and update: the active lanes that are no helper lanes (R332). -/
def View.storing (v : View) : List Nat := v.act.lanes.filter (fun l => !v.g.helper.getLsbD l)

/-- Of two lanes that write one byte, the higher one's is written (R225): lane by lane, what is left. -/
def keptBytes (w : List (Nat × Space × List (Nat × Byte))) : List (Nat × Space × List (Nat × Byte)) :=
  (w.zipIdx.map (fun (x, i) => (x.1, x.2.1, x.2.2.filter (fun y =>
    !((w.drop (i + 1)).any (fun z => decide (z.2.1 = x.2.1) && z.2.2.any (fun t => decide (t.1 = y.1)))))))).filter
    (fun x => !x.2.2.isEmpty)

/-- One store for each lane's kept bytes is on its way, numbered upward; then whatever waits for nothing lands. -/
def StartsStores (i : Instr) (c : View → Prop) (w : View → List (Nat × Space × List (Nat × Byte))) : Prop :=
  ∀ s v, s.dev.issuer = some v → Ready i v → c v →
    ∃ d : Dev, d = { v.d.putGroup v.b v.n v.issued with
        nextId := v.d.nextId + (keptBytes (w v)).length, cores := d.cores,
        stores := v.d.stores ++ (keptBytes (w v)).zipIdx.map (fun x => { op := v.d.nextId + x.2, instr := v.d.nextId, core := v.core, blk := v.b, grp := v.n, space := x.1.2.1, bytes := x.1.2.2, seen := [] }) } ∧
      exec i s = .next (s.withDev (v.completes d.settle ((d.settle.group v.b v.n).getD v.issued)))

/-- The four bytes of a word, lowest first. -/
def fourBytes (a : Nat) (w : Word) : List (Nat × Byte) := (List.range 4).map (fun j => (a + j, w.extractLsb' (8 * j) 8))

/-- What a scratch atomic leaves in its word (Table 9-3, R228, R231). -/
def atomicResult (f : AtomOp) (old : Word) : Word :=
  match f with
  | .at .add x => old + x
  | .at .min x => if old.toInt ≤ x.toInt then old else x
  | .at .max x => if old.toInt ≤ x.toInt then x else old
  | .at .minN x => if old.toNat ≤ x.toNat then old else x
  | .at .maxN x => if old.toNat ≤ x.toNat then x else old
  | .at .and x => old &&& x
  | .at .or x => old ||| x
  | .at .exch x => x
  | .cas c n => if old = c then n else old
  | .pbarArr =>
    let exp := old.extractLsb' 16 15
    let pend := old.extractLsb' 0 15
    if pend.toNat ≤ 1 then (old.extractLsb' 31 1 ^^^ 1#1) ++ exp ++ old.extractLsb' 15 1 ++ (if exp = 0 then 1#15 else exp)
    else old.extractLsb' 31 1 ++ exp ++ old.extractLsb' 15 1 ++ (pend - 1#15)

/-- An atomic for each storing lane is on its way, in ascending lane order. -/
def atomicsOf (v : View) (first instr : Nat) (dst : Option RegRef) (w : List (Nat × Space × Nat × AtomOp)) : List PAtom :=
  w.zipIdx.map (fun x => { op := first + x.2, instr := instr, core := v.core, blk := v.b, grp := v.n, lane := x.1.1, space := x.1.2.1, addr := x.1.2.2.1, what := x.1.2.2.2, dst := dst })

/-- AT and CAS: D is empty, one atomic a lane is on its way, and the answer gathers the old values; a helper lane's is 0 (R227, R332). -/
def StartsAtomics (i : Instr) (c : View → Prop) (d0 : BitVec 7) (lvl : Lvl) (addr : View → Nat → Nat) (f : View → Nat → AtomOp) : Prop :=
  ∀ s v, s.dev.issuer = some v → Ready i v → c v →
    let reg := v.g.vreg d0.toNat
    let op := v.d.nextId
    let idle := v.act.lanes.filter (fun l => v.g.helper.getLsbD l)
    ∃ d : Dev, d = { v.d.putGroup v.b v.n { v.issued with flights := v.g.flights ++ [⟨reg, op⟩] } with
        nextId := op + 1 + v.storing.length, cores := d.cores,
        atoms := v.d.atoms ++ atomicsOf v (op + 1) op (some reg) (v.storing.map (fun x => (x, v.k.space v.b v.n lvl x, addr v x, f v x))),
        cmds := v.d.cmds ++ [{ op := op, blk := v.b, grp := v.n, act := v.act, regs := [reg],
                               kind := .answer (idle.map (fun x => (x, [(0, 0)]))) }] } ∧
      exec i s = .next (s.withDev (v.completes d.settle ((d.settle.group v.b v.n).getD
        { v.issued with flights := v.g.flights ++ [⟨reg, op⟩] })))

/-- A lane's old word, with its poison, joins the answer to its instruction. -/
def Dev.joinAnswer (d : Dev) (op lane : Nat) (w : Word × Nat) : Dev :=
  { d with cmds := d.cmds.map (fun c => match c.kind with
      | .answer vs => if c.op = op then { c with kind := .answer (vs ++ [(lane, [w])]) } else c
      | _ => c) }

/-- The core's copies of cluster-shared memory and chip scratchpad are dropped as the scope says (R213). -/
def acquires (v : View) (sc : Scope) : Dev :=
  let c := v.d.core v.core
  v.d.putCore v.core { c with l1 := c.l1.filter (fun x => match x.space with
    | .clu _ _ => decide (sc = .grp ∨ sc = .core)
    | .chip _ => decide (sc = .grp ∨ sc = .core ∨ sc = .clu)
    | _ => true) }

/-- The group waits where it stands, and goes on from a wait that has found its phase bit (R231). -/
def View.wokenWaits (v : View) (c : Cond) : Dev :=
  v.d.putGroup v.b v.n { v.g with slot := none, sel := false, why := .cond c, readyAt := none, woken := some v.g.head.pc }

/-- The first condition that holds, with its trap. -/
def firstTrap (l : List (Prop × Trap)) (t : Option Trap) : Prop :=
  match l with
  | [] => t = none
  | (c, x) :: rest => (c ∧ t = some x) ∨ (¬ c ∧ firstTrap rest t)

/-- Descriptor words that keep their table: the first that does not is ILLEGAL_INSTR with its index in info word 1 (R99). -/
def BadWords (i : Instr) (c : View → Prop) (oks : View → List Bool) : Prop :=
  ∀ s v, s.dev.issuer = some v → Ready i v → c v → ∀ n < (oks v).length, (oks v).getD n true = false →
    (∀ k < n, (oks v).getD k true = true) →
    exec i s = .next (s.withDev (v.traps i { cause := 0x02, lanes := v.act, info0 := opWord i, info1 := BitVec.ofNat 32 n }))

/-- Uniform `i` of the block of words at `a`. -/
def desc (v : View) (a : BitVec 7) (i : Nat) : Word := v.g.uni (a.toNat + i)

/-- A copy: its two ends, its rows and its pitches. -/
structure CopyShape where
  src : Place
  dst : Place
  len : Nat
  rows : Nat
  spitch : Nat
  dpitch : Nat

/-- The level that a number names (Tables 9-7, 9-8, 10-5), at an offset. -/
def scratchPlace (v : View) (n off : Nat) : Place :=
  .scratch (match n with
    | 0 => .core v.b (v.k.pos v.n)
    | 1 => .clu v.b (v.k.cluIdx v.n)
    | _ => .chip v.k.part) off

/-- COPY's block (Table 9-7). -/
def copyShape (v : View) (a : BitVec 7) : CopyShape :=
  let w := desc v a
  let mem : Place := .mem (((w 1).extractLsb' 0 20 ++ w 0 : BitVec 52).toNat)
  let scr := scratchPlace v ((w 1).extractLsb' 20 2).toNat (w 2).toNat
  let len := ((w 3).extractLsb' 0 24).toNat
  if (w 1).getLsbD 22 then ⟨scr, mem, len, 1, len, len⟩ else ⟨mem, scr, len, 1, len, len⟩

/-- An end of COPY2 (Table 9-8). -/
def copyEnd (v : View) (lo hi : Word) : Place :=
  match (hi.extractLsb' 20 4).toNat with
  | 0 => .mem ((hi.extractLsb' 0 20 ++ lo : BitVec 52).toNat)
  | 1 => .view lo (256 * (hi.extractLsb' 0 20).toNat)
  | n + 2 => scratchPlace v n lo.toNat

/-- COPY2's block (Table 9-8). -/
def copy2Shape (v : View) (a : BitVec 7) : CopyShape :=
  let w := desc v a
  ⟨copyEnd v (w 0) (w 1), copyEnd v (w 2) (w 3), ((w 4).extractLsb' 0 24).toNat, ((w 5).extractLsb' 0 16).toNat, (w 6).toNat, (w 7).toNat⟩

/-- The last byte of a scratch end lies in its level, outside the register windows (R235). -/
def placeFits (v : View) (p : Place) (n : Nat) : Prop :=
  match p with
  | .scratch (.core _ _) a => a + n ≤ v.k.lrec.cscr * 4096
  | .scratch (.clu _ _) a => a + n ≤ v.k.lrec.cshr * 4096
  | .scratch (.chip _) a => a + n ≤ v.part.cfg.chipShare * v.part.cfg.slices.length
  | .scratch (.lane _ _ _) _ => False
  | _ => True

/-- The address or offset of an end is a multiple of 4; a handle's offset always is. -/
def placeAligned (p : Place) : Prop :=
  match p with
  | .mem a => a % 4 = 0
  | .scratch _ a => a % 4 = 0
  | .view _ _ => True

/-- The destination is not one that a replayable block may write (R45). -/
def replayBarred (v : View) (q : CopyShape) : Prop :=
  match q.dst with
  | .mem _ => True
  | .scratch (.chip _) a => ∃ r < q.rows, v.k.inChipRegions (a + r * q.dpitch) q.len = false
  | _ => False

/-- A command or a channel but for how its permits stand. -/
def bareCmd (x : CopyCmd) : CopyCmd := { x with granted := false, reserve := false }
def bareChan (c : Channel) : Channel := { c with cmds := c.cmds.map bareCmd }

/-- The trap that reports a channel's error (R238, R240). -/
def channelTrap (v : View) (c : BitVec 3) (e : Nat × Nat × Nat) : Trap :=
  { cause := e.1, origin := e.2.1, lanes := v.act, info0 := c.zeroExtend 32, info1 := BitVec.ofNat 32 e.2.2,
    info2 := BitVec.ofNat 32 (e.2.2 / 2 ^ 32) }

/-- R235 from the second check on, then R232: with 8 commands held the group blocks, else the command stands last on its channel, its
pieces covering every byte of every row in delivery order (R236). -/
def CopyIssues (i : Instr) (c : BitVec 3) (ok : View → List Bool) (shape : View → CopyShape) : Prop :=
  ∀ s v, s.dev.issuer = some v → Ready i v → (∀ x ∈ ok v, x = true) →
    let q := shape v
    let ch := nth v.k.chans c.toNat Channel.init
    let extent (pitch : Nat) : Nat := pitch * (q.rows - 1) + q.len
    let handle : Option LEntry := match q.src with
      | .view h _ => if h.toNat < v.part.cfg.layerT ∧ (FMap.get LEntry.free v.part.layers h.toNat).live = true then
          some (FMap.get LEntry.free v.part.layers h.toNat) else none
      | _ => none
    let isView : Prop := match q.src with
      | .view _ _ => True
      | _ => False
    ∀ t, firstTrap [(¬ placeAligned q.src ∨ ¬ placeAligned q.dst, { cause := 0x0B, lanes := v.act }),
        (¬ placeFits v q.src (extent q.spitch) ∨ ¬ placeFits v q.dst (extent q.dpitch), { cause := 0x0A, lanes := v.act }),
        (isView ∧ handle = none, { cause := 0x18, lanes := v.act }),
        (ch.err ≠ none, channelTrap v c (ch.err.getD (0, 0, 0))),
        (v.k.lrec.repl = true ∧ replayBarred v q, { cause := 0x19, lanes := v.act })] t →
      (∀ x, t = some x → exec i s = .next (s.withDev (v.traps i x))) ∧
      (t = none → 8 ≤ ch.cmds.length → exec i s = .next (s.withDev (v.blocks v.d (.channel c.toNat)))) ∧
      (t = none → ch.cmds.length < 8 → ∃ d : Dev, ∃ x : CopyCmd, ∃ k : Block,
        exec i s = .next (s.withDev (v.completes d v.issued)) ∧ d = { v.d with nextId := v.d.nextId + 1, blocks := d.blocks, govs := d.govs } ∧
        d.blocks[v.b]? = some k ∧
        k.chans.map bareChan = (setNth v.k.chans c.toNat { ch with cmds := ch.cmds ++ [x] }).map bareChan ∧
        x.id = v.d.nextId ∧ x.grp = v.n ∧ x.src = q.src ∧ x.dst = q.dst ∧ x.snap = handle ∧ x.total = q.len * q.rows ∧ x.started = false ∧
        x.pieces.flatMap (fun p => (List.range p.len).map (fun j => (p.srcOff + j, p.dstOff + j))) =
          (List.range q.rows).flatMap (fun r => (List.range q.len).map (fun j => (r * q.spitch + j, r * q.dpitch + j))) ∧
        ∀ p ∈ x.pieces, p.done = false)

/-- No copy of a sector that meets bytes delivered below pointer value `p` is left in the core's cache (R217). -/
def freshBelow (d : Dev) (core : Nat) (ch : Channel) (p : Nat) : Prop :=
  ∀ x ∈ (d.core core).l1, ∀ t ∈ ch.dests, t.1 = x.space → t.2.2.2 < p →
    t.2.1 + t.2.2.1 ≤ 64 * x.sec ∨ 64 * x.sec + 64 ≤ t.2.1

/-- What a far atomic leaves in its word (R241): AT's operations, add.f32 rounded to nearest even, and cas. -/
def farResult (f : FatomOp) (old x y : Word) : Word :=
  match f with
  | .addI => old + x
  | .addF32 => BitVec.ofNat 32 (f32.finish .rne false (addExact .rne (f32.read old.toNat) (f32.read x.toNat))).bits
  | .min => if old.toInt ≤ x.toInt then old else x
  | .max => if old.toInt ≤ x.toInt then x else old
  | .minN => if old.toNat ≤ x.toNat then old else x
  | .maxN => if old.toNat ≤ x.toNat then x else old
  | .exch => x
  | .cas => if old = x then y else old

/-- A command that its group waits for: the block's words are checked, then REPLAY_VIOLATION in a replayable block where `bars`, with `info` in info
word 0; else the unit has the command, and `regs` are empty (R280, R296). -/
def HandedOver (i : Instr) (oks : View → List Bool) (bars : Bool) (info : View → Word) (regs : View → List RegRef)
    (vals : View → List (Nat × List Word)) (unis : View → List Word) : Prop :=
  BadWords i (fun _ => True) oks ∧
  AnswersIf i (fun v => (∀ x ∈ oks v, x = true) ∧ bars = true ∧ v.k.lrec.repl = true)
    (fun v => v.traps i { cause := 0x19, lanes := v.act, info0 := info v }) ∧
  AnswersIf i (fun v => (∀ x ∈ oks v, x = true) ∧ (bars = true → v.k.lrec.repl = false))
    (fun v => v.waitsFor { v.d with nextId := v.d.nextId + 1 } i v.d.nextId (regs v) (vals v) (unis v))

/-- Words of a block of uniforms. -/
def blockOf (v : View) (a : BitVec 7) (n : Nat) : List Word := (List.range n).map (desc v a)

/-- Bits 31:20 of the high word of an address are zero. -/
def highOk (w : Word) : Bool := decide (w.extractLsb' 20 12 = 0)

/-- Bytes of `n` elements of a base format (Table 11-1). -/
def packedLen (bfmt : BitVec 2) (n : Nat) : Nat := if bfmt = 0 then n else if bfmt = 1 then n / 2 else 2 * n

/-- Table 11-5. -/
def newWords (v : View) (a : BitVec 7) : List Bool :=
  let w := desc v a
  let bfmt : BitVec 2 := (w 0).extractLsb' 0 2
  let klen := (w 6).toNat
  [decide ((w 0).extractLsb' 10 22 = 0 ∧ (w 0).extractLsb' 2 6 = 0 ∧ (w 0).getLsbD 9 = false ∧ bfmt ≠ 3),
   decide ((w 1).extractLsb' 0 4 = 0), highOk (w 2), true, highOk (w 4),
   decide (1 ≤ (w 5).toNat ∧ (w 5).toNat ≤ 2 ^ 24), decide (klen % 32 = 0 ∧ 32 ≤ klen ∧ klen ≤ 2 ^ 24),
   decide ((w 7).extractLsb' 0 4 = 0 ∧ packedLen bfmt klen ≤ (w 7).toNat), decide (klen / 32 ≤ (w 8).toNat),
   decide ((w 9).extractLsb' 0 4 = 0), highOk (w 10),
   decide ((w 9).toNat + 2 ^ 32 * (w 10).toNat = 0 → w 11 = 0), highOk (w 12) && decide ((w 9).toNat + 2 ^ 32 * (w 10).toNat = 0 → w 12 = 0),
   decide (w 13 = 0), decide (w 14 = 0), decide (w 15 = 0)]

/-- Table 11-2, in the words of LT.ATT (R283). -/
def attachWords (v : View) (b : BitVec 7) : List Bool :=
  let w := desc v b
  let low : Bool := decide ((w 0).extractLsb' 0 8 = 1)
  [decide (((w 0).extractLsb' 0 8).toNat < 2 ∧ (w 0).extractLsb' 24 8 = 0) &&
     (if low then decide (1 ≤ ((w 0).extractLsb' 8 8).toNat ∧ ((w 0).extractLsb' 8 8).toNat ≤ 32)
      else decide ((w 0).extractLsb' 8 8 = 0 ∧ (w 0).extractLsb' 16 8 = 0)),
   if low then decide (w 1 = 0) else decide ((w 1).toNat ≤ 2 ^ 24),
   decide ((w 2).toNat % (if low then 32 else 8) = 0), highOk (w 3),
   if low then decide ((w 4).toNat % 32 = 0) else decide (w 4 = 0),
   if low then highOk (w 5) else decide (w 5 = 0),
   decide (w 6 = 0), decide (w 7 = 0)]

/-- Words of a record, by the size code of its handle (R290). -/
def recordWords (h : Word) : Nat := match (h.extractLsb' 0 2).toNat with
  | 0 => 4
  | 1 => 8
  | _ => 16

/-- The record registers that the handle asks for lie below the budget, or are h registers at level H (R360); a handle with size code 3 makes
no test (R296). -/
def recordFits (v : View) (r : BitVec 7) (h : Word) : Bool :=
  decide (h.extractLsb' 0 2 = 3) || (List.range (recordWords h)).all (fun i =>
    let n := r.toNat + i
    decide (n < 128 ∧ ((v.g.levelH = true ∧ 112 ≤ n) ∨ n < 8 * v.g.budget)))

/-- The records of the active lanes. -/
def records (v : View) (b : BitVec 7) (n : Nat) : List (Nat × List Word) :=
  v.act.lanes.map (fun l => (l, (List.range n).map (fun i => v.g.word (v.g.vreg (b.toNat + i)) l)))

/-- A group's command meets its unit: the device and the block run, and the group waits for the command. -/
structure MeetsUnit (s : State) (b n : Nat) (k : Block) (g : Group) (c : UnitCmd) : Prop where
  runs : s.plat.phase = .running
  block : s.dev.blocks[b]? = some k
  life : k.life = .running
  group : s.dev.group b n = some g
  cmd : g.cmd = some c

/-- The unit has performed a command: it counts as an instruction of its group, which takes `f` and goes on at the next word, a selection
point; the results for `regs`, lane by lane, stand as an answer (R88, R280, R296). -/
def Dev.performed (d : Dev) (b n op : Nat) (f : Group → Group) (regs : List RegRef) (vals : List (Nat × List (Word × Nat))) : Dev :=
  let d1 := d.modGroup b n (fun g =>
    { (f { g with frontier := { g.head with run := g.head.run + 1, last := d.cycle } :: g.frontier.tail }).goesOn with
      cmd := none, sel := false, why := .ready, readyAt := none })
  (if regs = [] then d1 else { d1 with cmds := d1.cmds ++ [⟨op, b, n, BitVec.allOnes 32, regs, .answer vals⟩] }).settle

/-- The unit refuses the command: its destinations are not marked any more, and the trap is at the instruction. -/
def Dev.refused (d : Dev) (b n : Nat) (g : Group) (c : UnitCmd) (t : Trap) : Dev :=
  takeTrap (d.putGroup b n { g with flights := g.flights.filter (fun f => decide (f.op ≠ c.op)), cmd := none, why := .ready }) b n
    { cause := t.cause, origin := t.origin, pc := g.head.pc, lanes := t.lanes, act := g.active, info0 := t.info0, info1 := t.info1,
      info2 := t.info2, word := opWord c.instr }

/-- The command is at the unit, which has its turn to come. -/
def Dev.heldThere (d : Dev) (b n : Nat) (c : UnitCmd) : Dev :=
  d.modGroup b n (fun g => { g with cmd := some { c with waits := true } })

/-- A partition's layer table entry. -/
def entryAt (d : Dev) (p h : Nat) : LEntry := FMap.get LEntry.free (d.part p).layers h
def setEntry (d : Dev) (p h : Nat) (e : LEntry) : Dev :=
  d.modPart p (fun x => { x with layers := FMap.set LEntry.free x.layers h e })

/-- Ranges of bytes that share one. -/
def shareByte (a n b m : Nat) : Prop := ∃ x, a ≤ x ∧ x < a + n ∧ b ≤ x ∧ x < b + m

/-- A fold's buffer overlaps the base arrays of its entry (R285). -/
def bufferMeets (e : LEntry) (buf bscl : Nat) : Prop :=
  let elems := e.lines * (if e.vfmt = 0 then e.klen else 2 * e.klen)
  let scales := e.lines * (e.klen / 32)
  let base := e.epitch * (e.lines - 1) + packedLen (BitVec.ofNat 2 e.bfmt) e.klen
  let bases := e.spitch * (e.lines - 1) + e.klen / 32
  shareByte buf elems e.base base ∨ shareByte buf elems e.bscl bases ∨ shareByte bscl scales e.base base ∨
    shareByte bscl scales e.bscl bases

/-- A run of reads answers `x` over a device, which becomes `d'`: its lines, counters and requests move on. -/
def Yields {α : Type} (r : Rd α) (d : Dev) (x : α) (d' : Dev) : Prop := r.run.run d = (.ok x, d')

/-- The nearest integer, a tie going to the even one. -/
def nearest (q : ℚ) : Int := toInteger .rne q

/-- The tray of a handle's descriptor. -/
def sameTray (h : Word) (t : Tray) : Bool := decide (t.handle.toNat / 128 = h.toNat / 128)

/-- A handle's parts are sound for a partition (Table 12-4, code 0). -/
def handleSound (d : Dev) (p : Nat) (h : Word) : Prop :=
  h.extractLsb' 2 5 = 0 ∧ h.extractLsb' 0 2 ≠ 3 ∧
  h.toNat / 128 * 128 + 128 ≤ (d.part p).cfg.chipShare * (d.part p).cfg.slices.length

/-- The home unit holds a tray for the handle, which names its record size. -/
structure HoldsTray (d : Dev) (p : Nat) (h : Word) (t : Tray) : Prop where
  sound : handleSound d p h
  found : (d.part p).trays.find? (sameTray h) = some t
  size : t.rs = (h.extractLsb' 0 2).toNat

/-- One tray of a partition has become `t'`, the others `f` of themselves; nothing else has changed but the cores given. -/
structure TrayStep (d d' : Dev) (p : Nat) (h : Word) (t' : Tray) (f : Tray → Tray) (cores : FMap CoreSt) : Prop where
  rest : d' = { d with parts := d'.parts, cores := cores }
  part : ∀ q, d'.part q = if q = p then { d.part p with trays := (d'.part p).trays } else d.part q
  tray : (d'.part p).trays.find? (sameTray h) = some t'
  others : (d'.part p).trays.filter (fun x => !sameTray h x) = ((d.part p).trays.filter (fun x => !sameTray h x)).map f

/-- A tray but for how often the program has stored into its deduplication set (R304). -/
def Tray.bare (t : Tray) : Tray := { t with harm := 0 }

/-- A tray is done (R293): it gives its pool bytes back, its counts and STATE 4 stand in the descriptor, its deduplication set's bytes are the
program's again with whatever the unit left there (R304), and the groups that wait at it issue their operations anew. -/
structure TrayEnds (d d' : Dev) (p : Nat) (h : Word) (t : Tray) (f : Tray → Tray) (cores : FMap CoreSt) : Prop where
  rest : d' = { d with parts := d'.parts, blocks := d'.blocks, cores := cores }
  part : ∀ q, d'.part q = if q = p then
    { d.part p with trays := (d'.part p).trays, chip := (d'.part p).chip, chipP := (d'.part p).chipP,
                    poolUsed := (d.part p).poolUsed - t.cap * (4 * recordWords h),
                    late := (d.part p).late ++ t.writes.map (fun x => ⟨t.handle, t.spill + 4 * recordWords h * (x.no % t.spcap), x⟩) }
    else d.part q
  gone : (d'.part p).trays.find? (sameTray h) = none
  others : ((d'.part p).trays.filter (fun x => !sameTray h x)).map Tray.bare =
    ((d.part p).trays.filter (fun x => !sameTray h x)).map (fun x => (f x).bare)
  chip : ∀ a,
    let o := h.toNat / 128 * 128
    if a = o then Memory.read (d'.part p).chip a = 4
    else if o + 0x20 ≤ a ∧ a < o + 0x30 then Memory.read (d'.part p).chip a =
      BitVec.ofNat 8 ([t.pushed, t.popped, t.spilled, t.dups].getD ((a - o - 0x20) / 4) 0 / 256 ^ ((a - o - 0x20) % 4))
    else (t.dedup = true ∧ t.dset ≤ a ∧ a < t.dset + 8 * t.dcap) ∨ Memory.read (d'.part p).chip a = Memory.read (d.part p).chip a
  waiters : ∀ b n, d'.group b n = (d.group b n).map (fun g =>
    if (t.waitPush ++ t.waitPop).any (fun w => decide (w.blk = b ∧ w.grp = n)) then { g with cmd := g.cmd.map (fun c => { c with waits := false }) }
    else g)

/-- A tray after records have entered at its newest end (R294): the pool takes them while it has room, the spill ring the others, whose
writes start, from the cluster whose group inserted them. -/
def afterPush (clu : Nat) (t : Tray) (rs : List (List Word × Option Word)) (cycle : Nat) : Tray :=
  let number (i : Nat) : Option Nat :=
    if t.cap ≤ t.recs.length + i then some (t.spilled + (t.recs.length + i - max t.cap t.recs.length)) else none
  let words (r : List Word × Option Word) : List (Word × Nat) := r.1.map (fun w => (w, 0))
  { t with
    recs := t.recs ++ rs.zipIdx.map (fun x => { words := words x.1, key := x.1.2, spillNo := number x.2 }),
    writes := t.writes ++ rs.zipIdx.filterMap (fun x => (number x.2).map (fun m => { no := m, words := words x.1, clu := clu })),
    spilled := t.spilled + (t.recs.length + rs.length - max t.cap t.recs.length), pushed := t.pushed + rs.length,
    timer := if t.bound.isSome = true ∧ t.recs = [] ∧ rs ≠ [] then some cycle else t.timer }

/-- Records leave a tray: with DREM, so do their keys (R299). -/
def afterPop (t : Tray) (out rest : List Rec) : Tray :=
  { t with
    recs := rest, popped := t.popped + out.length,
    keys := if t.drem then t.keys.filter (fun x => !(out.any (fun r => decide (r.key = some x)))) else t.keys }

/-- R301, lane by lane: each key's answer, and what becomes of the tray. -/
def insertKeys (clu w : Nat) (cycle : Nat) : Tray → List Word → List Word × Tray
  | t, [] => ([], t)
  | t, x :: rest =>
    let r : List Word := x :: List.replicate (w - 1) 0
    let y : Word × Tray :=
      if x ∈ t.keys then (0, { t with dups := t.dups + 1 })
      else if t.dcap ≤ t.keys.length then (2, afterPush clu t [(r, none)] cycle)
      else (1, afterPush clu { t with keys := t.keys ++ [x] } [(r, some x)] cycle)
    (y.1 :: (insertKeys clu w cycle y.2 rest).1, (insertKeys clu w cycle y.2 rest).2)

/-- The lanes of a mask, in ascending order. -/
def lanesOf (m : Mask) : List Nat := (List.range 32).filter (fun l => m.getLsbD l)

/-- A pop's answer: each lane's record in its registers, zeros for a lane that gets none (R299). -/
def popWords (lanes : List Nat) (w : Nat) (rs : List Rec) : List (Nat × List (Word × Nat)) :=
  lanes.zipIdx.map (fun x => (x.1, (List.range w).map (fun i => ((rs[x.2]?).map (fun r => r.words.getD i (0, 0))).getD (0, 0))))

/-- A group waits until its pop's records have landed behind earlier results for the same registers (R216). -/
def Dev.lands (d : Dev) (b n : Nat) (regs : List RegRef) : Dev :=
  d.modGroup b n (fun g => if ∃ r ∈ regs, g.empty r = true then { g with why := .cond (.regs regs) } else g)

/-- Predicate p6 takes these bits, and D's full or empty state (R69, R299). -/
def takesP6 (m : Mask) (lanes : List Nat) (reg : RegRef) (g : Group) : Group :=
  g.setP6 m (Mask.ofFn (fun l => lanes.contains l)) reg

/-- The block owns tile name `n`, which denotes tile `i`. -/
def View.ownsTile (v : View) (n i : Nat) (x : Tile) : Prop := v.k.tiles[n]? = some (some i) ∧ v.d.tiles[i]? = some x

/-- Rows and columns of a shape: 0 256, 1 128, 2 64. -/
def sideOf (shape : Nat) : Nat := if shape = 0 then 256 else if shape = 1 then 128 else 64

/-- A command joins the end of a tile's order (R264). -/
def queued (d : Dev) (i : Nat) (c : TileCmd) : Dev := d.modTile i (fun x => { x with order := x.order ++ [c] })

/-- A pass template (Table 10-1). -/
def templateAt (v : View) (a : BitVec 7) : Template :=
  let w := desc v a
  { kind := ((w 0).extractLsb' 20 2).toNat, klen := 32 * ((w 0).extractLsb' 16 4).toNat, mapA := ((w 0).extractLsb' 8 3).toNat,
    mapB := ((w 0).extractLsb' 12 3).toNat, tile := ((w 0).extractLsb' 4 3).toNat, fmt := ((w 0).extractLsb' 2 2).toNat,
    shape := ((w 0).extractLsb' 0 2).toNat, gbase := (w 1).toNat, ak := ((w 2).extractLsb' 16 16).toNat,
    arow := ((w 2).extractLsb' 0 16).toNat, bk := ((w 3).extractLsb' 16 16).toNat, bcol := ((w 3).extractLsb' 0 16).toNat,
    gcnt := (w 4).toNat, taboff := (w 5).toNat }

/-- The words of a template that keep Table 10-1; the tile it names, if the block holds it, is of its shape (R248). -/
def templateWords (v : View) (a : BitVec 7) : List Bool :=
  let w := desc v a
  let t := templateAt v a
  let wrongTile : Bool := match v.k.tiles[t.tile]? with
    | some (some i) => (match v.d.tiles[i]? with
      | some x => decide (x.shape ≠ t.shape)
      | none => false)
    | _ => false
  [decide ((w 0).extractLsb' 22 10 = 0 ∧ t.kind ≠ 3 ∧ 32 ≤ t.klen ∧ t.klen ≤ 256 ∧ t.fmt ≠ 3 ∧ t.shape ≠ 3 ∧
     (w 0).getLsbD 15 = false ∧ (w 0).getLsbD 11 = false ∧ (w 0).getLsbD 7 = false) && !wrongTile,
   decide ((w 1).extractLsb' 11 21 = 0), true, true,
   if t.kind = 2 then decide (1 ≤ t.gcnt ∧ t.gcnt ≤ 32) else decide (w 4 = 0),
   if t.kind = 2 then decide (t.taboff % 4 = 0) else decide (w 5 = 0),
   decide (w 6 = 0), decide (w 7 = 0)]

/-- The live entry of a handle. -/
def View.handle (v : View) (h : Nat) : Option LEntry :=
  if h < v.part.cfg.layerT ∧ (entryAt v.d v.k.part h).live = true then some (entryAt v.d v.k.part h) else none

/-- A map serves a pass (R248 check 1): it is set; a sparse pass has bitmaps and no handle; a handle's view has the pass's format. -/
def mapServes (v : View) (t : Template) (m : OpMap) : Prop :=
  match m with
  | .idle => False
  | .core _ _ _ _ _ bm => t.kind = 1 → bm.isSome = true
  | .clu _ _ _ _ bm => t.kind = 1 → bm.isSome = true
  | .hnd h => t.kind ≠ 1 ∧ t.fmt ≠ 1 ∧ ∀ e, v.handle h.toNat = some e → (t.fmt = 0 ∧ e.vfmt = 0) ∨ (t.fmt = 2 ∧ e.vfmt = 1)

/-- A handle map's window lies in its live handle's view (R248 check 4). -/
def mapLive (v : View) (t : Template) (m : OpMap) (row n k0 : Nat) : Prop :=
  match m with
  | .hnd h => ∃ e, v.handle h.toNat = some e ∧ row + n ≤ e.lines ∧ 32 * k0 + t.klen ≤ e.klen
  | _ => True

/-- The last byte of a scratch map's window lies in its level (R248 check 5). -/
def mapFits (v : View) (t : Template) (m : OpMap) (row n k0 : Nat) : Prop :=
  let blk := if t.fmt = 0 then 32 else if t.fmt = 1 then 16 else 64
  let kb := t.klen / 32
  let last := row + n - 1
  let fits (size d0 d1 ep sp : Nat) (bm : Option Nat) : Prop :=
    d0 + last * ep + k0 * blk + kb * blk ≤ size ∧ d1 + last * sp + k0 + kb ≤ size ∧
    ∀ d3, bm = some d3 → t.kind = 1 → d3 + 4 * (last * sp + k0) + 4 * kb ≤ size
  match m with
  | .core _ d0 d1 ep sp bm => fits (v.k.lrec.cscr * 4096) d0 d1 ep sp bm
  | .clu d0 d1 ep sp bm => fits (v.k.lrec.cshr * 4096) d0 d1 ep sp bm
  | _ => True

/-- Word `i` of a row-offset table, as the issuing core sees it (R257). -/
def View.tableWord (v : View) (t : Template) (i : Nat) : Nat :=
  (v.d.seenWord v.core v.b v.n v.d.nextId (.core v.b (v.k.pos v.n)) (t.taboff + 4 * i)).1.toNat

/-- The groups that a mask names from a base on. -/
def namedGroups (base : Nat) (m : Word) : List Nat := (lanesOf m).map (· + base)

/-- A tile instruction of a name the block does not hold is ACC_UNOWNED (R265). -/
def NeedsTile (i : Instr) (c : View → Prop) (t : BitVec 3) : Prop :=
  AnswersIf i (fun v => c v ∧ ∀ n x, ¬ v.ownsTile t.toNat n x) (fun v => v.traps i { cause := 0x16, lanes := v.act })

/-- On an owned name, tile `n` as `x`, it answers `f`. -/
def OnTile (i : Instr) (c : View → Tile → Prop) (t : BitVec 3) (f : View → Nat → Tile → Dev) : Prop :=
  ∀ s v n x, s.dev.issuer = some v → Ready i v → v.ownsTile t.toNat n x → c v x → exec i s = .next (s.withDev (f v n x))

/-- The window of MRD and MWR lies beyond the tile (R266). -/
def outside (x : Tile) (sb : Word) (k : Nat) : Prop :=
  sideOf x.shape ≤ (sb.extractLsb' 16 16).toNat + 31 ∨ sideOf x.shape ≤ (sb.extractLsb' 0 16).toNat + k - 1

/-- An integer times a power of two. -/
def scaledInt (x e : Int) : FVal := if x = 0 then .zero false else .fin (decide (x < 0)) x.natAbs e

/-- The exact sum of the products of two lines. -/
def exactDot (a b : List Int) : Int := ((a.zip b).map (fun x => x.1 * x.2)).sum

/-- An accumulator element after a K-tile (R132). -/
def accumulated (old : Word) (a b : Aligned) : Word :=
  let p : Nat := if a.nan || b.nan then f32.nanBits
    else (f32.finish .rne false ⟨scaledInt (exactDot a.q b.q) (a.e + b.e - 254), false⟩).bits
  BitVec.ofNat 32 (f32.finish .rne false (addExact .rne (f32.read old.toNat) (f32.read p))).bits

/-- An accumulator element. -/
def elemOfTile (x : Tile) (i j : Nat) : Word := FMap.get 0 x.vals (256 * i + j)
def poisonOfTile (x : Tile) (i j : Nat) : Nat := FMap.get 0 x.pois (256 * i + j)

/-- What a drain writes for an element (R142), but for .st.q8. -/
def drainedBytes (f : DrainForm) (w old : Word) : List Byte :=
  match f with
  | .stF32 => (List.range 4).map (fun j => w.extractLsb' (8 * j) 8)
  | .addF32 =>
    let r : Word := BitVec.ofNat 32 (f32.finish .rne false (addExact .rne (f32.read old.toNat) (f32.read w.toNat))).bits
    (List.range 4).map (fun j => r.extractLsb' (8 * j) 8)
  | .stF16 =>
    let r : Word := BitVec.ofNat 32 (f16.finish .rne false ⟨f32.read w.toNat, (f32.read w.toNat).isNan⟩).bits
    (List.range 2).map (fun j => r.extractLsb' (8 * j) 8)
  | .stBf16 =>
    let r : Word := BitVec.ofNat 32 (bf16.finish .rne false ⟨f32.read w.toNat, (f32.read w.toNat).isNan⟩).bits
    (List.range 2).map (fun j => r.extractLsb' (8 * j) 8)
  | .stQ8 => []

/-- A pass of the engine that may be chosen (R259): it has not started and is the oldest of its tile. -/
def mayChoose (e : Engine) (p : Pass) : Prop := p ∈ e.table ∧ p.started = none ∧ ∀ q ∈ e.table, q.tile = p.tile → p.id ≤ q.id

/-- The array's mode switch once pass `p` is chosen (R259): under way already, or begun now if another shape's passes have all ended. -/
def switchFor (e : Engine) (p : Pass) (cycle : Nat) : Option (Nat × Nat) :=
  if e.switch = none ∧ e.mode ≠ p.sign.tpl.shape ∧ ∀ q ∈ e.table, q.started = none then some (p.sign.tpl.shape, cycle) else e.switch

/-- Two drains of tiles `s` and `t` write some byte of one memory (R216). -/
def drainsMeet (x : Drain) (s : Tile) (y : Drain) (t : Tile) : Prop :=
  let base (p : Place) : Nat := match p with
    | .mem a => a
    | .scratch _ a => a
    | .view _ a => a
  let rows (z : Drain) (u : Tile) (a n : Nat) : Prop :=
    let n1 := sideOf u.shape * (match z.form with
      | .stF32 => 4
      | .addF32 => 4
      | .stQ8 => 1
      | _ => 2)
    (∃ r < sideOf u.shape, a = base z.dst + r * z.pitch ∧ n = n1) ∨
    (z.form = .stQ8 ∧ a = base z.dst + z.soff ∧ n = sideOf u.shape * (sideOf u.shape / 32))
  (match x.dst, y.dst with
    | .mem _, .mem _ => True
    | .scratch p _, .scratch q _ => p = q
    | _, _ => False) ∧
  ∃ a n b m, rows x s a n ∧ rows y t b m ∧ shareByte a n b m

/-- A set table entry. -/
def setAt (d : Dev) (p i : Nat) : SetEntry := FMap.get SetEntry.free (d.part p).sets i
def putSet (d : Dev) (p i : Nat) (e : SetEntry) : Dev :=
  d.modPart p (fun x => { x with sets := FMap.set SetEntry.free x.sets i e })

/-- The handle is live: its entry is allocated in its generation (R311). -/
def View.sees (v : View) (h : Word) (e : SetEntry) : Prop :=
  e = setAt v.d v.k.part (h.toNat % 256) ∧ e.alloc = true ∧ e.gen = h.toNat / 256

/-- A set trap: the handle in info word 0, the code in info word 1 (R317). -/
def View.setFault (v : View) (i : Instr) (cause : Nat) (h : Word) (code : Nat) : Dev :=
  v.traps i { cause := cause, lanes := v.act, info0 := h, info1 := BitVec.ofNat 32 code }

/-- On a live handle `h`, in a block that the instruction does not bar, it answers `f` (R317). -/
def OnSet (i : Instr) (h : View → Word) (bars : Bool) (c : View → SetEntry → Prop) (f : View → SetEntry → Dev) : Prop :=
  ∀ s v e, s.dev.issuer = some v → Ready i v → (bars = true → v.k.lrec.repl = false) → v.sees (h v) e → c v e →
    exec i s = .next (s.withDev (f v e))

/-- REPLAY_VIOLATION in a replayable block where `bars`, then HANDLE_INVALID on a handle that is not live (R317). -/
def SetFaults (i : Instr) (h : View → Word) (bars : Bool) : Prop :=
  AnswersIf i (fun v => bars = true ∧ v.k.lrec.repl = true) (fun v => v.setFault i 0x19 (h v) 0) ∧
  AnswersIf i (fun v => (bars = true → v.k.lrec.repl = false) ∧ ∀ e, ¬ v.sees (h v) e) (fun v => v.setFault i 0x18 (h v) 0)

/-- A word lands in a register at once where R79 lets it: the group, and the device over which it goes on. -/
def View.gives (v : View) (d : Dev) (r : RegRef) (vals : List (Nat × List (Word × Nat))) : Dev :=
  let g := { v.issued with flights := v.g.flights ++ [⟨r, d.nextId⟩] }
  let d1 : Dev := { d.putGroup v.b v.n g with
    nextId := d.nextId + 1, cmds := d.cmds ++ [⟨d.nextId, v.b, v.n, v.act, [r], .answer vals⟩] }
  v.completes d1.settle ((d1.settle.group v.b v.n).getD v.issued)

/-- Tables 13-1 and 13-2, FREE = 0. -/
def setWords (v : View) (a : BitVec 7) : List Bool :=
  let w := desc v a
  let x := ((w 1).extractLsb' 0 16).toNat + 1
  let y := ((w 1).extractLsb' 16 16).toNat + 1
  let grid := (w 2).getLsbD 13
  let den := (w 2).getLsbD 15
  let comp := (w 2).getLsbD 14
  let fmt : BitVec 2 := (w 2).extractLsb' 8 2
  let leaf := ((w 2).extractLsb' 0 8).toNat
  let zero (on : Bool) (i : Nat) : Bool := !on || decide (w i = 0)
  [decide (1 ≤ (w 0).toNat ∧ (w 0).toNat ≤ 2 ^ 24 ∧ (grid = true → (w 0).toNat = x * y)),
   decide (grid = true → x % 8 = 0 ∧ y % 8 = 0),
   decide ((w 2).extractLsb' 24 7 = 0 ∧ (w 2).extractLsb' 16 4 = 0 ∧ (w 2).extractLsb' 10 3 = 0 ∧
     (den = false → (w 2).getLsbD 23 = false ∧ (w 2).extractLsb' 20 3 = 0) ∧ (comp = true → grid = true ∧ fmt = 0) ∧
     (fmt = 3 → den = true) ∧ (grid = false → 4 ≤ leaf ∧ leaf ≤ 64)),
   decide ((w 3).extractLsb' 0 3 = 0) && zero grid 3, highOk (w 4) && zero grid 4,
   decide ((w 5).extractLsb' 0 8 = 0), highOk (w 6), decide ((w 7).extractLsb' 0 8 = 0) && zero (!den) 7,
   highOk (w 8) && zero (!den) 8, decide ((w 9).extractLsb' 0 8 = 0), highOk (w 10), true, highOk (w 12), true, true, true]

/-- The fields of a descriptor. -/
def setDescAt (v : View) (a : BitVec 7) : SetDesc :=
  let w := desc v a
  let pair (i : Nat) : Nat := (w i).toNat + 2 ^ 32 * (w (i + 1)).toNat
  { cap := (w 0).toNat, w := ((w 1).extractLsb' 0 16).toNat + 1, h := ((w 1).extractLsb' 16 16).toNat + 1, dwr := (w 2).getLsbD 23,
    dfn := ((w 2).extractLsb' 20 3).toNat, den := (w 2).getLsbD 15, comp := (w 2).getLsbD 14, grid := (w 2).getLsbD 13,
    fmt := ((w 2).extractLsb' 8 2).toNat, l := ((w 2).extractLsb' 0 8).toNat, pos := pair 3, res := pair 5, dep := pair 7, ws := pair 9,
    frag := pair 11, clrc0 := w 13, clrc1 := w 14, clrd := w 15 }

/-- Colour words of a result (R333). -/
def colourWords (s : SetDesc) : Nat := if s.fmt = 0 then 1 else if s.fmt = 1 then 2 else if s.fmt = 2 then 1 else 0

/-- A texture lookup at issue (R339, R340, R341, R342): Table 13-10, then the unit has the inputs, and D to D + 3 are empty. -/
def TexIssues (i : Instr) (gather : Option Nat) (lod : Bool) (f : TexFilter) (d a b : BitVec 7) : Prop :=
  let w := fun (v : View) => desc v a
  let oks := fun (v : View) => [decide ((w v 0).extractLsb' 0 8 = 0), highOk (w v 1), true,
    decide ((w v 3).extractLsb' 17 15 = 0 ∧ (w v 3).extractLsb' 11 2 ≠ 3#2 ∧ (w v 3).extractLsb' 9 2 ≠ 3#2 ∧ ((w v 3).extractLsb' 0 4).toNat < 3)]
  let regs := fun (v : View) => (List.range 4).map (fun j => v.g.vreg (d.toNat + j))
  let x := fun (v : View) (j l : Nat) => v.g.word (v.g.vreg (b.toNat + j)) l
  BadWords i (fun _ => True) oks ∧
  AnswersIf i (fun v => ∀ y ∈ oks v, y = true) (fun v =>
    v.completes { v.d with nextId := v.d.nextId + 1, cmds := v.d.cmds ++ [⟨v.d.nextId, v.b, v.n, v.act, regs v,
        .tex ⟨gather, lod, f, blockOf v a 4, (lanesOf v.act).map (fun l => (l, x v 0 l, x v 1 l, if lod then x v 2 l else 0)),
          (List.range 32).map (fun l => (l, x v 0 l, x v 1 l)), v.g.gcr⟩⟩] }
      { v.issued with flights := v.g.flights ++ (regs v).map (fun r => ⟨r, v.d.nextId⟩) })

/-- A chunk's cell in 1/256 pixels (R314, R322). -/
def chunkCell (e : SetEntry) (c : Nat) : Nat × Nat × Nat :=
  if e.desc.grid then (2048 * (c % (e.desc.w / 8)), 2048 * (c / (e.desc.w / 8)), 2048)
  else let k := e.chunks.getD c ⟨0, 0, 0, []⟩
    (k.x0, k.y0, k.size)

/-- A triangle's vertices, and where it is sent (R325, R327). -/
def Tri.x (t : Tri) (v : Nat) : Int := (t.words.getD (3 * v) 0).toInt
def Tri.y (t : Tri) (v : Nat) : Int := (t.words.getD (3 * v + 1) 0).toInt
def Tri.reaches (t : Tri) (cell : Nat × Nat × Nat) : Prop :=
  (∀ v < 3, -2 ^ 24 ≤ t.x v ∧ t.x v < 2 ^ 24 ∧ -2 ^ 24 ≤ t.y v ∧ t.y v < 2 ^ 24) ∧
  (∃ v < 3, t.x v < cell.1 + cell.2.2) ∧ (∃ v < 3, (cell.1 : Int) ≤ t.x v) ∧
  (∃ v < 3, t.y v < cell.2.1 + cell.2.2) ∧ (∃ v < 3, (cell.2.1 : Int) ≤ t.y v)

/-- E(i, p) of R328, over vertices in the order `o`. -/
def edgeOf (t : Tri) (o : Nat → Nat) (i : Nat) (p : Int × Int) : Int :=
  (t.x (o ((i + 1) % 3)) - t.x (o i)) * (p.2 - t.y (o i)) - (t.y (o ((i + 1) % 3)) - t.y (o i)) * (p.1 - t.x (o i))

/-- Coverage (R328). -/
def coverRule (t : Tri) (p : Int × Int) : Prop :=
  let area := edgeOf t id 0 (t.x 2, t.y 2)
  let o (v : Nat) : Nat := if area < 0 then (if v = 1 then 2 else if v = 2 then 1 else v) else v
  area ≠ 0 ∧ ∀ i < 3,
    let dx := t.x (o ((i + 1) % 3)) - t.x (o i)
    let dy := t.y (o ((i + 1) % 3)) - t.y (o i)
    0 < edgeOf t o i p ∨ (edgeOf t o i p = 0 ∧ ((dy = 0 ∧ 0 < dx) ∨ dy < 0))

/-- An RGBA8 channel blended (Table 13-7). -/
def blendByte (m : SresMode) (s c sa : Nat) : Nat :=
  match m with
  | .replace => s
  | .add => min 255 (c + s)
  | .atop => min 255 (s + (c * (255 - sa) + 127) / 255)
  | .min => min s c
  | .max => max s c

/-- Nothing of a triangle's work at a chunk is left. -/
def Dev.over (d : Dev) (w : Work) : Prop :=
  w.tested = true ∧ w.groups = [] ∧ ∀ b ∈ w.running, ∀ k, d.blocks[b]? = some k → k.allExited = true

/-- A block has been admitted on its cores, under the number after the last: its parts stand in each core's units, and no core
keeps a place for it any more (R39, R392). -/
structure Admitted (d d' : Dev) (l part : Nat) (r : LRecord) (cores : List Nat) (fits : List (List (Nat × Nat))) (k : Block) : Prop where
  block : d'.blocks = d.blocks ++ [k]
  life : k.life = .staging ∧ k.groups = [] ∧ k.staged = 0 ∧ k.ending = none
  what : k.launch = l ∧ k.part = part ∧ k.lrec = r ∧ k.cores = cores
  units : ∀ (j c : Nat) (f : List (Nat × Nat)), cores[j]? = some c → fits[j]? = some f →
    (d'.core c).units = (d.core c).units ++ f.map (fun u => (u.1, u.2, d.blocks.length))
  others : ∀ c, c ∉ cores → (d'.core c).units = (d.core c).units
  offers : ∀ c o, (d'.core c).offer = some o → ¬ (o.launch = l ∧ o.lin = k.lin)

/-- The cores may take block `lin` of a launch (R39), and no other block waits ahead at one of them (R392). -/
def MayPlace (d : Dev) (l lin part : Nat) (r : LRecord) (cores : List Nat) : Prop :=
  r.coresNeeded (d.part part).shadowUnits = some cores.length ∧ (d.part part).coresOk cores.length cores = true ∧
  ∀ c ∈ cores, ∀ o, (d.core c).offer = some o → o.launch = l ∧ o.lin = lin

/-- What the cores hold for a waiting block is free for it while it is tried again (R392). -/
def Dev.freed (d : Dev) (l lin : Nat) : Dev :=
  { d with cores := d.cores.map (fun c => (c.1, { c.2 with offer := c.2.offer.map (fun o =>
      if o.launch = l ∧ o.lin = lin then { o with held := [] } else o) })) }

/-- A block that does not fit waits at a core: the core holds its part where it fits, until its drain mark is set (R392). -/
def WaitsAt (d d' : Dev) (l lin part : Nat) (r : LRecord) (n c j : Nat) : Prop :=
  (d.core c).offer = none → (d'.core c).offer = some ⟨l, lin, d.cycle,
    if (d.core c).mark then [] else ((d.freed l lin).fitCore part c r n j).getD []⟩

/-- The distributors of R391: a cluster's by its number, 64 and 65 those of the dies, 66 the device's; the parent of one, and whether one is
another or lies below it. -/
def above (n : Nat) : Nat := if n < 64 then 64 + n / 32 else 66
abbrev under (n top : Nat) : Prop := n = top ∨ above n = top

/-- A cluster of the partition, or a die that has one. -/
def isNode (c : PartConfig) (n : Nat) : Prop := n ∈ c.clusters ∨ (64 ≤ n ∧ n < 66 ∧ ∃ x ∈ c.clusters, x / 32 = n - 64)

/-- A block index still to be placed. -/
def Launch.owes (l : Launch) (x : Nat) : Prop := ∃ r ∈ l.ranges, r.2.1 ≤ x ∧ x < r.2.2

/-- A launch that no other can go before: nothing else of its queue is ahead, and no other launch may start. -/
def Dev.alone (d : Dev) (i : Nat) : Prop := ∀ (j : Nat) (x : Launch), d.launches[j]? = some x → j ≠ i → x.started = true ∨ x.status ≠ none

/-- The completion record (R390). -/
def recordOf (l : Launch) : List Word :=
  let status : Nat := match l.status, l.worst with
    | some x, _ => x
    | none, some (_, e) => e.status
    | none, none => 0
  let why : Nat × Word := match l.status, l.worst with
    | none, some (_, e) => if e.status = 1 then (e.cause, e.kinfo) else (0, 0)
    | _, _ => (0, 0)
  [l.seq, BitVec.ofNat 32 (status + 2 ^ 8 * why.1), why.2, BitVec.ofNat 32 l.entry]

/-- No step of a barrier or of ADV is open in the block. -/
def Block.calm (k : Block) : Prop := k.completePhases = k ∧ ∀ g ∈ k.groups, g.collective = none

/-- Since when a group has been ready. -/
def Group.since (g : Group) (now : Nat) : Nat := g.readyAt.getD now

/-- Of two ready groups, each with its class and since when it has been ready, the first goes first: one that has waited 4,096 cycles
before one that has not, then the higher class, then the longer wait (R56, R90). -/
def goesFirst (now : Nat) (a b : Nat × Nat) : Prop :=
  (a.2 + 4096 ≤ now ∧ (b.2 + 4096 ≤ now → a.2 < b.2)) ∨
  (¬ a.2 + 4096 ≤ now ∧ ¬ b.2 + 4096 ≤ now ∧ (b.1 < a.1 ∨ (a.1 = b.1 ∧ a.2 < b.2)))

/-- Group `m` of block `c` is on a core. -/
def Dev.on (d : Dev) (core c m : Nat) (k : Block) (g : Group) : Prop :=
  d.blocks[c]? = some k ∧ k.life = .running ∧ k.groups[m]? = some g ∧ k.coreOf m = core

/-- The checks 2 to 8 of R49: each fails where its condition holds. -/
def advWrong (d : Dev) (b : Nat) (k : Block) (o : AdvOps) (c : Checked) : List (Nat × Prop) :=
  let w0 := o.w0
  let vec := (w0.extractLsb' 8 5).toNat
  let scr := (w0.extractLsb' 18 9).toNat
  let r := c.lrec
  [(2, w0.extractLsb' 28 4 ≠ 0 ∨ o.w1.extractLsb' 8 24 ≠ 0 ∨ 16 < vec ∨ 20 < (w0.extractLsb' 13 5).toNat ∨ 288 < scr),
   (3, c.status ≠ none ∨ r.kind ≠ 0 ∨ r.extx ≠ k.lrec.extx ∨ r.exty ≠ k.lrec.exty ∨ r.extz ≠ k.lrec.extz),
   (4, ∃ x ∈ k.lrec.roles ++ r.roles, x.budget < vec), (5, k.lrec.cscr < scr ∨ r.cscr < scr),
   (6, w0.getLsbD 27 = true ∧ k.lrec.cshr ≠ r.cshr),
   (7, ∃ t < 8, w0.getLsbD t = true ∧ ∀ x, (k.tiles.getD t none).bind (fun i => d.tiles[i]?) = some x → r.tileShapes[t]? ≠ some x.shape),
   (8, d.succFits b k r = false)]

/-- Nothing of the block's work is left (R42). -/
structure WorkDone (d : Dev) (b : Nat) (k : Block) : Prop where
  stores : ∀ x ∈ d.stores, x.blk ≠ b
  atoms : ∀ x ∈ d.atoms, x.blk ≠ b
  cmds : ∀ x ∈ d.cmds, x.blk = b → ∃ v, x.kind = .answer v
  passes : ∀ x ∈ (d.engine k.home).table, x.blk ≠ b
  drains : ∀ t ∈ d.tiles, t.blk = b → t.order = []
  copies : ∀ c ∈ k.chans, c.cmds = []
  results : ∀ x ∈ (d.part k.part).sets, ∀ h ∈ x.2.held, h.blk ≠ b

/-- The block lets go of its cores: no unit, no slot is its own any more. -/
def Freed (d' : Dev) (b : Nat) : Prop :=
  ∀ c ∈ d'.cores, (∀ u ∈ c.2.units, u.2.2 ≠ b) ∧ ∀ x ∈ c.2.shadow, x.2 ≠ b

/-- The block is replayed: its cores are free, it stands in its launch again, to be placed on other cores than those an error struck, and
REPLC rises (R23, R46, R47). -/
def Replayed (d d' : Dev) (b : Nat) (k : Block) (struck : List Nat) : Prop :=
  (∃ k', d'.blocks[b]? = some k' ∧ k'.life = .replaying) ∧ Freed d' b ∧ (d'.part k.part).replc = (d.part k.part).replc + 1 ∧
  ∀ l, d.launches[k.launch]? = some l → d'.launches[k.launch]? =
    some { l with requeued := l.requeued ++ [⟨k.lin, k.nrepl + 1, k.lrec, k.regions, k.batch, none, struck⟩] }

/-- The block ends with a status: its cores are free, and its launch notes it (R31, R390). -/
def Ended (d d' : Dev) (b : Nat) (k : Block) (e : Ending) : Prop :=
  (∃ k', d'.blocks[b]? = some k' ∧ k'.life = .ended ∧ k'.ending = some e) ∧ Freed d' b ∧
  ∀ l, d.launches[k.launch]? = some l → k.frag = none → ∃ l', d'.launches[k.launch]? = some l' ∧
    (l.worst = none → l'.worst = some (k.lin, e)) ∧
    ∀ i w, l.worst = some (i, w) → l'.worst = if e.status < w.status ∨ (e.status = w.status ∧ k.lin < i) then some (k.lin, e) else some (i, w)

/-- A page table entry: eight bytes of real HBM (R370). -/
def pageEntry (d : Dev) (a : Nat) : BitVec 64 :=
  let b (i : Nat) : BitVec 64 := (Memory.read d.hbm (a + i)).setWidth 64 <<< (8 * i)
  b 0 ||| b 1 ||| b 2 ||| b 3 ||| b 4 ||| b 5 ||| b 6 ||| b 7
def entryClean (d : Dev) (a : Nat) : Prop := FMap.get 0 d.hbmP (a / 4) = 0 ∧ FMap.get 0 d.hbmP (a / 4 + 1) = 0

/-- Where a walk at level `l` reads, in a table (R373): nine bits of the address at each level, the lowest from bit 16. -/
def entryAddr (table va l : Nat) : Nat := table + 8 * (va / 2 ^ (16 + 9 * l) % 512)

/-- An entry points to the next table: VALID, no LEAF, and zero where Table 20-1 reserves bits. -/
def pointsOn (e : BitVec 64) : Prop := e.getLsbD 0 = true ∧ e.extractLsb' 1 11 = 0 ∧ e.extractLsb' 48 16 = 0

/-- Tables of a walk down to level `l`: each entry on the way is clean and points to the next. -/
def walksTo (d : Dev) (part va : Nat) (t : Nat → Nat) (l : Nat) : Prop :=
  t 3 = (d.part part).cfg.tableRoot ∧ ∀ m, l < m → m ≤ 3 →
    entryClean d (entryAddr (t m) va m) ∧ pointsOn (pageEntry d (entryAddr (t m) va m)) ∧
    t (m - 1) = 4096 * ((pageEntry d (entryAddr (t m) va m)).extractLsb' 12 36).toNat

/-- A leaf that a partition may use at level `l` (Table 20-2, R371, R372, R373). -/
def leafGood (d : Dev) (part l : Nat) (e : BitVec 64) : Prop :=
  let tier := e.extractLsb' 6 2
  let il := (e.extractLsb' 8 3).toNat
  let frame := 65536 * (e.extractLsb' 16 32).toNat
  l < 3 ∧ e.getLsbD 0 = true ∧ e.getLsbD 4 = true ∧ e.getLsbD 5 = false ∧ e.extractLsb' 14 2 = 0 ∧ e.extractLsb' 52 12 = 0 ∧ tier ≠ 3 ∧
  (if tier = 2 then (e.extractLsb' 48 4).toNat < 12 else e.extractLsb' 48 4 = 0) ∧ (e.extractLsb' 11 3).toNat = part ∧
  d.frameOk tier.toNat frame (16 + 9 * l) il = true ∧ ¬ (il = 7 ∧ l ≠ 0)

/-- A miss of a request: its page has no entry in its cluster's TLB, and the request is not parked there. -/
structure Misses (d : Dev) (r : Req) (va : Nat) : Prop where
  space : va < 2 ^ 52
  tlb : d.tlbHit r.part r.clu va = none
  fresh : ∀ p ∈ d.parks, p.part = r.part → p.clu / 32 = r.clu / 32 → p.va / 65536 = va / 65536 → r.who ∉ p.who

/-- A walk of an address's page, of a die (R376). -/
abbrev Walk.serves (w : Walk) (part die va : Nat) : Prop := w.part = part ∧ w.clu / 32 = die ∧ w.va / 65536 = va / 65536

/-- One of a die's 128 walkers is free for a miss, which no earlier one waits for (R376). -/
def Dev.walkerFor (d : Dev) (die : Nat) : Prop :=
  (d.walks.filter (fun w => decide (w.clu / 32 = die) && !w.waits)).length < 128 ∧ ∀ w ∈ d.walks, w.clu / 32 = die → w.waits = false

/-- A miss that walks at once: no walk of its page is in flight, and a walker is free. -/
structure Walks (d : Dev) (r : Req) (va : Nat) : Prop where
  misses : Misses d r va
  alone : ∀ w ∈ d.walks, ¬ w.serves r.part (r.clu / 32) va
  free : d.walkerFor (r.clu / 32)

/-- A page fault of a request: its walk ends at level `l` in an entry that is not valid, and its die has a place for it (R377). -/
structure PageFaults (d : Dev) (r : Req) (va l : Nat) : Prop where
  walks : Walks d r va
  room : (d.parks.filter (fun p => !p.expired && decide (p.clu / 32 = r.clu / 32))).length < 256
  faults : d.walk r.part va = .fault l

/-- The requests of a walk stand parked as one from now on, for the first of them. -/
structure ParkedAs (d : Dev) (x : Park) (r : Req) (va : Nat) (write : Bool) (who : List Nat) : Prop where
  page : x.part = r.part ∧ x.clu = r.clu ∧ x.va = va
  what : x.write = write ∧ x.kind = r.kind ∧ x.who = who
  since : x.since = d.cycle ∧ x.walked = d.cycle
  waits : x.expired = false ∧ x.out = some 3

/-- Requests that joined a walk take its outcome: poison of an origin, or a permission failure (R376). -/
def Outcome (x : Park) (w : Walk) (who : List Nat) (out : Option Nat) : Prop :=
  x.part = w.part ∧ x.clu = w.clu ∧ x.va = w.va ∧ x.who = who ∧ x.expired = true ∧ x.out = out

/-- A fault record at its place in the ring (Table 20-3). -/
structure Recorded (d : Dev) (r : Req) (va : Nat) (write : Bool) (l cycle a : Nat) : Prop where
  va : Memory.readLE d.hbm a 8 = va % 2 ^ 64
  kind : Memory.readLE d.hbm (a + 8) 1 = r.kind % 256
  acc : Memory.readLE d.hbm (a + 9) 1 = ((if write then 1 else 0) + 2 * l) % 256
  who : Memory.readLE d.hbm (a + 10) 1 = r.clu % 256 ∧ Memory.readLE d.hbm (a + 11) 1 = r.queue % 256
  seq : Memory.readLE d.hbm (a + 12) 4 = r.seq.toNat
  cycle : Memory.readLE d.hbm (a + 16) 8 = cycle % 2 ^ 64
  rest : Memory.readLE d.hbm (a + 24) 8 = 0

/-- The place of the next record in a partition's fault ring, and whether there is none (R406). -/
def Part.nextRecord (p : Part) : Nat := p.fqBase.toNat + 32 * (p.fqWr.toNat % p.fqSize.toNat)
def Part.ringFull (p : Part) : Prop := p.fqSize = 0 ∨ p.fqWr - p.fqRd = p.fqSize

/-- A page fault parks requests as one and is recorded, where the ring has room (R377, R406). -/
structure Faulted (d d' : Dev) (r : Req) (va : Nat) (write : Bool) (l : Nat) (who : List Nat) : Prop where
  parked : ∃ x, d'.parks = d.parks ++ [x] ∧ ParkedAs d x r va write who
  full : (d.part r.part).ringFull → (d'.part r.part).fqOvf = true ∧ (d'.part r.part).fqWr = (d.part r.part).fqWr
  room : ¬ (d.part r.part).ringFull → (d'.part r.part).fqWr = (d.part r.part).fqWr + 1 ∧ (d'.part r.part).fqOvf = (d.part r.part).fqOvf ∧
    Recorded d' r va write l d.cycle (d.part r.part).nextRecord
  frame : d.plainLines → ∀ y, (d.part r.part).ringFull ∨ y < (d.part r.part).nextRecord ∨ (d.part r.part).nextRecord + 32 ≤ y →
    Memory.read d'.hbm y = Memory.read d.hbm y

/-- What a request gets of a page that a leaf maps: a failure where the leaf does not allow the access, or lies in another tier than the
queue's own; poison where the link to the location went down under the request; and otherwise the location (R372, R373, R387). -/
structure Reaches (d : Dev) (r : Req) (acc : Acc) (va : Nat) (l : Leaf) (x : Xl) : Prop where
  denied : l.allows acc = false → x = .perm
  tier : ∀ t, r.tier = some t → t ≠ l.tier → x = .perm
  hbm : l.allows acc = true → (∀ t, r.tier = some t → t = l.tier) → l.tier = 0 →
    x = .ok (if l.frame + va % 2 ^ l.bits < 2 ^ 39 then .real (l.frame + va % 2 ^ l.bits) else .window (l.frame + va % 2 ^ l.bits))
  host : l.allows acc = true → (∀ t, r.tier = some t → t = l.tier) → l.tier = 1 →
    ((r.who, 1) ∈ d.lost → x = .poison 1) ∧ ((r.who, 1) ∉ d.lost → x = .ok (.host (l.frame + va % 2 ^ l.bits)))
  peer : l.allows acc = true → (∀ t, r.tier = some t → t = l.tier) → l.tier = 2 →
    ((r.who, 2 + 4 * l.link) ∈ d.lost → x = .poison (2 + 4 * l.link)) ∧
    ((r.who, 2 + 4 * l.link) ∉ d.lost → x = .ok (.peer l.link (l.frame + va % 2 ^ l.bits)))

/-- The sector of a location is valid in its line. -/
def Dev.holdsSector (d : Dev) (p : Phys) : Prop := ∃ slice set tag num l, d.homeOf p = some (slice, set, tag, num) ∧
  d.line slice tag = some l ∧ l.valid.getLsbD (p.addr % 2048 / 64) = true

/-- An outside agent's request that comes in at a port, whose link is up: to an exported address of real HBM it is performed at the home
slice, and a read brings the word; any other gets a poisoned answer with origin 0 (R386, R397, R398). -/
def Serves (i : Nat → Option Byte → Instr) (port : Nat) (up : Dev → Prop) (exported : Dev → Nat → Prop) : Prop :=
  (∀ (s : State) pa (b : Byte), s.plat.phase = .running → up s.dev → exported s.dev pa → pa < 2 ^ 39 →
    ∃ d : Dev, exec (i pa (some b)) s = .next (s.withDev d) ∧ Memory.read d.hbm pa = b ∧ FMap.get 0 d.hbmP (pa / 4) = 0 ∧
      d.holdsSector (.real pa) ∧ (FMap.get (0, 0) d.replies port).2 = 0) ∧
  (∀ (s : State) pa, s.plat.phase = .running → up s.dev → exported s.dev pa → pa < 2 ^ 39 →
    ∃ d : Dev, exec (i pa none) s = .next (s.withDev d) ∧ d.holdsSector (.real (pa / 4 * 4)) ∧
      FMap.get (0, 0) d.replies port = (BitVec.ofNat 32 (Memory.readLE d.hbm (pa / 4 * 4) 4), FMap.get 0 d.hbmP (pa / 4))) ∧
  (∀ (s : State) pa w, s.plat.phase = .running → up s.dev → ¬ exported s.dev pa ∨ 2 ^ 39 ≤ pa → ∃ x : Word,
    exec (i pa w) s = .next (s.withDev { s.dev with replies := FMap.set (0, 0) s.dev.replies port (x, 1) }))

/-- A link goes down: what engines have asked of it and got no answer for completes with poison `v` (R387): far atomics, point lookups and
merge paths, started copies, passes that fetch, and spill writes. -/
structure Loses (d d' : Dev) (v : Nat) : Prop where
  fatoms : ∀ x ∈ d.cmds, ∀ kind lanes dst, x.kind = .fatom kind lanes dst → ∀ l ∈ lanes, (16 * (64 * x.op + l.1) + 4, v) ∈ d'.lost
  lookups : ∀ x ∈ d.cmds, ∀ t, x.kind = .tex t → (16 * x.op + 3, v) ∈ d'.lost
  paths : ∀ x ∈ d.cmds, ∀ a b c e, x.kind = .mpath a b c e → (16 * x.op + 8, v) ∈ d'.lost
  copies : ∀ k ∈ d.blocks, ∀ ch ∈ k.chans, ∀ c ∈ ch.cmds, c.started = true → (16 * c.id, v) ∈ d'.lost
  passes : ∀ e ∈ d.engines, ∀ p ∈ e.2.table, p.started ≠ none → (16 * p.id + 2, v) ∈ d'.lost
  spills : ∀ p ∈ d.parts, ∀ t ∈ p.2.trays, ∀ w ∈ t.writes, (16 * w.no + 5, v) ∈ d'.lost
  rest : ∀ x ∈ d'.lost, x ∈ d.lost ∨ x.2 = v

/-- TLBINV's words (R364). -/
def tlbWords (v : View) (a : BitVec 7) : List Bool :=
  let w := desc v a
  let all := (w 1).getLsbD 31
  [decide (if all then w 0 = 0 else (w 0).extractLsb' 0 16 = 0),
   decide ((w 1).extractLsb' 22 9 = 0 ∧ (if all then (w 1).extractLsb' 0 22 = 0 else (w 1).extractLsb' 20 2 ≠ 3)),
   decide (if all then w 2 = 0 else 1 ≤ (w 2).toNat ∧ (w 2).toNat ≤ 65536), decide (w 3 = 0)]

/-- SCRUB's words (R365, Table 10-5). -/
def scrubWords (v : View) (a : BitVec 7) : List Bool :=
  let w := desc v a
  let kind := ((w 1).extractLsb' 20 4).toNat
  [true, decide ((w 1).extractLsb' 24 8 = 0 ∧ (kind = 0 ∨ ((kind = 2 ∨ kind = 3 ∨ kind = 4) ∧ (w 1).extractLsb' 0 20 = 0))),
   decide (w 2 ≠ 0 ∧ (w 2).extractLsb' 0 2 = 0 ∧ (w 2).getLsbD 31 = false), decide (w 3 = 0)]

/-- Where SCRUB writes: a scratch range, by the kind in its word 1. -/
def scrubSpace (v : View) (kind : Nat) : Space :=
  if kind = 2 then .core v.b (v.k.pos v.n) else if kind = 3 then .clu v.b (v.k.cluIdx v.n) else .chip v.k.part

/-- A word of a context area at an offset. -/
def areaWord (l : List Word) (o : Nat) : Word := l.getD (o / 4) 0

/-- A group after CTXRS has what the area holds (Table 19-5), but for its h registers and its level. -/
structure Restored (g g' : Group) (l : List Word) : Prop where
  live : g'.live = areaWord l 0x8
  gcr : g'.gcr = areaWord l 0x10 &&& 0x3FF
  gfl : g'.gfl = areaWord l 0x14 &&& 0x1F
  masks : ∀ j < 12, FMap.get 0 g'.jE j = areaWord l (0x240 + 8 * j) ∧ FMap.get 0 g'.jA j = areaWord l (0x244 + 8 * j)
  preds : ∀ q < 7, g'.pred q = areaWord l (0x320 + 4 * q)
  unis : ∀ i < 160, g'.uni i = areaWord l (0x400 + 4 * i)
  vecs : ∀ r < 8 * g.budget, ∀ x < 32, g'.word (.v r) x = areaWord l (0x1200 + 128 * r + 4 * x)
  pois : ∀ r < 8 * g.budget, ∀ x < 32, (g'.poison (.v r) x ≠ 0 ↔ (areaWord l (0xF00 + 4 * r)).getLsbD x = true)
  full : ∀ r < 8 * g.budget, (g'.empty (.v r) = false ↔ (areaWord l (0x340 + 4 * (r / 32))).getLsbD (r % 32) = true)
  saved : g'.saved.map (fun e => (e.pc, e.mask, e.run)) = (List.range (min 32 (areaWord l 0xC).toNat)).map (fun i =>
    ((areaWord l (0x40 + 16 * i)).toNat, areaWord l (0x44 + 16 * i), ((areaWord l (0x48 + 16 * i)).extractLsb' 16 5).toNat))
  hregs : ∀ r x, g'.word (.h r) x = g.word (.h r) x
  level : g'.levelH = g.levelH ∧ g'.trap = g.trap ∧ g'.tcnt = g.tcnt ∧ g'.kinfo = g.kinfo

/-- Sizes of a ring: powers of two. -/
def ringSize (n : Nat) : Prop := ∃ i < 13, n = 2 ^ (i + 4)
def faultRingSize (n : Nat) : Prop := ∃ i < 10, n = 2 ^ (i + 7)

/-- The queue after a write of QCTL (Table 21-1). -/
def Queue.control (q : Queue) (v : Word) (q' : Queue) : Prop :=
  q' = { q with en := q'.en, part := q'.part, tier := (v.extractLsb' 6 2).toNat } ∧ (q'.en = true ↔ v.getLsbD 31 = true ∧ ringSize q.size.toNat) ∧
  q'.part = if q.en then q.part else (v.extractLsb' 8 3).toNat

/-- Reset and its image (R400, R404): the device is as after clearing, but for what is the host's and the peers' own; an image that verifies
runs, any other leaves the controller in recovery. -/
def ResetsTo (s t : State) (img : Image) : Prop :=
  t = { s with plat := t.plat, dev := { Dev.cleared with
    fresh := s.dev.fresh + 1, hostMem := s.dev.hostMem, peerMem := s.dev.peerMem, peerOut := s.dev.peerOut } } ∧
  t.plat.flash = img ∧ t.plat.life = s.plat.life ∧ t.plat.mailbox = .idle ∧ t.plat.command = none ∧ t.plat.args = [] ∧
  (img.authentic = true ∧ s.plat.rollback ≤ img.version →
    t.plat.phase = .clearing ∧ s.plat.rollback ≤ t.plat.rollback ∧ t.plat.rollback ≤ img.version ∧ t.plat.idLife = s.plat.life ∧
    t.plat.log = [Config.shake256 [], Config.shake256 img.bytes]) ∧
  (¬ (img.authentic = true ∧ s.plat.rollback ≤ img.version) → t.plat.phase = .recovery ∧ t.plat.rollback = s.plat.rollback)

/-- No command of the mailbox but one of this code is in progress (R399). -/
def Platform.freeFor (p : Platform) (code : Nat) : Prop := ∀ c, p.command = some c → c = code

/-- A command of the mailbox is refused: only the status word says so, and none is in progress any more. -/
def Refuses (i : Instr) (s : State) : Prop := exec i s = .next (s.withPlat { s.plat with mailbox := .refused, command := none })

/-- Where the running device accepts a command of this code (Table 21-6): while none but its own is in progress it is refused in the other
phases; while another is, it is refused as busy (R399). -/
def Accepted (i : Instr) (code : Nat) : Prop :=
  (∀ s : State, s.plat.freeFor code → s.plat.phase ≠ .running → Refuses i s) ∧
  (∀ (s : State) c, s.plat.command = some c → c ≠ code → exec i s = .next (s.withPlat { s.plat with mailbox := .busy }))

/-- A command is done: `d` is the device, and its argument's digest stands in the log (R402). -/
def Measures (i : Instr) (s : State) (d : Dev) : Prop :=
  ∃ arg, exec i s = .next ((s.withDev d).withPlat { s.plat with
    mailbox := .done, command := none, log := s.plat.log ++ [Config.shake256 arg] })

/-- The partitions of a SET_PART (R395, R396, Table 21-5). -/
structure PartsGood (l : List PartConfig) : Prop where
  count : 1 ≤ l.length ∧ l.length ≤ 8
  clusters : ∀ c ∈ l, c.clusters ≠ [] ∧ c.clusters.Pairwise (· < ·) ∧ ∀ x ∈ c.clusters, x < 64 ∧
    (8 ≤ c.clusters.length → ∀ j < 8, x / 8 * 8 + j ∈ c.clusters)
  groups : ∀ c ∈ l, ∀ g ∈ c.groups, g.1 < 16384 ∧ g.2 < 8
  chip : ∀ c ∈ l, 4096 ≤ c.chipShare ∧ c.chipShare ≤ 65536 ∧ c.chipShare % 256 = 0 ∧ c.slices ≠ [] ∧ ∀ x ∈ c.slices, x < 1024
  sizes : ∀ c ∈ l, c.pool % 4096 = 0 ∧ c.layerT ≤ 8192 ∧ c.taskTypes.length = 16 ∧ ∀ q ∈ c.queues, q < 256
  places : ∀ c ∈ l, c.trapTable < 2 ^ 39 ∧ c.tableRoot < 2 ^ 39 ∧ c.fqBase < 2 ^ 39 ∧ c.ctxPool < 2 ^ 39
  permits : ∀ c ∈ l,
    (if ∃ x ∈ c.clusters, x / 32 = 0 then 16 ≤ c.permits.1 ∧ c.permits.1 ≤ 512 else c.permits.1 = 0) ∧
    (if ∃ x ∈ c.clusters, x / 32 = 1 then 16 ≤ c.permits.2 ∧ c.permits.2 ≤ 512 else c.permits.2 = 0)
  pools : (l.map (·.permits.1)).sum ≤ 512 ∧ (l.map (·.permits.2)).sum ≤ 512
  shared : (l.flatMap (·.clusters)).Nodup ∧ (l.flatMap (fun c => c.groups.map (·.1))).Nodup ∧ (l.flatMap (·.slices)).Nodup ∧
    (l.flatMap (·.queues)).Nodup

/-- The partitions that a SET_PART changes: new ones, ones with another configuration, and those it takes away. -/
def Dev.changed (d : Dev) (l : List PartConfig) (p : Nat) : Prop :=
  match l[p]? with
  | some c => (d.part p).active = false ∨ (d.part p).cfg ≠ c
  | none => (d.part p).active = true

/-- Clearing at a transition of the life cycle (R403): every store that it lists reads zero, and the work in them is gone; the registers of
queues, windows and fault queues and the partitions' configurations stay. -/
structure Zeroed (d d' : Dev) : Prop where
  memory : d'.hbm = [] ∧ d'.hbmP = [] ∧ d'.l2 = [] ∧ d'.predict = [] ∧ d'.scheme = []
  work : d'.launches = [] ∧ d'.blocks = [] ∧ d'.cores = [] ∧ d'.tiles = [] ∧ d'.engines = [] ∧ d'.folds = []
  accesses : d'.loads = [] ∧ d'.stores = [] ∧ d'.atoms = [] ∧ d'.cmds = [] ∧ d'.walks = [] ∧ d'.parks = []
  parts : ∀ p, (d'.part p).chip = [] ∧ (d'.part p).chipP = [] ∧ (d'.part p).layers = [] ∧ (d'.part p).trays = [] ∧ (d'.part p).sets = [] ∧
    (d'.part p).active = (d.part p).active ∧ (d'.part p).cfg = (d.part p).cfg ∧ (d'.part p).fqBase = (d.part p).fqBase ∧
    (d'.part p).fqSize = (d.part p).fqSize
  kept : d'.queues = d.queues ∧ d'.windows = d.windows ∧ d'.cycle = d.cycle ∧ d'.hostMem = d.hostMem ∧ d'.peerMem = d.peerMem ∧
    d'.hostUp = d.hostUp ∧ d'.peerUp = d.peerUp ∧ d'.heldMem = d.heldMem

/-- A group may issue: the device runs, and the group, of a running block, holds a slot and has not wholly exited. -/
structure MayRun (s : State) (b n : Nat) (k : Block) (g : Group) : Prop where
  runs : s.plat.phase = .running
  block : s.dev.blocks[b]? = some k
  group : k.groups[n]? = some g
  life : k.running = true
  slot : g.slot.isSome = true
  live : g.exited = false

/-- One cycle passes over the running device: its counter rises by one, and what a group does not await by the clock stays as it is. -/
structure CyclePasses (s t : State) : Prop where
  rest : t = { s with dev := t.dev } ∧ t.dev = { s.dev with cycle := t.dev.cycle, blocks := t.dev.blocks }
  still : s.plat.phase ≠ .running → t = s
  cycle : s.plat.phase = .running → t.dev.cycle = s.dev.cycle + 1
  groups : ∀ b n g, s.dev.group b n = some g → ∃ g', t.dev.group b n = some g' ∧
    (g.dl = [] → g' = { g with readyAt := g'.readyAt, why := g'.why, woken := g'.woken } ∧
      ((∀ c a ph, g.why ≠ .cond (.pbar c a ph)) → g'.why = g.why ∧ g'.woken = g.woken))

/-- The instruction that a unit held when its group was saved issues again: its registers are no longer marked for the saved command, and it
marks them anew (R82). -/
def reissued (g : Group) : Group :=
  match g.redo with
  | some (op, pc) => if g.levelH = false ∧ g.head.pc = pc then { g.unmark op with redo := none } else g
  | none => g

/-- The step after move `m` runs instruction `i` as group `n` of block `b`, which stands as `g`; each step takes one cycle. -/
def StepRuns (s : State) (rest : List Move) (b n : Nat) (g : Group) (i : Instr) : Prop :=
  ∀ t, exec i (({ s with agenda := rest } : State).withDev { s.dev.putGroup b n g with cur := some (b, n) }) = .next t →
    ∃ u, step s = .next u ∧ CyclePasses t u

/-- Instructions that change nothing but their own group: those of VEC and UNI but for FSQRT, SLD and SST, which a unit or memory
performs, SCTL and SFLG, which are for GCR and GFL, and the forms of QNT that step GCR.DPH; and the transfers, NOP and YIELD. -/
def ownGroupOnly (i : Instr) : Bool :=
  match i with
  | .fsqrt _ _ _ | .sld _ _ _ _ | .sst _ _ _ _ | .sctl _ | .sflg _ | .qnt .q8grain _ _ _ | .qnt .q4grain _ _ _ => false
  | .bra _ _ _ | .brau _ _ _ | .bras _ | .brx _ | .ret _ | .call _ _ | .callFar _ _ | .nop | .yield => true
  | i => match encode i with
    | some (.vec, _) | some (.uni, _) => true
    | _ => false

/-- What may make such an instruction trap once nothing stops it at issue: an invalid operation with GCR.IVT set, a member mask, a
non-uniform word, or a bad target. -/
def mayTrap (i : Instr) (v : View) : Prop :=
  v.g.gcr.getLsbD 4 = true ∨ (match i with
    | .voteAnyAll _ _ _ _ | .voteBallot _ _ _ | .voteEq _ _ _ | .gred _ _ _ _ | .scan _ _ _ _ _ | .v2s true _ _ => True
    | .bra _ _ _ | .brau _ _ _ | .bras _ | .brx _ | .ret _ | .call _ _ | .callFar _ _ => True
    | _ => False)

/-- The registers that an instruction names as destinations: a vector register in the active lanes, or a uniform. -/
def namedRegs (i : Instr) (v : View) (r : RegRef) (l : Nat) : Prop :=
  ∃ o ∈ (accessOf i v).fixed, o.reg v.g = some r ∧ (v.g.active.getLsbD l = true ∨ ∃ n, r = .u n)

end Sys2Proof.Machine
end

