-- ==== Sys2Proof/Certificates/Slice0/Obligations.lean ====
section
/-! DEFINITION. The statements of this slice: what the rules of spec/ say that the decoder, the instructions, traps, the
device's own steps and the controller do. `Ready i v` means that none of checks 1 to 7 of R100 stops instruction `i` in
the issuing view `v`; `v.issued` is its group once it is counted; `v.completes d g` is the device once it has completed. -/

open Sys2Proof Sys2Proof.Machine

/-! ### VEC: integer, bit, move and predicate instructions -/

/-- Table 6-1 (R147): sums, differences, products, multiply-add, lesser and greater, absolute value and negation; bitwise operations,
shifts, rotates, counts, reversal and LEA. -/
def Obligations.IntegerOperations : Prop :=
  WritesBoth (.iadd .wrap) (.iaddImm .wrap) (·.signExtend 32) (fun a b => a + b) ∧
  WritesBoth (.iadd .sat) (.iaddImm .sat) (·.signExtend 32) (fun a b => clampSigned (a.toInt + b.toInt)) ∧
  WritesBoth (.iadd .satn) (.iaddImm .satn) (·.signExtend 32) (fun a b => clampUnsigned (a.toNat + b.toNat)) ∧
  WritesBoth (.isub .wrap) (.isubImm .wrap) (·.signExtend 32) (fun a b => a - b) ∧
  WritesBoth (.isub .sat) (.isubImm .sat) (·.signExtend 32) (fun a b => clampSigned (a.toInt - b.toInt)) ∧
  WritesBoth (.isub .satn) (.isubImm .satn) (·.signExtend 32) (fun a b => clampUnsigned (a.toNat - b.toNat)) ∧
  WritesBoth (.imul .low) (.imulImm .low) (·.signExtend 32) (fun a b => a * b) ∧
  WritesBoth (.imul .hi) (.imulImm .hi) (·.signExtend 32)
    (fun a b => ((a.signExtend 64 * b.signExtend 64 : BitVec 64) >>> 32).setWidth 32) ∧
  WritesBoth (.imul .hin) (.imulImm .hin) (·.signExtend 32)
    (fun a b => ((a.zeroExtend 64 * b.zeroExtend 64 : BitVec 64) >>> 32).setWidth 32) ∧
  (∀ d a b, WritesV (.imad false d a b) d (fun g l => g.src (.v d) l + g.src a l * g.src b l)) ∧
  (∀ d a i, WritesV (.imadImm false d a i) d (fun g l => g.src (.v d) l + g.src a l * i.signExtend 32)) ∧
  (∀ d a b, WritesV (.imad true d a b) d
    (fun g l => clampSigned ((g.src (.v d) l).toInt + (g.src a l).toInt * (g.src b l).toInt))) ∧
  (∀ d a i, WritesV (.imadImm true d a i) d
    (fun g l => clampSigned ((g.src (.v d) l).toInt + (g.src a l).toInt * i.toInt))) ∧
  WritesBoth (.imin false) (.iminImm false) (·.signExtend 32) (fun a b => if a.toInt ≤ b.toInt then a else b) ∧
  WritesBoth (.imin true) (.iminImm true) (·.signExtend 32) (fun a b => if a.toNat ≤ b.toNat then a else b) ∧
  WritesBoth (.imax false) (.imaxImm false) (·.signExtend 32) (fun a b => if a.toInt ≤ b.toInt then b else a) ∧
  WritesBoth (.imax true) (.imaxImm true) (·.signExtend 32) (fun a b => if a.toNat ≤ b.toNat then b else a) ∧
  (∀ d a, WritesV (.iabs false d a) d (fun g l => if (g.src a l).toInt < 0 then -(g.src a l) else g.src a l)) ∧
  (∀ d a, WritesV (.iabs true d a) d (fun g l => clampSigned |(g.src a l).toInt|)) ∧
  (∀ d a, WritesV (.ineg false d a) d (fun g l => -(g.src a l))) ∧
  (∀ d a, WritesV (.ineg true d a) d (fun g l => clampSigned (-(g.src a l).toInt))) ∧
  WritesBoth .and .andImm (·.zeroExtend 32) (fun a b => a &&& b) ∧
  WritesBoth .or .orImm (·.zeroExtend 32) (fun a b => a ||| b) ∧
  WritesBoth .xor .xorImm (·.zeroExtend 32) (fun a b => a ^^^ b) ∧
  WritesBoth .andn .andnImm (·.zeroExtend 32) (fun a b => a &&& ~~~b) ∧
  WritesBoth .shl .shlImm (·.signExtend 32) (fun a b => BitVec.ofNat 32 (a.toNat * 2 ^ b.toNat)) ∧
  WritesBoth (.shr false) (.shrImm false) (·.signExtend 32) (fun a b => BitVec.ofNat 32 (a.toNat / 2 ^ b.toNat)) ∧
  WritesBoth (.shr true) (.shrImm true) (·.signExtend 32) (fun a b => BitVec.ofInt 32 (a.toInt / 2 ^ b.toNat)) ∧
  WritesBoth .rotl .rotlImm (·.signExtend 32) (fun a b =>
    a <<< (b.toNat % 32) ||| a >>> (32 - b.toNat % 32)) ∧
  (∀ d a, WritesV (.popc d a) d (fun g l => BitVec.ofNat 32 ((List.range 32).countP (fun i => (g.src a l).getLsbD i)))) ∧
  (∀ d a, WritesV (.clz d a) d (fun g l =>
    BitVec.ofNat 32 (if g.src a l = 0 then 32 else 31 - Nat.log2 (g.src a l).toNat))) ∧
  (∀ d a, WritesV (.brev d a) d (fun g l => (g.src a l).reverse)) ∧
  (∀ sh : BitVec 2, WritesBoth (.lea sh) (.leaImm sh) (·.signExtend 32) (fun a b => a + b * BitVec.ofNat 32 (2 ^ sh.toNat)))

/-- BFX and BFI (R148), moves and SEL (R150, R151), and ADD64, whose low word goes to D and high word to D+1: an odd D is ILLEGAL_INSTR
(R149). -/
def Obligations.FieldsMovesPairs : Prop :=
  (∀ d a b, WritesV (.bfx false d a b) d (fun g l =>
    let (p, n) := fieldAt (g.src b l)
    BitVec.ofNat 32 ((g.src a l).toNat / 2 ^ p % 2 ^ n))) ∧
  (∀ d a b, WritesV (.bfx true d a b) d (fun g l =>
    let (p, n) := fieldAt (g.src b l)
    (BitVec.ofNat n ((g.src a l).toNat / 2 ^ p)).signExtend 32)) ∧
  (∀ d a b, WritesV (.bfi d a b) d (fun g l =>
    let (p, n) := fieldAt (g.src b l)
    let mask : Word := BitVec.ofNat 32 (2 ^ n - 1) <<< p
    (g.src (.v d) l &&& ~~~mask) ||| ((g.src a l <<< p) &&& mask))) ∧
  (∀ d a, WritesV (.mov d a) d (fun g l => g.src a l)) ∧
  (∀ d i, WritesV (.movi .zext d i) d (fun _ _ => i.zeroExtend 32)) ∧
  (∀ d i, WritesV (.movi .sext d i) d (fun _ _ => i.signExtend 32)) ∧
  (∀ d i, WritesV (.movi .b1 d i) d (fun g l =>
    (g.src (.v d) l).extractLsb' 16 16 ++ i ++ (g.src (.v d) l).extractLsb' 0 8)) ∧
  (∀ d i, WritesV (.movi .b2 d i) d (fun g l =>
    (g.src (.v d) l).extractLsb' 24 8 ++ i ++ (g.src (.v d) l).extractLsb' 0 16)) ∧
  (∀ d i, WritesV (.movi .b3 d i) d (fun g l => i ++ (g.src (.v d) l).extractLsb' 0 24)) ∧
  (∀ p d a b, WritesV (.sel p d a b) d (fun g l => if p = 7#3 ∨ (g.pred p.toNat).getLsbD l then g.src a l else g.src b l)) ∧
  (∀ p d, WritesV (.ptov p d) d (fun g l => if (g.pred p.toNat).getLsbD l then 1 else 0)) ∧
  (∀ zx d a b s v, s.dev.issuer = some v → v.g.head.run < 24 → d.toNat % 2 = 1 →
    exec (.add64 zx d a b) s = .next (s.withDev (v.traps (.add64 zx d a b)
      { cause := 0x02, lanes := v.act, info0 := opWord (.add64 zx d a b) }))) ∧
  (∀ zx d a i s v, s.dev.issuer = some v → v.g.head.run < 24 → d.toNat % 2 = 1 →
    exec (.add64Imm zx d a i) s = .next (s.withDev (v.traps (.add64Imm zx d a i)
      { cause := 0x02, lanes := v.act, info0 := opWord (.add64Imm zx d a i) }))) ∧
  let sums (i : Instr) (d : BitVec 7) (f : Group → Nat → BitVec 64) : Prop :=
    Answers i (fun v => v.completes v.d
      ((v.issued.setWords (v.g.vreg d.toNat) v.act (fun l => (f v.g l).extractLsb' 0 32)).setWords (v.g.vreg (d.toNat + 1)) v.act
        (fun l => (f v.g l).extractLsb' 32 32)))
  let pair (g : Group) (a : BitVec 7) (l : Nat) : BitVec 64 :=
    g.word (g.vreg (a.toNat + 1)) l ++ g.word (g.vreg a.toNat) l
  (∀ d a b, sums (.add64 false d (.v a) (.v b)) d (fun g l => pair g a l + pair g b l)) ∧
  (∀ d a b, sums (.add64 false d (.v a) (.s b)) d (fun g l => pair g a l + (g.uni (b.toNat + 1) ++ g.uni b.toNat))) ∧
  (∀ d a b, sums (.add64 true d (.v a) b) d (fun g l => pair g a l + (g.src b l).zeroExtend 64)) ∧
  (∀ d a i, sums (.add64Imm false d (.v a) i) d (fun g l => pair g a l + i.signExtend 64)) ∧
  (∀ d a i, sums (.add64Imm true d (.v a) i) d (fun g l => pair g a l + i.zeroExtend 64))

/-- ICMP and VTOP write a predicate in the active lanes; with p7 as destination they are ILLEGAL_INSTR (R150, R69). -/
def Obligations.Predicates : Prop :=
  (∀ m c n p a b, WritesP (.icmp m c n p a b) p (fun g l =>
    combined m ((g.pred p.toNat).getLsbD l) (condOf c n (g.src a l) (g.src b l)))) ∧
  (∀ m c n p a i, WritesP (.icmpImm m c n p a i) p (fun g l =>
    combined m ((g.pred p.toNat).getLsbD l) (condOf c n (g.src a l) (i.signExtend 32)))) ∧
  (∀ p a, WritesP (.vtop p a) p (fun g l => decide (g.src a l ≠ 0))) ∧
  (∀ m c n a b s v, s.dev.issuer = some v → v.g.head.run < 24 →
    exec (.icmp m c n 7 a b) s = .next (s.withDev (v.traps (.icmp m c n 7 a b)
      { cause := 0x02, lanes := v.act, info0 := opWord (.icmp m c n 7 a b) }))) ∧
  (∀ m c n a i s v, s.dev.issuer = some v → v.g.head.run < 24 →
    exec (.icmpImm m c n 7 a i) s = .next (s.withDev (v.traps (.icmpImm m c n 7 a i)
      { cause := 0x02, lanes := v.act, info0 := opWord (.icmpImm m c n 7 a i) }))) ∧
  (∀ a s v, s.dev.issuer = some v → v.g.head.run < 24 →
    exec (.vtop 7 a) s = .next (s.withDev (v.traps (.vtop 7 a) { cause := 0x02, lanes := v.act, info0 := opWord (.vtop 7 a) })))

/-! ### VEC: floating point -/

/-- The exact sum, product and multiply-add of numbers are exact, and reading an f32 word is IEEE 754's: sign, biased exponent and
fraction (R118, R119, R152). -/
def Obligations.ExactArithmetic : Prop :=
  (∀ m a b, a.isNumber → b.isNumber → (addExact m a b).iv = false ∧ (addExact m a b).v.isNumber ∧
    (addExact m a b).v.number = a.number + b.number) ∧
  (∀ a b, a.isNumber → b.isNumber → (mulExact a b).iv = false ∧ (mulExact a b).v.isNumber ∧
    (mulExact a b).v.number = a.number * b.number) ∧
  (∀ m a b c, a.isNumber → b.isNumber → c.isNumber → (fmaExact m a b c).v.isNumber ∧
    (fmaExact m a b c).v.number = a.number * b.number + c.number) ∧
  (∀ w : Word, w.extractLsb' 23 8 ≠ 255#8 → (f32.read w.toNat).isNumber ∧
    (f32.read w.toNat).number = (if w.msb then -1 else 1) *
      (if w.extractLsb' 23 8 = 0#8 then ((w.extractLsb' 0 23).toNat : ℚ) * (2 : ℚ) ^ (-149 : Int)
       else ((2 ^ 23 + (w.extractLsb' 0 23).toNat : Nat) : ℚ) * (2 : ℚ) ^ (((w.extractLsb' 23 8).toNat : Int) - 150)))

/-- Rounding into a format is correct in every mode (R119, Table 3-5): unless it overflows, the result is a number `y` within one
unit in the last place of the exact `x`, on the side that the mode says (toward zero: of no greater magnitude), and for nearest-even
within half a unit, with an even last digit in a tie; UF says that `x` is below the least normal number and the result inexact.
It overflows only beyond the largest finite magnitude, to an infinity or to that magnitude as the mode says, with OF. -/
def Obligations.RoundingCorrect : Prop :=
  ∀ f ∈ [f32, f16, bf16], ∀ (mode : RM) (neg : Bool) (m : Nat) (e : Int), m ≠ 0 →
    let r := f.round mode neg m e
    let x := (FVal.fin neg m e).number
    let y := (f.read r.bits).number
    let u : ℚ := (2 : ℚ) ^ (f.quantum m e)
    let most : ℚ := ((2 ^ (f.fb + 1) - 1 : Nat) : ℚ) * (2 : ℚ) ^ ((f.bias : Int) - f.fb)
    r.fl.iv = false ∧ r.fl.sat = false ∧
    (r.fl.of = false → (f.read r.bits).isNumber ∧
      (match mode with
       | .rne => |y - x| ≤ u / 2 ∧ (|y - x| = u / 2 → ∃ k : Int, y = 2 * k * u)
       | .rz => |y - x| < u ∧ |y| ≤ |x|
       | .rd => y ≤ x ∧ x < y + u
       | .ru => x ≤ y ∧ y < x + u) ∧
      (r.fl.uf = true ↔ |x| < (2 : ℚ) ^ f.emin ∧ y ≠ x)) ∧
    (r.fl.of = true → r.fl.uf = false ∧ most < |x| ∧
      let infinite : Prop := mode = .rne ∨ (mode = .rd ∧ neg = true) ∨ (mode = .ru ∧ neg = false)
      (infinite → f.read r.bits = .inf neg) ∧ (¬ infinite → (f.read r.bits).isNumber ∧ y = if neg then -most else most))

/-- FADD, FSUB, FMUL, FFMA and FFMS round the exact value once (R152); FMIN, FMAX, FUNA and DQNT give their values, and what those are
is said of numbers and words (R153, R155, R139, R161). An invalid operation sets IV, or traps with GCR.IVT = 1 (R73). -/
def Obligations.FloatArithmetic : Prop :=
  (∀ r d a b, WritesF (.fadd r d a b) d (fun g l =>
    rounded r g (addExact (rndMode r g.gcr) (fsrc g a l) (fsrc g b l)))) ∧
  (∀ r d a b, WritesF (.fsub r d a b) d (fun g l =>
    rounded r g (addExact (rndMode r g.gcr) (fsrc g a l) (fsrc g b l).neg))) ∧
  (∀ r d a b, WritesF (.fmul r d a b) d (fun g l => rounded r g (mulExact (fsrc g a l) (fsrc g b l)))) ∧
  (∀ r d a b, WritesF (.ffma r d a b) d (fun g l =>
    rounded r g (fmaExact (rndMode r g.gcr) (fsrc g a l) (fsrc g b l) (fsrc g (.v d) l)))) ∧
  (∀ r d a b, WritesF (.ffms r d a b) d (fun g l =>
    rounded r g (fmaExact (rndMode r g.gcr) (fsrc g a l) (fsrc g b l) (fsrc g (.v d) l).neg))) ∧
  (∀ nan d a b, WritesF (.fmin nan d a b) d (fun g l =>
    (f32.finish .rne false (minmaxVal false nan (fsrc g a l) (fsrc g b l))).w)) ∧
  (∀ nan d a b, WritesF (.fmax nan d a b) d (fun g l =>
    (f32.finish .rne false (minmaxVal true nan (fsrc g a l) (fsrc g b l))).w)) ∧
  (∀ f d a, WritesF (.funa f d a) d (fun g l => funaV f (ftzOf g) (g.src a l))) ∧
  (∀ f d a b, WritesF (.dqnt f d a b) d (fun g l => dqntV f (ftzOf g) (g.src (.v a) l) (g.uni b.toNat))) ∧
  (∀ (max nan ftz : Bool) (a b : Word),
    let x := (f32.read a.toNat).flush f32 ftz
    let y := (f32.read b.toNat).flush f32 ftz
    let r := (f32.finish .rne false (minmaxVal max nan x y)).w
    let fa := flushedWord ftz a
    let fb := flushedWord ftz b
    r.fl = ⟨false, false, x.isSnan || y.isSnan, false⟩ ∧
    r.w = if (x.isNan && y.isNan) || (nan && (x.isNan || y.isNan)) then 0x7FC00000#32
      else if x.isNan then fb else if y.isNan then fa
      else if (orderKey fa ≤ orderKey fb ↔ max = false) then fa else fb) ∧
  (∀ (f : FunaOp) (ftz : Bool) (a : Word),
    let x := (f32.read a.toNat).flush f32 ftz
    let w := flushedWord ftz a
    let r := funaV f ftz a
    let y := f32.read r.w.toNat
    (x.isNan = true → gives r (if f = .sat then 0#32 else 0x7FC00000#32) false false x.isSnan false) ∧
    (x.isNan = false → (match f with
      | .neg => gives r (w ^^^ 0x80000000#32) false false false false
      | .abs => gives r (w &&& 0x7FFFFFFF#32) false false false false
      | .nabs => gives r (w ||| 0x80000000#32) false false false false
      | .sat => gives r (if x = .inf false then 0x3F800000#32 else if x = .inf true ∨ x.number ≤ 0 then 0#32
          else if 1 ≤ x.number then 0x3F800000#32 else w) false false false false
      | .frac => if x.isNumber then
          r.fl = Flags.none ∧ r.w.msb = false ∧ y.isNumber = true ∧ y.number < 1 ∧
          y.number ≤ x.number - ⌊x.number⌋ ∧ ∃ u, x.number - ⌊x.number⌋ < y.number + (2 : ℚ) ^ u ∧ ulpF32 u (x.number - ⌊x.number⌋)
        else gives r 0x7FC00000#32 false false true false
      | .floor => r.fl = Flags.none ∧ (if x.isNumber = true ∧ x.number ≠ 0 then
          y.isNumber = true ∧ r.w.msb = a.msb ∧ y.number = ⌊x.number⌋ else r.w = w)
      | .ceil => r.fl = Flags.none ∧ (if x.isNumber = true ∧ x.number ≠ 0 then
          y.isNumber = true ∧ r.w.msb = a.msb ∧ y.number = ⌈x.number⌉ else r.w = w)
      | .trunc => r.fl = Flags.none ∧ (if x.isNumber = true ∧ x.number ≠ 0 then
          y.isNumber = true ∧ r.w.msb = a.msb ∧ y.number = toInteger .rz x.number else r.w = w)))) ∧
  (∀ (f : DqForm) (ftz : Bool) (a scale : Word),
    let e := (scale.extractLsb' 0 8).toNat
    let q : Int := match f with
      | .q8 => (a.extractLsb' 0 8).toInt
      | .q4 => (a.extractLsb' 0 4).toInt
    let x : ℚ := (q : ℚ) * (2 : ℚ) ^ ((e : Int) - 127)
    let r := dqntV f ftz a scale
    let sign : Word := if q < 0 then 0x80000000#32 else 0#32
    (e = 255 → gives r 0x7FC00000#32 false false true false) ∧
    (e ≠ 255 → (2 : ℚ) ^ (128 : Int) ≤ |x| → gives r (sign ||| 0x7F800000#32) true false false false) ∧
    (e ≠ 255 → ftz = true → x ≠ 0 → |x| < (2 : ℚ) ^ (-126 : Int) → gives r sign false true false false) ∧
    (e ≠ 255 → |x| < (2 : ℚ) ^ (128 : Int) → (ftz = true → x = 0 ∨ (2 : ℚ) ^ (-126 : Int) ≤ |x|) →
      r.fl = Flags.none ∧ r.w.msb = decide (q < 0) ∧ (f32.read r.w.toNat).isNumber = true ∧ (f32.read r.w.toNat).number = x))

/-- PADD2, PMUL2, PFMA2, PMINMAX2 (R157), CVT and CVTP (R158, R159); and what CVT gives for codes 0x00, 0x01 and 0x04 to 0x09 (R123,
Table 5-3). A value that rounds to an integer beyond the range clamps with .sat. -/
def Obligations.PackedAndConversions : Prop :=
  (∀ t d a b, WritesF (.padd2 t d a b) d (fun g l => packed t (fun h => addExact .rne (hsrc t g a l h) (hsrc t g b l h)))) ∧
  (∀ t d a b, WritesF (.pmul2 t d a b) d (fun g l => packed t (fun h => mulExact (hsrc t g a l h) (hsrc t g b l h)))) ∧
  (∀ t d a b, WritesF (.pfma2 t d a b) d (fun g l =>
    packed t (fun h => fmaExact .rne (hsrc t g a l h) (hsrc t g b l h) (hsrc t g (.v d) l h)))) ∧
  (∀ max t d a b, WritesF (.pminmax2 max t d a b) d (fun g l =>
    packed t (fun h => minmaxVal max false (hsrc t g a l h) (hsrc t g b l h)))) ∧
  (∀ sat r d a, WritesF (.cvt sat r d a .f32I) d (fun g l => rounded r g ⟨FVal.ofInt (g.src a l).toInt, false⟩)) ∧
  (∀ sat r d a, WritesF (.cvt sat r d a .f32N) d (fun g l => rounded r g ⟨FVal.ofInt ((g.src a l).toNat : Int), false⟩)) ∧
  (∀ sat r d a c, WritesF (.cvt sat r d a c) d (fun g l => cvtV sat (rndMode r g.gcr) (ftzOf g) c (g.src a l))) ∧
  (∀ t d a b, WritesF (.cvtp t d a b) d (fun g l =>
    halves (satHalf (HFmt.fmt t) .rne (fsrc g a l)) (satHalf (HFmt.fmt t) .rne (fsrc g b l)))) ∧
  (∀ (sat : Bool) (mode : RM) (ftz : Bool) (a : Word),
    let x := (f32.read a.toNat).flush f32 ftz
    let toInt (c : CvtForm) (lo hi : Int) (bad : Word) : Prop :=
      let r := cvtV sat mode ftz c a
      let i := toInteger mode x.number
      let beyond (clamp : Word) : Prop := if sat then gives r clamp false false false true else gives r bad false false true false
      (x.isNan = true → if sat then gives r 0#32 false false x.isSnan true else gives r bad false false true false) ∧
      (x = .inf true → beyond (BitVec.ofInt 32 lo)) ∧ (x = .inf false → beyond (BitVec.ofInt 32 hi)) ∧
      (x.isNumber = true → i < lo → beyond (BitVec.ofInt 32 lo)) ∧ (x.isNumber = true → hi < i → beyond (BitVec.ofInt 32 hi)) ∧
      (x.isNumber = true → lo ≤ i → i ≤ hi → gives r (BitVec.ofInt 32 i) false false false false)
    let toHalf (t : FFmt) (nan : Word) (m : RM) (r : WRes) (clamps : Bool) : Prop :=
      (x.isNan = true → gives r nan false false x.isSnan false) ∧
      (∀ n, x = .inf n → gives r (BitVec.ofNat 32 (t.signBit n + t.infBits)) false false false false) ∧
      (∀ n, x = .zero n → gives r (BitVec.ofNat 32 (t.signBit n)) false false false false) ∧
      (∀ n k e, x = .fin n k e →
        let y := t.round m n k e
        if clamps && y.fl.of then gives r (BitVec.ofNat 32 (t.signBit n + t.maxBits)) false false false true
        else r = ⟨BitVec.ofNat 32 y.bits, y.fl⟩)
    toInt .iF32 (-2 ^ 31) (2 ^ 31 - 1) 0x80000000#32 ∧ toInt .nF32 0 (2 ^ 32 - 1) 0xFFFFFFFF#32 ∧
    toHalf f16 0x7E00#32 mode (cvtV sat mode ftz .f16F32 a) sat ∧
    toHalf bf16 0x7FC0#32 .rne (cvtV sat mode ftz .bf16F32 a) false) ∧
  (∀ (sat : Bool) (mode : RM) (ftz : Bool) (a : Word),
    let toF32 (c : CvtForm) (t : FFmt) (h : BitVec 16) : Prop :=
      let v := t.read h.toNat
      let r := cvtV sat mode ftz c a
      let y := f32.read r.w.toNat
      (v.isNan = true → gives r 0x7FC00000#32 false false v.isSnan false) ∧
      (∀ n, v = .inf n → gives r (if n then 0xFF800000#32 else 0x7F800000#32) false false false false) ∧
      (v.isNumber = true → ftz = true → v.number ≠ 0 → |v.number| < (2 : ℚ) ^ (-126 : Int) →
        gives r (if h.msb then 0x80000000#32 else 0#32) false true false false) ∧
      (v.isNumber = true → (ftz = true → v.number = 0 ∨ (2 : ℚ) ^ (-126 : Int) ≤ |v.number|) →
        r.fl = Flags.none ∧ y.isNumber = true ∧ y.number = v.number ∧ r.w.msb = h.msb)
    toF32 .f32F16 f16 (a.extractLsb' 0 16) ∧ toF32 .f32F16h f16 (a.extractLsb' 16 16) ∧
    toF32 .f32Bf16 bf16 (a.extractLsb' 0 16) ∧ toF32 .f32Bf16h bf16 (a.extractLsb' 16 16))

/-- FRCP, FRSQ, FEX2, FLG2, FSINR and FCOSR complete, with what their function gives in each active lane; the special results of Table
5-2 are exact, FEX2 of an integer and FSINR and FCOSR of one among them, and every other result lies within the bound of the table
(R121, R156); a NaN gives the canonical NaN, and only a signalling one sets IV. Under FTZ subnormal operands and results are flushed.
Which value within the bound the device returns is open (log 7); that no other flag is set is log 8 (DEDUCED). -/
def Obligations.Approximations : Prop :=
  (∀ d a, WritesF (.frcp d a) d (fun g l => frcpV (ftzOf g) (g.src a l))) ∧
  (∀ d a, WritesF (.frsq d a) d (fun g l => frsqV (ftzOf g) (g.src a l))) ∧
  (∀ d a, WritesF (.fex2 d a) d (fun g l => fex2V (ftzOf g) (g.src a l))) ∧
  (∀ d a, WritesF (.flg2 d a) d (fun g l => flg2V (ftzOf g) (g.src a l))) ∧
  (∀ d a, WritesF (.fsinr d a) d (fun g l => ftrigV false (ftzOf g) (g.src a l))) ∧
  (∀ d a, WritesF (.fcosr d a) d (fun g l => ftrigV true (ftzOf g) (g.src a l))) ∧
  (∀ f ∈ [frcpV, frsqV, fex2V, flg2V, ftrigV false, ftrigV true], flushesTo f ∧
    ∀ w : Word, (f32.read w.toNat).isNan = true → gives (f false w) 0x7FC00000#32 false false (f32.read w.toNat).isSnan false) ∧
  (∀ f ∈ [frcpV, frsqV, fex2V, flg2V, ftrigV false, ftrigV true], ∀ w : Word, (f32.read w.toNat).isNan = false →
    (f false w).fl = Flags.none) ∧
  (frcpV false 0x00000000#32).w = 0x7F800000#32 ∧ (frcpV false 0x80000000#32).w = 0xFF800000#32 ∧
  (frcpV false 0x7F800000#32).w = 0x00000000#32 ∧ (frcpV false 0xFF800000#32).w = 0x80000000#32 ∧
  (frsqV false 0x00000000#32).w = 0x7F800000#32 ∧ (frsqV false 0x80000000#32).w = 0xFF800000#32 ∧
  (frsqV false 0x7F800000#32).w = 0x00000000#32 ∧ (frsqV false 0xFF800000#32).w = 0x7FC00000#32 ∧
  (fex2V false 0xFF800000#32).w = 0x00000000#32 ∧ (fex2V false 0x7F800000#32).w = 0x7F800000#32 ∧
  (flg2V false 0x00000000#32).w = 0xFF800000#32 ∧ (flg2V false 0x80000000#32).w = 0xFF800000#32 ∧
  (flg2V false 0x3F800000#32).w = 0x00000000#32 ∧ (flg2V false 0x7F800000#32).w = 0x7F800000#32 ∧
  (flg2V false 0xFF800000#32).w = 0x7FC00000#32 ∧
  (∀ c, (ftrigV c false 0x7F800000#32).w = 0x7FC00000#32 ∧ (ftrigV c false 0xFF800000#32).w = 0x7FC00000#32) ∧
  (∀ w : Word, let x := f32.read w.toNat
    x.isNumber = true → x.number < 0 → (frsqV false w).w = 0x7FC00000#32 ∧ (flg2V false w).w = 0x7FC00000#32) ∧
  (∀ (w : Word) (i : Int), let x := f32.read w.toNat
    x.isNumber = true → x.number = i →
      (ftrigV false false w).w = 0#32 ∧ (ftrigV true false w).w = 0x3F800000#32 ∧
      (-149 ≤ i → i ≤ 127 → (f32.read (fex2V false w).w.toNat).isNumber = true ∧
        (f32.read (fex2V false w).w.toNat).number = (2 : ℚ) ^ i) ∧
      (-149 ≤ i → i ≤ -127 → gives (fex2V true w) 0#32 false true false false)) ∧
  (∀ w : Word, let x := f32.read w.toNat
    x.isNumber = true →
      (x.number ≠ 0 → withinUlps 1 (frcpV false w).w ((x.number : ℝ)⁻¹)) ∧
      (0 < x.number → withinUlps 1 (frsqV false w).w ((Real.sqrt (x.number : ℝ))⁻¹)) ∧
      withinUlps 2 (fex2V false w).w ((2 : ℝ) ^ (x.number : ℝ)) ∧
      (0 < x.number → withinUlps 2 (flg2V false w).w (Real.logb 2 (x.number : ℝ))) ∧
      (f32.read (ftrigV false false w).w.toNat).isNumber = true ∧ (f32.read (ftrigV true false w).w.toNat).isNumber = true ∧
      |((f32.read (ftrigV false false w).w.toNat).number : ℝ) - Real.sin (2 * Real.pi * (x.number : ℝ))| ≤ (2 : ℝ) ^ (-22 : Int) ∧
      |((f32.read (ftrigV true false w).w.toNat).number : ℝ) - Real.cos (2 * Real.pi * (x.number : ℝ))| ≤ (2 : ℝ) ^ (-22 : Int))

/-- FCMP (R154): the condition is combined into the predicate; only a signalling NaN sets IV. With GCR.IVT = 1 and a signalling NaN in
an active lane it traps instead (R73). The order of numbers is that of the numbers they stand for. -/
def Obligations.FloatCompare : Prop :=
  (∀ m c p a b s v, s.dev.issuer = some v → Ready (.fcmp m c p a b) v →
    let snan (l : Nat) : Bool := (fsrc v.g a l).isSnan || (fsrc v.g b l).isSnan
    let bad : Bool := v.act.lanes.any snan
    (v.g.gcr.getLsbD 4 = false ∨ bad = false →
      exec (.fcmp m c p a b) s = .next (s.withDev (v.completes v.d
        { v.issued.setPred p.toNat v.act (fun l =>
            combined m ((v.g.pred p.toNat).getLsbD l) (fcondOf c (fsrc v.g a l) (fsrc v.g b l))) with
          gfl := v.g.gfl ||| (if bad then 4#32 else 0#32) }))) ∧
    (v.g.gcr.getLsbD 4 = true → bad = true →
      exec (.fcmp m c p a b) s = .next (s.withDev (v.traps (.fcmp m c p a b)
        { cause := 0x13, lanes := Mask.ofFn (fun l => v.act.getLsbD l && snan l),
          info0 := 0x80000000#32 + (opWord (.fcmp m c p a b) >>> 26) })))) ∧
  (∀ x y : FVal, x.isNumber → y.isNumber → (FVal.lt false x y = true ↔ x.number < y.number)) ∧
  (∀ x y : FVal, x.isNumber → y.isNumber → (x.eqv y = true ↔ x.number = y.number))

/-- FSQRT (R152, R77): at issue D is marked empty and the group goes on; FSQRT_COMPLETE lands the roots read at issue, with the flags,
once no earlier result for D is on its way (R79). Before it is rounded, the square root carries at least 40 bits, cut, and one bit
that says whether anything was cut. -/
def Obligations.SquareRoot : Prop :=
  (∀ r d a s v, s.dev.issuer = some v → Ready (.fsqrt r d a) v →
    v.g.gcr.getLsbD 4 = false ∨ (∀ l ∈ v.act.lanes, (sqrtExact (fsrc v.g a l)).iv = false) →
    exec (.fsqrt r d a) s = .next (s.withDev (v.completes
      { v.d with nextId := v.d.nextId + 1, cmds := v.d.cmds ++ [sqrtCmd v r d a] }
      { v.issued with flights := v.g.flights ++ [⟨v.g.vreg d.toNat, v.d.nextId⟩] }))) ∧
  (∀ (s : State) op b n act r vals fl g, s.plat.phase = .running →
    s.dev.cmds.find? (fun c => decide (c.op = op)) = some ⟨op, b, n, act, [r], .fsqrt vals fl⟩ → s.dev.group b n = some g →
    g.flights.find? (fun f => decide (f.reg = r)) = some ⟨r, op⟩ →
    exec (.fsqrtComplete op) s = .next (s.withDev
      (({ s.dev with cmds := s.dev.cmds.filter (fun c => decide (c.op ≠ op)) } : Dev).putGroup b n
        ((g.land op r (vals.map (fun x => (x.1, x.2, 0)))).raise fl)).settle)) ∧
  (∀ m e, m ≠ 0 → ∃ k q, (sqrtExact (.fin false m e)).v = .fin false k q ∧ 2 ^ 40 ≤ k ∧
    (((2 * (k / 2) : Nat) : ℚ) * (2 : ℚ) ^ q) ^ 2 ≤ (FVal.fin false m e).number ∧
    (FVal.fin false m e).number < (((2 * (k / 2) + 2 : Nat) : ℚ) * (2 : ℚ) ^ q) ^ 2 ∧
    (k % 2 = 0 ↔ ((k : ℚ) * (2 : ℚ) ^ q) ^ 2 = (FVal.fin false m e).number))

/-- QNT (R160): the group as one block of the live lanes' values, the elements to D, the scale to a uniform, IV and SAT as R137
says, and for a grain form DPH advances by 7 modulo 32; what R137 and R138 say of the block; and USER_TRAP with GCR.IVT = 1 for a
block with a NaN or an infinity (R73), which names the lanes that hold one. -/
def Obligations.QuantiseGroup : Prop :=
  (∀ w qmax mode x, (∀ v ∈ x, ∀ n e, v ≠ .fin n 0 e) → Quantised w qmax mode x (quantise w qmax mode x)) ∧
  (∀ f d a b s v, s.dev.issuer = some v → Ready (.qnt f d a b) v → v.g.gcr.getLsbD 4 = true →
    let bad (l : Nat) : Bool := v.g.live.getLsbD l && !(f32.read (v.g.src (.v a) l).toNat).isNumber
    (∃ l < 32, bad l = true) → exec (.qnt f d a b) s = .next (s.withDev (v.traps (.qnt f d a b)
      { cause := 0x13, lanes := Mask.ofFn bad, info0 := 0x80000000#32 + (opWord (.qnt f d a b) >>> 26) }))) ∧
  ∀ f d a b s v, s.dev.issuer = some v → Ready (.qnt f d a b) v →
    let x : List FVal := (List.range 32).map (fun l => if v.g.live.getLsbD l then f32.read (v.g.src (.v a) l).toNat else .zero false)
    let eight := decide (f = .q8 ∨ f = .q8grain)
    let grain := decide (f = .q8grain ∨ f = .q4grain)
    let phi := (v.g.gcr.extractLsb' 5 5).toNat
    let q := quantise (if eight then 6 else 2) (if eight then 127 else 7) (if grain then .grain phi else .rne) x
    (v.g.gcr.getLsbD 4 = false ∨ q.iv = false) →
    ∃ g', exec (.qnt f d a b) s = .next (s.withDev (v.completes v.d g')) ∧
      (∀ l < 32, v.act.getLsbD l → g'.word (v.g.vreg d.toNat) l = BitVec.ofInt 32 (q.q.getD l 0)) ∧
      g'.uni b.toNat = BitVec.ofNat 32 q.e ∧
      g'.gfl = v.g.gfl ||| (if q.iv then 4#32 else 0#32) ||| (if q.clamped ≠ 0 then 16#32 else 0#32) ∧
      (grain = false → g'.gcr = v.g.gcr) ∧
      (grain = true → (g'.gcr.extractLsb' 5 5).toNat = (phi + 7) % 32 ∧ ∀ i, i < 5 ∨ 10 ≤ i → g'.gcr.getLsbD i = v.g.gcr.getLsbD i)

/-! ### VEC: cross-lane instructions -/

/-- SHFL (R163): the source lane's word with p6 true where that lane exists and is live, else the lane's own word with p6 false. XGATH
(R164), QX (R165) and MATCH (R167). -/
def Obligations.LaneExchange : Prop :=
  (let shuffles (i : Instr) (m : ShflMode) (d a : BitVec 7) (b : Group → Nat → Word) : Prop :=
     Answers i (fun v =>
       let k (l : Nat) : Int := shuffleFrom m l (b v.g l)
       v.completes v.d ((v.issued.setWords (v.g.vreg d.toNat) v.act (fun l =>
         v.g.word (v.g.vreg a.toNat) (if liveLane v.g (k l) then (k l).toNat else l))).setPred 6 v.act (fun l => liveLane v.g (k l))))
   (∀ m d a b, shuffles (.shfl m d a b) m d a (fun g l => g.src b l)) ∧
   (∀ m d a i, shuffles (.shflImm m d a i) m d a (fun _ _ => i.signExtend 32))) ∧
  (∀ k d a b, WritesV (.xgath k d a b) d (fun g l =>
    let n := match k with
      | .k1 => 1
      | .k2 => 2
      | .k4 => 4
      | .k8 => 8
    let w := (g.src b l).toNat % (32 * n)
    g.word (g.vreg (a.toNat + w / 32)) (w % 32))) ∧
  (∀ d a, WritesF (.qx .h d a) d (fun g l => ⟨g.src (.v a) (l ^^^ 1), Flags.none⟩)) ∧
  (∀ d a, WritesF (.qx .v d a) d (fun g l => ⟨g.src (.v a) (l ^^^ 2), Flags.none⟩)) ∧
  (∀ d a, WritesF (.qx .d d a) d (fun g l => ⟨g.src (.v a) (l ^^^ 3), Flags.none⟩)) ∧
  (∀ d a, WritesF (.qx .ddx d a) d (fun g l =>
    rounded .gcr g (addExact (rndMode .gcr g.gcr) (fsrc g (.v a) (l / 2 * 2 + 1)) (fsrc g (.v a) (l / 2 * 2)).neg))) ∧
  (∀ d a, WritesF (.qx .ddy d a) d (fun g l =>
    rounded .gcr g (addExact (rndMode .gcr g.gcr) (fsrc g (.v a) (l / 4 * 4 + l % 2 + 2)) (fsrc g (.v a) (l / 4 * 4 + l % 2)).neg))) ∧
  (∀ d a, WritesV (.matchLanes d a) d (fun g l =>
    Mask.ofFn (fun k => g.active.getLsbD k && decide (g.src (.v a) k = g.src (.v a) l)))) ∧
  (∀ d a b, Answers (.matchCount d a b) (fun v => v.completes v.d
    ((v.issued.setWords (v.g.vreg d.toNat) v.act (fun l =>
      Mask.ofFn (fun k => v.act.getLsbD k && decide (v.g.src (.v a) k = v.g.src (.v a) l)))).setUni b.toNat
        (BitVec.ofNat 32 ((v.act.lanes.map (v.g.src (.v a))).toFinset.card)))))

/-- VOTE (R162, R166). An active lane that the mask omits is MEMBER_SELF, with the omitted lanes in info word 0. -/
def Obligations.Votes : Prop :=
  (∀ p q b, AnswersIf (.voteAnyAll false p q b) (selfMember · b) (fun v => v.completes v.d
    (v.issued.setPred p.toNat v.act (fun _ => (contributors v.g b).any (fun l => (v.g.pred q.toNat).getLsbD l))))) ∧
  (∀ p q b, AnswersIf (.voteAnyAll true p q b) (selfMember · b) (fun v => v.completes v.d
    (v.issued.setPred p.toNat v.act (fun _ => (contributors v.g b).all (fun l => (v.g.pred q.toNat).getLsbD l))))) ∧
  (∀ d q b, AnswersIf (.voteBallot d q b) (selfMember · b) (fun v => v.completes v.d
    (v.issued.setWords (v.g.vreg d.toNat) v.act (fun _ => v.g.uni b.toNat &&& v.g.live &&& v.g.pred q.toNat)))) ∧
  (∀ p a b, AnswersIf (.voteEq p a b) (selfMember · b) (fun v => v.completes v.d
    (v.issued.setPred p.toNat v.act (fun _ => (contributors v.g b).all (fun l => (contributors v.g b).all (fun m =>
      decide (v.g.src (.v a) l = v.g.src (.v a) m))))))) ∧
  (∀ i b, (∃ all p q, i = .voteAnyAll all p q b) ∨ (∃ d q, i = .voteBallot d q b) ∨ (∃ p a, i = .voteEq p a b) ∨
      (∃ f d a, i = .gred f d a b) ∨ (∃ e m d a, i = .scan e m d a b) →
    AnswersIf i (fun v => v.act &&& ~~~(v.g.uni b.toNat) ≠ 0#32) (fun v => v.traps i
      { cause := 0x08, lanes := v.act &&& ~~~(v.g.uni b.toNat), info0 := v.act &&& ~~~(v.g.uni b.toNat) }))

/-- GRED and SCAN (R162, R168, R169): their values, and the flags of every step of .add.f32, of which an invalid one is USER_TRAP with GCR.IVT
= 1 (R73). That this trap names every active lane is the model's choice (log 92). -/
def Obligations.Reductions : Prop :=
  let member (v : View) (b : BitVec 7) (l : Nat) : Bool := (v.g.uni b.toNat).getLsbD l && v.g.live.getLsbD l
  let answers (i : Instr) (b : BitVec 7) (fl : View → Flags) (g' : View → Group) : Prop :=
    AnswersIf i (fun v => selfMember v b ∧ (v.g.gcr.getLsbD 4 = false ∨ (fl v).iv = false))
      (fun v => v.completes v.d ((g' v).raise (fl v))) ∧
    AnswersIf i (fun v => selfMember v b ∧ v.g.gcr.getLsbD 4 = true ∧ (fl v).iv = true)
      (fun v => v.traps i { cause := 0x13, lanes := v.act, info0 := 0x80000000#32 + (opWord i >>> 26) })
  (∀ f d a b,
    let t (v : View) (l : Nat) : Word := if member v b l then v.g.src (.v a) l else identityOf f
    answers (.gred f d a b) b (fun v => treeFlags (reduceBy f v.g) (stepFlags f v.g) (t v) 5 0)
      (fun v => v.issued.setUni d.toNat (reduceTree (reduceBy f v.g) (t v) 5 0))) ∧
  (∀ ex m d a b,
    answers (.scan ex m d a b) b
      (fun v => scanFlags (reduceBy (scanAs m) v.g) (stepFlags (scanAs m) v.g) (identityOf (scanAs m)) (member v b) (v.g.src (.v a)) 32)
      (fun v => v.issued.setWords (v.g.vreg d.toNat) v.act (fun l =>
        scanBefore (reduceBy (scanAs m) v.g) (identityOf (scanAs m)) (member v b) (v.g.src (.v a)) (if ex then l else l + 1))))

/-! ### UNI -/

/-- The UNI arithmetic of Table 6-10 (R170). -/
def Obligations.UniformArithmetic : Prop :=
  let both (f : BitVec 8 → USrc → USrc → Instr) (op : Word → Word → Word) : Prop :=
    ∀ d a b, WritesU (f d a b) d.toNat (fun g => op (g.usrc a) (g.usrc b))
  both .sadd (fun a b => a + b) ∧
  both .ssub (fun a b => a - b) ∧
  both (.smul .low) (fun a b => a * b) ∧
  both (.smul .hi) (fun a b => ((a.signExtend 64 * b.signExtend 64 : BitVec 64) >>> 32).setWidth 32) ∧
  both (.smul .hin) (fun a b => ((a.zeroExtend 64 * b.zeroExtend 64 : BitVec 64) >>> 32).setWidth 32) ∧
  (∀ d a b, WritesU (.smad d a b) d.toNat (fun g => g.uni d.toNat + g.usrc a * g.usrc b)) ∧
  both .sand (fun a b => a &&& b) ∧
  both .sor (fun a b => a ||| b) ∧
  both .sxor (fun a b => a ^^^ b) ∧
  both .sshl (fun a b => BitVec.ofNat 32 (a.toNat * 2 ^ b.toNat)) ∧
  both (.sshr false) (fun a b => BitVec.ofNat 32 (a.toNat / 2 ^ b.toNat)) ∧
  both (.sshr true) (fun a b => BitVec.ofInt 32 (a.toInt / 2 ^ b.toNat)) ∧
  both (.sminmax false false) (fun a b => if a.toInt ≤ b.toInt then a else b) ∧
  both (.sminmax false true) (fun a b => if a.toInt ≤ b.toInt then b else a) ∧
  both (.sminmax true false) (fun a b => if a.toNat ≤ b.toNat then a else b) ∧
  both (.sminmax true true) (fun a b => if a.toNat ≤ b.toNat then b else a) ∧
  both (.scmp .eq) (fun a b => if a = b then 1 else 0) ∧
  both (.scmp .ne) (fun a b => if a = b then 0 else 1) ∧
  both (.scmp .lt) (fun a b => if a.toInt < b.toInt then 1 else 0) ∧
  both (.scmp .le) (fun a b => if a.toInt ≤ b.toInt then 1 else 0) ∧
  both (.scmpn .lt) (fun a b => if a.toNat < b.toNat then 1 else 0) ∧
  both (.scmpn .le) (fun a b => if a.toNat ≤ b.toNat then 1 else 0) ∧
  both (.scmpn .gt) (fun a b => if b.toNat < a.toNat then 1 else 0) ∧
  both (.scmpn .ge) (fun a b => if b.toNat ≤ a.toNat then 1 else 0) ∧
  (∀ d a i, WritesU (.saddi d a i) d.toNat (fun g => g.usrc a + i.signExtend 32)) ∧
  (∀ d i, WritesU (.smovi false d i) d.toNat (fun _ => i.zeroExtend 32)) ∧
  (∀ d i, WritesU (.smovi true d i) d.toNat (fun _ => i.signExtend 32)) ∧
  (∀ d i, WritesU (.smovb3 .b1 d i) d.toNat (fun g => (g.uni d.toNat).extractLsb' 16 16 ++ i ++ (g.uni d.toNat).extractLsb' 0 8)) ∧
  (∀ d i, WritesU (.smovb3 .b2 d i) d.toNat (fun g => (g.uni d.toNat).extractLsb' 24 8 ++ i ++ (g.uni d.toNat).extractLsb' 0 16)) ∧
  (∀ d i, WritesU (.smovb3 .b3 d i) d.toNat (fun g => i ++ (g.uni d.toNat).extractLsb' 0 24)) ∧
  (∀ d a, WritesU (.smov d a) d.toNat (fun g => g.usrc a))

/-- V2S (R171): the word of the lowest active lane, or of a named lane; .chk with lanes that differ from it is NONUNIFORM with those
lanes in info word 0. SCTL writes GCR bits 9:0 (R173), SFLG clears GFL bits (R174), JGET reads a rejoin mask (R176). -/
def Obligations.UniformMoves : Prop :=
  (∀ d a, WritesU (.v2s false d a) d.toNat (fun g => g.src (.v a) (Mask.lowest g.active))) ∧
  (∀ d a l, WritesU (.v2sLane d a l) d.toNat (fun g => g.src (.v a) l.toNat)) ∧
  (∀ d a s v, s.dev.issuer = some v → Ready (.v2s true d a) v →
    let x := v.g.src (.v a) (Mask.lowest v.act)
    let differ : Mask := Mask.ofFn (fun l => v.act.getLsbD l && decide (v.g.src (.v a) l ≠ x))
    exec (.v2s true d a) s = .next (s.withDev
      (if differ = 0#32 then v.completes v.d (v.issued.setUni d.toNat x)
       else v.traps (.v2s true d a) { cause := 0x07, lanes := differ, info0 := differ }))) ∧
  (∀ a, Answers (.sctl a) (fun v => v.completes v.d { v.issued with gcr := v.g.usrc a &&& 0x3FF#32 })) ∧
  (∀ a, Answers (.sflg a) (fun v => v.completes v.d { v.issued with gfl := v.g.gfl &&& ~~~(v.g.usrc a) })) ∧
  (∀ d j, Answers (.jget d j) (fun v => v.completes v.d
    ((v.issued.setUni d.toNat (FMap.get 0 v.g.jE j.toNat)).setUni (d.toNat + 1) (FMap.get 0 v.g.jA j.toNat))))

/-- SRD (R104, R172): each code's value. Code 0x0D keeps the high word of the cycle counter for a following code 0x0E. -/
def Obligations.SystemReads : Prop :=
  let gives (c : BitVec 8) (f : View → Word) : Prop :=
    ∀ d, Answers (.srd d c) (fun v => v.completes v.d { v.issued.setUni d.toNat (f v) with clk := none })
  gives 0x00 (fun v => BitVec.ofNat 32 ((List.range 32).countP (fun l => v.g.live.getLsbD l))) ∧
  gives 0x01 (fun v => BitVec.ofNat 32 v.g.idx) ∧
  gives 0x02 (fun v => BitVec.ofNat 32 v.g.role) ∧
  gives 0x03 (fun v => BitVec.ofNat 32 (v.k.lrec.role v.g.role).ngrp) ∧
  gives 0x04 (fun v => BitVec.ofNat 32 v.k.x) ∧
  gives 0x05 (fun v => BitVec.ofNat 32 v.k.y) ∧
  gives 0x06 (fun v => BitVec.ofNat 32 v.k.z) ∧
  gives 0x07 (fun v => BitVec.ofNat 32 v.k.lrec.extx) ∧
  gives 0x08 (fun v => BitVec.ofNat 32 v.k.lrec.exty) ∧
  gives 0x09 (fun v => BitVec.ofNat 32 v.k.lrec.extz) ∧
  gives 0x0A (fun v => BitVec.ofNat 32 v.core) ∧
  gives 0x0B (fun v => BitVec.ofNat 32 (v.core / 4)) ∧
  gives 0x0C (fun v => BitVec.ofNat 32 (v.core / 128)) ∧
  (∀ d, Answers (.srd d 0x0D) (fun v => v.completes v.d
    { v.issued.setUni d.toNat (BitVec.ofNat 32 v.d.cycle) with clk := some (BitVec.ofNat 32 (v.d.cycle / 2 ^ 32)) })) ∧
  gives 0x0E (fun v => v.g.clk.getD (BitVec.ofNat 32 (v.d.cycle / 2 ^ 32))) ∧
  gives 0x0F (fun v => v.g.live) ∧
  gives 0x10 (fun v => v.g.live) ∧
  gives 0x11 (fun _ => 1) ∧
  gives 0x12 (fun v => v.g.gfl) ∧
  gives 0x13 (fun v => v.g.gcr) ∧
  gives 0x14 (fun v => ((v.d.launches[v.k.launch]?).map (·.seq)).getD 0) ∧
  gives 0x15 (fun v => BitVec.ofNat 32 v.k.part)

/-! ### CTL: transfers, rejoin masks, barriers, the end of a group -/

/-- BRA, BRAU, BRAS, BRX, RET and CALL (R93, R94, R182, R183, R186, R187). -/
def Obligations.Branches : Prop :=
  (∀ p i, Transfers (.bra .always p i) (·.issued) (·.act) (nearTarget i) nearOk) ∧
  (∀ p i, Transfers (.bra .ifT p i) (·.issued) (fun v => v.act &&& v.g.pred p.toNat) (nearTarget i) nearOk) ∧
  (∀ p i, Transfers (.bra .ifN p i) (·.issued) (fun v => v.act &&& ~~~(v.g.pred p.toNat)) (nearTarget i) nearOk) ∧
  (∀ a i, Transfers (.brau false a i) (·.issued) (fun v => if v.g.uni a.toNat ≠ 0 then v.act else 0) (nearTarget i) nearOk) ∧
  (∀ a i, Transfers (.brau true a i) (·.issued) (fun v => if v.g.uni a.toNat = 0 then v.act else 0) (nearTarget i) nearOk) ∧
  (∀ a, Transfers (.bras a) (·.issued) (·.act) (fun v _ => ((v.g.uni a.toNat).toNat : Int)) farOk) ∧
  (∀ a, Transfers (.brx a) (·.issued) (·.act) (fun v l => ((v.g.src (.v a) l).toNat : Int)) farOk) ∧
  (∀ a, Transfers (.ret a) (·.issued) (·.act) (fun v l => ((v.g.src (.v a) l).toNat : Int)) farOk) ∧
  (∀ l i, Transfers (.call l i) (linkOf l) (·.act) (nearTarget i) nearOk) ∧
  (∀ l a, Transfers (.callFar l a) (linkOf l) (·.act) (fun v _ => ((v.g.uni a.toNat).toNat : Int)) farOk)

/-- JSET, JOIN, LEAVE, WAIT and WAIT.t with the checks that follow (R188, R189, R190), and a deadline's passing: by itself as the cycle
that it names ends, or at once where it came with the arrival. -/
def Obligations.RejoinMasks : Prop :=
  let sets (i : Instr) (j : BitVec 4) (e : View → Mask) : Prop :=
    ∀ s v, s.dev.issuer = some v → Ready i v → ∃ g',
      MaskChecked { v.issued.nextWord with jE := FMap.set 0 v.g.jE j.toNat (e v) } g' j.toNat ∧
      exec i s = .next (s.withDev (v.leaves v.g.head.endsRun g'))
  let waits (i : Instr) (j : BitVec 4) (f : View → Group → Group) : Prop :=
    ∀ s v, s.dev.issuer = some v → Ready i v → ∃ g1 g2 ended,
      MaskChecked (f v (v.arrives j.toNat)) g1 j.toNat ∧
      (g1.overdue j.toNat v.d.cycle → Releases g1 g2 j.toNat true) ∧ (¬ g1.overdue j.toNat v.d.cycle → g2 = g1) ∧
      exec i s = .next (s.withDev (v.leaves ended g2))
  (∀ j a, sets (.jset j a) j (fun v => v.g.uni a.toNat &&& v.g.live)) ∧
  (∀ j, sets (.join j) j (fun v => FMap.get 0 v.g.jE j.toNat ||| v.act)) ∧
  (∀ j, sets (.leave j) j (fun v => FMap.get 0 v.g.jE j.toNat &&& ~~~v.act)) ∧
  (∀ j, waits (.wait j) j (fun _ g => g)) ∧
  (∀ j a p, waits (.waitT j a p) j (fun v g => { g with
    dl := v.act.lanes.foldl (fun m l => FMap.set 0 m l (v.d.cycle + (v.g.uni a.toNat).toNat + 1)) g.dl,
    mark := v.act.lanes.foldl (fun m l => FMap.set 0 m l p.toNat) g.mark })) ∧
  (∀ (s : State) b n (j : BitVec 4) k g, s.plat.phase = .running → s.dev.blocks[b]? = some k → k.life = .running →
    k.groups[n]? = some g → g.overdue j.toNat s.dev.cycle →
    ∃ g', Releases g g' j.toNat true ∧ exec (.waitTimeout b n j) s = .next (s.withDev (s.dev.putGroup b n g'))) ∧
  (∀ (d : Dev) b n j k g, j < 12 → d.blocks[b]? = some k → k.life = .running → k.groups[n]? = some g → g.overdue j d.cycle →
    (∀ i < 12, i ≠ j → FMap.get 0 g.jA i &&& FMap.get 0 g.jA j = 0) →
    ∃ g', (d.passTime 1).group b n = some g' ∧ FMap.get 0 g'.jA j = 0 ∧
      (∀ e ∈ g.frontier, e.susp = .wait j → ∀ l < 32, e.mask.getLsbD l = true → (FMap.get 0 g.jA j).getLsbD l = true →
        g'.runsAt l (e.pc + 4)) ∧
      ∀ l < 32, (FMap.get 0 g.jA j).getLsbD l = true → FMap.get 0 g.dl l ≠ 0 → FMap.get 0 g.mark l < 7 →
        (g'.pred (FMap.get 0 g.mark l)).getLsbD l = true)

/-- BAR, BAR.ARR and BAR.WAIT, block or role (R192, R193, R194). While some live lane of the group is elsewhere, the issuing entry only waits.
Once all are there: BAR.ARR, with no arrival of an open phase and all earlier stores performed (R195), arrives and the lanes go on;
BAR.WAIT with no arrival pending, and what its group has asked for returned (log 83), goes on; BAR, when every other participant has arrived, completes the phase and goes on. -/
def Obligations.Barriers : Prop :=
  let key (v : View) (role : Bool) (id : BitVec 4) : Nat := if role then 16 + 16 * v.g.role + id.toNat else id.toNat
  let arrived (v : View) (x : Group) (key : Nat) : Prop := FMap.get 0 x.barRec key = FMap.get 0 v.k.phases key + 1
  let alive (v : View) : Prop := v.k.life = .running ∧ v.g.live ≠ 0 ∧ v.g.active ≠ 0 ∧ v.g.apart
  (∀ i op s v, (i, op) ∈ [false, true].flatMap (fun (r : Bool) => (List.range 16).flatMap (fun n =>
      [(Instr.bar r (BitVec.ofNat 4 n), CollOp.bar r n), (.barArr r (BitVec.ofNat 4 n), .arr r n),
       (.barWait r (BitVec.ofNat 4 n), .bwait r n)])) →
    s.dev.issuer = some v → Ready i v → alive v → ¬ v.allThere op → ∃ d g', exec i s = .next (s.withDev d) ∧
      d.group v.b v.n = some g' ∧ g'.frontier = { v.issued.head with susp := .coll op none } :: v.g.frontier.tail ∧
      g'.barRec = v.g.barRec) ∧
  (∀ role id s v, s.dev.issuer = some v → Ready (.barArr role id) v → alive v → v.allThere (.arr role id.toNat) → v.othersRest →
    v.d.released v.b v.n true = true → ¬ arrived v v.g (key v role id) →
    ∃ d g', exec (.barArr role id) s = .next (s.withDev d) ∧ d.group v.b v.n = some g' ∧ v.allGoOn g' ∧
      arrived v g' (key v role id)) ∧
  (∀ role id s v, s.dev.issuer = some v → Ready (.barWait role id) v → alive v → v.allThere (.bwait role id.toNat) → v.othersRest →
    v.d.returned v.b v.n = true → ¬ arrived v v.g (key v role id) →
    ∃ d g', exec (.barWait role id) s = .next (s.withDev d) ∧ d.group v.b v.n = some g' ∧ v.allGoOn g' ∧
      g'.barRec = v.g.barRec) ∧
  (∀ role id s v, s.dev.issuer = some v → Ready (.bar role id) v → alive v → v.allThere (.bar role id.toNat) → v.othersRest →
    v.d.released v.b v.n true = true → v.g.stage = 0 → ¬ arrived v v.g (key v role id) →
    (∀ m x, m ≠ v.n → v.k.groups[m]? = some x → x.exited = false → role = false ∨ x.role = v.g.role →
      arrived v x (key v role id)) →
    ∃ d k' g', exec (.bar role id) s = .next (s.withDev d) ∧ d.blocks[v.b]? = some k' ∧ k'.groups[v.n]? = some g' ∧
      v.allGoOn g' ∧ FMap.get 0 k'.phases (key v role id) = FMap.get 0 v.k.phases (key v role id) + 1)

/-- EXIT (R191, R198): the active lanes leave the live mask, E and A of all twelve masks, and every entry; then the twelve masks are
checked in ascending order. When the block's last group has wholly exited, the block begins to retire.
YIELD goes on at the fall-through header position and its run is over (R200); NOP does nothing; TRAP and BKPT trap with their
immediate zero-extended (R201); a word that no row of the map lists is ILLEGAL_INSTR (R99), at level H also in the SYS class. -/
def Obligations.ExitAndRest : Prop :=
  (∀ s v, s.dev.issuer = some v → Ready .exit v →
     ∃ h : Nat → Group,
       h 0 = { v.issued with live := v.g.live &&& ~~~v.act, jE := (h 0).jE, jA := (h 0).jA, frontier := (h 0).frontier,
                             saved := (h 0).saved, sel := false } ∧
       (∀ j < 12, FMap.get 0 (h 0).jE j = FMap.get 0 v.g.jE j &&& ~~~v.act ∧ FMap.get 0 (h 0).jA j = FMap.get 0 v.g.jA j &&& ~~~v.act) ∧
       (∀ e ∈ (h 0).frontier, e.mask &&& v.act = 0#32 ∧ e.mask ≠ 0#32) ∧
       (∀ l, v.act.getLsbD l = false → Group.staysPut v.g.frontier (h 0) l) ∧
       (∀ j < 12, MaskChecked (h j) (h (j + 1)) j) ∧
       (v.g.live &&& ~~~v.act ≠ 0#32 → exec .exit s = .next (s.withDev (v.leaves v.g.head.endsRun (h 12)))) ∧
       (v.g.live &&& ~~~v.act = 0#32 → v.k.life = .running → (∀ m g, m ≠ v.n → v.k.groups[m]? = some g → g.live = 0#32) →
         ∃ d k', exec .exit s = .next (s.withDev d) ∧ d.blocks[v.b]? = some k' ∧ k'.life = .retiring ∧ ∀ g ∈ k'.groups, g.live = 0#32)) ∧
  Answers .yield (fun v => v.d.putGroup v.b v.n
    { v.issued with frontier := v.issued.goesOn.frontier, slot := none, sel := false, readyAt := none }) ∧
  Answers .nop (fun v => v.completes v.d v.issued) ∧
  (∀ i, Answers (.trap i) (fun v => v.traps (.trap i) { cause := 0x13, lanes := v.act, info0 := i.zeroExtend 32 })) ∧
  (∀ i, Answers (.bkpt i) (fun v => v.traps (.bkpt i) { cause := 0x14, lanes := v.act, info0 := i.zeroExtend 32 })) ∧
  (∀ c w s v, s.dev.issuer = some v → v.g.head.run < 24 → (c = .sys → v.g.levelH = true) →
    exec (.unassignedOp c w) s = .next (s.withDev (v.traps (.unassignedOp c w) { cause := 0x02, lanes := v.act, info0 := w })))

/-! ### Checks at issue, and traps -/

/-- R100: the first of the checks that fails decides, for every instruction word. RUN_LONG (R89); PRIV (R99); ILLEGAL_INSTR (R58, R85, R99);
DIVERGED_UNIFORM (R67); an empty source traps with T = 1 and else blocks, and so does one of another group read through a window
(R64, R78); an empty fixed-latency destination blocks (R79); a poisoned source traps with its origin (R81). -/
def Obligations.IssueChecks : Prop :=
  ∀ i, hasWord i = true → ∀ s v, s.dev.issuer = some v →
    let upTo (n : Nat) : Prop := ∀ k, 1 ≤ k → k ≤ n → passesCheck i v k
    let traps (t : Trap) : Prop := exec i s = .next (s.withDev (v.traps i t))
    (¬ passesCheck i v 1 → traps { cause := 0x03, lanes := v.act }) ∧
    (upTo 1 → ¬ passesCheck i v 2 → traps { cause := 0x04, lanes := v.act }) ∧
    (upTo 2 → ¬ passesCheck i v 3 → traps { cause := 0x02, lanes := v.act, info0 := opWord i }) ∧
    (upTo 3 → ¬ passesCheck i v 4 → traps { cause := 0x06, lanes := v.act }) ∧
    (upTo 4 → ∀ r rs, (accessOf i v).reads.filterMap (Opnd.emptyReg v.g) = r :: rs →
      (v.g.tbit = true → traps { cause := 0x05, lanes := v.act, info0 := emptyCode r }) ∧
      (v.g.tbit = false → exec i s = .next (s.withDev (v.blocks v.d (.regs (r :: rs)))))) ∧
    (upTo 4 → (accessOf i v).reads.filterMap (Opnd.emptyReg v.g) = [] → ∀ m r rs,
      (extraOf i v).win.filter (fun x => v.winEmpty x.1 x.2) = (m, r) :: rs →
      (v.g.tbit = true → traps { cause := 0x05, lanes := v.act, info0 := emptyCode r, info1 := BitVec.ofNat 32 m }) ∧
      (v.g.tbit = false → exec i s = .next (s.withDev (v.blocks v.d (.window ((m, r) :: rs)))))) ∧
    (upTo 5 → ∀ r rs, (accessOf i v).fixed.filterMap (Opnd.emptyReg v.g) = r :: rs →
      exec i s = .next (s.withDev (v.blocks v.d (.regs (r :: rs))))) ∧
    (upTo 6 → (∃ l < 32, readsPoison i v l = true) → ∃ o, traps { cause := 0x0D, lanes := Mask.ofFn (readsPoison i v), origin := o } ∧
      ∃ x ∈ (accessOf i v).reads, ∃ r, x.reg v.g = some r ∧ ∃ l < 32, v.act.getLsbD l = true ∧ v.g.poison r l = o + 1) ∧
    (upTo 6 → (∀ l < 32, readsPoison i v l = false) → ∀ o, (extraOf i v).poison = o + 1 →
      traps { cause := 0x0D, lanes := v.act, origin := o })

/-- A trap at level U whose table entry is valid (R358, R359, R363, Table 19-3): the record is written, the frontier is set aside, TCNT
rises by 1 up to its largest value, and the handler starts at PC 0 of its segment in all live lanes. Slices serve the read of the
table (R18; as what it counts there is log 88). -/
def Obligations.TrapEntry : Prop :=
  ∀ (s : State) v i (t : Trap), s.dev.issuer = some v → v.g.levelH = false →
    ¬ (t.cause = 0x0D ∧ (t.origin % 4 = 1 ∨ t.origin % 4 = 2) ∧ v.k.replayable = true) →
    let entry := v.part.cfg.trapTable + 16 * t.cause
    let byte (j : Nat) : Nat := (Memory.read v.d.hbm (entry + j)).toNat
    byte 12 % 2 = 1 →
    ∃ d : Dev, Served v.d d ∧ v.traps i t = d.putGroup v.b v.n { v.g with
      trap := { cause := BitVec.ofNat 32 (t.cause % 256 + 1024 * (t.origin % 4)), pc := BitVec.ofNat 32 v.g.head.pc, lanes := t.lanes,
                act := v.act, info0 := t.info0, info1 := t.info1, info2 := t.info2, word := opWord i },
      tcnt := if v.g.tcnt = 0xFFFFFFFF then v.g.tcnt else v.g.tcnt + 1,
      saved := v.g.frontier, faultPc := v.g.head.pc, faultMask := v.act,
      frontier := [{ pc := 0, mask := v.g.live, susp := .run, run := 0, last := v.d.cycle, clause := none }], levelH := true,
      hseg := byte 0 + 2 ^ 8 * byte 1 + 2 ^ 16 * byte 2 + 2 ^ 24 * byte 3 + 2 ^ 32 * byte 4 + 2 ^ 40 * byte 5 + 2 ^ 48 * byte 6 +
        2 ^ 56 * byte 7,
      hlen := byte 8 + 2 ^ 8 * byte 9 + 2 ^ 16 * byte 10 + 2 ^ 24 * byte 11,
      sel := false, why := .ready, woken := none, primSince := none, readyAt := none, slot := none, cmd := none }

/-- A fault at level H, or a trap whose table entry is not valid, ends the block KILLED with the fault's cause and KINFO (R358, R361); POISON
of origin 1 or 2 in a replayable block replays it, and its eighth replay is REPLAY_LIMIT (R46, R357). -/
def Obligations.TrapKills : Prop :=
  ∀ (s : State) v i (t : Trap), s.dev.issuer = some v →
    let linked : Prop := t.cause = 0x0D ∧ (t.origin % 4 = 1 ∨ t.origin % 4 = 2) ∧ v.k.replayable = true
    (v.g.levelH = true → EndsAs (v.traps i t) v.b ⟨1, t.cause, v.g.kinfo⟩) ∧
    (v.g.levelH = false → ¬ linked → (Memory.read v.d.hbm (v.part.cfg.trapTable + 16 * t.cause + 12)).getLsbD 0 = false →
      EndsAs (v.traps i t) v.b ⟨1, t.cause, v.g.kinfo⟩) ∧
    (v.g.levelH = false → linked → v.k.nrepl < 7 → Replays v.d (v.traps i t) v.b v.k (some t.origin)) ∧
    (v.g.levelH = false → linked → 7 ≤ v.k.nrepl → EndsAs (v.traps i t) v.b ⟨3, 0, 0⟩)

/-- RTH (R362, Table 19-4) reinstates the group's own frontier with every run count 0 and the record zero. With .fix every entry stands where
it stood; with .skip the faulting entry goes on after the named instruction, at BAR_UNREACHABLE the lanes at collective instructions, at
SUCC_SHAPE every entry; after a deferred trap none. .retry replays a replayable block, or acts as .kill: KILLED with the served cause
and KINFO. Each entry keeps the cycle since which it waits (R179).
That the record is zero afterwards is the model's reading (log 79), and so is what .kill does in a replayable block (log 90). -/
def Obligations.TrapReturn : Prop :=
  let returns (i : Instr) (f : Group → Entry → Entry) : Prop :=
    Answers i (fun v => v.d.putGroup v.b v.n { v.issued with
      frontier := v.g.saved.map (fun e => { f v.g e with run := 0 }), saved := [], levelH := false,
      trap := ⟨0, 0, 0, 0, 0, 0, 0, 0⟩, sel := false, why := .ready, readyAt := none, slot := none })
  let served (g : Group) : Nat := g.trap.cause.toNat % 256
  returns .rthFix (fun _ e => e) ∧
  returns .rthSkip (fun g e =>
    if g.trap.cause.getLsbD 8 = true ∨ g.faultMask = 0 then e
    else if served g = 0x09 then (if e.susp = .run ∧ e.clause ≠ none ∧ e.mask &&& g.trap.info0 ≠ 0 then e.passed else e)
    else if served g = 0x10 then e.passed
    else if e.pc = g.faultPc ∧ e.mask &&& g.faultMask ≠ 0 then e.passed else e) ∧
  (∀ s v, s.dev.issuer = some v → Ready .rthKill v →
    ∃ d, exec .rthKill s = .next (s.withDev d) ∧ EndsAs d v.b ⟨1, served v.g, v.g.kinfo⟩) ∧
  (∀ s v, s.dev.issuer = some v → Ready .rthRetry v → v.k.replayable = false →
    ∃ d, exec .rthRetry s = .next (s.withDev d) ∧ EndsAs d v.b ⟨1, served v.g, v.g.kinfo⟩) ∧
  (∀ s v, s.dev.issuer = some v → Ready .rthRetry v → v.k.replayable = true → v.k.nrepl < 7 →
    ∃ d, exec .rthRetry s = .next (s.withDev d) ∧ Replays v.d d v.b v.k none)

/-- SYSRD writes a selector's value to a handler register in every active lane; SYSWR writes KINFO and leaves every other listed selector
as it is (R363, Table 19-3). An unlisted selector is ILLEGAL_INSTR, in both. -/
def Obligations.HandlerRegisters : Prop :=
  let gives (sel : BitVec 8) (f : View → Word) : Prop :=
    ∀ d, Answers (.sysrd d sel) (fun v => v.completes v.d (v.issued.setWords (.h d.toNat) v.act (fun _ => f v)))
  gives 0x00 (·.g.trap.cause) ∧ gives 0x01 (·.g.trap.pc) ∧ gives 0x02 (·.g.trap.lanes) ∧ gives 0x03 (·.g.trap.act) ∧
  gives 0x04 (·.g.trap.info0) ∧ gives 0x05 (·.g.trap.info1) ∧ gives 0x06 (·.g.trap.info2) ∧ gives 0x07 (·.g.trap.word) ∧
  gives 0x08 (·.g.tcnt) ∧ gives 0x10 (fun v => BitVec.ofNat 32 v.k.part) ∧
  gives 0x11 (fun v => BitVec.ofNat 32 (((v.d.launches[v.k.launch]?).map (·.queue)).getD 0)) ∧
  gives 0x12 (fun v => BitVec.ofNat 32 v.k.nrepl) ∧ gives 0x13 (·.part.replc) ∧ gives 0x14 (·.part.eccc) ∧
  gives 0x20 (·.g.kinfo) ∧
  (∀ n, Answers (.syswr (.h n) 0x20) (fun v => v.completes v.d
    { v.issued with kinfo := v.g.word (.h n.toNat) (Mask.lowest v.act) })) ∧
  (∀ n, Answers (.syswr (.s n) 0x20) (fun v => v.completes v.d { v.issued with kinfo := v.g.uni n.toNat })) ∧
  (∀ a sel, sel ≠ 0x20 → Answers (.syswr a sel) (fun v => v.completes v.d v.issued)) ∧
  (∀ d sel s v, sel.toNat ∉ [0, 1, 2, 3, 4, 5, 6, 7, 8, 0x10, 0x11, 0x12, 0x13, 0x14, 0x20] → s.dev.issuer = some v →
    v.g.head.run < 24 → v.g.levelH = true →
    exec (.sysrd d sel) s = .next (s.withDev (v.traps (.sysrd d sel) { cause := 0x02, lanes := v.act, info0 := opWord (.sysrd d sel) }))) ∧
  (∀ a sel s v, sel.toNat ∉ [0, 1, 2, 3, 4, 5, 6, 7, 8, 0x10, 0x11, 0x12, 0x13, 0x14, 0x20] → s.dev.issuer = some v →
    v.g.head.run < 24 → v.g.levelH = true →
    exec (.syswr a sel) s = .next (s.withDev (v.traps (.syswr a sel) { cause := 0x02, lanes := v.act, info0 := opWord (.syswr a sel) })))

/-! ### MEM and the uniform loads and stores -/

/-- R223 for every MEM instruction, SLD and SST (R175) and the barrier instructions (R231). -/
def Obligations.MemoryFaults : Prop :=
  (∀ l sz d a o, Faults223 (.ld l sz d a o) (fun _ => True) (ldAccess l sz a o false) true) ∧
  (∀ l sz d a o, Faults223 (.st l sz d a o) (fun _ => True) (ldAccess l sz a o true) true) ∧
  (∀ l k d a o, Faults223 (.ldln l k d a o) (oneLine a o) (lineAccess l k a o) true) ∧
  (∀ l k d a o s v, s.dev.issuer = some v → Ready (.ldln l k d a o) v → ¬ oneLine a o v →
    let differ : Mask := Mask.ofFn (fun x => v.act.getLsbD x && decide (ea v.g a o 128 x ≠ ea v.g a o 128 (Mask.lowest v.act)))
    exec (.ldln l k d a o) s = .next (s.withDev (v.traps (.ldln l k d a o)
      { cause := 0x07, lanes := differ, info0 := BitVec.ofNat 32 (ea v.g a o 128 (Mask.lowest differ)),
        info1 := match l with
          | .core => 1
          | .clu => 2
          | .chip => 3 }))) ∧
  (∀ l f d a o, Faults223 (.atm l f d a o) (fun _ => True) (atAccess l a o) true) ∧
  (∀ l d a o, Faults223 (.cas l d a o) (fun _ => True) (atAccess l a o) true) ∧
  (∀ l d a i, Faults223 (.sld l d a i) (fun _ => True) (uniAccess l a i false) false) ∧
  (∀ l d a i, Faults223 (.sst l d a i) (fun _ => True) (uniAccess l a i true) false) ∧
  (∀ l d a o, Faults223 (.pbarInit l d a o) (fun _ => True) (barAccess l a o) true) ∧
  (∀ l a o, Faults223 (.pbarArr l a o) (fun _ => True) (barAccess l a o) true) ∧
  (∀ l ph a o, Faults223 (.pbarWait l ph a o) (fun _ => True) (barAccess l a o) true)

/-- LD, LDLN and SLD (R175, R224, R226): the load is issued; later each register lands on its own, once the load has read and no
earlier result for that register is on its way (R79, R208). A pending store of another group whose value it reads is noted, for the
group's later releases (R212).
What a core sees before a store performs is log 12. -/
def Obligations.ScratchLoads : Prop :=
  (∀ l sz d a o, StartsLoad (.ld l sz d a o) (ldAccess l sz a o false).ok false sz
    (fun v => v.act.lanes.map (fun x => (x, v.k.space v.b v.n l x, ea v.g a o (sizeBytes sz) x)))
    (fun v => (List.range (match sz with
      | .dw => 2
      | .qw => 4
      | _ => 1)).map (fun i => v.g.vreg (d.toNat + i)))) ∧
  (∀ l k d a o, StartsLoad (.ldln l k d a o) (fun v => oneLine a o v ∧ (lineAccess l k a o).ok v) true .w
    (fun v => v.act.lanes.map (fun x => (x, v.k.space v.b v.n (lvl3 l) x, ea v.g a o 128 (Mask.lowest v.act) + 4 * x)))
    (fun v => (List.range (KCount.n k)).map (fun i => v.g.vreg (d.toNat + i)))) ∧
  (∀ l d a i, StartsLoad (.sld l d a i) (uniAccess l a i false).ok false .w
    (fun v => [(0, v.k.space v.b v.n (lvl3 l) 0, (uniAccess l a i false).addr v 0)]) (fun _ => [.u d.toNat])) ∧
  (∀ (s : State) op reg x g r, s.plat.phase = .running → s.dev.loads.find? (fun y => decide (y.op = op)) = some x →
    s.dev.group x.blk x.grp = some g → x.regs[reg]? = some r → reg ∈ x.left → s.dev.loadReady x = true →
    (∀ f, g.flights.find? (fun f => decide (f.reg = r)) = some f → f.op = op) → g.takes op r = true → x.vals = none →
    ∃ d : Dev, exec (.scratchLoadComplete op reg) s = .next (s.withDev d.settle) ∧
      d.blocks = (s.dev.putGroup x.blk x.grp (g.land op r (x.lanes.map (fun y => (y.1, takenWord s.dev x y.2.1 y.2.2 reg))))).blocks ∧
      unseen d.stores = unseen s.dev.stores ∧ d.atoms = s.dev.atoms ∧ d.cmds = s.dev.cmds ∧
      (∀ y ∈ d.stores, ¬ (y.blk = x.blk ∧ y.grp = x.grp) → ∀ w ∈ x.words, w.1.cached = false →
        y.op ∈ (s.dev.overlaid x.core x.blk x.grp x.op w.1 (4 * w.2)).map (·.op) → (x.blk, x.grp) ∈ y.seen) ∧
      (x.left = [reg] → d.loads = s.dev.loads.filter (fun y => decide (y.op ≠ op)))) ∧
  (∀ (s : State) core id m, s.plat.phase = .running → (s.dev.core core).miss.find? (fun m => decide (m.id = id)) = some m →
    (∀ a ∈ s.dev.atoms, ¬ (a.space = m.space ∧ a.addr / 64 = m.sec)) → (∀ x ∈ s.dev.loads, x.need.Nodup) →
    ∃ d : Dev, exec (.l1SectorFill core id) s = .next (s.withDev d) ∧
      (d.core core).miss = (s.dev.core core).miss.filter (fun x => decide (x.id ≠ id)) ∧ unseen d.stores = unseen s.dev.stores ∧ d.blocks = s.dev.blocks ∧
      d.loads = s.dev.loads.map (fun x => if decide (x.core = core) && x.need.contains (m.space, m.sec) then
        { x with
          need := x.need.erase (m.space, m.sec),
          got := x.got ++ (List.range 16).map (fun i =>
            (m.space, 16 * m.sec + i, s.dev.seenWord core x.blk x.grp x.op m.space (64 * m.sec + 4 * i))) } else x))

/-- ST and SST (R175, R224, R225), and the store's performing at its home (R206, R207): its bytes change and no other byte of the
space, and no byte of another. -/
def Obligations.ScratchStores : Prop :=
  (∀ l sz d a o, StartsStores (.st l sz d a o) (ldAccess l sz a o true).ok (fun v => v.storing.map (fun x =>
    (x, v.k.space v.b v.n l x, bytesStored v.g sz d.toNat x (ea v.g a o (sizeBytes sz) x))))) ∧
  (∀ l d a i, StartsStores (.sst l d a i) (uniAccess l a i true).ok (fun v =>
    [(0, v.k.space v.b v.n (lvl3 l) 0, fourBytes ((uniAccess l a i true).addr v 0) (v.g.usrc d))])) ∧
  (∀ (s : State) op x, s.plat.phase = .running → s.dev.stores.find? (fun y => decide (y.op = op)) = some x → s.dev.storeReady x = true →
    (∀ y ∈ x.bytes, s.dev.backs x.space y.1) → (x.bytes.map (·.1)).Nodup →
    ∃ d : Dev, exec (.scratchStorePerformed op) s = .next (s.withDev d.settle) ∧ d.stores = s.dev.stores.filter (fun y => decide (y.op ≠ x.op)) ∧
      (∀ y ∈ x.bytes, d.byteAt x.space y.1 = y.2) ∧
      (∀ a, s.dev.backs x.space a → (∀ y ∈ x.bytes, y.1 ≠ a) → d.byteAt x.space a = s.dev.byteAt x.space a) ∧
      (∀ sp a, sp ≠ x.space → isWin sp a = false → s.dev.backs sp a → d.byteAt sp a = s.dev.byteAt sp a))

/-- AT, CAS and PBAR.ARR (R227, R228, R231) and the atomic at the word's home: the word becomes the result and the lane's old value joins the
answer. PBAR.ARR is a release first. -/
def Obligations.ScratchAtomics : Prop :=
  (∀ l f d a o, StartsAtomics (.atm l f d a o) (atAccess l a o).ok d (lvl3 l) (fun v => ea v.g a o 4)
    (fun v x => .at f (v.g.src (.v d) x))) ∧
  (∀ l d a o, StartsAtomics (.cas l d a o) (atAccess l a o).ok d (lvl3 l) (fun v => ea v.g a o 4)
    (fun v x => .cas (v.g.src (.v d) x) (v.g.word (v.g.vreg (d.toNat + 1)) x))) ∧
  (∀ l a o s v, s.dev.issuer = some v → Ready (.pbarArr l a o) v → barOk l a o v →
    (v.d.released v.b v.n true = false → exec (.pbarArr l a o) s = .next (s.withDev (v.blocks v.d (.release true)))) ∧
    (v.d.released v.b v.n true = true → ∃ d : Dev, d = { v.d with
        nextId := v.d.nextId + 2, cores := d.cores,
        atoms := v.d.atoms ++ atomicsOf v (v.d.nextId + 1) v.d.nextId none
          [(0, v.k.space v.b v.n (lvl2 l) 0, ea v.g (.s a) o 4 0, .pbarArr)] } ∧
      exec (.pbarArr l a o) s = .next (s.withDev (v.completes d v.issued)))) ∧
  (∀ (s : State) op x, s.plat.phase = .running → s.dev.atoms.find? (fun y => decide (y.op = op)) = some x → s.dev.atomReady x = true →
    exec (.scratchAtomicPerformed op) s = .next (s.withDev (Dev.settle (Dev.joinAnswer
      (({ s.dev with atoms := s.dev.atoms.filter (fun y => decide (y.op ≠ op)) } : Dev).homeBytes x.space
        (fourBytes x.addr (atomicResult x.what (s.dev.homeWord x.space x.addr).1)))
      x.instr x.lane (s.dev.homeWord x.space x.addr)))))

/-- FENCE (R212, R213, R229): a release waits for what R212 lists, of other groups' stores for those alone that its group has read; an acquire
waits for the values of its group's earlier loads and atomics, and drops copies. PBAR.INIT stores a fresh barrier word, and PBAR.WAIT
completes as an acquire once the phase bit is the one named or has been found so while it waited, and else blocks (R230, R231).
That an acquire waits for earlier values is the model's reading of R214 (log 83). -/
def Obligations.FencesAndPhases : Prop :=
  (∀ (d : Dev) b n, d.returned b n = true ↔ (∀ x ∈ d.loads, ¬ (x.blk = b ∧ x.grp = n)) ∧ (∀ x ∈ d.atoms, ¬ (x.blk = b ∧ x.grp = n)) ∧
    ∀ x ∈ d.cmds, x.blk = b → x.grp = n → match x.kind with
      | .fatom _ _ _ | .answer _ => False
      | _ => True) ∧
  (∀ (d : Dev) b n wide, d.released b n wide = true ↔ d.returned b n = true ∧ (∀ x ∈ d.stores, ¬ (x.blk = b ∧ x.grp = n)) ∧
    (wide = true → ∀ x ∈ d.stores, (b, n) ∉ x.seen)) ∧
  (∀ sc k s v, s.dev.issuer = some v → Ready (.fence sc k) v →
    let ready := if k = .acq then v.d.returned v.b v.n else v.d.released v.b v.n (decide (sc ≠ .grp))
    (ready = false → exec (.fence sc k) s = .next (s.withDev (v.blocks v.d (.fence sc k)))) ∧
    (ready = true → exec (.fence sc k) s = .next (s.withDev
      (v.completes (if k = .rel then v.d else acquires v sc) v.issued)))) ∧
  (∀ l d a o s v, s.dev.issuer = some v → Ready (.pbarInit l d a o) v → barOk l a o v →
    let n := if (v.g.uni d.toNat).extractLsb' 0 15 = 0#15 then 1#15 else (v.g.uni d.toNat).extractLsb' 0 15
    ∃ d' : Dev, d' = { v.d with
        nextId := v.d.nextId + 1, cores := d'.cores,
        stores := v.d.stores ++ [⟨v.d.nextId, v.d.nextId, v.core, v.b, v.n, v.k.space v.b v.n (lvl2 l) 0,
          fourBytes (ea v.g (.s a) o 4 0) (0#1 ++ n ++ 0#1 ++ n), []⟩] } ∧
      exec (.pbarInit l d a o) s = .next (s.withDev (v.completes d'.settle v.issued))) ∧
  (∀ l ph a o s v, s.dev.issuer = some v → Ready (.pbarWait l ph a o) v → barOk l a o v →
    let sp := v.k.space v.b v.n (lvl2 l) 0
    let addr := ea v.g (.s a) o 4 0
    let found : Prop := v.g.woken = some v.g.head.pc ∨ ((v.d.homeWord sp addr).1.msb = ph ∧
      (∀ x ∈ v.d.stores, x.blk = v.b → x.grp = v.n → x.touches sp (addr / 4) = false) ∧
      ∀ x ∈ v.d.atoms, x.blk = v.b → x.grp = v.n → x.touches sp (addr / 4) = false)
    (found → v.d.returned v.b v.n = true → exec (.pbarWait l ph a o) s = .next (s.withDev (v.completes (acquires v (match l with
      | .core => .core
      | .clu => .clu)) { v.issued with woken := none }))) ∧
    (found → v.d.returned v.b v.n = false → exec (.pbarWait l ph a o) s = .next (s.withDev (v.wokenWaits (.fence .grp .acq)))) ∧
    (¬ found → exec (.pbarWait l ph a o) s = .next (s.withDev (v.blocks v.d (.pbar l addr ph))))) ∧
  (∀ (d : Dev) b n k g l addr ph, d.blocks[b]? = some k → k.life = .running → k.groups[n]? = some g →
    g.why = .cond (.pbar l addr ph) → g.dl = [] → (d.homeWord (k.space b n (lvl2 l) 0) addr).1.msb = ph → isWin (k.space b n (lvl2 l) 0) addr = false →
    (∀ x ∈ d.stores, ¬ (x.blk = b ∧ x.grp = n)) → (∀ x ∈ d.atoms, ¬ (x.blk = b ∧ x.grp = n)) →
    ∃ g', (d.passTime 1).group b n = some g' ∧ g'.why = .ready ∧ g'.woken = some g.head.pc)

/-! ### ENG: copy channels, far atomics, permits -/

/-- COPY and COPY2 (R232, R233, R234, R235, R236): the words of the block, the further checks, and acceptance. -/
def Obligations.CopyCommands : Prop :=
  let one (a : BitVec 7) (v : View) : List Bool :=
    let w := desc v a
    [true, decide ((w 1).extractLsb' 23 9 = 0 ∧ (w 1).extractLsb' 20 2 ≠ 3#2), true,
     decide ((w 3).extractLsb' 24 8 = 0 ∧ (w 3).extractLsb' 0 24 ≠ 0 ∧ (w 3).extractLsb' 0 2 = 0)]
  let two (a : BitVec 7) (v : View) : List Bool :=
    let w := desc v a
    let kind (i : Nat) : BitVec 4 := (w i).extractLsb' 20 4
    let len := ((w 4).extractLsb' 0 24).toNat
    let rows := ((w 5).extractLsb' 0 16).toNat
    let endOk (i : Nat) : Bool := decide ((w i).extractLsb' 24 8 = 0 ∧ (kind i).toNat < 5 ∧
      (2 ≤ (kind i).toNat → (w i).extractLsb' 0 20 = 0))
    let pitch (i : Nat) : Bool := decide ((w i).toNat % 4 = 0 ∧ (1 < rows → len ≤ (w i).toNat))
    [true, endOk 1, true, endOk 3 && decide (kind 3 ≠ 1), decide ((w 4).extractLsb' 24 8 = 0 ∧ len ≠ 0 ∧ len % 4 = 0),
     decide ((w 5).extractLsb' 16 16 = 0 ∧ rows ≠ 0 ∧ len * rows < 2 ^ 31), pitch 6, pitch 7]
  (∀ c a, BadWords (.copy c a) (fun _ => True) (one a) ∧ CopyIssues (.copy c a) c (one a) (fun v => copyShape v a)) ∧
  (∀ c a, BadWords (.copy2 c a) (fun _ => True) (two a) ∧ CopyIssues (.copy2 c a) c (two a) (fun v => copy2Shape v a))

/-- Commands start and deliver, and WPTR, CWAIT and CRST (R236, R237, R238, R239, R240): the pointer is the lengths of completed commands plus the
longest delivered prefix of the oldest; WPTR brings it, poisoned on an error; CWAIT waits for it; a piece between scratch levels
moves word by word; a piece that must wait for a page keeps what it has delivered, and its command gives its permits back (R377).
The moment of WPTR is log 34; that the words of a source are read at delivery is log 25. -/
def Obligations.CopyProgress : Prop :=
  (∀ ch : Channel, ch.cmds = [] → ch.pointer = ch.base) ∧
  (∀ (ch : Channel) x rest, ch.cmds = x :: rest → ∃ n ≤ x.pieces.length, (∀ p ∈ x.pieces.take n, p.done = true) ∧
    (∀ p, x.pieces[n]? = some p → p.done = false) ∧
    ch.pointer = ch.base + ((x.pieces.take n).map (·.len)).sum + 4 * ((x.pieces[n]?).map (·.got)).getD 0) ∧
  (∀ c d s v, s.dev.issuer = some v → Ready (.wptr c d) v →
    let ch := nth v.k.chans c.toNat Channel.init
    let reg := v.g.vreg d.toNat
    let g := { v.issued with flights := v.g.flights ++ [⟨reg, v.d.nextId⟩] }
    ∃ (d' : Dev) (w : Word), freshBelow d' v.core ch ch.pointer ∧ (ch.err = none → w = BitVec.ofNat 32 ch.pointer) ∧
      d' = { v.d.putGroup v.b v.n g with
        nextId := v.d.nextId + 1, cores := d'.cores,
        cmds := v.d.cmds ++ [⟨v.d.nextId, v.b, v.n, v.act, [reg],
          .answer (v.act.lanes.map (fun l => (l, [(w, (ch.err.map (fun e => e.2.1 + 1)).getD 0)])))⟩] } ∧
      exec (.wptr c d) s = .next (s.withDev (v.completes d'.settle ((d'.settle.group v.b v.n).getD g)))) ∧
  (∀ c a s v, s.dev.issuer = some v → Ready (.cwait c a) v →
    let ch := nth v.k.chans c.toNat Channel.init
    let thr := (v.g.uni a.toNat).toNat
    (∀ e, ch.err = some e → exec (.cwait c a) s = .next (s.withDev (v.traps (.cwait c a) (channelTrap v c e)))) ∧
    (ch.err = none → thr ≤ ch.pointer % 2 ^ 32 → ∃ d' : Dev, d' = { v.d with cores := d'.cores } ∧ freshBelow d' v.core ch ch.pointer ∧
      exec (.cwait c a) s = .next (s.withDev (v.completes d' v.issued))) ∧
    (ch.err = none → ch.pointer % 2 ^ 32 < thr →
      exec (.cwait c a) s = .next (s.withDev (v.blocks v.d (.cwait c.toNat thr))))) ∧
  (∀ c s v, s.dev.issuer = some v → Ready (.crst c) v →
    let ch := nth v.k.chans c.toNat Channel.init
    (ch.cmds = [] → exec (.crst c) s = .next (s.withDev (v.completes
      (v.d.modBlock v.b (fun k => { k with chans := setNth k.chans c.toNat ⟨[], 0, none, []⟩ })) v.issued))) ∧
    (ch.cmds ≠ [] → exec (.crst c) s = .next (s.withDev (v.traps (.crst c) { cause := 0x1A, lanes := v.act })))) ∧
  (∀ (s : State) b (c : BitVec 3) k x rest, s.plat.phase = .running → s.dev.blocks[b]? = some k →
    (nth k.chans c.toNat Channel.init).cmds = x :: rest → x.started = false → x.granted = true → k.pred = none →
    exec (.copyCommandStart b c) s = .next (s.withDev (s.dev.modBlock b (fun k => { k with
      chans := setNth k.chans c.toNat { nth k.chans c.toNat Channel.init with cmds := { x with started := true } :: rest } })))) ∧
  (∀ (s : State) b (c : BitVec 3) k x rest i p sp a sp' a', s.plat.phase = .running → s.dev.blocks[b]? = some k →
    (nth k.chans c.toNat Channel.init).cmds = x :: rest → x.started = true → x.granted = true → x.pieces[i]? = some p → p.done = false → p.got = 0 →
    x.src = .scratch sp a → x.dst = .scratch sp' a' → p.len % 4 = 0 → s.dev.parks = [] →
    (∃ j y, j ≠ i ∧ x.pieces[j]? = some y ∧ y.done = false) →
    let words : Dev := (List.range (p.len / 4)).foldl (fun d n =>
      let w := d.homeWord sp (a + (p.srcOff + 4 * n))
      d.homePut sp' (a' + (p.dstOff + 4 * n)) w.1 w.2) s.dev
    ∃ dests, exec (.copyPieceDelivered b c i) s = .next (s.withDev (words.modBlock b (fun k => { k with
      chans := setNth k.chans c.toNat { nth k.chans c.toNat Channel.init with
        cmds := { x with pieces := setNth x.pieces i { p with done := true, got := p.len / 4 } } :: rest, dests := dests } })))) ∧
  (∀ (s : State) b (c : BitVec 3) k x rest i p r n e d, s.plat.phase = .running → s.dev.blocks[b]? = some k →
    (nth k.chans c.toNat Channel.init).cmds = x :: rest → x.started = true → x.granted = true → s.dev.copyParked x = false →
    x.pieces[i]? = some p → p.done = false →
    r = k.req (k.coreOf x.grp / 4) 0 x.id s.dev → copyWords r x p (p.len / 4 + 1) p.got s.dev = ((n, some e), d) → e ≠ .later →
    ∃ d' k', exec (.copyPieceDelivered b c i) s = .next (s.withDev d') ∧ d'.blocks[b]? = some k' ∧
      (nth k'.chans c.toNat Channel.init).cmds = [] ∧ (nth k'.chans c.toNat Channel.init).err = some (match e with
        | .perm va => (0x0C, 0, va)
        | .poisonWrite o va => (0x0D, o, va)
        | _ => (0x0C, 0, 0))) ∧
  (∀ (s : State) b (c : BitVec 3) k x rest i p r n d, s.plat.phase = .running → s.dev.blocks[b]? = some k →
    (nth k.chans c.toNat Channel.init).cmds = x :: rest → x.started = true → x.granted = true → s.dev.copyParked x = false →
    x.pieces[i]? = some p → p.done = false → c.toNat < k.chans.length → (∃ k1, d.blocks[b]? = some k1 ∧ k1.chans = k.chans) →
    r = k.req (k.coreOf x.grp / 4) 0 x.id s.dev → copyWords r x p (p.len / 4 + 1) p.got s.dev = ((n, some .later), d) →
    ∃ d' k' y, exec (.copyPieceDelivered b c i) s = .next (s.withDev d') ∧ d'.blocks[b]? = some k' ∧
      (nth k'.chans c.toNat Channel.init).cmds = y :: rest ∧
      bareCmd y = bareCmd { x with pieces := setNth x.pieces i { p with got := n } } ∧
      (d.copyParked x = true → y.granted = false))

/-- FATOM (R241): its checks at issue, its command, and one lane's performing at the home of its word. That it takes its operands as read at
issue is log 25. -/
def Obligations.FarAtomics : Prop :=
  (∀ f d a b s v, s.dev.issuer = some v → Ready (.fatom f d a b) v →
    let addr (l : Nat) : BitVec 64 := v.g.word (v.g.vreg (a.toNat + 1)) l ++ v.g.word (v.g.vreg a.toNat) l
    let odd : Mask := Mask.ofFn (fun l => v.act.getLsbD l && decide ((addr l).toNat % 4 ≠ 0))
    let far : Mask := Mask.ofFn (fun l => v.act.getLsbD l && decide ((addr l).extractLsb' 52 12 ≠ 0#12))
    let trap (cause : Nat) (m : Mask) : Trap := { cause := cause, lanes := m, info0 := (addr (Mask.lowest m)).extractLsb' 0 32, info1 := (addr (Mask.lowest m)).extractLsb' 32 32 }
    let reg := v.g.vreg d.toNat
    let g := { v.issued with flights := v.g.flights ++ [⟨reg, v.d.nextId⟩] }
    let idle := (v.act.lanes.filter (fun l => v.g.helper.getLsbD l)).map (fun l => (l, [((0 : Word), 0)]))
    let kind : CmdKind := if v.storing = [] then .answer idle else
      .fatom f (v.storing.map (fun l => (l, (addr l).toNat, v.g.src (.v b) l,
        v.g.word (v.g.vreg (b.toNat + (if f = .cas then 1 else 0))) l))) idle
    ∀ t, firstTrap [(odd ≠ 0, trap 0x0B odd), (far ≠ 0, trap 0x0C far), (v.k.lrec.repl = true, trap 0x19 v.act)] t →
      (∀ x, t = some x → exec (.fatom f d a b) s = .next (s.withDev (v.traps (.fatom f d a b) x))) ∧
      (t = none →
        let d1 : Dev := { v.d.putGroup v.b v.n g with
          nextId := v.d.nextId + 1, cmds := v.d.cmds ++ [⟨v.d.nextId, v.b, v.n, v.act, [reg], kind⟩] }
        let d2 := if v.storing = [] then d1.settle else d1
        exec (.fatom f d a b) s = .next (s.withDev (v.completes d2 ((d2.group v.b v.n).getD g))))) ∧
  (∀ (s : State) op lane b n act reg f lanes got addr x y k r p old d1 d2 d3, s.plat.phase = .running →
    s.dev.cmds.find? (fun c => decide (c.op = op)) = some ⟨op, b, n, act, [reg], .fatom f lanes got⟩ →
    lanes.find? (fun z => decide (z.1 = lane)) = some (lane, addr, x, y) → s.dev.blocks[b]? = some k → k.pred = none →
    (∀ z ∈ lanes, z.1 < lane → z.2.1 ≠ addr) →
    (∀ e ∈ s.dev.cmds, e.blk = b → e.grp = n → e.op < op → ∀ h ls gt, e.kind = .fatom h ls gt → ∀ z ∈ ls, z.2.1 ≠ addr) →
    r = k.req (k.coreOf n / 4) 4 (64 * op + lane) s.dev → s.dev.translate r .write addr = (.ok p, d1) → (∀ w, p ≠ .window w) →
    d1.physRead p r.kind r.part = ((old, 0), d2) →
    d2.physWrite p (bytesLE (farResult f old x y).toNat 4) r.kind r.part = (none, d3) →
    let left := lanes.filter (fun z => decide (z.1 ≠ lane))
    exec (.fatomPerformed op lane) s = .next (s.withDev (Dev.settle { d3 with
      cmds := d3.cmds.map (fun e => if e.op = op then
        { e with kind := if left = [] then .answer (got ++ [(lane, [(old, 0)])]) else .fatom f left (got ++ [(lane, [(old, 0)])]) } else e) })))

/-- Permits (R260, R343, R396). PERMIT above 64 is ILLEGAL_INSTR; it sets the block's reserve, at most the partition's pool; a rise waits
for its grant in the die's queue, oldest first, whole, and only while the supply is not over its ceiling; a fall completes at once. -/
def Obligations.Permits : Prop :=
  (∀ a s v, s.dev.issuer = some v → Ready (.permit a) v →
    let x := (v.g.uni a.toNat).toNat
    let die := v.k.home / 32
    let n := min x (if die = 0 then v.part.cfg.permits.1 else v.part.cfg.permits.2)
    (64 < x → exec (.permit a) s = .next (s.withDev (v.traps (.permit a)
      { cause := 0x02, lanes := v.act, info0 := opWord (.permit a) }))) ∧
    (x ≤ 64 → v.k.permit.n < n → ∃ (d : Dev) (k : Block),
      exec (.permit a) s = .next (s.withDev (v.waitsFor d (.permit a) v.d.nextId [] [] [])) ∧
      (d.gov die).queue = (v.d.gov die).queue ++ [{ who := .reserve v.b (some v.n), part := v.k.part, n := n - v.k.permit.n }] ∧
      d.blocks[v.b]? = some k ∧ k.permit = { v.k.permit with n := n }) ∧
    (x ≤ 64 → n ≤ v.k.permit.n → ∃ (d : Dev) (k : Block), exec (.permit a) s = .next (s.withDev (v.completes d v.issued)) ∧
      let extra := v.k.permit.granted - v.k.permit.excess - n
      let give := min extra (v.k.permit.granted - v.k.permit.held)
      d.blocks[v.b]? = some k ∧ k.permit = ⟨n, v.k.permit.granted - give, v.k.permit.held, v.k.permit.excess + (extra - give)⟩)) ∧
  (∀ (s : State) die r rest, s.plat.phase = .running → (s.dev.gov die).queue = r :: rest →
    let pool := if die = 0 then (s.dev.part r.part).cfg.permits.1 else (s.dev.part r.part).cfg.permits.2
    let used := if die = 0 then (s.dev.part r.part).permits.1 else (s.dev.part r.part).permits.2
    ((s.dev.gov die).hot = true ∨ pool < used + r.n → exec (.permitGrant die) s = .next s) ∧
    ((s.dev.gov die).hot = false → used + r.n ≤ pool → ∀ b c cmd k, r.who = .copy b c cmd → s.dev.blocks[b]? = some k →
      ∃ (d : Dev) (k' : Block), exec (.permitGrant die) s = .next (s.withDev d) ∧ (d.gov die).queue = rest ∧
        (if die = 0 then (d.part r.part).permits.1 else (d.part r.part).permits.2) = used + r.n ∧ d.blocks[b]? = some k' ∧
        (nth k'.chans c Channel.init).cmds = (nth k.chans c Channel.init).cmds.map (fun x => if x.id = cmd then { x with granted := true } else x))) ∧
  (∀ (s : State) die hot, s.plat.phase = .running → die < 2 → ∃ d : Dev, exec (.supplyCurrentOver die hot) s = .next (s.withDev d) ∧
    (d.gov die).hot = hot ∧ (d.gov die).queue = (s.dev.gov die).queue ∧ d = { s.dev with govs := d.govs })

/-! ### Commands of the layer units and the tray units -/

/-- The issue of the LT and TRAY instructions (R280, R281, R283, R285, R296).
That info word 0 holds the instruction's word where a record register is out of range is log 42. -/
def Obligations.UnitCommands : Prop :=
  (∀ d a, HandedOver (.ltNew d a) (fun v => newWords v a) true (fun _ => 0) (fun _ => [.u d.toNat]) (fun _ => []) (fun v => blockOf v a 16)) ∧
  (∀ d a, HandedOver (.ltFork d a) (fun _ => []) true (fun _ => 0) (fun _ => [.u d.toNat]) (fun _ => []) (fun v => [v.g.uni a.toNat])) ∧
  (∀ x a b, HandedOver (.ltAtt x a b) (fun v => attachWords v b) true (fun _ => 0) (fun _ => []) (fun _ => [])
    (fun v => v.g.uni a.toNat :: blockOf v b 8)) ∧
  (∀ a b, HandedOver (.ltDet a b) (fun _ => []) true (fun _ => 0) (fun _ => []) (fun _ => []) (fun v => [v.g.uni a.toNat, v.g.uni b.toNat])) ∧
  (∀ a b, HandedOver (.ltFold a b) (fun v => [decide ((desc v b 0).extractLsb' 0 4 = 0), highOk (desc v b 1), true, highOk (desc v b 3)])
    true (fun _ => 0) (fun _ => []) (fun _ => []) (fun v => v.g.uni a.toNat :: blockOf v b 4)) ∧
  (∀ q d a, HandedOver (.ltQry q d a) (fun _ => []) false (fun _ => 0) (fun _ => [.u d.toNat]) (fun _ => []) (fun v => [v.g.uni a.toNat])) ∧
  (∀ nb d a b, HandedOver (.trayPush nb d a b) (fun v => [recordFits v b (v.g.uni a.toNat)]) true (fun v => v.g.uni a.toNat)
    (fun v => [v.g.vreg d.toNat]) (fun v => records v b (recordWords (v.g.uni a.toNat))) (fun v => [v.g.uni a.toNat])) ∧
  (∀ nb d a, HandedOver (.trayPopb nb d a) (fun v => [recordFits v d (v.g.uni a.toNat)]) true (fun v => v.g.uni a.toNat)
    (fun v => if (v.g.uni a.toNat).extractLsb' 0 2 = 3 then [] else
      (List.range (recordWords (v.g.uni a.toNat))).map (fun i => v.g.vreg (d.toNat + i))) (fun _ => []) (fun v => [v.g.uni a.toNat])) ∧
  (∀ nb d a b, HandedOver (.trayPopbSteal nb d a b) (fun v => [recordFits v d (v.g.uni a.toNat)]) true (fun v => v.g.uni a.toNat)
    (fun v => if (v.g.uni a.toNat).extractLsb' 0 2 = 3 then [] else
      (List.range (recordWords (v.g.uni a.toNat))).map (fun i => v.g.vreg (d.toNat + i))) (fun _ => [])
    (fun v => [v.g.uni a.toNat, v.g.uni b.toNat])) ∧
  (∀ d a b, HandedOver (.trayInsd d a b) (fun _ => []) true (fun v => v.g.uni a.toNat)
    (fun v => [v.g.vreg d.toNat]) (fun v => records v b 1) (fun v => [v.g.uni a.toNat])) ∧
  (∀ q d a, HandedOver (.trayQry q d a) (fun _ => []) false (fun _ => 0) (fun v => [v.g.vreg d.toNat]) (fun _ => [])
    (fun v => [v.g.uni a.toNat])) ∧
  (∀ a, HandedOver (.trayClose a) (fun _ => []) true (fun v => v.g.uni a.toNat) (fun _ => []) (fun _ => []) (fun v => [v.g.uni a.toNat]))

/-- What the entry's unit does with each LT instruction (R281, R282, R283, R284, R285, R287), and how a fold ends (R285, R286). LT.ATT and
LT.DET are releases and LT.QRY is an acquire (R289). A die's fixer serves folds one at a time in the order they started.
Which die homes an entry is log 84, that an acquire waits for earlier values log 83. -/
def Obligations.LayerEffects : Prop :=
  (∀ s b n k g c, MeetsUnit s b n k g c →
    let d := s.dev
    let p := k.part
    let uni (i : Nat) : Word := c.unis.getD i 0
    let h := (uni 0).toNat
    let e := entryAt d p h
    let size := (d.part p).cfg.layerT
    let live : Prop := h < size ∧ e.live = true
    let becomes (d' : Dev) : Prop := exec (.ltOpPerformed b n) s = .next (s.withDev d')
    let refuses (cause : Nat) (info : Nat) : Prop := becomes (d.refused b n g c { cause := cause, lanes := c.act, info1 := BitVec.ofNat 32 info })
    let returns (d : Dev) (r : BitVec 7) (x : Word) : Dev := d.performed b n c.op id [.u r.toNat] [(0, [(x, 0)])]
    let creates (r : BitVec 7) (x : LEntry) : Prop :=
      (∀ f < size, (∀ m < f, (entryAt d p m).live = true) → (entryAt d p f).live = false →
        becomes (returns (setEntry d p f { x with live := true, gen := (entryAt d p f).gen + 1, fold := 0, badsp := false, satv := 0 }) r
          (BitVec.ofNat 32 f))) ∧
      ((∀ m < size, (entryAt d p m).live = true) → becomes (returns d r 0xFFFFFFFF))
    (∀ r a, c.instr = .ltNew r a → creates r
      { live := true, bfmt := ((uni 0).extractLsb' 0 2).toNat, vfmt := ((uni 0).extractLsb' 8 2).toNat, fold := 0, badsp := false, gen := 0, satv := 0,
        base := (uni 1).toNat + 2 ^ 32 * (uni 2).toNat, bscl := (uni 3).toNat + 2 ^ 32 * (uni 4).toNat, lines := (uni 5).toNat,
        klen := (uni 6).toNat, epitch := (uni 7).toNat, spitch := (uni 8).toNat, spare := (uni 9).toNat + 2 ^ 32 * (uni 10).toNat,
        spscl := (uni 11).toNat + 2 ^ 32 * (uni 12).toNat, slots := [] }) ∧
    (∀ r a, c.instr = .ltFork r a → (¬ live → refuses 0x18 0) ∧ (live → creates r { e with spare := 0, spscl := 0 })) ∧
    let released : Prop := d.released b n true = true
    let shaped : Prop := e.bfmt < 3 ∧ e.klen % 32 = 0 ∧ 32 ≤ e.klen ∧ 1 ≤ e.lines
    let overlaps : Prop := becomes (d.refused b n g c { cause := 0x02, lanes := c.act, info0 := opWord c.instr, info1 := 9 })
    (∀ x a q, c.instr = .ltAtt x a q →
      let layer : Slot :=
        { lowRank := decide ((uni 1).extractLsb' 0 8 = 1), rank := ((uni 1).extractLsb' 8 8).toNat, alpha := ((uni 1).extractLsb' 16 8).toInt,
          count := (uni 2).toNat, addr := (uni 3).toNat + 2 ^ 32 * (uni 4).toNat, aux := (uni 5).toNat + 2 ^ 32 * (uni 6).toNat }
      let full : Prop := live ∧ released ∧ 8 ≤ e.slots.length
      let ready : Prop := full ∧ x = true ∧ e.fold ≠ 1 ∧ ¬ (c.waits = true ∧ e.fold = 2)
      (¬ live → refuses 0x18 0) ∧
      (live → ¬ released → becomes d) ∧
      (live → released → e.slots.length < 8 →
        becomes ((setEntry d p h { e with slots := e.slots ++ [layer] }).performed b n c.op id [] [])) ∧
      (full → x = false → refuses 0x0F 0) ∧
      (full → x = true → e.fold = 1 → becomes (d.heldThere b n c)) ∧
      (full → x = true → e.fold = 2 → c.waits = true → refuses 0x0F 2) ∧
      (ready → e.spare = 0 → refuses 0x0F 0) ∧
      (ready → e.spare ≠ 0 → shaped → bufferMeets e e.spare e.spscl → overlaps) ∧
      (ready → e.spare ≠ 0 → shaped → ¬ bufferMeets e e.spare e.spscl →
        becomes (Dev.heldThere { setEntry d p h { e with fold := 1, spare := 0, spscl := 0 } with
          folds := d.folds ++ [{ part := p, h := h, snap := e, buf := e.spare, bscl := e.spscl, auto := true, clu := k.coreOf n / 4 }] } b n c))) ∧
    (∀ a q, c.instr = .ltDet a q →
      let x := uni 1
      let names : Prop := x = 0xFFFFFFFF ∨ x.toNat < e.slots.length
      (¬ live → refuses 0x18 0) ∧
      (live → ¬ names → refuses 0x18 1) ∧
      (live → names → e.fold = 1 ∨ ¬ released → becomes d) ∧
      (live → x = 0xFFFFFFFF → e.fold ≠ 1 → released → becomes ((setEntry d p h { LEntry.free with gen := e.gen }).performed b n c.op id [] [])) ∧
      (live → x ≠ 0xFFFFFFFF → names → e.fold ≠ 1 → released → becomes
        ((setEntry d p h { e with slots := e.slots.take x.toNat ++ e.slots.drop (x.toNat + 1) }).performed b n c.op id [] []))) ∧
    (∀ a q, c.instr = .ltFold a q →
      let buf := (uni 1).toNat + 2 ^ 32 * (uni 2).toNat
      let bscl := (uni 3).toNat + 2 ^ 32 * (uni 4).toNat
      (¬ live → refuses 0x18 0) ∧
      (live → shaped → bufferMeets e buf bscl → overlaps) ∧
      (live → shaped → ¬ bufferMeets e buf bscl → e.fold = 1 → becomes d) ∧
      (live → shaped → ¬ bufferMeets e buf bscl → e.fold ≠ 1 →
        becomes (Dev.performed { setEntry d p h { e with fold := 1 } with
          folds := d.folds ++ [{ part := p, h := h, snap := e, buf := buf, bscl := bscl, auto := false, clu := k.coreOf n / 4 }] } b n c.op id [] []))) ∧
    (∀ f r a, c.instr = .ltQry f r a → (¬ live → refuses 0x18 0) ∧
      (live → d.returned b n = false → becomes d) ∧
      (live → d.returned b n = true → becomes (returns { d with cores := (d.acquire (k.coreOf n) .dev).cores } r (match f with
        | .gen => e.gen
        | .cnt => BitVec.ofNat 32 e.slots.length
        | .fold => BitVec.ofNat 32 e.fold + (if e.badsp then 4 else 0)))))) ∧
  (∀ (s : State) (p : BitVec 3) h f, s.plat.phase = .running →
    let die (q i : Nat) : Nat := (s.dev.part q).layerDie i
    s.dev.folds.find? (fun x => decide (die x.part x.h = die p.toNat h)) = some f →
    (f.part = p.toNat ∧ f.h = h →
      let run := (runFold (unitReq p.toNat f.clu 8 h) f).run' s.dev
      let others (d : Dev) : Dev := { d with folds := d.folds.filter (fun x => !decide (x.part = p.toNat ∧ x.h = h)) }
      (∀ d, run = (.ok (), d) →
        let e := entryAt d p.toNat h
        exec (.foldSwap p h) s = .next (s.withDev (others (setEntry d p.toNat h { e with
          base := f.buf, bscl := f.bscl, bfmt := if e.vfmt = 0 then 0 else 2, epitch := if e.vfmt = 0 then e.klen else 2 * e.klen,
          spitch := e.klen / 32, slots := e.slots.drop f.snap.slots.length, gen := e.gen + 1, fold := 0 })))) ∧
      (∀ x d, run = (.error x, d) → x ≠ .later →
        exec (.foldFail p h) s = .next (s.withDev (others (setEntry d p.toNat h { entryAt d p.toNat h with fold := 2 }))))) ∧
    (¬ (f.part = p.toNat ∧ f.h = h) → exec (.foldSwap p h) s = .next s ∧ exec (.foldFail p h) s = .next s))

/-- The view of a handle (R274, R275, R276, R277): what a low-rank layer adds, the entries of a sparse layer, of which one out of order or
outside the tensor is ignored and sets BADSP at once, an element of the view, and where a byte of the range lies. -/
def Obligations.LayerViews : Prop :=
  (∀ r h e addr n (d d1 d2 : Dev) (acc : List SparseEntry) (po w p : Nat), Yields (sparseRead r h e addr n) d (acc, po) d1 →
    Yields (rdNum r (addr + 8 * n) 8) d1 (w, p) d2 →
    let line := w % 2 ^ 24
    let k := w / 2 ^ 24 % 2 ^ 24
    let delta := (BitVec.ofNat 16 (w / 2 ^ 48)).toInt
    let po' := if po = 0 then p else po
    let above : Prop := ∀ x, acc.head? = some x → x.1 < line ∨ (x.1 = line ∧ x.2.1 < k)
    let entry := entryAt d2 r.part h
    (line < e.lines ∧ k < e.klen ∧ above → Yields (sparseRead r h e addr (n + 1)) d ((line, k, delta) :: acc, po') d2) ∧
    (¬ (line < e.lines ∧ k < e.klen ∧ above) → Yields (sparseRead r h e addr (n + 1)) d (acc, po')
      (if entry.live then setEntry d2 r.part h { entry with satv := min 0xFFFFFFFF entry.satv, badsp := true } else d2))) ∧
  (∀ r e (s : Slot) (eb i k : Nat) (d d1 d2 d3 d4 : Dev) (us ws : List (Byte × Nat)) (eu ev : Byte × Nat),
    Yields (rdBytes r (s.addr + 32 * i) s.rank) d us d1 → Yields (rdBytes r (s.aux + 32 * k) s.rank) d1 ws d2 →
    Yields (rdByte r (s.addr + 32 * e.lines + i)) d2 eu d3 → Yields (rdByte r (s.aux + 32 * e.klen + k)) d3 ev d4 →
    let p : Int := ((List.range s.rank).map (fun t => (us.getD t (0, 0)).1.toInt * (ws.getD t (0, 0)).1.toInt)).sum
    let sh : Int := (eu.1.toNat : Int) + ev.1.toNat + s.alpha - eb - 127
    let x := nearest ((p : ℚ) * (2 : ℚ) ^ sh)
    ∃ poison, Yields (lowRank r e s eb i k) d (max (-2 ^ 24) (min (2 ^ 24) x), decide (x < -2 ^ 24 ∨ 2 ^ 24 < x), poison) d4) ∧
  (∀ r (v : ViewSrc) (i k : Nat) (d d1 : Dev) (ds : Nat → Dev) (q : Int) (p0 : Nat) (eb : Byte) (pe : Nat) (adds : List (Int × Bool)),
    adds.length = v.e.slots.length → v.sparse.length = v.e.slots.length →
    Yields (baseElem r v.e i k) d (q, p0) d1 → Yields (baseScale r v.e i (k / 32)) d1 (eb, pe) (ds 0) →
    (∀ (n : Nat) (s : Slot) (sp : List SparseEntry × Nat) (x : Int × Bool), v.e.slots[n]? = some s → v.sparse[n]? = some sp → adds[n]? = some x →
      if s.lowRank then ∃ po, Yields (lowRank r v.e s eb.toNat i k) (ds n) (x.1, x.2, po) (ds (n + 1))
      else ds (n + 1) = ds n ∧ x = (((sp.1.find? (fun t => decide (t.1 = i ∧ t.2.1 = k))).map (·.2.2)).getD 0, false)) →
    let x := q + (adds.map (·.1)).sum
    let lo : Int := if v.e.vfmt = 0 then -128 else -32768
    let hi : Int := if v.e.vfmt = 0 then 127 else 32767
    ∃ poison, Yields (viewElem r v i k) d (max lo (min hi x), (adds.any (·.2)) || decide (x < lo ∨ hi < x), poison) (ds v.e.slots.length)) ∧
  (∀ r (v : ViewSrc) i k d x sat poison d', i < v.e.lines → k < v.e.klen → Yields (viewElem r v i k) d (x, sat, poison) d' →
    let w := if v.e.vfmt = 0 then 1 else 2
    ∀ j < w, ∃ z, Yields (viewByteAt r v (i * (w * v.e.klen) + w * k + j)) d ((BitVec.ofInt (8 * w) x).extractLsb' (8 * j) 8, z, poison) d') ∧
  (∀ r (v : ViewSrc) d off, v.e.lines * ((if v.e.vfmt = 0 then 1 else 2) * v.e.klen) ≤ off →
    let w := if v.e.vfmt = 0 then 1 else 2
    let sv := (v.e.lines * (w * v.e.klen) + 255) / 256 * 256
    (off < sv → Yields (viewByteAt r v off) d (0, false, 0) d) ∧
    (∀ i b x poison d', i < v.e.lines → b < v.e.klen / 32 → off = sv + i * (v.e.klen / 32) + b → Yields (viewScale r v i b) d (x, poison) d' →
      Yields (viewByteAt r v off) d (x, false, poison) d') ∧
    (sv + v.e.lines * (v.e.klen / 32) ≤ off → ∃ x, Yields (viewByteAt r v off) d (x, false, 1) d))

/-! ### Trays and the merge-path unit -/

/-- What the home unit does with each TRAY instruction on a tray that is not bound (R292, R293, R297, R299, R300, R301, R302, R303).
Who goes first at a tray is log 46; the bytes of a set, and its answers once the program has stored into it, are open (log 42). -/
def Obligations.TrayEffects : Prop :=
  ∀ s b n k g c, MeetsUnit s b n k g c → isTray c.instr = true → c.waits = false → s.dev.released b n true = true →
    let d := s.dev
    let p := k.part
    let h := c.unis.getD 0 0
    let becomes (d' : Dev) : Prop := exec (.trayOpPerformed b n) s = .next (s.withDev d')
    let refuses (d : Dev) (cause : Nat) (h : Word) (code : Nat) : Prop :=
      becomes (d.refused b n g c { cause := cause, lanes := c.act, info0 := h, info1 := BitVec.ofNat 32 code })
    let lanes := lanesOf c.act
    let doers := lanesOf (c.act &&& ~~~g.helper)
    let record (l : Nat) : List Word := ((c.vals.find? (fun x => decide (x.1 = l))).map (·.2)).getD []
    let w := recordWords h
    let me : Waiter := ⟨b, n, d.cycle⟩
    let unwaits (t : Tray) : Tray := { t with waitPop := t.waitPop.filter (fun x => decide (x.blk ≠ b ∨ x.grp ≠ n)) }
    let fresh : FMap CoreSt := (d.acquire (k.coreOf n) .dev).cores
    let popRegs (r : BitVec 7) : List RegRef := (List.range w).map (fun i => g.vreg (r.toNat + i))
    let pops (r : BitVec 7) (d' : Dev) (rs : List Rec) : Prop :=
      becomes ((d'.performed b n c.op (takesP6 c.act (lanes.take rs.length) (g.vreg r.toNat)) (popRegs r) (popWords lanes w rs)).lands b n (popRegs r))
    let clu := k.coreOf n / 4
    let dismissed : Dev := d.modPart p (fun x => { x with trays := x.trays.map unwaits })
    let now : Dev := if popsRecords c.instr then dismissed else d
    let o := h.toNat / 128 * 128
    let byte (a : Nat) : Nat := (Memory.read (d.part p).chip (o + a)).toNat
    -- a handle that no tray stands behind
    (¬ handleSound d p h → refuses now 0x18 h 0) ∧
    (handleSound d p h → (d.part p).trays.find? (sameTray h) = none → byte 0 ≠ 1 → byte 0 ≠ 4 → refuses now 0x18 h 0) ∧
    (handleSound d p h → (d.part p).trays.find? (sameTray h) = none → byte 0 = 1 ∨ byte 0 = 4 → byte 1 ≠ (h.extractLsb' 0 2).toNat →
      refuses now 0x18 h 1) ∧
    (∀ t, handleSound d p h → (d.part p).trays.find? (sameTray h) = some t → t.rs ≠ (h.extractLsb' 0 2).toNat → refuses now 0x18 h 1) ∧
    -- opening
    (∀ r a, c.instr = .trayQry .cnt r a → handleSound d p h → (d.part p).trays.find? (sameTray h) = none → byte 0 = 1 →
      byte 1 = (h.extractLsb' 0 2).toNat →
      let num (a m : Nat) : Nat := Memory.readLE (d.part p).chip (o + a) m
      let dedup : Prop := byte 2 % 2 = 1
      let good : Prop := byte 2 < 4 ∧ byte 3 = 0 ∧ 1 ≤ num 4 2 ∧ 32 ≤ num 8 4 ∧ num 8 4 ≤ 2 ^ 20 ∧ num 0xC 4 ≤ 2 ^ 28 ∧
        num 0x10 8 % 64 = 0 ∧ (num 0xC 4 = 0 → num 0x10 8 = 0) ∧
        (dedup → num 0x18 4 % 128 = 0 ∧ (∃ e, 5 ≤ e ∧ e ≤ 20 ∧ num 0x1C 4 = 2 ^ e) ∧
          num 0x18 4 + 8 * num 0x1C 4 ≤ (d.part p).cfg.chipShare * (d.part p).cfg.slices.length) ∧
        (¬ dedup → num 0x18 4 = 0 ∧ num 0x1C 4 = 0) ∧ ∀ i < 80, byte (0x30 + i) = 0
      let bytes := num 8 4 * (4 * w)
      (¬ good → refuses d 0x18 h 6) ∧
      (good → (d.part p).cfg.pool < (d.part p).poolUsed + bytes → refuses d 0x11 h 1) ∧
      (good → (d.part p).poolUsed + bytes ≤ (d.part p).cfg.pool → ∃ (d' : Dev) (t : Tray),
        becomes (d'.performed b n c.op id [g.vreg r.toNat] (lanes.map (fun l => (l, [(0, 0)])))) ∧
        d' = { d with parts := d'.parts } ∧
        (d'.part p).trays.map Tray.bare = ((d.part p).trays ++ [t]).map Tray.bare ∧
        (∀ q, d'.part q = if q = p then { d.part p with
          trays := (d'.part p).trays, poolUsed := (d.part p).poolUsed + bytes, chip := (d'.part p).chip, chipP := (d'.part p).chipP } else d.part q) ∧
        (∀ a, Memory.read (d'.part p).chip a = if a = o then 2 else Memory.read (d.part p).chip a) ∧
        t.handle = h ∧ t.rs = byte 1 ∧ (t.dedup = true ↔ dedup) ∧ (t.drem = true ↔ 2 ≤ byte 2) ∧ t.nprod = num 4 2 ∧ t.xto = num 6 2 ∧
        t.cap = num 8 4 ∧ t.spcap = num 0xC 4 ∧ t.spill = num 0x10 8 ∧ t.dset = num 0x18 4 ∧ t.dcap = num 0x1C 4 ∧ t.recs = [] ∧ t.keys = [] ∧ t.pushed = 0 ∧
        t.popped = 0 ∧ t.spilled = 0 ∧ t.dups = 0 ∧ t.closes = 0 ∧ t.waitPush = [] ∧ t.waitPop = [] ∧ t.bound = none)) ∧
    -- TRAY.PUSH
    (∀ t r a q, c.instr = .trayPush false r a q → HoldsTray d p h t → t.bound = none →
      (t.nprod ≤ t.closes → refuses d 0x18 h 2) ∧
      (t.closes < t.nprod → t.waitPush = [] → t.recs.length + doers.length ≤ t.cap + t.spcap → ∃ d' : Dev,
        TrayStep d d' p h (afterPush clu t (doers.map (fun l => (record l, none))) d.cycle) id d.cores ∧
        becomes (d'.performed b n c.op id [g.vreg r.toNat] (doers.map (fun l => (l, [(1, 0)]))))) ∧
      (t.closes < t.nprod → t.recs.length ≤ t.cap + t.spcap → t.waitPush ≠ [] ∨ t.cap + t.spcap < t.recs.length + doers.length →
        (∀ x ∈ t.waitPush, ¬ (x.blk = b ∧ x.grp = n)) → ∃ d' : Dev,
        TrayStep d d' p h { t with waitPush := t.waitPush ++ [me] } id d.cores ∧ becomes (d'.heldThere b n c))) ∧
    (∀ t r a q, c.instr = .trayPush true r a q → HoldsTray d p h t → t.bound = none → t.closes < t.nprod →
      let m := if t.waitPush = [] then min doers.length (t.cap + t.spcap - t.recs.length) else 0
      ∃ d' : Dev, TrayStep d d' p h (afterPush clu t ((doers.take m).map (fun l => (record l, none))) d.cycle) id d.cores ∧
        becomes (d'.performed b n c.op (takesP6 (c.act &&& ~~~g.helper) (doers.take m) (g.vreg r.toNat)) [g.vreg r.toNat]
          (doers.zipIdx.map (fun x => (x.1, [(if x.2 < m then 1 else 0, 0)]))))) ∧
    -- TRAY.INSD
    (∀ t r a q, c.instr = .trayInsd r a q → HoldsTray d p h t → t.bound = none →
      let keys := doers.map (fun l => (record l).getD 0 0)
      (t.nprod ≤ t.closes → refuses d 0x18 h 2) ∧
      (t.closes < t.nprod → t.dedup = false → refuses d 0x18 h 5) ∧
      (t.closes < t.nprod → t.dedup = true → t.harm = 0 → t.waitPush = [] → t.recs.length + doers.length ≤ t.cap + t.spcap → ∃ d' : Dev,
        TrayStep d d' p h (insertKeys clu w d.cycle t keys).2 id d.cores ∧
        becomes (d'.performed b n c.op id [g.vreg r.toNat]
          ((doers.zip (insertKeys clu w d.cycle t keys).1).map (fun x => (x.1, [(x.2, 0)])))))) ∧
    -- TRAY.POPB
    (∀ nb t r a, c.instr = .trayPopb nb r a → HoldsTray d p h t →
      let out := t.recs.take lanes.length
      let rest := t.recs.drop lanes.length
      (t.bound.isSome = true → refuses dismissed 0x18 h 4) ∧
      (t.bound = none → t.recs ≠ [] → (nb = true ∨ t.waitPop = []) → (t.closes < t.nprod ∨ rest ≠ []) → ∃ d' : Dev,
        TrayStep d d' p h (unwaits (afterPop t out rest)) unwaits fresh ∧ pops r d' out) ∧
      (t.bound = none → t.recs ≠ [] → (nb = true ∨ t.waitPop = []) → t.nprod ≤ t.closes → rest = [] → ∃ d' : Dev,
        TrayEnds d d' p h (afterPop t out rest) unwaits fresh ∧ pops r d' out) ∧
      (t.bound = none → t.recs = [] → nb = true → ∃ d' : Dev, TrayStep d d' p h (unwaits t) unwaits d.cores ∧ pops r d' []) ∧
      (t.bound = none → t.recs = [] ∨ t.waitPop ≠ [] → nb = false → (∀ x ∈ t.waitPop, ¬ (x.blk = b ∧ x.grp = n)) → ∃ d' : Dev,
        TrayStep d d' p h { t with waitPop := t.waitPop ++ [me] } id d.cores ∧ becomes (d'.heldThere b n c))) ∧
    (∀ nb r a, c.instr = .trayPopb nb r a → handleSound d p h → (d.part p).trays.find? (sameTray h) = none → byte 0 = 4 →
      byte 1 = (h.extractLsb' 0 2).toNat → ∃ d' : Dev,
      d' = { d with parts := d'.parts, cores := fresh } ∧
      (∀ q, d'.part q = if q = p then { d.part p with trays := (d.part p).trays.map unwaits } else d.part q) ∧ pops r d' []) ∧
    (∀ nb t u r a q, c.instr = .trayPopbSteal nb r a q → HoldsTray d p h t → t.bound = none → t.recs = [] → (nb = true ∨ t.waitPop = []) →
      let hb := c.unis.getD 1 0
      let m := u.recs.length - lanes.length
      (hb ≠ h → ¬ handleSound d p hb → refuses dismissed 0x18 hb 0) ∧
      (HoldsTray d p hb u → sameTray h u = false → u.recs ≠ [] → (nb = true ∨ u.waitPop = []) →
      (u.rs ≠ t.rs → refuses dismissed 0x18 hb 1) ∧
      (u.rs = t.rs → u.bound.isSome = true → refuses dismissed 0x18 hb 4) ∧
      (u.rs = t.rs → u.bound = none → (u.closes < u.nprod ∨ m ≠ 0) → ∃ d' : Dev,
        TrayStep d d' p hb (unwaits (afterPop u (u.recs.drop m) (u.recs.take m))) unwaits fresh ∧ pops r d' (u.recs.drop m)))) ∧
    -- TRAY.QRY and TRAY.CLOSE
    (∀ t x r a, c.instr = .trayQry x r a → HoldsTray d p h t →
      becomes (d.performed b n c.op id [g.vreg r.toNat] (lanes.map (fun l => (l, [(BitVec.ofNat 32 (match x with
        | .cnt => t.recs.length
        | .free => t.cap + t.spcap - t.recs.length
        | .state => if t.nprod ≤ t.closes then 3 else 2), 0)]))))) ∧
    (∀ t a, c.instr = .trayClose a → HoldsTray d p h t → t.bound = none →
      (t.nprod ≤ t.closes → refuses d 0x18 h 3) ∧
      (t.closes + 1 < t.nprod → ∃ d' : Dev, TrayStep d d' p h { t with closes := t.closes + 1 } id d.cores ∧ becomes (d'.performed b n c.op id [] [])) ∧
      (t.closes + 1 = t.nprod → t.recs ≠ [] → t.waitPush = [] → ∃ d' : Dev,
        TrayStep d d' p h { t with closes := t.closes + 1 } id d.cores ∧ becomes (d'.performed b n c.op id [] [])) ∧
      (t.closes + 1 = t.nprod → t.recs = [] → ∃ d' : Dev, TrayEnds d d' p h t id d.cores ∧ becomes (d'.performed b n c.op id [] [])))

/-- Waiters, timeouts, spill writes and batches (R294, R295, R298, R306), and the merge-path unit (R309, R310). A spill write of a tray that is
done goes on until it is written or fails, in the order of its place in the ring.
When a spill is written is log 45. -/
def Obligations.TrayWaiting : Prop :=
  (∀ (s : State) (p : BitVec 3) h t w rest k g c r a q, HoldsTray s.dev p.toNat h t → t.waitPush = w :: rest → MeetsUnit s w.blk w.grp k g c →
    k.part = p.toNat → c.unis.getD 0 0 = h → c.instr = .trayPush false r a q → t.bound = none → t.closes < t.nprod →
    s.dev.released w.blk w.grp true = true →
    let doers := lanesOf (c.act &&& ~~~g.helper)
    let record (l : Nat) : List Word := ((c.vals.find? (fun x => decide (x.1 = l))).map (·.2)).getD []
    (t.recs.length + doers.length ≤ t.cap + t.spcap → ∃ d' : Dev,
      TrayStep s.dev d' p.toNat h (afterPush (k.coreOf w.grp / 4) { t with waitPush := rest } (doers.map (fun l => (record l, none))) s.dev.cycle) id s.dev.cores ∧
      exec (.trayPushWaiterServed p h) s = .next (s.withDev (d'.performed w.blk w.grp c.op id [g.vreg r.toNat]
        (doers.map (fun l => (l, [(1, 0)])))))) ∧
    (t.recs.length ≤ t.cap + t.spcap → t.cap + t.spcap < t.recs.length + doers.length → exec (.trayPushWaiterServed p h) s = .next s)) ∧
  (∀ (s : State) (p : BitVec 3) h t w rest k g c r a, HoldsTray s.dev p.toNat h t → t.waitPop = w :: rest → MeetsUnit s w.blk w.grp k g c →
    k.part = p.toNat → c.unis.getD 0 0 = h → c.instr = .trayPopb false r a → t.bound = none → t.recs ≠ [] →
    s.dev.returned w.blk w.grp = true →
    let regs : List RegRef := (List.range (recordWords h)).map (fun i => g.vreg (r.toNat + i))
    let lanes := lanesOf c.act
    let m := lanes.length
    let unwaits (t : Tray) : Tray := { t with waitPop := t.waitPop.filter (fun x => decide (x.blk ≠ w.blk ∨ x.grp ≠ w.grp)) }
    (t.closes < t.nprod ∨ m < t.recs.length) → ∃ d' : Dev,
      TrayStep s.dev d' p.toNat h (unwaits (afterPop t (t.recs.take m) (t.recs.drop m))) unwaits (s.dev.acquire (k.coreOf w.grp) .dev).cores ∧
      exec (.trayPopWaiterServed p h) s = .next (s.withDev ((d'.performed w.blk w.grp c.op
        (takesP6 c.act (lanes.take (t.recs.take m).length) (g.vreg r.toNat)) regs
        (popWords lanes (recordWords h) (t.recs.take m))).lands w.blk w.grp regs))) ∧
  (∀ (s : State) (p : BitVec 3) h t b n g c w, s.plat.phase = .running → (s.dev.part p.toNat).trays.find? (sameTray h) = some t →
    t.waitPush.find? (fun x => decide (x.blk = b ∧ x.grp = n)) = some w → s.dev.group b n = some g → g.cmd = some c →
    t.xto ≠ 0 → w.since + 4096 * t.xto ≤ s.dev.cycle → ∃ d' : Dev,
      TrayStep s.dev d' p.toNat h { t with waitPush := t.waitPush.filter (fun x => decide (x.blk ≠ b ∨ x.grp ≠ n)) } id s.dev.cores ∧
      exec (.trayPushTimeout p h b n) s = .next (s.withDev
        (d'.refused b n g c { cause := 0x11, lanes := c.act, info0 := h, info1 := 2 }))) ∧
  (∀ (s : State) (p : BitVec 3) h t j x d, s.plat.phase = .running → (s.dev.part p.toNat).trays.find? (sameTray h) = some t →
    t.writes.find? (fun w => decide (w.no % t.spcap = j % t.spcap)) = some x → x.no = j → (s.dev.part p.toNat).late = [] →
    let place : LateSpill := ⟨t.handle, t.spill + 4 * recordWords t.handle * (j % t.spcap), x⟩
    t.rs = (t.handle.extractLsb' 0 2).toNat →
    let left := t.writes.filter (fun w => decide (w.no ≠ j))
    (s.dev.spillWrite p.toNat place = (.ok, d) → (d.part p.toNat).trays = (s.dev.part p.toNat).trays → ∃ d' : Dev,
      TrayStep d d' p.toNat h { t with writes := left } id d.cores ∧ exec (.spillWriteComplete p h j) s = .next (s.withDev d')) ∧
    (∀ o perm, s.dev.spillWrite p.toNat place = (.fails o perm, d) → (d.part p.toNat).trays = (s.dev.part p.toNat).trays → ∃ d' : Dev,
      TrayStep d d' p.toNat h { t with
        writes := left
        recs := t.recs.zipIdx.map (fun (y : Rec × Nat) =>
          if y.1.spillNo = some j ∧ (perm = true ∨ t.cap ≤ y.2) then { y.1 with words := y.1.words.map (fun w => (w.1, o + 1)) } else y.1) }
        id d.cores ∧ exec (.spillWriteComplete p h j) s = .next (s.withDev d'))) ∧
  (∀ (s : State) (p : BitVec 3) h j x d e, s.plat.phase = .running →
    (s.dev.part p.toNat).late.find? (fun y => decide (y.handle.toNat / 128 = h.toNat / 128 ∧ y.write.no = j)) = some x →
    (s.dev.part p.toNat).late.find? (fun y => decide (y.addr = x.addr)) = some x → s.dev.spillWrite p.toNat x = (e, d) →
    exec (.spillWriteComplete p h j) s = .next (s.withDev (match e with
      | .later => d
      | _ => d.modPart p.toNat (fun q => { q with late := q.late.erase x })))) ∧
  (∀ (s : State) (p : BitVec 3) h t l x since, s.plat.phase = .running → (s.dev.part p.toNat).trays.find? (sameTray h) = some t →
    t.timer = some since → t.bound = some l → s.dev.launches[l]? = some x → since + 256 * x.lrec.ntime ≤ s.dev.cycle →
    t.recs ≠ [] → t.closes < t.nprod → ∃ d' d1 : Dev, exec (.nodeBatchTimeout p h) s = .next (s.withDev d') ∧
      d1 = { s.dev with launches := d'.launches } ∧
      TrayStep d1 d' p.toNat h { afterPop t t.recs [] with batchNo := t.batchNo + 1, timer := none } id s.dev.cores ∧
      d'.launches[l]? = some { x with batches := x.batches ++ [{ no := t.batchNo, recs := t.recs }] } ∧
      ∀ m, m ≠ l → d'.launches[m]? = s.dev.launches[m]?) ∧
  (∀ d a b,
    let w := fun (v : View) => desc v a
    let kind := fun (v : View) => ((w v 1).extractLsb' 20 4).toNat
    let src := fun (v : View) => if kind v = 0 then Place.mem (((w v 1).extractLsb' 0 20 ++ w v 0 : BitVec 52).toNat)
      else scratchPlace v (kind v - 2) (w v 0).toNat
    let rows := fun (v : View) => (w v 2).toNat
    let oks := fun (v : View) => [true, decide ((w v 1).extractLsb' 24 8 = 0 ∧ (kind v = 0 ∨ (2 ≤ kind v ∧ kind v ≤ 4 ∧ (w v 1).extractLsb' 0 20 = 0))),
      decide (1 ≤ rows v ∧ rows v ≤ 2 ^ 28), decide (1 ≤ (w v 3).toNat ∧ (w v 3).toNat ≤ 2 ^ 24)]
    let good := fun (v : View) => ∀ x ∈ oks v, x = true
    let regs := fun (v : View) => [v.g.vreg d.toNat, v.g.vreg (d.toNat + 1)]
    BadWords (.mpath d a b) (fun _ => True) oks ∧
    AnswersIf (.mpath d a b) (fun v => good v ∧ (w v 0).toNat % 4 ≠ 0) (fun v => v.traps (.mpath d a b) { cause := 0x0B, lanes := v.act }) ∧
    AnswersIf (.mpath d a b) (fun v => good v ∧ (w v 0).toNat % 4 = 0 ∧ ¬ placeFits v (src v) (4 * (rows v + 1)))
      (fun v => v.traps (.mpath d a b) { cause := 0x0A, lanes := v.act }) ∧
    AnswersIf (.mpath d a b) (fun v => good v ∧ (w v 0).toNat % 4 = 0 ∧ placeFits v (src v) (4 * (rows v + 1)))
      (fun v => v.completes { v.d with nextId := v.d.nextId + 1, cmds := v.d.cmds ++ [⟨v.d.nextId, v.b, v.n, v.act, regs v,
          .mpath (src v) (rows v) (w v 3).toNat (v.act.lanes.map (fun l => (l, v.g.src (.v b) l)))⟩] }
        { v.issued with flights := v.g.flights ++ (regs v).map (fun r => ⟨r, v.d.nextId⟩) })) ∧
  (∀ (s : State) op b n act regs k sp a rows parts ps, s.plat.phase = .running →
    s.dev.cmds.find? (fun c => decide (c.op = op)) = some ⟨op, b, n, act, regs, .mpath (.scratch sp a) rows parts ps⟩ →
    s.dev.blocks[b]? = some k → k.pred = none → s.dev.parks = [] → 1 ≤ rows → rows ≤ 2 ^ 28 → 1 ≤ parts →
    (∀ i ≤ rows, (s.dev.homeWord sp (a + 4 * i)).2 = 0) →
    let ptr (i : Nat) : Nat := (s.dev.homeWord sp (a + 4 * i)).1.toNat
    let nnz := (ptr rows + 2 ^ 32 - ptr 0) % 2 ^ 32
    let f (i : Nat) : Nat := (ptr i + 2 ^ 32 - ptr 0) % 2 ^ 32 + i
    let diag (x : Word) : Nat := min x.toNat parts * (rows + nnz) / parts
    ∃ row : Word → Nat,
      (∀ x, diag x - nnz ≤ row x ∧ row x ≤ min (diag x) rows ∧ (row x = diag x - nnz ∨ f (row x) ≤ diag x) ∧
        (row x = min (diag x) rows ∨ diag x < f (row x + 1))) ∧
      exec (.mpathComplete op) s = .next (s.withDev (Dev.settle { s.dev with cmds := s.dev.cmds.map (fun c =>
        if c.op = op then { c with kind := .answer (ps.map (fun lp =>
          (lp.1, [(BitVec.ofNat 32 (row lp.2), 0), (BitVec.ofNat 32 (ptr 0 + diag lp.2 - row lp.2), 0)]))) } else c) })))

/-! ### MAT: passes and tiles -/

/-- MOPMAP, MOPF, MDECL and MMA (R248, R249, R251, R252, R254).
What MOPF waits for is log 35, info words that no rule gives are log 31, the index of a bad row offset is log 44. -/
def Obligations.PassDeclarations : Prop :=
  (∀ f m a s v t, s.dev.issuer = some v → Ready (.mopmap f m a) v →
    let i : Instr := .mopmap f m a
    let w := desc v a
    let bm : Option Nat := if w 3 = 0xFFFFFFFF then none else some (w 3).toNat
    let ep := ((w 2).extractLsb' 0 16).toNat
    let sp := ((w 2).extractLsb' 16 16).toNat
    let map : OpMap := match f with
      | .core => .core (v.k.pos v.n) (w 0).toNat (w 1).toNat ep sp bm
      | .clu => .clu (w 0).toNat (w 1).toNat ep sp bm
      | .hnd => .hnd (w 0)
    let word : Prop := if f = .hnd then w 1 ≠ 0 ∨ w 2 ≠ 0 ∨ w 3 ≠ 0 else ep % 16 ≠ 0
    firstTrap [(word, { cause := 0x02, lanes := v.act, info0 := opWord i }),
      (f ≠ .hnd ∧ ((w 0).toNat % 16 ≠ 0 ∨ (w 3 ≠ 0xFFFFFFFF ∧ (w 3).toNat % 4 ≠ 0)), { cause := 0x0B, lanes := v.act }),
      (f ≠ .hnd ∧ v.k.coreOf v.n / 4 ≠ v.k.home, { cause := 0x0A, lanes := v.act }),
      (f = .hnd ∧ v.handle (w 0).toNat = none, { cause := 0x18, lanes := v.act })] t →
    (∀ x, t = some x → exec i s = .next (s.withDev (v.traps i x))) ∧
    (t = none → exec i s = .next (s.withDev
      (v.completes (v.d.modBlock v.b (fun k => { k with maps := setNth k.maps m.toNat map })) v.issued)))) ∧
  (∀ clu : Bool,
    let mine (sp : Space) : Prop := match sp with
      | .core _ _ => clu = false
      | .clu _ _ => clu = true
      | .chip _ => clu = true
      | .lane _ _ _ => False
    let done (v : View) : Prop :=
      (∀ x ∈ v.d.stores, x.core = v.core → ¬ mine x.space) ∧ (∀ x ∈ v.d.atoms, x.blk = v.b → x.grp = v.n → ¬ mine x.space) ∧
      ∀ c ∈ v.d.cmds, c.blk = v.b → c.grp = v.n → ∀ f l g, c.kind ≠ .fatom f l g
    AnswersIf (.mopf clu) done (fun v => v.completes v.d v.issued) ∧
    AnswersIf (.mopf clu) (fun v => ¬ done v) (fun v => v.blocks v.d (.mopf clu))) ∧
  (∀ g a b, BadWords (.mdecl g a b) (fun _ => True) (fun v => templateWords v a)) ∧
  (∀ g a b s v, s.dev.issuer = some v → Ready (.mdecl g a b) v → (∀ x ∈ templateWords v a, x = true) →
    let i : Instr := .mdecl g a b
    let t := templateAt v a
    let ma := v.k.maps.getD t.mapA .idle
    let mb := v.k.maps.getD t.mapB .idle
    let reg := v.k.sign.getD g.toNat SignReg.idle
    let set := namedGroups t.gbase (v.g.uni b.toNat)
    let size := sideOf t.shape
    let table : Prop := t.taboff + 4 * (t.gcnt + 1) ≤ v.k.lrec.cscr * 4096
    let off (n : Nat) : Nat := v.tableWord t n
    let rows := if t.kind = 2 then off t.gcnt else size
    let lines := if t.kind = 2 then size * t.gcnt else size
    let trap (c n : Nat) : Trap := { cause := c, lanes := v.act, info1 := BitVec.ofNat 32 n }
    let declared (n : Nat) : SignReg :=
      { tpl := t, opA := ma, opB := mb, rowoff := if t.kind = 2 then (List.range (t.gcnt + 1)).map off else [], set := set, signed := [],
        tileId := n }
    (t.kind = 2 → table) → ∀ x,
    firstTrap [(¬ mapServes v t ma ∨ ¬ mapServes v t mb, { cause := 0x02, lanes := v.act, info0 := opWord i, info1 := 8 }),
      ((∀ n y, ¬ v.ownsTile t.tile n y), trap 0x16 0), (reg.signed ≠ [], trap 0x15 5),
      (set = [] ∨ (∃ n ∈ set, ∀ y, v.k.groups[n]? = some y → y.exited = true), trap 0x15 6),
      (¬ mapLive v t ma t.arow rows t.ak ∨ ¬ mapLive v t mb t.bcol lines t.bk, trap 0x18 0),
      ((rows ≠ 0 ∧ ¬ mapFits v t ma t.arow rows t.ak) ∨ ¬ mapFits v t mb t.bcol lines t.bk, trap 0x0A 0),
      (t.kind = 2 ∧ off 0 ≠ 0, trap 0x12 0)] x →
    (∀ y, x = some y → exec i s = .next (s.withDev (v.traps i y))) ∧
    (x = none → t.kind = 2 → ∀ n < t.gcnt, (∀ m < n, off m ≤ off (m + 1)) → off (n + 1) < off n →
      exec i s = .next (s.withDev (v.traps i (trap 0x12 n)))) ∧
    (x = none → t.kind = 2 → (∀ m < t.gcnt, off m ≤ off (m + 1)) → size < off t.gcnt →
      exec i s = .next (s.withDev (v.traps i (trap 0x12 t.gcnt)))) ∧
    (x = none → (t.kind = 2 → (∀ m < t.gcnt, off m ≤ off (m + 1)) ∧ off t.gcnt ≤ size) → ∀ n y, v.ownsTile t.tile n y → ∃ d : Dev,
      exec i s = .next (s.withDev (v.completes (d.modBlock v.b (fun k => { k with sign := setNth k.sign g.toNat (declared n) })) v.issued)) ∧
      d = { v.d with stores := d.stores } ∧ unseen d.stores = unseen v.d.stores ∧ (t.kind ≠ 2 → d = v.d))) ∧
  (∀ f g s v signers t, s.dev.issuer = some v → Ready (.mma f g) v →
    let i : Instr := .mma f g
    let reg := v.k.sign.getD g.toNat SignReg.idle
    let signed := reg.signed ++ [(v.n, v.g.gcr.getLsbD 3)]
    let full : Prop := ∀ n ∈ reg.set, ∃ y ∈ signed, y.1 = n
    let e := v.d.engine v.k.home
    let fn : Nat := match f with
      | .dense => 0
      | .sp => 1
      | .grp => 2
    let trap (c n : Nat) : Trap := { cause := c, lanes := v.act, info1 := BitVec.ofNat 32 n }
    let signs (signed : List (Nat × Bool)) (d : Dev) : Dev :=
      d.modBlock v.b (fun k => { k with sign := setNth k.sign g.toNat { reg with signed := signed } })
    let snap (m : OpMap) : Option LEntry := match m with
      | .hnd h => v.handle h.toNat
      | _ => none
    let here (m : OpMap) : Bool := match m with
      | .hnd _ => false
      | _ => true
    let pass : Pass :=
      { id := v.d.nextId, blk := v.b, src := v.b, sign := { reg with signed := signers }, snapA := snap reg.opA, snapB := snap reg.opB,
        fetchedA := here reg.opA, fetchedB := here reg.opB, lines := [], came := [], ops := none, tile := reg.tileId,
        entered := v.d.cycle, granted := false, reserve := false, started := none }
    g.toNat < v.k.sign.length → signers.Perm signed → signers.Pairwise (fun a b => a.1 < b.1) →
    firstTrap [(reg.set = [], trap 0x15 1), (v.n ∉ reg.set, trap 0x15 2), ((∃ y ∈ reg.signed, y.1 = v.n), trap 0x15 3),
      (fn ≠ reg.tpl.kind, trap 0x15 4), (v.k.tiles[reg.tpl.tile]? ≠ some (some reg.tileId), trap 0x16 0)] t →
    (∀ x, t = some x → exec i s = .next (s.withDev (v.traps i x))) ∧
    (t = none → ¬ full → exec i s = .next (s.withDev (v.completes (signs signed v.d) v.issued))) ∧
    (t = none → full → 32 ≤ e.table.length → exec i s = .next (s.withDev (v.blocks v.d .table))) ∧
    (t = none → full → e.table.length < 32 → exec i s = .next (s.withDev (v.completes
      (signs [] (queued (Dev.putEngine { v.d with nextId := v.d.nextId + 1 } v.k.home { e with table := e.table ++ [pass] })
        reg.tileId (.pass v.d.nextId))) v.issued))))

/-- The tile instructions at issue (R262, R263, R264, R265, R266, R267, R268).
Info words that no rule gives are log 31, and where MWAIT stands is log 32. -/
def Obligations.TileCommands : Prop :=
  (∀ sh t,
    AnswersIf (.macq sh t) (fun v => ∃ i, v.k.tiles[t.toNat]? = some (some i))
      (fun v => v.traps (.macq sh t) { cause := 0x18, lanes := v.act, info0 := t.zeroExtend 32 }) ∧
    AnswersIf (.macq sh t) (fun v => ∀ i, v.k.tiles[t.toNat]? ≠ some (some i)) (fun v =>
      let e := v.d.engine v.k.home
      v.waitsFor (Dev.putEngine { v.d with nextId := v.d.nextId + 1 } v.k.home { e with acq := e.acq ++ [⟨v.b, v.n, t.toNat, match sh with
        | .s256 => 0
        | .s128 => 1
        | .s64 => 2⟩] }) (.macq sh t) v.d.nextId [] [] [])) ∧
  (∀ t, NeedsTile (.mrel t) (fun _ => True) t ∧ OnTile (.mrel t) (fun _ _ => True) t (fun v n _ =>
    v.waitsFor ((queued { v.d with nextId := v.d.nextId + 1 } n (.mrel v.b v.n)).modBlock v.b
      (fun k => { k with tiles := setNth k.tiles t.toNat none })) (.mrel t) v.d.nextId [] [] [])) ∧
  (∀ t, NeedsTile (.mzero t) (fun _ => True) t ∧ OnTile (.mzero t) (fun _ _ => True) t (fun v n _ => v.completes (queued v.d n .mzero) v.issued)) ∧
  (∀ t, NeedsTile (.mwait t) (fun v => v.g.cmd = none) t ∧
    OnTile (.mwait t) (fun v _ => v.g.cmd = none) t (fun v n _ =>
      v.waitsFor (queued { v.d with nextId := v.d.nextId + 1 } n (.mwait v.b v.n)) (.mwait t) v.d.nextId [] [] []) ∧
    AnswersIf (.mwait t) (fun v => ∃ c, v.g.cmd = some c ∧ c.waits = true ∧ c.instr = .mwait t ∧ c.act = v.act)
      (fun v => v.completes v.d { v.issued with cmd := none })) ∧
  (∀ k d t b,
    let i : Instr := .mrd k d t b
    let sb := fun (v : View) => v.g.uni b.toNat
    let regs := fun (v : View) => (List.range (KCount.n k)).map (fun j => v.g.vreg (d.toNat + j))
    NeedsTile i (fun _ => True) t ∧
    OnTile i (fun v x => outside x (sb v) (KCount.n k)) t
      (fun v _ _ => v.traps i { cause := 0x12, lanes := v.act, info0 := t.zeroExtend 32, info1 := sb v }) ∧
    OnTile i (fun v x => ¬ outside x (sb v) (KCount.n k)) t (fun v n _ =>
      v.completes (queued { v.d with nextId := v.d.nextId + 1 } n (.mrd v.d.nextId v.b v.n (KCount.n k) ((sb v).extractLsb' 16 16).toNat
        ((sb v).extractLsb' 0 16).toNat v.act (regs v))) { v.issued with flights := v.g.flights ++ (regs v).map (fun r => ⟨r, v.d.nextId⟩) })) ∧
  (∀ d t,
    let regs : List RegRef := (List.range 4).map (fun j => .u (4 * d.toNat + j))
    NeedsTile (.mrdStat d t) (fun _ => True) t ∧
    OnTile (.mrdStat d t) (fun _ _ => True) t (fun v n _ =>
      v.completes (queued { v.d with nextId := v.d.nextId + 1 } n (.mrdStat v.d.nextId v.b v.n regs))
        { v.issued with flights := v.g.flights ++ regs.map (fun r => ⟨r, v.d.nextId⟩) })) ∧
  (∀ k d t b,
    let i : Instr := .mwr k d t b
    let sb := fun (v : View) => v.g.uni b.toNat
    let vals := fun (v : View) => (List.range (KCount.n k)).map (fun j => v.act.lanes.map (fun l => (l, v.g.word (v.g.vreg (d.toNat + j)) l)))
    NeedsTile i (fun _ => True) t ∧
    OnTile i (fun v x => outside x (sb v) (KCount.n k)) t
      (fun v _ _ => v.traps i { cause := 0x12, lanes := v.act, info0 := t.zeroExtend 32, info1 := sb v }) ∧
    OnTile i (fun v x => ¬ outside x (sb v) (KCount.n k)) t (fun v n _ =>
      v.completes (queued v.d n (.mwr (KCount.n k) ((sb v).extractLsb' 16 16).toNat ((sb v).extractLsb' 0 16).toNat v.act (vals v))) v.issued)) ∧
  (∀ f t b s v x, s.dev.issuer = some v → Ready (.mdrain f t b) v →
    let i : Instr := .mdrain f t b
    let w := desc v b
    let kind := ((w 1).extractLsb' 20 4).toNat
    let dst : Place := if kind = 0 then .mem (((w 1).extractLsb' 0 20 ++ w 0 : BitVec 52).toNat) else scratchPlace v (kind - 2) (w 0).toNat
    let pitch := (w 2).toNat
    let soff := (w 3).toNat
    let size : Nat := match f with
      | .stF32 => 4
      | .addF32 => 4
      | .stQ8 => 1
      | _ => 2
    let base : Nat := match dst with
      | .mem a => a
      | .scratch _ a => a
      | .view _ a => a
    let short : Prop := ∃ n y, v.ownsTile t.toNat n y ∧ pitch < sideOf y.shape * size
    let broken : Prop := (w 1).extractLsb' 24 8 ≠ 0 ∨ ¬ (kind = 0 ∨ (2 ≤ kind ∧ kind ≤ 4 ∧ (w 1).extractLsb' 0 20 = 0)) ∨
      (w 2).extractLsb' 20 12 ≠ 0 ∨ short ∨ (f ≠ .stQ8 ∧ w 3 ≠ 0)
    let span (y : Tile) : Nat := pitch * (sideOf y.shape - 1) + sideOf y.shape * size
    let scales (y : Tile) : Nat := sideOf y.shape * (sideOf y.shape / 32)
    let fits (y : Tile) : Prop := placeFits v dst (span y) ∧ (f = .stQ8 → match dst with
      | .scratch sp a => placeFits v (.scratch sp (a + soff)) (scales y)
      | _ => True)
    let barred (y : Tile) : Prop := match dst with
      | .mem _ => True
      | .scratch (.chip _) a => (∃ r < sideOf y.shape, v.k.inChipRegions (a + r * pitch) (sideOf y.shape * size) = false) ∨
          (f = .stQ8 ∧ v.k.inChipRegions (a + soff) (scales y) = false)
      | _ => False
    let own (p : Tile → Prop) : Prop := ∀ n y, v.ownsTile t.toNat n y → p y
    firstTrap [(broken, { cause := 0x02, lanes := v.act, info0 := opWord i }), ((∀ n y, ¬ v.ownsTile t.toNat n y), { cause := 0x16, lanes := v.act }),
      (base % size ≠ 0 ∨ pitch % size ≠ 0, { cause := 0x0B, lanes := v.act }), (own (fun y => ¬ fits y), { cause := 0x0A, lanes := v.act }),
      (v.k.lrec.repl = true ∧ own barred, { cause := 0x19, lanes := v.act })] x →
    (∀ y, x = some y → exec i s = .next (s.withDev (v.traps i y))) ∧
    (x = none → ∀ n y, v.ownsTile t.toNat n y → exec i s = .next (s.withDev (v.completes
      (queued { v.d with nextId := v.d.nextId + 1 } n (.drain ⟨v.d.nextId, v.b, v.n, f, t.toNat, dst, pitch, soff⟩)) v.issued))))

/-- Tiles and passes in the engine (R128, R130, R131, R132, R142, R216, R220, R246, R253, R259, R262, R263, R265, R266, R267).
When a pass reads its operands is log 23; that a poisoned operand poisons every element its pass writes is log 24. -/
def Obligations.TilesAndPasses : Prop :=
  -- the oldest acquisition gets the lowest aligned free place
  (∀ (s : State) clu a rest k g c u, s.plat.phase = .running → (s.dev.engine clu).acq = a :: rest → s.dev.blocks[a.blk]? = some k →
    s.dev.group a.blk a.grp = some g → g.cmd = some c → k.tiles[a.name]? = some none →
    let units (shape : Nat) : Nat := if shape = 0 then 16 else if shape = 1 then 4 else 1
    let free (u : Nat) : Prop := u % units a.shape = 0 ∧ u + units a.shape ≤ 128 ∧ ∀ t ∈ s.dev.tiles, t.released = false → t.clu = clu →
      ¬ shareByte u (units a.shape) t.unit (units t.shape)
    ((∀ x, ¬ free x) → exec (.tileAcquireServed clu) s = .next s) ∧
    (free u → (∀ x < u, ¬ free x) → ∃ d : Dev,
      exec (.tileAcquireServed clu) s = .next (s.withDev (d.performed a.blk a.grp c.op id [] [])) ∧
      d.tiles = s.dev.tiles ++ [⟨clu, a.blk, a.shape, u, [], [], 0, 0, 0, 0, [], false⟩] ∧
      (∀ x, d.engine x = if x = clu then { s.dev.engine clu with acq := rest } else s.dev.engine x) ∧
      d = { s.dev with
        tiles := d.tiles, engines := d.engines, blocks := setNth s.dev.blocks a.blk { k with tiles := setNth k.tiles a.name (some s.dev.tiles.length) } })) ∧
  -- the head of a tile's order
  (∀ (s : State) t x rest, s.plat.phase = .running → s.dev.tiles[t]? = some x →
    let becomes (y : Tile) : Dev := { s.dev with tiles := setNth s.dev.tiles t { y with order := rest } }
    (x.order = .mzero :: rest → exec (.tileOrderTurn t) s = .next (s.withDev
      (becomes { x with vals := [], pois := [], satc := 0, flsc := 0, infc := 0, nanc := 0 }))) ∧
    (∀ k q c act vals, x.order = .mwr k q c act vals :: rest → c + k ≤ 256 → q + 32 ≤ 256 → vals.length = k →
      (∀ i < k, ∀ l, act.getLsbD l = true → ∃ w, (vals.getD i []).find? (fun y => decide (y.1 = l)) = some (l, w)) → ∃ y,
      exec (.tileOrderTurn t) s = .next (s.withDev (becomes y)) ∧ y = { x with vals := y.vals, pois := y.pois } ∧
      ∀ i < 256, ∀ j < 256,
        if q ≤ i ∧ i < q + 32 ∧ act.getLsbD (i - q) = true ∧ c ≤ j ∧ j < c + k then
          (vals.getD (j - c) []).find? (fun z => decide (z.1 = i - q)) = some (i - q, elemOfTile y i j) ∧ poisonOfTile y i j = 0
        else elemOfTile y i j = elemOfTile x i j ∧ poisonOfTile y i j = poisonOfTile x i j) ∧
    (∀ b n k g, x.order = .mwait b n :: rest → s.dev.blocks[b]? = some k → s.dev.group b n = some g →
      exec (.tileOrderTurn t) s = .next (s.withDev (Dev.settle (((becomes x).acquire (k.coreOf n) .clu).putGroup b n
        { g with cmd := g.cmd.map (fun c => { c with waits := true }), why := .ready, readyAt := none, sel := false })))) ∧
    (∀ b n g c, x.order = .mrel b n :: rest → s.dev.group b n = some g → g.cmd = some c →
      exec (.tileOrderTurn t) s = .next (s.withDev ((becomes { x with vals := [], pois := [], released := true }).performed b n c.op id [] []))) ∧
    (∀ op b n k q c act regs, x.order = .mrd op b n k q c act regs :: rest →
      exec (.mrdComplete t) s = .next (s.withDev (Dev.settle { becomes x with cmds := s.dev.cmds ++ [⟨op, b, n, act, regs,
        .answer (act.lanes.map (fun l => (l, (List.range k).map (fun i => (elemOfTile x (q + l) (c + i), poisonOfTile x (q + l) (c + i))))))⟩] }))) ∧
    (∀ op b n regs, x.order = .mrdStat op b n regs :: rest →
      exec (.mrdComplete t) s = .next (s.withDev (Dev.settle { becomes x with cmds := s.dev.cmds ++ [⟨op, b, n, 1, regs,
        .answer [(0, [x.satc, x.flsc, x.infc, x.nanc].map (fun c => (BitVec.ofNat 32 c, 0)))]⟩] }))) ∧
    (∀ dr sp base k, x.order = .drain dr :: rest → dr.dst = .scratch sp base → dr.form ≠ .stQ8 → s.dev.blocks[dr.blk]? = some k →
      (∀ m y, m < t → s.dev.tiles[m]? = some y → ∀ e l, y.order = .drain e :: l → e.op ≠ dr.op) →
      (dr.form = .addF32 → s.dev.predDone dr.blk = true) →
      (∀ y ∈ s.dev.tiles, ∀ e, .drain e ∈ y.order → e.blk = dr.blk → e.grp = dr.grp → e.op < dr.op → ¬ drainsMeet dr x e y) →
      let size := sideOf x.shape
      let wide := if dr.form = .stF32 ∨ dr.form = .addF32 then 4 else 2
      size * wide ≤ dr.pitch → base % 4 = 0 → dr.pitch % 4 = 0 → (∀ i j, poisonOfTile x i j = 0) →
      (∀ a < dr.pitch * size, s.dev.backs sp (base + a)) → (∀ a, (s.dev.homeWord sp a).2 = 0) →
      (∀ a < dr.pitch * size, isWin sp (base + a) = false) → ∃ d, exec (.drainPerformed dr.op) s = .next (s.withDev d) ∧
        (∀ m, d.tiles[m]? = if m = t then some { x with order := rest, satc := min 0xFFFFFFFF x.satc } else s.dev.tiles[m]?) ∧
        (∀ i < size, ∀ j < size, ∀ n < wide, d.byteAt sp (base + i * dr.pitch + j * wide + n) =
          (drainedBytes dr.form (elemOfTile x i j) (s.dev.homeWord sp (base + i * dr.pitch + j * wide)).1).getD n 0) ∧
        ∀ a, isWin sp a = false → s.dev.backs sp a →
          (∀ i < size, a < base + i * dr.pitch ∨ base + i * dr.pitch + size * wide ≤ a) → d.byteAt sp a = s.dev.byteAt sp a)) ∧
  -- a drain waits for an earlier one of its group that writes some of its bytes
  (∀ (s : State) (t : Nat) x (dr : Drain) rest y (e : Drain), s.plat.phase = .running → s.dev.tiles[t]? = some x → x.order = .drain dr :: rest →
    (∀ m (z : Tile), m < t → s.dev.tiles[m]? = some z → ∀ e l, z.order = .drain e :: l → e.op ≠ dr.op) →
    y ∈ s.dev.tiles → .drain e ∈ y.order → e.blk = dr.blk → e.grp = dr.grp → e.op < dr.op → drainsMeet dr x e y →
    exec (.drainPerformed dr.op) s = .next s) ∧
  -- the arithmetic of a K-tile
  (∀ a b : List Int, a.length = b.length → a.length ≤ 256 → (∀ x ∈ a ++ b, -128 ≤ x ∧ x ≤ 127) → residueDot a b = exactDot a b) ∧
  (∀ a b : List Int, a.length = b.length → a.length ≤ 128 → (∀ x ∈ a ++ b, -32768 ≤ x ∧ x ≤ 32767) → qs16Dot a b = exactDot a b) ∧
  (∀ l : Line, l.q.length = 32 * l.scales.length →
    (255 ∈ l.scales → (align l).nan = true) ∧
    (255 ∉ l.scales → l.scales ≠ [] → (align l).nan = false ∧ (align l).e ∈ l.scales ∧ (∀ e ∈ l.scales, e ≤ (align l).e) ∧
      (align l).q.length = l.q.length ∧
      (∀ n < l.q.length, (align l).q.getD n 0 = nearest ((l.q.getD n 0 : ℚ) / 2 ^ ((align l).e - l.scales.getD (n / 32) 0))) ∧
      (align l).changed = ((List.range l.q.length).filter (fun n =>
        decide (l.q.getD n 0 % 2 ^ ((align l).e - l.scales.getD (n / 32) 0) ≠ 0))).length)) ∧
  -- a pass of one K-tile, from its start to its completion
  (∀ (s : State) clu p x t0 la lb d0, s.plat.phase = .running → (s.dev.engine clu).table.find? (fun q => decide (q.id = p.id)) = some p →
    p.id < s.dev.nextId → s.dev.tiles[p.tile]? = some x → p.started = some t0 → p.sign.tpl.kind = 0 → p.sign.tpl.fmt < 2 →
    0 < p.sign.tpl.klen → p.sign.tpl.klen ≤ 256 → p.sign.tpl.klen % 32 = 0 →
    (∀ q ∈ (s.dev.engine clu).table, q.id < p.id → q.blk = p.blk → q.ops = none → ∀ a ∈ q.sign.signed, ∀ b ∈ p.sign.signed, a.1 ≠ b.1) →
    s.dev.passOps clu p = (some ⟨[(la, lb)]⟩, d0) → d0.tiles = s.dev.tiles → s.dev.nextId ≤ d0.nextId →
    let t := p.sign.tpl
    let size := sideOf t.shape
    let ends := max (t0 + 20) (p.came.getD 0 0) + (if t.fmt = 0 then t.klen else t.klen / 2) + 12
    let none' : Aligned := ⟨[], 0, false, 0, 0⟩
    let row (i : Nat) : Aligned := (la.map align).getD i none'
    let col (j : Nat) : Aligned := (lb.map align).getD j none'
    (s.dev.cycle < ends → exec (.passComplete clu p.id) s = .next s) ∧
    (ends ≤ s.dev.cycle → (∀ i < size, ∀ j < size, exactDot (row i).q (col j).q = residueDot (row i).q (col j).q) → ∃ d y,
      exec (.passComplete clu p.id) s = .next (s.withDev d) ∧ d.tiles[p.tile]? = some y ∧ y.released = x.released ∧
      (∀ q ∈ (d.engine clu).table, q.id ≠ p.id) ∧
      (∀ i < size, ∀ j < size, elemOfTile y i j = accumulated (elemOfTile x i j) (row i) (col j)) ∧
      ((∃ l ∈ la ++ lb, l.poison ≠ 0) → ∀ i < size, ∀ j < size, poisonOfTile y i j ≠ 0) ∧
      ((∀ l ∈ la ++ lb, l.poison = 0) → ∀ i j, i < size → j < size → poisonOfTile y i j = poisonOfTile x i j) ∧
      ∀ i < 256, ∀ j < 256, ¬ (i < size ∧ j < size) → elemOfTile y i j = elemOfTile x i j)) ∧
  -- the passes that a group signs read their operands in order
  (∀ (s : State) clu p q a b, s.plat.phase = .running → (s.dev.engine clu).table.find? (fun r => decide (r.id = p.id)) = some p →
    q ∈ (s.dev.engine clu).table → q.blk = p.blk → q.id < p.id → q.ops = none → (q.fetchedA && q.fetchedB) = false →
    a ∈ q.sign.signed → b ∈ p.sign.signed → a.1 = b.1 → exec (.passComplete clu p.id) s = .next s) ∧
  -- the tile fetch unit brings a pass's handle operands K-tile by K-tile
  (∀ (s : State) clu p x d0, s.plat.phase = .running → (s.dev.engine clu).table.find? (fun q => decide (q.id = p.id)) = some p →
    (p.fetchedA && p.fetchedB) = false → s.dev.predDone p.src = true →
    let n := p.lines.length
    let blocks := p.sign.tpl.klen / 32
    let per := if p.sign.tpl.fmt = 2 then 4 else 8
    let last := decide (blocks ≤ (n + 1) * per)
    n * per < blocks → (fetchKtileOr (s.dev.passReq clu p) p (n * per, min per (blocks - n * per))).run' s.dev = (.ok x, d0) →
    d0.engines = s.dev.engines → ∃ d, exec (.tileFetchComplete clu p.id) s = .next (s.withDev d) ∧
      (d.engine clu).table.find? (fun q => decide (q.id = p.id)) = some { p with
        lines := p.lines ++ [x], came := p.came ++ [s.dev.cycle], fetchedA := p.fetchedA || last, fetchedB := p.fetchedB || last }) ∧
  -- the arbiter and the array's mode
  (∀ (s : State) clu p k, s.plat.phase = .running → (s.dev.engine clu).chosen = none → mayChoose (s.dev.engine clu) p →
    s.dev.blocks[p.blk]? = some k → k.permit.granted = 0 → p.granted = false →
    (s.dev.engine clu).table.Pairwise (fun a b => a.entered ≤ b.entered ∧ a.id < b.id) →
    let late (q : Pass) : Prop := q.entered + 4096 ≤ s.dev.cycle
    let cls (q : Pass) : Nat := ((s.dev.blocks[q.blk]?).map (fun k => k.lrec.pcls)).getD 0
    ((late p ∧ ∀ q, mayChoose (s.dev.engine clu) q → late q → p.id ≤ q.id) ∨
     ((∀ q, mayChoose (s.dev.engine clu) q → ¬ late q) ∧
       ∀ q, mayChoose (s.dev.engine clu) q → cls q < cls p ∨ (cls q = cls p ∧ p.id ≤ q.id))) →
    ∃ d : Dev, exec (.passChoose clu) s = .next (s.withDev d) ∧
      (∀ c, d.engine c = if c = clu then { s.dev.engine clu with chosen := some p.id, switch := switchFor (s.dev.engine clu) p s.dev.cycle }
        else s.dev.engine c) ∧
      d = { Dev.requestPermits s.dev (dieOf clu)
        { who := .pass p.id, part := k.part, n := if p.sign.tpl.shape = 0 then 16 else if p.sign.tpl.shape = 1 then 4 else 1 } with
          engines := d.engines }) ∧
  -- another shape's mode switch begins once no pass runs, before the chosen pass has its permits
  (∀ (s : State) clu p, s.plat.phase = .running → (s.dev.engine clu).chosen = some p.id →
    (s.dev.engine clu).table.find? (fun q => decide (q.id = p.id)) = some p → (s.dev.engine clu).mode ≠ p.sign.tpl.shape →
    (switchFor (s.dev.engine clu) p s.dev.cycle = (s.dev.engine clu).switch → exec (.passChoose clu) s = .next s) ∧
    ((s.dev.engine clu).switch = none → (∀ q ∈ (s.dev.engine clu).table, q.started = none) → exec (.passChoose clu) s = .next (s.withDev
      (s.dev.putEngine clu { s.dev.engine clu with switch := some (p.sign.tpl.shape, s.dev.cycle) })))) ∧
  (∀ (s : State) clu since shape, s.plat.phase = .running → (s.dev.engine clu).switch = some (shape, since) →
    (s.dev.cycle < since + 8 → exec (.modeSwitchDone clu) s = .next s) ∧
    (since + 8 ≤ s.dev.cycle → ∀ p x, (s.dev.engine clu).chosen = some p.id →
      (s.dev.engine clu).table.find? (fun q => decide (q.id = p.id)) = some p → p.granted = true → p.sign.tpl.shape = shape →
      s.dev.tiles[p.tile]? = some x → x.order.head? = some (.pass p.id) → (∀ q ∈ (s.dev.engine clu).table, q.started = none) →
      ∃ d : Dev, exec (.modeSwitchDone clu) s = .next (s.withDev d) ∧ d = { s.dev with engines := d.engines } ∧
        ∀ c, d.engine c = if c = clu then { s.dev.engine clu with
            mode := shape, switch := none, chosen := none,
            table := (s.dev.engine clu).table.map (fun q => if q.id = p.id then { q with started := some s.dev.cycle } else q) }
          else s.dev.engine c))

/-! ### Sample sets, results and textures -/

/-- The set, PRIM, SRES, RCLEAR, RDECOMP, TEX and TEXG instructions at issue (R315, R316, R317, R318, R319, R320, R321, R325, R333, R338,
R342).
Info words that no rule gives are log 42, the place of RCLEAR is log 56, and how many results the raster unit's buffer takes is log 60. -/
def Obligations.SetCommands : Prop :=
  -- SSET.NEW, freeing
  (∀ a b,
    let i : Instr := .ssetNew a b
    let free (v : View) : Prop := (desc v a 2).getLsbD 31 = true
    let wrong (v : View) (n : Nat) : Prop := (n = 2 ∧ desc v a 2 ≠ 0x80000000) ∨ (n ≠ 0 ∧ n ≠ 2 ∧ desc v a n ≠ 0)
    let good (v : View) : Prop := free v ∧ ∀ n < 16, ¬ wrong v n
    let h (v : View) : Word := desc v a 0
    (∀ n < 16, AnswersIf i (fun v => free v ∧ wrong v n ∧ ∀ m < n, ¬ wrong v m) (fun v => v.setFault i 0x02 (h v) n)) ∧
    AnswersIf i (fun v => good v ∧ v.k.lrec.repl = true) (fun v => v.setFault i 0x19 (h v) 0) ∧
    AnswersIf i (fun v => good v ∧ v.k.lrec.repl = false ∧ ∀ e, ¬ v.sees (h v) e) (fun v => v.setFault i 0x18 (h v) 0) ∧
    OnSet i h true (fun v e => good v ∧ (e.state = 1 ∨ e.state = 3)) (fun v e =>
      v.waitsFor (putSet { v.d with nextId := v.d.nextId + 1 } v.k.part ((h v).toNat % 256) { e with closed := decide (e.state = 3) }) i
        v.d.nextId [.u b.toNat] [] [h v, if e.state = 3 then 1 else 0]) ∧
    OnSet i h true (fun v e => good v ∧ e.state ≠ 1 ∧ e.state ≠ 3) (fun v e =>
      v.gives (putSet v.d v.k.part ((h v).toNat % 256) { SetEntry.free with gen := e.gen, held := e.held }) (.u b.toNat)
        [(0, [(0xFFFFFFFF, 0)])]) ∧
    -- SSET.NEW, allocating
    BadWords i (fun v => ¬ free v) (fun v => setWords v a) ∧
    (∀ s v c d, s.dev.issuer = some v → Ready i v → ¬ free v → (∀ x ∈ setWords v a, x = true) →
      (readLaunch (v.k.req (v.core / 4) 9 (4096 * v.b + v.n) v.d) v.k.part (setDescAt v a).frag).run' v.d = (.ok c, d) →
      let good : Prop := c.status = none ∧ c.lrec.kind = 2 ∧ c.lrec.repl = false
      (¬ good → exec i s = .next (s.withDev (v.traps i { cause := 0x02, lanes := v.act, info0 := opWord i, info1 := 11 }))) ∧
      (good → v.k.lrec.repl = true → exec i s = .next (s.withDev (v.setFault i 0x19 0 0))) ∧
      (good → v.k.lrec.repl = false → (∀ m < 256, (setAt d v.k.part m).alloc = true) →
        exec i s = .next (s.withDev (v.setFault i 0x17 0 0))) ∧
      (good → v.k.lrec.repl = false → ∀ m < 256, (setAt d v.k.part m).alloc = false → (∀ n < m, (setAt d v.k.part n).alloc = true) →
        let gen := ((setAt d v.k.part m).gen + 1) % 2 ^ 24
        let e : SetEntry := { SetEntry.free with
          alloc := true, gen := gen, desc := setDescAt v a, frag := c.lrec, fragRegions := c.regions, held := (setAt d v.k.part m).held }
        exec i s = .next (s.withDev (v.gives (putSet d v.k.part m e) (.u b.toNat) [(0, [(BitVec.ofNat 32 (m + 256 * gen), 0)])]))))) ∧
  -- SSET.BUILD, SSET.BIND, SSET.QRY
  (∀ a,
    let i : Instr := .ssetBuild a
    let h (v : View) : Word := v.g.uni a.toNat
    SetFaults i h true ∧
    OnSet i h true (fun _ e => e.state = 1 ∨ e.state = 3) (fun v e =>
      v.waitsFor (putSet { v.d with nextId := v.d.nextId + 1 } v.k.part ((h v).toNat % 256) { e with closed := decide (e.state = 3) }) i
        v.d.nextId [] [] [h v, if e.state = 3 then 1 else 0]) ∧
    OnSet i h true (fun _ e => e.state ≠ 1 ∧ e.state ≠ 3) (fun v e => v.completes (putSet v.d v.k.part ((h v).toNat % 256)
      { e with state := 1, chunks := [], depth := 0, excl := 0, stream := [], work := [], closed := false, epoch := 0 }) v.issued)) ∧
  (∀ a,
    let i : Instr := .ssetBind a
    let h (v : View) : Word := v.g.uni a.toNat
    let bound (v : View) : Nat := (v.part.sets.filter (fun x => decide (x.2.state = 3))).length
    SetFaults i h false ∧
    OnSet i h false (fun _ e => e.state = 1) (fun v _ => v.waitsFor { v.d with nextId := v.d.nextId + 1 } i v.d.nextId [] [] [h v]) ∧
    OnSet i h false (fun _ e => e.state = 3) (fun v _ => v.completes v.d v.issued) ∧
    OnSet i h false (fun _ e => e.state = 0 ∨ e.state = 4) (fun v _ => v.setFault i 0x18 (h v) 1) ∧
    OnSet i h false (fun v e => e.state = 2 ∧ 16 ≤ bound v) (fun v _ => v.setFault i 0x17 (h v) 1) ∧
    OnSet i h false (fun v e => e.state = 2 ∧ bound v < 16) (fun v e => v.completes (putSet v.d v.k.part ((h v).toNat % 256)
      { e with state := 3, prims := 0, stream := [], work := [], closed := false, epoch := 0 }) v.issued)) ∧
  (∀ q d a,
    let i : Instr := .ssetQry q d a
    let h (v : View) : Word := v.g.uni a.toNat
    SetFaults i h false ∧
    OnSet i h false (fun _ _ => True) (fun v e =>
      let known (x : Nat) : Nat := if e.state = 2 ∨ e.state = 3 then x else 0
      let x : Nat := match q with
        | .state => e.state
        | .chunks => known (if e.desc.grid then e.desc.w / 8 * (e.desc.h / 8) else e.chunks.length)
        | .depth => known e.depth
        | .excl => known e.excl
      v.gives v.d (v.g.vreg d.toNat) (v.act.lanes.map (fun l => (l, [(BitVec.ofNat 32 x, 0)]))))) ∧
  -- PRIM: 7,680 triangles of a die's buffer serve every block, 8,192 the oldest
  (∀ a b,
    let i : Instr := .prim a b
    let h (v : View) : Word := v.g.uni a.toNat
    let n (v : View) : Nat := v.d.buffered (v.k.home / 32) + (lanesOf v.act).length
    let opens (e : SetEntry) : Prop := e.state = 3 ∧ e.closed = false
    SetFaults i h true ∧
    OnSet i h true (fun _ e => ¬ opens e) (fun v _ => v.setFault i 0x18 (h v) 1) ∧
    OnSet i h true (fun v e => opens e ∧ v.d.released v.b v.n true = false) (fun v _ => v.blocks v.d (.release true)) ∧
    OnSet i h true (fun v e => opens e ∧ v.d.released v.b v.n true = true ∧ 8192 < n v) (fun v _ =>
      { v with g := { v.g with primSince := some (v.g.primSince.getD v.d.cycle) } }.blocks v.d (.prim ((h v).toNat % 256))) ∧
    OnSet i h true (fun v e => opens e ∧ v.d.released v.b v.n true = true ∧ n v ≤ 7680) (fun v e =>
      let tris : List Tri := (lanesOf v.act).map (fun l => ⟨e.epoch, [v.d.seqOf v.k, v.k.lin, v.n, v.d.nextId, l],
        (List.range 10).map (fun j => v.g.word (v.g.vreg (b.toNat + j)) l), v.k.launch, v.k.home / 32⟩)
      v.completes (putSet { v.d with nextId := v.d.nextId + 1 } v.k.part ((h v).toNat % 256)
        { e with stream := e.stream ++ tris }) { v.issued with primSince := none })) ∧
  -- SRES
  (∀ m a b s v, s.dev.issuer = some v → Ready (.sres m a b) v →
    let i : Instr := .sres m a b
    (v.k.lrec.repl = true → exec i s = .next (s.withDev (v.setFault i 0x19 0 0))) ∧
    (v.k.lrec.repl = false → v.k.frag = none → exec i s = .next (s.withDev (v.setFault i 0x18 0 2))) ∧
    (∀ f w, v.k.lrec.repl = false → v.k.frag = some f → (setAt v.d v.k.part f.set).work.find? (fun x => decide (x.id = f.work)) = some w →
      let e := setAt v.d v.k.part f.set
      let sample (l : Nat) : Nat := (v.g.word (v.g.vreg a.toNat) l).toNat
      let bad : Mask := Mask.ofFn (fun l => v.act.getLsbD l && !v.g.helper.getLsbD l && !(f.lanes.contains (some (sample l, true))))
      (bad ≠ 0 → exec i s = .next (s.withDev (v.traps i
        { cause := 0x17, lanes := bad, info0 := BitVec.ofNat 32 (f.set + 256 * e.gen), info1 := 2 }))) ∧
      let res : Held := ⟨v.d.nextId, v.b, w.id, w.chunk, w.prim, m, e.desc, v.storing.map (fun l => (sample l,
        (List.range (colourWords e.desc)).map (fun j => v.g.word (v.g.vreg (b.toNat + j)) l),
        v.g.word (v.g.vreg (b.toNat + colourWords e.desc)) l))⟩
      let here := e.held.filter (fun y => decide (y.chunk = w.chunk))
      let room : Prop := (∀ y ∈ here, w.id < y.work) ∨ here.length ≤ Config.resultRoom
      (bad = 0 → ¬ room → exec i s = .next (s.withDev (v.blocks v.d (.sres f.set w.chunk w.id)))) ∧
      (bad = 0 → room → exec i s = .next (s.withDev (v.completes (putSet { v.d with nextId := v.d.nextId + 1 } v.k.part f.set
        { e with held := e.held ++ [res] }) v.issued))))) ∧
  -- RCLEAR and RDECOMP take their place in the stream
  (∀ i a, i = .rclear a ∨ i = .rdecomp a →
    let h (v : View) : Word := v.g.uni a.toNat
    SetFaults i h true ∧
    OnSet i h true (fun _ e => e.state ≠ 3) (fun v _ => v.waitsFor { v.d with nextId := v.d.nextId + 1 } i v.d.nextId [] [] [h v, 0, 0]) ∧
    OnSet i h true (fun _ e => e.state = 3) (fun v e =>
      v.waitsFor (putSet { v.d with nextId := v.d.nextId + 1 } v.k.part ((h v).toNat % 256) { e with epoch := e.epoch + 1 }) i v.d.nextId [] []
        [h v, BitVec.ofNat 32 (e.epoch + 1), 1])) ∧
  -- TEX and TEXG
  (∀ lod f d a b, TexIssues (.tex lod f d a b) none lod f d a b) ∧ (∀ c d a b, TexIssues (.texg c d a b) (some c.toNat) false .bil d a b)

/-- Builds, triangles, coverage, fragment groups, results, drains and texture lookups (R315, R318, R319, R320, R322, R327, R328, R330,
R334, R335, R336, R337, R338, R340, R344).
The canonical NaN of a result is log 59; that a texture lookup reads its texels when it completes is log 25. -/
def Obligations.SetsAtWork : Prop :=
  -- the contact sheet: every sample that is not excluded lies in one chunk, within its cell, and no chunk has more than L
  (∀ (sd : SetDesc) pos, 1 ≤ sd.l →
    let out (x : Nat × Nat) : Prop := 256 * sd.w ≤ x.1 ∨ 256 * sd.h ≤ x.2
    let cs := (sheet sd pos).1
    (cs.flatMap (·.samples)).Perm ((pos.zipIdx.filter (fun x => !decide (256 * sd.w ≤ x.1.1 ∨ 256 * sd.h ≤ x.1.2))).map (fun x => (x.2, x.1.1, x.1.2))) ∧
    (∀ c ∈ cs, c.samples ≠ [] ∧ c.samples.length ≤ sd.l ∧ ∀ x ∈ c.samples, c.x0 ≤ x.2.1 ∧ x.2.1 < c.x0 + c.size ∧
      c.y0 ≤ x.2.2 ∧ x.2.2 < c.y0 + c.size) ∧
    (sheet sd pos).2.1 ≤ 13 ∧ (sheet sd pos).2.2 = (pos.filter (fun x => decide (256 * sd.w ≤ x.1 ∨ 256 * sd.h ≤ x.2))).length ∧
    ((∀ x ∈ pos, out x) → cs = [])) ∧
  (∀ (s : State) (p : BitVec 3) (i : BitVec 8), s.plat.phase = .running → (setAt s.dev p.toNat i.toNat).state = 1 →
    (∀ (b : Nat) (k : Block) (n : Nat) (g : Group) c, s.dev.blocks[b]? = some k → k.groups[n]? = some g → g.cmd = some c → isSetOp c.instr = false) →
    let e := setAt s.dev p.toNat i.toNat
    (e.desc.grid = true → exec (.ssetBuildComplete p i) s =
      .next (s.withDev (putSet s.dev p.toNat i.toNat { e with state := 2, depth := 2, excl := 0 }))) ∧
    (∀ pos d, e.desc.grid = false → (buildRun (s.dev.buildReq p.toNat i.toNat) e.desc).run' s.dev = (.ok pos, d) → d.blocks = s.dev.blocks →
      setAt d p.toNat i.toNat = e → exec (.ssetBuildComplete p i) s = .next (s.withDev (putSet d p.toNat i.toNat { e with
        state := 2, chunks := (sheet e.desc pos).1, depth := (sheet e.desc pos).2.1, excl := (sheet e.desc pos).2.2 }))) ∧
    (∀ x d, e.desc.grid = false → (buildRun (s.dev.buildReq p.toNat i.toNat) e.desc).run' s.dev = (.error x, d) → x ≠ .later →
      d.blocks = s.dev.blocks → setAt d p.toNat i.toNat = e →
      exec (.ssetBuildComplete p i) s = .next (s.withDev (putSet d p.toNat i.toNat { e with state := 4 })))) ∧
  -- the first triangle of a closed stream
  (∀ (s : State) (p : BitVec 3) (i : BitVec 8) t, s.plat.phase = .running →
    let e := setAt s.dev p.toNat i.toNat
    e.state = 3 → e.closed = true → t ∈ e.stream → (∀ u ∈ e.stream, u ≠ t → t.before u = true ∧ u.before t = false) →
    s.dev.clears p.toNat (BitVec.ofNat 32 (i.toNat + 256 * e.gen)) = [] →
    ∃ (d : Dev) (cs : List Nat), exec (.triangleDistribute p i) s = .next (s.withDev d) ∧
      (∀ c, c ∈ cs ↔ c < e.chunkCount ∧ t.reaches (chunkCell e c)) ∧
      (setAt d p.toNat i.toNat).stream = e.stream.erase t ∧ (setAt d p.toNat i.toNat).prims = e.prims + 1 ∧
      ((setAt d p.toNat i.toNat).work.filter (fun w => decide (s.dev.nextId ≤ w.id))).map (fun w => (w.prim, w.chunk, w.tri, w.tested, w.groups, w.running)) =
        ((e.work.filter (fun w => decide (s.dev.nextId ≤ w.id) && !s.dev.workOver w)).map (fun w => (w.prim, w.chunk, w.tri, w.tested, w.groups, w.running))) ++
          cs.map (fun c => (e.prims, c, t, false, [], []))) ∧
  -- coverage, quads and fragment groups
  (∀ t p, t.covers p = true ↔ coverRule t p) ∧
  (∀ (c : Chunk) t,
    let hit (x : Nat × Nat × Nat) : Bool := t.covers ((x.2.1 : Int), (x.2.2 : Int))
    ((c.groups t).flatten.filterMap (fun x => match x with
      | some (i, true) => some i
      | _ => none)) = (c.samples.filter hit).map (·.1) ∧
    (∀ g ∈ c.groups t, g.length = 32 ∧ ∀ q < 8, (∀ j < 4, g[4 * q + j]? = some none) ∨
      ((∀ j < 4, ∃ y, g[4 * q + j]? = some (some y)) ∧ ∃ j < 4, ∃ y, g[4 * q + j]? = some (some (y, true))))) ∧
  (∀ (s : State) (p : BitVec 3) (i : BitVec 8) w x, s.plat.phase = .running → (setAt s.dev p.toNat i.toNat).work.find? (fun y => decide (y.id = w)) = some x →
    x.tested = false →
    let e := setAt s.dev p.toNat i.toNat
    exec (.coverageTest p i w) s = .next (s.withDev (putSet s.dev p.toNat i.toNat { e with
      work := e.work.map (fun y => if y.id = w then { y with tested := true, groups := (e.chunk x.chunk).groups x.tri } else y) }))) ∧
  (∀ (s : State) (p : BitVec 3) (i : BitVec 8) w core slot x g rest, s.plat.phase = .running →
    let e := setAt s.dev p.toNat i.toNat
    e.work.find? (fun y => decide (y.id = w)) = some x → x.tested = true → x.groups = g :: rest →
    (∀ y ∈ e.work, y.chunk = x.chunk → y.prim < x.prim → y.tested = true ∧ y.groups = []) →
    core / 4 = (s.dev.part p.toNat).ownerOf x.chunk → s.dev.slotFree p.toNat core slot = true →
    ∃ (d : Dev) (k : Block), exec (.fragmentGroupStart p i w core slot) s = .next (s.withDev d) ∧ d.blocks = s.dev.blocks ++ [k] ∧
      k.frag = some ⟨i.toNat, w, g⟩ ∧ k.life = .staging ∧ k.cores = [core] ∧ k.lrec = e.frag ∧ k.part = p.toNat ∧ k.launch = x.tri.launch ∧
      (d.core core).shadow = (s.dev.core core).shadow ++ [(slot, s.dev.blocks.length)] ∧
      setAt d p.toNat i.toNat = { e with work := e.work.map (fun y => if y.id = w then { y with groups := rest, running := y.running ++ [s.dev.blocks.length] } else y) }) ∧
  -- results: blending, the delta modes, and one result of a set
  (∀ m (x y : Word),
    let byte (w : Word) (n : Nat) : Nat := (w.extractLsb' (8 * n) 8).toNat
    ∃ z : Word, blend 0 m [x] [y] = [z] ∧ ∀ n < 4, byte z n = blendByte m (byte x n) (byte y n) (byte x 3)) ∧
  (∀ m (x y : Word), blend 2 m [x] [y] = [BitVec.ofNat 32 (f32.finish .rne false (match m with
    | .add => addExact .rne (f32.read y.toNat) (f32.read x.toNat)
    | .min => minmaxVal false false (f32.read x.toNat) (f32.read y.toNat)
    | .max => minmaxVal true false (f32.read x.toNat) (f32.read y.toNat)
    | _ => ⟨f32.read x.toNat, false⟩)).bits]) ∧
  (∀ (px : List Word) clr, px.length = 64 → unpackTile (packTile px).1 clr (packTile px).2 = px) ∧
  (∀ clr slot, unpackTile 0x80 clr slot = List.replicate 64 clr) ∧
  (∀ (s : State) p i h (k : Block) x, s.plat.phase = .running → s.dev.findHeld h.op = some (p, i, h) → s.dev.blocks[h.blk]? = some k →
    (∀ w ∈ (setAt s.dev p i).work, w.chunk = h.chunk → w.id < h.work → s.dev.over w) →
    (∀ y ∈ (setAt s.dev p i).held, y.chunk = h.chunk → ¬ (y.work < h.work ∨ (y.work = h.work ∧ y.blk = h.blk ∧ y.op < h.op))) →
    h.desc.comp = false → h.items = [x] →
    s.dev.probe (k.req (k.cores.headD 0 / 4) 9 (4096 * h.blk) s.dev) .write h.touches = none →
    let d := s.dev.tryRun (applyPlain (k.req (k.cores.headD 0 / 4) 9 (4096 * h.blk) s.dev) h.desc h.mode x)
    (d.part p).sets = (s.dev.part p).sets → d.blocks = s.dev.blocks → ∃ d' : Dev,
      exec (.sresApply h.op) s = .next (s.withDev d') ∧ d' = { d with parts := d'.parts } ∧
      (setAt d' p i).held = (setAt s.dev p i).held.filter (fun y => decide (y.op ≠ h.op))) ∧
  -- the waits of the set instructions
  (∀ s b n k g c e, MeetsUnit s b n k g c →
    let h := c.unis.getD 0 0
    let i := h.toNat % 256
    let d := s.dev
    e = setAt d k.part i → e.alloc = true → e.gen = h.toNat / 256 →
    let becomes (d' : Dev) : Prop := exec (.streamDrainComplete b n) s = .next (s.withDev d')
    let still : Prop := e.state ≠ 1 ∧ e.state ≠ 3
    let ended : Prop := e.state = 3 ∧ e.closed = true ∧ e.stream = [] ∧ ∀ w ∈ e.work, d.over w
    let fresh : Dev := d.acquire (k.coreOf n) .dev
    let now : Dev := if c.unis.getD 1 0 = 1 then fresh else d
    let freed : SetEntry := { SetEntry.free with gen := e.gen, held := e.held }
    let building : SetEntry := { e with state := 1, chunks := [], depth := 0, excl := 0, stream := [], work := [], closed := false, epoch := 0 }
    (isSetOp c.instr = true → (∀ a, c.instr ≠ .rclear a ∧ c.instr ≠ .rdecomp a) → e.state = 1 → becomes d) ∧
    (∀ a q, c.instr = .ssetNew a q →
      (still → becomes ((putSet now k.part i freed).performed b n c.op id [.u q.toNat] [(0, [(0xFFFFFFFF, 0)])])) ∧
      (ended → becomes ((putSet fresh k.part i freed).performed b n c.op id [.u q.toNat] [(0, [(0xFFFFFFFF, 0)])]))) ∧
    (∀ a, c.instr = .ssetBuild a →
      (still → becomes ((putSet now k.part i building).performed b n c.op id [] [])) ∧
      (ended → becomes ((putSet fresh k.part i building).performed b n c.op id [] []))) ∧
    (∀ a, c.instr = .ssetBind a → e.state = 0 ∨ e.state = 4 →
      becomes (d.refused b n g c { cause := 0x18, lanes := c.act, info0 := h, info1 := 1 })) ∧
    (∀ a, c.instr = .rdecomp a → e.state ≠ 3 → c.unis.getD 2 0 = 0 → e.desc.comp = false → becomes (d.performed b n c.op id [] []))) ∧
  -- a point lookup with a given LOD
  (∀ (s : State) op b n act regs desc lane u w lam k d x (d1 : Dev), s.plat.phase = .running → s.dev.parks = [] →
    let t : TexArgs := ⟨none, true, .point, desc, [(lane, u, w, lam)], d, 0⟩
    let tx := textureOf desc
    s.dev.cmds.find? (fun c => decide (c.op = op)) = some ⟨op, b, n, act, regs, .tex t⟩ → s.dev.blocks[b]? = some k →
    s.dev.predDone b = true → tx.fmt = 0 → tx.tiled = false → tx.wru = 0 → tx.wrv = 0 →
    let num (z : Word) : ℚ := if (f32.read z.toNat).isNumber then (f32.read z.toNat).number else 0
    (f32.read lam.toNat).isNumber →
    let level := (nearest ((max 0 (min (256 * tx.lvl) (nearest (256 * num lam))) : Int) / 256 : ℚ)).toNat
    let wide := max 1 (tx.w / 2 ^ level)
    let high := max 1 (tx.h / 2 ^ level)
    let col : Int := ⌊((nearest (256 * (num u * wide - 1 / 2)) : ℚ) + 128) / 256⌋ % wide
    let row : Int := ⌊((nearest (256 * (num w * high - 1 / 2)) : ℚ) + 128) / 256⌋ % high
    Yields (rdWord (k.req (k.coreOf n / 4) 3 (64 * op) s.dev) (tx.start level + row.toNat * ((4 * wide + 15) / 16 * 16) + 4 * col.toNat)) s.dev (x, 0) d1 →
    d1.parks = [] →
    ∃ ws : List (Word × Nat),
      exec (.texComplete op) s = .next (s.withDev (Dev.settle { d1 with cmds := d1.cmds.map (fun c =>
        if c.op = op then { c with kind := .answer [(lane, ws)] } else c) })) ∧
      ws.length = 4 ∧ ∀ ch < 4,
        let c : ℚ := (x.extractLsb' (8 * ch) 8).toNat / 255
        let y := ws.getD ch (0, 0)
        y.2 = 0 ∧ (f32.read y.1.toNat).isNumber ∧ |(f32.read y.1.toNat).number - c| ≤ c / 2 ^ 24)

/-! ### Launches and blocks -/

/-- Launches: reading a queue, starting, distribution, placement, staging, block start and completion (R27, R28, R31, R37, R39, R40, R307,
R388, R389, R390, R391, R392, R393). A node's binding to its tray is not told here.
What a queue takes from its ring is log 37, what an offer keeps away is log 39, and when a piece of staging is read is log 40. How many blocks
a distributor hands down is left open here (log 85). -/
def Obligations.Launches : Prop :=
  -- what a record that passes the checks before its regions holds
  (∀ d p l, recStatus d p l (recOf l) = none →
    let r := recOf l
    r.kind ≤ 2 ∧ r.ttype ≤ 15 ∧ r.cscr ≤ 288 ∧ r.cshr ≤ 1152 ∧ (r.dl = true ↔ r.deadline ≠ 0) ∧ r.nreg ≤ 16 ∧
    1 ≤ r.extx ∧ 1 ≤ r.exty ∧ 1 ≤ r.extz ∧ r.roles ≠ [] ∧ r.groups ≤ 2048 ∧ (r.roles.map (·.ntile)).sum ≤ 8 ∧
    r.code % 256 = 0 ∧ r.code < 2 ^ 52 ∧ r.codelen % 16 = 0 ∧ r.codelen ≠ 0 ∧
    ∀ x ∈ r.roles, 1 ≤ x.budget ∧ x.budget ≤ 16 ∧ 1 ≤ x.ngrp ∧ x.lpriv % 16 = 0 ∧ x.lpriv ≤ 4096 ∧ x.tshape ≤ 2 ∧
      x.entry % 16 = 0 ∧ x.entry < r.codelen) ∧
  -- a queue that is off, drained or of no partition that holds it reads nothing
  (∀ (s : State) (q : BitVec 8), s.plat.phase = .running → (let x := s.dev.queue q.toNat
      x.en = false ∨ x.head = x.tail ∨ (s.dev.part x.part).active = false ∨ q.toNat ∉ (s.dev.part x.part).cfg.queues) → exec (.queueReadEntry q) s = .next s) ∧
  -- otherwise it reads the entry at HEAD, whose record is checked
  (∀ (s : State) (q : BitVec 8) (e : Option (Nat × Option (Nat × Word))) c d1 d, s.plat.phase = .running → s.dev.parks = [] →
    let x := s.dev.queue q.toNat
    let r := s.dev.queueReq q.toNat
    x.en = true → x.head ≠ x.tail → (s.dev.part x.part).active = true → q.toNat ∈ (s.dev.part x.part).cfg.queues →
    Yields (ringEntry r (x.ring.toNat + 32 * (x.head.toNat % x.size.toNat))) s.dev e d1 →
    (match e with
      | none => d = d1 ∧ c.status = some 0x17
      | some y => Yields (readLaunch r x.part y.1) d1 c d) →
    d.launches = s.dev.launches → d.queues = s.dev.queues → d.parts = s.dev.parts → d.cycle = s.dev.cycle →
    (c.status = none → c.lrec.kind ≠ 1) →
    ∃ (d' : Dev) (l : Launch), exec (.queueReadEntry q) s = .next (s.withDev d') ∧ d'.launches = s.dev.launches ++ [l] ∧
      d'.queue q.toNat = { x with head := x.head + 1 } ∧
      l.queue = q.toNat ∧ l.entry = x.head.toNat ∧ l.seq = (s.dev.part x.part).accepted ∧ l.status = c.status ∧
      l.arrival = s.dev.cycle ∧ l.started = false ∧ l.completed = false ∧ l.part = x.part ∧ l.dep = e.bind (·.2) ∧
      (d'.part x.part).accepted = (s.dev.part x.part).accepted + (if c.status = none then 1 else 0)) ∧
  -- a launch starts: its dependence holds, and nothing goes before it
  (∀ (s : State) (i : Nat) (l : Launch), s.plat.phase = .running → s.dev.launches[i]? = some l → s.dev.alone i → l.started = false → l.status = none →
    (s.dev.queue l.queue).en = true →
    let blocks := l.lrec.extx * l.lrec.exty * l.lrec.extz
    let holds : Prop := ∀ q n, l.dep = some (q, n) → 0 ≤ ((s.dev.queue q).done - n).toInt
    (¬ holds → exec (.launchStart i) s = .next s) ∧
    (holds → exec (.launchStart i) s = .next (s.withDev (s.dev.modLaunch i (fun l => { l with
      started := true, ranges := if l.lrec.kind = 1 then [] else [(66, 0, blocks)] }))))) ∧
  (∀ (s : State) (i j : Nat) (l x : Launch), s.plat.phase = .running → s.dev.launches[i]? = some l → s.dev.launches[j]? = some x →
    s.dev.startable x = true → l.lrec.pcls < x.lrec.pcls → exec (.launchStart i) s = .next s) ∧
  -- a distributor that has placed its range is handed part of its parent's
  (∀ (s : State) (i child : Nat) (l : Launch) lo hi, s.plat.phase = .running → s.dev.launches[i]? = some l → isNode (s.dev.part l.part).cfg child →
    (∀ r ∈ l.ranges, ¬ under r.1 child) → l.ranges.find? (fun r => decide (r.1 = above child)) = some (above child, lo, hi) → lo < hi → l.ranges.Nodup →
    ∃ (l' : Launch) (n : Nat), exec (.distributeBlocks i child) s = .next (s.withDev (s.dev.modLaunch i (fun _ => l'))) ∧ 1 ≤ n ∧ lo + n ≤ hi ∧
      l' = { l with ranges := l'.ranges } ∧ l'.ranges.Perm ((child, lo, lo + n) ::
        ((if lo + n < hi then [(above child, lo + n, hi)] else []) ++ l.ranges.erase (above child, lo, hi)))) ∧
  -- and, where its parent has none, takes half of what the sibling with the most has left
  (∀ (s : State) (i child : Nat) (l : Launch), s.plat.phase = .running → s.dev.launches[i]? = some l → isNode (s.dev.part l.part).cfg child →
    (∀ r ∈ l.ranges, ¬ under r.1 child ∧ r.1 ≠ above child ∧ r.2.1 < r.2.2) →
    let left (x : Launch) (c : Nat) : Nat := ((x.ranges.filter (fun r => decide (under r.1 c))).map (fun r => r.2.2 - r.2.1)).sum
    let sib (c : Nat) : Prop := c ≠ child ∧ isNode (s.dev.part l.part).cfg c ∧ above c = above child
    ((∀ c, sib c → left l c = 0) → exec (.distributeBlocks i child) s = .next s) ∧
    (∀ c, sib c → 0 < left l c → ∃ (l' : Launch) (m : Nat), exec (.distributeBlocks i child) s = .next (s.withDev (s.dev.modLaunch i (fun _ => l'))) ∧
      l' = { l with ranges := l'.ranges } ∧ sib m ∧ (∀ x, sib x → left l x ≤ left l m) ∧ (∀ x, l'.owes x ↔ l.owes x) ∧
      left l' child = max 1 (left l m / 2) ∧ left l' m + left l' child = left l m ∧
      ∀ r, ¬ under r.1 m → r.1 ≠ child → (r ∈ l'.ranges ↔ r ∈ l.ranges))) ∧
  -- first fit
  (∀ used lim n,
    let free (u : Nat) : Prop := u + n ≤ lim ∧ ∀ x ∈ used, ¬ (u < x.1 + x.2 ∧ x.1 < u + n)
    match fitRange used lim n with
    | some u => free u ∧ ∀ w < u, ¬ free w
    | none => ∀ w, ¬ free w) ∧
  -- the next block of a cluster's range
  (∀ (s : State) (i clu : Nat) (cores : List Nat) (l : Launch) lo hi, s.plat.phase = .running → s.dev.launches[i]? = some l → l.lrec.kind = 0 → l.requeued = [] →
    cores.headD 0 / 4 = clu → MayPlace s.dev i lo l.part l.lrec cores →
    l.ranges.find? (fun r => decide (r.1 = clu)) = some (clu, lo, hi) → lo < hi →
    (∀ r ∈ l.ranges, r ≠ (clu, lo, hi) → ¬ (r.2.1 ≤ lo ∧ lo < r.2.2)) →
    (∀ fits ts d1, (s.dev.freed i lo).fitCores l.part l.lrec cores = some fits →
      (s.dev.freed i lo).acquireTiles clu s.dev.blocks.length l.lrec.tileShapes = some (ts, d1) →
      ∃ (d : Dev) (k : Block) (l' : Launch), exec (.blockPlace i clu cores) s = .next (s.withDev d) ∧
        Admitted s.dev d i l.part l.lrec cores fits k ∧ k.lin = lo ∧ k.nrepl = 0 ∧ k.batch = none ∧ d.tiles = d1.tiles ∧
        k.x = lo % l.lrec.extx ∧ k.y = lo / l.lrec.extx % l.lrec.exty ∧ k.z = lo / (l.lrec.extx * l.lrec.exty) ∧
        d.launches[i]? = some l' ∧ ∀ x, l'.owes x ↔ l.owes x ∧ x ≠ lo) ∧
    ((s.dev.freed i lo).fitCores l.part l.lrec cores = none ∨ (s.dev.freed i lo).acquireTiles clu s.dev.blocks.length l.lrec.tileShapes = none →
      ∃ d : Dev, exec (.blockPlace i clu cores) s = .next (s.withDev d) ∧ d.blocks = s.dev.blocks ∧ d.launches = s.dev.launches ∧
      ∀ j c, cores[j]? = some c → WaitsAt s.dev d i lo l.part l.lrec cores.length c j)) ∧
  -- another block that waits at a core goes first
  (∀ (s : State) (i clu : Nat) (cores : List Nat) (l : Launch) c o, s.plat.phase = .running → s.dev.launches[i]? = some l → c ∈ cores →
    (s.dev.core c).offer = some o →
    o.launch ≠ i ∨ (l.requeued = [] ∧ ∃ lo hi, l.ranges.find? (fun r => decide (r.1 = clu)) = some (clu, lo, hi) ∧ o.lin ≠ lo) →
    exec (.blockPlace i clu cores) s = .next s) ∧
  (∀ core o, Happens (.drainMarkTimeout core) (fun d => (d.core core).offer = none) id ∧
    Happens (.drainMarkTimeout core) (fun d => (d.core core).offer = some o ∧ d.cycle < o.since + 4096) id ∧
    Happens (.drainMarkTimeout core) (fun d => (d.core core).offer = some o ∧ o.since + 4096 ≤ d.cycle)
      (fun d => d.putCore core { d.core core with mark := true, offer := some { o with held := [] } })) ∧
  -- the next batch of a node, which stands in the core scratch of every core of its block
  (∀ (s : State) (i clu : Nat) (cores : List Nat) (l : Launch) x rest fits ts d1, s.plat.phase = .running → s.dev.launches[i]? = some l → l.lrec.kind = 1 →
    l.started = true → l.requeued = [] → l.batches = x :: rest → cores.headD 0 / 4 = clu → MayPlace s.dev i x.no l.part l.lrec cores →
    (s.dev.freed i x.no).fitCores l.part l.lrec cores = some fits →
    (s.dev.freed i x.no).acquireTiles clu s.dev.blocks.length l.lrec.tileShapes = some (ts, d1) →
    let w := recWords ((l.lrec.ntray.extractLsb' 0 2).toNat)
    x.recs.length < 2 ^ 12 → (∀ y ∈ x.recs, y.words.length = w) →
    ∃ (d : Dev) (k : Block), exec (.nodeBlockStart i clu cores) s = .next (s.withDev d) ∧
      Admitted s.dev d i l.part l.lrec cores fits k ∧ k.lin = x.no ∧ k.x = x.no % 2 ^ 32 ∧ k.y = 0 ∧ k.z = 0 ∧ k.batch = some x ∧
      d.launches[i]? = some { l with batches := rest } ∧
      ∀ pos < cores.length,
        let at_ (a : Nat) : Word × Nat := d.homeWord (.core s.dev.blocks.length pos) a
        at_ 0 = (BitVec.ofNat 32 x.recs.length, 0) ∧ (∀ j < 15, at_ (4 + 4 * j) = (0, 0)) ∧
        ∀ j (y : Rec) n, x.recs[j]? = some y → n < w → y.words[n]? = some (at_ (64 + 4 * w * j + 4 * n))) ∧
  -- the next block of a task launch, in a free slot
  (∀ (s : State) (i core slot : Nat) (l : Launch) r rest, s.plat.phase = .running → s.dev.launches[i]? = some l → l.lrec.kind = 2 → l.requeued = [] →
    l.ranges = r :: rest →
    let free : Prop := slot < 4 ∧ core < 256 ∧ core / 4 ∈ (s.dev.part l.part).cfg.clusters ∧ s.dev.resident core < 64 ∧
      ∀ y ∈ (s.dev.core core).shadow, y.1 ≠ slot
    (¬ free → exec (.taskStart i core slot) s = .next s) ∧
    (free → ∃ (d : Dev) (k : Block), exec (.taskStart i core slot) s = .next (s.withDev d) ∧ d.blocks = s.dev.blocks ++ [k] ∧
      k.launch = i ∧ k.lin = r.2.1 ∧ k.cores = [core] ∧ k.slot = some (core, slot) ∧ k.life = .staging ∧ k.lrec = l.lrec ∧
      (d.core core).shadow = (s.dev.core core).shadow ++ [(slot, s.dev.blocks.length)] ∧
      d.launches[i]? = some { l with ranges := if r.2.1 + 1 < r.2.2 then (r.1, r.2.1 + 1, r.2.2) :: rest else rest })) ∧
  -- a block that an error struck starts on another core where the partition has one
  (∀ (s : State) (i core slot : Nat) (l : Launch) (r : Requeue), s.plat.phase = .running → s.dev.launches[i]? = some l → l.lrec.kind = 2 →
    l.requeued = [r] → l.ranges = [] → r.hold = none →
    let owned (c : Nat) : Prop := c < 256 ∧ c / 4 ∈ (s.dev.part l.part).cfg.clusters
    (core ∈ r.avoid → (∃ c, owned c ∧ c ∉ r.avoid) → exec (.taskStart i core slot) s = .next s) ∧
    (core ∉ r.avoid → owned core → slot < 4 → s.dev.resident core < 64 → (∀ y ∈ (s.dev.core core).shadow, y.1 ≠ slot) →
      ∃ (d : Dev) (k : Block), exec (.taskStart i core slot) s = .next (s.withDev d) ∧ d.blocks = s.dev.blocks ++ [k] ∧
        k.launch = i ∧ k.lin = r.lin ∧ k.nrepl = r.nrepl ∧ k.cores = [core] ∧ k.slot = some (core, slot) ∧ k.life = .staging ∧ k.lrec = r.lrec ∧
        d.launches[i]? = some { l with requeued := [] })) ∧
  -- staging: an out region is skipped, and a zero region zeroed
  (∀ d b k x o w sp, sp ∈ Block.stageInto k b x → isWin sp o = false → o % 4 = 0 → (∀ j < 4, Dev.backs d sp (o + j)) → (d.stagePut b k x o w).homeWord sp o = w) ∧
  (∀ (s : State) (b : Nat) (k : Block) (x : Region), s.plat.phase = .running → s.dev.blocks[b]? = some k → k.life = .staging → k.pred = none →
    k.regions[k.staged]? = some x →
    let restored : Prop := x.dir = 1 ∧ x.level = 2 ∧ k.lrec.repl = true ∧ k.noReplay = false
    (x.dir = 1 → ¬ restored → exec (.stagingReadComplete b) s =
      .next (s.withDev (s.dev.modBlock b (fun k => { k with staged := k.staged + 1 })))) ∧
    (x.dir = 3 ∨ restored → x.twoD = false → x.len % 4 = 0 → x.off % 4 = 0 → x.off + x.len ≤ 2 ^ 20 →
      ∃ (d : Dev) (k' : Block), exec (.stagingReadComplete b) s = .next (s.withDev d) ∧ d.blocks[b]? = some k' ∧ k'.staged = k.staged + 1 ∧
        k'.life = .staging ∧ ∀ sp ∈ k.stageInto b x, ∀ j < x.len / 4, (match sp with
          | .core _ pos => pos < k.core.length
          | .clu _ c => c < k.clu.length
          | _ => True) → d.homeWord sp (x.off + 4 * j) = (0, 0))) ∧
  -- a piece of any other region is read and written word by word, to the next page or the region's end; poison ends the block
  (∀ (s : State) (b : Nat) (k : Block) (x : Region) (m : Nat) (h g : Nat → Dev) (w : Nat → Word × Nat), s.plat.phase = .running →
    s.dev.blocks[b]? = some k → k.life = .staging → s.dev.predDone b = true → k.regions[k.staged]? = some x → k.stageSnap = none →
    x.dir ≠ 1 → x.dir ≠ 3 → x.twoD = false → x.hnd = false → h 0 = s.dev → 0 < m → k.stageAt + m ≤ x.len / 4 →
    let at_ (j : Nat) : Nat := 4 * (k.stageAt + j)
    let reads (j : Nat) : Prop := ∃ kj, (h j).blocks[b]? = some kj ∧ (g j).blocks = (h j).blocks ∧
      (rdWordAt (kj.req kj.home 1 (4096 * b + 4095) (h j)) (x.src + at_ j)).run' (h j) = (.ok (w j), g j) ∧
      ((w j).2 = 0 → h (j + 1) = ((g j).stagePut b kj x (x.off + at_ j) (w j)).modBlock b (fun k => { k with stageAt := k.stageAt + 1 }))
    (∀ j < m, reads j) → (∀ j < m, 0 < j → 4 ≤ (x.src + at_ j) % 65536) →
    ((∀ j < m, (w j).2 = 0) → k.stageAt + m < x.len / 4 → (x.src + at_ m) % 65536 < 4 →
      exec (.stagingReadComplete b) s = .next (s.withDev (h m))) ∧
    ((∀ j < m, (w j).2 = 0) → k.stageAt + m = x.len / 4 → exec (.stagingReadComplete b) s = .next (s.withDev ((h m).modBlock b
      (fun k => { k with staged := k.staged + 1, stageAt := 0, stageSnap := none })))) ∧
    (∀ j < m, (∀ i < j, (w i).2 = 0) → (w j).2 ≠ 0 → exec (.stagingReadComplete b) s = .next (s.withDev ((g j).endBlock b ⟨2, 0, 0⟩)))) ∧
  -- a staged block starts: all its groups at once
  (∀ (s : State) (b : Nat) (k : Block), s.plat.phase = .running → s.dev.blocks[b]? = some k → k.life = .staging → k.slot = none → k.frag = none → k.groups = [] →
    (k.staged < k.regions.length → exec (.blockStart b) s = .next s) ∧
    (k.regions.length ≤ k.staged → ∃ (d : Dev) (k' : Block), exec (.blockStart b) s = .next (s.withDev d) ∧ d.blocks[b]? = some k' ∧
      k'.life = .running ∧ k'.cores = k.cores ∧ k'.lrec = k.lrec ∧ k'.core = k.core ∧ k'.groups.length = k.lrec.groups ∧
      ∀ (n : Nat) (g : Group), k'.groups[n]? = some g → ∃ o, k.lrec.roles[g.role]? = some o ∧ g.idx < o.ngrp ∧
        n = ((k.lrec.roles.take g.role).map (·.ngrp)).sum + g.idx ∧ g.budget = o.budget ∧ g.live = 0xFFFFFFFF ∧
        g.active = 0xFFFFFFFF ∧ g.head.pc = o.entry ∧ g.frontier.length = 1 ∧ g.levelH = false ∧ g.flights = [] ∧
        (∀ i, g.uni i = FMap.get 0 k.lrec.consts i) ∧ (∀ r l, g.word (.v r) l = 0) ∧ (∀ p < 7, g.pred p = 0) ∧ g.gfl = 0 ∧
        g.gcr = k.lrec.gcr ∧ (∀ a, Memory.read g.lp a = 0) ∧ ∀ j, FMap.get 0 g.jE j = 0 ∧ FMap.get 0 g.jA j = 0)) ∧
  -- a launch completes: the record is written, then QDONE rises
  (∀ (s : State) (i : Nat) (l : Launch), s.plat.phase = .running → s.dev.launches[i]? = some l →
    (l.completed = true → exec (.launchComplete i) s = .next s) ∧
    (l.status = none → l.started = false ∨ l.ranges ≠ [] ∨ l.requeued ≠ [] ∨ l.batches ≠ [] ∨
      (∃ k ∈ s.dev.blocks, k.launch = i ∧ k.frag = none ∧ k.life ≠ .done ∧ k.life ≠ .ended ∧ k.life ≠ .replaying) →
      exec (.launchComplete i) s = .next s) ∧
    (∀ (h : Nat → Dev),
      let q := s.dev.queue l.queue
      let r := { s.dev.queueReq l.queue with part := l.part, seq := l.seq }
      let a := q.cpl.toNat + 16 * (l.entry % max q.size.toNat 1)
      l.completed = false → s.dev.launchOver i l = true → s.dev.probe r .write [a] = none → h 0 = s.dev →
      (∀ n < 4, (wrWordAt r (a + 4 * n) ((recordOf l).getD n 0, 0)).run (h n) = (.ok (), h (n + 1))) →
      (h 4).launches = s.dev.launches → (h 4).queues = s.dev.queues → (h 4).parks = [] →
      q.done.toNat = l.entry → q.done ≠ q.head →
      (∀ x ∈ s.dev.launches, x.queue = l.queue → x.entry = (q.done + 1).toNat → x.completed = false) →
      ∃ d : Dev, exec (.launchComplete i) s = .next (s.withDev d) ∧ d.launches[i]? = some { l with completed := true } ∧
        d.queue l.queue = { q with done := q.done + 1 } ∧ d = { h 4 with launches := d.launches, queues := d.queues }))

/-- Issue slots, and the deferred traps that are taken where a group wins one (R56, R90, R179, R348, R361). Told of groups that are ready, hold a
slot, have exited or wait for a unit. That a deferred trap waits for the header which R179's choice needs is log 94. -/
def Obligations.IssueSlots : Prop :=
  ∀ (s : State) (core slot b n : Nat) (k : Block) (g : Group), s.plat.phase = .running → s.dev.on core b n k g → k.calm → k.preempt = false ∨ g.levelH = true →
    g.exited = false → g.slot = none → g.why = .ready → slot < 4 →
    let now := s.dev.cycle
    let claim (c : Block) (x : Group) : Nat × Nat := (s.dev.classOf c, x.since now)
    let other (c m : Nat) (j : Block) (x : Group) : Prop := ¬ (c = b ∧ m = n) ∧ s.dev.on core c m j x
    let ready (j : Block) (x : Group) : Prop := (j.preempt = false ∨ x.levelH = true) ∧ x.exited = false ∧ x.slot = none ∧ x.why = .ready
    let free : Prop := ∀ c m j x, s.dev.on core c m j x → x.slot ≠ some slot
    let first : Prop := ∀ c m j x, other c m j x → (ready j x ∧ ¬ goesFirst now (claim j x) (claim k g)) ∨
      (j.preempt = true ∧ x.levelH = false) ∨ x.exited = true ∨ x.slot ≠ none ∨ x.why = .unit
    (free → first → g.levelH = true ∨ g.pend = [] → ∃ d : Dev, exec (.issueSlotArbitration core slot b n) s = .next (s.withDev d) ∧
      d.group b n = some { g with slot := some slot, sel := false, readyAt := none }) ∧
    (∀ t seg len pc, free → first → g.levelH = false → g.pend = [t] → t.cause ≠ 0x0D → s.dev.trapEntry k.part t.cause = some (seg, len) →
      s.dev.resumePc k g = .ok pc →
      ∃ (d : Dev) (g' : Group), exec (.issueSlotArbitration core slot b n) s = .next (s.withDev d) ∧ d.group b n = some g' ∧
        g'.levelH = true ∧ g'.head.pc = 0 ∧ g'.hseg = seg ∧ g'.hlen = len ∧ g'.saved = g.frontier ∧ g'.pend = [] ∧
        g'.trap.cause = BitVec.ofNat 32 (t.cause % 256 + 256 + 1024 * (t.origin % 4)) ∧ g'.trap.lanes = g.live ∧ g'.trap.pc = BitVec.ofNat 32 pc ∧
        g'.trap.info0 = t.info0 ∧ g'.trap.info1 = t.info1 ∧ g'.trap.info2 = t.info2) ∧
    (∀ t pc, free → first → g.levelH = false → g.pend = [t] → s.dev.resumePc k g = .error pc →
      ∃ (d : Dev) (g' : Group), exec (.issueSlotArbitration core slot b n) s = .next (s.withDev d) ∧ d.group b n = some g' ∧
        g'.slot = none ∧ g'.why = .cond (.code (k.codeBase g + pc)) ∧ g'.pend = g.pend ∧ g'.levelH = false) ∧
    ((∃ c m j x, other c m j x ∧ ready j x ∧ goesFirst now (claim j x) (claim k g)) ∨
      (∃ c m j x, s.dev.on core c m j x ∧ x.slot = some slot) →
      ∃ (d : Dev) (g' : Group), exec (.issueSlotArbitration core slot b n) s = .next (s.withDev d) ∧ d.group b n = some g' ∧ g'.slot = none)

/-- ADV and the successor (R49, R50, R51, R52, R199). The successor is told of blocks that own no tiles.
What ADV waits for is log 51. -/
def Obligations.Successors : Prop :=
  -- while a lane of the group, or another group, is elsewhere, the entry waits at ADV
  (∀ a b s v, s.dev.issuer = some v → Ready (.adv a b) v → v.k.life = .running → v.g.live ≠ 0 → v.g.active ≠ 0 → v.g.apart →
    let o : AdvOps := ⟨(v.g.uni a.toNat).toNat + 2 ^ 32 * (v.g.uni (a.toNat + 1)).toNat, v.g.uni b.toNat, v.g.uni (b.toNat + 1)⟩
    let es : List Entry := { v.issued.head with susp := .coll .adv (some o) } :: v.g.frontier.tail
    let g0 : Group := { v.issued with frontier := es, sel := false }
    let d0 := v.d.putGroup v.b v.n g0
    (¬ v.allThere .adv → ∃ (d : Dev) (g' : Group), exec (.adv a b) s = .next (s.withDev d) ∧ d.group v.b v.n = some g' ∧ g'.frontier = es) ∧
    -- the last group arrives, with one record for all
    (∀ c d1, v.g.frontier.tail = [] → v.g.active = v.g.live → v.k.completePhases = v.k → (∀ m g, m ≠ v.n → v.k.groups[m]? = some g → g.live = 0#32) →
      v.d.released v.b v.n true = true →
      (readLaunch (v.k.req v.k.home 1 (4096 * v.b + 4093) d0) v.k.part o.record).run' d0 = (.ok c, d1) → d1 = { d1 with blocks := d0.blocks } →
      ((∀ x ∈ advWrong d1 v.b v.k o c, ¬ x.2) → ∃ (d : Dev) (k' : Block), exec (.adv a b) s = .next (s.withDev d) ∧
        d.blocks[v.b]? = some k' ∧ k'.life = .advancing ∧ k'.succ = some c.lrec ∧ k'.succRegions = c.regions ∧ k'.advOps = some o) ∧
      (∀ n x seg len, (n, x) ∈ advWrong d1 v.b v.k o c → x → (∀ y ∈ advWrong d1 v.b v.k o c, y.1 < n → ¬ y.2) →
        v.g.levelH = false → d1.trapEntry v.k.part 0x10 = some (seg, len) →
        ∃ (d : Dev) (k' : Block) (g' : Group), exec (.adv a b) s = .next (s.withDev d) ∧ d.blocks[v.b]? = some k' ∧ k'.life = .running ∧
          k'.groups[v.n]? = some g' ∧ g'.levelH = true ∧ g'.trap.cause = 0x10 ∧ g'.trap.info0 = BitVec.ofNat 32 n ∧
          g'.trap.lanes = v.g.live ∧ g'.trap.pc = BitVec.ofNat 32 v.g.head.pc))) ∧
  -- once everything is settled, the successor takes the block's place, and the predecessor goes on to apply its regions
  (∀ (s : State) (b : Nat) (k : Block) (r : LRecord) (o : AdvOps), s.plat.phase = .running → s.dev.blocks[b]? = some k →
    k.life = .advancing → k.succ = some r → k.advOps = some o → k.tiles = List.replicate 8 none → r.tileShapes = [] → k.scrub = [] →
    o.w0.extractLsb' 0 8 = 0 →
    let d := s.dev
    let vec := 8 * (o.w0.extractLsb' 8 5).toNat
    let uni := 8 * (o.w0.extractLsb' 13 5).toNat
    let scr := 4096 * (o.w0.extractLsb' 18 9).toNat
    let mine (x : Nat) : Prop := x = b
    let open_ : Prop := (∃ x ∈ d.stores, mine x.blk) ∨ (∃ x ∈ d.atoms, mine x.blk) ∨
      ∃ c < 8, o.w1.getLsbD c = false ∧ (k.chans.getD c Channel.init).cmds ≠ []
    (open_ → exec (.advSuccessorStart b) s = .next s) ∧
    (¬ open_ → ∃ (d' : Dev) (k' p : Block), exec (.advSuccessorStart b) s = .next (s.withDev d') ∧
      d'.blocks.length = d.blocks.length + 1 ∧ d'.blocks[b]? = some k' ∧ d'.blocks[d.blocks.length]? = some p ∧
      p.life = .applying ∧ p.regions = k.regions ∧ p.lrec = k.lrec ∧
      p.captured.map (·.region) = k.regions.filter (fun x => decide (x.dir = 1 ∨ x.dir = 2)) ∧
      k'.life = (if k.succRegions = [] then .running else .staging) ∧ k'.lrec = r ∧ k'.regions = k.succRegions ∧
      k'.cores = k.cores ∧ k'.slot = k.slot ∧ k'.launch = k.launch ∧ k'.lin = k.lin ∧ (k'.x, k'.y, k'.z) = (k.x, k.y, k.z) ∧
      (∀ x ∈ d'.loads, x.blk = b → ∃ y ∈ d.loads, y.blk = b ∧ x.op = y.op ∧ x.regs = y.regs ∧ x.vals ≠ none) ∧
      k'.pred = some d.blocks.length ∧ (k'.noReplay = true ↔ o.w0 ≠ 0 ∨ o.w1 ≠ 0) ∧ k'.groups.length = r.groups ∧
      (∀ pos a, Memory.read (k'.core.getD pos []) a = if a < scr then Memory.read (k.core.getD pos []) a else 0) ∧
      (∀ c a, Memory.read (k'.clu.getD c []) a = if o.w0.getLsbD 27 then Memory.read (k.clu.getD c []) a else 0) ∧
      (∀ c < 8, k'.chans.getD c Channel.init = if o.w1.getLsbD c then k.chans.getD c Channel.init else Channel.init) ∧
      ∀ (n : Nat) (g : Group), k'.groups[n]? = some g → ∃ x, r.roles[g.role]? = some x ∧ g.idx < x.ngrp ∧
        n = ((r.roles.take g.role).map (·.ngrp)).sum + g.idx ∧ g.head.pc = x.entry ∧ g.active = 0xFFFFFFFF ∧ g.live = 0xFFFFFFFF ∧
        g.levelH = false ∧ (∀ q < 7, g.pred q = 0) ∧ (∀ a, Memory.read g.lp a = 0) ∧
        ∀ old, k.groups.find? (fun y => decide (y.role = g.role ∧ y.idx = g.idx)) = some old →
          (∀ j < 128, g.empty (.v j) = (decide (j < vec) && old.empty (.v j))) ∧
          g.gfl = old.gfl ∧ g.gcr = r.gcr ||| (old.gcr &&& 0x3E0) ∧ g.pend = old.pend ∧
          (∀ j < 128, ∀ l < 32, g.word (.v j) l = if j < vec then old.word (.v j) l else 0) ∧
          (∀ j, g.uni j = if j < uni then old.uni j else FMap.get 0 r.consts j)))

/-- Retirement, commit, errors, pre-emption and restoring (R23, R42, R43, R44, R46, R47, R82, R327, R367, R368, R369). Restoring is told of a block
without tiles and without a reserve.
Where the saved state lies is log 48, what retirement waits for is logs 47 and 86, that a replayable block stops at run boundaries before it is
replayed is log 95, and that a block which an error struck keeps away from its cores alone is log 96. -/
def Obligations.BlockLife : Prop :=
  -- capture waits for the block's work
  (∀ (s : State) (b : Nat) (k : Block), s.plat.phase = .running → s.dev.blocks[b]? = some k → k.life = .retiring →
    (¬ WorkDone s.dev b k → exec (.blockCapture b) s = .next s) ∧
    (WorkDone s.dev b k → ∃ (d : Dev) (k' : Block), exec (.blockCapture b) s = .next (s.withDev d) ∧ d.blocks[b]? = some k' ∧
      k'.life = .capturing ∧ k'.captured.map (·.region) = k.regions.filter (fun x => decide (x.dir = 1 ∨ x.dir = 2)) ∧
      (∀ c ∈ k'.captured, c.region.twoD = false → ∀ j < c.region.len / 4, c.words[j]? = some (s.dev.homeWord
        (if c.region.level = 0 then .core b 0 else if c.region.level = 1 then .clu b 0 else .chip k.part) (c.region.off + 4 * j))) ∧
      ∀ t ∈ d.tiles, t.blk = b → t.released = true)) ∧
  (∀ (s : State) (b : Nat) (k : Block), s.plat.phase = .running → s.dev.blocks[b]? = some k → k.life = .capturing →
    ∃ (d : Dev) (k' : Block), exec (.commitPoint b) s = .next (s.withDev d) ∧ d.blocks[b]? = some k' ∧ k'.life = .applying ∧
      k'.captured = k.captured ∧ Freed d b) ∧
  -- a piece of the captured words is written, word by word, to the next page or the end; one that fails is dropped, and the block then
  -- ends with COMMIT_FAULT
  (∀ (s : State) (b : Nat) (k : Block) (m : Nat) (h g : Nat → Dev), s.plat.phase = .running → s.dev.blocks[b]? = some k → k.life = .applying →
    let r := k.req k.home 1 (4096 * b + 4094) s.dev
    let all : List (Nat × Word × Nat) := k.captured.flatMap (fun c => (c.region.wordOffs.zip c.words).map (fun y => (c.region.src + y.1.1, y.2)))
    let nth_ (j : Nat) : Nat × Word × Nat := all.getD (k.applied + j) (0, 0, 0)
    let ends (j : Nat) : Prop := (nth_ j).1 ≠ (nth_ (j - 1)).1 + 4 ∨ (nth_ j).1 % 65536 < 4
    let ended (d : Dev) (e : Ending) : Dev := d.modBlock b (fun k => { k with life := .done, captured := [], applied := 0, ending := some e })
    h 0 = s.dev → k.applied + m ≤ all.length → (m = 0 → all = []) →
    (∀ j < m,
      ((wrWordAt r (nth_ j).1 (nth_ j).2).run' (h j) = (.ok (), g j) ∧
        h (j + 1) = (g j).modBlock b (fun k => { k with applied := k.applied + 1 })) ∨
      (∃ x, x ≠ .later ∧ (wrWordAt r (nth_ j).1 (nth_ j).2).run' (h j) = (.error x, g j) ∧
        h (j + 1) = (g j).modBlock b (fun k => { k with applied := k.applied + 1, failed := true }))) →
    (∀ j < m, 0 < j → ¬ ends j) → ∀ k', (h m).blocks[b]? = some k' →
    (k.applied + m < all.length → ends m → exec (.commitApplyDone b) s = .next (s.withDev (h m))) ∧
    (k.applied + m = all.length → k'.failed = false → exec (.commitApplyDone b) s = .next (s.withDev (ended (h m) ⟨0, 0, 0⟩))) ∧
    (k.applied + m = all.length → k'.failed = true → k'.frag = none → exec (.commitApplyDone b) s =
      .next (s.withDev ((ended (h m) ⟨4, 0, 0⟩).modLaunch k'.launch (fun l => l.note k'.lin ⟨4, 0, 0⟩))))) ∧
  -- an uncorrectable error or a core fault, before the commit point and after it
  (∀ (s : State) (b : Nat) (k : Block) i, i = .softError b ∨ i = .coreFault b → s.plat.phase = .running → s.dev.blocks[b]? = some k →
    let struck : Prop := k.life = .staging ∨ k.life = .running ∨ k.life = .retiring ∨ k.life = .capturing ∨ k.life = .advancing
    let again : Prop := k.lrec.repl = true ∧ k.noReplay = false
    (¬ struck → exec i s = .next s) ∧
    (struck → again → k.nrepl < 7 → ∃ d : Dev, exec i s = .next (s.withDev d) ∧ Replayed s.dev d b k k.cores) ∧
    (struck → again → 7 ≤ k.nrepl → ∃ d : Dev, exec i s = .next (s.withDev d) ∧ Ended s.dev d b k ⟨3, 0, 0⟩) ∧
    (struck → ¬ again → ∃ d : Dev, exec i s = .next (s.withDev d) ∧ Ended s.dev d b k ⟨1, 0, 0⟩)) ∧
  (∀ p : BitVec 3, Happens (.correctedError p) (fun d => (d.part p.toNat).active = true)
    (fun d => d.modPart p.toNat (fun x => { x with eccc := x.eccc + 1 })) ∧
    Happens (.correctedError p) (fun d => (d.part p.toNat).active = false) id) ∧
  -- pre-emption: of a block that a queue with DL = 1 needs the cores of, or one blocked in PRIM too long
  (∀ (s : State) (b : Nat) (k : Block) i, s.plat.phase = .running → s.dev.blocks[b]? = some k →
    let never : Prop := k.life ≠ .running ∨ k.slot ≠ none ∨ k.frag ≠ none ∨ (∃ g ∈ k.groups, g.levelH = true)
    let again : Prop := k.lrec.repl = true ∧ k.noReplay = false
    let wanted : Prop := k.preempt = true ∨ ∃ l ∈ s.dev.launches, l.lrec.dl = true ∧ l.started = true ∧ l.completed = false ∧
      (l.ranges ≠ [] ∨ l.requeued ≠ [] ∨ l.batches ≠ []) ∧ l.part = k.part ∧ s.dev.classOf k < l.lrec.pcls
    let stalled : Prop := ∃ g ∈ k.groups, ∃ set t, g.why = .cond (.prim set) ∧ g.primSince = some t ∧ t + 65536 ≤ s.dev.cycle ∧
      ∃ x ∈ s.dev.launches, x.part = k.part ∧ x.status = none ∧ x.completed = false ∧ x.seq.toNat ≤ s.dev.seqOf k ∧ x.started = false
    (¬ wanted → exec (.preempt b) s = .next s) ∧
    ((∀ g ∈ k.groups, ∀ set t, g.why = .cond (.prim set) → g.primSince = some t → s.dev.cycle < t + 65536) →
      exec (.primStallTimeout b) s = .next s) ∧
    ((i = .preempt b ∧ wanted) ∨ (i = .primStallTimeout b ∧ stalled) →
      (never ∨ (again ∧ 7 ≤ k.nrepl) → exec i s = .next s) ∧
      (¬ never → (again → k.nrepl < 7) → (∃ g ∈ k.groups, g.slot ≠ none) → exec i s =
        .next (s.withDev (s.dev.modBlock b (fun k => { k with preempt := true })))) ∧
      (¬ never → again → k.nrepl < 7 → (∀ g ∈ k.groups, g.slot = none) → ∃ d : Dev, exec i s = .next (s.withDev d) ∧ Replayed s.dev d b k []) ∧
      (¬ never → ¬ again → (∀ g ∈ k.groups, g.slot = none) → s.dev.quiet b k = true →
        ∃ (d : Dev) (k' : Block), exec i s = .next (s.withDev d) ∧ d.blocks[b]? = some k' ∧ k'.life = .saved ∧ Freed d b ∧
          k'.core = k.core ∧ k'.clu = k.clu ∧ k'.groups.length = k.groups.length ∧
          ∀ (n : Nat) (g g' : Group), k.groups[n]? = some g → k'.groups[n]? = some g' → g'.v = g.v ∧ g'.s = g.s ∧ g'.p = g.p ∧ g'.lp = g.lp ∧
            g'.gcr = g.gcr ∧ g'.gfl = g.gfl ∧ g'.live = g.live ∧ g'.jE = g.jE ∧ g'.jA = g.jA ∧ g'.pend = g.pend ∧ g'.flights = g.flights ∧
            g'.cmd = none ∧ (∀ c, g.cmd = some c → g'.redo = some (c.op, g.head.pc)) ∧
            g'.frontier.map (fun e => (e.pc, e.mask, e.susp, e.run, e.clause)) = g.frontier.map (fun e => (e.pc, e.mask, e.susp, e.run, e.clause))))) ∧
  -- restoring
  (∀ (s : State) (b : Nat) (k : Block) (cores : List Nat) fits, s.plat.phase = .running → s.dev.blocks[b]? = some k →
    (k.life ≠ .saved → exec (.blockRestore b cores) s = .next s) ∧
    (k.life = .saved → cores.length = k.cores.length → (s.dev.part k.part).coresOk cores.length cores = true →
      (∀ c ∈ cores, (s.dev.core c).mark = false) → k.tiles = List.replicate 8 none → k.permit.n = 0 →
      s.dev.fitCores k.part k.lrec cores = some fits →
      ∃ (d : Dev) (k' : Block), exec (.blockRestore b cores) s = .next (s.withDev d) ∧ d.blocks[b]? = some k' ∧ k'.life = .running ∧
        k'.cores = cores ∧ k'.preempt = false ∧ k'.core = k.core ∧ k'.clu = k.clu ∧ k'.groups.length = k.groups.length ∧
        (∀ (j c : Nat) (f : List (Nat × Nat)), cores[j]? = some c → fits[j]? = some f → (d.core c).units = (s.dev.core c).units ++ f.map (fun u => (u.1, u.2, b))) ∧
        (∀ c ∈ cores, ∀ x ∈ (d.core c).l1, ∀ p, x.space ≠ .chip p) ∧
        ∀ (n : Nat) (g g' : Group), k.groups[n]? = some g → k'.groups[n]? = some g' → g'.v = g.v ∧ g'.s = g.s ∧ g'.p = g.p ∧ g'.lp = g.lp ∧
          g'.gcr = g.gcr ∧ g'.live = g.live ∧ g'.pend = g.pend ∧ g'.flights = g.flights ∧ g'.redo = g.redo ∧
          g'.frontier.map (·.pc) = g.frontier.map (·.pc)))

/-! ### Translation and the memory side -/

/-- Walks, the TLB, parked requests with their fault records, and code fetches (R95, R370, R371, R372, R373, R374, R375, R376, R377, R406).
What a walk event does is log 18; that a queue's own access to a page of another tier than QCTL names fails is log 89. -/
def Obligations.Translation : Prop :=
  -- how walks end
  (∀ d part va t l, l ≤ 3 → walksTo d part va t l →
    let a := entryAddr (t l) va l
    let e := pageEntry d a
    (∀ o, FMap.get 0 d.hbmP (a / 4) = o + 1 → d.walk part va = .poison o) ∧
    (entryClean d a → e.getLsbD 0 = false → d.walk part va = .fault l) ∧
    (entryClean d a → e.getLsbD 0 = true → ¬ leafGood d part l e → (l = 0 ∨ ¬ pointsOn e) → d.walk part va = .perm) ∧
    (entryClean d a → leafGood d part l e → d.walk part va = .leaf
      { base := va / 2 ^ (16 + 9 * l) * 2 ^ (16 + 9 * l), bits := 16 + 9 * l, frame := 65536 * (e.extractLsb' 16 32).toNat,
        tier := (e.extractLsb' 6 2).toNat, link := (e.extractLsb' 48 4).toNat, il := (e.extractLsb' 8 3).toNat, r := e.getLsbD 1,
        w := e.getLsbD 2, x := e.getLsbD 3 })) ∧
  -- a request: addresses of more than 52 bits fail; its cluster's TLB serves it; what it is parked for, or got from a walk it joined
  (∀ (d : Dev) (r : Req) acc va, 2 ^ 52 ≤ va → d.translate r acc va = (.perm, d)) ∧
  (∀ (d : Dev) (r : Req) acc va l, va < 2 ^ 52 → d.tlbHit r.part r.clu va = some l → Reaches d r acc va l (d.translate r acc va).1 ∧ (d.translate r acc va).2 = d) ∧
  (∀ (d : Dev) (r : Req) acc va x, va < 2 ^ 52 → d.tlbHit r.part r.clu va = none → d.parks.find? (fun p => p.of r va) = some x →
    (x.expired = false → d.translate r acc va = (.later, d)) ∧
    (x.expired = true → ∃ d' : Dev, d' = { d with parks := d'.parks } ∧ d'.parks.map (·.id) = d.parks.map (·.id) ∧
      d.translate r acc va = (match x.out with | some o => .poison o | none => .perm, d'))) ∧
  -- a miss joins the walk of its page, waits for a walker, or walks
  (∀ (d : Dev) (r : Req) acc va w, Misses d r va → d.walks.find? (fun w => decide (w.serves r.part (r.clu / 32) va)) = some w → (d.walks.map (·.id)).Nodup →
    ((∃ a ∈ w.asks, a.req.who = r.who) → d.translate r acc va = (.later, d)) ∧
    ((∀ a ∈ w.asks, a.req.who ≠ r.who) → d.translate r acc va = (.later, { d with
      walks := d.walks.map (fun x => if x.id = w.id then { x with asks := x.asks ++ [⟨r, acc⟩] } else x) }))) ∧
  (∀ (d : Dev) (r : Req) acc va, Misses d r va → (∀ w ∈ d.walks, ¬ w.serves r.part (r.clu / 32) va) → ¬ d.walkerFor (r.clu / 32) →
    d.translate r acc va = (.later, { d with
      nextId := d.nextId + 1, walks := d.walks ++ [⟨d.nextId, r.part, r.clu, va, [⟨r, acc⟩], true⟩] })) ∧
  (∀ (d : Dev) (r : Req) acc va, Walks d r va →
    (d.walk r.part va = .perm → ∃ d' : Dev, d.translate r acc va = (.perm, d') ∧ Served d d') ∧
    (∀ o, d.walk r.part va = .poison o → ∃ d' : Dev, d.translate r acc va = (.poison o, d') ∧ Served d d') ∧
    (∀ l, d.walk r.part va = .leaf l → ∃ (x : Xl) (d' : Dev), d.translate r acc va = (x, d') ∧ Reaches d r acc va l x ∧
      Served { d with tlb := d'.tlb } d' ∧ (l.allows acc = true → d'.tlbHit r.part r.clu va = some l) ∧ (l.allows acc = false → d'.tlb = d.tlb)) ∧
    (∀ l, PageFaults d r va l → ∃ d' : Dev, d.translate r acc va = (.later, d') ∧ Faulted d d' r va (decide (acc = .write)) l [r.who]) ∧
    (∀ l, d.walk r.part va = .fault l → 256 ≤ (d.parks.filter (fun p => !p.expired && decide (p.clu / 32 = r.clu / 32))).length →
      ∃ d' : Dev, d.translate r acc va = (.later, d') ∧ Served d d')) ∧
  -- walks by themselves
  (∀ (s : State) (p : BitVec 3) clu (va : BitVec 52), s.plat.phase = .running → (s.dev.part p.toNat).active = true →
    s.dev.tlbHit p.toNat clu va.toNat = none → (∀ w ∈ s.dev.walks, ¬ w.serves p.toNat (clu / 32) va.toNat) →
    (¬ s.dev.walkerFor (clu / 32) → exec (.walkStart p clu va) s = .next s) ∧
    (s.dev.walkerFor (clu / 32) → exec (.walkStart p clu va) s = .next (s.withDev { s.dev with
      nextId := s.dev.nextId + 1, walks := s.dev.walks ++ [⟨s.dev.nextId, p.toNat, clu, va.toNat, [], false⟩] }))) ∧
  -- a walk ends: its walker goes to the miss that has waited longest, and every miss of it takes its outcome
  (∀ (s : State) i w, s.plat.phase = .running → s.dev.walks.find? (fun x => decide (x.id = i) && !x.waits) = some w →
    let left := s.dev.walks.filter (fun x => decide (x.id ≠ i))
    let who := w.asks.map (·.req.who)
    let denied (l : Leaf) := (w.asks.filter (fun a => !l.allows a.acc)).map (·.req.who)
    ∃ d : Dev, exec (.walkComplete i) s = .next (s.withDev d) ∧
      (∀ x, left.find? (fun x => decide (x.clu / 32 = w.clu / 32) && x.waits) = some x →
        (left.filter (fun y => decide (y.clu / 32 = w.clu / 32) && !y.waits)).length < 128 →
        d.walks = left.map (fun y => if y.id = x.id then { y with waits := false } else y)) ∧
      ((∀ x ∈ left, x.clu / 32 = w.clu / 32 → x.waits = false) → d.walks = left) ∧
      ((∀ l, s.dev.walk w.part w.va ≠ .fault l) → Served { s.dev with walks := d.walks, tlb := d.tlb, parks := d.parks } d) ∧
      (∀ l, s.dev.walk w.part w.va = .leaf l →
        (∀ a ∈ w.asks, l.allows a.acc = true → s.dev.tlbHit w.part a.req.clu w.va = none → d.tlbHit w.part a.req.clu w.va = some l) ∧
        (w.asks = [] → l.r = true → d.tlbHit w.part w.clu w.va = some l) ∧ (w.asks = [] → l.r = false → d.tlb = s.dev.tlb) ∧
        (denied l = [] → d.parks = s.dev.parks) ∧
        (denied l ≠ [] → ∃ x, d.parks = s.dev.parks ++ [x] ∧ Outcome x w (denied l) none)) ∧
      (∀ out, (s.dev.walk w.part w.va = .perm ∧ out = none) ∨ (∃ o, s.dev.walk w.part w.va = .poison o ∧ out = some o) →
        d.tlb = s.dev.tlb ∧ (who = [] → d.parks = s.dev.parks) ∧ (who ≠ [] → ∃ x, d.parks = s.dev.parks ++ [x] ∧ Outcome x w who out)) ∧
      (∀ l, s.dev.walk w.part w.va = .fault l → d.tlb = s.dev.tlb ∧ (w.asks = [] → d.parks = s.dev.parks) ∧
        ∀ a as, w.asks = a :: as →
          (256 ≤ (s.dev.parks.filter (fun p => !p.expired && decide (p.clu / 32 = a.req.clu / 32))).length → d.parks = s.dev.parks) ∧
          ((s.dev.parks.filter (fun p => !p.expired && decide (p.clu / 32 = a.req.clu / 32))).length < 256 →
            Faulted s.dev d a.req w.va (decide (a.acc = .write)) l who))) ∧
  (∀ (s : State) i, s.plat.phase = .running → (∀ w ∈ s.dev.walks, w.id = i → w.waits = true) → exec (.walkComplete i) s = .next s) ∧
  -- parked requests
  (∀ (s : State) i p, s.plat.phase = .running → s.dev.parks.find? (fun x => decide (x.id = i)) = some p →
    (p.expired = true ∨ s.dev.cycle < p.walked + 1100000 → exec (.parkedRewalkTimer i) s = .next s) ∧
    (p.expired = false → p.walked + 1100000 ≤ s.dev.cycle → ∃ d : Dev, exec (.parkedRewalkTimer i) s = .next (s.withDev d) ∧
      Served { s.dev with parks := d.parks } d ∧
      (∀ l, s.dev.walk p.part p.va = .fault l → d.parks = s.dev.parks.map (fun x => if x.id = i then { x with walked := s.dev.cycle } else x)) ∧
      ((∀ l, s.dev.walk p.part p.va ≠ .fault l) → d.parks = s.dev.parks.filter (fun x => decide (x.id ≠ i))))) ∧
  (∀ i, Happens (.parkedTimeout i) (fun _ => True) (fun d => { d with parks := d.parks.map (fun x =>
    if x.id = i ∧ x.since + 110000000 ≤ d.cycle then { x with expired := true } else x) })) ∧
  (∀ (s : State) (p : BitVec 3) v, s.plat.phase = .running → (s.dev.parks.map (·.id)).Nodup →
    let again (d : Dev) : Prop := Served { s.dev with parks := d.parks } d ∧
      (s.dev.plainLines → ∀ y ∈ s.dev.parks, y.part = p.toNat → y.expired = false →
        ((∃ l, s.dev.walk p.toNat y.va = .fault l) ↔ ∃ x ∈ d.parks, x.id = y.id)) ∧
      (∀ x ∈ s.dev.parks, x.part ≠ p.toNat ∨ x.expired = true → x ∈ d.parks) ∧ ∀ x ∈ d.parks, ∃ y ∈ s.dev.parks, x = { y with walked := x.walked }
    (∃ d, exec (.fqresWrite p v) s = .next (s.withDev d) ∧ again d) ∧
    (s.plat.freeFor 6 → ∃ d, exec (.resumeFault p) s =
      .next ((s.withDev d).withPlat { s.plat with mailbox := .done, command := none }) ∧ again d)) ∧
  (∀ p, Accepted (.resumeFault p) 6) ∧
  -- a code unit of four words arrives whole, or is refused
  (∀ (s : State) (b n : Nat) (k : Block) (g : Group) va d1, s.plat.phase = .running → s.dev.blocks[b]? = some k → k.groups[n]? = some g →
    g.why = .cond (.code va) → (∀ u ∈ k.code, u.unit ≠ va / 16) →
    let r := k.req (k.coreOf n / 4) 7 (4096 * b + n) s.dev
    (∀ ws o, s.dev.vaReads r .fetch (va / 16 * 16) 4 = (.ok ws, d1) → d1.parks = [] → d1.blocks = s.dev.blocks →
      (o = 0 ∧ ∀ w ∈ ws, w.2 = 0) ∨ (o ≠ 0 ∧ (ws.find? (fun w => decide (w.2 ≠ 0))).map (·.2) = some o) →
      exec (.codeFetchComplete b n) s = .next (s.withDev (d1.modBlock b (fun k => { k with code := ⟨va / 16, ws.map (·.1), o, false⟩ :: k.code })))) ∧
    (∀ x, s.dev.vaReads r .fetch (va / 16 * 16) 4 = (.perm x, d1) → d1.blocks = s.dev.blocks →
      ∃ d : Dev, exec (.codeFetchComplete b n) s = .next (s.withDev d) ∧
        d = { d1.modBlock b (fun k => { k with code := ⟨va / 16, [], 0, true⟩ :: k.code }) with parks := d.parks } ∧ (d1.parks = [] → d.parks = []))) ∧
  -- the group traps at the first instruction of a unit that was refused or is poisoned
  (∀ (s : State) rest b n k g e es c u, s.agenda = .issue b n :: rest → MayRun s b n k g → g.sel = true → g.frontier = e :: es →
    e.clause = some c → e.runnable = true → k.unit (k.codeBase g + e.pc) = some u → u.refused = true ∨ u.poison ≠ 0 →
    ∃ t, step s = .next t ∧ CyclePasses (({ s with agenda := rest } : State).withDev (takeTrap
      ((s.dev.modBlock b (fun k => { k with code := k.code.filter (fun x => decide (x.unit ≠ u.unit)) })).putGroup b n g) b n
      { cause := if u.refused then 0x0C else 0x0D, origin := u.poison - 1, pc := e.pc, lanes := e.mask, act := e.mask })) t)

/-- Fills and accesses of slices, the host's and the peers' requests, snoops, and links (R357, R381, R383, R386, R387, R397, R398, R403). The
ranges that a link exports are log 20. -/
def Obligations.MemorySide : Prop :=
  (∀ (s : State) pa kind, s.plat.phase = .running → pa < 2 ^ 39 →
    ∃ d : Dev, exec (.l2FillComplete pa kind) s = .next (s.withDev d) ∧ d.holdsSector (.real pa)) ∧
  (∀ (s : State) pa kind (b : Byte), s.plat.phase = .running → pa < 2 ^ 39 →
    (∃ d : Dev, exec (.l2SliceAccess pa kind (some b)) s = .next (s.withDev d) ∧ Memory.read d.hbm pa = b ∧ FMap.get 0 d.hbmP (pa / 4) = 0 ∧
      d.holdsSector (.real pa)) ∧
    ∃ d : Dev, exec (.l2SliceAccess pa kind none) s = .next (s.withDev d) ∧ d.holdsSector (.real (pa / 4 * 4))) ∧
  -- a full set makes room: its least recently used line without a pin leaves
  (∀ (s : State) pa kind slice set tag num l, s.plat.phase = .running → pa < 2 ^ 39 → s.dev.homeOf (.real pa) = some (slice, set, tag, num) →
    s.dev.line slice tag = none →
    let here := s.dev.l2.filter (fun x => decide (x.slice = slice ∧ x.set = set))
    8 ≤ here.length → l ∈ here → l.pins = [] → (∀ x ∈ here, x.pins = [] → x ≠ l → l.used < x.used) → s.dev.plainLines →
    ∃ d : Dev, exec (.l2FillComplete pa kind) s = .next (s.withDev d) ∧ (∀ x ∈ d.l2, x.slice = slice → x.tag ≠ l.tag) ∧
      ∀ x ∈ s.dev.l2, x.slice ≠ slice ∨ x.tag ≠ l.tag → ∃ y ∈ d.l2, y.slice = x.slice ∧ y.tag = x.tag) ∧
  -- an uncorrectable error of HBM poisons its sector with origin 0
  (∀ (s : State) rest pa, s.agenda = .eccSector pa :: rest → pa < 2 ^ 39 → ∃ t, step s = .next t ∧
    ∀ i < 16, FMap.get 0 t.dev.hbmP (pa / 64 * 16 + i) = 1) ∧
  -- requests from outside
  Serves .cxlMemRequest 0 (fun d => d.hostTrained = true) (fun d pa => ∃ p, d.ownerOf pa = some p ∧ (d.part p).cfg.hostVisible = true) ∧
  (∀ (s : State) pa w, (s.plat.phase = .running → s.dev.hostTrained = false → exec (.cxlMemRequest pa w) s = .next s) ∧
    (s.plat.phase = .clearing → exec (.cxlMemRequest pa w) s = .next (s.withDev { s.dev with heldMem := s.dev.heldMem ++ [(pa, w)] })) ∧
    (s.plat.phase = .recovery → exec (.cxlMemRequest pa w) s = .next s)) ∧
  (∀ link : BitVec 4, Serves (.peerRequest link) (1 + link.toNat) (fun d => FMap.get false d.peerUp link.toNat = true)
      (fun d pa => ∃ x ∈ d.exports, x.1 = link.toNat ∧ x.2.1 ≤ pa ∧ pa < x.2.1 + x.2.2) ∧
    ∀ pa w, Happens (.peerRequest link pa w) (fun d => FMap.get false d.peerUp link.toNat = false) id) ∧
  -- a snoop takes the line, with what is dirty in it written back; the host's own store takes it too
  (∀ (s : State) hpa slice set tag num, s.plat.phase = .running → s.dev.homeOf (.host hpa) = some (slice, set, tag, num) →
    (s.dev.line slice tag = none → exec (.hostSnoop hpa) s = .next s) ∧
    (∀ l, s.dev.line slice tag = some l → s.dev.hostUp = true → ∃ d : Dev, exec (.hostSnoop hpa) s = .next (s.withDev d) ∧
      d.line slice tag = none ∧ d.hbm = s.dev.hbm ∧
      ∀ a, Memory.read d.hostMem a = if a / 2048 = hpa / 2048 ∧ l.dirty.getLsbD (a % 2048 / 64) = true then Memory.read l.data (a % 2048)
        else Memory.read s.dev.hostMem a)) ∧
  (∀ (s : State) rest hpa x slice set tag num, s.agenda = .hostStore hpa x :: rest → s.dev.homeOf (.host hpa) = some (slice, set, tag, num) →
    ∃ t, step s = .next t ∧ t.dev.line slice tag = none ∧ Memory.read t.dev.hostMem hpa = x) ∧
  -- a host line is taken exclusive by a write
  (∀ (d : Dev) a bs kind part slice set tag num, d.hostUp = true → d.timeouts = 0 → d.homeOf (.host a) = some (slice, set, tag, num) →
    (d.physWrite (.host a) bs kind part).1 = none ∧ ∃ l, (d.physWrite (.host a) bs kind part).2.line slice tag = some l ∧ l.excl = true) ∧
  -- links
  (∀ s : State, s.plat.phase = .running → ∃ d : Dev, exec .cxlLinkDown s = .next (s.withDev d) ∧ d.hostTrained = false ∧ d.hostUp = false ∧
    d.timeouts = 0 ∧ Loses s.dev d 1 ∧
    (∀ l ∈ d.l2, l ∈ s.dev.l2 ∧ l.isHost = false) ∧ (∀ l ∈ s.dev.l2, l.isHost = false → l ∈ d.l2) ∧ d.hostMem = s.dev.hostMem ∧
    ∀ p, (d.part p).linkLoss = (s.dev.part p).linkLoss +
      (s.dev.l2.filter (fun l => l.isHost && decide (l.dirty ≠ 0) && decide (l.part = p))).length) ∧
  Happens .cxlLinkUp (fun _ => True) (fun d => { d with hostTrained := true }) ∧
  Happens .cxlCompletionTimeout (fun d => d.hostUp = true) (fun d => { d with timeouts := d.timeouts + 1 }) ∧
  Happens .cxlCompletionTimeout (fun d => d.hostUp = false) id ∧
  (∀ link : BitVec 4,
    (∀ s : State, s.plat.phase = .running → link.toNat < 12 → ∃ d : Dev, exec (.peerLinkDown link) s = .next (s.withDev d) ∧
      d = { s.dev with peerUp := FMap.set false s.dev.peerUp link.toNat false, lost := d.lost } ∧ Loses s.dev d (2 + 4 * link.toNat)) ∧
    Happens (.peerLinkUp link) (fun _ => link.toNat < 12) (fun d => { d with peerUp := FMap.set false d.peerUp link.toNat true }) ∧
    Happens (.peerLinkDown link) (fun _ => 12 ≤ link.toNat) id ∧ Happens (.peerLinkUp link) (fun _ => 12 ≤ link.toNat) id) ∧
  -- replays held for a link go on once firmware reports it up
  (∀ s : State, s.plat.phase = .running → s.plat.freeFor 7 →
    let done (d : Dev) : State := (s.withDev d).withPlat { s.plat with mailbox := .done, command := none }
    let freed (o : Nat) (l : Launch) : Launch := { l with requeued := l.requeued.map (fun r => if r.hold = some o then { r with hold := none } else r) }
    (s.dev.hostTrained = true → exec (.linkState .hostUp) s =
      .next (done { s.dev with hostUp := true, launches := s.dev.launches.map (freed 1) })) ∧
    (s.dev.hostTrained = false → exec (.linkState .hostUp) s = .next (done s.dev)) ∧
    ∀ link, (FMap.get false s.dev.peerUp link.toNat = true → exec (.linkState (.peerUp link)) s =
        .next (done { s.dev with launches := s.dev.launches.map (freed (2 + 4 * link.toNat)) })) ∧
      (FMap.get false s.dev.peerUp link.toNat = false → exec (.linkState (.peerUp link)) s = .next (done s.dev))) ∧
  (∀ r, Accepted (.linkState r) 7) ∧
  -- what no host or peer tier serves is poisoned with its origin, and a peer's with its link; so is a response with an error
  (∀ (d : Dev) a l part kind, (d.hostUp = false → (d.physRead (.host a) kind part).1.2 = 2) ∧
    (d.hostUp = true → d.timeouts ≠ 0 → (d.physRead (.host a) kind part).1.2 = 2 ∧
      (d.physRead (.host a) kind part).2 = { d with timeouts := d.timeouts - 1 }) ∧
    (FMap.get false d.peerUp l = false → (d.physRead (.peer l a) kind part).1.2 = 3 + 4 * l) ∧
    (FMap.get false d.peerUp l = true → 2 ^ 39 ≤ a ∨ (∃ x ∈ d.peerOut, x.1 = l ∧ x.2.1 ≤ a ∧ a < x.2.1 + x.2.2) →
      (d.physRead (.peer l a) kind part).1.2 = 1) ∧
    (FMap.get false d.peerUp l = true → a < 2 ^ 39 → (∀ x ∈ d.peerOut, x.1 = l → a < x.2.1 ∨ x.2.1 + x.2.2 ≤ a) →
      (d.linkEcc = 0 → (d.physRead (.peer l a) kind part).1.2 = 0) ∧
      (d.linkEcc ≠ 0 → (d.physRead (.peer l a) kind part).1.2 = 1 ∧
        (d.physRead (.peer l a) kind part).2 = { d with linkEcc := d.linkEcc - 1 })) ∧
    (d.hostUp = true → d.timeouts = 0 → d.linkEcc ≠ 0 → ¬ d.holdsSector (.host a) → (d.physRead (.host a) kind part).1.2 = 1))

/-! ### SYS: translations, zeroing, and the context area -/

/-- TLBINV, SCRUB, CTXSV and CTXRS (R178, R364, R365, R366, R376). TLBINV is told where no request is parked. The model's choices: the free
bits of the area (log 27), the order of TLBINV's checks and of E and A (log 53), MISALIGNED for an area that is not aligned (log 54), SCRUB as a
release with the word's index in info word 1 (log 55), and the priority at an illegal header or beyond CODELEN (log 80). -/
def Obligations.SysMaintenance : Prop :=
  (∀ a,
    let i : Instr := .tlbinv a
    let w := fun (v : View) => desc v a
    let size (v : View) : Nat := 2 ^ (16 + 9 * ((w v 1).extractLsb' 20 2).toNat)
    let lo (v : View) : Nat := ((w v 1).extractLsb' 0 20 ++ w v 0 : BitVec 52).toNat / size v * size v
    let hi (v : View) : Nat := lo v + (w v 2).toNat * size v
    let all (v : View) : Bool := (w v 1).getLsbD 31
    BadWords i (fun _ => True) (fun v => tlbWords v a) ∧
    AnswersIf i (fun v => (∀ x ∈ tlbWords v a, x = true) ∧ v.d.parks = []) (fun v => v.completes { v.d with
      tlb := v.d.tlb.filter (fun t => decide (t.part ≠ v.k.part) || (!all v &&
        decide (hi v ≤ t.leaf.base ∨ t.leaf.base + 2 ^ t.leaf.bits ≤ lo v))),
      walks := v.d.walks.filter (fun x => decide (x.part ≠ v.k.part) || (!all v && decide (x.va < lo v ∨ hi v ≤ x.va))) } v.issued)) ∧
  (∀ a,
    let i : Instr := .scrub a
    let kind (v : View) : Nat := ((desc v a 1).extractLsb' 20 4).toNat
    let good (v : View) : Prop := ∀ x ∈ scrubWords v a, x = true
    let base (v : View) : Nat := if kind v = 0 then ((desc v a 1).extractLsb' 0 20 ++ desc v a 0 : BitVec 52).toNat else (desc v a 0).toNat
    let len (v : View) : Nat := (desc v a 2).toNat
    let fits (v : View) : Prop := kind v = 0 ∨ placeFits v (.scratch (scrubSpace v (kind v)) (base v)) (len v)
    BadWords i (fun _ => True) (fun v => scrubWords v a) ∧
    AnswersIf i (fun v => good v ∧ base v % 4 ≠ 0) (fun v => v.traps i { cause := 0x0B, lanes := v.act, info0 := BitVec.ofNat 32 (base v) }) ∧
    AnswersIf i (fun v => good v ∧ base v % 4 = 0 ∧ ¬ fits v) (fun v => v.traps i
      { cause := 0x0A, lanes := v.act, info0 := BitVec.ofNat 32 (base v) }) ∧
    AnswersIf i (fun v => good v ∧ base v % 4 = 0 ∧ fits v ∧ v.d.released v.b v.n true = false) (fun v => v.blocks v.d (.release true)) ∧
    (∀ s v, s.dev.issuer = some v → Ready i v → good v → base v % 4 = 0 → fits v → v.d.released v.b v.n true = true →
      (kind v ≠ 0 → ∃ d : Dev, exec i s = .next (s.withDev (v.completes d v.issued)) ∧ d.hbm = v.d.hbm ∧
        (scrubSpace v (kind v) = .chip v.k.part → ∀ y, Memory.read (d.part v.k.part).chip y =
          if base v ≤ y ∧ y < base v + len v then 0 else Memory.read v.part.chip y)) ∧
      (∀ d, kind v = 0 → v.d.probe v.req .write ((List.range (len v / 4)).map (fun j => base v + 4 * j)) = none →
        (((List.range (len v / 4)).map (fun j => base v + 4 * j)).forM (fun (x : Nat) => wrWord v.req x (0, 0))).run' v.d = (.ok (), d) →
        exec i s = .next (s.withDev (v.completes d v.issued))))) ∧
  -- the words of the area
  (∀ (g : Group) (prios : List Nat) cycle fresh, prios.length = g.saved.length →
    let l := ctxWords g prios cycle fresh
    let at_ := areaWord l
    l.length = 0x480 + 256 * g.budget ∧ at_ 0 = 1 ∧ at_ 4 = BitVec.ofNat 32 (g.budget + 256 * g.role + 65536 * g.idx) ∧ at_ 8 = g.live ∧
    at_ 0xC = BitVec.ofNat 32 g.saved.length ∧ at_ 0x10 = g.gcr ∧ at_ 0x14 = g.gfl ∧
    (∀ i < 32, ∀ e, g.saved[i]? = some e → at_ (0x40 + 16 * i) = BitVec.ofNat 32 e.pc ∧ at_ (0x44 + 16 * i) = e.mask ∧
      (at_ (0x48 + 16 * i)).extractLsb' 0 5 = BitVec.ofNat 5 (prios.getD i 0) ∧ at_ (0x4C + 16 * i) = BitVec.ofNat 32 (cycle - e.last) ∧
      ((at_ (0x48 + 16 * i)).getLsbD 8 = true ↔ e.susp ≠ .run) ∧ (at_ (0x48 + 16 * i)).extractLsb' 16 5 = BitVec.ofNat 5 e.run) ∧
    (∀ j < 12, at_ (0x240 + 8 * j) = FMap.get 0 g.jE j ∧ at_ (0x244 + 8 * j) = FMap.get 0 g.jA j) ∧
    (∀ q < 7, at_ (0x320 + 4 * q) = FMap.get 0 g.p q) ∧ (∀ i < 160, at_ (0x400 + 4 * i) = g.uni i) ∧
    (∀ r < 16, ∀ x < 32, at_ (0x700 + 128 * r + 4 * x) = g.word (.h r) x) ∧
    (∀ r < 8 * g.budget, ∀ x < 32, at_ (0x1200 + 128 * r + 4 * x) = g.word (.v r) x) ∧
    (∀ r < 128, ∀ x < 32, ((at_ (0xF00 + 4 * r)).getLsbD x = true ↔ g.poison (.v r) x ≠ 0)) ∧
    (∀ r < 8 * g.budget, r < 128 → ((at_ (0x340 + 4 * (r / 32))).getLsbD (r % 32) = true ↔ g.empty (.v r) = false))) ∧
  (∀ a,
    let i : Instr := .ctxsv a
    let va (v : View) : Nat := (v.g.uni (a.toNat + 1) ++ v.g.uni a.toNat : BitVec 64).toNat
    AnswersIf i (fun v => v.g.flights ≠ []) (fun v => v.blocks v.d .allFull) ∧
    AnswersIf i (fun v => v.g.flights = [] ∧ va v % 256 ≠ 0) (fun v => v.traps i
      { cause := 0x0B, lanes := v.act, info0 := v.g.uni a.toNat, info1 := v.g.uni (a.toNat + 1) }) ∧
    (∀ s v prios d1 d, s.dev.issuer = some v → Ready i v → v.g.flights = [] → va v % 256 = 0 →
      (ctxPrios v.req v.k v.g).run' v.d = (.ok prios, d1) →
      let ws := (ctxWords v.issued prios v.d.cycle v.d.fresh).zipIdx.map (fun x => (va v + 4 * x.2, x.1))
      d1.probe v.req .write (ws.map (·.1)) = none →
      (ws.forM (fun (x : Nat × Word) => wrWord v.req x.1 (x.2, 0))).run' { d1 with fresh := d1.fresh + 160 } = (.ok (), d) →
      exec i s = .next (s.withDev (v.completes d v.issued)))) ∧
  -- an entry's priority: its clause's, or that of the header where it stands
  (∀ r k g d prios d', Yields (ctxPrios r k g) d prios d' → prios.length = g.saved.length ∧
    (∀ (i : Nat) (e : Entry) c, g.saved[i]? = some e → e.clause = some c → prios[i]? = some c.h.p) ∧
    ∀ e, g.saved = [e] → e.clause = none →
      (k.lrec.codelen ≤ e.pc → prios = [0]) ∧
      (e.pc < k.lrec.codelen → ∀ w d1 h, d.vaRead { r with kind := 7 } .fetch (k.lrec.code + e.pc) = (.ok (w, 0), d1) →
        (decodeHeader w = .header h → prios = [h.p]) ∧ (decodeHeader w = .illegal → prios = [w.toNat % 32]))) ∧
  (∀ a,
    let i : Instr := .ctxrs a
    let va (v : View) : Nat := (v.g.uni (a.toNat + 1) ++ v.g.uni a.toNat : BitVec 64).toNat
    AnswersIf i (fun v => va v % 256 ≠ 0) (fun v => v.traps i
      { cause := 0x0B, lanes := v.act, info0 := v.g.uni a.toNat, info1 := v.g.uni (a.toNat + 1) }) ∧
    (∀ s v l c d1 d2, s.dev.issuer = some v → Ready i v → va v % 256 = 0 → v.d.parks = [] →
      Yields (ctxRead v.req (va v) (0x480 + 256 * v.g.budget)) v.d l d1 →
      Yields (ctxCode { v.req with kind := 7 } v.k.lrec.code (min (((List.range (min 32 (areaWord l 0xC).toNat)).map (fun i =>
        (areaWord l (0x40 + 16 * i)).toNat)).foldl max 0) (v.k.lrec.codelen - 1))) d1 c d2 → d2.blocks = v.d.blocks →
      let good : Prop := areaWord l 0 = 1 ∧ (areaWord l 4).extractLsb' 0 8 = BitVec.ofNat 8 v.g.budget
      (¬ good → exec i s = .next (s.withDev (v.traps i { cause := 0x02, lanes := v.act, info0 := opWord i }))) ∧
      (good → areaWord l 8 ≠ 0 → v.g.budget ≤ 16 → ∃ (d : Dev) (g' : Group), exec i s = .next (s.withDev d) ∧ d.group v.b v.n = some g' ∧
        Restored v.g g' l)))

/-! ### The host's registers and the controller -/

/-- Host registers, the fault queue's registers, the mailbox, images, the life cycle and reset (R384, R388, R390, R395, R396, R399, R400,
R401, R402, R403, R404, R406). The model's choices: which writes and arguments are refused beyond the spec's words (logs 66 to 73), the digest
of no bytes that begins the log (log 65), and what LIFECYCLE keeps (log 63). -/
def Obligations.Controller : Prop :=
  -- queue registers
  (∀ (s : State) (q : BitVec 8) (v : Word), s.plat.phase ≠ .recovery →
    let x := s.dev.queue q.toNat
    let becomes (i : Instr) (x' : Queue) : Prop := exec i s = .next (s.withDev (s.dev.putQueue q.toNat x'))
    let at_ (o : Nat) (w : BitVec 64) : Instr := .registerWrite (0x10000 + 64 * q.toNat + o) w
    (∃ x', becomes (.qctlWrite q v) x' ∧ x.control v x') ∧ (∀ w : BitVec 64, ∃ x', becomes (at_ 0 w) x' ∧ x.control (w.setWidth 32) x') ∧
    becomes (.qtailWrite q v) { x with tail := v } ∧
    ∀ w : BitVec 64, becomes (at_ 0x08 w) { x with ring := w } ∧ becomes (at_ 0x10 w) { x with size := w.setWidth 32 } ∧
      becomes (at_ 0x14 w) { x with tail := w.setWidth 32 } ∧ becomes (at_ 0x20 w) { x with cpl := w } ∧
      becomes (at_ 0x28 w) { x with dlm := x.dlm &&& ~~~(w.setWidth 32) } ∧ becomes (at_ 0x18 w) x ∧ becomes (at_ 0x1C w) x) ∧
  (∀ (s : State) off w, off < 0x10000 ∨ 0x14000 ≤ off → exec (.registerWrite off w) s = .next s) ∧
  (∀ (s : State) q v off w, s.plat.phase = .recovery → exec (.qctlWrite q v) s = .next s ∧ exec (.qtailWrite q v) s = .next s ∧
    exec (.registerWrite off w) s = .next s) ∧
  -- fault-queue registers (Table 20-7)
  (∀ (p : BitVec 3) (v : Word),
    Happens (.fqrdWrite p v) (fun d => ((d.part p.toNat).fqWr - v).toNat ≤ (d.part p.toNat).fqSize.toNat)
      (fun d => d.modPart p.toNat (fun x => { x with fqRd := v })) ∧
    Happens (.fqrdWrite p v) (fun d => (d.part p.toNat).fqSize.toNat < ((d.part p.toNat).fqWr - v).toNat) (fun d => d.modPart p.toNat id) ∧
    (∀ w, Happens (.fqbaseWrite p w) (fun _ => True) (fun d => d.modPart p.toNat (fun x => { x with fqBase := w, fqWr := 0, fqRd := 0 }))) ∧
    (faultRingSize v.toNat → Happens (.fqsizeWrite p v) (fun _ => True)
      (fun d => d.modPart p.toNat (fun x => { x with fqSize := v, fqWr := 0, fqRd := 0 }))) ∧
    (¬ faultRingSize v.toNat → Happens (.fqsizeWrite p v) (fun _ => True)
      (fun d => d.modPart p.toNat (fun x => { x with fqSize := 0, fqWr := 0, fqRd := 0 })))) ∧
  -- reset, power loss and LOAD_IMAGE
  (∀ s, ∃ t, exec .reset s = .next t ∧ ResetsTo s t s.plat.flash) ∧
  (∀ s loading, ∃ t, exec (.powerLoss loading) s = .next t ∧ ResetsTo s t
    (if loading = true ∧ s.plat.phase = .recovery then { s.plat.flash with authentic := false } else s.plat.flash)) ∧
  (∀ s img, s.plat.freeFor 1 → (s.plat.phase = .recovery → ∃ t, exec (.loadImage img) s = .next t ∧ ResetsTo s t img) ∧
    (s.plat.phase ≠ .recovery → Refuses (.loadImage img) s)) ∧
  -- CXL.mem requests that clearing held complete with zeros
  (∀ s, (s.plat.phase = .clearing → ∃ t, exec .clearingDone s = .next t ∧
      t = (s.withDev { s.dev with hostTrained := true, hostUp := true, heldMem := [], replies := t.dev.replies }).withPlat { s.plat with phase := .running } ∧
      (s.dev.heldMem = [] → t.dev.replies = s.dev.replies) ∧ (s.dev.heldMem ≠ [] → FMap.get (0, 0) t.dev.replies 0 = (0, 0))) ∧
    (s.plat.phase ≠ .clearing → exec .clearingDone s = .next s)) ∧
  -- the mailbox: its area, its command word, and where commands are accepted
  (∀ (s : State) rest a x, s.agenda = .mailboxArg a x :: rest → ∃ t, step s = .next t ∧ (a < 4096 → Memory.read t.plat.args a = x) ∧
    (4096 ≤ a → t.plat.args = s.plat.args)) ∧
  (∀ (s : State) rest c, s.agenda = .mailboxCommand c :: rest → ∃ t, step s = .next t ∧
    (s.plat.command = none → t.plat.command = some c ∧ t.plat.mailbox = s.plat.mailbox) ∧
    (∀ c', s.plat.command = some c' → t.plat.command = some c' ∧ t.plat.mailbox = .busy)) ∧
  (∀ l w c n a b, Accepted (.setPart l) 2 ∧ Accepted (.setWindow w c) 3 ∧ Accepted (.quote n) 4 ∧ Accepted (.lifecycle a b) 5) ∧
  (∀ (s : State) c img, s.plat.command = some c → c ≠ 1 → exec (.loadImage img) s = .next (s.withPlat { s.plat with mailbox := .busy })) ∧
  -- SET_PART
  (∀ s l, s.plat.phase = .running → s.plat.freeFor 2 →
    let rest : Prop := (∀ q ∈ s.dev.queues, s.dev.changed l q.2.part → q.2.en = false) ∧
      ∀ k ∈ s.dev.blocks, s.dev.changed l k.part → k.life = .done ∨ k.life = .ended ∨ k.life = .replaying
    (¬ (PartsGood l ∧ rest) → Refuses (.setPart l) s) ∧
    (PartsGood l → rest → ∃ d : Dev, Measures (.setPart l) s d ∧
      d = { s.dev with parts := d.parts, scheme := d.scheme, tlb := d.tlb, walks := d.walks, parks := d.parks } ∧
      (∀ t, t ∈ d.tlb ↔ t ∈ s.dev.tlb ∧ ¬ s.dev.changed l t.part) ∧ (∀ w, w ∈ d.walks ↔ w ∈ s.dev.walks ∧ ¬ s.dev.changed l w.part) ∧
      (∀ x, x ∈ d.parks ↔ x ∈ s.dev.parks ∧ ¬ s.dev.changed l x.part) ∧
      (∀ p, s.dev.changed l p → match l[p]? with
        | some c => (d.part p).active = true ∧ (d.part p).cfg = c ∧ (d.part p).chip = [] ∧ (d.part p).layers = [] ∧ (d.part p).trays = [] ∧
            (d.part p).sets = [] ∧ (d.part p).accepted = 0 ∧ (d.part p).fqWr = 0
        | none => d.part p = Part.init) ∧
      (∀ p < l.length, ¬ s.dev.changed l p → d.part p = s.dev.part p) ∧
      (∀ c ∈ l, ∀ g ∈ c.groups, d.schemeOf g.1 = g.2) ∧
      ∀ n, (∀ c ∈ l, ∀ g ∈ c.groups, g.1 ≠ n) → d.schemeOf n = s.dev.schemeOf n)) ∧
  -- SET_WINDOW
  (∀ s (w : BitVec 5) c, s.plat.phase = .running → s.plat.freeFor 3 →
    let good : Prop := 1 ≤ c.wnblk.toNat ∧ c.wnblk.toNat ≤ 2 ^ 28 ∧ c.wbase.toNat % 2048 = 0 ∧ c.wbase.toNat < 2 ^ 39
    let x := s.dev.window w.toNat
    let kept : Word := c.wctl &&& 0x83010000
    (c.wctl.getLsbD 31 = true → ¬ good → Refuses (.setWindow w c) s) ∧
    (c.wctl.getLsbD 31 = false ∨ good → Measures (.setWindow w c) s { s.dev with
      windows := FMap.set Window.init s.dev.windows w.toNat { x with
        wctl := if c.wctl.extractLsb' 24 2 = 3 then kept &&& 0x7FFFFFFF else kept, wnblk := c.wnblk, wbase := c.wbase } })) ∧
  -- QUOTE and LIFECYCLE
  (∀ s n, s.plat.phase = .running → s.plat.freeFor 4 → (n.length ≠ 32 → Refuses (.quote n) s) ∧
    (n.length = 32 → ∃ sig, exec (.quote n) s = .next (s.withPlat { s.plat with mailbox := .quote s.plat.log sig, command := none }))) ∧
  (∀ s a signed, s.plat.phase = .running → s.plat.freeFor 5 →
    let step : Prop := (s.plat.life = .manufactured ∧ a = .provisioned) ∨ (s.plat.life = .provisioned ∧ a = .deployed) ∨
      (s.plat.life = .deployed ∧ a = .returned) ∨ (s.plat.life = .returned ∧ a = .provisioned)
    (¬ (signed = true ∧ step) → Refuses (.lifecycle a signed) s) ∧
    (signed = true → step → ∃ (arg : List Nat) (d : Dev), exec (.lifecycle a signed) s = .next { s with
      dev := d, plat := { s.plat with
        life := a, phase := .clearing, mailbox := .done, command := none, log := s.plat.log ++ [Config.shake256 arg] } } ∧ Zeroed s.dev d))

/-! ### The whole machine -/

/-- A step runs the decoded instruction (R84, R85, R92, R179): between selection points the word at the head entry's PC, decoded in
its clause's class; at a header position of a group whose lanes stand together, the first word of the clause, once its
events hold. That a step takes the next move of an agenda is the model's (log 2), and so is that it takes one cycle (log 76). -/
def Obligations.StepRunsDecoded : Prop :=
  (∀ (s : State) rest b n k g e es c w, s.agenda = .issue b n :: rest → MayRun s b n k g →
    g.sel = true → g.frontier = e :: es → e.clause = some c → k.codeWord g e.pc = some w →
    StepRuns s rest b n (reissued g) (decodeInstr c.h.cls w)) ∧
  (∀ (s : State) rest b n k g e hw h w, s.agenda = .issue b n :: rest → MayRun s b n k g →
    g.frontier = [e] → e.susp = .run → e.clause = none → k.codeWord g e.pc = some hw → decodeHeader hw = .header h →
    e.pc + 4 * h.n + 4 ≤ k.codeLen g → s.dev.eventsHold b n h.w = true → k.codeWord g (e.pc + 4) = some w →
    StepRuns s rest b n (reissued { g with frontier := [{ e with clause := some ⟨e.pc, h⟩, pc := e.pc + 4 }], sel := true })
      (decodeInstr h.cls w)) ∧
  (∀ (s : State) rest b n, s.agenda = .issue b n :: rest → s.plat.phase ≠ .running → step s = .next { s with agenda := rest }) ∧
  (∀ (s : State) rest i t, s.agenda = .event i :: rest → hasWord i = false → exec i { s with agenda := rest } = .next t →
    ∃ u, step s = .next u ∧ CyclePasses t u)

/-- Nothing stops the machine: an instruction word that a group issues and every step of the device end in a next state, and so does
every step from every state. A word that no group issues is the one fault, which no step meets (R90). -/
def Obligations.NothingStops : Prop :=
  (∀ i s, hasWord i = false ∨ s.dev.issuer.isSome = true → ∃ t, exec i s = .next t) ∧
  (∀ i s, hasWord i = true → s.dev.issuer = none → exec i s = .fault .noIssuer) ∧
  (∀ s, ∃ t, step s = .next t)

/-- Words written out from Tables 4-6 to 4-14, the worked words of Tables 4-17 and of R223's example, and what they decode to. -/
def Obligations.DecodeWords : Prop :=
  -- VEC: OP, FN, D, A, B
  decode .vec (0b000000#6 ++ 0b001#3 ++ 5#7 ++ 3#8 ++ 0x89#8) = .ok (.iadd .sat 5 (.v 3) (.s 9)) ∧
  decode .vec 0x02040209#32 = .ok (.iaddImm .wrap 4 (.v 2) 9) ∧
  decode .vec 0x58200180#32 = .ok (.icmp .set .lt false 0 (.v 1) (.s 0)) ∧
  decode .vec (0b100011#6 ++ 0b011#3 ++ 7#7 ++ 0x81#8 ++ 2#8) = .ok (.ffma .ru 7 (.s 1) (.v 2)) ∧
  decode .vec (0b111101#6 ++ 0b100#3 ++ 12#7 ++ 6#8 ++ 0x85#8) = .ok (.gred .minN 12 6 5) ∧
  -- UNI: OP, two bits of FN, eight of D
  decode .uni (0b001001#6 ++ 0b10#2 ++ 150#8 ++ 7#8 ++ 0xF0#8) = .ok (.sminmax true false 150 (.reg 7) .zero) ∧
  decode .uni (0b010001#6 ++ 0b00#2 ++ 4#8 ++ 0#8 ++ 0x0D#8) = .ok (.srd 4 0x0D) ∧
  -- MEM
  decode .mem 0x06050900#32 = .ok (.ld .core .w 5 (.v 9) 0) ∧
  decode .mem (0b010000#6 ++ 0b100#3 ++ 2#7 ++ 0#8 ++ 0#8) = .ok (.fence .dev .rel) ∧
  -- ENG
  decode .eng (0b000000#6 ++ 0b101#3 ++ 0#7 ++ 0x88#8 ++ 0#8) = .ok (.copy 5 8) ∧
  decode .eng (0b010001#6 ++ 0b011#3 ++ 9#7 ++ 0x82#8 ++ 0x83#8) = .ok (.trayPopbSteal true 9 2 3) ∧
  -- MAT
  decode .mat (0b000001#6 ++ 0b010#3 ++ 6#7 ++ 0#8 ++ 0#8) = .ok (.mma .grp 6) ∧
  decode .mat (0b001000#6 ++ 0b010#3 ++ 20#7 ++ 3#8 ++ 0x84#8) = .ok (.mrd .k4 20 3 4) ∧
  -- CTL
  decode .ctl 0x008000FF#32 = .ok (.bra .ifT 0 0xFF) ∧
  decode .ctl 0x34000000#32 = .ok .exit ∧
  decode .ctl (0b001001#6 ++ 0b001#3 ++ 11#7 ++ 0x84#8 ++ 2#8) = .ok (.waitT 11 4 2) ∧
  -- SYS
  decode .sys (0b000001#6 ++ 0b000#3 ++ 0#7 ++ 0x8A#8 ++ 0x14#8) = .ok (.syswr (.s 10) 0x14) ∧
  decode .sys 0x08800000#32 = .ok .rthSkip ∧
  -- refused: FN 3 of IADD, an unassigned OP, a must-be-zero field, the wrong file, an odd pair, a predicate destination of 7
  decode .vec (0b000000#6 ++ 0b011#3 ++ 5#7 ++ 3#8 ++ 9#8) = .error .reservedFn ∧
  decode .vec (0b011100#6 ++ 0b000#3 ++ 5#7 ++ 3#8 ++ 9#8) = .error .unassignedOp ∧
  decode .ctl 0x34000001#32 = .error .mustBeZero ∧
  decode .eng (0b000011#6 ++ 0b000#3 ++ 0#7 ++ 4#8 ++ 0#8) = .error .wrongFile ∧
  decode .vec (0b010101#6 ++ 0b001#3 ++ 5#7 ++ 2#8 ++ 3#8) = .error .outOfRange ∧
  decode .vec (0b010110#6 ++ 0b000#3 ++ 7#7 ++ 2#8 ++ 3#8) = .error .outOfRange ∧
  -- headers (Tables 4-1, 4-2, 4-17): T of Table 4-17's clause is that of instruction 2
  decodeHeader 0#32 = .pad ∧
  decodeHeader 0x30020000#32 = .header ⟨3, .vec, false, 0, 0b001000000000000, 0⟩ ∧
  decodeHeader 0x1B000000#32 = .header ⟨1, .ctl, true, 0, 0, 0⟩ ∧
  decodeHeader 0x00000001#32 = .illegal ∧ decodeHeader 0x1E000000#32 = .illegal ∧ decodeHeader 0x30010000#32 = .illegal

/-- Decoding and encoding agree (R83, R84, R96–R109): a well-formed instruction's word decodes to it, whatever its operands; a
word that decodes to an instruction is that instruction's own word, so every word has one meaning in a class; every other
word reaches issue as a word that is no instruction; and a header's word reads back every field. -/
def Obligations.DecodeEncode : Prop :=
  (∀ i c w, WellFormed i = true → encode i = some (c, w) → decode c w = .ok i) ∧
  (∀ i c w, decode c w = .ok i → WellFormed i = true ∧ encode i = some (c, w)) ∧
  (∀ c w, (∀ i, WellFormed i = true → encode i ≠ some (c, w)) → decodeInstr c w = .unassignedOp c w) ∧
  (∀ h : Header, 1 ≤ h.n → h.n ≤ 15 → h.p < 32 → (∀ j, h.n ≤ j → j < 15 → h.tbit j = false) →
    decodeHeader (encodeHeader h) = .header h) ∧
  (∀ w h, decodeHeader w = .header h → encodeHeader h = w)

/-- The controller's rules, kept by every step from every state. While the device clears or runs, the image in flash verifies and is
no older than the rollback counter (R400), which never falls; and the life cycle moves only by its transitions (R403). -/
def Obligations.ControllerInvariant : Prop :=
  (∀ s t, step s = .next t → s.plat.sound → t.plat.sound) ∧
  (∀ s t, step s = .next t → s.plat.rollback ≤ t.plat.rollback) ∧
  (∀ s t, step s = .next t → t.plat.life = s.plat.life ∨
    (s.plat.life, t.plat.life) ∈ [(.manufactured, .provisioned), (.provisioned, .deployed), (.deployed, .returned),
      (.returned, .provisioned)])

/-- Right after reset (R400, R403, R404): the controller is sound and clears; no queue is enabled, no partition active, nothing resident;
HBM and every scratch store read 0; the links are down; and the first step ends clearing, so that the device runs.
The model's choices: the agenda, whose first move that is (log 2), the factory image (log 3), the host link that is up once clearing has
ended (log 67), and the one cycle of a step (log 76). -/
def Obligations.ResetState : Prop :=
  State.reset.plat.sound ∧ State.reset.plat.phase = .clearing ∧
  (∀ q, (State.reset.dev.queue q).en = false) ∧ (∀ p, (State.reset.dev.part p).active = false) ∧
  State.reset.dev.launches = [] ∧ State.reset.dev.blocks = [] ∧
  (∀ a, Memory.read State.reset.dev.hbm a = 0) ∧ (∀ sp a, State.reset.dev.homeWord sp a = (0, 0)) ∧
  State.reset.dev.hostUp = false ∧ (∀ l, FMap.get 0 State.reset.dev.peerUp l = 0) ∧
  (∃ t, step State.reset = .next t ∧ t.plat.phase = .running ∧ t.dev.hostUp = true ∧ t.dev.cycle = 1 ∧ t.dev.blocks = [])

/-- Frames. Such an instruction keeps every register, predicate and control register of its group that it does not name, every other
group and every byte of memory; where it traps, memory is as before too, and so it is for every VEC, UNI or CTL instruction that no
memory and no other group takes part in. GCR and the rejoin masks stay, and GFL only gains bits (R68, R69, R72, R75). -/
def Obligations.Frames : Prop :=
  (∀ i s v, ownGroupOnly i = true → s.dev.issuer = some v → Ready i v → ∃ t, exec i s = .next t ∧
    (OnlyGroup s t v (namedRegs i v) (fun p => .p p ∈ (accessOf i v).fixed) ∨
      (mayTrap i v ∧ (∃ tr, t = s.withDev (v.traps i tr)) ∧ SameMemory s t))) ∧
  (∀ i s t, (ownGroupOnly i = true ∨ (match i with
      | .sctl _ | .sflg _ | .qnt _ _ _ _ | .jset _ _ | .join _ | .leave _ | .wait _ | .waitT _ _ _ | .trap _ | .bkpt _ => True
      | _ => False)) → exec i s = .next t → SameMemory s t)
end

