-- ==== Sys2Proof/Laws/Decode.lean ====
section
/-! SUPPORT. Fields of a word, read back from the word that holds them. -/

namespace Sys2Proof

/-! ### Words -/

theorem word3_toNat (op : BitVec 6) (fn : BitVec 3) (d : BitVec 7) (a b : BitVec 8) :
    (word3 op fn d a b).toNat = 2 ^ 26 * op.toNat + 2 ^ 23 * fn.toNat + 2 ^ 16 * d.toNat + 2 ^ 8 * a.toNat + b.toNat := by
  unfold word3
  rw [BitVec.toNat_append, BitVec.toNat_append, BitVec.toNat_append, BitVec.toNat_append,
    ← Nat.shiftLeft_add_eq_or_of_lt b.isLt, ← Nat.shiftLeft_add_eq_or_of_lt a.isLt, ← Nat.shiftLeft_add_eq_or_of_lt d.isLt,
    ← Nat.shiftLeft_add_eq_or_of_lt fn.isLt]
  simp only [Nat.shiftLeft_eq]
  omega

theorem wordU_toNat (op : BitVec 6) (fn : BitVec 2) (d a b : BitVec 8) :
    (wordU op fn d a b).toNat = 2 ^ 26 * op.toNat + 2 ^ 24 * fn.toNat + 2 ^ 16 * d.toNat + 2 ^ 8 * a.toNat + b.toNat := by
  unfold wordU
  rw [BitVec.toNat_append, BitVec.toNat_append, BitVec.toNat_append, BitVec.toNat_append,
    ← Nat.shiftLeft_add_eq_or_of_lt b.isLt, ← Nat.shiftLeft_add_eq_or_of_lt a.isLt, ← Nat.shiftLeft_add_eq_or_of_lt d.isLt,
    ← Nat.shiftLeft_add_eq_or_of_lt fn.isLt]
  simp only [Nat.shiftLeft_eq]
  omega

@[simp] theorem fOp_word3 (op : BitVec 6) (fn : BitVec 3) (d : BitVec 7) (a b : BitVec 8) : fOp (word3 op fn d a b) = op := by
  apply BitVec.eq_of_toNat_eq
  rw [fOp, BitVec.extractLsb'_toNat, word3_toNat, Nat.shiftRight_eq_div_pow]
  have := op.isLt; have := fn.isLt; have := d.isLt; have := a.isLt; have := b.isLt
  omega

@[simp] theorem fFn_word3 (op : BitVec 6) (fn : BitVec 3) (d : BitVec 7) (a b : BitVec 8) : fFn (word3 op fn d a b) = fn := by
  apply BitVec.eq_of_toNat_eq
  rw [fFn, BitVec.extractLsb'_toNat, word3_toNat, Nat.shiftRight_eq_div_pow]
  have := op.isLt; have := fn.isLt; have := d.isLt; have := a.isLt; have := b.isLt
  omega

@[simp] theorem fD_word3 (op : BitVec 6) (fn : BitVec 3) (d : BitVec 7) (a b : BitVec 8) : fD (word3 op fn d a b) = d := by
  apply BitVec.eq_of_toNat_eq
  rw [fD, BitVec.extractLsb'_toNat, word3_toNat, Nat.shiftRight_eq_div_pow]
  have := op.isLt; have := fn.isLt; have := d.isLt; have := a.isLt; have := b.isLt
  omega

@[simp] theorem fA_word3 (op : BitVec 6) (fn : BitVec 3) (d : BitVec 7) (a b : BitVec 8) : fA (word3 op fn d a b) = a := by
  apply BitVec.eq_of_toNat_eq
  rw [fA, BitVec.extractLsb'_toNat, word3_toNat, Nat.shiftRight_eq_div_pow]
  have := op.isLt; have := fn.isLt; have := d.isLt; have := a.isLt; have := b.isLt
  omega

@[simp] theorem fB_word3 (op : BitVec 6) (fn : BitVec 3) (d : BitVec 7) (a b : BitVec 8) : fB (word3 op fn d a b) = b := by
  apply BitVec.eq_of_toNat_eq
  rw [fB, BitVec.extractLsb'_toNat, word3_toNat, Nat.shiftRight_eq_div_pow]
  have := op.isLt; have := fn.isLt; have := d.isLt; have := a.isLt; have := b.isLt
  omega

@[simp] theorem fOp_wordU (op : BitVec 6) (fn : BitVec 2) (d a b : BitVec 8) : fOp (wordU op fn d a b) = op := by
  apply BitVec.eq_of_toNat_eq
  rw [fOp, BitVec.extractLsb'_toNat, wordU_toNat, Nat.shiftRight_eq_div_pow]
  have := op.isLt; have := fn.isLt; have := d.isLt; have := a.isLt; have := b.isLt
  omega

@[simp] theorem fUFn_wordU (op : BitVec 6) (fn : BitVec 2) (d a b : BitVec 8) : fUFn (wordU op fn d a b) = fn := by
  apply BitVec.eq_of_toNat_eq
  rw [fUFn, BitVec.extractLsb'_toNat, wordU_toNat, Nat.shiftRight_eq_div_pow]
  have := op.isLt; have := fn.isLt; have := d.isLt; have := a.isLt; have := b.isLt
  omega

@[simp] theorem fUD_wordU (op : BitVec 6) (fn : BitVec 2) (d a b : BitVec 8) : fUD (wordU op fn d a b) = d := by
  apply BitVec.eq_of_toNat_eq
  rw [fUD, BitVec.extractLsb'_toNat, wordU_toNat, Nat.shiftRight_eq_div_pow]
  have := op.isLt; have := fn.isLt; have := d.isLt; have := a.isLt; have := b.isLt
  omega

@[simp] theorem fA_wordU (op : BitVec 6) (fn : BitVec 2) (d a b : BitVec 8) : fA (wordU op fn d a b) = a := by
  apply BitVec.eq_of_toNat_eq
  rw [fA, BitVec.extractLsb'_toNat, wordU_toNat, Nat.shiftRight_eq_div_pow]
  have := op.isLt; have := fn.isLt; have := d.isLt; have := a.isLt; have := b.isLt
  omega

@[simp] theorem fB_wordU (op : BitVec 6) (fn : BitVec 2) (d a b : BitVec 8) : fB (wordU op fn d a b) = b := by
  apply BitVec.eq_of_toNat_eq
  rw [fB, BitVec.extractLsb'_toNat, wordU_toNat, Nat.shiftRight_eq_div_pow]
  have := op.isLt; have := fn.isLt; have := d.isLt; have := a.isLt; have := b.isLt
  omega

theorem decodeFields_vec (op : BitVec 6) (fn : BitVec 3) (d : BitVec 7) (a b : BitVec 8) :
    decodeFields .vec (word3 op fn d a b) = decodeVec op fn d a b := by simp only [decodeFields, fOp_word3, fFn_word3, fD_word3, fA_word3, fB_word3]

theorem decodeFields_mem (op : BitVec 6) (fn : BitVec 3) (d : BitVec 7) (a b : BitVec 8) :
    decodeFields .mem (word3 op fn d a b) = decodeMem op fn d a b := by simp only [decodeFields, fOp_word3, fFn_word3, fD_word3, fA_word3, fB_word3]

theorem decodeFields_eng (op : BitVec 6) (fn : BitVec 3) (d : BitVec 7) (a b : BitVec 8) :
    decodeFields .eng (word3 op fn d a b) = decodeEng op fn d a b := by simp only [decodeFields, fOp_word3, fFn_word3, fD_word3, fA_word3, fB_word3]

theorem decodeFields_mat (op : BitVec 6) (fn : BitVec 3) (d : BitVec 7) (a b : BitVec 8) :
    decodeFields .mat (word3 op fn d a b) = decodeMat op fn d a b := by simp only [decodeFields, fOp_word3, fFn_word3, fD_word3, fA_word3, fB_word3]

theorem decodeFields_ctl (op : BitVec 6) (fn : BitVec 3) (d : BitVec 7) (a b : BitVec 8) :
    decodeFields .ctl (word3 op fn d a b) = decodeCtl op fn d a b := by simp only [decodeFields, fOp_word3, fFn_word3, fD_word3, fA_word3, fB_word3]

theorem decodeFields_sys (op : BitVec 6) (fn : BitVec 3) (d : BitVec 7) (a b : BitVec 8) :
    decodeFields .sys (word3 op fn d a b) = decodeSys op fn d a b := by simp only [decodeFields, fOp_word3, fFn_word3, fD_word3, fA_word3, fB_word3]

theorem decodeFields_uni (op : BitVec 6) (fn : BitVec 2) (d a b : BitVec 8) :
    decodeFields .uni (wordU op fn d a b) = decodeUni op fn d a b := by simp only [decodeFields, fOp_wordU, fUFn_wordU, fUD_wordU, fA_wordU, fB_wordU]

/-! ### Steps of the decoder -/

@[simp] theorem decode_bind_ok {α β : Type} (x : α) (f : α → Except DecodeError β) : (Except.ok x >>= f) = f x := rfl
@[simp] theorem decode_pure {α : Type} (x : α) : (pure x : Except DecodeError α) = .ok x := rfl
@[simp] theorem zeroField_zero (n : Nat) : zeroField (0#n) = .ok () := by simp [zeroField]
@[simp] theorem zeroFn_zero (n : Nat) : zeroFn (0#n) = .ok () := by simp [zeroFn]
@[simp] theorem fnHi_fn21 (h : Bool) (l : BitVec 2) : fnHi (fn21 h l) = h := by revert h l; decide
@[simp] theorem fnLo_fn21 (h : Bool) (l : BitVec 2) : fnLo (fn21 h l) = l := by revert h l; decide
@[simp] theorem noHi_fn21 (l : BitVec 2) : noHi (fn21 false l) = .ok l := by revert l; decide
@[simp] theorem decBit_fnBit (b : Bool) : decBit (fnBit b) = .ok b := by cases b <;> rfl
@[simp] theorem decLo2Bit_lo2Bit (b : Bool) : decLo2Bit (lo2Bit b) = .ok b := by cases b <;> rfl
@[simp] theorem objField_encObj {n k : Nat} (h : k ≤ n) (x : BitVec k) : objField k (encObj n x) = .ok x := by
  have h1 : (x.setWidth n).toNat = x.toNat := by
    rw [BitVec.toNat_setWidth]; exact Nat.mod_eq_of_lt (lt_of_lt_of_le x.isLt (Nat.pow_le_pow_right (by omega) h))
  have h2 : (x.setWidth n).setWidth k = x := by
    apply BitVec.eq_of_toNat_eq; rw [BitVec.toNat_setWidth, h1]; exact Nat.mod_eq_of_lt x.isLt
  simp only [objField, encObj, h1, x.isLt, if_true, h2]

/-! ### Operand bytes and selectors -/

@[simp] theorem Src.dec_enc (a : Src) : Src.dec a.enc = a := by cases a <;> rename_i n <;> revert n <;> decide
@[simp] theorem USrc.dec_enc (a : USrc) (h : a.ok = true) : USrc.dec a.enc = .ok a := by
  cases a
  · rename_i n
    have all : ∀ n : BitVec 8, (USrc.reg n).ok = true → USrc.dec (USrc.enc (.reg n)) = .ok (.reg n) := by decide
    exact all n h
  · rfl
@[simp] theorem SysSrc.dec_enc (a : SysSrc) : SysSrc.dec a.enc = .ok a := by cases a <;> rename_i n <;> revert n <;> decide
@[simp] theorem vecByte_encV (n : BitVec 7) : vecByte (encV n) = .ok n := by revert n; decide
@[simp] theorem uniByte_encS (n : BitVec 7) : uniByte (encS n) = .ok n := by revert n; decide

@[simp] theorem AddMode.dec_enc (x : AddMode) : AddMode.dec x.enc = .ok x := by cases x <;> rfl
@[simp] theorem MulMode.dec_enc (x : MulMode) : MulMode.dec x.enc = .ok x := by cases x <;> rfl
@[simp] theorem Comb.dec_enc (x : Comb) : Comb.dec x.enc = .ok x := by cases x <;> rfl
@[simp] theorem ICond.dec_enc (x : ICond) : ICond.dec x.enc = .ok x := by cases x <;> rfl
@[simp] theorem FCond.dec_enc (x : FCond) : FCond.dec x.enc = .ok x := by cases x <;> rfl
@[simp] theorem MoviForm.dec_enc (x : MoviForm) : MoviForm.dec x.enc = .ok x := by cases x <;> rfl
@[simp] theorem SmovbForm.dec_enc (x : SmovbForm) : SmovbForm.dec x.enc = .ok x := by cases x <;> rfl
@[simp] theorem Rnd.dec_enc (x : Rnd) : Rnd.dec x.enc = .ok x := by cases x <;> rfl
@[simp] theorem FunaOp.dec_enc (x : FunaOp) : FunaOp.dec x.enc = .ok x := by cases x <;> rfl
@[simp] theorem HFmt.dec_enc (x : HFmt) : HFmt.dec x.enc = .ok x := by cases x <;> rfl
@[simp] theorem CvtForm.dec_enc (x : CvtForm) : CvtForm.dec x.enc = .ok x := by cases x <;> rfl
@[simp] theorem QForm.dec_enc (x : QForm) : QForm.dec x.enc = .ok x := by cases x <;> rfl
@[simp] theorem DqForm.dec_enc (x : DqForm) : DqForm.dec x.enc = .ok x := by cases x <;> rfl
@[simp] theorem ShflMode.dec_enc (x : ShflMode) : ShflMode.dec x.enc = .ok x := by cases x <;> rfl
@[simp] theorem KCount.dec_enc (x : KCount) : KCount.dec x.enc = .ok x := by cases x <;> rfl
@[simp] theorem QxOp.dec_enc (x : QxOp) : QxOp.dec x.enc = .ok x := by cases x <;> rfl
@[simp] theorem GredOp.dec_enc (x : GredOp) : GredOp.dec x.enc = .ok x := by cases x <;> rfl
@[simp] theorem ScanOp.dec_enc (x : ScanOp) : ScanOp.dec x.enc = .ok x := by cases x <;> rfl
@[simp] theorem SCond.dec_enc (x : SCond) : SCond.dec x.enc = .ok x := by cases x <;> rfl
@[simp] theorem SCondN.dec_enc (x : SCondN) : SCondN.dec x.enc = .ok x := by cases x <;> rfl
@[simp] theorem Lvl3.dec_enc (x : Lvl3) : Lvl3.dec x.enc = .ok x := by cases x <;> rfl
@[simp] theorem Lvl.dec_enc (x : Lvl) : Lvl.dec x.enc = .ok x := by cases x <;> rfl
@[simp] theorem Lvl2.dec_enc (x : Lvl2) : Lvl2.dec x.enc = .ok x := by cases x <;> rfl
@[simp] theorem MemSize.dec_enc (x : MemSize) : MemSize.dec x.enc = .ok x := by cases x <;> rfl
@[simp] theorem AtOp.dec_enc (x : AtOp) : AtOp.dec x.enc = .ok x := by cases x <;> rfl
@[simp] theorem Scope.dec_enc (x : Scope) : Scope.dec x.enc = .ok x := by cases x <;> rfl
@[simp] theorem FKind.dec_enc (x : FKind) : FKind.dec x.enc = .ok x := by cases x <;> rfl
@[simp] theorem FatomOp.dec_enc (x : FatomOp) : FatomOp.dec x.enc = .ok x := by cases x <;> rfl
@[simp] theorem TrayQ.dec_enc (x : TrayQ) : TrayQ.dec x.enc = .ok x := by cases x <;> rfl
@[simp] theorem TexFilter.dec_enc (x : TexFilter) : TexFilter.dec x.enc = .ok x := by cases x <;> rfl
@[simp] theorem SsetQ.dec_enc (x : SsetQ) : SsetQ.dec x.enc = .ok x := by cases x <;> rfl
@[simp] theorem SresMode.dec_enc (x : SresMode) : SresMode.dec x.enc = .ok x := by cases x <;> rfl
@[simp] theorem MmaKind.dec_enc (x : MmaKind) : MmaKind.dec x.enc = .ok x := by cases x <;> rfl
@[simp] theorem MapKind.dec_enc (x : MapKind) : MapKind.dec x.enc = .ok x := by cases x <;> rfl
@[simp] theorem Shape.dec_enc (x : Shape) : Shape.dec x.enc = .ok x := by cases x <;> rfl
@[simp] theorem DrainForm.dec_enc (x : DrainForm) : DrainForm.dec x.enc = .ok x := by cases x <;> rfl
@[simp] theorem LtQ.dec_enc (x : LtQ) : LtQ.dec x.enc = .ok x := by cases x <;> rfl
@[simp] theorem BraCond.dec_enc (x : BraCond) : BraCond.dec x.enc = .ok x := by cases x <;> rfl

/-! ### D of a compare -/

@[simp] theorem icmpD_cond (c : ICond) (n : Bool) (p : BitVec 3) : (c.enc ++ BitVec.ofBool n ++ p : BitVec 7).extractLsb' 4 3 = c.enc := by
  revert p; cases c <;> cases n <;> decide
@[simp] theorem icmpD_n (c : ICond) (n : Bool) (p : BitVec 3) : (c.enc ++ BitVec.ofBool n ++ p : BitVec 7)[3] = n := by
  revert p; cases c <;> cases n <;> decide
@[simp] theorem icmpD_p (c : ICond) (n : Bool) (p : BitVec 3) : (c.enc ++ BitVec.ofBool n ++ p : BitVec 7).setWidth 3 = p := by
  revert p; cases c <;> cases n <;> decide
@[simp] theorem fcmpD_cond (c : FCond) (p : BitVec 3) : (c.enc ++ p : BitVec 7).extractLsb' 3 4 = c.enc := by
  revert p; cases c <;> decide
@[simp] theorem fcmpD_p (c : FCond) (p : BitVec 3) : (c.enc ++ p : BitVec 7).setWidth 3 = p := by
  revert p; cases c <;> decide

/-! ### D of MRD.stat -/

@[simp] theorem statD_low (d : BitVec 5) : (d ++ 0#2 : BitVec 7).setWidth 2 = 0#2 := by revert d; decide
@[simp] theorem statD_high (d : BitVec 5) : (d ++ 0#2 : BitVec 7).extractLsb' 2 5 = d := by revert d; decide


end Sys2Proof
end

