-- ==== Sys2Proof/Laws/State.lean ====
section
/-! SUPPORT. State, Dev and Group: what each update leaves in each field. -/

namespace Sys2Proof.Machine

open Sys2Proof

/-! ### State -/

@[simp] theorem State.withDev_plat (x : State) (d : Dev) : (x.withDev d).plat = x.plat := rfl
@[simp] theorem State.withDev_agenda (x : State) (d : Dev) : (x.withDev d).agenda = x.agenda := rfl
@[simp] theorem State.withDev_fair (x : State) (d : Dev) : (x.withDev d).fair = x.fair := rfl

@[simp] theorem State.withDev_dev (x : State) (d : Dev) : (x.withDev d).dev = d := rfl
@[simp] theorem State.withDev_self (x : State) : x.withDev x.dev = x := rfl
@[simp] theorem State.withDev_withDev (x : State) (d e : Dev) : (x.withDev d).withDev e = x.withDev e := rfl

@[simp] theorem State.withPlat_dev (x : State) (p : Platform) : (x.withPlat p).dev = x.dev := rfl
@[simp] theorem State.withPlat_agenda (x : State) (p : Platform) : (x.withPlat p).agenda = x.agenda := rfl
@[simp] theorem State.withPlat_fair (x : State) (p : Platform) : (x.withPlat p).fair = x.fair := rfl

@[simp] theorem State.withPlat_plat (x : State) (p : Platform) : (x.withPlat p).plat = p := rfl

/-! ### Lists -/

theorem setNth_eq_set {α : Type} (l : List α) (i : Nat) (x : α) : setNth l i x = l.set i x := by
  induction l generalizing i with
  | nil => rfl
  | cons y l ih => cases i <;> simp [setNth, ih]

/-! ### Dev -/

@[simp] theorem Dev.modBlock_cycle (x : Dev) (b : Nat) (f : Block → Block) : (x.modBlock b f).cycle = x.cycle := by unfold Dev.modBlock; split <;> rfl
@[simp] theorem Dev.modBlock_nextId (x : Dev) (b : Nat) (f : Block → Block) : (x.modBlock b f).nextId = x.nextId := by unfold Dev.modBlock; split <;> rfl
@[simp] theorem Dev.modBlock_fresh (x : Dev) (b : Nat) (f : Block → Block) : (x.modBlock b f).fresh = x.fresh := by unfold Dev.modBlock; split <;> rfl
@[simp] theorem Dev.modBlock_cur (x : Dev) (b : Nat) (f : Block → Block) : (x.modBlock b f).cur = x.cur := by unfold Dev.modBlock; split <;> rfl
@[simp] theorem Dev.modBlock_parts (x : Dev) (b : Nat) (f : Block → Block) : (x.modBlock b f).parts = x.parts := by unfold Dev.modBlock; split <;> rfl
@[simp] theorem Dev.modBlock_queues (x : Dev) (b : Nat) (f : Block → Block) : (x.modBlock b f).queues = x.queues := by unfold Dev.modBlock; split <;> rfl
@[simp] theorem Dev.modBlock_launches (x : Dev) (b : Nat) (f : Block → Block) : (x.modBlock b f).launches = x.launches := by unfold Dev.modBlock; split <;> rfl
@[simp] theorem Dev.modBlock_cores (x : Dev) (b : Nat) (f : Block → Block) : (x.modBlock b f).cores = x.cores := by unfold Dev.modBlock; split <;> rfl
@[simp] theorem Dev.modBlock_loads (x : Dev) (b : Nat) (f : Block → Block) : (x.modBlock b f).loads = x.loads := by unfold Dev.modBlock; split <;> rfl
@[simp] theorem Dev.modBlock_stores (x : Dev) (b : Nat) (f : Block → Block) : (x.modBlock b f).stores = x.stores := by unfold Dev.modBlock; split <;> rfl
@[simp] theorem Dev.modBlock_atoms (x : Dev) (b : Nat) (f : Block → Block) : (x.modBlock b f).atoms = x.atoms := by unfold Dev.modBlock; split <;> rfl
@[simp] theorem Dev.modBlock_cmds (x : Dev) (b : Nat) (f : Block → Block) : (x.modBlock b f).cmds = x.cmds := by unfold Dev.modBlock; split <;> rfl
@[simp] theorem Dev.modBlock_engines (x : Dev) (b : Nat) (f : Block → Block) : (x.modBlock b f).engines = x.engines := by unfold Dev.modBlock; split <;> rfl
@[simp] theorem Dev.modBlock_tiles (x : Dev) (b : Nat) (f : Block → Block) : (x.modBlock b f).tiles = x.tiles := by unfold Dev.modBlock; split <;> rfl
@[simp] theorem Dev.modBlock_govs (x : Dev) (b : Nat) (f : Block → Block) : (x.modBlock b f).govs = x.govs := by unfold Dev.modBlock; split <;> rfl
@[simp] theorem Dev.modBlock_folds (x : Dev) (b : Nat) (f : Block → Block) : (x.modBlock b f).folds = x.folds := by unfold Dev.modBlock; split <;> rfl
@[simp] theorem Dev.modBlock_hbm (x : Dev) (b : Nat) (f : Block → Block) : (x.modBlock b f).hbm = x.hbm := by unfold Dev.modBlock; split <;> rfl
@[simp] theorem Dev.modBlock_hbmP (x : Dev) (b : Nat) (f : Block → Block) : (x.modBlock b f).hbmP = x.hbmP := by unfold Dev.modBlock; split <;> rfl
@[simp] theorem Dev.modBlock_l2 (x : Dev) (b : Nat) (f : Block → Block) : (x.modBlock b f).l2 = x.l2 := by unfold Dev.modBlock; split <;> rfl
@[simp] theorem Dev.modBlock_predict (x : Dev) (b : Nat) (f : Block → Block) : (x.modBlock b f).predict = x.predict := by unfold Dev.modBlock; split <;> rfl
@[simp] theorem Dev.modBlock_scheme (x : Dev) (b : Nat) (f : Block → Block) : (x.modBlock b f).scheme = x.scheme := by unfold Dev.modBlock; split <;> rfl
@[simp] theorem Dev.modBlock_windows (x : Dev) (b : Nat) (f : Block → Block) : (x.modBlock b f).windows = x.windows := by unfold Dev.modBlock; split <;> rfl
@[simp] theorem Dev.modBlock_tlb (x : Dev) (b : Nat) (f : Block → Block) : (x.modBlock b f).tlb = x.tlb := by unfold Dev.modBlock; split <;> rfl
@[simp] theorem Dev.modBlock_walks (x : Dev) (b : Nat) (f : Block → Block) : (x.modBlock b f).walks = x.walks := by unfold Dev.modBlock; split <;> rfl
@[simp] theorem Dev.modBlock_parks (x : Dev) (b : Nat) (f : Block → Block) : (x.modBlock b f).parks = x.parks := by unfold Dev.modBlock; split <;> rfl
@[simp] theorem Dev.modBlock_hostTrained (x : Dev) (b : Nat) (f : Block → Block) : (x.modBlock b f).hostTrained = x.hostTrained := by unfold Dev.modBlock; split <;> rfl
@[simp] theorem Dev.modBlock_hostUp (x : Dev) (b : Nat) (f : Block → Block) : (x.modBlock b f).hostUp = x.hostUp := by unfold Dev.modBlock; split <;> rfl
@[simp] theorem Dev.modBlock_peerUp (x : Dev) (b : Nat) (f : Block → Block) : (x.modBlock b f).peerUp = x.peerUp := by unfold Dev.modBlock; split <;> rfl
@[simp] theorem Dev.modBlock_timeouts (x : Dev) (b : Nat) (f : Block → Block) : (x.modBlock b f).timeouts = x.timeouts := by unfold Dev.modBlock; split <;> rfl
@[simp] theorem Dev.modBlock_linkEcc (x : Dev) (b : Nat) (f : Block → Block) : (x.modBlock b f).linkEcc = x.linkEcc := by unfold Dev.modBlock; split <;> rfl
@[simp] theorem Dev.modBlock_hostLimit (x : Dev) (b : Nat) (f : Block → Block) : (x.modBlock b f).hostLimit = x.hostLimit := by unfold Dev.modBlock; split <;> rfl
@[simp] theorem Dev.modBlock_lost (x : Dev) (b : Nat) (f : Block → Block) : (x.modBlock b f).lost = x.lost := by unfold Dev.modBlock; split <;> rfl
@[simp] theorem Dev.modBlock_exports (x : Dev) (b : Nat) (f : Block → Block) : (x.modBlock b f).exports = x.exports := by unfold Dev.modBlock; split <;> rfl
@[simp] theorem Dev.modBlock_peerOut (x : Dev) (b : Nat) (f : Block → Block) : (x.modBlock b f).peerOut = x.peerOut := by unfold Dev.modBlock; split <;> rfl
@[simp] theorem Dev.modBlock_heldMem (x : Dev) (b : Nat) (f : Block → Block) : (x.modBlock b f).heldMem = x.heldMem := by unfold Dev.modBlock; split <;> rfl
@[simp] theorem Dev.modBlock_replies (x : Dev) (b : Nat) (f : Block → Block) : (x.modBlock b f).replies = x.replies := by unfold Dev.modBlock; split <;> rfl
@[simp] theorem Dev.modBlock_hostMem (x : Dev) (b : Nat) (f : Block → Block) : (x.modBlock b f).hostMem = x.hostMem := by unfold Dev.modBlock; split <;> rfl
@[simp] theorem Dev.modBlock_peerMem (x : Dev) (b : Nat) (f : Block → Block) : (x.modBlock b f).peerMem = x.peerMem := by unfold Dev.modBlock; split <;> rfl

@[simp] theorem Dev.modGroup_cycle (x : Dev) (b n : Nat) (f : Group → Group) : (x.modGroup b n f).cycle = x.cycle := by unfold Dev.modGroup; simp
@[simp] theorem Dev.modGroup_nextId (x : Dev) (b n : Nat) (f : Group → Group) : (x.modGroup b n f).nextId = x.nextId := by unfold Dev.modGroup; simp
@[simp] theorem Dev.modGroup_fresh (x : Dev) (b n : Nat) (f : Group → Group) : (x.modGroup b n f).fresh = x.fresh := by unfold Dev.modGroup; simp
@[simp] theorem Dev.modGroup_cur (x : Dev) (b n : Nat) (f : Group → Group) : (x.modGroup b n f).cur = x.cur := by unfold Dev.modGroup; simp
@[simp] theorem Dev.modGroup_parts (x : Dev) (b n : Nat) (f : Group → Group) : (x.modGroup b n f).parts = x.parts := by unfold Dev.modGroup; simp
@[simp] theorem Dev.modGroup_queues (x : Dev) (b n : Nat) (f : Group → Group) : (x.modGroup b n f).queues = x.queues := by unfold Dev.modGroup; simp
@[simp] theorem Dev.modGroup_launches (x : Dev) (b n : Nat) (f : Group → Group) : (x.modGroup b n f).launches = x.launches := by unfold Dev.modGroup; simp
@[simp] theorem Dev.modGroup_cores (x : Dev) (b n : Nat) (f : Group → Group) : (x.modGroup b n f).cores = x.cores := by unfold Dev.modGroup; simp
@[simp] theorem Dev.modGroup_loads (x : Dev) (b n : Nat) (f : Group → Group) : (x.modGroup b n f).loads = x.loads := by unfold Dev.modGroup; simp
@[simp] theorem Dev.modGroup_stores (x : Dev) (b n : Nat) (f : Group → Group) : (x.modGroup b n f).stores = x.stores := by unfold Dev.modGroup; simp
@[simp] theorem Dev.modGroup_atoms (x : Dev) (b n : Nat) (f : Group → Group) : (x.modGroup b n f).atoms = x.atoms := by unfold Dev.modGroup; simp
@[simp] theorem Dev.modGroup_cmds (x : Dev) (b n : Nat) (f : Group → Group) : (x.modGroup b n f).cmds = x.cmds := by unfold Dev.modGroup; simp
@[simp] theorem Dev.modGroup_engines (x : Dev) (b n : Nat) (f : Group → Group) : (x.modGroup b n f).engines = x.engines := by unfold Dev.modGroup; simp
@[simp] theorem Dev.modGroup_tiles (x : Dev) (b n : Nat) (f : Group → Group) : (x.modGroup b n f).tiles = x.tiles := by unfold Dev.modGroup; simp
@[simp] theorem Dev.modGroup_govs (x : Dev) (b n : Nat) (f : Group → Group) : (x.modGroup b n f).govs = x.govs := by unfold Dev.modGroup; simp
@[simp] theorem Dev.modGroup_folds (x : Dev) (b n : Nat) (f : Group → Group) : (x.modGroup b n f).folds = x.folds := by unfold Dev.modGroup; simp
@[simp] theorem Dev.modGroup_hbm (x : Dev) (b n : Nat) (f : Group → Group) : (x.modGroup b n f).hbm = x.hbm := by unfold Dev.modGroup; simp
@[simp] theorem Dev.modGroup_hbmP (x : Dev) (b n : Nat) (f : Group → Group) : (x.modGroup b n f).hbmP = x.hbmP := by unfold Dev.modGroup; simp
@[simp] theorem Dev.modGroup_l2 (x : Dev) (b n : Nat) (f : Group → Group) : (x.modGroup b n f).l2 = x.l2 := by unfold Dev.modGroup; simp
@[simp] theorem Dev.modGroup_predict (x : Dev) (b n : Nat) (f : Group → Group) : (x.modGroup b n f).predict = x.predict := by unfold Dev.modGroup; simp
@[simp] theorem Dev.modGroup_scheme (x : Dev) (b n : Nat) (f : Group → Group) : (x.modGroup b n f).scheme = x.scheme := by unfold Dev.modGroup; simp
@[simp] theorem Dev.modGroup_windows (x : Dev) (b n : Nat) (f : Group → Group) : (x.modGroup b n f).windows = x.windows := by unfold Dev.modGroup; simp
@[simp] theorem Dev.modGroup_tlb (x : Dev) (b n : Nat) (f : Group → Group) : (x.modGroup b n f).tlb = x.tlb := by unfold Dev.modGroup; simp
@[simp] theorem Dev.modGroup_walks (x : Dev) (b n : Nat) (f : Group → Group) : (x.modGroup b n f).walks = x.walks := by unfold Dev.modGroup; simp
@[simp] theorem Dev.modGroup_parks (x : Dev) (b n : Nat) (f : Group → Group) : (x.modGroup b n f).parks = x.parks := by unfold Dev.modGroup; simp
@[simp] theorem Dev.modGroup_hostTrained (x : Dev) (b n : Nat) (f : Group → Group) : (x.modGroup b n f).hostTrained = x.hostTrained := by unfold Dev.modGroup; simp
@[simp] theorem Dev.modGroup_hostUp (x : Dev) (b n : Nat) (f : Group → Group) : (x.modGroup b n f).hostUp = x.hostUp := by unfold Dev.modGroup; simp
@[simp] theorem Dev.modGroup_peerUp (x : Dev) (b n : Nat) (f : Group → Group) : (x.modGroup b n f).peerUp = x.peerUp := by unfold Dev.modGroup; simp
@[simp] theorem Dev.modGroup_timeouts (x : Dev) (b n : Nat) (f : Group → Group) : (x.modGroup b n f).timeouts = x.timeouts := by unfold Dev.modGroup; simp
@[simp] theorem Dev.modGroup_linkEcc (x : Dev) (b n : Nat) (f : Group → Group) : (x.modGroup b n f).linkEcc = x.linkEcc := by unfold Dev.modGroup; simp
@[simp] theorem Dev.modGroup_hostLimit (x : Dev) (b n : Nat) (f : Group → Group) : (x.modGroup b n f).hostLimit = x.hostLimit := by unfold Dev.modGroup; simp
@[simp] theorem Dev.modGroup_lost (x : Dev) (b n : Nat) (f : Group → Group) : (x.modGroup b n f).lost = x.lost := by unfold Dev.modGroup; simp
@[simp] theorem Dev.modGroup_exports (x : Dev) (b n : Nat) (f : Group → Group) : (x.modGroup b n f).exports = x.exports := by unfold Dev.modGroup; simp
@[simp] theorem Dev.modGroup_peerOut (x : Dev) (b n : Nat) (f : Group → Group) : (x.modGroup b n f).peerOut = x.peerOut := by unfold Dev.modGroup; simp
@[simp] theorem Dev.modGroup_heldMem (x : Dev) (b n : Nat) (f : Group → Group) : (x.modGroup b n f).heldMem = x.heldMem := by unfold Dev.modGroup; simp
@[simp] theorem Dev.modGroup_replies (x : Dev) (b n : Nat) (f : Group → Group) : (x.modGroup b n f).replies = x.replies := by unfold Dev.modGroup; simp
@[simp] theorem Dev.modGroup_hostMem (x : Dev) (b n : Nat) (f : Group → Group) : (x.modGroup b n f).hostMem = x.hostMem := by unfold Dev.modGroup; simp
@[simp] theorem Dev.modGroup_peerMem (x : Dev) (b n : Nat) (f : Group → Group) : (x.modGroup b n f).peerMem = x.peerMem := by unfold Dev.modGroup; simp

@[simp] theorem Dev.putGroup_cycle (x : Dev) (b n : Nat) (g : Group) : (x.putGroup b n g).cycle = x.cycle := by unfold Dev.putGroup; simp
@[simp] theorem Dev.putGroup_nextId (x : Dev) (b n : Nat) (g : Group) : (x.putGroup b n g).nextId = x.nextId := by unfold Dev.putGroup; simp
@[simp] theorem Dev.putGroup_fresh (x : Dev) (b n : Nat) (g : Group) : (x.putGroup b n g).fresh = x.fresh := by unfold Dev.putGroup; simp
@[simp] theorem Dev.putGroup_cur (x : Dev) (b n : Nat) (g : Group) : (x.putGroup b n g).cur = x.cur := by unfold Dev.putGroup; simp
@[simp] theorem Dev.putGroup_parts (x : Dev) (b n : Nat) (g : Group) : (x.putGroup b n g).parts = x.parts := by unfold Dev.putGroup; simp
@[simp] theorem Dev.putGroup_queues (x : Dev) (b n : Nat) (g : Group) : (x.putGroup b n g).queues = x.queues := by unfold Dev.putGroup; simp
@[simp] theorem Dev.putGroup_launches (x : Dev) (b n : Nat) (g : Group) : (x.putGroup b n g).launches = x.launches := by unfold Dev.putGroup; simp
@[simp] theorem Dev.putGroup_cores (x : Dev) (b n : Nat) (g : Group) : (x.putGroup b n g).cores = x.cores := by unfold Dev.putGroup; simp
@[simp] theorem Dev.putGroup_loads (x : Dev) (b n : Nat) (g : Group) : (x.putGroup b n g).loads = x.loads := by unfold Dev.putGroup; simp
@[simp] theorem Dev.putGroup_stores (x : Dev) (b n : Nat) (g : Group) : (x.putGroup b n g).stores = x.stores := by unfold Dev.putGroup; simp
@[simp] theorem Dev.putGroup_atoms (x : Dev) (b n : Nat) (g : Group) : (x.putGroup b n g).atoms = x.atoms := by unfold Dev.putGroup; simp
@[simp] theorem Dev.putGroup_cmds (x : Dev) (b n : Nat) (g : Group) : (x.putGroup b n g).cmds = x.cmds := by unfold Dev.putGroup; simp
@[simp] theorem Dev.putGroup_engines (x : Dev) (b n : Nat) (g : Group) : (x.putGroup b n g).engines = x.engines := by unfold Dev.putGroup; simp
@[simp] theorem Dev.putGroup_tiles (x : Dev) (b n : Nat) (g : Group) : (x.putGroup b n g).tiles = x.tiles := by unfold Dev.putGroup; simp
@[simp] theorem Dev.putGroup_govs (x : Dev) (b n : Nat) (g : Group) : (x.putGroup b n g).govs = x.govs := by unfold Dev.putGroup; simp
@[simp] theorem Dev.putGroup_folds (x : Dev) (b n : Nat) (g : Group) : (x.putGroup b n g).folds = x.folds := by unfold Dev.putGroup; simp
@[simp] theorem Dev.putGroup_hbm (x : Dev) (b n : Nat) (g : Group) : (x.putGroup b n g).hbm = x.hbm := by unfold Dev.putGroup; simp
@[simp] theorem Dev.putGroup_hbmP (x : Dev) (b n : Nat) (g : Group) : (x.putGroup b n g).hbmP = x.hbmP := by unfold Dev.putGroup; simp
@[simp] theorem Dev.putGroup_l2 (x : Dev) (b n : Nat) (g : Group) : (x.putGroup b n g).l2 = x.l2 := by unfold Dev.putGroup; simp
@[simp] theorem Dev.putGroup_predict (x : Dev) (b n : Nat) (g : Group) : (x.putGroup b n g).predict = x.predict := by unfold Dev.putGroup; simp
@[simp] theorem Dev.putGroup_scheme (x : Dev) (b n : Nat) (g : Group) : (x.putGroup b n g).scheme = x.scheme := by unfold Dev.putGroup; simp
@[simp] theorem Dev.putGroup_windows (x : Dev) (b n : Nat) (g : Group) : (x.putGroup b n g).windows = x.windows := by unfold Dev.putGroup; simp
@[simp] theorem Dev.putGroup_tlb (x : Dev) (b n : Nat) (g : Group) : (x.putGroup b n g).tlb = x.tlb := by unfold Dev.putGroup; simp
@[simp] theorem Dev.putGroup_walks (x : Dev) (b n : Nat) (g : Group) : (x.putGroup b n g).walks = x.walks := by unfold Dev.putGroup; simp
@[simp] theorem Dev.putGroup_parks (x : Dev) (b n : Nat) (g : Group) : (x.putGroup b n g).parks = x.parks := by unfold Dev.putGroup; simp
@[simp] theorem Dev.putGroup_hostTrained (x : Dev) (b n : Nat) (g : Group) : (x.putGroup b n g).hostTrained = x.hostTrained := by unfold Dev.putGroup; simp
@[simp] theorem Dev.putGroup_hostUp (x : Dev) (b n : Nat) (g : Group) : (x.putGroup b n g).hostUp = x.hostUp := by unfold Dev.putGroup; simp
@[simp] theorem Dev.putGroup_peerUp (x : Dev) (b n : Nat) (g : Group) : (x.putGroup b n g).peerUp = x.peerUp := by unfold Dev.putGroup; simp
@[simp] theorem Dev.putGroup_timeouts (x : Dev) (b n : Nat) (g : Group) : (x.putGroup b n g).timeouts = x.timeouts := by unfold Dev.putGroup; simp
@[simp] theorem Dev.putGroup_linkEcc (x : Dev) (b n : Nat) (g : Group) : (x.putGroup b n g).linkEcc = x.linkEcc := by unfold Dev.putGroup; simp
@[simp] theorem Dev.putGroup_hostLimit (x : Dev) (b n : Nat) (g : Group) : (x.putGroup b n g).hostLimit = x.hostLimit := by unfold Dev.putGroup; simp
@[simp] theorem Dev.putGroup_lost (x : Dev) (b n : Nat) (g : Group) : (x.putGroup b n g).lost = x.lost := by unfold Dev.putGroup; simp
@[simp] theorem Dev.putGroup_exports (x : Dev) (b n : Nat) (g : Group) : (x.putGroup b n g).exports = x.exports := by unfold Dev.putGroup; simp
@[simp] theorem Dev.putGroup_peerOut (x : Dev) (b n : Nat) (g : Group) : (x.putGroup b n g).peerOut = x.peerOut := by unfold Dev.putGroup; simp
@[simp] theorem Dev.putGroup_heldMem (x : Dev) (b n : Nat) (g : Group) : (x.putGroup b n g).heldMem = x.heldMem := by unfold Dev.putGroup; simp
@[simp] theorem Dev.putGroup_replies (x : Dev) (b n : Nat) (g : Group) : (x.putGroup b n g).replies = x.replies := by unfold Dev.putGroup; simp
@[simp] theorem Dev.putGroup_hostMem (x : Dev) (b n : Nat) (g : Group) : (x.putGroup b n g).hostMem = x.hostMem := by unfold Dev.putGroup; simp
@[simp] theorem Dev.putGroup_peerMem (x : Dev) (b n : Nat) (g : Group) : (x.putGroup b n g).peerMem = x.peerMem := by unfold Dev.putGroup; simp

@[simp] theorem Dev.putPart_cycle (x : Dev) (p : Nat) (y : Part) : (x.putPart p y).cycle = x.cycle := rfl
@[simp] theorem Dev.putPart_nextId (x : Dev) (p : Nat) (y : Part) : (x.putPart p y).nextId = x.nextId := rfl
@[simp] theorem Dev.putPart_fresh (x : Dev) (p : Nat) (y : Part) : (x.putPart p y).fresh = x.fresh := rfl
@[simp] theorem Dev.putPart_cur (x : Dev) (p : Nat) (y : Part) : (x.putPart p y).cur = x.cur := rfl
@[simp] theorem Dev.putPart_queues (x : Dev) (p : Nat) (y : Part) : (x.putPart p y).queues = x.queues := rfl
@[simp] theorem Dev.putPart_launches (x : Dev) (p : Nat) (y : Part) : (x.putPart p y).launches = x.launches := rfl
@[simp] theorem Dev.putPart_blocks (x : Dev) (p : Nat) (y : Part) : (x.putPart p y).blocks = x.blocks := rfl
@[simp] theorem Dev.putPart_cores (x : Dev) (p : Nat) (y : Part) : (x.putPart p y).cores = x.cores := rfl
@[simp] theorem Dev.putPart_loads (x : Dev) (p : Nat) (y : Part) : (x.putPart p y).loads = x.loads := rfl
@[simp] theorem Dev.putPart_stores (x : Dev) (p : Nat) (y : Part) : (x.putPart p y).stores = x.stores := rfl
@[simp] theorem Dev.putPart_atoms (x : Dev) (p : Nat) (y : Part) : (x.putPart p y).atoms = x.atoms := rfl
@[simp] theorem Dev.putPart_cmds (x : Dev) (p : Nat) (y : Part) : (x.putPart p y).cmds = x.cmds := rfl
@[simp] theorem Dev.putPart_engines (x : Dev) (p : Nat) (y : Part) : (x.putPart p y).engines = x.engines := rfl
@[simp] theorem Dev.putPart_tiles (x : Dev) (p : Nat) (y : Part) : (x.putPart p y).tiles = x.tiles := rfl
@[simp] theorem Dev.putPart_govs (x : Dev) (p : Nat) (y : Part) : (x.putPart p y).govs = x.govs := rfl
@[simp] theorem Dev.putPart_folds (x : Dev) (p : Nat) (y : Part) : (x.putPart p y).folds = x.folds := rfl
@[simp] theorem Dev.putPart_hbm (x : Dev) (p : Nat) (y : Part) : (x.putPart p y).hbm = x.hbm := rfl
@[simp] theorem Dev.putPart_hbmP (x : Dev) (p : Nat) (y : Part) : (x.putPart p y).hbmP = x.hbmP := rfl
@[simp] theorem Dev.putPart_l2 (x : Dev) (p : Nat) (y : Part) : (x.putPart p y).l2 = x.l2 := rfl
@[simp] theorem Dev.putPart_predict (x : Dev) (p : Nat) (y : Part) : (x.putPart p y).predict = x.predict := rfl
@[simp] theorem Dev.putPart_scheme (x : Dev) (p : Nat) (y : Part) : (x.putPart p y).scheme = x.scheme := rfl
@[simp] theorem Dev.putPart_windows (x : Dev) (p : Nat) (y : Part) : (x.putPart p y).windows = x.windows := rfl
@[simp] theorem Dev.putPart_tlb (x : Dev) (p : Nat) (y : Part) : (x.putPart p y).tlb = x.tlb := rfl
@[simp] theorem Dev.putPart_walks (x : Dev) (p : Nat) (y : Part) : (x.putPart p y).walks = x.walks := rfl
@[simp] theorem Dev.putPart_parks (x : Dev) (p : Nat) (y : Part) : (x.putPart p y).parks = x.parks := rfl
@[simp] theorem Dev.putPart_hostTrained (x : Dev) (p : Nat) (y : Part) : (x.putPart p y).hostTrained = x.hostTrained := rfl
@[simp] theorem Dev.putPart_hostUp (x : Dev) (p : Nat) (y : Part) : (x.putPart p y).hostUp = x.hostUp := rfl
@[simp] theorem Dev.putPart_peerUp (x : Dev) (p : Nat) (y : Part) : (x.putPart p y).peerUp = x.peerUp := rfl
@[simp] theorem Dev.putPart_timeouts (x : Dev) (p : Nat) (y : Part) : (x.putPart p y).timeouts = x.timeouts := rfl
@[simp] theorem Dev.putPart_linkEcc (x : Dev) (p : Nat) (y : Part) : (x.putPart p y).linkEcc = x.linkEcc := rfl
@[simp] theorem Dev.putPart_hostLimit (x : Dev) (p : Nat) (y : Part) : (x.putPart p y).hostLimit = x.hostLimit := rfl
@[simp] theorem Dev.putPart_lost (x : Dev) (p : Nat) (y : Part) : (x.putPart p y).lost = x.lost := rfl
@[simp] theorem Dev.putPart_exports (x : Dev) (p : Nat) (y : Part) : (x.putPart p y).exports = x.exports := rfl
@[simp] theorem Dev.putPart_peerOut (x : Dev) (p : Nat) (y : Part) : (x.putPart p y).peerOut = x.peerOut := rfl
@[simp] theorem Dev.putPart_heldMem (x : Dev) (p : Nat) (y : Part) : (x.putPart p y).heldMem = x.heldMem := rfl
@[simp] theorem Dev.putPart_replies (x : Dev) (p : Nat) (y : Part) : (x.putPart p y).replies = x.replies := rfl
@[simp] theorem Dev.putPart_hostMem (x : Dev) (p : Nat) (y : Part) : (x.putPart p y).hostMem = x.hostMem := rfl
@[simp] theorem Dev.putPart_peerMem (x : Dev) (p : Nat) (y : Part) : (x.putPart p y).peerMem = x.peerMem := rfl

@[simp] theorem Dev.modPart_cycle (x : Dev) (p : Nat) (f : Part → Part) : (x.modPart p f).cycle = x.cycle := rfl
@[simp] theorem Dev.modPart_nextId (x : Dev) (p : Nat) (f : Part → Part) : (x.modPart p f).nextId = x.nextId := rfl
@[simp] theorem Dev.modPart_fresh (x : Dev) (p : Nat) (f : Part → Part) : (x.modPart p f).fresh = x.fresh := rfl
@[simp] theorem Dev.modPart_cur (x : Dev) (p : Nat) (f : Part → Part) : (x.modPart p f).cur = x.cur := rfl
@[simp] theorem Dev.modPart_queues (x : Dev) (p : Nat) (f : Part → Part) : (x.modPart p f).queues = x.queues := rfl
@[simp] theorem Dev.modPart_launches (x : Dev) (p : Nat) (f : Part → Part) : (x.modPart p f).launches = x.launches := rfl
@[simp] theorem Dev.modPart_blocks (x : Dev) (p : Nat) (f : Part → Part) : (x.modPart p f).blocks = x.blocks := rfl
@[simp] theorem Dev.modPart_cores (x : Dev) (p : Nat) (f : Part → Part) : (x.modPart p f).cores = x.cores := rfl
@[simp] theorem Dev.modPart_loads (x : Dev) (p : Nat) (f : Part → Part) : (x.modPart p f).loads = x.loads := rfl
@[simp] theorem Dev.modPart_stores (x : Dev) (p : Nat) (f : Part → Part) : (x.modPart p f).stores = x.stores := rfl
@[simp] theorem Dev.modPart_atoms (x : Dev) (p : Nat) (f : Part → Part) : (x.modPart p f).atoms = x.atoms := rfl
@[simp] theorem Dev.modPart_cmds (x : Dev) (p : Nat) (f : Part → Part) : (x.modPart p f).cmds = x.cmds := rfl
@[simp] theorem Dev.modPart_engines (x : Dev) (p : Nat) (f : Part → Part) : (x.modPart p f).engines = x.engines := rfl
@[simp] theorem Dev.modPart_tiles (x : Dev) (p : Nat) (f : Part → Part) : (x.modPart p f).tiles = x.tiles := rfl
@[simp] theorem Dev.modPart_govs (x : Dev) (p : Nat) (f : Part → Part) : (x.modPart p f).govs = x.govs := rfl
@[simp] theorem Dev.modPart_folds (x : Dev) (p : Nat) (f : Part → Part) : (x.modPart p f).folds = x.folds := rfl
@[simp] theorem Dev.modPart_hbm (x : Dev) (p : Nat) (f : Part → Part) : (x.modPart p f).hbm = x.hbm := rfl
@[simp] theorem Dev.modPart_hbmP (x : Dev) (p : Nat) (f : Part → Part) : (x.modPart p f).hbmP = x.hbmP := rfl
@[simp] theorem Dev.modPart_l2 (x : Dev) (p : Nat) (f : Part → Part) : (x.modPart p f).l2 = x.l2 := rfl
@[simp] theorem Dev.modPart_predict (x : Dev) (p : Nat) (f : Part → Part) : (x.modPart p f).predict = x.predict := rfl
@[simp] theorem Dev.modPart_scheme (x : Dev) (p : Nat) (f : Part → Part) : (x.modPart p f).scheme = x.scheme := rfl
@[simp] theorem Dev.modPart_windows (x : Dev) (p : Nat) (f : Part → Part) : (x.modPart p f).windows = x.windows := rfl
@[simp] theorem Dev.modPart_tlb (x : Dev) (p : Nat) (f : Part → Part) : (x.modPart p f).tlb = x.tlb := rfl
@[simp] theorem Dev.modPart_walks (x : Dev) (p : Nat) (f : Part → Part) : (x.modPart p f).walks = x.walks := rfl
@[simp] theorem Dev.modPart_parks (x : Dev) (p : Nat) (f : Part → Part) : (x.modPart p f).parks = x.parks := rfl
@[simp] theorem Dev.modPart_hostTrained (x : Dev) (p : Nat) (f : Part → Part) : (x.modPart p f).hostTrained = x.hostTrained := rfl
@[simp] theorem Dev.modPart_hostUp (x : Dev) (p : Nat) (f : Part → Part) : (x.modPart p f).hostUp = x.hostUp := rfl
@[simp] theorem Dev.modPart_peerUp (x : Dev) (p : Nat) (f : Part → Part) : (x.modPart p f).peerUp = x.peerUp := rfl
@[simp] theorem Dev.modPart_timeouts (x : Dev) (p : Nat) (f : Part → Part) : (x.modPart p f).timeouts = x.timeouts := rfl
@[simp] theorem Dev.modPart_linkEcc (x : Dev) (p : Nat) (f : Part → Part) : (x.modPart p f).linkEcc = x.linkEcc := rfl
@[simp] theorem Dev.modPart_hostLimit (x : Dev) (p : Nat) (f : Part → Part) : (x.modPart p f).hostLimit = x.hostLimit := rfl
@[simp] theorem Dev.modPart_lost (x : Dev) (p : Nat) (f : Part → Part) : (x.modPart p f).lost = x.lost := rfl
@[simp] theorem Dev.modPart_exports (x : Dev) (p : Nat) (f : Part → Part) : (x.modPart p f).exports = x.exports := rfl
@[simp] theorem Dev.modPart_peerOut (x : Dev) (p : Nat) (f : Part → Part) : (x.modPart p f).peerOut = x.peerOut := rfl
@[simp] theorem Dev.modPart_heldMem (x : Dev) (p : Nat) (f : Part → Part) : (x.modPart p f).heldMem = x.heldMem := rfl
@[simp] theorem Dev.modPart_replies (x : Dev) (p : Nat) (f : Part → Part) : (x.modPart p f).replies = x.replies := rfl
@[simp] theorem Dev.modPart_hostMem (x : Dev) (p : Nat) (f : Part → Part) : (x.modPart p f).hostMem = x.hostMem := rfl
@[simp] theorem Dev.modPart_peerMem (x : Dev) (p : Nat) (f : Part → Part) : (x.modPart p f).peerMem = x.peerMem := rfl

@[simp] theorem Dev.putCore_cycle (x : Dev) (c : Nat) (y : CoreSt) : (x.putCore c y).cycle = x.cycle := rfl
@[simp] theorem Dev.putCore_nextId (x : Dev) (c : Nat) (y : CoreSt) : (x.putCore c y).nextId = x.nextId := rfl
@[simp] theorem Dev.putCore_fresh (x : Dev) (c : Nat) (y : CoreSt) : (x.putCore c y).fresh = x.fresh := rfl
@[simp] theorem Dev.putCore_cur (x : Dev) (c : Nat) (y : CoreSt) : (x.putCore c y).cur = x.cur := rfl
@[simp] theorem Dev.putCore_parts (x : Dev) (c : Nat) (y : CoreSt) : (x.putCore c y).parts = x.parts := rfl
@[simp] theorem Dev.putCore_queues (x : Dev) (c : Nat) (y : CoreSt) : (x.putCore c y).queues = x.queues := rfl
@[simp] theorem Dev.putCore_launches (x : Dev) (c : Nat) (y : CoreSt) : (x.putCore c y).launches = x.launches := rfl
@[simp] theorem Dev.putCore_blocks (x : Dev) (c : Nat) (y : CoreSt) : (x.putCore c y).blocks = x.blocks := rfl
@[simp] theorem Dev.putCore_loads (x : Dev) (c : Nat) (y : CoreSt) : (x.putCore c y).loads = x.loads := rfl
@[simp] theorem Dev.putCore_stores (x : Dev) (c : Nat) (y : CoreSt) : (x.putCore c y).stores = x.stores := rfl
@[simp] theorem Dev.putCore_atoms (x : Dev) (c : Nat) (y : CoreSt) : (x.putCore c y).atoms = x.atoms := rfl
@[simp] theorem Dev.putCore_cmds (x : Dev) (c : Nat) (y : CoreSt) : (x.putCore c y).cmds = x.cmds := rfl
@[simp] theorem Dev.putCore_engines (x : Dev) (c : Nat) (y : CoreSt) : (x.putCore c y).engines = x.engines := rfl
@[simp] theorem Dev.putCore_tiles (x : Dev) (c : Nat) (y : CoreSt) : (x.putCore c y).tiles = x.tiles := rfl
@[simp] theorem Dev.putCore_govs (x : Dev) (c : Nat) (y : CoreSt) : (x.putCore c y).govs = x.govs := rfl
@[simp] theorem Dev.putCore_folds (x : Dev) (c : Nat) (y : CoreSt) : (x.putCore c y).folds = x.folds := rfl
@[simp] theorem Dev.putCore_hbm (x : Dev) (c : Nat) (y : CoreSt) : (x.putCore c y).hbm = x.hbm := rfl
@[simp] theorem Dev.putCore_hbmP (x : Dev) (c : Nat) (y : CoreSt) : (x.putCore c y).hbmP = x.hbmP := rfl
@[simp] theorem Dev.putCore_l2 (x : Dev) (c : Nat) (y : CoreSt) : (x.putCore c y).l2 = x.l2 := rfl
@[simp] theorem Dev.putCore_predict (x : Dev) (c : Nat) (y : CoreSt) : (x.putCore c y).predict = x.predict := rfl
@[simp] theorem Dev.putCore_scheme (x : Dev) (c : Nat) (y : CoreSt) : (x.putCore c y).scheme = x.scheme := rfl
@[simp] theorem Dev.putCore_windows (x : Dev) (c : Nat) (y : CoreSt) : (x.putCore c y).windows = x.windows := rfl
@[simp] theorem Dev.putCore_tlb (x : Dev) (c : Nat) (y : CoreSt) : (x.putCore c y).tlb = x.tlb := rfl
@[simp] theorem Dev.putCore_walks (x : Dev) (c : Nat) (y : CoreSt) : (x.putCore c y).walks = x.walks := rfl
@[simp] theorem Dev.putCore_parks (x : Dev) (c : Nat) (y : CoreSt) : (x.putCore c y).parks = x.parks := rfl
@[simp] theorem Dev.putCore_hostTrained (x : Dev) (c : Nat) (y : CoreSt) : (x.putCore c y).hostTrained = x.hostTrained := rfl
@[simp] theorem Dev.putCore_hostUp (x : Dev) (c : Nat) (y : CoreSt) : (x.putCore c y).hostUp = x.hostUp := rfl
@[simp] theorem Dev.putCore_peerUp (x : Dev) (c : Nat) (y : CoreSt) : (x.putCore c y).peerUp = x.peerUp := rfl
@[simp] theorem Dev.putCore_timeouts (x : Dev) (c : Nat) (y : CoreSt) : (x.putCore c y).timeouts = x.timeouts := rfl
@[simp] theorem Dev.putCore_linkEcc (x : Dev) (c : Nat) (y : CoreSt) : (x.putCore c y).linkEcc = x.linkEcc := rfl
@[simp] theorem Dev.putCore_hostLimit (x : Dev) (c : Nat) (y : CoreSt) : (x.putCore c y).hostLimit = x.hostLimit := rfl
@[simp] theorem Dev.putCore_lost (x : Dev) (c : Nat) (y : CoreSt) : (x.putCore c y).lost = x.lost := rfl
@[simp] theorem Dev.putCore_exports (x : Dev) (c : Nat) (y : CoreSt) : (x.putCore c y).exports = x.exports := rfl
@[simp] theorem Dev.putCore_peerOut (x : Dev) (c : Nat) (y : CoreSt) : (x.putCore c y).peerOut = x.peerOut := rfl
@[simp] theorem Dev.putCore_heldMem (x : Dev) (c : Nat) (y : CoreSt) : (x.putCore c y).heldMem = x.heldMem := rfl
@[simp] theorem Dev.putCore_replies (x : Dev) (c : Nat) (y : CoreSt) : (x.putCore c y).replies = x.replies := rfl
@[simp] theorem Dev.putCore_hostMem (x : Dev) (c : Nat) (y : CoreSt) : (x.putCore c y).hostMem = x.hostMem := rfl
@[simp] theorem Dev.putCore_peerMem (x : Dev) (c : Nat) (y : CoreSt) : (x.putCore c y).peerMem = x.peerMem := rfl

@[simp] theorem Dev.putEngine_cycle (x : Dev) (c : Nat) (y : Engine) : (x.putEngine c y).cycle = x.cycle := rfl
@[simp] theorem Dev.putEngine_nextId (x : Dev) (c : Nat) (y : Engine) : (x.putEngine c y).nextId = x.nextId := rfl
@[simp] theorem Dev.putEngine_fresh (x : Dev) (c : Nat) (y : Engine) : (x.putEngine c y).fresh = x.fresh := rfl
@[simp] theorem Dev.putEngine_cur (x : Dev) (c : Nat) (y : Engine) : (x.putEngine c y).cur = x.cur := rfl
@[simp] theorem Dev.putEngine_parts (x : Dev) (c : Nat) (y : Engine) : (x.putEngine c y).parts = x.parts := rfl
@[simp] theorem Dev.putEngine_queues (x : Dev) (c : Nat) (y : Engine) : (x.putEngine c y).queues = x.queues := rfl
@[simp] theorem Dev.putEngine_launches (x : Dev) (c : Nat) (y : Engine) : (x.putEngine c y).launches = x.launches := rfl
@[simp] theorem Dev.putEngine_blocks (x : Dev) (c : Nat) (y : Engine) : (x.putEngine c y).blocks = x.blocks := rfl
@[simp] theorem Dev.putEngine_cores (x : Dev) (c : Nat) (y : Engine) : (x.putEngine c y).cores = x.cores := rfl
@[simp] theorem Dev.putEngine_loads (x : Dev) (c : Nat) (y : Engine) : (x.putEngine c y).loads = x.loads := rfl
@[simp] theorem Dev.putEngine_stores (x : Dev) (c : Nat) (y : Engine) : (x.putEngine c y).stores = x.stores := rfl
@[simp] theorem Dev.putEngine_atoms (x : Dev) (c : Nat) (y : Engine) : (x.putEngine c y).atoms = x.atoms := rfl
@[simp] theorem Dev.putEngine_cmds (x : Dev) (c : Nat) (y : Engine) : (x.putEngine c y).cmds = x.cmds := rfl
@[simp] theorem Dev.putEngine_tiles (x : Dev) (c : Nat) (y : Engine) : (x.putEngine c y).tiles = x.tiles := rfl
@[simp] theorem Dev.putEngine_govs (x : Dev) (c : Nat) (y : Engine) : (x.putEngine c y).govs = x.govs := rfl
@[simp] theorem Dev.putEngine_folds (x : Dev) (c : Nat) (y : Engine) : (x.putEngine c y).folds = x.folds := rfl
@[simp] theorem Dev.putEngine_hbm (x : Dev) (c : Nat) (y : Engine) : (x.putEngine c y).hbm = x.hbm := rfl
@[simp] theorem Dev.putEngine_hbmP (x : Dev) (c : Nat) (y : Engine) : (x.putEngine c y).hbmP = x.hbmP := rfl
@[simp] theorem Dev.putEngine_l2 (x : Dev) (c : Nat) (y : Engine) : (x.putEngine c y).l2 = x.l2 := rfl
@[simp] theorem Dev.putEngine_predict (x : Dev) (c : Nat) (y : Engine) : (x.putEngine c y).predict = x.predict := rfl
@[simp] theorem Dev.putEngine_scheme (x : Dev) (c : Nat) (y : Engine) : (x.putEngine c y).scheme = x.scheme := rfl
@[simp] theorem Dev.putEngine_windows (x : Dev) (c : Nat) (y : Engine) : (x.putEngine c y).windows = x.windows := rfl
@[simp] theorem Dev.putEngine_tlb (x : Dev) (c : Nat) (y : Engine) : (x.putEngine c y).tlb = x.tlb := rfl
@[simp] theorem Dev.putEngine_walks (x : Dev) (c : Nat) (y : Engine) : (x.putEngine c y).walks = x.walks := rfl
@[simp] theorem Dev.putEngine_parks (x : Dev) (c : Nat) (y : Engine) : (x.putEngine c y).parks = x.parks := rfl
@[simp] theorem Dev.putEngine_hostTrained (x : Dev) (c : Nat) (y : Engine) : (x.putEngine c y).hostTrained = x.hostTrained := rfl
@[simp] theorem Dev.putEngine_hostUp (x : Dev) (c : Nat) (y : Engine) : (x.putEngine c y).hostUp = x.hostUp := rfl
@[simp] theorem Dev.putEngine_peerUp (x : Dev) (c : Nat) (y : Engine) : (x.putEngine c y).peerUp = x.peerUp := rfl
@[simp] theorem Dev.putEngine_timeouts (x : Dev) (c : Nat) (y : Engine) : (x.putEngine c y).timeouts = x.timeouts := rfl
@[simp] theorem Dev.putEngine_linkEcc (x : Dev) (c : Nat) (y : Engine) : (x.putEngine c y).linkEcc = x.linkEcc := rfl
@[simp] theorem Dev.putEngine_hostLimit (x : Dev) (c : Nat) (y : Engine) : (x.putEngine c y).hostLimit = x.hostLimit := rfl
@[simp] theorem Dev.putEngine_lost (x : Dev) (c : Nat) (y : Engine) : (x.putEngine c y).lost = x.lost := rfl
@[simp] theorem Dev.putEngine_exports (x : Dev) (c : Nat) (y : Engine) : (x.putEngine c y).exports = x.exports := rfl
@[simp] theorem Dev.putEngine_peerOut (x : Dev) (c : Nat) (y : Engine) : (x.putEngine c y).peerOut = x.peerOut := rfl
@[simp] theorem Dev.putEngine_heldMem (x : Dev) (c : Nat) (y : Engine) : (x.putEngine c y).heldMem = x.heldMem := rfl
@[simp] theorem Dev.putEngine_replies (x : Dev) (c : Nat) (y : Engine) : (x.putEngine c y).replies = x.replies := rfl
@[simp] theorem Dev.putEngine_hostMem (x : Dev) (c : Nat) (y : Engine) : (x.putEngine c y).hostMem = x.hostMem := rfl
@[simp] theorem Dev.putEngine_peerMem (x : Dev) (c : Nat) (y : Engine) : (x.putEngine c y).peerMem = x.peerMem := rfl

@[simp] theorem Dev.putGov_cycle (x : Dev) (c : Nat) (y : Governor) : (x.putGov c y).cycle = x.cycle := rfl
@[simp] theorem Dev.putGov_nextId (x : Dev) (c : Nat) (y : Governor) : (x.putGov c y).nextId = x.nextId := rfl
@[simp] theorem Dev.putGov_fresh (x : Dev) (c : Nat) (y : Governor) : (x.putGov c y).fresh = x.fresh := rfl
@[simp] theorem Dev.putGov_cur (x : Dev) (c : Nat) (y : Governor) : (x.putGov c y).cur = x.cur := rfl
@[simp] theorem Dev.putGov_parts (x : Dev) (c : Nat) (y : Governor) : (x.putGov c y).parts = x.parts := rfl
@[simp] theorem Dev.putGov_queues (x : Dev) (c : Nat) (y : Governor) : (x.putGov c y).queues = x.queues := rfl
@[simp] theorem Dev.putGov_launches (x : Dev) (c : Nat) (y : Governor) : (x.putGov c y).launches = x.launches := rfl
@[simp] theorem Dev.putGov_blocks (x : Dev) (c : Nat) (y : Governor) : (x.putGov c y).blocks = x.blocks := rfl
@[simp] theorem Dev.putGov_cores (x : Dev) (c : Nat) (y : Governor) : (x.putGov c y).cores = x.cores := rfl
@[simp] theorem Dev.putGov_loads (x : Dev) (c : Nat) (y : Governor) : (x.putGov c y).loads = x.loads := rfl
@[simp] theorem Dev.putGov_stores (x : Dev) (c : Nat) (y : Governor) : (x.putGov c y).stores = x.stores := rfl
@[simp] theorem Dev.putGov_atoms (x : Dev) (c : Nat) (y : Governor) : (x.putGov c y).atoms = x.atoms := rfl
@[simp] theorem Dev.putGov_cmds (x : Dev) (c : Nat) (y : Governor) : (x.putGov c y).cmds = x.cmds := rfl
@[simp] theorem Dev.putGov_engines (x : Dev) (c : Nat) (y : Governor) : (x.putGov c y).engines = x.engines := rfl
@[simp] theorem Dev.putGov_tiles (x : Dev) (c : Nat) (y : Governor) : (x.putGov c y).tiles = x.tiles := rfl
@[simp] theorem Dev.putGov_folds (x : Dev) (c : Nat) (y : Governor) : (x.putGov c y).folds = x.folds := rfl
@[simp] theorem Dev.putGov_hbm (x : Dev) (c : Nat) (y : Governor) : (x.putGov c y).hbm = x.hbm := rfl
@[simp] theorem Dev.putGov_hbmP (x : Dev) (c : Nat) (y : Governor) : (x.putGov c y).hbmP = x.hbmP := rfl
@[simp] theorem Dev.putGov_l2 (x : Dev) (c : Nat) (y : Governor) : (x.putGov c y).l2 = x.l2 := rfl
@[simp] theorem Dev.putGov_predict (x : Dev) (c : Nat) (y : Governor) : (x.putGov c y).predict = x.predict := rfl
@[simp] theorem Dev.putGov_scheme (x : Dev) (c : Nat) (y : Governor) : (x.putGov c y).scheme = x.scheme := rfl
@[simp] theorem Dev.putGov_windows (x : Dev) (c : Nat) (y : Governor) : (x.putGov c y).windows = x.windows := rfl
@[simp] theorem Dev.putGov_tlb (x : Dev) (c : Nat) (y : Governor) : (x.putGov c y).tlb = x.tlb := rfl
@[simp] theorem Dev.putGov_walks (x : Dev) (c : Nat) (y : Governor) : (x.putGov c y).walks = x.walks := rfl
@[simp] theorem Dev.putGov_parks (x : Dev) (c : Nat) (y : Governor) : (x.putGov c y).parks = x.parks := rfl
@[simp] theorem Dev.putGov_hostTrained (x : Dev) (c : Nat) (y : Governor) : (x.putGov c y).hostTrained = x.hostTrained := rfl
@[simp] theorem Dev.putGov_hostUp (x : Dev) (c : Nat) (y : Governor) : (x.putGov c y).hostUp = x.hostUp := rfl
@[simp] theorem Dev.putGov_peerUp (x : Dev) (c : Nat) (y : Governor) : (x.putGov c y).peerUp = x.peerUp := rfl
@[simp] theorem Dev.putGov_timeouts (x : Dev) (c : Nat) (y : Governor) : (x.putGov c y).timeouts = x.timeouts := rfl
@[simp] theorem Dev.putGov_linkEcc (x : Dev) (c : Nat) (y : Governor) : (x.putGov c y).linkEcc = x.linkEcc := rfl
@[simp] theorem Dev.putGov_hostLimit (x : Dev) (c : Nat) (y : Governor) : (x.putGov c y).hostLimit = x.hostLimit := rfl
@[simp] theorem Dev.putGov_lost (x : Dev) (c : Nat) (y : Governor) : (x.putGov c y).lost = x.lost := rfl
@[simp] theorem Dev.putGov_exports (x : Dev) (c : Nat) (y : Governor) : (x.putGov c y).exports = x.exports := rfl
@[simp] theorem Dev.putGov_peerOut (x : Dev) (c : Nat) (y : Governor) : (x.putGov c y).peerOut = x.peerOut := rfl
@[simp] theorem Dev.putGov_heldMem (x : Dev) (c : Nat) (y : Governor) : (x.putGov c y).heldMem = x.heldMem := rfl
@[simp] theorem Dev.putGov_replies (x : Dev) (c : Nat) (y : Governor) : (x.putGov c y).replies = x.replies := rfl
@[simp] theorem Dev.putGov_hostMem (x : Dev) (c : Nat) (y : Governor) : (x.putGov c y).hostMem = x.hostMem := rfl
@[simp] theorem Dev.putGov_peerMem (x : Dev) (c : Nat) (y : Governor) : (x.putGov c y).peerMem = x.peerMem := rfl

@[simp] theorem Dev.putQueue_cycle (x : Dev) (q : Nat) (y : Queue) : (x.putQueue q y).cycle = x.cycle := rfl
@[simp] theorem Dev.putQueue_nextId (x : Dev) (q : Nat) (y : Queue) : (x.putQueue q y).nextId = x.nextId := rfl
@[simp] theorem Dev.putQueue_fresh (x : Dev) (q : Nat) (y : Queue) : (x.putQueue q y).fresh = x.fresh := rfl
@[simp] theorem Dev.putQueue_cur (x : Dev) (q : Nat) (y : Queue) : (x.putQueue q y).cur = x.cur := rfl
@[simp] theorem Dev.putQueue_parts (x : Dev) (q : Nat) (y : Queue) : (x.putQueue q y).parts = x.parts := rfl
@[simp] theorem Dev.putQueue_launches (x : Dev) (q : Nat) (y : Queue) : (x.putQueue q y).launches = x.launches := rfl
@[simp] theorem Dev.putQueue_blocks (x : Dev) (q : Nat) (y : Queue) : (x.putQueue q y).blocks = x.blocks := rfl
@[simp] theorem Dev.putQueue_cores (x : Dev) (q : Nat) (y : Queue) : (x.putQueue q y).cores = x.cores := rfl
@[simp] theorem Dev.putQueue_loads (x : Dev) (q : Nat) (y : Queue) : (x.putQueue q y).loads = x.loads := rfl
@[simp] theorem Dev.putQueue_stores (x : Dev) (q : Nat) (y : Queue) : (x.putQueue q y).stores = x.stores := rfl
@[simp] theorem Dev.putQueue_atoms (x : Dev) (q : Nat) (y : Queue) : (x.putQueue q y).atoms = x.atoms := rfl
@[simp] theorem Dev.putQueue_cmds (x : Dev) (q : Nat) (y : Queue) : (x.putQueue q y).cmds = x.cmds := rfl
@[simp] theorem Dev.putQueue_engines (x : Dev) (q : Nat) (y : Queue) : (x.putQueue q y).engines = x.engines := rfl
@[simp] theorem Dev.putQueue_tiles (x : Dev) (q : Nat) (y : Queue) : (x.putQueue q y).tiles = x.tiles := rfl
@[simp] theorem Dev.putQueue_govs (x : Dev) (q : Nat) (y : Queue) : (x.putQueue q y).govs = x.govs := rfl
@[simp] theorem Dev.putQueue_folds (x : Dev) (q : Nat) (y : Queue) : (x.putQueue q y).folds = x.folds := rfl
@[simp] theorem Dev.putQueue_hbm (x : Dev) (q : Nat) (y : Queue) : (x.putQueue q y).hbm = x.hbm := rfl
@[simp] theorem Dev.putQueue_hbmP (x : Dev) (q : Nat) (y : Queue) : (x.putQueue q y).hbmP = x.hbmP := rfl
@[simp] theorem Dev.putQueue_l2 (x : Dev) (q : Nat) (y : Queue) : (x.putQueue q y).l2 = x.l2 := rfl
@[simp] theorem Dev.putQueue_predict (x : Dev) (q : Nat) (y : Queue) : (x.putQueue q y).predict = x.predict := rfl
@[simp] theorem Dev.putQueue_scheme (x : Dev) (q : Nat) (y : Queue) : (x.putQueue q y).scheme = x.scheme := rfl
@[simp] theorem Dev.putQueue_windows (x : Dev) (q : Nat) (y : Queue) : (x.putQueue q y).windows = x.windows := rfl
@[simp] theorem Dev.putQueue_tlb (x : Dev) (q : Nat) (y : Queue) : (x.putQueue q y).tlb = x.tlb := rfl
@[simp] theorem Dev.putQueue_walks (x : Dev) (q : Nat) (y : Queue) : (x.putQueue q y).walks = x.walks := rfl
@[simp] theorem Dev.putQueue_parks (x : Dev) (q : Nat) (y : Queue) : (x.putQueue q y).parks = x.parks := rfl
@[simp] theorem Dev.putQueue_hostTrained (x : Dev) (q : Nat) (y : Queue) : (x.putQueue q y).hostTrained = x.hostTrained := rfl
@[simp] theorem Dev.putQueue_hostUp (x : Dev) (q : Nat) (y : Queue) : (x.putQueue q y).hostUp = x.hostUp := rfl
@[simp] theorem Dev.putQueue_peerUp (x : Dev) (q : Nat) (y : Queue) : (x.putQueue q y).peerUp = x.peerUp := rfl
@[simp] theorem Dev.putQueue_timeouts (x : Dev) (q : Nat) (y : Queue) : (x.putQueue q y).timeouts = x.timeouts := rfl
@[simp] theorem Dev.putQueue_linkEcc (x : Dev) (q : Nat) (y : Queue) : (x.putQueue q y).linkEcc = x.linkEcc := rfl
@[simp] theorem Dev.putQueue_hostLimit (x : Dev) (q : Nat) (y : Queue) : (x.putQueue q y).hostLimit = x.hostLimit := rfl
@[simp] theorem Dev.putQueue_lost (x : Dev) (q : Nat) (y : Queue) : (x.putQueue q y).lost = x.lost := rfl
@[simp] theorem Dev.putQueue_exports (x : Dev) (q : Nat) (y : Queue) : (x.putQueue q y).exports = x.exports := rfl
@[simp] theorem Dev.putQueue_peerOut (x : Dev) (q : Nat) (y : Queue) : (x.putQueue q y).peerOut = x.peerOut := rfl
@[simp] theorem Dev.putQueue_heldMem (x : Dev) (q : Nat) (y : Queue) : (x.putQueue q y).heldMem = x.heldMem := rfl
@[simp] theorem Dev.putQueue_replies (x : Dev) (q : Nat) (y : Queue) : (x.putQueue q y).replies = x.replies := rfl
@[simp] theorem Dev.putQueue_hostMem (x : Dev) (q : Nat) (y : Queue) : (x.putQueue q y).hostMem = x.hostMem := rfl
@[simp] theorem Dev.putQueue_peerMem (x : Dev) (q : Nat) (y : Queue) : (x.putQueue q y).peerMem = x.peerMem := rfl

@[simp] theorem Dev.modLaunch_cycle (x : Dev) (l : Nat) (f : Launch → Launch) : (x.modLaunch l f).cycle = x.cycle := by unfold Dev.modLaunch; split <;> rfl
@[simp] theorem Dev.modLaunch_nextId (x : Dev) (l : Nat) (f : Launch → Launch) : (x.modLaunch l f).nextId = x.nextId := by unfold Dev.modLaunch; split <;> rfl
@[simp] theorem Dev.modLaunch_fresh (x : Dev) (l : Nat) (f : Launch → Launch) : (x.modLaunch l f).fresh = x.fresh := by unfold Dev.modLaunch; split <;> rfl
@[simp] theorem Dev.modLaunch_cur (x : Dev) (l : Nat) (f : Launch → Launch) : (x.modLaunch l f).cur = x.cur := by unfold Dev.modLaunch; split <;> rfl
@[simp] theorem Dev.modLaunch_parts (x : Dev) (l : Nat) (f : Launch → Launch) : (x.modLaunch l f).parts = x.parts := by unfold Dev.modLaunch; split <;> rfl
@[simp] theorem Dev.modLaunch_queues (x : Dev) (l : Nat) (f : Launch → Launch) : (x.modLaunch l f).queues = x.queues := by unfold Dev.modLaunch; split <;> rfl
@[simp] theorem Dev.modLaunch_blocks (x : Dev) (l : Nat) (f : Launch → Launch) : (x.modLaunch l f).blocks = x.blocks := by unfold Dev.modLaunch; split <;> rfl
@[simp] theorem Dev.modLaunch_cores (x : Dev) (l : Nat) (f : Launch → Launch) : (x.modLaunch l f).cores = x.cores := by unfold Dev.modLaunch; split <;> rfl
@[simp] theorem Dev.modLaunch_loads (x : Dev) (l : Nat) (f : Launch → Launch) : (x.modLaunch l f).loads = x.loads := by unfold Dev.modLaunch; split <;> rfl
@[simp] theorem Dev.modLaunch_stores (x : Dev) (l : Nat) (f : Launch → Launch) : (x.modLaunch l f).stores = x.stores := by unfold Dev.modLaunch; split <;> rfl
@[simp] theorem Dev.modLaunch_atoms (x : Dev) (l : Nat) (f : Launch → Launch) : (x.modLaunch l f).atoms = x.atoms := by unfold Dev.modLaunch; split <;> rfl
@[simp] theorem Dev.modLaunch_cmds (x : Dev) (l : Nat) (f : Launch → Launch) : (x.modLaunch l f).cmds = x.cmds := by unfold Dev.modLaunch; split <;> rfl
@[simp] theorem Dev.modLaunch_engines (x : Dev) (l : Nat) (f : Launch → Launch) : (x.modLaunch l f).engines = x.engines := by unfold Dev.modLaunch; split <;> rfl
@[simp] theorem Dev.modLaunch_tiles (x : Dev) (l : Nat) (f : Launch → Launch) : (x.modLaunch l f).tiles = x.tiles := by unfold Dev.modLaunch; split <;> rfl
@[simp] theorem Dev.modLaunch_govs (x : Dev) (l : Nat) (f : Launch → Launch) : (x.modLaunch l f).govs = x.govs := by unfold Dev.modLaunch; split <;> rfl
@[simp] theorem Dev.modLaunch_folds (x : Dev) (l : Nat) (f : Launch → Launch) : (x.modLaunch l f).folds = x.folds := by unfold Dev.modLaunch; split <;> rfl
@[simp] theorem Dev.modLaunch_hbm (x : Dev) (l : Nat) (f : Launch → Launch) : (x.modLaunch l f).hbm = x.hbm := by unfold Dev.modLaunch; split <;> rfl
@[simp] theorem Dev.modLaunch_hbmP (x : Dev) (l : Nat) (f : Launch → Launch) : (x.modLaunch l f).hbmP = x.hbmP := by unfold Dev.modLaunch; split <;> rfl
@[simp] theorem Dev.modLaunch_l2 (x : Dev) (l : Nat) (f : Launch → Launch) : (x.modLaunch l f).l2 = x.l2 := by unfold Dev.modLaunch; split <;> rfl
@[simp] theorem Dev.modLaunch_predict (x : Dev) (l : Nat) (f : Launch → Launch) : (x.modLaunch l f).predict = x.predict := by unfold Dev.modLaunch; split <;> rfl
@[simp] theorem Dev.modLaunch_scheme (x : Dev) (l : Nat) (f : Launch → Launch) : (x.modLaunch l f).scheme = x.scheme := by unfold Dev.modLaunch; split <;> rfl
@[simp] theorem Dev.modLaunch_windows (x : Dev) (l : Nat) (f : Launch → Launch) : (x.modLaunch l f).windows = x.windows := by unfold Dev.modLaunch; split <;> rfl
@[simp] theorem Dev.modLaunch_tlb (x : Dev) (l : Nat) (f : Launch → Launch) : (x.modLaunch l f).tlb = x.tlb := by unfold Dev.modLaunch; split <;> rfl
@[simp] theorem Dev.modLaunch_walks (x : Dev) (l : Nat) (f : Launch → Launch) : (x.modLaunch l f).walks = x.walks := by unfold Dev.modLaunch; split <;> rfl
@[simp] theorem Dev.modLaunch_parks (x : Dev) (l : Nat) (f : Launch → Launch) : (x.modLaunch l f).parks = x.parks := by unfold Dev.modLaunch; split <;> rfl
@[simp] theorem Dev.modLaunch_hostTrained (x : Dev) (l : Nat) (f : Launch → Launch) : (x.modLaunch l f).hostTrained = x.hostTrained := by unfold Dev.modLaunch; split <;> rfl
@[simp] theorem Dev.modLaunch_hostUp (x : Dev) (l : Nat) (f : Launch → Launch) : (x.modLaunch l f).hostUp = x.hostUp := by unfold Dev.modLaunch; split <;> rfl
@[simp] theorem Dev.modLaunch_peerUp (x : Dev) (l : Nat) (f : Launch → Launch) : (x.modLaunch l f).peerUp = x.peerUp := by unfold Dev.modLaunch; split <;> rfl
@[simp] theorem Dev.modLaunch_timeouts (x : Dev) (l : Nat) (f : Launch → Launch) : (x.modLaunch l f).timeouts = x.timeouts := by unfold Dev.modLaunch; split <;> rfl
@[simp] theorem Dev.modLaunch_linkEcc (x : Dev) (l : Nat) (f : Launch → Launch) : (x.modLaunch l f).linkEcc = x.linkEcc := by unfold Dev.modLaunch; split <;> rfl
@[simp] theorem Dev.modLaunch_hostLimit (x : Dev) (l : Nat) (f : Launch → Launch) : (x.modLaunch l f).hostLimit = x.hostLimit := by unfold Dev.modLaunch; split <;> rfl
@[simp] theorem Dev.modLaunch_lost (x : Dev) (l : Nat) (f : Launch → Launch) : (x.modLaunch l f).lost = x.lost := by unfold Dev.modLaunch; split <;> rfl
@[simp] theorem Dev.modLaunch_exports (x : Dev) (l : Nat) (f : Launch → Launch) : (x.modLaunch l f).exports = x.exports := by unfold Dev.modLaunch; split <;> rfl
@[simp] theorem Dev.modLaunch_peerOut (x : Dev) (l : Nat) (f : Launch → Launch) : (x.modLaunch l f).peerOut = x.peerOut := by unfold Dev.modLaunch; split <;> rfl
@[simp] theorem Dev.modLaunch_heldMem (x : Dev) (l : Nat) (f : Launch → Launch) : (x.modLaunch l f).heldMem = x.heldMem := by unfold Dev.modLaunch; split <;> rfl
@[simp] theorem Dev.modLaunch_replies (x : Dev) (l : Nat) (f : Launch → Launch) : (x.modLaunch l f).replies = x.replies := by unfold Dev.modLaunch; split <;> rfl
@[simp] theorem Dev.modLaunch_hostMem (x : Dev) (l : Nat) (f : Launch → Launch) : (x.modLaunch l f).hostMem = x.hostMem := by unfold Dev.modLaunch; split <;> rfl
@[simp] theorem Dev.modLaunch_peerMem (x : Dev) (l : Nat) (f : Launch → Launch) : (x.modLaunch l f).peerMem = x.peerMem := by unfold Dev.modLaunch; split <;> rfl

/-- The group put into a place stands there, and every other place keeps its group. -/
theorem Dev.group_putGroup (x : Dev) (b n : Nat) (g : Group) (b' n' : Nat) :
    (x.putGroup b n g).group b' n' = if b' = b ∧ n' = n ∧ (x.group b n).isSome = true then some g else x.group b' n' := by
  unfold Dev.putGroup Dev.modGroup Dev.modBlock Dev.group
  cases hb : x.blocks[b]? with
  | none =>
    simp only [Option.bind_none, Option.isSome_none, Bool.false_eq_true, and_false, if_false]
  | some k =>
    have hlt : b < x.blocks.length := (List.getElem?_eq_some_iff.1 hb).1
    have hk : x.blocks[b] = k := (List.getElem?_eq_some_iff.1 hb).2
    simp only [Option.bind_some]
    by_cases h : b' = b
    · subst h
      rcases Option.eq_none_or_eq_some k.groups[n]? with hg | ⟨y, hg⟩
      · simp only [hg]; simp [setNth_eq_set, hlt, hk]
      · have hn : n < k.groups.length := (List.getElem?_eq_some_iff.1 hg).1
        simp only [hg]
        by_cases hn' : n' = n
        · subst hn'; simp [setNth_eq_set, hlt, hn]
        · simp [setNth_eq_set, hlt, hn', Ne.symm hn', hk]
    · simp [setNth_eq_set, h, Ne.symm h]

/-! ### Group -/

@[simp] theorem Group.setRaw_role (x : Group) (r : RegRef) (l : Nat) (w : Word) (p : Nat) : (x.setRaw r l w p).role = x.role := by cases r <;> rfl
@[simp] theorem Group.setRaw_idx (x : Group) (r : RegRef) (l : Nat) (w : Word) (p : Nat) : (x.setRaw r l w p).idx = x.idx := by cases r <;> rfl
@[simp] theorem Group.setRaw_budget (x : Group) (r : RegRef) (l : Nat) (w : Word) (p : Nat) : (x.setRaw r l w p).budget = x.budget := by cases r <;> rfl
@[simp] theorem Group.setRaw_helper (x : Group) (r : RegRef) (l : Nat) (w : Word) (p : Nat) : (x.setRaw r l w p).helper = x.helper := by cases r <;> rfl
@[simp] theorem Group.setRaw_live (x : Group) (r : RegRef) (l : Nat) (w : Word) (p : Nat) : (x.setRaw r l w p).live = x.live := by cases r <;> rfl
@[simp] theorem Group.setRaw_p (x : Group) (r : RegRef) (l : Nat) (w : Word) (p : Nat) : (x.setRaw r l w p).p = x.p := by cases r <;> rfl
@[simp] theorem Group.setRaw_plink (x : Group) (r : RegRef) (l : Nat) (w : Word) (p : Nat) : (x.setRaw r l w p).plink = x.plink := by cases r <;> rfl
@[simp] theorem Group.setRaw_jE (x : Group) (r : RegRef) (l : Nat) (w : Word) (p : Nat) : (x.setRaw r l w p).jE = x.jE := by cases r <;> rfl
@[simp] theorem Group.setRaw_jA (x : Group) (r : RegRef) (l : Nat) (w : Word) (p : Nat) : (x.setRaw r l w p).jA = x.jA := by cases r <;> rfl
@[simp] theorem Group.setRaw_dl (x : Group) (r : RegRef) (l : Nat) (w : Word) (p : Nat) : (x.setRaw r l w p).dl = x.dl := by cases r <;> rfl
@[simp] theorem Group.setRaw_mark (x : Group) (r : RegRef) (l : Nat) (w : Word) (p : Nat) : (x.setRaw r l w p).mark = x.mark := by cases r <;> rfl
@[simp] theorem Group.setRaw_gcr (x : Group) (r : RegRef) (l : Nat) (w : Word) (p : Nat) : (x.setRaw r l w p).gcr = x.gcr := by cases r <;> rfl
@[simp] theorem Group.setRaw_gfl (x : Group) (r : RegRef) (l : Nat) (w : Word) (p : Nat) : (x.setRaw r l w p).gfl = x.gfl := by cases r <;> rfl
@[simp] theorem Group.setRaw_clk (x : Group) (r : RegRef) (l : Nat) (w : Word) (p : Nat) : (x.setRaw r l w p).clk = x.clk := by cases r <;> rfl
@[simp] theorem Group.setRaw_lp (x : Group) (r : RegRef) (l : Nat) (w : Word) (p : Nat) : (x.setRaw r l w p).lp = x.lp := by cases r <;> rfl
@[simp] theorem Group.setRaw_lpp (x : Group) (r : RegRef) (l : Nat) (w : Word) (p : Nat) : (x.setRaw r l w p).lpp = x.lpp := by cases r <;> rfl
@[simp] theorem Group.setRaw_frontier (x : Group) (r : RegRef) (l : Nat) (w : Word) (p : Nat) : (x.setRaw r l w p).frontier = x.frontier := by cases r <;> rfl
@[simp] theorem Group.setRaw_sel (x : Group) (r : RegRef) (l : Nat) (w : Word) (p : Nat) : (x.setRaw r l w p).sel = x.sel := by cases r <;> rfl
@[simp] theorem Group.setRaw_why (x : Group) (r : RegRef) (l : Nat) (w : Word) (p : Nat) : (x.setRaw r l w p).why = x.why := by cases r <;> rfl
@[simp] theorem Group.setRaw_cmd (x : Group) (r : RegRef) (l : Nat) (w : Word) (p : Nat) : (x.setRaw r l w p).cmd = x.cmd := by cases r <;> rfl
@[simp] theorem Group.setRaw_redo (x : Group) (r : RegRef) (l : Nat) (w : Word) (p : Nat) : (x.setRaw r l w p).redo = x.redo := by cases r <;> rfl
@[simp] theorem Group.setRaw_woken (x : Group) (r : RegRef) (l : Nat) (w : Word) (p : Nat) : (x.setRaw r l w p).woken = x.woken := by cases r <;> rfl
@[simp] theorem Group.setRaw_primSince (x : Group) (r : RegRef) (l : Nat) (w : Word) (p : Nat) : (x.setRaw r l w p).primSince = x.primSince := by cases r <;> rfl
@[simp] theorem Group.setRaw_readyAt (x : Group) (r : RegRef) (l : Nat) (w : Word) (p : Nat) : (x.setRaw r l w p).readyAt = x.readyAt := by cases r <;> rfl
@[simp] theorem Group.setRaw_slot (x : Group) (r : RegRef) (l : Nat) (w : Word) (p : Nat) : (x.setRaw r l w p).slot = x.slot := by cases r <;> rfl
@[simp] theorem Group.setRaw_flights (x : Group) (r : RegRef) (l : Nat) (w : Word) (p : Nat) : (x.setRaw r l w p).flights = x.flights := by cases r <;> rfl
@[simp] theorem Group.setRaw_barRec (x : Group) (r : RegRef) (l : Nat) (w : Word) (p : Nat) : (x.setRaw r l w p).barRec = x.barRec := by cases r <;> rfl
@[simp] theorem Group.setRaw_stage (x : Group) (r : RegRef) (l : Nat) (w : Word) (p : Nat) : (x.setRaw r l w p).stage = x.stage := by cases r <;> rfl
@[simp] theorem Group.setRaw_levelH (x : Group) (r : RegRef) (l : Nat) (w : Word) (p : Nat) : (x.setRaw r l w p).levelH = x.levelH := by cases r <;> rfl
@[simp] theorem Group.setRaw_hseg (x : Group) (r : RegRef) (l : Nat) (w : Word) (p : Nat) : (x.setRaw r l w p).hseg = x.hseg := by cases r <;> rfl
@[simp] theorem Group.setRaw_hlen (x : Group) (r : RegRef) (l : Nat) (w : Word) (p : Nat) : (x.setRaw r l w p).hlen = x.hlen := by cases r <;> rfl
@[simp] theorem Group.setRaw_saved (x : Group) (r : RegRef) (l : Nat) (w : Word) (p : Nat) : (x.setRaw r l w p).saved = x.saved := by cases r <;> rfl
@[simp] theorem Group.setRaw_faultPc (x : Group) (r : RegRef) (l : Nat) (w : Word) (p : Nat) : (x.setRaw r l w p).faultPc = x.faultPc := by cases r <;> rfl
@[simp] theorem Group.setRaw_faultMask (x : Group) (r : RegRef) (l : Nat) (w : Word) (p : Nat) : (x.setRaw r l w p).faultMask = x.faultMask := by cases r <;> rfl
@[simp] theorem Group.setRaw_trap (x : Group) (r : RegRef) (l : Nat) (w : Word) (p : Nat) : (x.setRaw r l w p).trap = x.trap := by cases r <;> rfl
@[simp] theorem Group.setRaw_tcnt (x : Group) (r : RegRef) (l : Nat) (w : Word) (p : Nat) : (x.setRaw r l w p).tcnt = x.tcnt := by cases r <;> rfl
@[simp] theorem Group.setRaw_kinfo (x : Group) (r : RegRef) (l : Nat) (w : Word) (p : Nat) : (x.setRaw r l w p).kinfo = x.kinfo := by cases r <;> rfl
@[simp] theorem Group.setRaw_pend (x : Group) (r : RegRef) (l : Nat) (w : Word) (p : Nat) : (x.setRaw r l w p).pend = x.pend := by cases r <;> rfl

@[simp] theorem Group.setWord_role (x : Group) (r : RegRef) (l : Nat) (w : Word) : (x.setWord r l w).role = x.role := by cases r <;> rfl
@[simp] theorem Group.setWord_idx (x : Group) (r : RegRef) (l : Nat) (w : Word) : (x.setWord r l w).idx = x.idx := by cases r <;> rfl
@[simp] theorem Group.setWord_budget (x : Group) (r : RegRef) (l : Nat) (w : Word) : (x.setWord r l w).budget = x.budget := by cases r <;> rfl
@[simp] theorem Group.setWord_helper (x : Group) (r : RegRef) (l : Nat) (w : Word) : (x.setWord r l w).helper = x.helper := by cases r <;> rfl
@[simp] theorem Group.setWord_live (x : Group) (r : RegRef) (l : Nat) (w : Word) : (x.setWord r l w).live = x.live := by cases r <;> rfl
@[simp] theorem Group.setWord_p (x : Group) (r : RegRef) (l : Nat) (w : Word) : (x.setWord r l w).p = x.p := by cases r <;> rfl
@[simp] theorem Group.setWord_plink (x : Group) (r : RegRef) (l : Nat) (w : Word) : (x.setWord r l w).plink = x.plink := by cases r <;> rfl
@[simp] theorem Group.setWord_jE (x : Group) (r : RegRef) (l : Nat) (w : Word) : (x.setWord r l w).jE = x.jE := by cases r <;> rfl
@[simp] theorem Group.setWord_jA (x : Group) (r : RegRef) (l : Nat) (w : Word) : (x.setWord r l w).jA = x.jA := by cases r <;> rfl
@[simp] theorem Group.setWord_dl (x : Group) (r : RegRef) (l : Nat) (w : Word) : (x.setWord r l w).dl = x.dl := by cases r <;> rfl
@[simp] theorem Group.setWord_mark (x : Group) (r : RegRef) (l : Nat) (w : Word) : (x.setWord r l w).mark = x.mark := by cases r <;> rfl
@[simp] theorem Group.setWord_gcr (x : Group) (r : RegRef) (l : Nat) (w : Word) : (x.setWord r l w).gcr = x.gcr := by cases r <;> rfl
@[simp] theorem Group.setWord_gfl (x : Group) (r : RegRef) (l : Nat) (w : Word) : (x.setWord r l w).gfl = x.gfl := by cases r <;> rfl
@[simp] theorem Group.setWord_clk (x : Group) (r : RegRef) (l : Nat) (w : Word) : (x.setWord r l w).clk = x.clk := by cases r <;> rfl
@[simp] theorem Group.setWord_lp (x : Group) (r : RegRef) (l : Nat) (w : Word) : (x.setWord r l w).lp = x.lp := by cases r <;> rfl
@[simp] theorem Group.setWord_lpp (x : Group) (r : RegRef) (l : Nat) (w : Word) : (x.setWord r l w).lpp = x.lpp := by cases r <;> rfl
@[simp] theorem Group.setWord_frontier (x : Group) (r : RegRef) (l : Nat) (w : Word) : (x.setWord r l w).frontier = x.frontier := by cases r <;> rfl
@[simp] theorem Group.setWord_sel (x : Group) (r : RegRef) (l : Nat) (w : Word) : (x.setWord r l w).sel = x.sel := by cases r <;> rfl
@[simp] theorem Group.setWord_why (x : Group) (r : RegRef) (l : Nat) (w : Word) : (x.setWord r l w).why = x.why := by cases r <;> rfl
@[simp] theorem Group.setWord_cmd (x : Group) (r : RegRef) (l : Nat) (w : Word) : (x.setWord r l w).cmd = x.cmd := by cases r <;> rfl
@[simp] theorem Group.setWord_redo (x : Group) (r : RegRef) (l : Nat) (w : Word) : (x.setWord r l w).redo = x.redo := by cases r <;> rfl
@[simp] theorem Group.setWord_woken (x : Group) (r : RegRef) (l : Nat) (w : Word) : (x.setWord r l w).woken = x.woken := by cases r <;> rfl
@[simp] theorem Group.setWord_primSince (x : Group) (r : RegRef) (l : Nat) (w : Word) : (x.setWord r l w).primSince = x.primSince := by cases r <;> rfl
@[simp] theorem Group.setWord_readyAt (x : Group) (r : RegRef) (l : Nat) (w : Word) : (x.setWord r l w).readyAt = x.readyAt := by cases r <;> rfl
@[simp] theorem Group.setWord_slot (x : Group) (r : RegRef) (l : Nat) (w : Word) : (x.setWord r l w).slot = x.slot := by cases r <;> rfl
@[simp] theorem Group.setWord_flights (x : Group) (r : RegRef) (l : Nat) (w : Word) : (x.setWord r l w).flights = x.flights := by cases r <;> rfl
@[simp] theorem Group.setWord_barRec (x : Group) (r : RegRef) (l : Nat) (w : Word) : (x.setWord r l w).barRec = x.barRec := by cases r <;> rfl
@[simp] theorem Group.setWord_stage (x : Group) (r : RegRef) (l : Nat) (w : Word) : (x.setWord r l w).stage = x.stage := by cases r <;> rfl
@[simp] theorem Group.setWord_levelH (x : Group) (r : RegRef) (l : Nat) (w : Word) : (x.setWord r l w).levelH = x.levelH := by cases r <;> rfl
@[simp] theorem Group.setWord_hseg (x : Group) (r : RegRef) (l : Nat) (w : Word) : (x.setWord r l w).hseg = x.hseg := by cases r <;> rfl
@[simp] theorem Group.setWord_hlen (x : Group) (r : RegRef) (l : Nat) (w : Word) : (x.setWord r l w).hlen = x.hlen := by cases r <;> rfl
@[simp] theorem Group.setWord_saved (x : Group) (r : RegRef) (l : Nat) (w : Word) : (x.setWord r l w).saved = x.saved := by cases r <;> rfl
@[simp] theorem Group.setWord_faultPc (x : Group) (r : RegRef) (l : Nat) (w : Word) : (x.setWord r l w).faultPc = x.faultPc := by cases r <;> rfl
@[simp] theorem Group.setWord_faultMask (x : Group) (r : RegRef) (l : Nat) (w : Word) : (x.setWord r l w).faultMask = x.faultMask := by cases r <;> rfl
@[simp] theorem Group.setWord_trap (x : Group) (r : RegRef) (l : Nat) (w : Word) : (x.setWord r l w).trap = x.trap := by cases r <;> rfl
@[simp] theorem Group.setWord_tcnt (x : Group) (r : RegRef) (l : Nat) (w : Word) : (x.setWord r l w).tcnt = x.tcnt := by cases r <;> rfl
@[simp] theorem Group.setWord_kinfo (x : Group) (r : RegRef) (l : Nat) (w : Word) : (x.setWord r l w).kinfo = x.kinfo := by cases r <;> rfl
@[simp] theorem Group.setWord_pend (x : Group) (r : RegRef) (l : Nat) (w : Word) : (x.setWord r l w).pend = x.pend := by cases r <;> rfl

/-- What a write of one word keeps, a write of several lanes keeps. -/
theorem Group.setWords_keep {α : Type} (f : Group → α) (h : ∀ g r l w, f (Group.setWord g r l w) = f g) (x : Group) (r : RegRef) (m : Mask)
    (w : Nat → Word) : f (x.setWords r m w) = f x := by
  unfold Group.setWords
  generalize m.lanes = ls
  induction ls generalizing x with
  | nil => rfl
  | cons a as ih => rw [List.foldl_cons, ih, h]

@[simp] theorem Group.setWords_role (x : Group) (r : RegRef) (m : Mask) (w : Nat → Word) : (x.setWords r m w).role = x.role := Group.setWords_keep (·.role) (by simp) x r m w
@[simp] theorem Group.setWords_idx (x : Group) (r : RegRef) (m : Mask) (w : Nat → Word) : (x.setWords r m w).idx = x.idx := Group.setWords_keep (·.idx) (by simp) x r m w
@[simp] theorem Group.setWords_budget (x : Group) (r : RegRef) (m : Mask) (w : Nat → Word) : (x.setWords r m w).budget = x.budget := Group.setWords_keep (·.budget) (by simp) x r m w
@[simp] theorem Group.setWords_helper (x : Group) (r : RegRef) (m : Mask) (w : Nat → Word) : (x.setWords r m w).helper = x.helper := Group.setWords_keep (·.helper) (by simp) x r m w
@[simp] theorem Group.setWords_live (x : Group) (r : RegRef) (m : Mask) (w : Nat → Word) : (x.setWords r m w).live = x.live := Group.setWords_keep (·.live) (by simp) x r m w
@[simp] theorem Group.setWords_p (x : Group) (r : RegRef) (m : Mask) (w : Nat → Word) : (x.setWords r m w).p = x.p := Group.setWords_keep (·.p) (by simp) x r m w
@[simp] theorem Group.setWords_plink (x : Group) (r : RegRef) (m : Mask) (w : Nat → Word) : (x.setWords r m w).plink = x.plink := Group.setWords_keep (·.plink) (by simp) x r m w
@[simp] theorem Group.setWords_jE (x : Group) (r : RegRef) (m : Mask) (w : Nat → Word) : (x.setWords r m w).jE = x.jE := Group.setWords_keep (·.jE) (by simp) x r m w
@[simp] theorem Group.setWords_jA (x : Group) (r : RegRef) (m : Mask) (w : Nat → Word) : (x.setWords r m w).jA = x.jA := Group.setWords_keep (·.jA) (by simp) x r m w
@[simp] theorem Group.setWords_dl (x : Group) (r : RegRef) (m : Mask) (w : Nat → Word) : (x.setWords r m w).dl = x.dl := Group.setWords_keep (·.dl) (by simp) x r m w
@[simp] theorem Group.setWords_mark (x : Group) (r : RegRef) (m : Mask) (w : Nat → Word) : (x.setWords r m w).mark = x.mark := Group.setWords_keep (·.mark) (by simp) x r m w
@[simp] theorem Group.setWords_gcr (x : Group) (r : RegRef) (m : Mask) (w : Nat → Word) : (x.setWords r m w).gcr = x.gcr := Group.setWords_keep (·.gcr) (by simp) x r m w
@[simp] theorem Group.setWords_gfl (x : Group) (r : RegRef) (m : Mask) (w : Nat → Word) : (x.setWords r m w).gfl = x.gfl := Group.setWords_keep (·.gfl) (by simp) x r m w
@[simp] theorem Group.setWords_clk (x : Group) (r : RegRef) (m : Mask) (w : Nat → Word) : (x.setWords r m w).clk = x.clk := Group.setWords_keep (·.clk) (by simp) x r m w
@[simp] theorem Group.setWords_lp (x : Group) (r : RegRef) (m : Mask) (w : Nat → Word) : (x.setWords r m w).lp = x.lp := Group.setWords_keep (·.lp) (by simp) x r m w
@[simp] theorem Group.setWords_lpp (x : Group) (r : RegRef) (m : Mask) (w : Nat → Word) : (x.setWords r m w).lpp = x.lpp := Group.setWords_keep (·.lpp) (by simp) x r m w
@[simp] theorem Group.setWords_frontier (x : Group) (r : RegRef) (m : Mask) (w : Nat → Word) : (x.setWords r m w).frontier = x.frontier := Group.setWords_keep (·.frontier) (by simp) x r m w
@[simp] theorem Group.setWords_sel (x : Group) (r : RegRef) (m : Mask) (w : Nat → Word) : (x.setWords r m w).sel = x.sel := Group.setWords_keep (·.sel) (by simp) x r m w
@[simp] theorem Group.setWords_why (x : Group) (r : RegRef) (m : Mask) (w : Nat → Word) : (x.setWords r m w).why = x.why := Group.setWords_keep (·.why) (by simp) x r m w
@[simp] theorem Group.setWords_cmd (x : Group) (r : RegRef) (m : Mask) (w : Nat → Word) : (x.setWords r m w).cmd = x.cmd := Group.setWords_keep (·.cmd) (by simp) x r m w
@[simp] theorem Group.setWords_redo (x : Group) (r : RegRef) (m : Mask) (w : Nat → Word) : (x.setWords r m w).redo = x.redo := Group.setWords_keep (·.redo) (by simp) x r m w
@[simp] theorem Group.setWords_woken (x : Group) (r : RegRef) (m : Mask) (w : Nat → Word) : (x.setWords r m w).woken = x.woken := Group.setWords_keep (·.woken) (by simp) x r m w
@[simp] theorem Group.setWords_primSince (x : Group) (r : RegRef) (m : Mask) (w : Nat → Word) : (x.setWords r m w).primSince = x.primSince := Group.setWords_keep (·.primSince) (by simp) x r m w
@[simp] theorem Group.setWords_readyAt (x : Group) (r : RegRef) (m : Mask) (w : Nat → Word) : (x.setWords r m w).readyAt = x.readyAt := Group.setWords_keep (·.readyAt) (by simp) x r m w
@[simp] theorem Group.setWords_slot (x : Group) (r : RegRef) (m : Mask) (w : Nat → Word) : (x.setWords r m w).slot = x.slot := Group.setWords_keep (·.slot) (by simp) x r m w
@[simp] theorem Group.setWords_flights (x : Group) (r : RegRef) (m : Mask) (w : Nat → Word) : (x.setWords r m w).flights = x.flights := Group.setWords_keep (·.flights) (by simp) x r m w
@[simp] theorem Group.setWords_barRec (x : Group) (r : RegRef) (m : Mask) (w : Nat → Word) : (x.setWords r m w).barRec = x.barRec := Group.setWords_keep (·.barRec) (by simp) x r m w
@[simp] theorem Group.setWords_stage (x : Group) (r : RegRef) (m : Mask) (w : Nat → Word) : (x.setWords r m w).stage = x.stage := Group.setWords_keep (·.stage) (by simp) x r m w
@[simp] theorem Group.setWords_levelH (x : Group) (r : RegRef) (m : Mask) (w : Nat → Word) : (x.setWords r m w).levelH = x.levelH := Group.setWords_keep (·.levelH) (by simp) x r m w
@[simp] theorem Group.setWords_hseg (x : Group) (r : RegRef) (m : Mask) (w : Nat → Word) : (x.setWords r m w).hseg = x.hseg := Group.setWords_keep (·.hseg) (by simp) x r m w
@[simp] theorem Group.setWords_hlen (x : Group) (r : RegRef) (m : Mask) (w : Nat → Word) : (x.setWords r m w).hlen = x.hlen := Group.setWords_keep (·.hlen) (by simp) x r m w
@[simp] theorem Group.setWords_saved (x : Group) (r : RegRef) (m : Mask) (w : Nat → Word) : (x.setWords r m w).saved = x.saved := Group.setWords_keep (·.saved) (by simp) x r m w
@[simp] theorem Group.setWords_faultPc (x : Group) (r : RegRef) (m : Mask) (w : Nat → Word) : (x.setWords r m w).faultPc = x.faultPc := Group.setWords_keep (·.faultPc) (by simp) x r m w
@[simp] theorem Group.setWords_faultMask (x : Group) (r : RegRef) (m : Mask) (w : Nat → Word) : (x.setWords r m w).faultMask = x.faultMask := Group.setWords_keep (·.faultMask) (by simp) x r m w
@[simp] theorem Group.setWords_trap (x : Group) (r : RegRef) (m : Mask) (w : Nat → Word) : (x.setWords r m w).trap = x.trap := Group.setWords_keep (·.trap) (by simp) x r m w
@[simp] theorem Group.setWords_tcnt (x : Group) (r : RegRef) (m : Mask) (w : Nat → Word) : (x.setWords r m w).tcnt = x.tcnt := Group.setWords_keep (·.tcnt) (by simp) x r m w
@[simp] theorem Group.setWords_kinfo (x : Group) (r : RegRef) (m : Mask) (w : Nat → Word) : (x.setWords r m w).kinfo = x.kinfo := Group.setWords_keep (·.kinfo) (by simp) x r m w
@[simp] theorem Group.setWords_pend (x : Group) (r : RegRef) (m : Mask) (w : Nat → Word) : (x.setWords r m w).pend = x.pend := Group.setWords_keep (·.pend) (by simp) x r m w

@[simp] theorem Group.setUni_role (x : Group) (n : Nat) (w : Word) : (x.setUni n w).role = x.role := rfl
@[simp] theorem Group.setUni_idx (x : Group) (n : Nat) (w : Word) : (x.setUni n w).idx = x.idx := rfl
@[simp] theorem Group.setUni_budget (x : Group) (n : Nat) (w : Word) : (x.setUni n w).budget = x.budget := rfl
@[simp] theorem Group.setUni_helper (x : Group) (n : Nat) (w : Word) : (x.setUni n w).helper = x.helper := rfl
@[simp] theorem Group.setUni_live (x : Group) (n : Nat) (w : Word) : (x.setUni n w).live = x.live := rfl
@[simp] theorem Group.setUni_v (x : Group) (n : Nat) (w : Word) : (x.setUni n w).v = x.v := rfl
@[simp] theorem Group.setUni_vp (x : Group) (n : Nat) (w : Word) : (x.setUni n w).vp = x.vp := rfl
@[simp] theorem Group.setUni_h (x : Group) (n : Nat) (w : Word) : (x.setUni n w).h = x.h := rfl
@[simp] theorem Group.setUni_hp (x : Group) (n : Nat) (w : Word) : (x.setUni n w).hp = x.hp := rfl
@[simp] theorem Group.setUni_p (x : Group) (n : Nat) (w : Word) : (x.setUni n w).p = x.p := rfl
@[simp] theorem Group.setUni_plink (x : Group) (n : Nat) (w : Word) : (x.setUni n w).plink = x.plink := rfl
@[simp] theorem Group.setUni_jE (x : Group) (n : Nat) (w : Word) : (x.setUni n w).jE = x.jE := rfl
@[simp] theorem Group.setUni_jA (x : Group) (n : Nat) (w : Word) : (x.setUni n w).jA = x.jA := rfl
@[simp] theorem Group.setUni_dl (x : Group) (n : Nat) (w : Word) : (x.setUni n w).dl = x.dl := rfl
@[simp] theorem Group.setUni_mark (x : Group) (n : Nat) (w : Word) : (x.setUni n w).mark = x.mark := rfl
@[simp] theorem Group.setUni_gcr (x : Group) (n : Nat) (w : Word) : (x.setUni n w).gcr = x.gcr := rfl
@[simp] theorem Group.setUni_gfl (x : Group) (n : Nat) (w : Word) : (x.setUni n w).gfl = x.gfl := rfl
@[simp] theorem Group.setUni_clk (x : Group) (n : Nat) (w : Word) : (x.setUni n w).clk = x.clk := rfl
@[simp] theorem Group.setUni_lp (x : Group) (n : Nat) (w : Word) : (x.setUni n w).lp = x.lp := rfl
@[simp] theorem Group.setUni_lpp (x : Group) (n : Nat) (w : Word) : (x.setUni n w).lpp = x.lpp := rfl
@[simp] theorem Group.setUni_frontier (x : Group) (n : Nat) (w : Word) : (x.setUni n w).frontier = x.frontier := rfl
@[simp] theorem Group.setUni_sel (x : Group) (n : Nat) (w : Word) : (x.setUni n w).sel = x.sel := rfl
@[simp] theorem Group.setUni_why (x : Group) (n : Nat) (w : Word) : (x.setUni n w).why = x.why := rfl
@[simp] theorem Group.setUni_cmd (x : Group) (n : Nat) (w : Word) : (x.setUni n w).cmd = x.cmd := rfl
@[simp] theorem Group.setUni_redo (x : Group) (n : Nat) (w : Word) : (x.setUni n w).redo = x.redo := rfl
@[simp] theorem Group.setUni_woken (x : Group) (n : Nat) (w : Word) : (x.setUni n w).woken = x.woken := rfl
@[simp] theorem Group.setUni_primSince (x : Group) (n : Nat) (w : Word) : (x.setUni n w).primSince = x.primSince := rfl
@[simp] theorem Group.setUni_readyAt (x : Group) (n : Nat) (w : Word) : (x.setUni n w).readyAt = x.readyAt := rfl
@[simp] theorem Group.setUni_slot (x : Group) (n : Nat) (w : Word) : (x.setUni n w).slot = x.slot := rfl
@[simp] theorem Group.setUni_flights (x : Group) (n : Nat) (w : Word) : (x.setUni n w).flights = x.flights := rfl
@[simp] theorem Group.setUni_barRec (x : Group) (n : Nat) (w : Word) : (x.setUni n w).barRec = x.barRec := rfl
@[simp] theorem Group.setUni_stage (x : Group) (n : Nat) (w : Word) : (x.setUni n w).stage = x.stage := rfl
@[simp] theorem Group.setUni_levelH (x : Group) (n : Nat) (w : Word) : (x.setUni n w).levelH = x.levelH := rfl
@[simp] theorem Group.setUni_hseg (x : Group) (n : Nat) (w : Word) : (x.setUni n w).hseg = x.hseg := rfl
@[simp] theorem Group.setUni_hlen (x : Group) (n : Nat) (w : Word) : (x.setUni n w).hlen = x.hlen := rfl
@[simp] theorem Group.setUni_saved (x : Group) (n : Nat) (w : Word) : (x.setUni n w).saved = x.saved := rfl
@[simp] theorem Group.setUni_faultPc (x : Group) (n : Nat) (w : Word) : (x.setUni n w).faultPc = x.faultPc := rfl
@[simp] theorem Group.setUni_faultMask (x : Group) (n : Nat) (w : Word) : (x.setUni n w).faultMask = x.faultMask := rfl
@[simp] theorem Group.setUni_trap (x : Group) (n : Nat) (w : Word) : (x.setUni n w).trap = x.trap := rfl
@[simp] theorem Group.setUni_tcnt (x : Group) (n : Nat) (w : Word) : (x.setUni n w).tcnt = x.tcnt := rfl
@[simp] theorem Group.setUni_kinfo (x : Group) (n : Nat) (w : Word) : (x.setUni n w).kinfo = x.kinfo := rfl
@[simp] theorem Group.setUni_pend (x : Group) (n : Nat) (w : Word) : (x.setUni n w).pend = x.pend := rfl

@[simp] theorem Group.setPred_role (x : Group) (p : Nat) (m : Mask) (f : Nat → Bool) : (x.setPred p m f).role = x.role := rfl
@[simp] theorem Group.setPred_idx (x : Group) (p : Nat) (m : Mask) (f : Nat → Bool) : (x.setPred p m f).idx = x.idx := rfl
@[simp] theorem Group.setPred_budget (x : Group) (p : Nat) (m : Mask) (f : Nat → Bool) : (x.setPred p m f).budget = x.budget := rfl
@[simp] theorem Group.setPred_helper (x : Group) (p : Nat) (m : Mask) (f : Nat → Bool) : (x.setPred p m f).helper = x.helper := rfl
@[simp] theorem Group.setPred_live (x : Group) (p : Nat) (m : Mask) (f : Nat → Bool) : (x.setPred p m f).live = x.live := rfl
@[simp] theorem Group.setPred_v (x : Group) (p : Nat) (m : Mask) (f : Nat → Bool) : (x.setPred p m f).v = x.v := rfl
@[simp] theorem Group.setPred_vp (x : Group) (p : Nat) (m : Mask) (f : Nat → Bool) : (x.setPred p m f).vp = x.vp := rfl
@[simp] theorem Group.setPred_s (x : Group) (p : Nat) (m : Mask) (f : Nat → Bool) : (x.setPred p m f).s = x.s := rfl
@[simp] theorem Group.setPred_sp (x : Group) (p : Nat) (m : Mask) (f : Nat → Bool) : (x.setPred p m f).sp = x.sp := rfl
@[simp] theorem Group.setPred_h (x : Group) (p : Nat) (m : Mask) (f : Nat → Bool) : (x.setPred p m f).h = x.h := rfl
@[simp] theorem Group.setPred_hp (x : Group) (p : Nat) (m : Mask) (f : Nat → Bool) : (x.setPred p m f).hp = x.hp := rfl
@[simp] theorem Group.setPred_plink (x : Group) (p : Nat) (m : Mask) (f : Nat → Bool) : (x.setPred p m f).plink = x.plink := rfl
@[simp] theorem Group.setPred_jE (x : Group) (p : Nat) (m : Mask) (f : Nat → Bool) : (x.setPred p m f).jE = x.jE := rfl
@[simp] theorem Group.setPred_jA (x : Group) (p : Nat) (m : Mask) (f : Nat → Bool) : (x.setPred p m f).jA = x.jA := rfl
@[simp] theorem Group.setPred_dl (x : Group) (p : Nat) (m : Mask) (f : Nat → Bool) : (x.setPred p m f).dl = x.dl := rfl
@[simp] theorem Group.setPred_mark (x : Group) (p : Nat) (m : Mask) (f : Nat → Bool) : (x.setPred p m f).mark = x.mark := rfl
@[simp] theorem Group.setPred_gcr (x : Group) (p : Nat) (m : Mask) (f : Nat → Bool) : (x.setPred p m f).gcr = x.gcr := rfl
@[simp] theorem Group.setPred_gfl (x : Group) (p : Nat) (m : Mask) (f : Nat → Bool) : (x.setPred p m f).gfl = x.gfl := rfl
@[simp] theorem Group.setPred_clk (x : Group) (p : Nat) (m : Mask) (f : Nat → Bool) : (x.setPred p m f).clk = x.clk := rfl
@[simp] theorem Group.setPred_lp (x : Group) (p : Nat) (m : Mask) (f : Nat → Bool) : (x.setPred p m f).lp = x.lp := rfl
@[simp] theorem Group.setPred_lpp (x : Group) (p : Nat) (m : Mask) (f : Nat → Bool) : (x.setPred p m f).lpp = x.lpp := rfl
@[simp] theorem Group.setPred_frontier (x : Group) (p : Nat) (m : Mask) (f : Nat → Bool) : (x.setPred p m f).frontier = x.frontier := rfl
@[simp] theorem Group.setPred_sel (x : Group) (p : Nat) (m : Mask) (f : Nat → Bool) : (x.setPred p m f).sel = x.sel := rfl
@[simp] theorem Group.setPred_why (x : Group) (p : Nat) (m : Mask) (f : Nat → Bool) : (x.setPred p m f).why = x.why := rfl
@[simp] theorem Group.setPred_cmd (x : Group) (p : Nat) (m : Mask) (f : Nat → Bool) : (x.setPred p m f).cmd = x.cmd := rfl
@[simp] theorem Group.setPred_redo (x : Group) (p : Nat) (m : Mask) (f : Nat → Bool) : (x.setPred p m f).redo = x.redo := rfl
@[simp] theorem Group.setPred_woken (x : Group) (p : Nat) (m : Mask) (f : Nat → Bool) : (x.setPred p m f).woken = x.woken := rfl
@[simp] theorem Group.setPred_primSince (x : Group) (p : Nat) (m : Mask) (f : Nat → Bool) : (x.setPred p m f).primSince = x.primSince := rfl
@[simp] theorem Group.setPred_readyAt (x : Group) (p : Nat) (m : Mask) (f : Nat → Bool) : (x.setPred p m f).readyAt = x.readyAt := rfl
@[simp] theorem Group.setPred_slot (x : Group) (p : Nat) (m : Mask) (f : Nat → Bool) : (x.setPred p m f).slot = x.slot := rfl
@[simp] theorem Group.setPred_flights (x : Group) (p : Nat) (m : Mask) (f : Nat → Bool) : (x.setPred p m f).flights = x.flights := rfl
@[simp] theorem Group.setPred_barRec (x : Group) (p : Nat) (m : Mask) (f : Nat → Bool) : (x.setPred p m f).barRec = x.barRec := rfl
@[simp] theorem Group.setPred_stage (x : Group) (p : Nat) (m : Mask) (f : Nat → Bool) : (x.setPred p m f).stage = x.stage := rfl
@[simp] theorem Group.setPred_levelH (x : Group) (p : Nat) (m : Mask) (f : Nat → Bool) : (x.setPred p m f).levelH = x.levelH := rfl
@[simp] theorem Group.setPred_hseg (x : Group) (p : Nat) (m : Mask) (f : Nat → Bool) : (x.setPred p m f).hseg = x.hseg := rfl
@[simp] theorem Group.setPred_hlen (x : Group) (p : Nat) (m : Mask) (f : Nat → Bool) : (x.setPred p m f).hlen = x.hlen := rfl
@[simp] theorem Group.setPred_saved (x : Group) (p : Nat) (m : Mask) (f : Nat → Bool) : (x.setPred p m f).saved = x.saved := rfl
@[simp] theorem Group.setPred_faultPc (x : Group) (p : Nat) (m : Mask) (f : Nat → Bool) : (x.setPred p m f).faultPc = x.faultPc := rfl
@[simp] theorem Group.setPred_faultMask (x : Group) (p : Nat) (m : Mask) (f : Nat → Bool) : (x.setPred p m f).faultMask = x.faultMask := rfl
@[simp] theorem Group.setPred_trap (x : Group) (p : Nat) (m : Mask) (f : Nat → Bool) : (x.setPred p m f).trap = x.trap := rfl
@[simp] theorem Group.setPred_tcnt (x : Group) (p : Nat) (m : Mask) (f : Nat → Bool) : (x.setPred p m f).tcnt = x.tcnt := rfl
@[simp] theorem Group.setPred_kinfo (x : Group) (p : Nat) (m : Mask) (f : Nat → Bool) : (x.setPred p m f).kinfo = x.kinfo := rfl
@[simp] theorem Group.setPred_pend (x : Group) (p : Nat) (m : Mask) (f : Nat → Bool) : (x.setPred p m f).pend = x.pend := rfl

@[simp] theorem Group.raise_role (x : Group) (f : Flags) : (x.raise f).role = x.role := rfl
@[simp] theorem Group.raise_idx (x : Group) (f : Flags) : (x.raise f).idx = x.idx := rfl
@[simp] theorem Group.raise_budget (x : Group) (f : Flags) : (x.raise f).budget = x.budget := rfl
@[simp] theorem Group.raise_helper (x : Group) (f : Flags) : (x.raise f).helper = x.helper := rfl
@[simp] theorem Group.raise_live (x : Group) (f : Flags) : (x.raise f).live = x.live := rfl
@[simp] theorem Group.raise_v (x : Group) (f : Flags) : (x.raise f).v = x.v := rfl
@[simp] theorem Group.raise_vp (x : Group) (f : Flags) : (x.raise f).vp = x.vp := rfl
@[simp] theorem Group.raise_s (x : Group) (f : Flags) : (x.raise f).s = x.s := rfl
@[simp] theorem Group.raise_sp (x : Group) (f : Flags) : (x.raise f).sp = x.sp := rfl
@[simp] theorem Group.raise_h (x : Group) (f : Flags) : (x.raise f).h = x.h := rfl
@[simp] theorem Group.raise_hp (x : Group) (f : Flags) : (x.raise f).hp = x.hp := rfl
@[simp] theorem Group.raise_p (x : Group) (f : Flags) : (x.raise f).p = x.p := rfl
@[simp] theorem Group.raise_plink (x : Group) (f : Flags) : (x.raise f).plink = x.plink := rfl
@[simp] theorem Group.raise_jE (x : Group) (f : Flags) : (x.raise f).jE = x.jE := rfl
@[simp] theorem Group.raise_jA (x : Group) (f : Flags) : (x.raise f).jA = x.jA := rfl
@[simp] theorem Group.raise_dl (x : Group) (f : Flags) : (x.raise f).dl = x.dl := rfl
@[simp] theorem Group.raise_mark (x : Group) (f : Flags) : (x.raise f).mark = x.mark := rfl
@[simp] theorem Group.raise_gcr (x : Group) (f : Flags) : (x.raise f).gcr = x.gcr := rfl
@[simp] theorem Group.raise_clk (x : Group) (f : Flags) : (x.raise f).clk = x.clk := rfl
@[simp] theorem Group.raise_lp (x : Group) (f : Flags) : (x.raise f).lp = x.lp := rfl
@[simp] theorem Group.raise_lpp (x : Group) (f : Flags) : (x.raise f).lpp = x.lpp := rfl
@[simp] theorem Group.raise_frontier (x : Group) (f : Flags) : (x.raise f).frontier = x.frontier := rfl
@[simp] theorem Group.raise_sel (x : Group) (f : Flags) : (x.raise f).sel = x.sel := rfl
@[simp] theorem Group.raise_why (x : Group) (f : Flags) : (x.raise f).why = x.why := rfl
@[simp] theorem Group.raise_cmd (x : Group) (f : Flags) : (x.raise f).cmd = x.cmd := rfl
@[simp] theorem Group.raise_redo (x : Group) (f : Flags) : (x.raise f).redo = x.redo := rfl
@[simp] theorem Group.raise_woken (x : Group) (f : Flags) : (x.raise f).woken = x.woken := rfl
@[simp] theorem Group.raise_primSince (x : Group) (f : Flags) : (x.raise f).primSince = x.primSince := rfl
@[simp] theorem Group.raise_readyAt (x : Group) (f : Flags) : (x.raise f).readyAt = x.readyAt := rfl
@[simp] theorem Group.raise_slot (x : Group) (f : Flags) : (x.raise f).slot = x.slot := rfl
@[simp] theorem Group.raise_flights (x : Group) (f : Flags) : (x.raise f).flights = x.flights := rfl
@[simp] theorem Group.raise_barRec (x : Group) (f : Flags) : (x.raise f).barRec = x.barRec := rfl
@[simp] theorem Group.raise_stage (x : Group) (f : Flags) : (x.raise f).stage = x.stage := rfl
@[simp] theorem Group.raise_levelH (x : Group) (f : Flags) : (x.raise f).levelH = x.levelH := rfl
@[simp] theorem Group.raise_hseg (x : Group) (f : Flags) : (x.raise f).hseg = x.hseg := rfl
@[simp] theorem Group.raise_hlen (x : Group) (f : Flags) : (x.raise f).hlen = x.hlen := rfl
@[simp] theorem Group.raise_saved (x : Group) (f : Flags) : (x.raise f).saved = x.saved := rfl
@[simp] theorem Group.raise_faultPc (x : Group) (f : Flags) : (x.raise f).faultPc = x.faultPc := rfl
@[simp] theorem Group.raise_faultMask (x : Group) (f : Flags) : (x.raise f).faultMask = x.faultMask := rfl
@[simp] theorem Group.raise_trap (x : Group) (f : Flags) : (x.raise f).trap = x.trap := rfl
@[simp] theorem Group.raise_tcnt (x : Group) (f : Flags) : (x.raise f).tcnt = x.tcnt := rfl
@[simp] theorem Group.raise_kinfo (x : Group) (f : Flags) : (x.raise f).kinfo = x.kinfo := rfl
@[simp] theorem Group.raise_pend (x : Group) (f : Flags) : (x.raise f).pend = x.pend := rfl

@[simp] theorem Group.release_role (x : Group) (w : Why) : (x.release w).role = x.role := rfl
@[simp] theorem Group.release_idx (x : Group) (w : Why) : (x.release w).idx = x.idx := rfl
@[simp] theorem Group.release_budget (x : Group) (w : Why) : (x.release w).budget = x.budget := rfl
@[simp] theorem Group.release_helper (x : Group) (w : Why) : (x.release w).helper = x.helper := rfl
@[simp] theorem Group.release_live (x : Group) (w : Why) : (x.release w).live = x.live := rfl
@[simp] theorem Group.release_v (x : Group) (w : Why) : (x.release w).v = x.v := rfl
@[simp] theorem Group.release_vp (x : Group) (w : Why) : (x.release w).vp = x.vp := rfl
@[simp] theorem Group.release_s (x : Group) (w : Why) : (x.release w).s = x.s := rfl
@[simp] theorem Group.release_sp (x : Group) (w : Why) : (x.release w).sp = x.sp := rfl
@[simp] theorem Group.release_h (x : Group) (w : Why) : (x.release w).h = x.h := rfl
@[simp] theorem Group.release_hp (x : Group) (w : Why) : (x.release w).hp = x.hp := rfl
@[simp] theorem Group.release_p (x : Group) (w : Why) : (x.release w).p = x.p := rfl
@[simp] theorem Group.release_plink (x : Group) (w : Why) : (x.release w).plink = x.plink := rfl
@[simp] theorem Group.release_jE (x : Group) (w : Why) : (x.release w).jE = x.jE := rfl
@[simp] theorem Group.release_jA (x : Group) (w : Why) : (x.release w).jA = x.jA := rfl
@[simp] theorem Group.release_dl (x : Group) (w : Why) : (x.release w).dl = x.dl := rfl
@[simp] theorem Group.release_mark (x : Group) (w : Why) : (x.release w).mark = x.mark := rfl
@[simp] theorem Group.release_gcr (x : Group) (w : Why) : (x.release w).gcr = x.gcr := rfl
@[simp] theorem Group.release_gfl (x : Group) (w : Why) : (x.release w).gfl = x.gfl := rfl
@[simp] theorem Group.release_clk (x : Group) (w : Why) : (x.release w).clk = x.clk := rfl
@[simp] theorem Group.release_lp (x : Group) (w : Why) : (x.release w).lp = x.lp := rfl
@[simp] theorem Group.release_lpp (x : Group) (w : Why) : (x.release w).lpp = x.lpp := rfl
@[simp] theorem Group.release_frontier (x : Group) (w : Why) : (x.release w).frontier = x.frontier := rfl
@[simp] theorem Group.release_cmd (x : Group) (w : Why) : (x.release w).cmd = x.cmd := rfl
@[simp] theorem Group.release_redo (x : Group) (w : Why) : (x.release w).redo = x.redo := rfl
@[simp] theorem Group.release_woken (x : Group) (w : Why) : (x.release w).woken = x.woken := rfl
@[simp] theorem Group.release_primSince (x : Group) (w : Why) : (x.release w).primSince = x.primSince := rfl
@[simp] theorem Group.release_flights (x : Group) (w : Why) : (x.release w).flights = x.flights := rfl
@[simp] theorem Group.release_barRec (x : Group) (w : Why) : (x.release w).barRec = x.barRec := rfl
@[simp] theorem Group.release_stage (x : Group) (w : Why) : (x.release w).stage = x.stage := rfl
@[simp] theorem Group.release_levelH (x : Group) (w : Why) : (x.release w).levelH = x.levelH := rfl
@[simp] theorem Group.release_hseg (x : Group) (w : Why) : (x.release w).hseg = x.hseg := rfl
@[simp] theorem Group.release_hlen (x : Group) (w : Why) : (x.release w).hlen = x.hlen := rfl
@[simp] theorem Group.release_saved (x : Group) (w : Why) : (x.release w).saved = x.saved := rfl
@[simp] theorem Group.release_faultPc (x : Group) (w : Why) : (x.release w).faultPc = x.faultPc := rfl
@[simp] theorem Group.release_faultMask (x : Group) (w : Why) : (x.release w).faultMask = x.faultMask := rfl
@[simp] theorem Group.release_trap (x : Group) (w : Why) : (x.release w).trap = x.trap := rfl
@[simp] theorem Group.release_tcnt (x : Group) (w : Why) : (x.release w).tcnt = x.tcnt := rfl
@[simp] theorem Group.release_kinfo (x : Group) (w : Why) : (x.release w).kinfo = x.kinfo := rfl
@[simp] theorem Group.release_pend (x : Group) (w : Why) : (x.release w).pend = x.pend := rfl

@[simp] theorem Group.setHead_role (x : Group) (e : Entry) : (x.setHead e).role = x.role := rfl
@[simp] theorem Group.setHead_idx (x : Group) (e : Entry) : (x.setHead e).idx = x.idx := rfl
@[simp] theorem Group.setHead_budget (x : Group) (e : Entry) : (x.setHead e).budget = x.budget := rfl
@[simp] theorem Group.setHead_helper (x : Group) (e : Entry) : (x.setHead e).helper = x.helper := rfl
@[simp] theorem Group.setHead_live (x : Group) (e : Entry) : (x.setHead e).live = x.live := rfl
@[simp] theorem Group.setHead_v (x : Group) (e : Entry) : (x.setHead e).v = x.v := rfl
@[simp] theorem Group.setHead_vp (x : Group) (e : Entry) : (x.setHead e).vp = x.vp := rfl
@[simp] theorem Group.setHead_s (x : Group) (e : Entry) : (x.setHead e).s = x.s := rfl
@[simp] theorem Group.setHead_sp (x : Group) (e : Entry) : (x.setHead e).sp = x.sp := rfl
@[simp] theorem Group.setHead_h (x : Group) (e : Entry) : (x.setHead e).h = x.h := rfl
@[simp] theorem Group.setHead_hp (x : Group) (e : Entry) : (x.setHead e).hp = x.hp := rfl
@[simp] theorem Group.setHead_p (x : Group) (e : Entry) : (x.setHead e).p = x.p := rfl
@[simp] theorem Group.setHead_plink (x : Group) (e : Entry) : (x.setHead e).plink = x.plink := rfl
@[simp] theorem Group.setHead_jE (x : Group) (e : Entry) : (x.setHead e).jE = x.jE := rfl
@[simp] theorem Group.setHead_jA (x : Group) (e : Entry) : (x.setHead e).jA = x.jA := rfl
@[simp] theorem Group.setHead_dl (x : Group) (e : Entry) : (x.setHead e).dl = x.dl := rfl
@[simp] theorem Group.setHead_mark (x : Group) (e : Entry) : (x.setHead e).mark = x.mark := rfl
@[simp] theorem Group.setHead_gcr (x : Group) (e : Entry) : (x.setHead e).gcr = x.gcr := rfl
@[simp] theorem Group.setHead_gfl (x : Group) (e : Entry) : (x.setHead e).gfl = x.gfl := rfl
@[simp] theorem Group.setHead_clk (x : Group) (e : Entry) : (x.setHead e).clk = x.clk := rfl
@[simp] theorem Group.setHead_lp (x : Group) (e : Entry) : (x.setHead e).lp = x.lp := rfl
@[simp] theorem Group.setHead_lpp (x : Group) (e : Entry) : (x.setHead e).lpp = x.lpp := rfl
@[simp] theorem Group.setHead_sel (x : Group) (e : Entry) : (x.setHead e).sel = x.sel := rfl
@[simp] theorem Group.setHead_why (x : Group) (e : Entry) : (x.setHead e).why = x.why := rfl
@[simp] theorem Group.setHead_cmd (x : Group) (e : Entry) : (x.setHead e).cmd = x.cmd := rfl
@[simp] theorem Group.setHead_redo (x : Group) (e : Entry) : (x.setHead e).redo = x.redo := rfl
@[simp] theorem Group.setHead_woken (x : Group) (e : Entry) : (x.setHead e).woken = x.woken := rfl
@[simp] theorem Group.setHead_primSince (x : Group) (e : Entry) : (x.setHead e).primSince = x.primSince := rfl
@[simp] theorem Group.setHead_readyAt (x : Group) (e : Entry) : (x.setHead e).readyAt = x.readyAt := rfl
@[simp] theorem Group.setHead_slot (x : Group) (e : Entry) : (x.setHead e).slot = x.slot := rfl
@[simp] theorem Group.setHead_flights (x : Group) (e : Entry) : (x.setHead e).flights = x.flights := rfl
@[simp] theorem Group.setHead_barRec (x : Group) (e : Entry) : (x.setHead e).barRec = x.barRec := rfl
@[simp] theorem Group.setHead_stage (x : Group) (e : Entry) : (x.setHead e).stage = x.stage := rfl
@[simp] theorem Group.setHead_levelH (x : Group) (e : Entry) : (x.setHead e).levelH = x.levelH := rfl
@[simp] theorem Group.setHead_hseg (x : Group) (e : Entry) : (x.setHead e).hseg = x.hseg := rfl
@[simp] theorem Group.setHead_hlen (x : Group) (e : Entry) : (x.setHead e).hlen = x.hlen := rfl
@[simp] theorem Group.setHead_saved (x : Group) (e : Entry) : (x.setHead e).saved = x.saved := rfl
@[simp] theorem Group.setHead_faultPc (x : Group) (e : Entry) : (x.setHead e).faultPc = x.faultPc := rfl
@[simp] theorem Group.setHead_faultMask (x : Group) (e : Entry) : (x.setHead e).faultMask = x.faultMask := rfl
@[simp] theorem Group.setHead_trap (x : Group) (e : Entry) : (x.setHead e).trap = x.trap := rfl
@[simp] theorem Group.setHead_tcnt (x : Group) (e : Entry) : (x.setHead e).tcnt = x.tcnt := rfl
@[simp] theorem Group.setHead_kinfo (x : Group) (e : Entry) : (x.setHead e).kinfo = x.kinfo := rfl
@[simp] theorem Group.setHead_pend (x : Group) (e : Entry) : (x.setHead e).pend = x.pend := rfl

@[simp] theorem Group.markEmpty_role (x : Group) (r : RegRef) (op : Nat) : (x.markEmpty r op).role = x.role := rfl
@[simp] theorem Group.markEmpty_idx (x : Group) (r : RegRef) (op : Nat) : (x.markEmpty r op).idx = x.idx := rfl
@[simp] theorem Group.markEmpty_budget (x : Group) (r : RegRef) (op : Nat) : (x.markEmpty r op).budget = x.budget := rfl
@[simp] theorem Group.markEmpty_helper (x : Group) (r : RegRef) (op : Nat) : (x.markEmpty r op).helper = x.helper := rfl
@[simp] theorem Group.markEmpty_live (x : Group) (r : RegRef) (op : Nat) : (x.markEmpty r op).live = x.live := rfl
@[simp] theorem Group.markEmpty_v (x : Group) (r : RegRef) (op : Nat) : (x.markEmpty r op).v = x.v := rfl
@[simp] theorem Group.markEmpty_vp (x : Group) (r : RegRef) (op : Nat) : (x.markEmpty r op).vp = x.vp := rfl
@[simp] theorem Group.markEmpty_s (x : Group) (r : RegRef) (op : Nat) : (x.markEmpty r op).s = x.s := rfl
@[simp] theorem Group.markEmpty_sp (x : Group) (r : RegRef) (op : Nat) : (x.markEmpty r op).sp = x.sp := rfl
@[simp] theorem Group.markEmpty_h (x : Group) (r : RegRef) (op : Nat) : (x.markEmpty r op).h = x.h := rfl
@[simp] theorem Group.markEmpty_hp (x : Group) (r : RegRef) (op : Nat) : (x.markEmpty r op).hp = x.hp := rfl
@[simp] theorem Group.markEmpty_p (x : Group) (r : RegRef) (op : Nat) : (x.markEmpty r op).p = x.p := rfl
@[simp] theorem Group.markEmpty_plink (x : Group) (r : RegRef) (op : Nat) : (x.markEmpty r op).plink = x.plink := rfl
@[simp] theorem Group.markEmpty_jE (x : Group) (r : RegRef) (op : Nat) : (x.markEmpty r op).jE = x.jE := rfl
@[simp] theorem Group.markEmpty_jA (x : Group) (r : RegRef) (op : Nat) : (x.markEmpty r op).jA = x.jA := rfl
@[simp] theorem Group.markEmpty_dl (x : Group) (r : RegRef) (op : Nat) : (x.markEmpty r op).dl = x.dl := rfl
@[simp] theorem Group.markEmpty_mark (x : Group) (r : RegRef) (op : Nat) : (x.markEmpty r op).mark = x.mark := rfl
@[simp] theorem Group.markEmpty_gcr (x : Group) (r : RegRef) (op : Nat) : (x.markEmpty r op).gcr = x.gcr := rfl
@[simp] theorem Group.markEmpty_gfl (x : Group) (r : RegRef) (op : Nat) : (x.markEmpty r op).gfl = x.gfl := rfl
@[simp] theorem Group.markEmpty_clk (x : Group) (r : RegRef) (op : Nat) : (x.markEmpty r op).clk = x.clk := rfl
@[simp] theorem Group.markEmpty_lp (x : Group) (r : RegRef) (op : Nat) : (x.markEmpty r op).lp = x.lp := rfl
@[simp] theorem Group.markEmpty_lpp (x : Group) (r : RegRef) (op : Nat) : (x.markEmpty r op).lpp = x.lpp := rfl
@[simp] theorem Group.markEmpty_frontier (x : Group) (r : RegRef) (op : Nat) : (x.markEmpty r op).frontier = x.frontier := rfl
@[simp] theorem Group.markEmpty_sel (x : Group) (r : RegRef) (op : Nat) : (x.markEmpty r op).sel = x.sel := rfl
@[simp] theorem Group.markEmpty_why (x : Group) (r : RegRef) (op : Nat) : (x.markEmpty r op).why = x.why := rfl
@[simp] theorem Group.markEmpty_cmd (x : Group) (r : RegRef) (op : Nat) : (x.markEmpty r op).cmd = x.cmd := rfl
@[simp] theorem Group.markEmpty_redo (x : Group) (r : RegRef) (op : Nat) : (x.markEmpty r op).redo = x.redo := rfl
@[simp] theorem Group.markEmpty_woken (x : Group) (r : RegRef) (op : Nat) : (x.markEmpty r op).woken = x.woken := rfl
@[simp] theorem Group.markEmpty_primSince (x : Group) (r : RegRef) (op : Nat) : (x.markEmpty r op).primSince = x.primSince := rfl
@[simp] theorem Group.markEmpty_readyAt (x : Group) (r : RegRef) (op : Nat) : (x.markEmpty r op).readyAt = x.readyAt := rfl
@[simp] theorem Group.markEmpty_slot (x : Group) (r : RegRef) (op : Nat) : (x.markEmpty r op).slot = x.slot := rfl
@[simp] theorem Group.markEmpty_barRec (x : Group) (r : RegRef) (op : Nat) : (x.markEmpty r op).barRec = x.barRec := rfl
@[simp] theorem Group.markEmpty_stage (x : Group) (r : RegRef) (op : Nat) : (x.markEmpty r op).stage = x.stage := rfl
@[simp] theorem Group.markEmpty_levelH (x : Group) (r : RegRef) (op : Nat) : (x.markEmpty r op).levelH = x.levelH := rfl
@[simp] theorem Group.markEmpty_hseg (x : Group) (r : RegRef) (op : Nat) : (x.markEmpty r op).hseg = x.hseg := rfl
@[simp] theorem Group.markEmpty_hlen (x : Group) (r : RegRef) (op : Nat) : (x.markEmpty r op).hlen = x.hlen := rfl
@[simp] theorem Group.markEmpty_saved (x : Group) (r : RegRef) (op : Nat) : (x.markEmpty r op).saved = x.saved := rfl
@[simp] theorem Group.markEmpty_faultPc (x : Group) (r : RegRef) (op : Nat) : (x.markEmpty r op).faultPc = x.faultPc := rfl
@[simp] theorem Group.markEmpty_faultMask (x : Group) (r : RegRef) (op : Nat) : (x.markEmpty r op).faultMask = x.faultMask := rfl
@[simp] theorem Group.markEmpty_trap (x : Group) (r : RegRef) (op : Nat) : (x.markEmpty r op).trap = x.trap := rfl
@[simp] theorem Group.markEmpty_tcnt (x : Group) (r : RegRef) (op : Nat) : (x.markEmpty r op).tcnt = x.tcnt := rfl
@[simp] theorem Group.markEmpty_kinfo (x : Group) (r : RegRef) (op : Nat) : (x.markEmpty r op).kinfo = x.kinfo := rfl
@[simp] theorem Group.markEmpty_pend (x : Group) (r : RegRef) (op : Nat) : (x.markEmpty r op).pend = x.pend := rfl

@[simp] theorem Group.goesOn_role (x : Group) : (x.goesOn).role = x.role := by unfold Group.goesOn; split <;> rfl
@[simp] theorem Group.goesOn_idx (x : Group) : (x.goesOn).idx = x.idx := by unfold Group.goesOn; split <;> rfl
@[simp] theorem Group.goesOn_budget (x : Group) : (x.goesOn).budget = x.budget := by unfold Group.goesOn; split <;> rfl
@[simp] theorem Group.goesOn_helper (x : Group) : (x.goesOn).helper = x.helper := by unfold Group.goesOn; split <;> rfl
@[simp] theorem Group.goesOn_live (x : Group) : (x.goesOn).live = x.live := by unfold Group.goesOn; split <;> rfl
@[simp] theorem Group.goesOn_v (x : Group) : (x.goesOn).v = x.v := by unfold Group.goesOn; split <;> rfl
@[simp] theorem Group.goesOn_vp (x : Group) : (x.goesOn).vp = x.vp := by unfold Group.goesOn; split <;> rfl
@[simp] theorem Group.goesOn_s (x : Group) : (x.goesOn).s = x.s := by unfold Group.goesOn; split <;> rfl
@[simp] theorem Group.goesOn_sp (x : Group) : (x.goesOn).sp = x.sp := by unfold Group.goesOn; split <;> rfl
@[simp] theorem Group.goesOn_h (x : Group) : (x.goesOn).h = x.h := by unfold Group.goesOn; split <;> rfl
@[simp] theorem Group.goesOn_hp (x : Group) : (x.goesOn).hp = x.hp := by unfold Group.goesOn; split <;> rfl
@[simp] theorem Group.goesOn_p (x : Group) : (x.goesOn).p = x.p := by unfold Group.goesOn; split <;> rfl
@[simp] theorem Group.goesOn_plink (x : Group) : (x.goesOn).plink = x.plink := by unfold Group.goesOn; split <;> rfl
@[simp] theorem Group.goesOn_jE (x : Group) : (x.goesOn).jE = x.jE := by unfold Group.goesOn; split <;> rfl
@[simp] theorem Group.goesOn_jA (x : Group) : (x.goesOn).jA = x.jA := by unfold Group.goesOn; split <;> rfl
@[simp] theorem Group.goesOn_dl (x : Group) : (x.goesOn).dl = x.dl := by unfold Group.goesOn; split <;> rfl
@[simp] theorem Group.goesOn_mark (x : Group) : (x.goesOn).mark = x.mark := by unfold Group.goesOn; split <;> rfl
@[simp] theorem Group.goesOn_gcr (x : Group) : (x.goesOn).gcr = x.gcr := by unfold Group.goesOn; split <;> rfl
@[simp] theorem Group.goesOn_gfl (x : Group) : (x.goesOn).gfl = x.gfl := by unfold Group.goesOn; split <;> rfl
@[simp] theorem Group.goesOn_clk (x : Group) : (x.goesOn).clk = x.clk := by unfold Group.goesOn; split <;> rfl
@[simp] theorem Group.goesOn_lp (x : Group) : (x.goesOn).lp = x.lp := by unfold Group.goesOn; split <;> rfl
@[simp] theorem Group.goesOn_lpp (x : Group) : (x.goesOn).lpp = x.lpp := by unfold Group.goesOn; split <;> rfl
@[simp] theorem Group.goesOn_cmd (x : Group) : (x.goesOn).cmd = x.cmd := by unfold Group.goesOn; split <;> rfl
@[simp] theorem Group.goesOn_redo (x : Group) : (x.goesOn).redo = x.redo := by unfold Group.goesOn; split <;> rfl
@[simp] theorem Group.goesOn_woken (x : Group) : (x.goesOn).woken = x.woken := by unfold Group.goesOn; split <;> rfl
@[simp] theorem Group.goesOn_primSince (x : Group) : (x.goesOn).primSince = x.primSince := by unfold Group.goesOn; split <;> rfl
@[simp] theorem Group.goesOn_flights (x : Group) : (x.goesOn).flights = x.flights := by unfold Group.goesOn; split <;> rfl
@[simp] theorem Group.goesOn_barRec (x : Group) : (x.goesOn).barRec = x.barRec := by unfold Group.goesOn; split <;> rfl
@[simp] theorem Group.goesOn_stage (x : Group) : (x.goesOn).stage = x.stage := by unfold Group.goesOn; split <;> rfl
@[simp] theorem Group.goesOn_levelH (x : Group) : (x.goesOn).levelH = x.levelH := by unfold Group.goesOn; split <;> rfl
@[simp] theorem Group.goesOn_hseg (x : Group) : (x.goesOn).hseg = x.hseg := by unfold Group.goesOn; split <;> rfl
@[simp] theorem Group.goesOn_hlen (x : Group) : (x.goesOn).hlen = x.hlen := by unfold Group.goesOn; split <;> rfl
@[simp] theorem Group.goesOn_saved (x : Group) : (x.goesOn).saved = x.saved := by unfold Group.goesOn; split <;> rfl
@[simp] theorem Group.goesOn_faultPc (x : Group) : (x.goesOn).faultPc = x.faultPc := by unfold Group.goesOn; split <;> rfl
@[simp] theorem Group.goesOn_faultMask (x : Group) : (x.goesOn).faultMask = x.faultMask := by unfold Group.goesOn; split <;> rfl
@[simp] theorem Group.goesOn_trap (x : Group) : (x.goesOn).trap = x.trap := by unfold Group.goesOn; split <;> rfl
@[simp] theorem Group.goesOn_tcnt (x : Group) : (x.goesOn).tcnt = x.tcnt := by unfold Group.goesOn; split <;> rfl
@[simp] theorem Group.goesOn_kinfo (x : Group) : (x.goesOn).kinfo = x.kinfo := by unfold Group.goesOn; split <;> rfl
@[simp] theorem Group.goesOn_pend (x : Group) : (x.goesOn).pend = x.pend := by unfold Group.goesOn; split <;> rfl

end Sys2Proof.Machine
end

