-- ==== Sys2Proof/Laws/Issue.lean ====
section
/-! SUPPORT. Issuing an instruction: what follows when nothing stops it, shape by shape, and the same for the device's own
steps. A proof about an instruction cites these and never unfolds `issue`. -/

namespace Sys2Proof.Machine

open Sys2Proof

/-! ### Nothing stops it -/

/-- The lanes in which an instruction's registers are checked for poison are the ones it reads them in. -/
theorem which_lanes {i : Instr} {v : View} {l : Nat} (h : l ∈ ((accessOf i v).which.mask v.g.active).lanes) :
    l < 32 ∧ readLanes i v l = true := by
  have one (k : Nat) : (v.g.active &&& Mask.one k).getLsbD l = true → v.g.active.getLsbD l = true ∧ l = k := by
    intro h
    simp [Mask.one, BitVec.getLsbD_one] at h
    exact ⟨h.1, by omega⟩
  simp only [Mask.lanes, Sys2Proof.lanes, List.mem_filter, List.mem_range] at h
  refine ⟨h.1, ?_⟩
  unfold readLanes View.act
  cases hw : (accessOf i v).which with
  | all => simpa [hw, Which.mask] using h.2
  | lowest => simpa using one _ (by simpa only [hw, Which.mask] using h.2)
  | lane k => simpa using one _ (by simpa only [hw, Which.mask] using h.2)

/-- None of checks 1 to 7 of R100 fails for an instruction that is ready. -/
theorem ready_firstFailure {i : Instr} {v : View} (h : Ready i v) :
    firstFailure i (accessOf i v) (extraOf i v) v = none := by
  have h5 : checkEmpty (accessOf i v) (extraOf i v) v.g v.winEmpty = none := by
    have e1 : (accessOf i v).reads.filterMap (Opnd.emptyReg v.g) = [] := by
      rw [List.filterMap_eq_nil_iff]; exact h.full
    have e2 : (extraOf i v).win.filter (fun x => v.winEmpty x.1 x.2) = [] := by
      rw [List.filter_eq_nil_iff]
      intro x hx
      simp [h.windows x hx]
    simp only [checkEmpty, e1, e2]
  have h6 : checkWrite (accessOf i v) v.g = none := by
    have e1 : (accessOf i v).fixed.filterMap (Opnd.emptyReg v.g) = [] := by
      rw [List.filterMap_eq_nil_iff]; exact h.writable
    simp only [checkWrite, e1]
  have h7 : checkPoison (accessOf i v) (extraOf i v) v.g = none := by
    have e1 : (accessOf i v).reads.findSome? (Opnd.poison v.g ((accessOf i v).which.mask v.g.active)) = none := by
      rw [List.findSome?_eq_none_iff]
      intro o ho
      unfold Opnd.poison
      split
      · rfl
      · rename_i r hr
        simp only [Option.map_eq_none_iff, List.find?_eq_none]
        intro l hl
        obtain ⟨hl32, hr'⟩ := which_lanes hl
        simp [h.clean o ho r hr l hl32 hr']
    simp only [checkPoison, e1, h.sound]
  have h1 := h.short
  unfold firstFailure
  simp only [h.form, h5, h6, h7]
  rw [if_neg (by omega), if_neg (by rintro ⟨a, b⟩; simp [h.level a] at b), if_neg (by simp),
    if_neg (by rintro ⟨a, b⟩; simp [h.uniform a] at b)]

/-- An instruction word is executed by the issuing group: what it touches is what `accessOf` and `extraOf` name, and the
device afterwards is what its verdict leads to. -/
theorem exec_word (i : Instr) (h : hasWord i = true) (s : State) (v : View) (hi : s.dev.issuer = some v) :
    ∃ body : View → Res,
      exec i s = .next (s.withDev (conclude i v (verdict i (accessOf i v) (fun _ => extraOf i v) body v))) := by
  have form {acc : Access} {ext : View → Extra} {body : View → Res} (ha : acc = accessOf i v) (he : ext v = extraOf i v) :
      ∃ bd : View → Res, issueX i acc ext body s =
        .next (s.withDev (conclude i v (verdict i (accessOf i v) (fun _ => extraOf i v) bd v))) :=
    ⟨body, by simp only [issueX, hi, verdict, ha, he]⟩
  have handle (a : BitVec 7) (f : Group → Word → List Opnd) : withHandle s a f = handleOps v.g a (f v.g) := by
    simp only [withHandle, hi, handleOps]
  have colours (a b : BitVec 7) : sresAccess a b s = { reads := .v a.toNat :: vs b (sresWords v) } := by
    simp only [sresAccess, hi, sresWords, View.fragSet]
    cases v.k.frag <;> rfl
  cases i <;> first
    | exact nomatch (show false = true from h)
    | exact form rfl rfl
    | exact form (by rw [handle]; rfl) rfl
    | exact form (colours _ _) rfl

/-! ### What the group does next -/

/-- Merging entries one after another: the union of their masks, the longest wait, the largest count. -/
theorem foldl_merge (l : List Entry) (e : Entry) : l.foldl Entry.merge e =
    { e with mask := l.foldl (fun m f => m ||| f.mask) e.mask, last := l.foldl (fun t f => min t f.last) e.last,
             run := l.foldl (fun n f => max n f.run) e.run } := by
  induction l generalizing e with
  | nil => rfl
  | cons f fs ih => simp [ih, Entry.merge]

/-- An entry that reaches a position meets the others there as the statements say. -/
theorem meet_eq (e : Entry) (rest : List Entry) : meet e rest = gathers e rest := by
  unfold meet gathers
  by_cases h : e.clause = none
  · have hs (f : Entry) : decide (e.clause = none ∧ f.clause = none ∧ f.susp = .run ∧ f.pc = e.pc) = f.mergesAt e.pc := by
      simp only [h, true_and, Entry.mergesAt, Entry.runnable, Bool.decide_and]
      grind
    simp only [hs, foldl_merge, if_pos h]
  · simp [h]

/-- Where `conclude` puts a group whose instruction is done. -/
theorem goesOn_eq (g : Group) : ({ Group.afterRun g.advance with sel := !g.head.endsRun } : Group) = g.goesOn := by
  unfold Group.goesOn Group.afterRun Group.advance
  by_cases h : g.head.endsRun = true
  · have ha : g.head.atLast = true := by
      unfold Entry.endsRun at h
      split at h <;> simp_all
    simp [h, ha, Group.release, Entry.complete, meet_eq]
  · simp [h, Entry.complete, meet_eq]

/-- The instruction completes. -/
theorem issue_done {i : Instr} {v : View} {s : State} {body : View → Res} (hi : s.dev.issuer = some v) (h : Ready i v)
    (he : extraOf i v = {}) {d : Dev} {g : Group} (hb : body v.counted = .done d g) :
    issue i (accessOf i v) body s = .next (s.withDev (v.completes d g)) := by
  have := ready_firstFailure h
  rw [he] at this
  simp only [issue, issueX, hi, verdict, this, hb, conclude, View.completes, goesOn_eq]

/-- The instruction completes, one that reads through memory. -/
theorem issueX_done {i : Instr} {v : View} {s : State} {body : View → Res} (hi : s.dev.issuer = some v) (h : Ready i v)
    {d : Dev} {g : Group} (hb : body v.counted = .done d g) :
    issueX i (accessOf i v) (extraOf i) body s = .next (s.withDev (v.completes d g)) := by
  simp only [issueX, hi, verdict, ready_firstFailure h, hb, conclude, View.completes, goesOn_eq]

/-- The instruction traps by its own fault. -/
theorem issue_trap {i : Instr} {v : View} {s : State} {body : View → Res} (hi : s.dev.issuer = some v) (h : Ready i v)
    (he : extraOf i v = {}) {t : Trap} (hb : body v.counted = .trap t) :
    issue i (accessOf i v) body s = .next (s.withDev (v.traps i t)) := by
  have := ready_firstFailure h
  rw [he] at this
  simp only [issue, issueX, hi, verdict, this, hb, conclude, View.traps]
  rfl

/-- The group blocks before the instruction. -/
theorem issue_wait {i : Instr} {v : View} {s : State} {body : View → Res} (hi : s.dev.issuer = some v) (h : Ready i v)
    (he : extraOf i v = {}) {c : Cond} (hb : body v.counted = .wait c) :
    issue i (accessOf i v) body s = .next (s.withDev (v.blocks v.d c)) := by
  have := ready_firstFailure h
  rw [he] at this
  simp only [issue, issueX, hi, verdict, this, hb, conclude]
  rfl

/-- Marking a list of registers empty. -/
theorem markEmpty_foldl (op : Nat) (l : List RegRef) (g : Group) :
    l.foldl (fun (g : Group) r => g.markEmpty r op) g = { g with flights := g.flights ++ l.map (fun r => ⟨r, op⟩) } := by
  induction l generalizing g with
  | nil => simp
  | cons x xs ih => rw [List.foldl_cons, ih]; simp [Group.markEmpty, List.append_assoc]

/-- The instruction is handed to a unit, and the group waits. -/
theorem issue_hold {i : Instr} {v : View} {s : State} {body : View → Res} (hi : s.dev.issuer = some v) (h : Ready i v)
    (he : extraOf i v = {}) {r vs us} (hb : body v.counted = hold v.counted i r vs us) :
    issue i (accessOf i v) body s = .next (s.withDev (v.waitsFor { v.d with nextId := v.d.nextId + 1 } i v.d.nextId r vs us)) := by
  have := ready_firstFailure h
  rw [he] at this
  simp only [issue, issueX, hi, verdict, this, hb, hold, conclude, markEmpty_foldl, View.waitsFor]
  rfl

/-! ### Floating-point shapes -/

/-- Some active lane raises IV where the combined flags have it. -/
theorem flagsOf_iv (m : Mask) (f : Nat → Flags) : (flagsOf m f).iv = m.lanes.any (fun l => (f l).iv) := by
  have step : ∀ (l : List Nat) (a : Flags),
      (l.foldl (fun acc x => acc.or (f x)) a).iv = (a.iv || l.any (fun l => (f l).iv)) := by
    intro l
    induction l with
    | nil => simp
    | cons x xs ih => intro a; simp only [List.foldl_cons, ih, List.any_cons]; simp [Flags.or, Bool.or_assoc]
  unfold flagsOf
  simp [step, Flags.none]

/-- An instruction over `vecFl` writes its lanes' results and raises their flags, or is USER_TRAP where GCR.IVT is set. -/
theorem vecFl_writes {i : Instr} {d : BitVec 7} {srcs : List Opnd} {f : Group → Nat → WRes} (he : ∀ v, extraOf i v = {})
    (ha : ∀ v, accessOf i v = { reads := srcs, fixed := [.v d.toNat] }) (hx : ∀ s, exec i s = vecFl i d srcs f s)
    (hc : ∀ v : View, f v.counted.g = f v.g) : WritesF i d f := by
  constructor
  · intro s v hi h hq
    rw [hx]
    unfold vecFl issueG
    rw [← ha v]
    refine issue_done hi h (he v) ?_
    have hn : v.counted.g.ivTrap (flagsOf v.counted.g.active (fun l => (f v.counted.g l).fl)) = false := by
      rw [hc]
      unfold Group.ivTrap
      rw [flagsOf_iv]
      rcases hq with hq | hq
      · have : gcrIvt v.counted.g.gcr = false := hq
        simp [this]
      · have : (v.counted.g.active.lanes.any fun l => (f v.g l).fl.iv) = false := by
          simp only [List.any_eq_false]
          intro l hl
          simp [hq l hl]
        simp [this]
    simp only [hn, Bool.false_eq_true, if_false]
    simp only [hc]
    rfl
  · intro s v hi h hq
    rw [hx]
    unfold vecFl issueG
    rw [← ha v]
    refine issue_trap hi h (he v) ?_
    have hn : v.counted.g.ivTrap (flagsOf v.counted.g.active (fun l => (f v.counted.g l).fl)) = true := by
      rw [hc]
      unfold Group.ivTrap
      rw [flagsOf_iv]
      have : gcrIvt v.counted.g.gcr = true := hq.1
      simp only [this, Bool.true_and, List.any_eq_true]
      exact hq.2
    simp only [hn, if_true]
    simp only [hc]
    rfl

/-! ### The device's own steps -/

/-- Once the device runs, a step of the device is its change. -/
theorem event_running {s : State} (f : Dev → Dev) (h : s.plat.phase = .running) : event f s = .next (s.withDev (f s.dev)) := by
  unfold event; rw [if_pos h]

/-- A step of the device always answers a next state, and changes the device alone. -/
theorem event_next (f : Dev → Dev) (s : State) : ∃ d, event f s = .next (s.withDev d) := by
  unfold event
  split
  · exact ⟨_, rfl⟩
  · exact ⟨s.dev, rfl⟩

/-- A write of a register answers a next state, and changes the device alone. -/
theorem hostWrite_next (f : Dev → Dev) (s : State) : ∃ d, hostWrite f s = .next (s.withDev d) := by
  unfold hostWrite
  split
  · exact ⟨s.dev, rfl⟩
  · exact ⟨_, rfl⟩

/-- A mailbox command answers a next state: the command's, or one in which only the status word says that it was refused, or that another
command is in progress. -/
theorem mailboxIn_next (ph : Phase) (code : Nat) (f : State → Option State) (s : State) :
    let s' := s.withPlat { s.plat with command := none }
    ∃ t, mailboxIn ph code f s = .next t ∧ (f s' = some t ∨ t = s'.withPlat { s'.plat with mailbox := .refused } ∨
      t = s.withPlat { s.plat with mailbox := .busy }) := by
  intro s'
  unfold mailboxIn
  split
  · exact ⟨_, rfl, .inr (.inr rfl)⟩
  · refine ⟨_, rfl, ?_⟩
    split
    · cases h : f s' with
      | none => exact .inr (.inl rfl)
      | some t => exact .inl rfl
    · exact .inr (.inl rfl)

/-! ### Taking a trap -/

/-- Everything a trap can do: end the block KILLED, replay it, or enter the handler, once the trap table is read (R356–R361). -/
theorem takeTrap_cases (d : Dev) (b n : Nat) (t : TrapInfo) (k : Block) (g : Group) (hk : d.blocks[b]? = some k)
    (hg : d.group b n = some g) :
    (takeTrap d b n t = d.endBlock b (killed t.cause g.kinfo) ∧ g.levelH = true) ∨
    (takeTrap d b n t = d.replayBlock b (some t.origin) [] ∧ g.levelH = false ∧ t.cause = cPOISON ∧ k.replayable = true) ∨
    (takeTrap d b n t = (d.trapTouch k.part t.cause).endBlock b (killed t.cause g.kinfo) ∧ g.levelH = false ∧
      d.trapEntry k.part t.cause = none) ∨
    (∃ seg len, d.trapEntry k.part t.cause = some (seg, len) ∧ g.levelH = false ∧ takeTrap d b n t =
      (d.trapTouch k.part t.cause).putGroup b n (g.enterTrap t seg len (d.trapTouch k.part t.cause).cycle)) := by
  unfold takeTrap
  simp only [hk, hg]
  split
  · rename_i h; exact .inl ⟨rfl, h⟩
  · rename_i h
    have h' : g.levelH = false := by simpa using h
    split
    · rename_i hp; exact .inr (.inl ⟨rfl, h', hp.1, hp.2.2⟩)
    · cases he : d.trapEntry k.part t.cause with
      | none => exact .inr (.inr (.inl ⟨rfl, h', rfl⟩))
      | some x => exact .inr (.inr (.inr ⟨x.1, x.2, rfl, h', rfl⟩))

end Sys2Proof.Machine
end

