-- ==== Sys2Proof/Laws/Memory.lean ====
section
/-! SUPPORT. Sparse maps and byte memory: what a read gives after a write, and that every operation keeps the canonical
form. -/

namespace Sys2Proof

theorem FMap.get_erase {α : Type} (d : α) (m : FMap α) (k j : Nat) :
    FMap.get d (m.erase k) j = if j = k then d else FMap.get d m j := by
  induction m with
  | nil => simp [FMap.erase, FMap.get]
  | cons x m ih =>
    obtain ⟨a, v⟩ := x
    by_cases h : a = k
    · subst h
      have : FMap.erase ((a, v) :: m) a = FMap.erase m a := by simp [FMap.erase]
      rw [this, ih]
      by_cases hj : j = a <;> simp [hj, FMap.get]
    · have : FMap.erase ((a, v) :: m) k = (a, v) :: FMap.erase m k := by simp [FMap.erase, h]
      rw [this]
      simp only [FMap.get, ih]
      by_cases hj : j = k
      · subst hj
        simp [Ne.symm h]
      · simp [hj]

theorem FMap.get_insert {α : Type} (d : α) (m : FMap α) (k : Nat) (v : α) (j : Nat) (h : ∀ x ∈ m, x.1 ≠ k) :
    FMap.get d (m.insert k v) j = if j = k then v else FMap.get d m j := by
  induction m with
  | nil => simp [FMap.insert, FMap.get]
  | cons x m ih =>
    obtain ⟨a, w⟩ := x
    have ha : a ≠ k := h (a, w) List.mem_cons_self
    simp only [FMap.insert]
    split
    · simp [FMap.get]
    · simp only [FMap.get, ih (fun x hx => h x (List.mem_cons_of_mem _ hx))]
      by_cases hj : j = k
      · subst hj
        simp [Ne.symm ha]
      · simp [hj]

theorem FMap.erase_ne {α : Type} (m : FMap α) (k : Nat) : ∀ x ∈ m.erase k, x.1 ≠ k := by
  intro x hx
  simpa using (List.mem_filter.mp hx).2

/-- What a map gives after a key has been set. -/
theorem FMap.get_set {α : Type} [DecidableEq α] (d : α) (m : FMap α) (k : Nat) (v : α) (j : Nat) :
    FMap.get d (FMap.set d m k v) j = if j = k then v else FMap.get d m j := by
  unfold FMap.set
  split
  · rename_i h
    rw [FMap.get_erase, h]
  · rw [FMap.get_insert _ _ _ _ _ (FMap.erase_ne m k), FMap.get_erase]
    split <;> rfl

@[simp] theorem FMap.get_set_same {α : Type} [DecidableEq α] (d : α) (m : FMap α) (k : Nat) (v : α) :
    FMap.get d (FMap.set d m k v) k = v := by simp [FMap.get_set]

theorem FMap.get_set_other {α : Type} [DecidableEq α] (d : α) (m : FMap α) {k j : Nat} (v : α) (h : j ≠ k) :
    FMap.get d (FMap.set d m k v) j = FMap.get d m j := by simp [FMap.get_set, h]

@[simp] theorem FMap.get_nil {α : Type} (d : α) (k : Nat) : FMap.get d [] k = d := rfl

/-! ### The canonical form -/

theorem FMap.wfFrom_mono {α : Type} [DecidableEq α] {d : α} {m : FMap α} {lo hi : Nat} (h : lo ≤ hi)
    (w : FMap.wfFrom d hi m = true) : FMap.wfFrom d lo m = true := by
  cases m with
  | nil => rfl
  | cons x m =>
    obtain ⟨k, v⟩ := x
    simp only [FMap.wfFrom, Bool.and_eq_true, decide_eq_true_eq] at w ⊢
    exact ⟨⟨h.trans w.1.1, w.1.2⟩, w.2⟩

theorem FMap.wfFrom_erase {α : Type} [DecidableEq α] {d : α} (k : Nat) {m : FMap α} {lo : Nat}
    (w : FMap.wfFrom d lo m = true) : FMap.wfFrom d lo (m.erase k) = true := by
  induction m generalizing lo with
  | nil => rfl
  | cons x m ih =>
    obtain ⟨a, v⟩ := x
    simp only [FMap.wfFrom, Bool.and_eq_true, decide_eq_true_eq] at w
    by_cases h : a = k
    · have : FMap.erase ((a, v) :: m) k = FMap.erase m k := by simp [FMap.erase, h]
      rw [this]
      exact FMap.wfFrom_mono (by omega) (ih w.2)
    · have : FMap.erase ((a, v) :: m) k = (a, v) :: FMap.erase m k := by simp [FMap.erase, h]
      rw [this]
      simp only [FMap.wfFrom, Bool.and_eq_true, decide_eq_true_eq]
      exact ⟨w.1, ih w.2⟩

theorem FMap.wfFrom_insert {α : Type} [DecidableEq α] {d : α} {k : Nat} {v : α} (hv : v ≠ d) {m : FMap α} {lo : Nat}
    (hk : lo ≤ k) (h : ∀ x ∈ m, x.1 ≠ k) (w : FMap.wfFrom d lo m = true) : FMap.wfFrom d lo (m.insert k v) = true := by
  induction m generalizing lo with
  | nil => simp [FMap.insert, FMap.wfFrom, hv, hk]
  | cons x m ih =>
    obtain ⟨a, b⟩ := x
    have ha : a ≠ k := h (a, b) List.mem_cons_self
    simp only [FMap.wfFrom, Bool.and_eq_true, decide_eq_true_eq] at w
    simp only [FMap.insert]
    split
    · simp only [FMap.wfFrom, Bool.and_eq_true, decide_eq_true_eq]
      exact ⟨⟨hk, hv⟩, ⟨by omega, w.1.2⟩, w.2⟩
    · simp only [FMap.wfFrom, Bool.and_eq_true, decide_eq_true_eq]
      exact ⟨w.1, ih (by omega) (fun x hx => h x (List.mem_cons_of_mem _ hx)) w.2⟩

/-- Setting a key keeps the canonical form. -/
theorem FMap.wf_set {α : Type} [DecidableEq α] {d : α} {m : FMap α} (k : Nat) (v : α) (w : FMap.wf d m = true) :
    FMap.wf d (FMap.set d m k v) = true := by
  unfold FMap.set
  split
  · exact FMap.wfFrom_erase k w
  · rename_i h
    exact FMap.wfFrom_insert h (Nat.zero_le k) (FMap.erase_ne m k) (FMap.wfFrom_erase k w)

theorem FMap.wfFrom_filter {α : Type} [DecidableEq α] {d : α} (p : Nat × α → Bool) {m : FMap α} {lo : Nat}
    (w : FMap.wfFrom d lo m = true) : FMap.wfFrom d lo (m.filter p) = true := by
  induction m generalizing lo with
  | nil => rfl
  | cons x m ih =>
    obtain ⟨a, v⟩ := x
    simp only [FMap.wfFrom, Bool.and_eq_true, decide_eq_true_eq] at w
    by_cases h : p (a, v) = true
    · rw [List.filter_cons_of_pos h]
      simp only [FMap.wfFrom, Bool.and_eq_true, decide_eq_true_eq]
      exact ⟨w.1, ih w.2⟩
    · rw [List.filter_cons_of_neg h]
      exact FMap.wfFrom_mono (by omega) (ih w.2)

/-- Removing the keys of a range keeps the canonical form. -/
theorem Machine.FMap.wf_clearRange {α : Type} [DecidableEq α] {d : α} {m : FMap α} (lo n : Nat) (w : FMap.wf d m = true) :
    FMap.wf d (Machine.FMap.clearRange m lo n) = true :=
  FMap.wfFrom_filter _ w

/-! ### Bytes -/

theorem Memory.read_write (m : Memory) (a : Nat) (b : Byte) (x : Nat) :
    Memory.read (Memory.write m a b) x = if x = a then b else Memory.read m x := FMap.get_set _ _ _ _ _

theorem Memory.wf_write {m : Memory} (a : Nat) (b : Byte) (w : Memory.wf m = true) : Memory.wf (Memory.write m a b) = true :=
  FMap.wf_set a b w

theorem Memory.wf_nil : Memory.wf [] = true := rfl

namespace Machine

theorem Memory.wf_writeLE (a x n : Nat) {m : Memory} (w : Memory.wf m = true) : Memory.wf (Memory.writeLE m a x n) = true := by
  induction n generalizing a x m with
  | zero => exact w
  | succ n ih => exact ih _ _ (Memory.wf_write _ _ w)

theorem Memory.wf_writeBytes (l : List (Nat × Byte)) {m : Memory} (w : Memory.wf m = true) :
    Memory.wf (Memory.writeBytes m l) = true := by
  induction l generalizing m with
  | nil => exact w
  | cons x l ih => exact ih (Memory.wf_write _ _ w)

/-- Bytes of a little-endian write outside its range read as before. -/
theorem Memory.read_writeLE_outside (a x n : Nat) (m : Memory) (y : Nat) (h : y < a ∨ a + n ≤ y) :
    Memory.read (Memory.writeLE m a x n) y = Memory.read m y := by
  induction n generalizing a x m with
  | zero => rfl
  | succ n ih =>
    simp only [Memory.writeLE]
    rw [ih _ _ _ (by omega), Memory.read_write]
    simp only [ite_eq_right_iff]
    omega

theorem reset_memory_wf : Memory.wf State.reset.dev.hbm = true ∧ Memory.wf State.reset.dev.hostMem = true := ⟨rfl, rfl⟩

end Machine

end Sys2Proof
end

