-- ==== Sys2Proof/Laws/PerInstr.lean ====
section
/-! SUPPORT. For every instruction: its word decodes to it (R96–R109). -/

namespace Sys2Proof.Laws.Reads

open Sys2Proof
set_option Elab.async false

/-- A well-formed instruction's word, decoded in its class, is the instruction. -/
def Statement (i : Instr) : Prop := ∀ c w, WellFormed i = true → encode i = some (c, w) → decode c w = .ok i

theorem of_fields {i : Instr} {c : Cls} {w : Word} (he : encode i = some (c, w))
    (h : WellFormed i = true → decodeFields c w = .ok i) : Statement i := by
  intro c' w' hw he'
  rw [he] at he'
  obtain ⟨rfl, rfl⟩ := Prod.mk.injEq .. ▸ Option.some.inj he'
  simp only [decode, h hw, hw, if_true]

theorem of_none {i : Instr} (he : encode i = none) : Statement i := by
  intro c w _ h
  rw [he] at h
  exact nomatch h

theorem iadd (m : AddMode) (d : BitVec 7) (a b : Src) : Statement (.iadd m d a b) :=
  of_fields rfl (fun _ => by rw [decodeFields_vec]; show (_ >>= _) = _; simp)
theorem iaddImm (m : AddMode) (d : BitVec 7) (a : Src) (i : BitVec 8) : Statement (.iaddImm m d a i) :=
  of_fields rfl (fun _ => by rw [decodeFields_vec]; show (_ >>= _) = _; simp)
theorem isub (m : AddMode) (d : BitVec 7) (a b : Src) : Statement (.isub m d a b) :=
  of_fields rfl (fun _ => by rw [decodeFields_vec]; show (_ >>= _) = _; simp)
theorem isubImm (m : AddMode) (d : BitVec 7) (a : Src) (i : BitVec 8) : Statement (.isubImm m d a i) :=
  of_fields rfl (fun _ => by rw [decodeFields_vec]; show (_ >>= _) = _; simp)
theorem imul (m : MulMode) (d : BitVec 7) (a b : Src) : Statement (.imul m d a b) :=
  of_fields rfl (fun _ => by rw [decodeFields_vec]; show (_ >>= _) = _; simp)
theorem imulImm (m : MulMode) (d : BitVec 7) (a : Src) (i : BitVec 8) : Statement (.imulImm m d a i) :=
  of_fields rfl (fun _ => by rw [decodeFields_vec]; show (_ >>= _) = _; simp)
theorem imad (sat : Bool) (d : BitVec 7) (a b : Src) : Statement (.imad sat d a b) :=
  of_fields rfl (fun _ => by rw [decodeFields_vec]; show (_ >>= _) = _; simp)
theorem imadImm (sat : Bool) (d : BitVec 7) (a : Src) (i : BitVec 8) : Statement (.imadImm sat d a i) :=
  of_fields rfl (fun _ => by rw [decodeFields_vec]; show (_ >>= _) = _; simp)
theorem imin (n : Bool) (d : BitVec 7) (a b : Src) : Statement (.imin n d a b) :=
  of_fields rfl (fun _ => by rw [decodeFields_vec]; show (_ >>= _) = _; simp)
theorem iminImm (n : Bool) (d : BitVec 7) (a : Src) (i : BitVec 8) : Statement (.iminImm n d a i) :=
  of_fields rfl (fun _ => by rw [decodeFields_vec]; show (_ >>= _) = _; simp)
theorem imax (n : Bool) (d : BitVec 7) (a b : Src) : Statement (.imax n d a b) :=
  of_fields rfl (fun _ => by rw [decodeFields_vec]; show (_ >>= _) = _; simp)
theorem imaxImm (n : Bool) (d : BitVec 7) (a : Src) (i : BitVec 8) : Statement (.imaxImm n d a i) :=
  of_fields rfl (fun _ => by rw [decodeFields_vec]; show (_ >>= _) = _; simp)
theorem iabs (sat : Bool) (d : BitVec 7) (a : Src) : Statement (.iabs sat d a) :=
  of_fields rfl (fun _ => by rw [decodeFields_vec]; show (_ >>= _) = _; simp)
theorem ineg (sat : Bool) (d : BitVec 7) (a : Src) : Statement (.ineg sat d a) :=
  of_fields rfl (fun _ => by rw [decodeFields_vec]; show (_ >>= _) = _; simp)
theorem and (d : BitVec 7) (a b : Src) : Statement (.and d a b) :=
  of_fields rfl (fun _ => by rw [decodeFields_vec]; show (_ >>= _) = _; simp)
theorem andImm (d : BitVec 7) (a : Src) (i : BitVec 8) : Statement (.andImm d a i) :=
  of_fields rfl (fun _ => by rw [decodeFields_vec]; show (_ >>= _) = _; simp)
theorem or (d : BitVec 7) (a b : Src) : Statement (.or d a b) :=
  of_fields rfl (fun _ => by rw [decodeFields_vec]; show (_ >>= _) = _; simp)
theorem orImm (d : BitVec 7) (a : Src) (i : BitVec 8) : Statement (.orImm d a i) :=
  of_fields rfl (fun _ => by rw [decodeFields_vec]; show (_ >>= _) = _; simp)
theorem xor (d : BitVec 7) (a b : Src) : Statement (.xor d a b) :=
  of_fields rfl (fun _ => by rw [decodeFields_vec]; show (_ >>= _) = _; simp)
theorem xorImm (d : BitVec 7) (a : Src) (i : BitVec 8) : Statement (.xorImm d a i) :=
  of_fields rfl (fun _ => by rw [decodeFields_vec]; show (_ >>= _) = _; simp)
theorem andn (d : BitVec 7) (a b : Src) : Statement (.andn d a b) :=
  of_fields rfl (fun _ => by rw [decodeFields_vec]; show (_ >>= _) = _; simp)
theorem andnImm (d : BitVec 7) (a : Src) (i : BitVec 8) : Statement (.andnImm d a i) :=
  of_fields rfl (fun _ => by rw [decodeFields_vec]; show (_ >>= _) = _; simp)
theorem shl (d : BitVec 7) (a b : Src) : Statement (.shl d a b) :=
  of_fields rfl (fun _ => by rw [decodeFields_vec]; show (_ >>= _) = _; simp)
theorem shlImm (d : BitVec 7) (a : Src) (i : BitVec 8) : Statement (.shlImm d a i) :=
  of_fields rfl (fun _ => by rw [decodeFields_vec]; show (_ >>= _) = _; simp)
theorem shr (arith : Bool) (d : BitVec 7) (a b : Src) : Statement (.shr arith d a b) :=
  of_fields rfl (fun _ => by rw [decodeFields_vec]; show (_ >>= _) = _; simp)
theorem shrImm (arith : Bool) (d : BitVec 7) (a : Src) (i : BitVec 8) : Statement (.shrImm arith d a i) :=
  of_fields rfl (fun _ => by rw [decodeFields_vec]; show (_ >>= _) = _; simp)
theorem rotl (d : BitVec 7) (a b : Src) : Statement (.rotl d a b) :=
  of_fields rfl (fun _ => by rw [decodeFields_vec]; show (_ >>= _) = _; simp)
theorem rotlImm (d : BitVec 7) (a : Src) (i : BitVec 8) : Statement (.rotlImm d a i) :=
  of_fields rfl (fun _ => by rw [decodeFields_vec]; show (_ >>= _) = _; simp)
theorem bfx (s : Bool) (d : BitVec 7) (a b : Src) : Statement (.bfx s d a b) :=
  of_fields rfl (fun _ => by rw [decodeFields_vec]; show (_ >>= _) = _; simp)
theorem bfi (d : BitVec 7) (a b : Src) : Statement (.bfi d a b) :=
  of_fields rfl (fun _ => by rw [decodeFields_vec]; show (_ >>= _) = _; simp)
theorem popc (d : BitVec 7) (a : Src) : Statement (.popc d a) :=
  of_fields rfl (fun _ => by rw [decodeFields_vec]; show (_ >>= _) = _; simp)
theorem clz (d : BitVec 7) (a : Src) : Statement (.clz d a) :=
  of_fields rfl (fun _ => by rw [decodeFields_vec]; show (_ >>= _) = _; simp)
theorem brev (d : BitVec 7) (a : Src) : Statement (.brev d a) :=
  of_fields rfl (fun _ => by rw [decodeFields_vec]; show (_ >>= _) = _; simp)
theorem lea (sh : BitVec 2) (d : BitVec 7) (a b : Src) : Statement (.lea sh d a b) :=
  of_fields rfl (fun _ => by rw [decodeFields_vec]; show Except.ok _ = _; simp)
theorem leaImm (sh : BitVec 2) (d : BitVec 7) (a : Src) (i : BitVec 8) : Statement (.leaImm sh d a i) :=
  of_fields rfl (fun _ => by rw [decodeFields_vec]; show Except.ok _ = _; simp)
theorem add64 (zx : Bool) (d : BitVec 7) (a b : Src) : Statement (.add64 zx d a b) :=
  of_fields rfl (fun _ => by rw [decodeFields_vec]; show (_ >>= _) = _; simp)
theorem add64Imm (zx : Bool) (d : BitVec 7) (a : Src) (i : BitVec 8) : Statement (.add64Imm zx d a i) :=
  of_fields rfl (fun _ => by rw [decodeFields_vec]; show (_ >>= _) = _; simp)
theorem icmp (m : Comb) (c : ICond) (n : Bool) (p : BitVec 3) (a b : Src) : Statement (.icmp m c n p a b) :=
  of_fields rfl (fun _ => by rw [decodeFields_vec]; show (_ >>= _) = _; simp)
theorem icmpImm (m : Comb) (c : ICond) (n : Bool) (p : BitVec 3) (a : Src) (i : BitVec 8) : Statement (.icmpImm m c n p a i) :=
  of_fields rfl (fun _ => by rw [decodeFields_vec]; show (_ >>= _) = _; simp)
theorem sel (p : BitVec 3) (d : BitVec 7) (a b : Src) : Statement (.sel p d a b) :=
  of_fields rfl (fun _ => by rw [decodeFields_vec]; show Except.ok _ = _; simp)
theorem movi (f : MoviForm) (d : BitVec 7) (i : BitVec 8) : Statement (.movi f d i) :=
  of_fields rfl (fun _ => by rw [decodeFields_vec]; show (_ >>= _) = _; simp)
theorem mov (d : BitVec 7) (a : Src) : Statement (.mov d a) :=
  of_fields rfl (fun _ => by rw [decodeFields_vec]; show (_ >>= _) = _; simp)
theorem ptov (p : BitVec 3) (d : BitVec 7) : Statement (.ptov p d) :=
  of_fields rfl (fun _ => by rw [decodeFields_vec]; show (_ >>= _) = _; simp)
theorem vtop (p : BitVec 3) (a : Src) : Statement (.vtop p a) :=
  of_fields rfl (fun _ => by rw [decodeFields_vec]; show (_ >>= _) = _; simp)
theorem fadd (r : Rnd) (d : BitVec 7) (a b : Src) : Statement (.fadd r d a b) :=
  of_fields rfl (fun _ => by rw [decodeFields_vec]; show (_ >>= _) = _; simp)
theorem fsub (r : Rnd) (d : BitVec 7) (a b : Src) : Statement (.fsub r d a b) :=
  of_fields rfl (fun _ => by rw [decodeFields_vec]; show (_ >>= _) = _; simp)
theorem fmul (r : Rnd) (d : BitVec 7) (a b : Src) : Statement (.fmul r d a b) :=
  of_fields rfl (fun _ => by rw [decodeFields_vec]; show (_ >>= _) = _; simp)
theorem ffma (r : Rnd) (d : BitVec 7) (a b : Src) : Statement (.ffma r d a b) :=
  of_fields rfl (fun _ => by rw [decodeFields_vec]; show (_ >>= _) = _; simp)
theorem ffms (r : Rnd) (d : BitVec 7) (a b : Src) : Statement (.ffms r d a b) :=
  of_fields rfl (fun _ => by rw [decodeFields_vec]; show (_ >>= _) = _; simp)
theorem fmin (nan : Bool) (d : BitVec 7) (a b : Src) : Statement (.fmin nan d a b) :=
  of_fields rfl (fun _ => by rw [decodeFields_vec]; show (_ >>= _) = _; simp)
theorem fmax (nan : Bool) (d : BitVec 7) (a b : Src) : Statement (.fmax nan d a b) :=
  of_fields rfl (fun _ => by rw [decodeFields_vec]; show (_ >>= _) = _; simp)
theorem fcmp (m : Comb) (c : FCond) (p : BitVec 3) (a b : Src) : Statement (.fcmp m c p a b) :=
  of_fields rfl (fun _ => by rw [decodeFields_vec]; show (_ >>= _) = _; simp)
theorem funa (f : FunaOp) (d : BitVec 7) (a : Src) : Statement (.funa f d a) :=
  of_fields rfl (fun _ => by rw [decodeFields_vec]; show (_ >>= _) = _; simp)
theorem frcp (d : BitVec 7) (a : Src) : Statement (.frcp d a) :=
  of_fields rfl (fun _ => by rw [decodeFields_vec]; show (_ >>= _) = _; simp)
theorem frsq (d : BitVec 7) (a : Src) : Statement (.frsq d a) :=
  of_fields rfl (fun _ => by rw [decodeFields_vec]; show (_ >>= _) = _; simp)
theorem fsqrt (r : Rnd) (d : BitVec 7) (a : Src) : Statement (.fsqrt r d a) :=
  of_fields rfl (fun _ => by rw [decodeFields_vec]; show (_ >>= _) = _; simp)
theorem fex2 (d : BitVec 7) (a : Src) : Statement (.fex2 d a) :=
  of_fields rfl (fun _ => by rw [decodeFields_vec]; show (_ >>= _) = _; simp)
theorem flg2 (d : BitVec 7) (a : Src) : Statement (.flg2 d a) :=
  of_fields rfl (fun _ => by rw [decodeFields_vec]; show (_ >>= _) = _; simp)
theorem fsinr (d : BitVec 7) (a : Src) : Statement (.fsinr d a) :=
  of_fields rfl (fun _ => by rw [decodeFields_vec]; show (_ >>= _) = _; simp)
theorem fcosr (d : BitVec 7) (a : Src) : Statement (.fcosr d a) :=
  of_fields rfl (fun _ => by rw [decodeFields_vec]; show (_ >>= _) = _; simp)
theorem padd2 (t : HFmt) (d : BitVec 7) (a b : Src) : Statement (.padd2 t d a b) :=
  of_fields rfl (fun _ => by cases t <;> (rw [decodeFields_vec]; show (_ >>= _) = _; simp; rfl))
theorem pmul2 (t : HFmt) (d : BitVec 7) (a b : Src) : Statement (.pmul2 t d a b) :=
  of_fields rfl (fun _ => by cases t <;> (rw [decodeFields_vec]; show (_ >>= _) = _; simp; rfl))
theorem pfma2 (t : HFmt) (d : BitVec 7) (a b : Src) : Statement (.pfma2 t d a b) :=
  of_fields rfl (fun _ => by cases t <;> (rw [decodeFields_vec]; show (_ >>= _) = _; simp; rfl))
theorem pminmax2 (max : Bool) (t : HFmt) (d : BitVec 7) (a b : Src) : Statement (.pminmax2 max t d a b) :=
  of_fields rfl (fun _ => by cases max <;> cases t <;> (rw [decodeFields_vec]; show (_ >>= _) = _; simp; rfl))
theorem cvt (sat : Bool) (r : Rnd) (d : BitVec 7) (a : Src) (c : CvtForm) : Statement (.cvt sat r d a c) :=
  of_fields rfl (fun _ => by rw [decodeFields_vec]; show (_ >>= _) = _; simp)
theorem cvtp (t : HFmt) (d : BitVec 7) (a b : Src) : Statement (.cvtp t d a b) :=
  of_fields rfl (fun _ => by cases t <;> (rw [decodeFields_vec]; show (_ >>= _) = _; simp; rfl))
theorem qnt (f : QForm) (d a : BitVec 7) (b : BitVec 7) : Statement (.qnt f d a b) :=
  of_fields rfl (fun _ => by rw [decodeFields_vec]; show (_ >>= _) = _; simp)
theorem dqnt (f : DqForm) (d a : BitVec 7) (b : BitVec 7) : Statement (.dqnt f d a b) :=
  of_fields rfl (fun _ => by rw [decodeFields_vec]; show (_ >>= _) = _; simp)
theorem shfl (m : ShflMode) (d a : BitVec 7) (b : Src) : Statement (.shfl m d a b) :=
  of_fields rfl (fun _ => by rw [decodeFields_vec]; show (_ >>= _) = _; simp)
theorem shflImm (m : ShflMode) (d a : BitVec 7) (i : BitVec 8) : Statement (.shflImm m d a i) :=
  of_fields rfl (fun _ => by rw [decodeFields_vec]; show (_ >>= _) = _; simp)
theorem xgath (k : KCount) (d a : BitVec 7) (b : Src) : Statement (.xgath k d a b) :=
  of_fields rfl (fun _ => by rw [decodeFields_vec]; show (_ >>= _) = _; simp)
theorem qx (f : QxOp) (d a : BitVec 7) : Statement (.qx f d a) :=
  of_fields rfl (fun _ => by rw [decodeFields_vec]; show (_ >>= _) = _; simp)
theorem voteAnyAll (all : Bool) (p q : BitVec 3) (b : BitVec 7) : Statement (.voteAnyAll all p q b) :=
  of_fields rfl (fun _ => by cases all <;> (rw [decodeFields_vec]; show (_ >>= _) = _; simp; rfl))
theorem voteBallot (d : BitVec 7) (q : BitVec 3) (b : BitVec 7) : Statement (.voteBallot d q b) :=
  of_fields rfl (fun _ => by rw [decodeFields_vec]; show (_ >>= _) = _; simp)
theorem voteEq (p : BitVec 3) (a b : BitVec 7) : Statement (.voteEq p a b) :=
  of_fields rfl (fun _ => by rw [decodeFields_vec]; show (_ >>= _) = _; simp)
theorem matchLanes (d a : BitVec 7) : Statement (.matchLanes d a) :=
  of_fields rfl (fun _ => by rw [decodeFields_vec]; show (_ >>= _) = _; simp; rfl)
theorem matchCount (d a b : BitVec 7) : Statement (.matchCount d a b) :=
  of_fields rfl (fun _ => by rw [decodeFields_vec]; show (_ >>= _) = _; simp; rfl)
theorem gred (f : GredOp) (d a b : BitVec 7) : Statement (.gred f d a b) :=
  of_fields rfl (fun _ => by rw [decodeFields_vec]; show (_ >>= _) = _; simp)
theorem scan (excl : Bool) (m : ScanOp) (d a b : BitVec 7) : Statement (.scan excl m d a b) :=
  of_fields rfl (fun _ => by rw [decodeFields_vec]; show (_ >>= _) = _; simp)
theorem sadd (d : BitVec 8) (a b : USrc) : Statement (.sadd d a b) :=
  of_fields rfl (fun h => by rw [decodeFields_uni]; show (_ >>= _) = _; simp_all [WellFormed])
theorem ssub (d : BitVec 8) (a b : USrc) : Statement (.ssub d a b) :=
  of_fields rfl (fun h => by rw [decodeFields_uni]; show (_ >>= _) = _; simp_all [WellFormed])
theorem smul (f : MulMode) (d : BitVec 8) (a b : USrc) : Statement (.smul f d a b) :=
  of_fields rfl (fun h => by rw [decodeFields_uni]; show (_ >>= _) = _; simp_all [WellFormed])
theorem smad (d : BitVec 8) (a b : USrc) : Statement (.smad d a b) :=
  of_fields rfl (fun h => by rw [decodeFields_uni]; show (_ >>= _) = _; simp_all [WellFormed])
theorem sand (d : BitVec 8) (a b : USrc) : Statement (.sand d a b) :=
  of_fields rfl (fun h => by rw [decodeFields_uni]; show (_ >>= _) = _; simp_all [WellFormed])
theorem sor (d : BitVec 8) (a b : USrc) : Statement (.sor d a b) :=
  of_fields rfl (fun h => by rw [decodeFields_uni]; show (_ >>= _) = _; simp_all [WellFormed])
theorem sxor (d : BitVec 8) (a b : USrc) : Statement (.sxor d a b) :=
  of_fields rfl (fun h => by rw [decodeFields_uni]; show (_ >>= _) = _; simp_all [WellFormed])
theorem sshl (d : BitVec 8) (a b : USrc) : Statement (.sshl d a b) :=
  of_fields rfl (fun h => by rw [decodeFields_uni]; show (_ >>= _) = _; simp_all [WellFormed])
theorem sshr (arith : Bool) (d : BitVec 8) (a b : USrc) : Statement (.sshr arith d a b) :=
  of_fields rfl (fun h => by rw [decodeFields_uni]; show (_ >>= _) = _; simp_all [WellFormed])
theorem sminmax (n max : Bool) (d : BitVec 8) (a b : USrc) : Statement (.sminmax n max d a b) :=
  of_fields rfl (fun h => by cases n <;> cases max <;> (rw [decodeFields_uni]; show (_ >>= _) = _; simp_all [WellFormed]))
theorem scmp (c : SCond) (d : BitVec 8) (a b : USrc) : Statement (.scmp c d a b) :=
  of_fields rfl (fun h => by rw [decodeFields_uni]; show (_ >>= _) = _; simp_all [WellFormed])
theorem scmpn (c : SCondN) (d : BitVec 8) (a b : USrc) : Statement (.scmpn c d a b) :=
  of_fields rfl (fun h => by rw [decodeFields_uni]; show (_ >>= _) = _; simp_all [WellFormed])
theorem saddi (d : BitVec 8) (a : USrc) (i : BitVec 8) : Statement (.saddi d a i) :=
  of_fields rfl (fun h => by rw [decodeFields_uni]; show (_ >>= _) = _; simp_all [WellFormed])
theorem smovi (s : Bool) (d : BitVec 8) (i : BitVec 8) : Statement (.smovi s d i) :=
  of_fields rfl (fun h => by rw [decodeFields_uni]; show (_ >>= _) = _; simp_all [WellFormed])
theorem smovb3 (f : SmovbForm) (d : BitVec 8) (i : BitVec 8) : Statement (.smovb3 f d i) :=
  of_fields rfl (fun h => by rw [decodeFields_uni]; show (_ >>= _) = _; simp_all [WellFormed])
theorem smov (d : BitVec 8) (a : USrc) : Statement (.smov d a) :=
  of_fields rfl (fun h => by rw [decodeFields_uni]; show (_ >>= _) = _; simp_all [WellFormed])
theorem v2s (chk : Bool) (d : BitVec 8) (a : BitVec 7) : Statement (.v2s chk d a) :=
  of_fields rfl (fun h => by cases chk <;> (rw [decodeFields_uni]; show (_ >>= _) = _; simp_all [WellFormed]))
theorem v2sLane (d : BitVec 8) (a : BitVec 7) (l : BitVec 5) : Statement (.v2sLane d a l) :=
  of_fields rfl (fun h => by rw [decodeFields_uni]; show (_ >>= _) = _; simp_all [WellFormed])
theorem srd (d : BitVec 8) (c : BitVec 8) : Statement (.srd d c) :=
  of_fields rfl (fun h => by rw [decodeFields_uni]; show (_ >>= _) = _; simp_all [WellFormed])
theorem sctl (a : USrc) : Statement (.sctl a) :=
  of_fields rfl (fun h => by rw [decodeFields_uni]; show (_ >>= _) = _; simp_all [WellFormed])
theorem sld (l : Lvl3) (d : BitVec 8) (a : USrc) (i : BitVec 8) : Statement (.sld l d a i) :=
  of_fields rfl (fun h => by rw [decodeFields_uni]; show (_ >>= _) = _; simp_all [WellFormed])
theorem sst (l : Lvl3) (d : USrc) (a : USrc) (i : BitVec 8) : Statement (.sst l d a i) :=
  of_fields rfl (fun h => by rw [decodeFields_uni]; show (_ >>= _) = _; simp_all [WellFormed])
theorem sflg (a : USrc) : Statement (.sflg a) :=
  of_fields rfl (fun h => by rw [decodeFields_uni]; show (_ >>= _) = _; simp_all [WellFormed])
theorem jget (d : BitVec 8) (j : BitVec 4) : Statement (.jget d j) :=
  of_fields rfl (fun h => by rw [decodeFields_uni]; show (_ >>= _) = _; simp_all [WellFormed])
theorem ld (l : Lvl) (sz : MemSize) (d : BitVec 7) (a : Src) (o : BitVec 8) : Statement (.ld l sz d a o) :=
  of_fields rfl (fun _ => by cases l <;> (rw [decodeFields_mem]; show (_ >>= _) = _; simp))
theorem st (l : Lvl) (sz : MemSize) (d : BitVec 7) (a : Src) (o : BitVec 8) : Statement (.st l sz d a o) :=
  of_fields rfl (fun _ => by cases l <;> (rw [decodeFields_mem]; show (_ >>= _) = _; simp))
theorem ldln (l : Lvl3) (k : KCount) (d : BitVec 7) (a : Src) (o : BitVec 8) : Statement (.ldln l k d a o) :=
  of_fields rfl (fun _ => by cases l <;> (rw [decodeFields_mem]; show (_ >>= _) = _; simp))
theorem atm (l : Lvl3) (f : AtOp) (d : BitVec 7) (a : Src) (o : BitVec 8) : Statement (.atm l f d a o) :=
  of_fields rfl (fun _ => by cases l <;> (rw [decodeFields_mem]; show (_ >>= _) = _; simp))
theorem cas (l : Lvl3) (d : BitVec 7) (a : Src) (o : BitVec 8) : Statement (.cas l d a o) :=
  of_fields rfl (fun _ => by rw [decodeFields_mem]; show (_ >>= _) = _; simp)
theorem fence (s : Scope) (k : FKind) : Statement (.fence s k) :=
  of_fields rfl (fun _ => by rw [decodeFields_mem]; show (_ >>= _) = _; simp)
theorem pbarInit (l : Lvl2) (d : BitVec 7) (a : BitVec 7) (o : BitVec 8) : Statement (.pbarInit l d a o) :=
  of_fields rfl (fun _ => by rw [decodeFields_mem]; show (_ >>= _) = _; simp)
theorem pbarArr (l : Lvl2) (a : BitVec 7) (o : BitVec 8) : Statement (.pbarArr l a o) :=
  of_fields rfl (fun _ => by rw [decodeFields_mem]; show (_ >>= _) = _; simp)
theorem pbarWait (l : Lvl2) (ph : Bool) (a : BitVec 7) (o : BitVec 8) : Statement (.pbarWait l ph a o) :=
  of_fields rfl (fun _ => by cases ph <;> (rw [decodeFields_mem]; show (_ >>= _) = _; simp))
theorem copy (c : BitVec 3) (a : BitVec 7) : Statement (.copy c a) :=
  of_fields rfl (fun _ => by rw [decodeFields_eng]; show (_ >>= _) = _; simp)
theorem copy2 (c : BitVec 3) (a : BitVec 7) : Statement (.copy2 c a) :=
  of_fields rfl (fun _ => by rw [decodeFields_eng]; show (_ >>= _) = _; simp)
theorem wptr (c : BitVec 3) (d : BitVec 7) : Statement (.wptr c d) :=
  of_fields rfl (fun _ => by rw [decodeFields_eng]; show (_ >>= _) = _; simp)
theorem cwait (c : BitVec 3) (a : BitVec 7) : Statement (.cwait c a) :=
  of_fields rfl (fun _ => by rw [decodeFields_eng]; show (_ >>= _) = _; simp)
theorem crst (c : BitVec 3) : Statement (.crst c) :=
  of_fields rfl (fun _ => by rw [decodeFields_eng]; show (_ >>= _) = _; simp)
theorem fatom (f : FatomOp) (d a b : BitVec 7) : Statement (.fatom f d a b) :=
  of_fields rfl (fun _ => by rw [decodeFields_eng]; show (_ >>= _) = _; simp)
theorem trayPush (nb : Bool) (d a b : BitVec 7) : Statement (.trayPush nb d a b) :=
  of_fields rfl (fun _ => by rw [decodeFields_eng]; show (_ >>= _) = _; simp)
theorem trayPopb (nb : Bool) (d a : BitVec 7) : Statement (.trayPopb nb d a) :=
  of_fields rfl (fun _ => by cases nb <;> (rw [decodeFields_eng]; show (_ >>= _) = _; simp; rfl))
theorem trayPopbSteal (nb : Bool) (d a b : BitVec 7) : Statement (.trayPopbSteal nb d a b) :=
  of_fields rfl (fun _ => by cases nb <;> (rw [decodeFields_eng]; show (_ >>= _) = _; simp; rfl))
theorem trayInsd (d a b : BitVec 7) : Statement (.trayInsd d a b) :=
  of_fields rfl (fun _ => by rw [decodeFields_eng]; show (_ >>= _) = _; simp)
theorem trayQry (q : TrayQ) (d a : BitVec 7) : Statement (.trayQry q d a) :=
  of_fields rfl (fun _ => by rw [decodeFields_eng]; show (_ >>= _) = _; simp)
theorem trayClose (a : BitVec 7) : Statement (.trayClose a) :=
  of_fields rfl (fun _ => by rw [decodeFields_eng]; show (_ >>= _) = _; simp)
theorem mpath (d a b : BitVec 7) : Statement (.mpath d a b) :=
  of_fields rfl (fun _ => by rw [decodeFields_eng]; show (_ >>= _) = _; simp)
theorem tex (lod : Bool) (f : TexFilter) (d a b : BitVec 7) : Statement (.tex lod f d a b) :=
  of_fields rfl (fun _ => by rw [decodeFields_eng]; show (_ >>= _) = _; simp)
theorem texg (c : BitVec 2) (d a b : BitVec 7) : Statement (.texg c d a b) :=
  of_fields rfl (fun _ => by rw [decodeFields_eng]; show (_ >>= _) = _; simp)
theorem ssetNew (a b : BitVec 7) : Statement (.ssetNew a b) :=
  of_fields rfl (fun _ => by rw [decodeFields_eng]; show (_ >>= _) = _; simp)
theorem ssetBuild (a : BitVec 7) : Statement (.ssetBuild a) :=
  of_fields rfl (fun _ => by rw [decodeFields_eng]; show (_ >>= _) = _; simp)
theorem ssetBind (a : BitVec 7) : Statement (.ssetBind a) :=
  of_fields rfl (fun _ => by rw [decodeFields_eng]; show (_ >>= _) = _; simp)
theorem ssetQry (q : SsetQ) (d a : BitVec 7) : Statement (.ssetQry q d a) :=
  of_fields rfl (fun _ => by rw [decodeFields_eng]; show (_ >>= _) = _; simp)
theorem prim (a b : BitVec 7) : Statement (.prim a b) :=
  of_fields rfl (fun _ => by rw [decodeFields_eng]; show (_ >>= _) = _; simp)
theorem sres (m : SresMode) (a b : BitVec 7) : Statement (.sres m a b) :=
  of_fields rfl (fun _ => by rw [decodeFields_eng]; show (_ >>= _) = _; simp)
theorem rclear (a : BitVec 7) : Statement (.rclear a) :=
  of_fields rfl (fun _ => by rw [decodeFields_eng]; show (_ >>= _) = _; simp)
theorem rdecomp (a : BitVec 7) : Statement (.rdecomp a) :=
  of_fields rfl (fun _ => by rw [decodeFields_eng]; show (_ >>= _) = _; simp)
theorem permit (a : BitVec 7) : Statement (.permit a) :=
  of_fields rfl (fun _ => by rw [decodeFields_eng]; show (_ >>= _) = _; simp)
theorem mdecl (g : BitVec 3) (a b : BitVec 7) : Statement (.mdecl g a b) :=
  of_fields rfl (fun _ => by rw [decodeFields_mat]; show (_ >>= _) = _; simp)
theorem mma (f : MmaKind) (g : BitVec 3) : Statement (.mma f g) :=
  of_fields rfl (fun _ => by rw [decodeFields_mat]; show (_ >>= _) = _; simp)
theorem mopmap (f : MapKind) (m : BitVec 3) (a : BitVec 7) : Statement (.mopmap f m a) :=
  of_fields rfl (fun _ => by rw [decodeFields_mat]; show (_ >>= _) = _; simp)
theorem mopf (clu : Bool) : Statement (.mopf clu) :=
  of_fields rfl (fun _ => by rw [decodeFields_mat]; show (_ >>= _) = _; simp)
theorem macq (s : Shape) (t : BitVec 3) : Statement (.macq s t) :=
  of_fields rfl (fun _ => by rw [decodeFields_mat]; show (_ >>= _) = _; simp)
theorem mrel (t : BitVec 3) : Statement (.mrel t) :=
  of_fields rfl (fun _ => by rw [decodeFields_mat]; show (_ >>= _) = _; simp)
theorem mzero (t : BitVec 3) : Statement (.mzero t) :=
  of_fields rfl (fun _ => by rw [decodeFields_mat]; show (_ >>= _) = _; simp)
theorem mwait (t : BitVec 3) : Statement (.mwait t) :=
  of_fields rfl (fun _ => by rw [decodeFields_mat]; show (_ >>= _) = _; simp)
theorem mrd (k : KCount) (d : BitVec 7) (t : BitVec 3) (b : BitVec 7) : Statement (.mrd k d t b) :=
  of_fields rfl (fun _ => by rw [decodeFields_mat]; show (if fnHi _ then _ else _) = _; simp)
theorem mrdStat (d : BitVec 5) (t : BitVec 3) : Statement (.mrdStat d t) :=
  of_fields rfl (fun _ => by rw [decodeFields_mat]; show (_ >>= _) = _; simp; rfl)
theorem mwr (k : KCount) (d : BitVec 7) (t : BitVec 3) (b : BitVec 7) : Statement (.mwr k d t b) :=
  of_fields rfl (fun _ => by rw [decodeFields_mat]; show (_ >>= _) = _; simp)
theorem mdrain (f : DrainForm) (t : BitVec 3) (b : BitVec 7) : Statement (.mdrain f t b) :=
  of_fields rfl (fun _ => by rw [decodeFields_mat]; show (_ >>= _) = _; simp)
theorem ltNew (d a : BitVec 7) : Statement (.ltNew d a) :=
  of_fields rfl (fun _ => by rw [decodeFields_mat]; show (_ >>= _) = _; simp)
theorem ltFork (d a : BitVec 7) : Statement (.ltFork d a) :=
  of_fields rfl (fun _ => by rw [decodeFields_mat]; show (_ >>= _) = _; simp)
theorem ltAtt (auto : Bool) (a b : BitVec 7) : Statement (.ltAtt auto a b) :=
  of_fields rfl (fun _ => by rw [decodeFields_mat]; show (_ >>= _) = _; simp)
theorem ltDet (a b : BitVec 7) : Statement (.ltDet a b) :=
  of_fields rfl (fun _ => by rw [decodeFields_mat]; show (_ >>= _) = _; simp)
theorem ltFold (a b : BitVec 7) : Statement (.ltFold a b) :=
  of_fields rfl (fun _ => by rw [decodeFields_mat]; show (_ >>= _) = _; simp)
theorem ltQry (f : LtQ) (d a : BitVec 7) : Statement (.ltQry f d a) :=
  of_fields rfl (fun _ => by rw [decodeFields_mat]; show (_ >>= _) = _; simp)
theorem bra (c : BraCond) (p : BitVec 3) (i : BitVec 8) : Statement (.bra c p i) :=
  of_fields rfl (fun _ => by rw [decodeFields_ctl]; show (_ >>= _) = _; simp)
theorem brau (z : Bool) (a : BitVec 7) (i : BitVec 8) : Statement (.brau z a i) :=
  of_fields rfl (fun _ => by rw [decodeFields_ctl]; show (_ >>= _) = _; simp)
theorem bras (a : BitVec 7) : Statement (.bras a) :=
  of_fields rfl (fun _ => by rw [decodeFields_ctl]; show (_ >>= _) = _; simp)
theorem brx (a : BitVec 7) : Statement (.brx a) :=
  of_fields rfl (fun _ => by rw [decodeFields_ctl]; show (_ >>= _) = _; simp)
theorem call (l : BitVec 7) (i : BitVec 8) : Statement (.call l i) :=
  of_fields rfl (fun _ => by rw [decodeFields_ctl]; show (_ >>= _) = _; simp; rfl)
theorem callFar (l a : BitVec 7) : Statement (.callFar l a) :=
  of_fields rfl (fun _ => by rw [decodeFields_ctl]; show (_ >>= _) = _; simp; rfl)
theorem ret (a : BitVec 7) : Statement (.ret a) :=
  of_fields rfl (fun _ => by rw [decodeFields_ctl]; show (_ >>= _) = _; simp)
theorem jset (j : BitVec 4) (a : BitVec 7) : Statement (.jset j a) :=
  of_fields rfl (fun _ => by rw [decodeFields_ctl]; show (_ >>= _) = _; simp)
theorem join (j : BitVec 4) : Statement (.join j) :=
  of_fields rfl (fun _ => by rw [decodeFields_ctl]; show (_ >>= _) = _; simp)
theorem leave (j : BitVec 4) : Statement (.leave j) :=
  of_fields rfl (fun _ => by rw [decodeFields_ctl]; show (_ >>= _) = _; simp)
theorem wait (j : BitVec 4) : Statement (.wait j) :=
  of_fields rfl (fun _ => by rw [decodeFields_ctl]; show (_ >>= _) = _; simp; rfl)
theorem waitT (j : BitVec 4) (a : BitVec 7) (p : BitVec 3) : Statement (.waitT j a p) :=
  of_fields rfl (fun _ => by rw [decodeFields_ctl]; show (_ >>= _) = _; simp; rfl)
theorem waitTimeout (blk grp : Nat) (j : BitVec 4) : Statement (.waitTimeout blk grp j) := of_none rfl
theorem bar (role : Bool) (i : BitVec 4) : Statement (.bar role i) :=
  of_fields rfl (fun _ => by rw [decodeFields_ctl]; show (_ >>= _) = _; simp)
theorem barArr (role : Bool) (i : BitVec 4) : Statement (.barArr role i) :=
  of_fields rfl (fun _ => by rw [decodeFields_ctl]; show (_ >>= _) = _; simp)
theorem barWait (role : Bool) (i : BitVec 4) : Statement (.barWait role i) :=
  of_fields rfl (fun _ => by rw [decodeFields_ctl]; show (_ >>= _) = _; simp)
theorem exit : Statement .exit :=
  of_fields rfl (fun _ => by rw [decodeFields_ctl]; show (_ >>= _) = _; simp)
theorem adv (a b : BitVec 7) : Statement (.adv a b) :=
  of_fields rfl (fun _ => by rw [decodeFields_ctl]; show (_ >>= _) = _; simp)
theorem yield : Statement .yield :=
  of_fields rfl (fun _ => by rw [decodeFields_ctl]; show (_ >>= _) = _; simp)
theorem nop : Statement .nop :=
  of_fields rfl (fun _ => by rw [decodeFields_ctl]; show (_ >>= _) = _; simp)
theorem trap (i : BitVec 8) : Statement (.trap i) :=
  of_fields rfl (fun _ => by rw [decodeFields_ctl]; show (_ >>= _) = _; simp)
theorem bkpt (i : BitVec 8) : Statement (.bkpt i) :=
  of_fields rfl (fun _ => by rw [decodeFields_ctl]; show (_ >>= _) = _; simp)
theorem sysrd (d : BitVec 4) (s : BitVec 8) : Statement (.sysrd d s) :=
  of_fields rfl (fun _ => by rw [decodeFields_sys]; show (_ >>= _) = _; simp)
theorem syswr (a : SysSrc) (s : BitVec 8) : Statement (.syswr a s) :=
  of_fields rfl (fun _ => by rw [decodeFields_sys]; show (_ >>= _) = _; simp)
theorem rthFix : Statement .rthFix :=
  of_fields rfl (fun _ => by rw [decodeFields_sys]; show (_ >>= _) = _; simp)
theorem rthSkip : Statement .rthSkip :=
  of_fields rfl (fun _ => by rw [decodeFields_sys]; show (_ >>= _) = _; simp)
theorem rthRetry : Statement .rthRetry :=
  of_fields rfl (fun _ => by rw [decodeFields_sys]; show (_ >>= _) = _; simp)
theorem rthKill : Statement .rthKill :=
  of_fields rfl (fun _ => by rw [decodeFields_sys]; show (_ >>= _) = _; simp)
theorem tlbinv (a : BitVec 7) : Statement (.tlbinv a) :=
  of_fields rfl (fun _ => by rw [decodeFields_sys]; show (_ >>= _) = _; simp)
theorem scrub (a : BitVec 7) : Statement (.scrub a) :=
  of_fields rfl (fun _ => by rw [decodeFields_sys]; show (_ >>= _) = _; simp)
theorem ctxsv (a : BitVec 7) : Statement (.ctxsv a) :=
  of_fields rfl (fun _ => by rw [decodeFields_sys]; show (_ >>= _) = _; simp)
theorem ctxrs (a : BitVec 7) : Statement (.ctxrs a) :=
  of_fields rfl (fun _ => by rw [decodeFields_sys]; show (_ >>= _) = _; simp)
theorem queueReadEntry (q : BitVec 8) : Statement (.queueReadEntry q) := of_none rfl
theorem launchStart (l : Nat) : Statement (.launchStart l) := of_none rfl
theorem distributeBlocks (l : Nat) (child : Nat) : Statement (.distributeBlocks l child) := of_none rfl
theorem blockPlace (l : Nat) (cluster : Nat) (cores : List Nat) : Statement (.blockPlace l cluster cores) := of_none rfl
theorem drainMarkTimeout (core : Nat) : Statement (.drainMarkTimeout core) := of_none rfl
theorem stagingReadComplete (blk : Nat) : Statement (.stagingReadComplete blk) := of_none rfl
theorem blockStart (blk : Nat) : Statement (.blockStart blk) := of_none rfl
theorem blockCapture (blk : Nat) : Statement (.blockCapture blk) := of_none rfl
theorem commitPoint (blk : Nat) : Statement (.commitPoint blk) := of_none rfl
theorem commitApplyDone (blk : Nat) : Statement (.commitApplyDone blk) := of_none rfl
theorem advSuccessorStart (blk : Nat) : Statement (.advSuccessorStart blk) := of_none rfl
theorem blockRestore (blk : Nat) (cores : List Nat) : Statement (.blockRestore blk cores) := of_none rfl
theorem issueSlotArbitration (core slot blk grp : Nat) : Statement (.issueSlotArbitration core slot blk grp) := of_none rfl
theorem scratchLoadComplete (op reg : Nat) : Statement (.scratchLoadComplete op reg) := of_none rfl
theorem scratchStorePerformed (op : Nat) : Statement (.scratchStorePerformed op) := of_none rfl
theorem scratchAtomicPerformed (op : Nat) : Statement (.scratchAtomicPerformed op) := of_none rfl
theorem l1SectorFill (core miss : Nat) : Statement (.l1SectorFill core miss) := of_none rfl
theorem fsqrtComplete (op : Nat) : Statement (.fsqrtComplete op) := of_none rfl
theorem fatomPerformed (op lane : Nat) : Statement (.fatomPerformed op lane) := of_none rfl
theorem copyCommandStart (blk : Nat) (c : BitVec 3) : Statement (.copyCommandStart blk c) := of_none rfl
theorem copyPieceDelivered (blk : Nat) (c : BitVec 3) (piece : Nat) : Statement (.copyPieceDelivered blk c piece) := of_none rfl
theorem passChoose (clu : Nat) : Statement (.passChoose clu) := of_none rfl
theorem permitGrant (die : Nat) : Statement (.permitGrant die) := of_none rfl
theorem modeSwitchDone (clu : Nat) : Statement (.modeSwitchDone clu) := of_none rfl
theorem tileFetchComplete (clu ent : Nat) : Statement (.tileFetchComplete clu ent) := of_none rfl
theorem passComplete (clu ent : Nat) : Statement (.passComplete clu ent) := of_none rfl
theorem tileAcquireServed (clu : Nat) : Statement (.tileAcquireServed clu) := of_none rfl
theorem tileOrderTurn (tile : Nat) : Statement (.tileOrderTurn tile) := of_none rfl
theorem mrdComplete (tile : Nat) : Statement (.mrdComplete tile) := of_none rfl
theorem drainPerformed (op : Nat) : Statement (.drainPerformed op) := of_none rfl
theorem ltOpPerformed (blk grp : Nat) : Statement (.ltOpPerformed blk grp) := of_none rfl
theorem foldSwap (part : BitVec 3) (h : Nat) : Statement (.foldSwap part h) := of_none rfl
theorem foldFail (part : BitVec 3) (h : Nat) : Statement (.foldFail part h) := of_none rfl
theorem trayOpPerformed (blk grp : Nat) : Statement (.trayOpPerformed blk grp) := of_none rfl
theorem trayPushWaiterServed (part : BitVec 3) (handle : Word) : Statement (.trayPushWaiterServed part handle) := of_none rfl
theorem trayPushTimeout (part : BitVec 3) (handle : Word) (blk grp : Nat) : Statement (.trayPushTimeout part handle blk grp) := of_none rfl
theorem trayPopWaiterServed (part : BitVec 3) (handle : Word) : Statement (.trayPopWaiterServed part handle) := of_none rfl
theorem spillWriteComplete (part : BitVec 3) (handle : Word) (j : Nat) : Statement (.spillWriteComplete part handle j) := of_none rfl
theorem nodeBatchTimeout (part : BitVec 3) (handle : Word) : Statement (.nodeBatchTimeout part handle) := of_none rfl
theorem nodeBlockStart (l : Nat) (cluster : Nat) (cores : List Nat) : Statement (.nodeBlockStart l cluster cores) := of_none rfl
theorem mpathComplete (op : Nat) : Statement (.mpathComplete op) := of_none rfl
theorem texComplete (op : Nat) : Statement (.texComplete op) := of_none rfl
theorem ssetBuildComplete (part : BitVec 3) (set : BitVec 8) : Statement (.ssetBuildComplete part set) := of_none rfl
theorem triangleDistribute (part : BitVec 3) (set : BitVec 8) : Statement (.triangleDistribute part set) := of_none rfl
theorem primStallTimeout (blk : Nat) : Statement (.primStallTimeout blk) := of_none rfl
theorem coverageTest (part : BitVec 3) (set : BitVec 8) (work : Nat) : Statement (.coverageTest part set work) := of_none rfl
theorem fragmentGroupStart (part : BitVec 3) (set : BitVec 8) (work core slot : Nat) : Statement (.fragmentGroupStart part set work core slot) := of_none rfl
theorem sresApply (op : Nat) : Statement (.sresApply op) := of_none rfl
theorem streamDrainComplete (blk grp : Nat) : Statement (.streamDrainComplete blk grp) := of_none rfl
theorem taskStart (l : Nat) (core slot : Nat) : Statement (.taskStart l core slot) := of_none rfl
theorem preempt (blk : Nat) : Statement (.preempt blk) := of_none rfl
theorem walkComplete (walk : Nat) : Statement (.walkComplete walk) := of_none rfl
theorem parkedRewalkTimer (park : Nat) : Statement (.parkedRewalkTimer park) := of_none rfl
theorem parkedTimeout (park : Nat) : Statement (.parkedTimeout park) := of_none rfl
theorem codeFetchComplete (blk grp : Nat) : Statement (.codeFetchComplete blk grp) := of_none rfl
theorem clearingDone : Statement .clearingDone := of_none rfl
theorem launchComplete (l : Nat) : Statement (.launchComplete l) := of_none rfl
theorem unassignedOp (c : Cls) (w : Word) : Statement (.unassignedOp c w) := of_none rfl
theorem l2SliceAccess (pa : Nat) (kind : BitVec 8) (wr : Option Byte) : Statement (.l2SliceAccess pa kind wr) := of_none rfl
theorem registerWrite (off : Nat) (v : BitVec 64) : Statement (.registerWrite off v) := of_none rfl
theorem qctlWrite (q : BitVec 8) (v : Word) : Statement (.qctlWrite q v) := of_none rfl
theorem qtailWrite (q : BitVec 8) (v : Word) : Statement (.qtailWrite q v) := of_none rfl
theorem softError (blk : Nat) : Statement (.softError blk) := of_none rfl
theorem coreFault (blk : Nat) : Statement (.coreFault blk) := of_none rfl
theorem correctedError (part : BitVec 3) : Statement (.correctedError part) := of_none rfl
theorem walkStart (part : BitVec 3) (clu : Nat) (va : BitVec 52) : Statement (.walkStart part clu va) := of_none rfl
theorem supplyCurrentOver (die : Nat) (hot : Bool) : Statement (.supplyCurrentOver die hot) := of_none rfl
theorem cxlMemRequest (pa : Nat) (wr : Option Byte) : Statement (.cxlMemRequest pa wr) := of_none rfl
theorem hostSnoop (hpa : Nat) : Statement (.hostSnoop hpa) := of_none rfl
theorem peerLinkDown (link : BitVec 4) : Statement (.peerLinkDown link) := of_none rfl
theorem peerLinkUp (link : BitVec 4) : Statement (.peerLinkUp link) := of_none rfl
theorem peerRequest (link : BitVec 4) (pa : Nat) (wr : Option Byte) : Statement (.peerRequest link pa wr) := of_none rfl
theorem loadImage (img : Image) : Statement (.loadImage img) := of_none rfl
theorem setPart (cfg : List PartConfig) : Statement (.setPart cfg) := of_none rfl
theorem setWindow (w : BitVec 5) (c : WindowCfg) : Statement (.setWindow w c) := of_none rfl
theorem quote (nonce : List Byte) : Statement (.quote nonce) := of_none rfl
theorem lifecycle (next : LifeCycle) (signed : Bool) : Statement (.lifecycle next signed) := of_none rfl
theorem resumeFault (part : BitVec 3) : Statement (.resumeFault part) := of_none rfl
theorem linkState (r : LinkReport) : Statement (.linkState r) := of_none rfl
theorem fqresWrite (part : BitVec 3) (v : Word) : Statement (.fqresWrite part v) := of_none rfl
theorem fqrdWrite (part : BitVec 3) (v : Word) : Statement (.fqrdWrite part v) := of_none rfl
theorem fqbaseWrite (part : BitVec 3) (v : BitVec 64) : Statement (.fqbaseWrite part v) := of_none rfl
theorem fqsizeWrite (part : BitVec 3) (v : Word) : Statement (.fqsizeWrite part v) := of_none rfl
theorem powerLoss (loading : Bool) : Statement (.powerLoss loading) := of_none rfl
theorem reset : Statement .reset := of_none rfl
theorem l2FillComplete (pa : Nat) (kind : BitVec 8) : Statement (.l2FillComplete pa kind) := of_none rfl
theorem cxlLinkDown : Statement .cxlLinkDown := of_none rfl
theorem cxlLinkUp : Statement .cxlLinkUp := of_none rfl
theorem cxlCompletionTimeout : Statement .cxlCompletionTimeout := of_none rfl

end Sys2Proof.Laws.Reads
end

