-- ==== Sys2Proof/Tests/Slice0.lean ====
section
/-! SUPPORT. Tests: ill-formed terms refused, one word per constructor decoded, small steps from the spec's own worked examples,
and a witness for the hypotheses of every statement that has some. -/

namespace Sys2Proof.Tests
open Sys2Proof Sys2Proof.Machine

/-! ### Well-formedness: an ill-formed term for each check, refused (R97, R99) -/

theorem test_ill_formed_vec :
    [Instr.add64 false 5 (.v 2) (.v 4), .add64 false 6 (.v 3) (.v 4), .add64 false 6 (.s 2) (.v 4), .add64 false 6 (.v 2) (.s 5),
     .add64Imm false 5 (.v 2) 0, .add64Imm true 6 (.s 2) 0, .icmp .set .eq false 7 (.v 0) (.v 0), .icmpImm .set .eq false 7 (.v 0) 0,
     .vtop 7 (.v 0), .fcmp .set .eq 7 (.v 0) (.v 0), .voteAnyAll false 7 0 0, .voteEq 7 0 0].all (fun i => !WellFormed i) = true := by
  decide

theorem test_ill_formed_uni :
    [Instr.sadd 160 .zero .zero, .sadd 0 (.reg 160) .zero, .sadd 0 .zero (.reg 0xF0), .ssub 160 .zero .zero, .smul .low 160 .zero .zero,
     .smad 160 .zero .zero, .sand 160 .zero .zero, .sor 160 .zero .zero, .sxor 160 .zero .zero, .sshl 160 .zero .zero,
     .sshr false 160 .zero .zero, .sminmax false false 160 .zero .zero, .scmp .eq 160 .zero .zero, .scmpn .lt 160 .zero .zero,
     .saddi 160 .zero 0, .smovi false 160 0, .smovb3 .b1 160 0, .smov 160 .zero, .v2s false 160 0, .v2sLane 160 0 0, .srd 160 0,
     .srd 0 0x16, .sctl (.reg 160), .sld .core 160 .zero 0, .sst .core (.reg 160) .zero 0, .sflg (.reg 160), .jget 1 0, .jget 0 12,
     .jget 160 0].all (fun i => !WellFormed i) = true := by decide

theorem test_ill_formed_mem :
    [Instr.ld .core .dw 1 (.v 0) 0, .ld .core .qw 2 (.v 0) 0, .st .core .dw 1 (.v 0) 0, .st .core .qw 2 (.v 0) 0, .cas .core 1 (.v 0) 0,
     .copy 0 2, .copy2 0 4, .fatom .addI 0 1 0, .fatom .cas 0 0 1, .mpath 1 0 0, .mpath 0 2 0, .tex false .point 0 2 0, .texg 0 0 2 0,
     .ssetNew 8 0].all (fun i => !WellFormed i) = true := by decide

theorem test_ill_formed_rest :
    [Instr.mdecl 0 4 0, .mopmap .core 0 2, .mdrain .stF32 0 2, .ltNew 0 8, .ltAtt false 0 4, .ltFold 0 2, .bra .always 1 0, .jset 12 0,
     .join 12, .leave 12, .wait 12, .waitT 12 0 0, .waitT 0 0 7, .adv 1 0, .adv 0 127, .sysrd 0 0x09, .syswr (.h 0) 0x21, .tlbinv 2,
     .scrub 2, .ctxsv 1, .ctxrs 1].all (fun i => !WellFormed i) = true := by decide
/-! ### Decoding, one word per constructor (R96–R109) -/

/-- A word of every class but UNI: OP in bits 31:26, FN 25:23, D 22:16, A 15:8, B 7:0 (Table 4-4). -/
def bits (op : BitVec 6) (fn : BitVec 3) (d : BitVec 7) (a b : BitVec 8) : Word := op ++ fn ++ d ++ a ++ b

/-- A UNI word: OP 31:26, FN 25:24, D 23:16, A 15:8, B 7:0 (Table 4-4). -/
def ubits (op : BitVec 6) (fn : BitVec 2) (d a b : BitVec 8) : Word := op ++ fn ++ d ++ a ++ b

/-- The word is this instruction in this class. -/
abbrev Reads (c : Cls) (w : Word) (i : Instr) : Prop := decode c w = .ok i

-- Table 4-6: v5 is byte 5, s5 is byte 0x85
theorem test_decode_vec_add :
    Reads .vec (bits 0x00 0b001 7 3 0x84) (.iadd .sat 7 (.v 3) (.s 4)) ∧
    Reads .vec (bits 0x00 0b110 7 3 0x84) (.iaddImm .satn 7 (.v 3) 0x84) ∧
    Reads .vec (bits 0x01 0b010 7 0x83 4) (.isub .satn 7 (.s 3) (.v 4)) ∧
    Reads .vec (bits 0x01 0b100 7 0x83 4) (.isubImm .wrap 7 (.s 3) 4) ∧
    Reads .vec (bits 0x02 0b001 9 3 4) (.imul .hi 9 (.v 3) (.v 4)) ∧
    Reads .vec (bits 0x02 0b110 9 3 4) (.imulImm .hin 9 (.v 3) 4) ∧
    Reads .vec (bits 0x03 0b001 9 3 4) (.imad true 9 (.v 3) (.v 4)) ∧
    Reads .vec (bits 0x03 0b100 9 3 0xFF) (.imadImm false 9 (.v 3) 0xFF) ∧
    Reads .vec (bits 0x04 0b001 9 3 4) (.imin true 9 (.v 3) (.v 4)) ∧
    Reads .vec (bits 0x04 0b100 9 3 4) (.iminImm false 9 (.v 3) 4) ∧
    Reads .vec (bits 0x05 0b000 9 3 4) (.imax false 9 (.v 3) (.v 4)) ∧
    Reads .vec (bits 0x05 0b101 9 3 4) (.imaxImm true 9 (.v 3) 4) ∧
    Reads .vec (bits 0x06 0b001 9 0xFF 0) (.iabs true 9 (.s 127)) ∧
    Reads .vec (bits 0x07 0b000 127 0x7F 0) (.ineg false 127 (.v 127)) := by decide

theorem test_decode_vec_bits :
    Reads .vec (bits 0x08 0b000 7 3 0x84) (.and 7 (.v 3) (.s 4)) ∧
    Reads .vec (bits 0x08 0b100 7 3 0x84) (.andImm 7 (.v 3) 0x84) ∧
    Reads .vec (bits 0x09 0b000 7 3 0x84) (.or 7 (.v 3) (.s 4)) ∧
    Reads .vec (bits 0x09 0b100 7 3 0x84) (.orImm 7 (.v 3) 0x84) ∧
    Reads .vec (bits 0x0A 0b000 7 3 0x84) (.xor 7 (.v 3) (.s 4)) ∧
    Reads .vec (bits 0x0A 0b100 7 3 0x84) (.xorImm 7 (.v 3) 0x84) ∧
    Reads .vec (bits 0x0B 0b000 7 3 0x84) (.andn 7 (.v 3) (.s 4)) ∧
    Reads .vec (bits 0x0B 0b100 7 3 0x84) (.andnImm 7 (.v 3) 0x84) ∧
    Reads .vec (bits 0x0C 0b000 7 3 0x84) (.shl 7 (.v 3) (.s 4)) ∧
    Reads .vec (bits 0x0C 0b100 7 3 31) (.shlImm 7 (.v 3) 31) ∧
    Reads .vec (bits 0x0D 0b001 7 3 0x84) (.shr true 7 (.v 3) (.s 4)) ∧
    Reads .vec (bits 0x0D 0b100 7 3 31) (.shrImm false 7 (.v 3) 31) ∧
    Reads .vec (bits 0x0E 0b000 7 3 0x84) (.rotl 7 (.v 3) (.s 4)) ∧
    Reads .vec (bits 0x0E 0b100 7 3 31) (.rotlImm 7 (.v 3) 31) := by decide

theorem test_decode_vec_fields :
    Reads .vec (bits 0x0F 0b001 7 3 0x84) (.bfx true 7 (.v 3) (.s 4)) ∧
    Reads .vec (bits 0x10 0b000 7 3 0x84) (.bfi 7 (.v 3) (.s 4)) ∧
    Reads .vec (bits 0x11 0b000 7 3 0) (.popc 7 (.v 3)) ∧
    Reads .vec (bits 0x12 0b000 7 3 0) (.clz 7 (.v 3)) ∧
    Reads .vec (bits 0x13 0b000 7 3 0) (.brev 7 (.v 3)) ∧
    Reads .vec (bits 0x14 0b011 7 3 0x84) (.lea 3 7 (.v 3) (.s 4)) ∧
    Reads .vec (bits 0x14 0b110 7 3 0x84) (.leaImm 2 7 (.v 3) 0x84) ∧
    Reads .vec (bits 0x15 0b000 6 2 0x84) (.add64 false 6 (.v 2) (.s 4)) ∧
    Reads .vec (bits 0x15 0b001 6 2 0x85) (.add64 true 6 (.v 2) (.s 5)) ∧
    Reads .vec (bits 0x15 0b101 6 2 0x85) (.add64Imm true 6 (.v 2) 0x85) ∧
    Reads .vec (bits 0x16 0b001 0b0101011 2 0x85) (.icmp .and .lt true 3 (.v 2) (.s 5)) ∧
    Reads .vec (bits 0x16 0b110 0b1010110 2 0x85) (.icmpImm .or .ge false 6 (.v 2) 0x85) ∧
    Reads .vec (bits 0x17 0b101 7 3 4) (.sel 5 7 (.v 3) (.v 4)) ∧
    Reads .vec (bits 0x18 0b100 7 0 0x99) (.movi .b3 7 0x99) ∧
    Reads .vec (bits 0x19 0b000 7 0x84 0) (.mov 7 (.s 4)) ∧
    Reads .vec (bits 0x1A 0b110 7 0 0) (.ptov 6 7) ∧
    Reads .vec (bits 0x1B 0b000 2 4 0) (.vtop 2 (.v 4)) := by decide

theorem test_decode_vec_float :
    Reads .vec (bits 0x20 0b001 7 3 4) (.fadd .rz 7 (.v 3) (.v 4)) ∧
    Reads .vec (bits 0x21 0b010 7 3 4) (.fsub .rd 7 (.v 3) (.v 4)) ∧
    Reads .vec (bits 0x22 0b011 7 3 4) (.fmul .ru 7 (.v 3) (.v 4)) ∧
    Reads .vec (bits 0x23 0b000 7 3 4) (.ffma .gcr 7 (.v 3) (.v 4)) ∧
    Reads .vec (bits 0x24 0b000 7 3 0x84) (.ffms .gcr 7 (.v 3) (.s 4)) ∧
    Reads .vec (bits 0x25 0b001 7 3 4) (.fmin true 7 (.v 3) (.v 4)) ∧
    Reads .vec (bits 0x26 0b000 7 3 4) (.fmax false 7 (.v 3) (.v 4)) ∧
    Reads .vec (bits 0x27 0b010 0b0110101 3 4) (.fcmp .or .un 5 (.v 3) (.v 4)) ∧
    Reads .vec (bits 0x28 0b110 7 3 0) (.funa .ceil 7 (.v 3)) ∧
    Reads .vec (bits 0x29 0b000 7 3 0) (.frcp 7 (.v 3)) ∧
    Reads .vec (bits 0x2A 0b000 7 3 0) (.frsq 7 (.v 3)) ∧
    Reads .vec (bits 0x2B 0b001 7 3 0) (.fsqrt .rz 7 (.v 3)) ∧
    Reads .vec (bits 0x2C 0b000 7 3 0) (.fex2 7 (.v 3)) ∧
    Reads .vec (bits 0x2D 0b000 7 3 0) (.flg2 7 (.v 3)) ∧
    Reads .vec (bits 0x2E 0b000 7 3 0) (.fsinr 7 (.v 3)) ∧
    Reads .vec (bits 0x2F 0b000 7 3 0) (.fcosr 7 (.v 3)) := by decide

theorem test_decode_vec_packed :
    Reads .vec (bits 0x30 0b001 7 3 4) (.padd2 .bf16 7 (.v 3) (.v 4)) ∧
    Reads .vec (bits 0x31 0b000 7 3 4) (.pmul2 .f16 7 (.v 3) (.v 4)) ∧
    Reads .vec (bits 0x32 0b001 7 3 4) (.pfma2 .bf16 7 (.v 3) (.v 4)) ∧
    Reads .vec (bits 0x33 0b010 7 3 4) (.pminmax2 true .f16 7 (.v 3) (.v 4)) ∧
    Reads .vec (bits 0x34 0b101 7 3 0x00) (.cvt true .rz 7 (.v 3) .iF32) ∧
    Reads .vec (bits 0x34 0b000 7 3 0x01) (.cvt false .gcr 7 (.v 3) .nF32) ∧
    Reads .vec (bits 0x34 0b000 7 3 0x02) (.cvt false .gcr 7 (.v 3) .f32I) ∧
    Reads .vec (bits 0x34 0b000 7 3 0x03) (.cvt false .gcr 7 (.v 3) .f32N) ∧
    Reads .vec (bits 0x34 0b000 7 3 0x04) (.cvt false .gcr 7 (.v 3) .f16F32) ∧
    Reads .vec (bits 0x34 0b000 7 3 0x05) (.cvt false .gcr 7 (.v 3) .bf16F32) ∧
    Reads .vec (bits 0x34 0b000 7 3 0x06) (.cvt false .gcr 7 (.v 3) .f32F16) ∧
    Reads .vec (bits 0x34 0b000 7 3 0x07) (.cvt false .gcr 7 (.v 3) .f32Bf16) ∧
    Reads .vec (bits 0x34 0b000 7 3 0x08) (.cvt false .gcr 7 (.v 3) .f32F16h) ∧
    Reads .vec (bits 0x34 0b011 7 3 0x09) (.cvt false .ru 7 (.v 3) .f32Bf16h) ∧
    Reads .vec (bits 0x35 0b001 7 3 4) (.cvtp .bf16 7 (.v 3) (.v 4)) ∧
    Reads .vec (bits 0x36 0b011 7 3 0x84) (.qnt .q4grain 7 3 4) ∧
    Reads .vec (bits 0x37 0b010 7 3 0x84) (.dqnt .q4 7 3 4) := by decide

theorem test_decode_vec_lanes :
    Reads .vec (bits 0x38 0b001 7 3 4) (.shfl .xor 7 3 (.v 4)) ∧
    Reads .vec (bits 0x38 0b111 7 3 4) (.shflImm .dn 7 3 4) ∧
    Reads .vec (bits 0x39 0b010 7 8 0x84) (.xgath .k4 7 8 (.s 4)) ∧
    Reads .vec (bits 0x3A 0b100 7 3 0) (.qx .ddy 7 3) ∧
    Reads .vec (bits 0x3B 0b000 3 5 0x84) (.voteAnyAll false 3 5 4) ∧
    Reads .vec (bits 0x3B 0b001 3 7 0x84) (.voteAnyAll true 3 7 4) ∧
    Reads .vec (bits 0x3B 0b010 9 5 0x84) (.voteBallot 9 5 4) ∧
    Reads .vec (bits 0x3B 0b011 3 9 0x84) (.voteEq 3 9 4) ∧
    Reads .vec (bits 0x3C 0b000 7 3 0) (.matchLanes 7 3) ∧
    Reads .vec (bits 0x3C 0b001 7 3 0x84) (.matchCount 7 3 4) ∧
    Reads .vec (bits 0x3D 0b101 100 3 0x84) (.gred .maxN 100 3 4) ∧
    Reads .vec (bits 0x3E 0b101 7 3 0x84) (.scan true .addF32 7 3 4) := by decide

-- Table 4-8
theorem test_decode_uni :
    Reads .uni (ubits 0x00 0 159 2 0xF0) (.sadd 159 (.reg 2) .zero) ∧
    Reads .uni (ubits 0x01 0 1 0xF0 3) (.ssub 1 .zero (.reg 3)) ∧
    Reads .uni (ubits 0x02 2 1 2 3) (.smul .hin 1 (.reg 2) (.reg 3)) ∧
    Reads .uni (ubits 0x03 0 1 2 3) (.smad 1 (.reg 2) (.reg 3)) ∧
    Reads .uni (ubits 0x04 0 1 2 3) (.sand 1 (.reg 2) (.reg 3)) ∧
    Reads .uni (ubits 0x05 0 1 2 3) (.sor 1 (.reg 2) (.reg 3)) ∧
    Reads .uni (ubits 0x06 0 1 2 3) (.sxor 1 (.reg 2) (.reg 3)) ∧
    Reads .uni (ubits 0x07 0 1 2 3) (.sshl 1 (.reg 2) (.reg 3)) ∧
    Reads .uni (ubits 0x08 1 1 2 3) (.sshr true 1 (.reg 2) (.reg 3)) ∧
    Reads .uni (ubits 0x09 1 1 2 3) (.sminmax false true 1 (.reg 2) (.reg 3)) ∧
    Reads .uni (ubits 0x0A 3 1 2 3) (.scmp .le 1 (.reg 2) (.reg 3)) ∧
    Reads .uni (ubits 0x0B 2 1 2 3) (.scmpn .gt 1 (.reg 2) (.reg 3)) := by decide

theorem test_decode_uni_rest :
    Reads .uni (ubits 0x0C 0 1 2 0xFE) (.saddi 1 (.reg 2) 0xFE) ∧
    Reads .uni (ubits 0x0D 1 1 0 0x80) (.smovi true 1 0x80) ∧
    Reads .uni (ubits 0x0E 2 1 0 0x80) (.smovb3 .b3 1 0x80) ∧
    Reads .uni (ubits 0x0F 0 0 2 0) (.smov 0 (.reg 2)) ∧
    Reads .uni (ubits 0x10 0 1 9 0) (.v2s false 1 9) ∧
    Reads .uni (ubits 0x10 1 1 9 0) (.v2s true 1 9) ∧
    Reads .uni (ubits 0x10 2 1 9 31) (.v2sLane 1 9 31) ∧
    Reads .uni (ubits 0x11 0 1 0 0x15) (.srd 1 0x15) ∧
    Reads .uni (ubits 0x12 0 0 9 0) (.sctl (.reg 9)) ∧
    Reads .uni (ubits 0x13 1 1 2 255) (.sld .clu 1 (.reg 2) 255) ∧
    Reads .uni (ubits 0x14 2 0xF0 2 4) (.sst .chip .zero (.reg 2) 4) ∧
    Reads .uni (ubits 0x15 0 0 9 0) (.sflg (.reg 9)) ∧
    Reads .uni (ubits 0x16 0 2 11 0) (.jget 2 11) := by decide

-- Table 4-10
theorem test_decode_mem :
    Reads .mem (bits 0x00 0 5 9 200) (.ld .priv .b 5 (.v 9) 200) ∧
    Reads .mem (bits 0x01 3 5 9 0) (.ld .core .hs 5 (.v 9) 0) ∧
    Reads .mem (bits 0x03 6 8 0x89 1) (.ld .chip .qw 8 (.s 9) 1) ∧
    Reads .mem (bits 0x04 4 5 9 0) (.st .priv .w 5 (.v 9) 0) ∧
    Reads .mem (bits 0x06 5 6 9 0) (.st .clu .dw 6 (.v 9) 0) ∧
    Reads .mem (bits 0x0A 3 5 0x89 2) (.ldln .chip .k8 5 (.s 9) 2) ∧
    Reads .mem (bits 0x0D 7 5 9 2) (.atm .clu .exch 5 (.v 9) 2) ∧
    Reads .mem (bits 0x0C 3 5 9 2) (.atm .core .minN 5 (.v 9) 2) ∧
    Reads .mem (bits 0x0F 2 6 9 2) (.cas .chip 6 (.v 9) 2) ∧
    Reads .mem (bits 0x10 5 3 0 0) (.fence .sys .ar) ∧
    Reads .mem (bits 0x11 1 100 0x89 2) (.pbarInit .clu 100 9 2) ∧
    Reads .mem (bits 0x12 0 0 0x89 2) (.pbarArr .core 9 2) ∧
    Reads .mem (bits 0x13 1 1 0x89 2) (.pbarWait .clu true 9 2) := by decide

-- Table 4-11
theorem test_decode_eng :
    Reads .eng (bits 0x00 7 0 0x84 0) (.copy 7 4) ∧
    Reads .eng (bits 0x01 2 0 0x88 0) (.copy2 2 8) ∧
    Reads .eng (bits 0x02 2 9 0 0) (.wptr 2 9) ∧
    Reads .eng (bits 0x03 2 0 0x85 0) (.cwait 2 5) ∧
    Reads .eng (bits 0x04 2 0 0 0) (.crst 2) ∧
    Reads .eng (bits 0x08 7 9 4 6) (.fatom .cas 9 4 6) ∧
    Reads .eng (bits 0x08 6 9 4 7) (.fatom .exch 9 4 7) ∧
    Reads .eng (bits 0x10 1 9 0x84 6) (.trayPush true 9 4 6) ∧
    Reads .eng (bits 0x11 1 9 0x84 0) (.trayPopb true 9 4) ∧
    Reads .eng (bits 0x11 2 9 0x84 0x85) (.trayPopbSteal false 9 4 5) ∧
    Reads .eng (bits 0x12 0 9 0x84 6) (.trayInsd 9 4 6) ∧
    Reads .eng (bits 0x13 2 9 0x84 0) (.trayQry .state 9 4) ∧
    Reads .eng (bits 0x14 0 0 0x84 0) (.trayClose 4) ∧
    Reads .eng (bits 0x15 0 8 0x84 6) (.mpath 8 4 6) := by decide

theorem test_decode_eng_raster :
    Reads .eng (bits 0x18 7 8 0x84 6) (.tex true .aniso 8 4 6) ∧
    Reads .eng (bits 0x18 1 8 0x84 6) (.tex false .bil 8 4 6) ∧
    Reads .eng (bits 0x19 3 8 0x84 6) (.texg 3 8 4 6) ∧
    Reads .eng (bits 0x20 0 0 0x90 0x86) (.ssetNew 16 6) ∧
    Reads .eng (bits 0x21 0 0 0x84 0) (.ssetBuild 4) ∧
    Reads .eng (bits 0x22 0 0 0x84 0) (.ssetBind 4) ∧
    Reads .eng (bits 0x23 3 9 0x84 0) (.ssetQry .excl 9 4) ∧
    Reads .eng (bits 0x24 0 0 0x84 6) (.prim 4 6) ∧
    Reads .eng (bits 0x25 2 0 5 6) (.sres .atop 5 6) ∧
    Reads .eng (bits 0x26 0 0 0x84 0) (.rclear 4) ∧
    Reads .eng (bits 0x27 0 0 0x84 0) (.rdecomp 4) ∧
    Reads .eng (bits 0x30 0 0 0x84 0) (.permit 4) := by decide

-- Table 4-12
theorem test_decode_mat :
    Reads .mat (bits 0x00 0 7 0x88 0x84) (.mdecl 7 8 4) ∧
    Reads .mat (bits 0x01 1 6 0 0) (.mma .sp 6) ∧
    Reads .mat (bits 0x02 2 5 0x84 0) (.mopmap .hnd 5 4) ∧
    Reads .mat (bits 0x03 1 0 0 0) (.mopf true) ∧
    Reads .mat (bits 0x04 1 3 0 0) (.macq .s128 3) ∧
    Reads .mat (bits 0x05 0 3 0 0) (.mrel 3) ∧
    Reads .mat (bits 0x06 0 3 0 0) (.mzero 3) ∧
    Reads .mat (bits 0x07 0 3 0 0) (.mwait 3) ∧
    Reads .mat (bits 0x08 1 9 3 0x84) (.mrd .k2 9 3 4) ∧
    Reads .mat (bits 0x08 4 124 7 0) (.mrdStat 31 7) ∧
    Reads .mat (bits 0x09 3 9 3 0x84) (.mwr .k8 9 3 4) ∧
    Reads .mat (bits 0x0A 2 0 3 0x84) (.mdrain .stQ8 3 4) ∧
    Reads .mat (bits 0x10 0 100 0x90 0) (.ltNew 100 16) ∧
    Reads .mat (bits 0x11 0 100 0x85 0) (.ltFork 100 5) ∧
    Reads .mat (bits 0x12 1 0 0x85 0x88) (.ltAtt true 5 8) ∧
    Reads .mat (bits 0x13 0 0 0x85 0x86) (.ltDet 5 6) ∧
    Reads .mat (bits 0x14 0 0 0x85 0x88) (.ltFold 5 8) ∧
    Reads .mat (bits 0x15 2 100 0x85 0) (.ltQry .fold 100 5) := by decide

-- Table 4-13
theorem test_decode_ctl :
    Reads .ctl (bits 0x00 2 6 0 0x80) (.bra .ifN 6 0x80) ∧
    Reads .ctl (bits 0x00 0 0 0 0x7F) (.bra .always 0 0x7F) ∧
    Reads .ctl (bits 0x01 1 0 0x85 0x80) (.brau true 5 0x80) ∧
    Reads .ctl (bits 0x02 0 0 0x85 0) (.bras 5) ∧
    Reads .ctl (bits 0x03 0 0 5 0) (.brx 5) ∧
    Reads .ctl (bits 0x04 0 9 0 0x10) (.call 9 0x10) ∧
    Reads .ctl (bits 0x04 1 9 0x85 0) (.callFar 9 5) ∧
    Reads .ctl (bits 0x05 0 0 9 0) (.ret 9) ∧
    Reads .ctl (bits 0x06 0 11 0x85 0) (.jset 11 5) ∧
    Reads .ctl (bits 0x07 0 11 0 0) (.join 11) ∧
    Reads .ctl (bits 0x08 0 10 0 0) (.leave 10) ∧
    Reads .ctl (bits 0x09 0 10 0 0) (.wait 10) ∧
    Reads .ctl (bits 0x09 1 10 0x85 6) (.waitT 10 5 6) := by decide

theorem test_decode_ctl_rest :
    Reads .ctl (bits 0x0A 1 15 0 0) (.bar true 15) ∧
    Reads .ctl (bits 0x0B 0 15 0 0) (.barArr false 15) ∧
    Reads .ctl (bits 0x0C 1 15 0 0) (.barWait true 15) ∧
    Reads .ctl (bits 0x0D 0 0 0 0) .exit ∧
    Reads .ctl (bits 0x0E 0 0 0x84 0xFE) (.adv 4 126) ∧
    Reads .ctl (bits 0x0F 0 0 0 0) .yield ∧
    Reads .ctl (bits 0x10 0 0 0 0) .nop ∧
    Reads .ctl (bits 0x11 0 0 0 0xAB) (.trap 0xAB) ∧
    Reads .ctl (bits 0x12 0 0 0 0xAB) (.bkpt 0xAB) := by decide

-- Table 4-14
theorem test_decode_sys :
    Reads .sys (bits 0x00 0 15 0 0x20) (.sysrd 15 0x20) ∧
    Reads .sys (bits 0x01 0 0 0x0F 0x14) (.syswr (.h 15) 0x14) ∧
    Reads .sys (bits 0x01 0 0 0x8F 0x14) (.syswr (.s 15) 0x14) ∧
    Reads .sys (bits 0x02 0 0 0 0) .rthFix ∧ Reads .sys (bits 0x02 1 0 0 0) .rthSkip ∧
    Reads .sys (bits 0x02 2 0 0 0) .rthRetry ∧ Reads .sys (bits 0x02 3 0 0 0) .rthKill ∧
    Reads .sys (bits 0x03 0 0 0x84 0) (.tlbinv 4) ∧ Reads .sys (bits 0x04 0 0 0x84 0) (.scrub 4) ∧
    Reads .sys (bits 0x05 0 0 0x84 0) (.ctxsv 4) ∧ Reads .sys (bits 0x06 0 0 0x84 0) (.ctxrs 4) := by decide

/-! ### Words that are no instruction (the Fate columns, R97–R99) -/

/-- The word is no instruction of the class. -/
def refuses (c : Cls) (w : Word) : Bool := match decode c w with
  | .error _ => true
  | .ok _ => false

theorem test_refused_vec :
    [bits 0x03 0b010 9 3 4, bits 0x04 0b010 9 3 4, bits 0x06 0b000 9 3 1, bits 0x08 0b001 7 3 4, bits 0x0D 0b010 7 3 4,
     bits 0x0F 0b100 7 3 4, bits 0x10 0b001 7 3 4, bits 0x11 0b000 7 3 1, bits 0x15 0b000 5 2 4, bits 0x15 0b000 6 3 4,
     bits 0x15 0b000 6 2 5, bits 0x15 0b000 6 0x82 4, bits 0x16 0b011 0 2 3, bits 0x16 0b000 0b1100000 2 3, bits 0x18 0b101 7 0 3,
     bits 0x1C 0 7 0 0, bits 0x20 0b100 7 3 4, bits 0x27 0b000 0b1000000 3 4, bits 0x29 0b001 7 3 0, bits 0x34 0b000 7 3 0x0A,
     bits 0x37 0b001 7 3 0x84, bits 0x36 0b000 7 0x83 0x84, bits 0x39 0b100 7 8 0x84, bits 0x3B 0b000 7 5 0x84,
     bits 0x3C 0b000 7 3 0x84, bits 0x3F 0 0 0 0].all (refuses .vec) = true := by decide

theorem test_refused_others :
    [ubits 0x00 1 1 2 3, ubits 0x00 0 0xA0 2 3, ubits 0x00 0 1 0xA0 3, ubits 0x02 3 1 2 3, ubits 0x10 2 1 9 32, ubits 0x10 0 1 0x80 0,
     ubits 0x11 0 1 0 0x16, ubits 0x12 0 1 9 0, ubits 0x13 3 1 2 3, ubits 0x16 0 3 4 0, ubits 0x16 0 2 12 0,
     ubits 0x17 0 0 0 0].all (refuses .uni) = true ∧
    [bits 0x00 7 5 9 0, bits 0x00 5 5 9 0, bits 0x00 6 6 9 0, bits 0x08 4 5 9 0, bits 0x0B 0 0 0 0, bits 0x0F 0 5 9 0,
     bits 0x0F 3 6 9 0, bits 0x10 6 1 0 0, bits 0x10 0 0 0 0, bits 0x12 0 1 0x89 0, bits 0x13 0 2 0x89 0,
     bits 0x12 0 0 9 0, bits 0x14 0 0 0 0].all (refuses .mem) = true ∧
    [bits 0x00 0 0 0x82 0, bits 0x01 0 0 0x84 0, bits 0x03 0 0 5 0, bits 0x08 0 9 3 6, bits 0x08 7 9 4 7, bits 0x11 4 9 0x84 0,
     bits 0x11 0 9 0x84 0x85, bits 0x13 3 9 0x84 0, bits 0x15 0 9 0x84 6, bits 0x19 4 8 0x84 6, bits 0x23 4 9 0x84 0,
     bits 0x25 5 0 5 6, bits 0x28 0 0 0 0, bits 0x31 0 0 0 0].all (refuses .eng) = true ∧
    [bits 0x00 0 8 0x88 0x84, bits 0x01 3 0 0 0, bits 0x03 2 0 0 0, bits 0x04 0 8 0 0, bits 0x04 3 0 0 0, bits 0x08 5 4 7 0,
     bits 0x08 4 5 7 0, bits 0x09 4 9 3 0x84, bits 0x0A 5 0 3 0x84, bits 0x0B 0 0 0 0, bits 0x12 2 0 0x85 0x88,
     bits 0x15 3 0 0x85 0].all (refuses .mat) = true ∧
    [bits 0x00 0 1 0 0, bits 0x00 3 0 0 0, bits 0x01 0 0 5 0, bits 0x03 0 0 0x85 0, bits 0x06 0 12 0x85 0, bits 0x09 0 0 0x85 0,
     bits 0x09 1 0 0x85 7, bits 0x0A 0 16 0 0, bits 0x0E 0 0 0x85 0x84, bits 0x0E 0 0 0x84 0xFF, bits 0x10 0 0 0 1,
     bits 0x13 0 0 0 0].all (refuses .ctl) = true ∧
    [bits 0x00 0 16 0 0, bits 0x00 0 0 0 0x15, bits 0x01 0 0 0x10 0, bits 0x02 4 0 0 0, bits 0x03 0 0 4 0, bits 0x05 0 0 0x85 0,
     bits 0x07 0 0 0 0].all (refuses .sys) = true := by decide

/-! ### Small states -/

/-- All 32 lanes stand at the last word of a clause of three words, at PC 12. -/
def atWord (c : Cls) (b : Bool) : List Entry := [⟨12, BitVec.allOnes 32, .run, 0, 0, some ⟨0, ⟨3, c, b, 0, 0, 0⟩⟩⟩]

/-- A group of 128 vector registers, at level U, that issues. -/
def grp : Group := { fetchGroup .vec with frontier := atWord .vec false, sel := true }

/-- The group of a handler. -/
def hgrp : Group := { grp with levelH := true, hlen := 32, saved := [⟨8, BitVec.allOnes 32, .run, 3, 0, some ⟨0, ⟨3, .vec, false, 0, 0, 0⟩⟩⟩] }

/-- The group's block, of one core, with 288 blocks of core scratch and of cluster-shared memory. -/
def blk : Block := { fetchBlock .vec 0 with groups := [grp] }

/-- A device with one partition, one launch and that block, whose group issues. -/
def dev : Dev := { Dev.cleared with cur := some (0, 0), parts := [(0, fetchPart)], launches := [fetchLaunch], blocks := [blk] }

/-- The device runs. -/
def runs (d : Dev) : State := { State.reset with plat := { State.reset.plat with phase := .running }, dev := d }

/-- The state with another group, block, or device around it. -/
def withG (g : Group) : State := runs { dev with blocks := [{ blk with groups := [g] }] }
def withK (k : Block) : State := runs { dev with blocks := [k] }

def s0 : State := withG grp
def sH : State := withG hgrp

/-- Words for the lanes of a vector register. -/
def vec (r : Nat) (f : Nat → Word) : FMap Word := (List.range 32).map (fun l => (32 * r + l, f l))

/-! ### Hypotheses of the statements about words: a state in which the instruction is ready to issue -/

/-- Nothing stops the instruction, by computation. -/
def readyB (i : Instr) (v : View) : Bool :=
  decide (v.g.head.run < 24) && (decide (clsOf i ≠ .sys) || v.g.levelH) && formOk i (accessOf i v) v.g &&
  (!(accessOf i v).uni || v.g.converged) && (accessOf i v).reads.all (fun o => (o.emptyReg v.g).isNone) &&
  (extraOf i v).win.all (fun x => !v.winEmpty x.1 x.2) && (accessOf i v).fixed.all (fun o => (o.emptyReg v.g).isNone) &&
  (accessOf i v).reads.all (fun o => match o.reg v.g with
    | some r => (List.range 32).all (fun l => !readLanes i v l || decide (v.g.poison r l = 0))
    | none => true) &&
  decide ((extraOf i v).poison = 0)

theorem readyB_ready {i : Instr} {v : View} (h : readyB i v = true) : Ready i v := by
  simp only [readyB, Bool.and_eq_true, decide_eq_true_eq, Bool.or_eq_true, List.all_eq_true, Bool.not_eq_true',
    Option.isNone_iff_eq_none] at h
  obtain ⟨⟨⟨⟨⟨⟨⟨⟨h1, h2⟩, h3⟩, h4⟩, h5⟩, h6⟩, h7⟩, h8⟩, h9⟩ := h
  refine ⟨h1, fun hs => h2.resolve_left (fun hn => hn hs), h3, fun hu => h4.resolve_left (by simp [hu]), h5, h6, h7, ?_, h9⟩
  intro o ho r hr l hl hx
  have := h8 o ho
  rw [hr] at this
  simpa [hx] using (List.all_eq_true.mp this) l (List.mem_range.mpr hl)

/-- The state has an issuing view in which the instruction is ready and the condition holds: what a statement `Answers`, `AnswersIf`
or `WritesF` asks for. -/
abbrev Met (i : Instr) (s : State) (c : View → Prop) : Prop := ∃ v, s.dev.issuer = some v ∧ Ready i v ∧ c v

def metB (i : Instr) (s : State) (c : View → Bool) : Bool := match s.dev.issuer with
  | some v => readyB i v && c v
  | none => false

theorem met {i : Instr} {s : State} {c : View → Prop} [DecidablePred c] (h : metB i s (fun v => decide (c v)) = true) : Met i s c := by
  unfold metB at h
  split at h
  · rename_i v hv
    simp only [Bool.and_eq_true, decide_eq_true_eq] at h
    exact ⟨v, hv, readyB_ready h.1, h.2⟩
  · exact nomatch h

/-- Every instruction of a list is ready in the state. -/
theorem mets {l : List Instr} {s : State} (h : l.all (fun i => metB i s (fun _ => true)) = true) :
    ∀ i ∈ l, ∃ v, s.dev.issuer = some v ∧ Ready i v := by
  intro i hi
  have := List.all_eq_true.mp h i hi
  unfold metB at this
  split at this
  · rename_i v hv
    exact ⟨v, hv, readyB_ready (by simpa using this)⟩
  · exact nomatch this

/-- The group issues and has run for less than 24 instructions. -/
abbrev Issues (s : State) (c : View → Prop) : Prop := ∃ v, s.dev.issuer = some v ∧ v.g.head.run < 24 ∧ c v

theorem issues {s : State} {c : View → Prop} [DecidablePred c]
    (h : (match s.dev.issuer with
      | some v => decide (v.g.head.run < 24) && decide (c v)
      | none => false) = true) : Issues s c := by
  split at h
  · rename_i v hv
    simp only [Bool.and_eq_true, decide_eq_true_eq] at h
    exact ⟨v, hv, h.1, h.2⟩
  · exact nomatch h

theorem wit_IntegerOperations :
    ∀ i ∈ [Instr.iadd .wrap 127 (.v 0) (.s 127), .iaddImm .sat 0 (.s 0) 0x80, .isub .satn 1 (.v 2) (.v 3), .isubImm .wrap 1 (.v 2) 0xFF,
      .imul .hi 1 (.v 2) (.v 3), .imulImm .hin 1 (.v 2) 3, .imad false 1 (.v 2) (.v 3), .imadImm false 1 (.v 2) 3, .imad true 1 (.v 2) (.v 3),
      .imadImm true 1 (.v 2) 3, .imin false 1 (.v 2) (.v 3), .iminImm true 1 (.v 2) 3, .imax true 1 (.v 2) (.v 3), .imaxImm false 1 (.v 2) 3,
      .iabs false 1 (.v 2), .iabs true 1 (.v 2), .ineg false 1 (.v 2), .ineg true 1 (.v 2), .and 1 (.v 2) (.v 3), .andImm 1 (.v 2) 3,
      .or 1 (.v 2) (.v 3), .orImm 1 (.v 2) 3, .xor 1 (.v 2) (.v 3), .xorImm 1 (.v 2) 3, .andn 1 (.v 2) (.v 3), .andnImm 1 (.v 2) 3,
      .shl 1 (.v 2) (.v 3), .shlImm 1 (.v 2) 31, .shr false 1 (.v 2) (.v 3), .shrImm true 1 (.v 2) 0xFF, .rotl 1 (.v 2) (.v 3),
      .rotlImm 1 (.v 2) 32, .popc 1 (.v 2), .clz 1 (.v 2), .brev 1 (.v 2), .lea 3 1 (.v 2) (.v 3), .leaImm 0 1 (.v 2) 3],
      ∃ v, s0.dev.issuer = some v ∧ Ready i v := mets (by decide)

theorem wit_FieldsMovesPairs :
    (∀ i ∈ [Instr.bfx false 1 (.v 2) (.v 3), .bfx true 1 (.v 2) (.v 3), .bfi 1 (.v 2) (.v 3), .mov 1 (.s 2), .movi .zext 1 2, .movi .sext 1 2,
      .movi .b1 1 2, .movi .b2 1 2, .movi .b3 1 2, .sel 7 1 (.v 2) (.v 3), .sel 0 1 (.v 2) (.v 3), .ptov 7 1, .add64 false 2 (.v 4) (.v 6),
      .add64 false 126 (.v 126) (.s 126), .add64 true 2 (.v 4) (.s 7), .add64Imm false 2 (.v 4) 0x80, .add64Imm true 2 (.v 4) 0x80],
      ∃ v, s0.dev.issuer = some v ∧ Ready i v) ∧
    Issues s0 (fun _ => (1#7).toNat % 2 = 1) := ⟨mets (by decide), issues (by decide)⟩

theorem wit_Predicates :
    (∀ i ∈ [Instr.icmp .set .lt false 0 (.v 1) (.v 2), .icmp .and .ge true 6 (.v 1) (.v 2), .icmpImm .or .eq false 6 (.v 1) 2, .vtop 0 (.v 1)],
      ∃ v, s0.dev.issuer = some v ∧ Ready i v) ∧ Issues s0 (fun _ => True) := ⟨mets (by decide), issues (by decide)⟩

theorem wit_ExactArithmetic :
    (f32.read 0x3F800000).isNumber = true ∧ (f32.read 0).isNumber = true ∧ (f32.read 0x80000001).isNumber = true ∧
    (0x3F800000#32).extractLsb' 23 8 ≠ 255#8 ∧ (0x007FFFFF#32).extractLsb' 23 8 ≠ 255#8 ∧ (0x7F7FFFFF#32).extractLsb' 23 8 ≠ 255#8 := by decide

/-- One third of the way, and a tie, in each format and mode; the largest numbers overflow, others do not. -/
theorem wit_RoundingCorrect :
    [f32, f16, bf16].all (fun f => [RM.rne, .rz, .rd, .ru].all (fun m => [(1, 0), (0x1000001, 0), (3, -200), (0x2000001, -24)].all (fun x : Nat × Int =>
      decide (x.1 ≠ 0) && ((f.round m true x.1 x.2).fl.of == false || x.2 == 0)))) = true ∧
    (f32.round .rne false 1 128).fl.of = true ∧ (f16.round .rz true 1 16).fl.of = true ∧
    (f32.round .rne false 0x1000001 0).fl.of = false ∧ (f16.round .rd true 3 (-1)).fl.of = false ∧ (bf16.round .ru false 257 0).fl.of = false := by
  decide

/-- Lanes 0 to 3 hold a signalling NaN, +infinity, -infinity and 1; GCR.IVT as given. -/
def fgrp (ivt : Bool) : Group := { grp with
  v := vec 1 (fun l => if l = 0 then 0x7F800001 else if l = 1 then 0x7F800000 else if l = 2 then 0xFF800000 else 0x3F800000) ++
    vec 2 (fun l => if l = 1 then 0xFF800000 else 0x3F800000), gcr := if ivt then 0x10 else 0 }

/-- Where GCR.IVT = 0, and where it is 1 and nothing is invalid. -/
abbrev Quiet (v : View) (f : Group → Nat → WRes) : Prop := v.g.gcr.getLsbD 4 = false ∨ ∀ l ∈ v.act.lanes, (f v.g l).fl.iv = false
abbrev Invalid (v : View) (f : Group → Nat → WRes) : Prop := v.g.gcr.getLsbD 4 = true ∧ ∃ l ∈ v.act.lanes, (f v.g l).fl.iv = true

theorem wit_FloatArithmetic :
    (∀ i ∈ [Instr.fadd .gcr 3 (.v 1) (.v 2), .fsub .rz 3 (.v 1) (.v 2), .fmul .rd 3 (.v 1) (.v 2), .ffma .ru 3 (.v 1) (.v 2),
      .ffms .gcr 3 (.v 1) (.v 2), .fmin false 3 (.v 1) (.v 2), .fmax true 3 (.v 1) (.v 2), .funa .sat 3 (.v 1), .dqnt .q8 3 1 4],
      ∃ v, (withG (fgrp false)).dev.issuer = some v ∧ Ready i v) ∧
    Met (.fadd .gcr 3 (.v 1) (.v 2)) (withG (fgrp true)) (fun v => Invalid v (fun g l =>
      rounded .gcr g (addExact (rndMode .gcr g.gcr) (fsrc g (.v 1) l) (fsrc g (.v 2) l)))) ∧
    Met (.fmul .rz 3 (.v 1) (.v 2)) (withG (fgrp true)) (fun v => Invalid v (fun g l => rounded .rz g (mulExact (fsrc g (.v 1) l) (fsrc g (.v 2) l)))) ∧
    Met (.fmin false 3 (.v 1) (.v 2)) (withG (fgrp true)) (fun v => Invalid v (fun g l =>
      (f32.finish .rne false (minmaxVal false false (fsrc g (.v 1) l) (fsrc g (.v 2) l))).w)) ∧
    Met (.funa .floor 3 (.v 1)) (withG (fgrp true)) (fun v => Invalid v (fun g l => funaV .floor (ftzOf g) (g.src (.v 1) l))) ∧
    Met (.fadd .ru 3 (.v 5) (.v 5)) (withG (fgrp true)) (fun v => Quiet v (fun g l =>
      rounded .ru g (addExact (rndMode .ru g.gcr) (fsrc g (.v 5) l) (fsrc g (.v 5) l)))) :=
  ⟨mets (by decide), met (by decide), met (by decide), met (by decide), met (by decide), met (by decide)⟩

/-- A NaN, an infinity, one half and a subnormal, in each format; FTZ = 1 makes the subnormal a zero. -/
theorem wit_values :
    (f32.read 0x7F800001).isNan = true ∧ (f32.read 0x3F000000).isNan = false ∧ f32.read 0xFF800000 = .inf true ∧ f32.read 0x7F800000 = .inf false ∧
    ((f32.read 0x80000001).flush f32 true) = .zero true ∧ f32.read 0x3F000000 = .fin false 0x800000 (-24) ∧
    (f16.read 0x7E00).isNan = true ∧ f16.read 0xFC00 = .inf true ∧ (f16.read 1).isNumber = true ∧ (bf16.read 0x0001).isNumber = true ∧
    (f32.read 0x3F000000).isNumber = true := by decide

/-- Scales of DQNT and integers that are none, out of range on both sides, or one that 0.5 rounds to. -/
theorem wit_numbers :
    (0xFF#32).extractLsb' 0 8 = 255#8 ∧ (0x80#32).extractLsb' 0 8 ≠ 255#8 ∧
    (f32.read 0x3F000000).number = 1 / 2 ∧ (f32.read 0xCF000001).number < -2 ^ 31 ∧ (2 : ℚ) ^ 31 < (f32.read 0x4F000001).number ∧
    (bf16.read 0x0001).number ≠ 0 ∧ |(bf16.read 0x0001).number| < (2 : ℚ) ^ (-126 : Int) ∧ (f32.read 0x40400000).number = ((3 : Int) : ℚ) := by
  have h1 : f32.read 0x3F000000 = .fin false 0x800000 (-24) := by decide
  have h2 : f32.read 0xCF000001 = .fin true 0x800001 8 := by decide
  have h3 : f32.read 0x4F000001 = .fin false 0x800001 8 := by decide
  have h4 : bf16.read 0x0001 = .fin false 1 (-133) := by decide
  have h5 : f32.read 0x40400000 = .fin false 0xC00000 (-22) := by decide
  refine ⟨by decide, by decide, ?_⟩
  rw [h1, h2, h3, h4, h5]
  norm_num [FVal.number]

/-- The magnitudes at which DQNT overflows, and under FTZ gives a zero. -/
theorem wit_scales : (2 : ℚ) ^ (128 : Int) ≤ |((127 : Int) : ℚ) * (2 : ℚ) ^ ((254 : Int) - 127)| ∧ ((1 : Int) : ℚ) * (2 : ℚ) ^ ((0 : Int) - 127) ≠ 0 ∧
    |((1 : Int) : ℚ) * (2 : ℚ) ^ ((0 : Int) - 127)| < (2 : ℚ) ^ (-126 : Int) ∧ |((1 : Int) : ℚ) * (2 : ℚ) ^ ((127 : Int) - 127)| < (2 : ℚ) ^ (128 : Int) := by
  norm_num

theorem wit_PackedAndConversions :
    (∀ i ∈ [Instr.padd2 .f16 3 (.v 1) (.v 2), .pmul2 .bf16 3 (.v 1) (.v 2), .pfma2 .f16 3 (.v 1) (.v 2), .pminmax2 true .bf16 3 (.v 1) (.v 2),
      .cvt true .gcr 3 (.v 1) .f32I, .cvt false .rz 3 (.v 1) .f32N, .cvt false .rz 3 (.v 1) .iF32, .cvt true .ru 3 (.v 1) .f32Bf16h,
      .cvtp .f16 3 (.v 1) (.v 2)], ∃ v, (withG (fgrp false)).dev.issuer = some v ∧ Ready i v) ∧
    Met (.cvt false .rz 3 (.v 1) .iF32) (withG (fgrp true)) (fun v => Invalid v (fun g l =>
      cvtV false (rndMode .rz g.gcr) (ftzOf g) .iF32 (g.src (.v 1) l))) ∧
    Met (.cvtp .f16 3 (.v 1) (.v 2)) (withG (fgrp true)) (fun v => Invalid v (fun g l =>
      halves (satHalf (HFmt.fmt .f16) .rne (fsrc g (.v 1) l)) (satHalf (HFmt.fmt .f16) .rne (fsrc g (.v 2) l)))) ∧
    Met (.padd2 .f16 3 (.v 6) (.v 6)) (withG { fgrp true with v := vec 6 (fun _ => 0x7C017C00) }) (fun v => Invalid v (fun g l =>
      packed .f16 (fun h => addExact .rne (hsrc .f16 g (.v 6) l h) (hsrc .f16 g (.v 6) l h)))) :=
  ⟨mets (by decide), met (by decide), met (by decide), met (by decide)⟩

theorem wit_Approximations :
    (∀ i ∈ [Instr.frcp 3 (.v 1), .frsq 3 (.v 1), .fex2 3 (.v 1), .flg2 3 (.v 1), .fsinr 3 (.v 1), .fcosr 3 (.v 1)],
      ∃ v, (withG (fgrp false)).dev.issuer = some v ∧ Ready i v) ∧
    Met (.frcp 3 (.v 1)) (withG (fgrp true)) (fun v => Invalid v (fun g l => frcpV (ftzOf g) (g.src (.v 1) l))) ∧
    Met (.fsinr 3 (.v 1)) (withG (fgrp true)) (fun v => Invalid v (fun g l => ftrigV false (ftzOf g) (g.src (.v 1) l))) ∧
    (f32.read 0xBF800000).isNumber = true ∧ (f32.read 0x80000001).isNumber = true ∧ (0xBF800000#32).extractLsb' 23 8 ≠ 0#8 :=
  ⟨mets (by decide), met (by decide), met (by decide), by decide⟩

theorem wit_negative_number : (f32.read 0xBF800000).number < 0 ∧ (f32.read 0x3F800000).number ≠ 0 := by
  have h1 : f32.read 0xBF800000 = .fin true 0x800000 (-23) := by decide
  have h2 : f32.read 0x3F800000 = .fin false 0x800000 (-23) := by decide
  rw [h1, h2]; norm_num [FVal.number]

theorem wit_FloatCompare :
    Met (.fcmp .set .lt 0 (.v 1) (.v 2)) (withG (fgrp false)) (fun v => v.g.gcr.getLsbD 4 = false) ∧
    Met (.fcmp .or .un 6 (.v 2) (.v 2)) (withG (fgrp true)) (fun v =>
      (v.act.lanes.any (fun l => (fsrc v.g (.v 2) l).isSnan || (fsrc v.g (.v 2) l).isSnan)) = false) ∧
    Met (.fcmp .and .ge 3 (.v 1) (.v 2)) (withG (fgrp true)) (fun v => v.g.gcr.getLsbD 4 = true ∧
      (v.act.lanes.any (fun l => (fsrc v.g (.v 1) l).isSnan || (fsrc v.g (.v 2) l).isSnan)) = true) :=
  ⟨met (by decide), met (by decide), met (by decide)⟩

/-- An FSQRT for v3 is on its way. -/
def sqrtState : State := runs { dev with
  nextId := 8, cmds := [⟨7, 0, 0, 1, [.v 3], .fsqrt [(0, 0x40000000)] Flags.none⟩], blocks := [{ blk with groups := [{ grp with flights := [⟨.v 3, 7⟩] }] }] }

theorem wit_SquareRoot :
    Met (.fsqrt .gcr 3 (.v 1)) (withG (fgrp false)) (fun v => v.g.gcr.getLsbD 4 = false) ∧
    Met (.fsqrt .ru 3 (.v 5)) (withG (fgrp true)) (fun v => ∀ l ∈ v.act.lanes, (sqrtExact (fsrc v.g (.v 5) l)).iv = false) ∧
    sqrtState.plat.phase = .running ∧
    sqrtState.dev.cmds.find? (fun c => decide (c.op = 7)) = some ⟨7, 0, 0, 1, [.v 3], .fsqrt [(0, 0x40000000)] Flags.none⟩ ∧
    sqrtState.dev.group 0 0 = some { grp with flights := [⟨.v 3, 7⟩] } ∧
    ({ grp with flights := [⟨.v 3, 7⟩] } : Group).flights.find? (fun f => decide (f.reg = .v 3)) = some ⟨.v 3, 7⟩ :=
  ⟨met (by decide), met (by decide), rfl, rfl, rfl, rfl⟩

theorem wit_QuantiseGroup :
    (∀ i ∈ [Instr.qnt .q8 3 1 0, .qnt .q8grain 3 1 127, .qnt .q4 3 1 4, .qnt .q4grain 3 1 4],
      ∃ v, (withG (fgrp false)).dev.issuer = some v ∧ Ready i v) ∧
    Met (.qnt .q8grain 3 2 4) (withG { fgrp true with v := vec 2 (fun l => BitVec.ofNat 32 (0x3F800000 + l)), gcr := 0x3F0 }) (fun v => v.g.gcr.getLsbD 4 = true) ∧
    Met (.qnt .q8 3 1 4) (withG (fgrp true)) (fun v => v.g.gcr.getLsbD 4 = true ∧
      ∃ l < 32, (v.g.live.getLsbD l && !(f32.read (v.g.src (.v 1) l).toNat).isNumber) = true) ∧
    (quantise 6 127 (.grain 31) ((List.range 32).map (fun l => f32.read (0x3F800000 + l)))).iv = false :=
  ⟨mets (by decide), met (by decide), met (by decide), by decide⟩

theorem wit_LaneExchange :
    ∀ i ∈ [Instr.shfl .idx 3 1 (.v 2), .shfl .up 3 1 (.s 2), .shflImm .xor 3 1 31, .shflImm .dn 3 1 0xFF, .xgath .k1 3 127 (.v 2), .xgath .k8 3 8 (.s 2),
      .qx .h 3 1, .qx .v 3 1, .qx .d 3 1, .qx .ddx 3 2, .qx .ddy 3 2, .matchLanes 3 1, .matchCount 3 1 127],
      ∃ v, s0.dev.issuer = some v ∧ Ready i v := mets (by decide)

/-- Lanes 0 and 1 are active, and s4 names lanes 0, 1 and 5; or lane 0 alone. -/
def voteG (m : Word) : Group := { grp with s := [(4, m)], frontier := [⟨12, 3, .run, 0, 0, some ⟨0, ⟨3, .vec, false, 0, 0, 0⟩⟩⟩, ⟨0x100, 0xFFFFFFFC, .run, 0, 0, none⟩] }

theorem selfMember_of {v : View} {b : BitVec 7} (h : v.act &&& ~~~(v.g.uni b.toNat) = 0#32) : selfMember v b := by
  intro l hl
  have := congrArg (fun x => BitVec.getLsbD x l) h
  simp only [BitVec.getLsbD_and, BitVec.getLsbD_not, hl, Bool.true_and, BitVec.getLsbD_zero] at this
  rcases Nat.lt_or_ge l 32 with h32 | h32
  · simpa [h32] using this
  · rw [BitVec.getLsbD_of_ge _ _ h32] at hl; exact nomatch hl

theorem metSelf {i : Instr} {s : State} {b : BitVec 7} (h : metB i s (fun v => decide (v.act &&& ~~~(v.g.uni b.toNat) = 0#32)) = true) :
    Met i s (selfMember · b) := by
  obtain ⟨v, h1, h2, h3⟩ := met (c := fun v => v.act &&& ~~~(v.g.uni b.toNat) = 0#32) h
  exact ⟨v, h1, h2, selfMember_of h3⟩

theorem wit_Votes :
    Met (.voteAnyAll false 6 7 4) (withG (voteG 0x23)) (selfMember · 4) ∧ Met (.voteAnyAll true 0 0 4) (withG (voteG 0xFFFFFFFF)) (selfMember · 4) ∧
    Met (.voteBallot 3 0 4) (withG (voteG 0x23)) (selfMember · 4) ∧ Met (.voteEq 0 1 4) (withG (voteG 3)) (selfMember · 4) ∧
    (∀ i ∈ [Instr.voteAnyAll true 0 0 4, .voteBallot 3 0 4, .voteEq 0 1 4, .scan true .min 3 1 4],
      Met i (withG (voteG 1)) (fun v => v.act &&& ~~~(v.g.uni (4 : BitVec 7).toNat) ≠ 0#32)) ∧
    Met (.gred .addI 3 1 4) s0 (fun v => v.act &&& ~~~(v.g.uni (4 : BitVec 7).toNat) ≠ 0#32) :=
  ⟨metSelf (by decide), metSelf (by decide), metSelf (by decide), metSelf (by decide), fun i hi => by
    fin_cases hi <;> exact met (by decide), met (by decide)⟩

/-- Lanes 1 and 2 hold opposite infinities; every lane is a member. -/
def redG (ivt : Bool) : Group := { fgrp ivt with s := [(4, 0xFFFFFFFF)] }

/-- Both hypotheses of GRED and SCAN: nothing invalid, or GCR.IVT = 0; and GCR.IVT = 1 with an invalid sum. -/
theorem metSelf2 {i : Instr} {s : State} {b : BitVec 7} {c : View → Prop} [DecidablePred c]
    (h : metB i s (fun v => decide (v.act &&& ~~~(v.g.uni b.toNat) = 0#32 ∧ c v)) = true) : Met i s (fun v => selfMember v b ∧ c v) := by
  obtain ⟨v, h1, h2, h3, h4⟩ := met (c := fun v => v.act &&& ~~~(v.g.uni b.toNat) = 0#32 ∧ c v) h
  exact ⟨v, h1, h2, selfMember_of h3, h4⟩

abbrev sumFlags (v : View) : Flags := treeFlags (reduceBy .addF32 v.g) (stepFlags .addF32 v.g) (v.g.src (.v 1)) 5 0
abbrev runFlags (v : View) : Flags :=
  scanFlags (reduceBy .addF32 v.g) (stepFlags .addF32 v.g) (identityOf .addF32) (fun _ => true) (v.g.src (.v 1)) 32

theorem wit_Reductions :
    Met (.gred .addF32 3 1 4) (withG (redG true)) (fun v => selfMember v 4 ∧ v.g.gcr.getLsbD 4 = true ∧ (sumFlags v).iv = true) ∧
    Met (.gred .addF32 3 5 4) (withG (redG true)) (fun v => selfMember v 4 ∧ (v.g.gcr.getLsbD 4 = false ∨ (stepFlags .addF32 v.g 0 0).iv = false)) ∧
    Met (.gred .and 3 1 4) (withG (redG false)) (fun v => selfMember v 4 ∧ v.g.gcr.getLsbD 4 = false) ∧
    Met (.scan false .addF32 3 1 4) (withG (redG true)) (fun v => selfMember v 4 ∧ v.g.gcr.getLsbD 4 = true ∧ (runFlags v).iv = true) ∧
    Met (.scan true .max 3 1 4) (withG (voteG 0x23)) (fun v => selfMember v 4 ∧ v.g.gcr.getLsbD 4 = false) :=
  ⟨metSelf2 (by decide), metSelf2 (by decide), metSelf2 (by decide), metSelf2 (by decide), metSelf2 (by decide)⟩

theorem wit_UniformArithmetic :
    ∀ i ∈ [Instr.sadd 159 (.reg 159) .zero, .ssub 1 .zero (.reg 3), .smul .low 1 (.reg 2) (.reg 3), .smul .hi 1 (.reg 2) (.reg 3), .smul .hin 1 (.reg 2) (.reg 3),
      .smad 1 (.reg 2) (.reg 3), .sand 1 (.reg 2) (.reg 3), .sor 1 (.reg 2) (.reg 3), .sxor 1 (.reg 2) (.reg 3), .sshl 1 (.reg 2) (.reg 3),
      .sshr true 1 (.reg 2) (.reg 3), .sminmax true false 1 (.reg 2) (.reg 3), .scmp .le 1 (.reg 2) (.reg 3), .scmpn .ge 1 (.reg 2) (.reg 3),
      .saddi 0 (.reg 2) 0x80, .smovi false 0 0xFF, .smovi true 0 0xFF, .smovb3 .b1 0 1, .smovb3 .b2 0 1, .smovb3 .b3 0 1, .smov 0 .zero],
      ∃ v, s0.dev.issuer = some v ∧ Ready i v := mets (by decide)

theorem wit_UniformMoves :
    (∀ i ∈ [Instr.v2s false 1 2, .v2sLane 1 2 31, .v2s true 1 2, .sctl (.reg 3), .sctl .zero, .sflg (.reg 3), .jget 158 11],
      ∃ v, s0.dev.issuer = some v ∧ Ready i v) ∧
    Met (.v2s true 1 1) (withG (fgrp false)) (fun v => Mask.ofFn (fun l => v.act.getLsbD l && decide (v.g.src (.v 1) l ≠ v.g.src (.v 1) 0)) ≠ 0#32) :=
  ⟨mets (by decide), met (by decide)⟩

theorem wit_SystemReads : ∀ n < 0x16, ∃ v, s0.dev.issuer = some v ∧ Ready (.srd 159 (BitVec.ofNat 8 n)) v := by
  intro n hn
  have := mets (l := (List.range 0x16).map (fun n => .srd 159 (BitVec.ofNat 8 n))) (s := s0) (by decide)
  exact this _ (List.mem_map.mpr ⟨n, List.mem_range.mpr hn, rfl⟩)

/-- Lanes 0 and 1 stand at the last word of a CTL clause, the others elsewhere; v1 and s1 hold a target, p0 is true in lane 0. -/
def cgrp (target : Word) : Group := { grp with
  v := vec 1 (fun _ => target), s := [(1, target)], p := [(0, 1)],
  frontier := [⟨12, 3, .run, 0, 0, some ⟨0, ⟨3, .ctl, true, 0, 0, 0⟩⟩⟩, ⟨0x100, 0xFFFFFFFC, .run, 0, 0, none⟩] }

/-- A code segment of 0x40 bytes. -/
def withC (g : Group) : State := withK { blk with groups := [g], lrec := { fetchRecord with codelen := 0x40 } }

abbrev Right (v : View) (taken : View → Mask) (target : View → Nat → Int) (ok : View → Int → Bool) : Prop :=
  Mask.ofFn (fun l => (taken v).getLsbD l && !(ok v (target v l))) = 0#32

theorem wit_Branches :
    (∀ i ∈ [Instr.bra .always 0 3, .bra .ifT 0 0, .bra .ifN 6 0, .bra .ifT 7 0, .brau false 1 0, .brau true 1 0, .bras 1, .brx 1, .ret 1, .call 127 0, .callFar 5 1],
      ∃ v, (withC (cgrp 0x30)).dev.issuer = some v ∧ Ready i v) ∧
    Met (.bra .always 0 3) (withC (cgrp 0x30)) (fun v => Right v (·.act) (nearTarget 3) nearOk) ∧
    Met (.bra .always 0 4) (withC (cgrp 0x30)) (fun v => ¬ Right v (·.act) (nearTarget 4) nearOk) ∧
    Met (.bra .ifT 0 0xFF) (withC (cgrp 0x30)) (fun v => ¬ Right v (fun v => v.act &&& v.g.pred 0) (nearTarget 0xFF) nearOk) ∧
    Met (.bra .ifN 0 0) (withC (cgrp 0x30)) (fun v => Right v (fun v => v.act &&& ~~~(v.g.pred 0)) (nearTarget 0) nearOk) ∧
    Met (.brau true 1 0x80) (withC (cgrp 0)) (fun v => ¬ Right v (fun v => if v.g.uni 1 = 0 then v.act else 0) (nearTarget 0x80) nearOk) ∧
    Met (.brx 1) (withC (cgrp 0x30)) (fun v => Right v (·.act) (fun v l => ((v.g.src (.v 1) l).toNat : Int)) farOk) ∧
    Met (.brx 1) (withC (cgrp 0x40)) (fun v => ¬ Right v (·.act) (fun v l => ((v.g.src (.v 1) l).toNat : Int)) farOk) ∧
    Met (.bras 1) (withC (cgrp 0x24)) (fun v => ¬ Right v (·.act) (fun v _ => ((v.g.uni 1).toNat : Int)) farOk) ∧
    Met (.callFar 5 1) (withC (cgrp 0x20)) (fun v => Right v (·.act) (fun v _ => ((v.g.uni 1).toNat : Int)) farOk) ∧
    Met (.ret 1) (withC (cgrp 0x20)) (fun v => Right v (·.act) (fun v l => ((v.g.src (.v 1) l).toNat : Int)) farOk) ∧
    Met (.call 5 2) (withC (cgrp 0x20)) (fun v => Right v (·.act) (nearTarget 2) nearOk) :=
  ⟨mets (by decide), met (by decide), met (by decide), met (by decide), met (by decide), met (by decide), met (by decide), met (by decide),
   met (by decide), met (by decide), met (by decide), met (by decide)⟩

/-- Lane 31 waits at rejoin mask 11, whose deadline is cycle 4; lanes 30 and 31 are expected. -/
def waitG (dl : Nat) : Group := { grp with
  frontier := [⟨12, 0x7FFFFFFF, .run, 0, 0, some ⟨0, ⟨3, .ctl, false, 0, 0, 0⟩⟩⟩, ⟨0x104, 0x80000000, .wait 11, 0, 0, some ⟨0x100, ⟨3, .ctl, false, 0, 0, 0⟩⟩⟩],
  jE := [(11, 0xC0000000)], jA := [(11, 0x80000000)], dl := [(31, dl)], mark := [(31, 3)], s := [(1, 0xC0000000)] }

theorem wit_RejoinMasks :
    (∀ i ∈ [Instr.jset 11 1, .join 11, .leave 11, .leave 0, .wait 11, .waitT 11 1 6], ∃ v, (withG (waitG 0)).dev.issuer = some v ∧ Ready i v) ∧
    -- the check that follows releases, or not
    (let g := { waitG 0 with jE := [(11, 0x80000000)] }
     FMap.get 0 g.jA 11 ≠ 0 ∧ FMap.get 0 g.jA 11 &&& FMap.get 0 g.jE 11 = FMap.get 0 g.jE 11) ∧
    -- the deadline is now: cycle + 1 stands for the cycle
    (waitG 5).overdue 11 4 ∧ ¬ (waitG 6).overdue 11 4 ∧
    (let s := runs { dev with cycle := 4, blocks := [{ blk with groups := [waitG 5] }] }
     s.plat.phase = .running ∧ s.dev.blocks[0]? = some { blk with groups := [waitG 5] } ∧ blk.life = .running ∧
       s.dev.group 0 0 = some (waitG 5)) ∧
    ∀ i < 12, i ≠ 11 → FMap.get 0 (waitG 5).jA i &&& FMap.get 0 (waitG 5).jA 11 = 0 := by
  refine ⟨mets (by decide), by decide, ⟨31, by decide⟩, ?_, by decide, by decide⟩
  rintro ⟨l, h1, h2, h3, h4⟩
  have : l = 31 := by
    by_contra hn
    have : FMap.get 0 (waitG 6).dl l = 0 := by simp [FMap.get, waitG]; omega
    exact h3 this
  subst this
  exact absurd h4 (by decide)

/-- The other lanes of the group wait at BAR 15, at BAR.ARR 15, or run. -/
def barG (x : Susp) : Group := { grp with frontier := [⟨12, 3, .run, 0, 0, some ⟨0, ⟨3, .ctl, false, 0, 0, 0⟩⟩⟩,
  ⟨0x104, 0xFFFFFFFC, x, 0, 0, some ⟨0x100, ⟨3, .ctl, false, 0, 0, 0⟩⟩⟩] }

/-- A second group of the role, which has arrived in phase 0 of role barrier 15, or in no phase. -/
def other (arrived : Bool) : Group := { grp with idx := 1, slot := none, barRec := if arrived then [(31, 1), (15, 1)] else [] }

/-- The issuing view of a state of one block. -/
def view (s : State) (k : Block) (g : Group) : View := ⟨s.dev, 0, 0, k, g⟩

theorem allThere_of {v : View} {op : CollOp} {e : Entry} (h : v.g.frontier.tail = [e]) (hs : e.susp = .coll op none) : v.allThere op := by
  intro x hx
  rw [h, List.mem_singleton] at hx
  exact ⟨none, by rw [hx, hs]⟩

/-- The group's block, of two groups of one role. -/
def barK (x : Susp) (arrived : Bool) : Block := { blk with
  lrec := { fetchRecord with roles := [⟨0, 16, 2, 4096, 0, 0⟩] }, groups := [barG x, other arrived] }

theorem barK_others {x : Susp} {arrived : Bool} {m : Nat} {g : Group} (hm : m ≠ 0) (h : (barK x arrived).groups[m]? = some g) :
    m = 1 ∧ g = other arrived := by
  match m, hm with
  | 1, _ => exact ⟨rfl, by simpa [barK] using h.symm⟩
  | m + 2, _ => simp [barK] at h

theorem wit_Barriers :
    (let v := view (withK (barK .run false)) (barK .run false) (barG .run)
     (withK (barK .run false)).dev.issuer = some v ∧ Ready (.bar false 15) v ∧ v.k.life = .running ∧ v.g.live ≠ 0 ∧ v.g.active ≠ 0 ∧ v.g.apart ∧
       ¬ v.allThere (.bar false 15)) ∧
    (∀ role,
     let v := view (withK (barK (.coll (.arr role 15) none) false)) (barK (.coll (.arr role 15) none) false) (barG (.coll (.arr role 15) none))
     (withK (barK (.coll (.arr role 15) none) false)).dev.issuer = some v ∧ Ready (.barArr role 15) v ∧ v.k.life = .running ∧ v.g.live ≠ 0 ∧
       v.g.active ≠ 0 ∧ v.g.apart ∧ v.allThere (.arr role 15) ∧ v.othersRest ∧ v.d.released v.b v.n true = true ∧
       FMap.get 0 v.g.barRec (if role then 31 else 15) ≠ FMap.get 0 v.k.phases (if role then 31 else 15) + 1) ∧
    (∀ role,
     let v := view (withK (barK (.coll (.bwait role 15) none) false)) (barK (.coll (.bwait role 15) none) false) (barG (.coll (.bwait role 15) none))
     (withK (barK (.coll (.bwait role 15) none) false)).dev.issuer = some v ∧ Ready (.barWait role 15) v ∧ v.g.apart ∧
       v.allThere (.bwait role 15) ∧ v.othersRest ∧ v.d.returned v.b v.n = true ∧
       FMap.get 0 v.g.barRec (if role then 31 else 15) ≠ FMap.get 0 v.k.phases (if role then 31 else 15) + 1) ∧
    (∀ role,
     let v := view (withK (barK (.coll (.bar role 15) none) true)) (barK (.coll (.bar role 15) none) true) (barG (.coll (.bar role 15) none))
     (withK (barK (.coll (.bar role 15) none) true)).dev.issuer = some v ∧ Ready (.bar role 15) v ∧ v.g.apart ∧ v.allThere (.bar role 15) ∧
       v.othersRest ∧ v.d.released v.b v.n true = true ∧ v.g.stage = 0 ∧
       FMap.get 0 v.g.barRec (if role then 31 else 15) ≠ FMap.get 0 v.k.phases (if role then 31 else 15) + 1 ∧
       ∀ m x, m ≠ v.n → v.k.groups[m]? = some x → x.exited = false → role = false ∨ x.role = v.g.role →
         FMap.get 0 x.barRec (if role then 31 else 15) = FMap.get 0 v.k.phases (if role then 31 else 15) + 1) := by
  refine ⟨⟨rfl, readyB_ready (by decide), by decide, by decide, by decide, by unfold Group.apart; decide, ?_⟩, fun role => ?_, fun role => ?_, fun role => ?_⟩
  · intro h
    obtain ⟨o, ho⟩ := h _ (List.mem_singleton.mpr rfl)
    exact nomatch ho
  · cases role <;> refine ⟨rfl, readyB_ready (by decide), by decide, by decide, by decide, by unfold Group.apart; decide, allThere_of rfl rfl,
      ⟨by decide, fun m g hm h _ => ?_⟩, by decide, by decide⟩ <;>
    · obtain ⟨rfl, rfl⟩ := barK_others hm h
      decide
  · cases role <;> refine ⟨rfl, readyB_ready (by decide), by unfold Group.apart; decide, allThere_of rfl rfl, ⟨by decide, fun m g hm h _ => ?_⟩,
      by decide, by decide⟩ <;>
    · obtain ⟨rfl, rfl⟩ := barK_others hm h
      decide
  · cases role <;> refine ⟨rfl, readyB_ready (by decide), by unfold Group.apart; decide, allThere_of rfl rfl,
      ⟨by decide, fun m g hm h _ => ?_⟩, by decide, by decide, by decide, fun m x hm h _ _ => ?_⟩ <;>
    · obtain ⟨rfl, rfl⟩ := barK_others hm h
      decide

theorem wit_ExitAndRest :
    Met .exit (withG (cgrp 0)) (fun v => v.g.live &&& ~~~v.act ≠ 0#32) ∧
    (let v := view s0 blk grp
     s0.dev.issuer = some v ∧ Ready .exit v ∧ v.g.live &&& ~~~v.act = 0#32 ∧ v.k.life = .running ∧
       ∀ m g, m ≠ v.n → v.k.groups[m]? = some g → g.live = 0#32) ∧
    (∀ i ∈ [Instr.yield, .nop, .trap 0xFF, .bkpt 0], ∃ v, s0.dev.issuer = some v ∧ Ready i v) ∧
    Issues s0 (fun v => Cls.vec = .sys → v.g.levelH = true) ∧ Issues sH (fun v => Cls.sys = .sys → v.g.levelH = true) := by
  refine ⟨met (by decide), ⟨rfl, readyB_ready (by decide), by decide, by decide, fun m g hm h => ?_⟩, mets (by decide), issues (by decide), issues (by decide)⟩
  match m, hm with
  | m + 1, _ => simp [view, blk] at h

/-- The checks of R100 up to a number, by computation. -/
def upToB (i : Instr) (v : View) (n : Nat) : Bool :=
  (decide (n < 1) || decide (v.g.head.run < 24)) && (decide (n < 2) || decide (clsOf i = .sys → v.g.levelH = true)) &&
  (decide (n < 3) || formOk i (accessOf i v) v.g) && (decide (n < 4) || decide ((accessOf i v).uni = true → v.g.converged = true)) &&
  (decide (n < 5) || (decide ((accessOf i v).reads.filterMap (Opnd.emptyReg v.g) = []) &&
    decide ((extraOf i v).win.filter (fun x => v.winEmpty x.1 x.2) = []))) &&
  (decide (n < 6) || decide ((accessOf i v).fixed.filterMap (Opnd.emptyReg v.g) = []))

theorem upToB_passes {i : Instr} {v : View} {n : Nat} (h : upToB i v n = true) : ∀ k, 1 ≤ k → k ≤ n → passesCheck i v k := by
  simp only [upToB, Bool.and_eq_true, Bool.or_eq_true, decide_eq_true_eq] at h
  obtain ⟨⟨⟨⟨⟨h1, h2⟩, h3⟩, h4⟩, h5⟩, h6⟩ := h
  intro k k1 kn
  match k, k1 with
  | 1, _ => exact h1.resolve_left (by omega)
  | 2, _ => exact h2.resolve_left (by omega)
  | 3, _ => exact h3.resolve_left (by omega)
  | 4, _ => exact h4.resolve_left (by omega)
  | 5, _ => exact h5.resolve_left (by omega)
  | 6, _ => exact h6.resolve_left (by omega)
  | k + 7, _ => exact trivial

/-- The checks before `n + 1` pass in the state, and the condition holds. -/
abbrev Reaches (i : Instr) (s : State) (n : Nat) (c : View → Prop) : Prop :=
  ∃ v, s.dev.issuer = some v ∧ (∀ k, 1 ≤ k → k ≤ n → passesCheck i v k) ∧ c v

theorem reaches {i : Instr} {s : State} {n : Nat} {c : View → Prop} [DecidablePred c]
    (h : (match s.dev.issuer with
      | some v => upToB i v n && decide (c v)
      | none => false) = true) : Reaches i s n c := by
  split at h
  · rename_i v hv
    simp only [Bool.and_eq_true, decide_eq_true_eq] at h
    exact ⟨v, hv, upToB_passes h.1, h.2⟩
  · exact nomatch h

/-- v3 is empty and v4 poisoned; the T bit of the word is as given. -/
def badG (t : Bool) : Group := { grp with
  flights := [⟨.v 3, 7⟩], vp := [(32 * 4 + 31, 2)],
  frontier := [⟨12, BitVec.allOnes 32, .run, 23, 0, some ⟨0, ⟨3, .vec, false, 0, if t then 0b001000000000000 else 0, 0⟩⟩⟩],
  v := vec 5 (fun _ => 0x800180) }

theorem wit_IssueChecks :
    Reaches .nop (withG { grp with frontier := [⟨12, BitVec.allOnes 32, .run, 24, 0, none⟩] }) 0 (fun v => ¬ v.g.head.run < 24) ∧
    Reaches .rthFix s0 1 (fun v => ¬ (clsOf .rthFix = .sys → v.g.levelH = true)) ∧
    Reaches (.iadd .wrap 8 (.v 0) (.v 0)) (withG { grp with budget := 1 }) 2
      (fun v => ¬ formOk (.iadd .wrap 8 (.v 0) (.v 0)) (accessOf (.iadd .wrap 8 (.v 0) (.v 0)) v) v.g = true) ∧
    Reaches .exit (withG { grp with frontier := [⟨8, BitVec.allOnes 32, .run, 0, 0, some ⟨0, ⟨3, .ctl, false, 0, 0, 0⟩⟩⟩] }) 2
      (fun v => ¬ formOk .exit (accessOf .exit v) v.g = true) ∧
    Reaches (.sadd 0 .zero .zero) (withG (voteG 0)) 3 (fun v => ¬ ((accessOf (.sadd 0 .zero .zero) v).uni = true → v.g.converged = true)) ∧
    (∀ t, Reaches (.mov 1 (.v 3)) (withG (badG t)) 4 (fun v =>
      (accessOf (.mov 1 (.v 3)) v).reads.filterMap (Opnd.emptyReg v.g) = [.v 3] ∧ v.g.tbit = t)) ∧
    (∀ t, Reaches (.ld .core .w 1 (.v 5) 0) (withG (badG t)) 4 (fun v =>
      (accessOf (.ld .core .w 1 (.v 5) 0) v).reads.filterMap (Opnd.emptyReg v.g) = [] ∧
      ((extraOf (.ld .core .w 1 (.v 5) 0) v).win.filter (fun x => v.winEmpty x.1 x.2)).head? = some (0, .v 3) ∧ v.g.tbit = t)) ∧
    Reaches (.iadd .wrap 3 (.v 0) (.v 1)) (withG (badG true)) 5 (fun v =>
      (accessOf (.iadd .wrap 3 (.v 0) (.v 1)) v).fixed.filterMap (Opnd.emptyReg v.g) = [.v 3]) ∧
    Reaches (.mov 1 (.v 4)) (withG (badG true)) 6 (fun v => readsPoison (.mov 1 (.v 4)) v 31 = true) ∧
    Reaches (.pbarArr .core 1 0) (withK { blk with coreP := [[(0, 3)]] }) 6 (fun v => (∀ l < 32, readsPoison (.pbarArr .core 1 0) v l = false) ∧
      (extraOf (.pbarArr .core 1 0) v).poison = 2 + 1) :=
  ⟨reaches (by decide), reaches (by decide), reaches (by decide), reaches (by decide), reaches (by decide),
   fun t => by cases t <;> exact reaches (by decide), fun t => by cases t <;> exact reaches (by decide), reaches (by decide), reaches (by decide),
   reaches (by decide)⟩

/-- The trap table's entry for cause 0x14, the last that BKPT uses, is valid; that for 0x13 is not. -/
def trapDev (k : Block) : Dev := { dev with blocks := [k], hbm := [(16 * 0x14 + 1, 1), (16 * 0x14 + 8, 64), (16 * 0x14 + 12, 1)] }

theorem wit_TrapEntry :
    ∃ v, (runs (trapDev blk)).dev.issuer = some v ∧ v.g.levelH = false ∧
      (Memory.read v.d.hbm (v.part.cfg.trapTable + 16 * 0x14 + 12)).toNat % 2 = 1 ∧
      ¬ ((0x14 : Nat) = 0x0D ∧ ((0 : Nat) % 4 = 1 ∨ (0 : Nat) % 4 = 2) ∧ v.k.replayable = true) := ⟨view (runs (trapDev blk)) blk grp, rfl, by decide⟩

/-- A replayable block after `n` replays. -/
def replK (n : Nat) : Block := { blk with lrec := { fetchRecord with flags := 1 }, nrepl := n }

theorem wit_TrapKills :
    (∃ v, sH.dev.issuer = some v ∧ v.g.levelH = true) ∧
    (∃ v, (runs (trapDev blk)).dev.issuer = some v ∧ v.g.levelH = false ∧
      (Memory.read v.d.hbm (v.part.cfg.trapTable + 16 * 0x13 + 12)).getLsbD 0 = false) ∧
    (∃ v, (withK (replK 6)).dev.issuer = some v ∧ v.g.levelH = false ∧ v.k.replayable = true ∧ v.k.nrepl < 7) ∧
    (∃ v, (withK (replK 7)).dev.issuer = some v ∧ v.g.levelH = false ∧ v.k.replayable = true ∧ 7 ≤ v.k.nrepl) :=
  ⟨⟨_, rfl, by decide⟩, ⟨_, rfl, by decide⟩, ⟨_, rfl, by decide⟩, ⟨_, rfl, by decide⟩⟩

theorem wit_TrapReturn :
    (∀ i ∈ [Instr.rthFix, .rthSkip, .rthRetry, .rthKill], ∃ v, sH.dev.issuer = some v ∧ Ready i v) ∧
    Met .rthRetry sH (fun v => v.k.replayable = false) ∧
    Met .rthRetry (withK { replK 6 with groups := [hgrp] }) (fun v => v.k.replayable = true ∧ v.k.nrepl < 7) := ⟨mets (by decide), met (by decide), met (by decide)⟩

theorem wit_HandlerRegisters :
    (∀ i ∈ [0x00, 0x01, 0x02, 0x03, 0x04, 0x05, 0x06, 0x07, 0x08, 0x10, 0x11, 0x12, 0x13, 0x14, 0x20].map (fun n => Instr.sysrd 15 (BitVec.ofNat 8 n)) ++
        [.syswr (.h 15) 0x20, .syswr (.s 127) 0x20, .syswr (.s 0) 0x00, .syswr (.h 0) 0x14],
      ∃ v, sH.dev.issuer = some v ∧ Ready i v) ∧
    Issues sH (fun v => v.g.levelH = true ∧ (0x09#8).toNat ∉ [0, 1, 2, 3, 4, 5, 6, 7, 8, 0x10, 0x11, 0x12, 0x13, 0x14, 0x20]) :=
  ⟨mets (by decide), issues (by decide)⟩

theorem metAs {i : Instr} {s : State} {c : View → Prop} (c' : View → Prop) [DecidablePred c']
    (h : metB i s (fun v => decide (c' v)) = true) (hc : ∀ v, c' v → c v) : Met i s c := by
  obtain ⟨v, h1, h2, h3⟩ := met h
  exact ⟨v, h1, h2, hc v h3⟩

/-- v9 and s9 hold an address; in a replayable block where `repl`. -/
def mgrp (a : Word) : Group := { grp with v := vec 9 (fun _ => a), s := [(9, a)] }
def atAddr (a : Word) (repl : Bool := false) : State := withK { blk with groups := [mgrp a], lrec := { fetchRecord with flags := if repl then 1 else 0 } }

/-- The checks of R223 before `n` pass, and `n` fails, where `x` is the access. -/
abbrev FailsAt (i : Instr) (a : Word) (repl : Bool) (x : Access223) (n : Nat) : Prop :=
  Met i (atAddr a repl) (fun v => (∀ k < n, x.passes v k) ∧ ¬ x.passes v n)

theorem failsAt {i : Instr} {a : Word} {repl : Bool} {x : Access223} {n : Nat}
    (h : metB i (atAddr a repl) (fun v => decide ((∀ k < n, Mask.ofFn (x.bad v k) = 0#32) ∧ ¬ Mask.ofFn (x.bad v n) = 0#32)) = true) :
    FailsAt i a repl x n := metAs _ h (fun _ h => h)

/-- The first addresses past LPRIV, CSCR, CSHR and the chip scratchpad, past the windows of the group, and in the chip scratchpad of a
replayable block without regions. -/
theorem wit_MemoryFaults :
    FailsAt (.ld .core .h 1 (.v 9) 0) 1 false (ldAccess .core .h (.v 9) 0 false) 0 ∧
    FailsAt (.ld .priv .b 1 (.v 9) 0) 4096 false (ldAccess .priv .b (.v 9) 0 false) 1 ∧
    FailsAt (.ld .core .w 1 (.s 9) 0) 0x120000 false (ldAccess .core .w (.s 9) 0 false) 1 ∧
    FailsAt (.ld .core .w 1 (.s 9) 0) 0x804000 false (ldAccess .core .w (.s 9) 0 false) 1 ∧
    FailsAt (.st .clu .qw 4 (.v 9) 0) 0x11FFF8 false (ldAccess .clu .qw (.v 9) 0 true) 0 ∧
    FailsAt (.st .clu .dw 4 (.v 9) 1) 0x11FFF8 false (ldAccess .clu .dw (.v 9) 1 true) 1 ∧
    FailsAt (.st .chip .w 4 (.v 9) 0) 4092 true (ldAccess .chip .w (.v 9) 0 true) 2 ∧
    FailsAt (.ldln .core .k1 4 (.v 9) 0) 64 false (lineAccess .core .k1 (.v 9) 0) 0 ∧
    FailsAt (.ldln .chip .k2 4 (.v 9) 31) 0 false (lineAccess .chip .k2 (.v 9) 31) 1 ∧
    Met (.ldln .clu .k1 4 (.v 1) 0) (withG (fgrp false)) (fun v => ¬ oneLine (.v 1) 0 v) ∧
    Met (.ldln .clu .k1 4 (.v 9) 0) (atAddr 128) (oneLine (.v 9) 0) ∧
    FailsAt (.atm .core .add 4 (.v 9) 0) 2 false (atAccess .core (.v 9) 0) 0 ∧ FailsAt (.atm .clu .add 4 (.v 9) 0) 0x120000 false (atAccess .clu (.v 9) 0) 1 ∧
    FailsAt (.atm .chip .exch 4 (.v 9) 255) 0 true (atAccess .chip (.v 9) 255) 2 ∧
    FailsAt (.cas .core 4 (.v 9) 0) 2 false (atAccess .core (.v 9) 0) 0 ∧ FailsAt (.cas .chip 4 (.v 9) 0) 4096 false (atAccess .chip (.v 9) 0) 1 ∧
    FailsAt (.cas .chip 4 (.v 9) 0) 0 true (atAccess .chip (.v 9) 0) 2 ∧
    FailsAt (.sld .core 4 (.reg 9) 0) 3 false (uniAccess .core (.reg 9) 0 false) 0 ∧ FailsAt (.sld .chip 4 (.reg 9) 255) 3076 false (uniAccess .chip (.reg 9) 255 false) 1 ∧
    FailsAt (.sst .core .zero (.reg 9) 0) 3 false (uniAccess .core (.reg 9) 0 true) 0 ∧ FailsAt (.sst .clu .zero (.reg 9) 0) 0x120000 false (uniAccess .clu (.reg 9) 0 true) 1 ∧
    FailsAt (.sst .chip .zero (.reg 9) 0) 4092 true (uniAccess .chip (.reg 9) 0 true) 2 ∧
    FailsAt (.pbarInit .core 1 9 0) 2 false (barAccess .core 9 0) 0 ∧ FailsAt (.pbarInit .core 1 9 0) 0x800000 false (barAccess .core 9 0) 1 ∧
    FailsAt (.pbarArr .clu 9 0) 1 false (barAccess .clu 9 0) 0 ∧ FailsAt (.pbarArr .clu 9 0) 0x120000 false (barAccess .clu 9 0) 1 ∧
    FailsAt (.pbarWait .core true 9 0) 1 false (barAccess .core 9 0) 0 ∧ FailsAt (.pbarWait .core true 9 0) 0x120000 false (barAccess .core 9 0) 1 :=
  ⟨failsAt (by decide), failsAt (by decide), failsAt (by decide), failsAt (by decide), failsAt (by decide), failsAt (by decide), failsAt (by decide),
   failsAt (by decide), failsAt (by decide),
   metAs (fun v => ¬ ∀ l ∈ v.act.lanes, ea v.g (.v 1) 0 128 l = ea v.g (.v 1) 0 128 (Mask.lowest v.act)) (by decide) (fun _ h => h),
   metAs (fun v => ∀ l ∈ v.act.lanes, ea v.g (.v 9) 0 128 l = ea v.g (.v 9) 0 128 (Mask.lowest v.act)) (by decide) (fun _ h => h),
   failsAt (by decide), failsAt (by decide), failsAt (by decide), failsAt (by decide), failsAt (by decide), failsAt (by decide), failsAt (by decide),
   failsAt (by decide), failsAt (by decide), failsAt (by decide), failsAt (by decide), failsAt (by decide), failsAt (by decide), failsAt (by decide),
   failsAt (by decide), failsAt (by decide), failsAt (by decide)⟩

/-- The access passes the checks. -/
abbrev Fits (i : Instr) (a : Word) (x : Access223) : Prop := Met i (atAddr a) x.ok

theorem fits {i : Instr} {a : Word} {x : Access223}
    (h : metB i (atAddr a) (fun v => decide (Mask.ofFn (x.bad v 0) = 0#32 ∧ Mask.ofFn (x.bad v 1) = 0#32 ∧ Mask.ofFn (x.bad v 2) = 0#32)) = true) :
    Fits i a x := metAs _ h (fun _ h => h)

/-- A load of core scratch that has read its sector, and a miss of cluster-shared memory on its way for another. -/
def load0 : PLoad := ⟨7, 0, 0, 0, [(0, .core 0 0, 8)], false, .w, [.v 3], [0], [], [], none⟩
def load1 : PLoad := ⟨6, 0, 0, 0, [(0, .clu 0 0, 72)], false, .w, [.v 4], [0], [(.clu 0 0, 1)], [], none⟩
def loadDev : Dev := { dev with
  nextId := 8, loads := [load1, load0], cores := [(0, { CoreSt.init with miss := [⟨5, .clu 0 0, 1⟩] })],
  blocks := [{ blk with groups := [{ grp with flights := [⟨.v 4, 6⟩, ⟨.v 3, 7⟩] }] }] }

/-- All 256 miss-status entries of the core are taken. -/
def fullMisses : State :=
  let misses : List Miss := (List.range 256).map (fun i => ⟨i, .chip 0, i⟩)
  runs { dev with blocks := [{ blk with groups := [mgrp 0] }], cores := [(0, { CoreSt.init with miss := misses })] }

/-- Another group's store to the word that the load of core scratch reads is on its way. -/
def overlapDev : Dev := { loadDev with nextId := 9, stores := [⟨8, 8, 0, 0, 1, .core 0 0, [(8, 1)], []⟩] }

theorem wit_overlap : (8 ∈ (overlapDev.overlaid 0 0 0 9 (.core 0 0) (4 * 2)).map (·.op)) ∧ (.core 0 0, 2) ∈ load0.words ∧ (Space.core 0 0).cached = false := by
  decide

theorem wit_ScratchLoads :
    Fits (.ld .priv .b 1 (.v 9) 0) 4095 (ldAccess .priv .b (.v 9) 0 false) ∧ Fits (.ld .core .qw 4 (.v 9) 0) 0x11FFF0 (ldAccess .core .qw (.v 9) 0 false) ∧
    Fits (.ld .core .w 1 (.s 9) 0) 0x803FFC (ldAccess .core .w (.s 9) 0 false) ∧ Fits (.ld .chip .bs 1 (.s 9) 0) 4095 (ldAccess .chip .bs (.s 9) 0 false) ∧
    Fits (.ld .clu .dw 2 (.v 9) 255) 0 (ldAccess .clu .dw (.v 9) 255 false) ∧
    Fits (.ldln .core .k8 120 (.v 9) 0) 128 (lineAccess .core .k8 (.v 9) 0) ∧ Fits (.sld .clu 159 (.reg 9) 255) 0 (uniAccess .clu (.reg 9) 255 false) ∧
    -- with few misses under way, and with 256
    Met (.ld .clu .w 1 (.v 9) 0) (atAddr 0) (fun v => (v.d.core v.core).miss.length + 1 ≤ 256) ∧
    Met (.ld .clu .w 1 (.v 9) 0) fullMisses (fun v =>
        256 < (v.d.core v.core).miss.length +
          (v.d.newMisses v.core (v.load (v.act.lanes.map (fun x => (x, v.k.space v.b v.n .clu x, ea v.g (.v 9) 0 4 x))) false .w [v.g.vreg 1])).length) ∧
    -- a result that lands
    (runs loadDev).plat.phase = .running ∧ loadDev.loads.find? (fun y => decide (y.op = 7)) = some load0 ∧
    loadDev.group 0 0 = some { grp with flights := [⟨.v 4, 6⟩, ⟨.v 3, 7⟩] } ∧ load0.regs[0]? = some (.v 3) ∧ 0 ∈ load0.left ∧ loadDev.loadReady load0 = true ∧
    ({ grp with flights := [⟨.v 4, 6⟩, ⟨.v 3, 7⟩] } : Group).takes 7 (.v 3) = true ∧ load0.vals = none ∧
    -- a sector that arrives
    (loadDev.core 0).miss.find? (fun m => decide (m.id = 5)) = some ⟨5, .clu 0 0, 1⟩ ∧ loadDev.atoms = [] ∧ (∀ x ∈ loadDev.loads, x.need.Nodup) :=
  ⟨fits (by decide), fits (by decide), fits (by decide), fits (by decide), fits (by decide), fits (by decide +kernel), fits (by decide), met (by decide), met (by decide +kernel),
   rfl, rfl, rfl, rfl, by decide, by decide, by decide, rfl, rfl, rfl, by decide⟩

/-- A store of two bytes to core scratch on its way. -/
def storeDev : Dev := { dev with nextId := 8, stores := [⟨7, 7, 0, 0, 0, .core 0 0, [(8, 1), (9, 2)], []⟩] }

theorem wit_ScratchStores :
    Fits (.st .core .b 1 (.v 9) 0) 0x11FFFF (ldAccess .core .b (.v 9) 0 true) ∧ Fits (.st .priv .qw 124 (.v 9) 255) 0 (ldAccess .priv .qw (.v 9) 255 true) ∧
    Fits (.st .chip .w 4 (.v 9) 0) 4092 (ldAccess .chip .w (.v 9) 0 true) ∧ Fits (.sst .core (.reg 159) (.reg 9) 0) 0x803FFC (uniAccess .core (.reg 9) 0 true) ∧
    storeDev.stores.find? (fun y => decide (y.op = 7)) = some ⟨7, 7, 0, 0, 0, .core 0 0, [(8, 1), (9, 2)], []⟩ ∧
    storeDev.storeReady ⟨7, 7, 0, 0, 0, .core 0 0, [(8, 1), (9, 2)], []⟩ = true ∧ (∀ y ∈ [(8, (1 : Byte)), (9, 2)], storeDev.backs (.core 0 0) y.1) ∧
    ([(8, (1 : Byte)), (9, 2)].map (·.1)).Nodup :=
  ⟨fits (by decide), fits (by decide), fits (by decide), fits (by decide), rfl, by decide, by
    intro y hy
    fin_cases hy <;> exact ⟨blk, rfl, by simp [blk, fetchBlock]⟩, by decide⟩

/-- An atomic on a word of core scratch on its way. -/
def atom0 : PAtom := ⟨8, 7, 0, 0, 0, 3, .core 0 0, 8, .at .add 5, some (.v 3)⟩
def atomDev : Dev := { dev with
  nextId := 9, atoms := [atom0], cmds := [⟨7, 0, 0, 8, [.v 3], .answer []⟩], blocks := [{ blk with groups := [{ grp with flights := [⟨.v 3, 7⟩] }] }] }

/-- A store of the group is unperformed. -/
def pending (a : Word) : State := runs { dev with stores := [⟨7, 7, 0, 0, 0, .clu 0 0, [(8, 1)], []⟩], blocks := [{ blk with groups := [mgrp a] }] }

abbrev Barred (l : Lvl2) (o : BitVec 8) (v : View) : Prop := ea v.g (.s 9) o 4 0 % 4 = 0 ∧ ∀ i < 4, v.holdsPlain (lvl2 l) (ea v.g (.s 9) o 4 0 + i) = true

theorem wit_ScratchAtomics :
    Fits (.atm .core .min 127 (.v 9) 0) 0x803FFC (atAccess .core (.v 9) 0) ∧ Fits (.atm .chip .or 4 (.s 9) 255) 3072 (atAccess .chip (.s 9) 255) ∧
    Fits (.cas .clu 126 (.v 9) 0) 0x11FFFC (atAccess .clu (.v 9) 0) ∧
    Met (.pbarArr .core 9 0) (atAddr 0x11FFFC) (fun v => barOk .core 9 0 v ∧ v.d.released v.b v.n true = true) ∧
    Met (.pbarArr .clu 9 0) (pending 0) (fun v => barOk .clu 9 0 v ∧ v.d.released v.b v.n true = false) ∧
    (runs atomDev).plat.phase = .running ∧ atomDev.atoms.find? (fun y => decide (y.op = 8)) = some atom0 ∧ atomDev.atomReady atom0 = true :=
  ⟨fits (by decide), fits (by decide), fits (by decide), metAs (fun v => Barred .core 0 v ∧ v.d.released v.b v.n true = true) (by decide) (fun _ h => h),
   metAs (fun v => Barred .clu 0 v ∧ v.d.released v.b v.n true = false) (by decide) (fun _ h => h), rfl, rfl, by decide⟩

/-- A group whose load is on its way issues PBAR.WAIT; it has found its phase bit, or not. -/
def barrierG (woken : Bool) : Group := { mgrp 0 with woken := if woken then some 12 else none }
def loading : State := runs { dev with nextId := 8, loads := [load0], blocks := [{ blk with groups := [barrierG true] }] }

/-- A group waits for phase bit 0 of the word at 0, which is 0. -/
def phaseG : Group := { mgrp 0 with why := .cond (.pbar .core 0 false), slot := none }

theorem wit_FencesAndPhases :
    (∀ i ∈ [Instr.fence .grp .rel, .fence .sys .acq, .fence .dev .ar], ∃ v, s0.dev.issuer = some v ∧ Ready i v) ∧
    Met (.fence .core .rel) (pending 0) (fun v => v.d.released v.b v.n true = false) ∧
    Met (.fence .core .rel) s0 (fun v => v.d.released v.b v.n true = true) ∧
    Met (.fence .dev .acq) loading (fun v => v.d.returned v.b v.n = false) ∧ Met (.fence .dev .acq) (pending 0) (fun v => v.d.returned v.b v.n = true) ∧
    Met (.pbarInit .core 1 9 0) (atAddr 0x11FFFC) (barOk .core 9 0) ∧
    (∀ ph, Met (.pbarWait .core ph 9 0) (atAddr 0) (fun v => barOk .core 9 0 v ∧ (v.d.homeWord (.core 0 0) 0).1.msb = false ∧
      v.g.woken ≠ some v.g.head.pc ∧ v.d.returned v.b v.n = true)) ∧
    Met (.pbarWait .core true 9 0) loading (fun v => barOk .core 9 0 v ∧ v.g.woken = some v.g.head.pc ∧ v.d.returned v.b v.n = false) ∧
    (phaseG.why = .cond (.pbar .core 0 false) ∧ phaseG.dl = [] ∧ (dev.homeWord (.core 0 0) 0).1.msb = false ∧ isWin (.core 0 0) 0 = false ∧ dev.stores = []) :=
  ⟨mets (by decide), met (by decide), met (by decide), met (by decide), met (by decide), metAs (Barred .core 0) (by decide) (fun _ h => h), fun ph => by
    cases ph <;> exact metAs (fun v => Barred .core 0 v ∧ (v.d.homeWord (.core 0 0) 0).1.msb = false ∧ v.g.woken ≠ some v.g.head.pc ∧ v.d.returned v.b v.n = true)
      (by decide) (fun _ h => h),
   metAs (fun v => Barred .core 0 v ∧ v.g.woken = some v.g.head.pc ∧ v.d.returned v.b v.n = false) (by decide) (fun _ h => h), by decide⟩

/-! ### Copies, far atomics, permits -/

/-- s48 and on hold the words. -/
def ugrp (ws : List Word) : Group := { grp with s := ws.mapIdx (fun i w => (48 + i, w)) }
def uni (ws : List Word) : State := withG (ugrp ws)
/-- In a replayable block. -/
def uniR (ws : List Word) : State := withK { blk with groups := [ugrp ws], lrec := { fetchRecord with flags := 1 } }

/-- Word `n` is the first that breaks its table. -/
abbrev BadAt (i : Instr) (s : State) (oks : View → List Bool) (n : Nat) : Prop :=
  Met i s (fun v => n < (oks v).length ∧ (oks v).getD n true = false ∧ ∀ k < n, (oks v).getD k true = true)

/-- COPY's words of Obligations.CopyCommands. -/
def oneWords (a : BitVec 7) (v : View) : List Bool :=
  let w := desc v a
  [true, decide ((w 1).extractLsb' 23 9 = 0 ∧ (w 1).extractLsb' 20 2 ≠ 3#2), true,
   decide ((w 3).extractLsb' 24 8 = 0 ∧ (w 3).extractLsb' 0 24 ≠ 0 ∧ (w 3).extractLsb' 0 2 = 0)]

/-- COPY2's. -/
def twoWords (a : BitVec 7) (v : View) : List Bool :=
  let w := desc v a
  let kind (i : Nat) : BitVec 4 := (w i).extractLsb' 20 4
  let len := ((w 4).extractLsb' 0 24).toNat
  let rows := ((w 5).extractLsb' 0 16).toNat
  let endOk (i : Nat) : Bool := decide ((w i).extractLsb' 24 8 = 0 ∧ (kind i).toNat < 5 ∧
    (2 ≤ (kind i).toNat → (w i).extractLsb' 0 20 = 0))
  let pitch (i : Nat) : Bool := decide ((w i).toNat % 4 = 0 ∧ (1 < rows → len ≤ (w i).toNat))
  [true, endOk 1, true, endOk 3 && decide (kind 3 ≠ 1), decide ((w 4).extractLsb' 24 8 = 0 ∧ len ≠ 0 ∧ len % 4 = 0),
   decide ((w 5).extractLsb' 16 16 = 0 ∧ rows ≠ 0 ∧ len * rows < 2 ^ 31), pitch 6, pitch 7]

/-- The checks of R235 from the second on, in order. -/
def copyBad (v : View) (c : BitVec 3) (q : CopyShape) : Nat → Prop
  | 0 => ¬ placeAligned q.src ∨ ¬ placeAligned q.dst
  | 1 => ¬ placeFits v q.src (q.spitch * (q.rows - 1) + q.len) ∨ ¬ placeFits v q.dst (q.dpitch * (q.rows - 1) + q.len)
  | 2 => ∃ h o, q.src = .view h o ∧ ¬ (h.toNat < v.part.cfg.layerT ∧ (FMap.get LEntry.free v.part.layers h.toNat).live = true)
  | 3 => (nth v.k.chans c.toNat Channel.init).err ≠ none
  | _ => v.k.lrec.repl = true ∧ replayBarred v q

def fitsB (v : View) (p : Place) (n : Nat) : Bool :=
  match p with
  | .scratch (.core _ _) a => decide (a + n ≤ v.k.lrec.cscr * 4096)
  | .scratch (.clu _ _) a => decide (a + n ≤ v.k.lrec.cshr * 4096)
  | .scratch (.chip _) a => decide (a + n ≤ v.part.cfg.chipShare * v.part.cfg.slices.length)
  | .scratch (.lane _ _ _) _ => false
  | _ => true

theorem fitsB_iff (v : View) (p : Place) (n : Nat) : placeFits v p n ↔ fitsB v p n = true := by
  unfold placeFits fitsB; split <;> simp

def alignedB (p : Place) : Bool :=
  match p with
  | .mem a => decide (a % 4 = 0)
  | .scratch _ a => decide (a % 4 = 0)
  | .view _ _ => true

theorem alignedB_iff (p : Place) : placeAligned p ↔ alignedB p = true := by
  unfold placeAligned alignedB; split <;> simp

def barredB (v : View) (q : CopyShape) : Bool :=
  match q.dst with
  | .mem _ => true
  | .scratch (.chip _) a => (List.range q.rows).any (fun r => v.k.inChipRegions (a + r * q.dpitch) q.len = false)
  | _ => false

theorem barredB_iff (v : View) (q : CopyShape) : replayBarred v q ↔ barredB v q = true := by
  unfold replayBarred barredB
  cases q.dst with
  | mem a => simp
  | view h a => simp
  | scratch sp a => cases sp <;> simp

def copyBadB (v : View) (c : BitVec 3) (q : CopyShape) : Nat → Bool
  | 0 => !alignedB q.src || !alignedB q.dst
  | 1 => !fitsB v q.src (q.spitch * (q.rows - 1) + q.len) || !fitsB v q.dst (q.dpitch * (q.rows - 1) + q.len)
  | 2 => match q.src with
    | .view h _ => !decide (h.toNat < v.part.cfg.layerT ∧ (FMap.get LEntry.free v.part.layers h.toNat).live = true)
    | _ => false
  | 3 => decide ((nth v.k.chans c.toNat Channel.init).err ≠ none)
  | _ => v.k.lrec.repl && barredB v q

theorem copyBadB_iff (v : View) (c : BitVec 3) (q : CopyShape) (n : Nat) : copyBad v c q n ↔ copyBadB v c q n = true := by
  unfold copyBad copyBadB
  split
  · simp only [alignedB_iff]; cases alignedB q.src <;> cases alignedB q.dst <;> simp
  · simp only [fitsB_iff]
    cases fitsB v q.src (q.spitch * (q.rows - 1) + q.len) <;> cases fitsB v q.dst (q.dpitch * (q.rows - 1) + q.len) <;> simp
  · constructor
    · rintro ⟨h, o, he, hn⟩; rw [he]; simp only [Bool.not_eq_true', decide_eq_false_iff_not]; exact hn
    · split
      · rename_i h o he; intro hn; exact ⟨h, o, he, by simpa only [Bool.not_eq_true', decide_eq_false_iff_not] using hn⟩
      · intro h; cases h
  · simp
  · simp [barredB_iff]

/-- The words are sound, and check `n` is the first that fails; with `n` 5, none fails and the channel holds `held` commands. -/
abbrev CopyAt (i : Instr) (s : State) (c : BitVec 3) (ok : View → List Bool) (q : View → CopyShape) (n held : Nat) : Prop :=
  Met i s (fun v => (∀ x ∈ ok v, x = true) ∧ (∀ k < n, ¬ copyBad v c (q v) k) ∧ (n < 5 → copyBad v c (q v) n) ∧
    (nth v.k.chans c.toNat Channel.init).cmds.length = held)

theorem copyAt {i : Instr} {s : State} {c : BitVec 3} {ok : View → List Bool} {q : View → CopyShape} {n held : Nat}
    (h : metB i s (fun v => decide ((∀ x ∈ ok v, x = true) ∧ (∀ k < n, copyBadB v c (q v) k = false) ∧ (n < 5 → copyBadB v c (q v) n = true) ∧
      (nth v.k.chans c.toNat Channel.init).cmds.length = held)) = true) : CopyAt i s c ok q n held :=
  metAs _ h (fun v h => ⟨h.1, fun k hk => by rw [copyBadB_iff]; simp [h.2.1 k hk], fun hn => (copyBadB_iff ..).mpr (h.2.2.1 hn), h.2.2.2⟩)

/-- Where those checks pass, nothing traps. -/
theorem copyGood {v : View} {c : BitVec 3} {q : CopyShape} (h : ∀ k < 5, ¬ copyBad v c q k) (x y z : Trap) (e f : Trap)
    (isView : Prop) (hv : isView → ∃ a o, q.src = .view a o) (handle : Option LEntry)
    (hh : handle = none → ∀ a o, q.src = .view a o → ¬ (a.toNat < v.part.cfg.layerT ∧ (FMap.get LEntry.free v.part.layers a.toNat).live = true)) :
    firstTrap [(¬ placeAligned q.src ∨ ¬ placeAligned q.dst, x),
      (¬ placeFits v q.src (q.spitch * (q.rows - 1) + q.len) ∨ ¬ placeFits v q.dst (q.dpitch * (q.rows - 1) + q.len), y),
      (isView ∧ handle = none, z), ((nth v.k.chans c.toNat Channel.init).err ≠ none, e), (v.k.lrec.repl = true ∧ replayBarred v q, f)] none :=
  .inr ⟨h 0 (by decide), .inr ⟨h 1 (by decide), .inr ⟨fun ⟨a, b⟩ => by
    obtain ⟨a', o, ha⟩ := hv a
    exact h 2 (by decide) ⟨a', o, ha, hh b a' o ha⟩, .inr ⟨h 3 (by decide), .inr ⟨h 4 (by decide), rfl⟩⟩⟩⟩⟩

/-- A block whose channel 7 is as given. -/
def chanState (ws : List Word) (ch : Channel) (repl : Bool := false) (p : Part := fetchPart) : State :=
  let k := { blk with groups := [ugrp ws], chans := setNth blk.chans 7 ch, lrec := { fetchRecord with flags := if repl then 1 else 0 } }
  runs { dev with blocks := [k], parts := [(0, p)] }

/-- A copy of 8 bytes between core scratch and cluster-shared memory. -/
def cmd8 : CopyCmd :=
  let pieces : List Piece := [⟨0, 0, 4, false, 0⟩, ⟨4, 4, 4, false, 0⟩]
  ⟨5, 0, .scratch (.core 0 0) 0, .scratch (.clu 0 0) 0, none, 8, false, true, false, pieces⟩

theorem wit_CopyCommands :
    BadAt (.copy 7 48) (uni [0, 0x00800000, 0, 4]) (oneWords 48) 1 ∧ BadAt (.copy 7 48) (uni [0, 0x00300000, 0, 4]) (oneWords 48) 1 ∧
    BadAt (.copy 7 48) (uni [0, 0, 0, 0]) (oneWords 48) 3 ∧ BadAt (.copy 7 48) (uni [0, 0, 0, 0x01000004]) (oneWords 48) 3 ∧
    BadAt (.copy2 7 48) (uni [0, 0x00500000]) (twoWords 48) 1 ∧ BadAt (.copy2 7 48) (uni [0, 0x00200001]) (twoWords 48) 1 ∧
    BadAt (.copy2 7 48) (uni [0, 0, 0, 0x00100000]) (twoWords 48) 3 ∧ BadAt (.copy2 7 48) (uni [0, 0, 0, 0, 6]) (twoWords 48) 4 ∧
    BadAt (.copy2 7 48) (uni [0, 0, 0, 0, 0x00800000, 256]) (twoWords 48) 5 ∧ BadAt (.copy2 7 48) (uni [0, 0, 0, 0, 4, 2, 0]) (twoWords 48) 6 ∧
    BadAt (.copy2 7 48) (uni [0, 0, 0, 0, 4, 2, 4, 6]) (twoWords 48) 7 ∧
    CopyAt (.copy 7 48) (uni [2, 0, 0, 4]) 7 (oneWords 48) (copyShape · 48) 0 0 ∧ CopyAt (.copy 7 48) (uni [0, 0, 0x11FFFC, 8]) 7 (oneWords 48) (copyShape · 48) 1 0 ∧
    CopyAt (.copy2 7 48) (uni [9, 0x00100000, 0, 0x00200000, 4, 1]) 7 (twoWords 48) (copy2Shape · 48) 2 0 ∧
    CopyAt (.copy 7 48) (chanState [0, 0, 0, 4] ⟨[], 0, some (0x0C, 0, 0), []⟩) 7 (oneWords 48) (copyShape · 48) 3 0 ∧
    CopyAt (.copy 7 48) (chanState [0, 0x00600000, 0, 4] Channel.init true) 7 (oneWords 48) (copyShape · 48) 4 0 ∧
    CopyAt (.copy 7 48) (chanState [0, 0, 0x11FFFC, 4] ⟨[], 0, none, []⟩ true) 7 (oneWords 48) (copyShape · 48) 5 0 ∧
    CopyAt (.copy 7 48) (chanState [0, 0, 0, 4] ⟨List.replicate 7 cmd8, 0, none, []⟩) 7 (oneWords 48) (copyShape · 48) 5 7 ∧
    CopyAt (.copy 7 48) (chanState [0, 0, 0, 4] ⟨List.replicate 8 cmd8, 0, none, []⟩) 7 (oneWords 48) (copyShape · 48) 5 8 ∧
    CopyAt (.copy2 7 48) (chanState [2, 0x00100000, 0, 0x00400000, 4, 2, 4, 4092] Channel.init false
      { fetchPart with cfg := { fetchPart.cfg with layerT := 3 }, layers := [(2, { LEntry.free with live := true })] }) 7 (twoWords 48) (copy2Shape · 48) 5 0 :=
  ⟨met (by decide), met (by decide), met (by decide), met (by decide), met (by decide), met (by decide), met (by decide), met (by decide), met (by decide), met (by decide),
   met (by decide), copyAt (by decide), copyAt (by decide), copyAt (by decide), copyAt (by decide), copyAt (by decide), copyAt (by decide), copyAt (by decide),
   copyAt (by decide), copyAt (by decide)⟩

/-- Channel 7 holds one copy, which has started; another copy whose source page may not be read; the block's pages. -/
def started8 : Channel := ⟨[{ cmd8 with started := true }], 16, none, []⟩
def badCopy : CopyCmd := { cmd8 with src := .mem 0, started := true }
def noRead : Dev :=
  { dev with blocks := [{ blk with chans := setNth blk.chans 7 ⟨[badCopy], 16, none, []⟩ }], tlb := [⟨0, 0, ⟨0, 16, 0, 0, 0, 0, false, true, false⟩⟩] }

/-- The same, where a walk of the page is in flight. -/
def stillWalks : Dev := { noRead with tlb := [], walks := [⟨3, 0, 1, 0, [], false⟩] }

theorem wit_CopyProgress :
    Channel.init.cmds = [] ∧ started8.cmds = { cmd8 with started := true } :: [] ∧
    Met (.wptr 7 3) (chanState [] Channel.init) (fun _ => True) ∧ Met (.wptr 7 3) (chanState [] ⟨[], 0, some (0x0D, 1, 0), []⟩) (fun _ => True) ∧
    Met (.cwait 7 48) (chanState [] ⟨[], 0, some (0x0D, 1, 0), []⟩) (fun v => (nth v.k.chans 7 Channel.init).err = some (0x0D, 1, 0)) ∧
    Met (.cwait 7 48) (chanState [16] started8) (fun v => (nth v.k.chans 7 Channel.init).err = none ∧
      (v.g.uni 48).toNat ≤ (nth v.k.chans 7 Channel.init).pointer % 2 ^ 32) ∧
    Met (.cwait 7 48) (chanState [17] started8) (fun v => (nth v.k.chans 7 Channel.init).err = none ∧
      (nth v.k.chans 7 Channel.init).pointer % 2 ^ 32 < (v.g.uni 48).toNat) ∧
    Met (.crst 7) (chanState [] Channel.init) (fun v => (nth v.k.chans 7 Channel.init).cmds = []) ∧
    Met (.crst 7) (chanState [] started8) (fun v => (nth v.k.chans 7 Channel.init).cmds ≠ []) ∧
    -- a command that may start
    (∃ k, (chanState [] ⟨[cmd8], 0, none, []⟩).dev.blocks[0]? = some k ∧ (nth k.chans 7 Channel.init).cmds = cmd8 :: [] ∧ cmd8.started = false ∧
      cmd8.granted = true ∧ k.pred = none) ∧
    -- a piece between scratch levels, with another undelivered
    (∃ k, (chanState [] started8).dev.blocks[0]? = some k ∧ (nth k.chans 7 Channel.init).cmds = { cmd8 with started := true } :: [] ∧
      cmd8.pieces[0]? = some ⟨0, 0, 4, false, 0⟩ ∧ cmd8.pieces[1]? = some ⟨4, 4, 4, false, 0⟩ ∧ (4 : Nat) % 4 = 0) ∧ (chanState [] started8).dev.parks = [] ∧
    -- a piece whose source may not be read
    (∃ k d, noRead.blocks[0]? = some k ∧ (nth k.chans 7 Channel.init).cmds = badCopy :: [] ∧ badCopy.pieces[1]? = some ⟨4, 4, 4, false, 0⟩ ∧
      copyWords (k.req 0 0 5 noRead) badCopy ⟨4, 4, 4, false, 0⟩ 2 0 noRead = ((0, some (.perm 4)), d) ∧ noRead.copyParked badCopy = false ∧ k.pred = none) ∧
    (∃ k d k1, stillWalks.blocks[0]? = some k ∧ stillWalks.copyParked badCopy = false ∧ (7 : BitVec 3).toNat < k.chans.length ∧
      copyWords (k.req 0 0 5 stillWalks) badCopy ⟨4, 4, 4, false, 0⟩ 2 0 stillWalks = ((0, some .later), d) ∧ d.blocks[0]? = some k1 ∧ k1.chans = k.chans) :=
  ⟨rfl, rfl, met (by decide), met (by decide), met (by decide), met (by decide), met (by decide), met (by decide), met (by decide),
   ⟨_, rfl, rfl, rfl, rfl, rfl⟩, ⟨_, rfl, rfl, rfl, rfl, rfl⟩, rfl, ⟨_, _, rfl, rfl, rfl, rfl, rfl, rfl⟩,
   ⟨_, _, _, rfl, rfl, by decide, rfl, rfl, rfl⟩⟩

/-- v8 and v9 hold an address in every lane; v12 and v13 operands. -/
def fargrp (lo hi : Word) : Group := { grp with v := vec 8 (fun _ => lo) ++ vec 9 (fun _ => hi) ++ vec 12 (fun l => BitVec.ofNat 32 l) }
def farState (lo hi : Word) (repl helper : Bool := false) : State :=
  withK { blk with groups := [{ fargrp lo hi with helper := if helper then BitVec.allOnes 32 else 0 }], lrec := { fetchRecord with flags := if repl then 1 else 0 } }

/-- A far atomic of two lanes on its way to a page that the cluster's TLB holds. -/
def farLanes : List (Nat × Nat × Word × Word) := [(0, 8, 5, 0), (1, 12, 6, 0)]
def farCmd : Cmd := ⟨7, 0, 0, 3, [.v 3], .fatom .addI farLanes []⟩
def rwPage : TlbEntry := ⟨0, 0, ⟨0, 16, 0, 0, 0, 0, true, true, true⟩⟩
def farDev : Dev := { dev with cmds := [farCmd], hbm := [(8, 1)], tlb := [rwPage] }

theorem wit_FarAtomics :
    Met (.fatom .addI 3 8 12) (farState 2 0) (fun v => (v.g.word (v.g.vreg 8) 0).toNat % 4 ≠ 0) ∧
    Met (.fatom .cas 3 8 12) (farState 0 0x00100000) (fun v => (v.g.word (v.g.vreg 8) 0).toNat % 4 = 0 ∧ (v.g.word (v.g.vreg 9) 0).extractLsb' 20 12 ≠ 0#12) ∧
    Met (.fatom .cas 3 8 12) (farState 0xFFFFFFFC 0x000FFFFF true) (fun v => (v.g.word (v.g.vreg 8) 0).toNat % 4 = 0 ∧
      (v.g.word (v.g.vreg 9) 0).extractLsb' 20 12 = 0#12 ∧ v.k.lrec.repl = true) ∧
    Met (.fatom .addF32 3 8 12) (farState 0xFFFFFFFC 0x000FFFFF) (fun v => v.k.lrec.repl = false ∧ v.storing ≠ []) ∧
    Met (.fatom .exch 3 8 12) (farState 4 0 false true) (fun v => v.k.lrec.repl = false ∧ v.storing = []) ∧
    -- a lane that performs
    (let r := blk.req 0 4 (64 * 7 + 1) farDev
     ∃ d1 d2 d3 : Dev, farDev.cmds.find? (fun c => decide (c.op = 7)) = some ⟨7, 0, 0, 3, [.v 3], .fatom .addI farLanes []⟩ ∧
      farLanes.find? (fun z => decide (z.1 = 1)) = some (1, 12, 6, 0) ∧ farDev.blocks[0]? = some blk ∧ blk.pred = none ∧
      (∀ z ∈ farLanes, z.1 < 1 → z.2.1 ≠ 12) ∧ (∀ e ∈ farDev.cmds, e.blk = 0 → e.grp = 0 → e.op < 7 → False) ∧
      farDev.translate r .write 12 = (.ok (.real 12), d1) ∧ d1.physRead (.real 12) r.kind r.part = ((0, 0), d2) ∧
      d2.physWrite (.real 12) (bytesLE (farResult .addI 0 6 0).toNat 4) r.kind r.part = (none, d3)) :=
  ⟨met (by decide), met (by decide), met (by decide), met (by decide), met (by decide), ⟨_, _, _, rfl, rfl, rfl, rfl, by decide, by decide, rfl, rfl, rfl⟩⟩

/-- A partition with 10 permits of die 0; a block with a reserve of 2; a governor with a request in its queue. -/
def permitPart (used : Nat) : Part := { fetchPart with cfg := { fetchPart.cfg with permits := (10, 0) }, permits := (used, 0) }
def permitState (x : Word) : State :=
  runs { dev with parts := [(0, permitPart 2)], blocks := [{ blk with groups := [ugrp [x]], permit := ⟨2, 2, 0, 0⟩ }] }
def copyReq (n : Nat) : PermitReq := ⟨.copy 0 7 5, 0, n⟩
def govState (hot : Bool) (used n : Nat) : State :=
  let k := { blk with chans := setNth blk.chans 7 ⟨[{ cmd8 with granted := false }], 0, none, []⟩ }
  runs { dev with parts := [(0, permitPart used)], blocks := [k], govs := [(0, ⟨[copyReq n], hot⟩)] }

theorem wit_Permits :
    Met (.permit 48) (permitState 65) (fun v => 64 < (v.g.uni 48).toNat) ∧
    Met (.permit 48) (permitState 64) (fun v => v.k.home / 32 = 0 ∧ (v.g.uni 48).toNat ≤ 64 ∧ v.k.permit.n < min (v.g.uni 48).toNat v.part.cfg.permits.1) ∧
    Met (.permit 48) (permitState 2) (fun v => v.k.home / 32 = 0 ∧ min (v.g.uni 48).toNat v.part.cfg.permits.1 ≤ v.k.permit.n) ∧
    Met (.permit 48) (permitState 0) (fun v => v.k.home / 32 = 0 ∧ min (v.g.uni 48).toNat v.part.cfg.permits.1 ≤ v.k.permit.n) ∧
    ((govState true 0 1).dev.gov 0).queue = copyReq 1 :: [] ∧ ((govState true 0 1).dev.gov 0).hot = true ∧
    ((govState false 8 3).dev.gov 0).queue = copyReq 3 :: [] ∧ ((govState false 8 3).dev.part 0).cfg.permits.1 < ((govState false 8 3).dev.part 0).permits.1 + 3 ∧
    ((govState false 8 2).dev.gov 0).queue = copyReq 2 :: [] ∧ ((govState false 8 2).dev.gov 0).hot = false ∧
    ((govState false 8 2).dev.part 0).permits.1 + 2 ≤ ((govState false 8 2).dev.part 0).cfg.permits.1 ∧
    (copyReq 2).who = .copy 0 7 5 ∧ (∃ k, (govState false 8 2).dev.blocks[0]? = some k) ∧ s0.plat.phase = .running ∧ (1 : Nat) < 2 :=
  ⟨met (by decide), met (by decide), met (by decide), met (by decide), rfl, rfl, rfl, by decide, rfl, rfl, by decide, rfl, ⟨_, rfl⟩, rfl, by decide⟩

/-! ### Layer units and tray units -/

/-- Nothing is wrong with the words, in a block that is not replayable or not barred; or in a replayable one. -/
abbrev GoodWords (i : Instr) (s : State) (oks : View → List Bool) (repl : Bool) : Prop :=
  Met i s (fun v => (∀ x ∈ oks v, x = true) ∧ v.k.lrec.repl = repl)

/-- Sound words of LT.NEW and LT.ATT. -/
def newBlock : List Word := [0, 0x1000, 0, 0x2000, 0, 1, 32, 32, 1, 0, 0, 0, 0, 0, 0, 0]
def attBlock : List Word := [0x00200101, 0, 0x1000, 0, 0x2000, 0, 0, 0]
def with2 (l : List Word) (n : Nat) (w : Word) : List Word := setNth l n w

theorem wit_UnitCommands :
    GoodWords (.ltNew 60 48) (uni newBlock) (newWords · 48) false ∧ GoodWords (.ltNew 60 48) (uniR newBlock) (newWords · 48) true ∧
    (∀ x ∈ [(0, (3 : Word)), (1, 8), (2, 0x00100000), (4, 0x00100000), (5, 0), (6, 16), (7, 16), (8, 0), (9, 8), (10, 0x00100000), (11, 1), (12, 1), (13, 1), (14, 1), (15, 1)],
      BadAt (.ltNew 60 48) (uni (with2 newBlock x.1 x.2)) (newWords · 48) x.1) ∧
    GoodWords (.ltAtt true 60 48) (uni attBlock) (attachWords · 48) false ∧ GoodWords (.ltAtt false 60 48) (uniR attBlock) (attachWords · 48) true ∧
    (∀ x ∈ [(0, (0x00200001 : Word)), (0, 0x00202101), (1, 1), (2, 8), (3, 0x00100000), (4, 16), (5, 0x00100000), (6, 1), (7, 1)],
      BadAt (.ltAtt true 60 48) (uni (with2 attBlock x.1 x.2)) (attachWords · 48) x.1) ∧
    (∀ i ∈ [Instr.ltFork 60 48, .ltDet 48 49, .ltQry .gen 60 48, .trayQry .cnt 3 48, .trayClose 48], ∀ s ∈ [s0, uniR []], ∃ v, s.dev.issuer = some v ∧ Ready i v) ∧
    (∀ i ∈ [Instr.trayPush true 3 48 4, .trayPopb false 4 48, .trayPopbSteal true 4 48 49, .trayInsd 3 48 4], ∀ s ∈ [s0, uniR []], ∃ v, s.dev.issuer = some v ∧ Ready i v) ∧
    Met (.ltFold 60 48) (uni [1]) (fun v => (desc v 48 0).extractLsb' 0 4 ≠ 0) ∧ Met (.ltFold 60 48) (uni [0, 0x00100000]) (fun v => highOk (desc v 48 1) = false) ∧
    Met (.ltFold 60 48) (uni [0, 0, 0, 0x00100000]) (fun v => highOk (desc v 48 3) = false) ∧
    Met (.ltFold 60 48) s0 (fun v => (desc v 48 0).extractLsb' 0 4 = 0 ∧ highOk (desc v 48 1) = true ∧ highOk (desc v 48 3) = true) ∧
    Met (.trayPush true 3 48 120) (uni [2]) (fun v => recordFits v 120 (v.g.uni 48) = false) ∧
    Met (.trayPush true 3 48 112) (uni [2]) (fun v => recordFits v 112 (v.g.uni 48) = true) ∧
    Met (.trayPopb true 125 48) (uni [0]) (fun v => recordFits v 125 (v.g.uni 48) = false) ∧
    Met (.trayPopb true 127 48) (uni [3]) (fun v => recordFits v 127 (v.g.uni 48) = true) ∧
    Met (.trayPopbSteal true 121 48 49) (uni [1]) (fun v => recordFits v 121 (v.g.uni 48) = false) ∧
    Met (.trayInsd 3 48 127) (uni [2]) (fun _ => True) := by
  refine ⟨met (by decide), met (by decide), ?_, met (by decide), met (by decide), ?_, ?_, ?_, met (by decide), met (by decide), met (by decide), met (by decide),
    met (by decide), met (by decide), met (by decide), met (by decide), met (by decide), met (by decide)⟩
  · intro x hx; fin_cases hx <;> exact met (by decide)
  · intro x hx; fin_cases hx <;> exact met (by decide)
  · intro i hi s hs; fin_cases hs <;> revert i <;> exact mets (by decide)
  · intro i hi s hs; fin_cases hs <;> revert i <;> exact mets (by decide)

/-- The group waits for its command. -/
def ucmd (i : Instr) (unis : List Word) (waits : Bool := false) : UnitCmd := ⟨7, i, 3, [(0, [9, 1]), (1, [8, 2])], unis, 0, waits⟩
def ug (c : UnitCmd) : Group := { grp with cmd := some c, why := .unit, sel := false }
def uk (c : UnitCmd) : Block := { blk with groups := [ug c] }
def udev (c : UnitCmd) (p : Part) : Dev := { dev with parts := [(0, p)], blocks := [uk c] }
theorem meetsUnit (c : UnitCmd) (p : Part) : MeetsUnit (runs (udev c p)) 0 0 (uk c) (ug c) c := ⟨rfl, rfl, rfl, rfl, rfl⟩

/-- A layer table of two entries, the second as given; one line of 32 elements in base format 0. -/
def lpart (e : LEntry) : Part := { fetchPart with cfg := { fetchPart.cfg with layerT := 2 }, layers := [(1, e)] }
def lent : LEntry := { LEntry.free with live := true, lines := 1, klen := 32, epitch := 32, spitch := 1, base := 0x1000, bscl := 0x2000 }
def lowSlot : Slot := ⟨true, 1, 0, 0, 0x3000, 0x4000⟩
def sparseSlot : Slot := ⟨false, 0, 0, 1, 0x5000, 0⟩
def ldev (e : LEntry) : Dev := udev (ucmd (.ltDet 60 61) [1, 0]) (lpart e)

/-- The entry is live, and holds. -/
abbrev Live (e : LEntry) (c : LEntry → Prop) : Prop :=
  (1 : Nat) < ((ldev e).part 0).cfg.layerT ∧ (entryAt (ldev e) 0 1).live = true ∧ c (entryAt (ldev e) 0 1)

/-- A run of reads over a device, by computation. -/
def after {α : Type} (r : Rd α) (d : Dev) : Dev := (r.run.run d).2
def yieldsB {α : Type} [DecidableEq α] (r : Rd α) (d : Dev) (x : α) : Bool := match (r.run.run d).1 with
  | .ok y => decide (y = x)
  | .error _ => false
theorem yields {α : Type} [DecidableEq α] {r : Rd α} {d : Dev} {x : α} (h : yieldsB r d x = true) : Yields r d x (after r d) := by
  unfold yieldsB at h
  unfold Yields after
  cases hr : r.run.run d with
  | mk y d' => cases y <;> simp_all

/-- A fold of the entry, its page readable or not; the entry's unit runs it. -/
def fold1 : Fold := ⟨0, 1, lent, 0x6000, 0x7000, false, 0⟩
def foldDev (readable : Bool) : Dev :=
  { ldev { lent with fold := 1 } with folds := [fold1], tlb := [⟨0, 0, ⟨0, 16, 0, 0, 0, 0, readable, true, false⟩⟩], hbm := [(0x1000, 3), (0x2000, 127)] }
def foldB (d : Dev) (x : Except Stop Unit) : Bool := match ((runFold (unitReq 0 0 8 1) fold1).run' d).1, x with
  | .ok _, .ok _ => true
  | .error a, .error b => decide (a = b)
  | _, _ => false
theorem foldRuns {d : Dev} {x : Except Stop Unit} (h : foldB d x = true) : ∃ d', (runFold (unitReq 0 0 8 1) fold1).run' d = (x, d') := by
  unfold foldB at h
  cases hr : (runFold (unitReq 0 0 8 1) fold1).run' d with
  | mk y d' => cases y <;> cases x <;> simp_all

theorem shares {a n b m : Nat} (h : shareByte a n b m) : a < b + m ∧ b < a + n := by
  obtain ⟨x, h⟩ := h
  omega

/-- A store, or a load, of the group that waits for its command is on its way. -/
def storing (e : LEntry) : Dev := { ldev e with stores := [⟨6, 6, 0, 0, 0, .core 0 0, [(8, 1)], []⟩] }
def loadsYet (e : LEntry) : Dev := { ldev e with loads := [⟨6, 0, 0, 0, [(0, .core 0 0, 8)], false, .w, [.v 3], [0], [], [], none⟩] }

theorem wit_releases :
    (entryAt (storing lent) 0 1).live = true ∧ (storing lent).released 0 0 true = false ∧ (ldev lent).released 0 0 true = true ∧
    (loadsYet lent).returned 0 0 = false ∧ (ldev lent).returned 0 0 = true ∧
    -- of two folds of one die the older goes first
    ({ foldDev true with folds := [{ fold1 with h := 3 }, fold1] } : Dev).folds.find? (fun x =>
      decide (((foldDev true).part x.part).layerDie x.h = ((foldDev true).part (0 : BitVec 3).toNat).layerDie 1)) = some { fold1 with h := 3 } := by
  decide

theorem wit_LayerEffects :
    (∀ c p, MeetsUnit (runs (udev c p)) 0 0 (uk c) (ug c) c) ∧
    -- the lowest free entry, and a full table
    ((∀ m < 0, (entryAt (ldev lent) 0 m).live = true) ∧ (entryAt (ldev lent) 0 0).live = false) ∧
    (∀ m < ((udev (ucmd (.ltNew 3 48) newBlock) { lpart lent with layers := [(0, lent), (1, lent)] }).part 0).cfg.layerT,
      (entryAt (udev (ucmd (.ltNew 3 48) newBlock) { lpart lent with layers := [(0, lent), (1, lent)] }) 0 m).live = true) ∧
    -- handles past the table, free and live
    (¬ (2 : Nat) < ((ldev lent).part 0).cfg.layerT) ∧ (entryAt (ldev LEntry.free) 0 1).live = false ∧ Live lent (fun _ => True) ∧
    -- LT.ATT
    Live { lent with slots := List.replicate 7 lowSlot } (fun e => e.slots.length < 8) ∧
    Live { lent with slots := List.replicate 8 lowSlot, fold := 1 } (fun e => 8 ≤ e.slots.length ∧ e.fold = 1) ∧
    (Live { lent with slots := List.replicate 8 lowSlot, fold := 2 } (fun e => 8 ≤ e.slots.length ∧ e.fold = 2) ∧ (ucmd (.ltAtt true 60 48) [1] true).waits = true) ∧
    Live { lent with slots := List.replicate 8 lowSlot } (fun e => 8 ≤ e.slots.length ∧ e.fold ≠ 1 ∧ ¬ (e.fold = 2) ∧ e.spare = 0) ∧
    Live { lent with slots := List.replicate 8 lowSlot, spare := 16 } (fun e => 8 ≤ e.slots.length ∧ e.fold ≠ 1 ∧ ¬ (e.fold = 2) ∧ e.spare ≠ 0) ∧
    Live { lent with slots := List.replicate 8 lowSlot, spare := 0x101F, spscl := 0x6000 } (fun e => bufferMeets e e.spare e.spscl) ∧
    Live { lent with slots := List.replicate 8 lowSlot, spare := 0x1020, spscl := 0x6000 } (fun e => ¬ bufferMeets e e.spare e.spscl) ∧
    -- LT.DET
    Live { lent with slots := [lowSlot] } (fun e => (1 : Word) ≠ 0xFFFFFFFF ∧ e.slots.length ≤ (1 : Word).toNat) ∧
    Live { lent with slots := [lowSlot] } (fun e => (0 : Word) ≠ 0xFFFFFFFF ∧ (0 : Word).toNat < e.slots.length ∧ e.fold ≠ 1) ∧
    Live { lent with slots := [lowSlot], fold := 1 } (fun e => (0 : Word).toNat < e.slots.length ∧ e.fold = 1) ∧
    -- LT.FOLD: a buffer that starts in the last byte of the base, one just past it
    Live lent (fun e => (e.bfmt < 3 ∧ e.klen % 32 = 0 ∧ 32 ≤ e.klen ∧ 1 ≤ e.lines) ∧ bufferMeets e 0x101F 0x6000 ∧ ¬ bufferMeets e 0x1020 0x6000 ∧ e.fold ≠ 1) ∧
    Live { lent with fold := 1 } (fun e => (e.bfmt < 3 ∧ e.klen % 32 = 0 ∧ 32 ≤ e.klen ∧ 1 ≤ e.lines) ∧ ¬ bufferMeets e 0x1020 0x6000 ∧ e.fold = 1) ∧
    -- a fold that ends and one that fails
    (runs (foldDev true)).plat.phase = .running ∧
    (foldDev true).folds.find? (fun x => decide (((foldDev true).part x.part).layerDie x.h = ((foldDev true).part (0 : BitVec 3).toNat).layerDie 1)) = some fold1 ∧
    (∃ d, (runFold (unitReq 0 0 8 1) fold1).run' (foldDev true) = (.ok (), d)) ∧ (entryAt (foldDev true) 0 1).live = true ∧
    (∃ d, (runFold (unitReq 0 0 8 1) fold1).run' (foldDev false) = (.error (.perm 0x1000), d)) := by
  refine ⟨meetsUnit, by decide, by decide, by decide, rfl, by decide, by decide, by decide, by decide, by decide, by decide,
    ⟨by decide, rfl, .inl ⟨0x101F, by decide⟩⟩, ⟨by decide, rfl, ?_⟩, by decide, by decide, by decide,
    ⟨by decide, rfl, by decide, .inl ⟨0x101F, by decide⟩, ?_, by decide⟩, ⟨by decide, rfl, by decide, ?_, by decide⟩, rfl, rfl, foldRuns (by decide +kernel), rfl,
    foldRuns (by decide +kernel)⟩ <;>
  · rintro (h | h | h | h) <;> exact absurd (shares h) (by decide)

/-- A view with a low-rank and a sparse layer, over a page of a cluster's TLB. -/
def vent : LEntry := { lent with slots := [lowSlot, sparseSlot] }
def vsrc : ViewSrc := ⟨vent, [([], 0), ([(0, 31, 5)], 0)]⟩
def vdev : Dev :=
  { ldev vent with
    tlb := [⟨0, 0, ⟨0, 16, 0, 0, 0, 0, true, true, false⟩⟩],
    hbm := [(0x101F, 100), (0x2000, 127), (0x3000, 64), (0x3020, 127), (0x43E0, 64), (0x441F, 127)] }
def vreq : Req := unitReq 0 0 8 1

/-- A sparse entry after one of line 0, k 30, and the same once more; the tensor has one line of 32. -/
def sparseDev (w : Byte) : Dev := { vdev with hbm := [(0x500B, 30), (0x5013, w)] }

theorem wit_sparse :
    (∀ w ∈ [(31 : Byte), 30], ∃ d1 d2, Yields (sparseRead vreq 1 vent 0x5008 1) (sparseDev w) ([(0, 30, 0)], 0) d1 ∧
      Yields (rdNum vreq (0x5008 + 8 * 1) 8) d1 (w.toNat * 2 ^ 24, 0) d2 ∧ (entryAt d2 vreq.part 1).live = true) ∧
    (∀ x, ([((0, 30, 0) : SparseEntry)]).head? = some x → x.1 < 0 ∨ (x.1 = 0 ∧ x.2.1 < 31)) ∧
    ¬ (∀ x, ([((0, 30, 0) : SparseEntry)]).head? = some x → x.1 < 0 ∨ (x.1 = 0 ∧ x.2.1 < 30)) := by
  refine ⟨fun w hw => ?_, by simp, by simp⟩
  fin_cases hw <;> exact ⟨_, _, yields (by decide +kernel), yields (by decide +kernel), by decide +kernel⟩

theorem wit_LayerViews :
    -- a low-rank layer whose sum is 64 * 64, clipped nowhere
    (let d1 := after (rdBytes vreq (0x3000 + 32 * 0) 1) vdev
     let d2 := after (rdBytes vreq (0x4000 + 32 * 31) 1) d1
     let d3 := after (rdByte vreq (0x3000 + 32 * 1 + 0)) d2
     Yields (rdBytes vreq (lowSlot.addr + 32 * 0) lowSlot.rank) vdev [(64, 0)] d1 ∧ Yields (rdBytes vreq (lowSlot.aux + 32 * 31) lowSlot.rank) d1 [(64, 0)] d2 ∧
     Yields (rdByte vreq (lowSlot.addr + 32 * vent.lines + 0)) d2 (127, 0) d3 ∧
     Yields (rdByte vreq (lowSlot.aux + 32 * vent.klen + 31)) d3 (127, 0) (after (rdByte vreq (0x4000 + 32 * 32 + 31)) d3)) ∧
    -- an element with both layers
    (let d1 := after (baseElem vreq vent 0 31) vdev
     let d2 := after (baseScale vreq vent 0 (31 / 32)) d1
     let d3 := after (lowRank vreq vent lowSlot 127 0 31) d2
     Yields (baseElem vreq vsrc.e 0 31) vdev (100, 0) d1 ∧ Yields (baseScale vreq vsrc.e 0 (31 / 32)) d1 (127, 0) d2 ∧
     Yields (lowRank vreq vsrc.e lowSlot (127 : Byte).toNat 0 31) d2 (4096, false, 0) d3 ∧
     ((([(0, 31, 5)] : List SparseEntry).find? (fun t => decide (t.1 = 0 ∧ t.2.1 = 31))).map (·.2.2)).getD 0 = 5 ∧
     [((4096 : Int), false), (5, false)].length = vsrc.e.slots.length ∧ vsrc.sparse.length = vsrc.e.slots.length) ∧
    -- an element of the view, clipped
    (0 < vsrc.e.lines ∧ 31 < vsrc.e.klen ∧ ∃ d', Yields (viewElem vreq vsrc 0 31) vdev (127, true, 0) d') ∧
    -- past the elements: the gap, the scales and past them
    (vsrc.e.lines * ((if vsrc.e.vfmt = 0 then 1 else 2) * vsrc.e.klen) ≤ 32 ∧ 255 < (vsrc.e.lines * (1 * vsrc.e.klen) + 255) / 256 * 256) ∧
    (0 < vsrc.e.lines ∧ 0 < vsrc.e.klen / 32 ∧ 256 = (vsrc.e.lines * (1 * vsrc.e.klen) + 255) / 256 * 256 + 0 * (vsrc.e.klen / 32) + 0 ∧
      ∃ d', Yields (viewScale vreq vsrc 0 0) vdev (127, 0) d') ∧
    (vsrc.e.lines * (1 * vsrc.e.klen) + 255) / 256 * 256 + vsrc.e.lines * (vsrc.e.klen / 32) ≤ 257 :=
  ⟨⟨yields (by decide +kernel), yields (by decide +kernel), yields (by decide +kernel), yields (by decide +kernel)⟩,
   ⟨yields (by decide +kernel), yields (by decide +kernel), yields (by decide +kernel), by decide, rfl, rfl⟩,
   ⟨by decide, by decide, _, yields (by decide +kernel)⟩, by decide, ⟨by decide, by decide, by decide, _, yields (by decide +kernel)⟩, by decide⟩

/-- A tray at handle 128 of records of 4 words; with its spill ring. -/
def tray0 : Tray :=
  { handle := 128, rs := 0, dedup := true, drem := false, nprod := 2, xto := 1, cap := 32, spcap := 4, spill := 0x8000, dset := 1024, dcap := 32,
    recs := [], keys := [], pushed := 0, popped := 0, spilled := 0, dups := 0, closes := 0, waitPush := [], waitPop := [], writes := [],
    bound := none, timer := none, batchNo := 0, harm := 0 }
def rec0 : Rec := ⟨[(1, 0), (2, 0), (3, 0), (4, 0)], none, none⟩
/-- Another tray, at handle 256. -/
def tray1 : Tray := { tray0 with handle := 256, recs := [rec0, rec0, rec0] }
def tpart (ts : List Tray) (chip : Memory := []) : Part := { fetchPart with cfg := { fetchPart.cfg with pool := 1024 }, chip := chip, trays := ts }
/-- A tray instruction at its home unit, for the handle, with tray `t` there or not. -/
def tcmd (i : Instr) (h : Word := 128) : UnitCmd := ucmd i [h, 256]
abbrev AtTray (i : Instr) (h : Word) (p : Part) : Prop :=
  MeetsUnit (runs (udev (tcmd i h) p)) 0 0 (uk (tcmd i h)) (ug (tcmd i h)) (tcmd i h) ∧ isTray i = true ∧ (tcmd i h).waits = false ∧
    (udev (tcmd i h) p).released 0 0 true = true
abbrev Holds (i : Instr) (t : Tray) (c : Tray → Prop) : Prop := AtTray i 128 (tpart [t]) ∧ HoldsTray (udev (tcmd i) (tpart [t])) 0 128 t ∧ c t

theorem atTray {i : Instr} {h : Word} {p : Part} (hi : isTray i = true) : AtTray i h p := ⟨meetsUnit _ _, hi, rfl, rfl⟩
theorem holds {i : Instr} {t : Tray} {c : Tray → Prop} (hi : isTray i = true) (ht : sameTray 128 t = true) (hr : t.rs = 0) (hc : c t) : Holds i t c :=
  ⟨atTray hi, ⟨⟨rfl, by decide, show (128 : Nat) / 128 * 128 + 128 ≤ 4096 * 1 by decide⟩, by
    show List.find? (sameTray 128) [t] = some t
    simp only [List.find?, ht], hr⟩, hc⟩

/-- A descriptor of 32 records in the pool and 4 in the spill ring, with deduplication, in state 1; one with NPROD 0; one that is done. -/
def desc0 (st np : Byte) : Memory :=
  [(128, st), (130, 1), (132, np), (136, 32), (140, 4), (145, 128), (153, 4), (156, 32)]
abbrev DescByte (m : Memory) (a : Nat) : Nat := (Memory.read m (128 + a)).toNat
abbrev DescNum (m : Memory) (a n : Nat) : Nat := Memory.readLE m (128 + a) n

theorem wit_TrayEffects :
    -- no tray there
    (AtTray (.trayClose 48) 4 (tpart []) ∧ ¬ ((4 : Word).extractLsb' 2 5 = 0)) ∧
    (AtTray (.trayClose 48) 0x1000 (tpart []) ∧ ¬ ((0x1000 : Word).toNat / 128 * 128 + 128 ≤ 4096 * 1)) ∧
    (AtTray (.trayClose 48) 128 (tpart [tray1]) ∧ handleSound (udev (tcmd (.trayClose 48)) (tpart [tray1])) 0 128 ∧
      (tpart [tray1]).trays.find? (sameTray 128) = none ∧ DescByte [] 0 ≠ 1 ∧ DescByte [] 0 ≠ 4) ∧
    (DescByte (desc0 4 1) 0 = 4 ∧ DescByte (desc0 1 1) 0 = 1 ∧ DescByte (desc0 1 1) 1 = ((128 : Word).extractLsb' 0 2).toNat ∧
      DescByte (desc0 1 1) 1 ≠ ((129 : Word).extractLsb' 0 2).toNat) ∧
    ((tpart [tray0]).trays.find? (sameTray 129) = some tray0 ∧ tray0.rs ≠ ((129 : Word).extractLsb' 0 2).toNat) ∧
    -- opening: sound, unsound, and a pool that is short
    (AtTray (.trayQry .cnt 3 48) 128 (tpart [] (desc0 1 1)) ∧
      (DescByte (desc0 1 1) 2 < 4 ∧ DescByte (desc0 1 1) 3 = 0 ∧ 1 ≤ DescNum (desc0 1 1) 4 2 ∧ 32 ≤ DescNum (desc0 1 1) 8 4 ∧ DescNum (desc0 1 1) 8 4 ≤ 2 ^ 20 ∧
        DescNum (desc0 1 1) 0xC 4 ≤ 2 ^ 28 ∧ DescNum (desc0 1 1) 0x10 8 % 64 = 0 ∧ DescByte (desc0 1 1) 2 % 2 = 1 ∧
        DescNum (desc0 1 1) 0x18 4 % 128 = 0 ∧ DescNum (desc0 1 1) 0x1C 4 = 2 ^ 5 ∧ DescNum (desc0 1 1) 0x18 4 + 8 * DescNum (desc0 1 1) 0x1C 4 ≤ 4096 * 1 ∧
        ∀ i < 80, DescByte (desc0 1 1) (0x30 + i) = 0) ∧
      ¬ (1 ≤ DescNum (desc0 1 0) 4 2) ∧ (tpart []).poolUsed + 32 * (4 * recordWords 128) ≤ (tpart []).cfg.pool ∧
      (tpart []).cfg.pool < ({ tpart [] with poolUsed := 513 } : Part).poolUsed + 32 * (4 * recordWords 128)) ∧
    -- TRAY.PUSH: closed; room for two records at the very end; none; a group that waits before
    Holds (.trayPush false 3 48 4) { tray0 with closes := 2 } (fun t => t.bound = none ∧ t.nprod ≤ t.closes) ∧
    Holds (.trayPush false 3 48 4) { tray0 with recs := List.replicate 34 rec0 } (fun t => t.bound = none ∧ t.closes < t.nprod ∧ t.waitPush = [] ∧
      t.recs.length + (lanesOf ((tcmd (.trayPush false 3 48 4)).act &&& ~~~(ug (tcmd (.trayPush false 3 48 4))).helper)).length ≤ t.cap + t.spcap) ∧
    Holds (.trayPush false 3 48 4) { tray0 with recs := List.replicate 35 rec0 } (fun t => t.closes < t.nprod ∧ t.recs.length ≤ t.cap + t.spcap ∧
      t.cap + t.spcap < t.recs.length + 2 ∧ ∀ x ∈ t.waitPush, ¬ (x.blk = 0 ∧ x.grp = 0)) ∧
    Holds (.trayPush false 3 48 4) { tray0 with waitPush := [⟨1, 0, 0⟩] } (fun t => t.recs.length ≤ t.cap + t.spcap ∧ t.waitPush ≠ [] ∧
      ∀ x ∈ t.waitPush, ¬ (x.blk = 0 ∧ x.grp = 0)) ∧
    Holds (.trayPush true 3 48 4) { tray0 with recs := List.replicate 36 rec0 } (fun t => t.bound = none ∧ t.closes < t.nprod) ∧
    -- TRAY.INSD
    Holds (.trayInsd 3 48 4) { tray0 with closes := 2 } (fun t => t.nprod ≤ t.closes) ∧
    Holds (.trayInsd 3 48 4) { tray0 with dedup := false } (fun t => t.closes < t.nprod ∧ t.dedup = false) ∧
    Holds (.trayInsd 3 48 4) { tray0 with keys := [9] } (fun t => t.closes < t.nprod ∧ t.dedup = true ∧ t.harm = 0 ∧ t.waitPush = [] ∧ t.recs.length + 2 ≤ t.cap + t.spcap) ∧
    -- TRAY.POPB
    Holds (.trayPopb false 4 48) { tray0 with bound := some 0 } (fun t => t.bound.isSome = true) ∧
    Holds (.trayPopb false 4 48) { tray0 with recs := [rec0] } (fun t => t.recs ≠ [] ∧ t.waitPop = [] ∧ t.closes < t.nprod) ∧
    Holds (.trayPopb true 4 48) { tray0 with recs := [rec0, rec0, rec0], closes := 2, waitPop := [⟨1, 0, 0⟩] } (fun t => t.bound = none ∧ t.recs ≠ [] ∧ t.waitPop ≠ [] ∧ t.recs.drop 2 ≠ []) ∧
    Holds (.trayPopb true 4 48) { tray0 with recs := [rec0, rec0], closes := 2 } (fun t => t.recs ≠ [] ∧ t.nprod ≤ t.closes ∧ t.recs.drop 2 = [] ∧ t.writes = []) ∧
    Holds (.trayPopb true 4 48) tray0 (fun t => t.bound = none ∧ t.recs = []) ∧
    Holds (.trayPopb false 4 48) tray0 (fun t => t.recs = [] ∧ ∀ x ∈ t.waitPop, ¬ (x.blk = 0 ∧ x.grp = 0)) ∧
    Holds (.trayPopb false 4 48) { tray0 with recs := [rec0], waitPop := [⟨1, 0, 0⟩] } (fun t => t.recs ≠ [] ∧ t.waitPop ≠ [] ∧ ∀ x ∈ t.waitPop, ¬ (x.blk = 0 ∧ x.grp = 0)) ∧
    (AtTray (.trayPopb false 4 48) 128 (tpart [] (desc0 4 1)) ∧ (tpart [] (desc0 4 1)).trays.find? (sameTray 128) = none) ∧
    -- TRAY.POPB.STEAL from a handle that is not sound; from a tray with three records, for two lanes; from one of another size, and from a bound one
    (let c := ucmd (.trayPopbSteal false 4 48 49) [128, 260]
     let d := udev c (tpart [tray0])
     MeetsUnit (runs d) 0 0 (uk c) (ug c) c ∧ c.waits = false ∧ d.released 0 0 true = true ∧ HoldsTray d 0 128 tray0 ∧ c.unis.getD 1 0 = 260 ∧
     (260 : Word) ≠ 128 ∧ ¬ handleSound d 0 260) ∧
    (AtTray (.trayPopbSteal true 4 48 49) 128 (tpart [tray0, tray1]) ∧ HoldsTray (udev (tcmd (.trayPopbSteal true 4 48 49)) (tpart [tray0, tray1])) 0 128 tray0 ∧
      HoldsTray (udev (tcmd (.trayPopbSteal true 4 48 49)) (tpart [tray0, tray1])) 0 256 tray1 ∧ (tcmd (.trayPopbSteal true 4 48 49)).unis.getD 1 0 = 256 ∧
      tray0.recs = [] ∧ tray1.waitPop = [] ∧ tray1.recs ≠ [] ∧ sameTray 128 tray1 = false ∧ tray1.rs = tray0.rs ∧ tray1.closes < tray1.nprod ∧
      ({ tray1 with rs := 1, handle := 257 } : Tray).rs ≠ tray0.rs ∧ ({ tray1 with bound := some 0 } : Tray).bound.isSome = true) ∧
    -- TRAY.QRY, TRAY.CLOSE
    Holds (.trayQry .free 3 48) tray0 (fun _ => True) ∧
    Holds (.trayClose 48) { tray0 with closes := 2 } (fun t => t.nprod ≤ t.closes) ∧ Holds (.trayClose 48) tray0 (fun t => t.closes + 1 < t.nprod) ∧
    Holds (.trayClose 48) { tray0 with closes := 1, recs := [rec0] } (fun t => t.closes + 1 = t.nprod ∧ t.recs ≠ [] ∧ t.waitPush = []) ∧
    Holds (.trayClose 48) { tray0 with closes := 1 } (fun t => t.closes + 1 = t.nprod ∧ t.recs = [] ∧ t.writes = []) := by
  have hs (d : Dev) (h : d.part 0 = tpart [tray1] ∨ d.part 0 = tpart [tray0, tray1]) (x : Word) (hx : x = 128 ∨ x = 256) : handleSound d 0 x := by
    refine ⟨?_, ?_, ?_⟩ <;> rcases hx with rfl | rfl <;> first | decide | (rcases h with h | h <;> rw [h] <;> decide)
  exact ⟨⟨atTray rfl, by decide⟩, ⟨atTray rfl, by decide⟩, ⟨atTray rfl, hs _ (.inl rfl) _ (.inl rfl), rfl, by decide, by decide⟩, by decide, ⟨rfl, by decide⟩,
    ⟨atTray rfl, by decide, by decide, by decide, by decide⟩,
    holds rfl rfl rfl (by decide), holds rfl rfl rfl (by decide), holds rfl rfl rfl (by decide), holds rfl rfl rfl (by decide), holds rfl rfl rfl (by decide),
    holds rfl rfl rfl (by decide), holds rfl rfl rfl (by decide), holds rfl rfl rfl (by decide), holds rfl rfl rfl (by decide), holds rfl rfl rfl (by decide),
    holds rfl rfl rfl (by decide), holds rfl rfl rfl (by decide), holds rfl rfl rfl (by decide), holds rfl rfl rfl (by decide), holds rfl rfl rfl (by decide),
    ⟨atTray rfl, rfl⟩,
    ⟨meetsUnit _ _, rfl, rfl, ⟨⟨rfl, by decide, show (128 : Nat) / 128 * 128 + 128 ≤ 4096 * 1 by decide⟩, rfl, rfl⟩, rfl, by decide,
      fun h => absurd h.1 (by decide)⟩,
    ⟨atTray rfl, ⟨hs _ (.inr rfl) _ (.inl rfl), rfl, rfl⟩, ⟨hs _ (.inr rfl) _ (.inr rfl), rfl, rfl⟩, by decide⟩,
    holds rfl rfl rfl trivial, holds rfl rfl rfl (by decide), holds rfl rfl rfl (by decide), holds rfl rfl rfl (by decide), holds rfl rfl rfl (by decide)⟩

/-- A group that waits at its tray, and a record on its way to the spill ring. -/
def wtray (t : Tray) (i : Instr) : Dev := udev (ucmd i [128] true) (tpart [t])
def spillTray : Tray := { tray0 with recs := [{ rec0 with spillNo := some 5 }], writes := [⟨5, [(1, 0), (2, 0), (3, 0), (4, 0)], 0⟩], spilled := 6 }
def spillDev (w : Bool) : Dev := { wtray spillTray (.trayClose 48) with tlb := [⟨0, 0, ⟨0, 16, 0, 0, 0, 0, true, w, false⟩⟩] }
/-- The record's place in the ring: 32768 plus 16 bytes for each place before its. -/
def spillLate : LateSpill := ⟨128, 0x8000 + 16, ⟨5, [(1, 0), (2, 0), (3, 0), (4, 0)], 0⟩⟩
/-- The same write after its tray is done. -/
def lateDev : Dev := { spillDev true with parts := [(0, { tpart [] with late := [spillLate] })] }
def spillB (d : Dev) (x : Option Nat) : Bool := match d.spillWrite 0 spillLate with
  | (.ok, e) => decide (x = none ∧ (e.part 0).trays = (d.part 0).trays)
  | (.fails o perm, e) => decide (x = some o ∧ perm = true ∧ (e.part 0).trays = (d.part 0).trays)
  | _ => false
/-- A launch with a node batch time of 1, and its tray. -/
def nodeLaunch : Launch := { fetchLaunch with lrec := { fetchRecord with ntime := 1 } }
def nodeDev : Dev := { wtray { tray0 with recs := [rec0], timer := some 0, bound := some 0 } (.trayClose 48) with launches := [nodeLaunch], cycle := 256 }
/-- A merge-path command over a row-pointer list of two rows in core scratch. -/
def mpathDev : Dev := { dev with cmds := [⟨7, 0, 0, 3, [.v 4, .v 5], .mpath (.scratch (.core 0 0) 0) 2 4 [(0, 0), (1, 3)]⟩],
                                 blocks := [{ blk with core := [[(0, 1), (4, 3), (8, 6)]] }] }
/-- MPATH's words. -/
def mpathWords (v : View) : List Bool :=
  let w := desc v 48
  let kind := ((w 1).extractLsb' 20 4).toNat
  [true, decide ((w 1).extractLsb' 24 8 = 0 ∧ (kind = 0 ∨ (2 ≤ kind ∧ kind ≤ 4 ∧ (w 1).extractLsb' 0 20 = 0))),
   decide (1 ≤ (w 2).toNat ∧ (w 2).toNat ≤ 2 ^ 28), decide (1 ≤ (w 3).toNat ∧ (w 3).toNat ≤ 2 ^ 24)]

theorem wit_TrayWaiting :
    -- the oldest waiting push: room, no room
    (let t : Tray := { tray0 with waitPush := [⟨0, 0, 0⟩] }
     let c := ucmd (.trayPush false 3 48 4) [128] true
     HoldsTray (udev c (tpart [t])) 0 128 t ∧ MeetsUnit (runs (udev c (tpart [t]))) 0 0 (uk c) (ug c) c ∧ (uk c).part = (0 : BitVec 3).toNat ∧ c.unis.getD 0 0 = 128 ∧
     t.closes < t.nprod ∧ (udev c (tpart [t])).released 0 0 true = true ∧ t.recs.length + 2 ≤ t.cap + t.spcap ∧
     (List.replicate 35 rec0).length ≤ t.cap + t.spcap ∧ t.cap + t.spcap < (List.replicate 35 rec0).length + 2) ∧
    -- the oldest waiting pop
    (let t : Tray := { tray0 with waitPop := [⟨0, 0, 0⟩], recs := [rec0], closes := 1 }
     let c := ucmd (.trayPopb false 4 48) [128] true
     HoldsTray (udev c (tpart [t])) 0 128 t ∧ MeetsUnit (runs (udev c (tpart [t]))) 0 0 (uk c) (ug c) c ∧ t.bound = none ∧ t.recs ≠ [] ∧ (udev c (tpart [t])).returned 0 0 = true ∧ t.closes < t.nprod) ∧
    -- a push past XTO
    (let t : Tray := { tray0 with waitPush := [⟨0, 0, 0⟩] }
     let d : Dev := { wtray t (.trayPush false 3 48 4) with cycle := 4096 }
     (d.part 0).trays.find? (sameTray 128) = some t ∧ t.waitPush.find? (fun x => decide (x.blk = 0 ∧ x.grp = 0)) = some ⟨0, 0, 0⟩ ∧
     d.group 0 0 = some (ug (ucmd (.trayPush false 3 48 4) [128] true)) ∧ t.xto ≠ 0 ∧ 0 + 4096 * t.xto ≤ d.cycle) ∧
    -- a spill write that is done, and one that its page refuses
    (∀ w, ((spillDev w).part 0).trays.find? (sameTray 128) = some spillTray) ∧
    (spillTray.writes.find? (fun w => decide (w.no % spillTray.spcap = 5 % spillTray.spcap))).map (·.no) = some 5 ∧
    ((spillDev true).part 0).late = [] ∧ spillTray.rs = (spillTray.handle.extractLsb' 0 2).toNat ∧
    spillB (spillDev true) none = true ∧ spillB (spillDev false) (some 0) = true ∧
    -- a spill write of a tray that is done
    ((lateDev.part 0).late.find? (fun y => decide (y.handle.toNat / 128 = (128 : Word).toNat / 128 ∧ y.write.no = 5)) = some spillLate ∧
      (lateDev.part 0).late.find? (fun y => decide (y.addr = spillLate.addr)) = some spillLate) ∧
    -- a batch timer that is over
    ((nodeDev.part 0).trays.find? (sameTray 128) = some { tray0 with recs := [rec0], timer := some 0, bound := some 0 } ∧ nodeDev.launches[0]? = some nodeLaunch ∧
      0 + 256 * nodeLaunch.lrec.ntime ≤ nodeDev.cycle) ∧
    -- MPATH's words, its alignment, its range, and its answer
    BadAt (.mpath 4 48 6) (uni [0, 0x00100000, 1, 1]) mpathWords 1 ∧ BadAt (.mpath 4 48 6) (uni [0, 0x00200001, 1, 1]) mpathWords 1 ∧
    BadAt (.mpath 4 48 6) (uni [0, 0, 0, 1]) mpathWords 2 ∧ BadAt (.mpath 4 48 6) (uni [0, 0, 1, 0x01000001]) mpathWords 3 ∧
    Met (.mpath 4 48 6) (uni [2, 0, 1, 1]) (fun v => (∀ x ∈ mpathWords v, x = true) ∧ (desc v 48 0).toNat % 4 ≠ 0) ∧
    Met (.mpath 4 48 6) (uni [0x11FFFC, 0x00200000, 1, 1]) (fun v => (∀ x ∈ mpathWords v, x = true) ∧ (desc v 48 0).toNat % 4 = 0 ∧
      ¬ placeFits v (scratchPlace v 0 (desc v 48 0).toNat) (4 * ((desc v 48 2).toNat + 1))) ∧
    Met (.mpath 4 48 6) (uni [0x11FFF8, 0x00200000, 1, 1]) (fun v => (∀ x ∈ mpathWords v, x = true) ∧ (desc v 48 0).toNat % 4 = 0 ∧
      placeFits v (scratchPlace v 0 (desc v 48 0).toNat) (4 * ((desc v 48 2).toNat + 1))) ∧
    (mpathDev.blocks[0]? = some { blk with core := [[(0, 1), (4, 3), (8, 6)]] } ∧ blk.pred = none ∧ mpathDev.parks = [] ∧
      (∀ i ≤ 2, (mpathDev.homeWord (.core 0 0) (0 + 4 * i)).2 = 0)) :=
  have hs (d : Dev) (h : (d.part 0).cfg.chipShare * (d.part 0).cfg.slices.length = 4096) : handleSound d 0 128 := ⟨rfl, by decide, by rw [h]; decide⟩
  ⟨⟨⟨hs _ rfl, rfl, rfl⟩, meetsUnit _ _, rfl, rfl, by decide, rfl, by decide, by decide, by decide⟩,
   ⟨⟨hs _ rfl, rfl, rfl⟩, meetsUnit _ _, rfl, by decide, rfl, by decide⟩,
   ⟨rfl, rfl, rfl, by decide, by decide⟩, fun w => by cases w <;> rfl, rfl, rfl, rfl, by decide +kernel, by decide +kernel, ⟨rfl, rfl⟩, ⟨rfl, rfl, by decide⟩,
   met (by decide), met (by decide), met (by decide), met (by decide), met (by decide),
   metAs (fun v => (∀ x ∈ mpathWords v, x = true) ∧ (desc v 48 0).toNat % 4 = 0 ∧ fitsB v (scratchPlace v 0 (desc v 48 0).toNat) (4 * ((desc v 48 2).toNat + 1)) = false)
     (by decide) (fun v h => ⟨h.1, h.2.1, fun hf => absurd ((fitsB_iff ..).mp hf) (by rw [h.2.2]; decide)⟩),
   metAs (fun v => (∀ x ∈ mpathWords v, x = true) ∧ (desc v 48 0).toNat % 4 = 0 ∧ fitsB v (scratchPlace v 0 (desc v 48 0).toNat) (4 * ((desc v 48 2).toNat + 1)) = true)
     (by decide) (fun v h => ⟨h.1, h.2.1, (fitsB_iff ..).mpr h.2.2⟩),
   rfl, rfl, rfl, by decide⟩
/-! ### Passes and tiles -/

/-- A 64 tile that the block owns as a0, and its instructions' group. -/
def tile0 : Tile := ⟨0, 0, 2, 0, [], [], 0, 0, 0, 0, [], false⟩
def mblk (ws : List Word) : Block := { blk with groups := [ugrp ws], tiles := setNth blk.tiles 0 (some 0) }
def mdev (k : Block) : Dev := { dev with blocks := [k], tiles := [tile0] }
def mstate (ws : List Word) : State := runs (mdev (mblk ws))
/-- The same in a replayable block; with a live handle 1. -/
def mstateR (ws : List Word) : State := runs (mdev { mblk ws with lrec := { fetchRecord with flags := 1 } })

/-- A template: dense, 32 elements of QS8, shape 64, tile a0, maps 0 and 1; s64 on hold a group mask. -/
def tplWords : List Word := [0x00011002, 0, 0, 0, 0, 0, 0, 0]
def mapC (d0 : Nat) : OpMap := .core 0 d0 0x4000 32 1 none
def declK (ws : List Word) (m : Word) (a b : OpMap) (r : SignReg) : Block :=
  { mblk ws with groups := [{ ugrp ws with s := (ugrp ws).s ++ [(64, m)] }], maps := setNth (setNth blk.maps 0 a) 1 b, sign := setNth blk.sign 0 r }
def decl (ws : List Word) (m : Word) (a b : OpMap) (r : SignReg) (core : Memory := []) : State := runs (mdev { declK ws m a b r with core := [core] })

/-- `mapServes`, `mapLive` and `mapFits` by computation. -/
def servesB (v : View) (t : Template) (m : OpMap) : Bool :=
  match m with
  | .idle => false
  | .core _ _ _ _ _ bm => decide (t.kind = 1 → bm.isSome = true)
  | .clu _ _ _ _ bm => decide (t.kind = 1 → bm.isSome = true)
  | .hnd h => decide (t.kind ≠ 1 ∧ t.fmt ≠ 1) && (match v.handle h.toNat with
    | some e => decide ((t.fmt = 0 ∧ e.vfmt = 0) ∨ (t.fmt = 2 ∧ e.vfmt = 1))
    | none => true)
theorem servesB_iff (v : View) (t : Template) (m : OpMap) : mapServes v t m ↔ servesB v t m = true := by
  unfold mapServes servesB
  split
  · simp
  · simp only [decide_eq_true_eq]
  · simp only [decide_eq_true_eq]
  · rename_i h
    cases hh : v.handle h.toNat <;> simp [hh, and_assoc]

def liveB (v : View) (t : Template) (m : OpMap) (row n k0 : Nat) : Bool :=
  match m with
  | .hnd h => (match v.handle h.toNat with
    | some e => decide (row + n ≤ e.lines ∧ 32 * k0 + t.klen ≤ e.klen)
    | none => false)
  | _ => true
theorem liveB_iff (v : View) (t : Template) (m : OpMap) (row n k0 : Nat) : mapLive v t m row n k0 ↔ liveB v t m row n k0 = true := by
  unfold mapLive liveB
  split
  · rename_i h
    cases hh : v.handle h.toNat <;> simp [hh]
  · simp

def mapFitsB (v : View) (t : Template) (m : OpMap) (row n k0 : Nat) : Bool :=
  let blk := if t.fmt = 0 then 32 else if t.fmt = 1 then 16 else 64
  let kb := t.klen / 32
  let last := row + n - 1
  let fits (size d0 d1 ep sp : Nat) (bm : Option Nat) : Bool :=
    decide (d0 + last * ep + k0 * blk + kb * blk ≤ size ∧ d1 + last * sp + k0 + kb ≤ size) &&
    (match bm with
      | some d3 => decide (t.kind = 1 → d3 + 4 * (last * sp + k0) + 4 * kb ≤ size)
      | none => true)
  match m with
  | .core _ d0 d1 ep sp bm => fits (v.k.lrec.cscr * 4096) d0 d1 ep sp bm
  | .clu d0 d1 ep sp bm => fits (v.k.lrec.cshr * 4096) d0 d1 ep sp bm
  | _ => true
theorem mapFitsB_iff (v : View) (t : Template) (m : OpMap) (row n k0 : Nat) : mapFits v t m row n k0 ↔ mapFitsB v t m row n k0 = true := by
  cases m with
  | idle => simp [mapFits, mapFitsB]
  | hnd h => simp [mapFits, mapFitsB]
  | core p a b c d bm =>
    cases bm <;> simp only [mapFits, mapFitsB] <;> simp [and_assoc]
    intros
    exact Decidable.imp_iff_not_or
  | clu a b c d bm =>
    cases bm <;> simp only [mapFits, mapFitsB] <;> simp [and_assoc]
    intros
    exact Decidable.imp_iff_not_or

/-- MDECL's checks for a pass that is not grouped (or whose table is in range), in order. -/
def declBad (v : View) (t : Template) (rows lines : Nat) : Nat → Bool
  | 0 => !servesB v t (v.k.maps.getD t.mapA .idle) || !servesB v t (v.k.maps.getD t.mapB .idle)
  | 1 => (match v.k.tiles[t.tile]? with
    | some (some i) => v.d.tiles[i]?.isNone
    | _ => true)
  | 2 => !decide ((v.k.sign.getD 0 SignReg.idle).signed = [])
  | 3 => decide (namedGroups t.gbase (v.g.uni 64) = []) ||
    (namedGroups t.gbase (v.g.uni 64)).any (fun n => match v.k.groups[n]? with
      | some y => y.exited
      | none => true)
  | 4 => !liveB v t (v.k.maps.getD t.mapA .idle) t.arow rows t.ak || !liveB v t (v.k.maps.getD t.mapB .idle) t.bcol lines t.bk
  | _ => decide (rows ≠ 0) && !mapFitsB v t (v.k.maps.getD t.mapA .idle) t.arow rows t.ak || !mapFitsB v t (v.k.maps.getD t.mapB .idle) t.bcol lines t.bk

/-- Words 0 to 7 are sound, and check `n` is the first that fails; with 6, none. -/
abbrev DeclAt (s : State) (rows lines n : Nat) : Prop :=
  Met (.mdecl 0 48 64) s (fun v => (∀ x ∈ templateWords v 48, x = true) ∧ (∀ k < n, declBad v (templateAt v 48) rows lines k = false) ∧
    (n < 6 → declBad v (templateAt v 48) rows lines n = true))
/-- A grouped pass of two row groups, and the words of its row-offset table. -/
def grpWords : List Word := [0x00211002, 0, 0, 0, 2, 0x11FFF4, 0, 0]
abbrev Table (s : State) (off : List Nat) : Prop :=
  Met (.mdecl 0 48 64) s (fun v => (∀ x ∈ templateWords v 48, x = true) ∧ (templateAt v 48).kind = 2 ∧
    (templateAt v 48).taboff + 4 * ((templateAt v 48).gcnt + 1) ≤ v.k.lrec.cscr * 4096 ∧ (List.range 3).map (v.tableWord (templateAt v 48)) = off)

def sign0 : SignReg := { SignReg.idle with tpl := { Template.zero with klen := 32, fmt := 0, shape := 2 }, opA := mapC 0, opB := mapC 0, set := [0] }
def signS (r : SignReg) (table : List Pass) (tiles : List (Option Nat)) : State :=
  let k := { blk with sign := setNth blk.sign 0 r, tiles := tiles }
  let e := { Engine.init with table := table }
  runs { mdev k with engines := [(0, e)] }
def pass0 : Pass := ⟨3, 0, 0, { sign0 with signed := [(0, false)] }, none, none, true, true, [], [], none, 0, 0, true, false, some 0⟩
abbrev Signs (r : SignReg) (table : List Pass) (tiles : List (Option Nat)) (f : MmaKind) (c : View → SignReg → Prop) : Prop :=
  Met (.mma f 0) (signS r table tiles) (fun v => 0 < v.k.sign.length ∧ c v (v.k.sign.getD 0 SignReg.idle))

def mopf (sp : Space) : State := runs { dev with stores := [⟨7, 0, 0, 0, 0, sp, [(8, 1)], []⟩] }

theorem wit_PassDeclarations :
    -- MOPMAP
    Met (.mopmap .core 7 48) (uni [0, 0, 8]) (fun v => ((desc v 48 2).extractLsb' 0 16).toNat % 16 ≠ 0) ∧
    Met (.mopmap .hnd 7 48) (uni [0, 0, 0, 1]) (fun v => desc v 48 3 ≠ 0) ∧
    Met (.mopmap .core 7 48) (uni [8, 0, 16, 0xFFFFFFFF]) (fun v => ((desc v 48 2).extractLsb' 0 16).toNat % 16 = 0 ∧ (desc v 48 0).toNat % 16 ≠ 0) ∧
    Met (.mopmap .clu 7 48) (uni [16, 0, 16, 2]) (fun v => (desc v 48 0).toNat % 16 = 0 ∧ desc v 48 3 ≠ 0xFFFFFFFF ∧ (desc v 48 3).toNat % 4 ≠ 0) ∧
    Met (.mopmap .core 7 48) (withK { blk with cores := [0, 4], groups := [ugrp [], ugrp []], core := [[], []] }) (fun v => v.k.coreOf v.n / 4 = v.k.home) ∧
    Met (.mopmap .core 7 48) (runs { dev with
        cur := some (0, 1)
        blocks := [{ blk with cores := [0, 4], groups := [ugrp [], ugrp []], core := [[], []], lrec := { fetchRecord with roles := [⟨0, 16, 2, 4096, 0, 0⟩] } }] })
      (fun v => v.k.coreOf v.n / 4 ≠ v.k.home) ∧
    Met (.mopmap .hnd 7 48) (uni [1]) (fun v => v.handle (desc v 48 0).toNat = none) ∧
    Met (.mopmap .hnd 7 48) (runs (udev (ucmd (.mrel 0) []) (lpart lent))) (fun v => v.handle 1 ≠ none) ∧
    -- MOPF
    Met (.mopf false) (mopf (.clu 0 0)) (fun v => ∀ x ∈ v.d.stores, x.core = v.core → match x.space with
      | .core _ _ => False
      | _ => True) ∧
    Met (.mopf false) (mopf (.core 0 0)) (fun v => ∃ x ∈ v.d.stores, x.core = v.core ∧ x.space = .core 0 0) ∧
    Met (.mopf true) (mopf (.chip 0)) (fun v => ∃ x ∈ v.d.stores, x.core = v.core ∧ x.space = .chip 0) ∧
    -- MDECL: words, and the checks in order
    (∀ x ∈ [(0, (0x00411002 : Word)), (0, 0x00001002), (0, 0x0001100E), (0, 0x00011001), (1, 0x800), (4, 1), (5, 4), (6, 1), (7, 1)],
      BadAt (.mdecl 0 48 64) (decl (with2 tplWords x.1 x.2) 1 (mapC 0) (mapC 0) SignReg.idle) (templateWords · 48) x.1) ∧
    (∀ x ∈ [(4, (33 : Word)), (5, 2)], BadAt (.mdecl 0 48 64) (decl (with2 grpWords x.1 x.2) 1 (mapC 0) (mapC 0) SignReg.idle) (templateWords · 48) x.1) ∧
    DeclAt (decl tplWords 1 .idle (mapC 0) SignReg.idle) 64 64 0 ∧ DeclAt (decl (with2 tplWords 0 0x00011012) 1 (mapC 0) (mapC 0) SignReg.idle) 64 64 1 ∧
    DeclAt (decl tplWords 1 (mapC 0) (mapC 0) { sign0 with signed := [(0, false)] }) 64 64 2 ∧ DeclAt (decl tplWords 0 (mapC 0) (mapC 0) SignReg.idle) 64 64 3 ∧
    DeclAt (decl tplWords 1 (.hnd 1) (mapC 0) SignReg.idle) 64 64 4 ∧ DeclAt (decl tplWords 1 (mapC 0x11F801) (mapC 0) SignReg.idle) 64 64 5 ∧
    DeclAt (decl tplWords 1 (mapC 0x11F800) (mapC 0) SignReg.idle) 64 64 6 ∧ DeclAt (decl grpWords 1 (mapC 0) (mapC 0) SignReg.idle) 0 128 6 ∧
    Table (decl grpWords 1 (mapC 0) (mapC 0) SignReg.idle [(0x11FFF4, 1)]) [1, 0, 0] ∧ Table (decl grpWords 1 (mapC 0) (mapC 0) SignReg.idle [(0x11FFF8, 2)]) [0, 2, 0] ∧
    Table (decl grpWords 1 (mapC 0) (mapC 0) SignReg.idle [(0x11FFFC, 65)]) [0, 0, 65] ∧ Table (decl grpWords 1 (mapC 0) (mapC 0) SignReg.idle [(0x11FFF8, 1), (0x11FFFC, 64)]) [0, 1, 64] ∧
    -- MMA
    Signs SignReg.idle [] (mblk []).tiles .dense (fun _ r => r.set = []) ∧ Signs { sign0 with set := [1] } [] (mblk []).tiles .dense (fun v r => r.set ≠ [] ∧ v.n ∉ r.set) ∧
    Signs { sign0 with signed := [(0, false)] } [] (mblk []).tiles .dense (fun v r => v.n ∈ r.set ∧ ∃ y ∈ r.signed, y.1 = v.n) ∧
    Signs sign0 [] (mblk []).tiles .sp (fun v r => v.n ∈ r.set ∧ r.signed = [] ∧ 1 ≠ r.tpl.kind) ∧
    Signs sign0 [] blk.tiles .dense (fun v r => v.n ∈ r.set ∧ r.signed = [] ∧ 0 = r.tpl.kind ∧ v.k.tiles[r.tpl.tile]? ≠ some (some r.tileId)) ∧
    Signs { sign0 with set := [0, 1] } [] (mblk []).tiles .dense (fun v r => v.n ∈ r.set ∧ r.signed = [] ∧ v.k.tiles[r.tpl.tile]? = some (some r.tileId) ∧
      ¬ ∀ n ∈ r.set, n = v.n) ∧
    Signs sign0 (List.replicate 32 pass0) (mblk []).tiles .dense (fun v r => (∀ n ∈ r.set, n = v.n) ∧ 32 ≤ (v.d.engine v.k.home).table.length) ∧
    Signs sign0 (List.replicate 31 pass0) (mblk []).tiles .dense (fun v r => (∀ n ∈ r.set, n = v.n) ∧ r.signed = [] ∧ 0 = r.tpl.kind ∧
      v.k.tiles[r.tpl.tile]? = some (some r.tileId) ∧ (v.d.engine v.k.home).table.length < 32) := by
  refine ⟨met (by decide), met (by decide), met (by decide), met (by decide), met (by decide), met (by decide), met (by decide), met (by decide), ?_,
    met (by decide), met (by decide), ?_, ?_, met (by decide), met (by decide), met (by decide), met (by decide), met (by decide), met (by decide), met (by decide),
    met (by decide), met (by decide), met (by decide), met (by decide), met (by decide), met (by decide), met (by decide), met (by decide), met (by decide),
    met (by decide), met (by decide), met (by decide), met (by decide)⟩
  · exact metAs (fun v => ∀ x ∈ v.d.stores, x.space = .clu 0 0) (by decide) (fun v h x hx _ => by rw [h x hx]; trivial)
  · intro x hx; fin_cases hx <;> exact met (by decide)
  · intro x hx; fin_cases hx <;> exact met (by decide)

/-- On the owned name a0. -/
abbrev OnA0 (i : Instr) (s : State) (c : View → Tile → Prop) : Prop := Met i s (fun v => v.ownsTile 0 0 tile0 ∧ c v tile0)
theorem onA0 {i : Instr} {s : State} {c : View → Tile → Prop} [∀ v x, Decidable (c v x)]
    (h : metB i s (fun v => decide ((v.k.tiles[0]? = some (some 0) ∧ v.d.tiles[0]? = some tile0) ∧ c v tile0)) = true) : OnA0 i s c :=
  metAs _ h (fun _ h => h)
/-- The block owns no tile of that name. -/
abbrev NotOwned (i : Instr) (t : Nat) : Prop := Met i (mstate []) (fun v => ∀ n x, ¬ v.ownsTile t n x)
theorem notOwned {i : Instr} {t : Nat} (h : metB i (mstate []) (fun v => decide (v.k.tiles[t]? = some none)) = true) : NotOwned i t :=
  metAs _ h (fun v h n x ho => by rw [ho.1] at h; cases h)

/-- MDRAIN's word checks, and its destination. -/
def drainBad (f : DrainForm) (v : View) : Bool :=
  let w := desc v 48
  let kind := ((w 1).extractLsb' 20 4).toNat
  decide ((w 1).extractLsb' 24 8 ≠ 0 ∨ ¬ (kind = 0 ∨ (2 ≤ kind ∧ kind ≤ 4 ∧ (w 1).extractLsb' 0 20 = 0)) ∨
      (w 2).extractLsb' 20 12 ≠ 0 ∨ (w 2).toNat < 64 * (match f with
      | .stF32 => 4
      | .addF32 => 4
      | .stQ8 => 1
      | _ => 2) ∨ (f ≠ .stQ8 ∧ w 3 ≠ 0))

theorem wit_TileCommands :
    Met (.macq .s64 0) (mstate []) (fun v => v.k.tiles[0]? = some (some 0)) ∧ Met (.macq .s256 7) (mstate []) (fun v => v.k.tiles[7]? = some none) ∧
    (∀ i ∈ [Instr.mrel 7, .mzero 7, .mrd .k4 4 7 48, .mrdStat 8 7, .mwr .k4 4 7 48], NotOwned i 7) ∧
    Met (.mwait 7) (mstate []) (fun v => v.g.cmd = none ∧ v.k.tiles[7]? = some none) ∧
    (∀ i ∈ [Instr.mrel 0, .mzero 0, .mrdStat 8 0], OnA0 i (mstate []) (fun _ _ => True)) ∧
    OnA0 (.mwait 0) (mstate []) (fun v _ => v.g.cmd = none) ∧
    Met (.mwait 0) (withG { grp with cmd := some ⟨7, .mwait 0, BitVec.allOnes 32, [], [], 0, true⟩ })
      (fun v => v.g.cmd = some ⟨7, .mwait 0, BitVec.allOnes 32, [], [], 0, true⟩ ∧ v.act = BitVec.allOnes 32) ∧
    OnA0 (.mrd .k4 4 0 48) (mstate [0x00210000]) (fun v x => outside x (v.g.uni 48) 4) ∧ OnA0 (.mrd .k4 4 0 48) (mstate [0x0000003D]) (fun v x => outside x (v.g.uni 48) 4) ∧
    OnA0 (.mrd .k4 4 0 48) (mstate [0x0020003C]) (fun v x => ¬ outside x (v.g.uni 48) 4) ∧
    OnA0 (.mwr .k8 8 0 48) (mstate [0x00200039]) (fun v x => outside x (v.g.uni 48) 8) ∧ OnA0 (.mwr .k8 8 0 48) (mstate [0x00200038]) (fun v x => ¬ outside x (v.g.uni 48) 8) ∧
    -- MDRAIN: broken words, no tile, alignment, range, replayable, and none of them
    Met (.mdrain .stF16 0 48) (mstate [0, 0x00500000, 128]) (fun v => drainBad .stF16 v = true) ∧
    Met (.mdrain .stF16 0 48) (mstate [0, 0x00200000, 126]) (fun v => v.k.tiles[0]? = some (some 0) ∧ (desc v 48 2).toNat < 64 * 2) ∧
    Met (.mdrain .stF16 7 48) (mstate [0, 0x00200000, 128]) (fun v => drainBad .stF16 v = false ∧ v.k.tiles[7]? = some none) ∧
    OnA0 (.mdrain .stF16 0 48) (mstate [1, 0x00200000, 128]) (fun v _ => drainBad .stF16 v = false ∧ (desc v 48 0).toNat % 2 ≠ 0) ∧
    OnA0 (.mdrain .stF32 0 48) (mstate [0x11C004, 0x00200000, 256]) (fun v x => drainBad .stF32 v = false ∧ (desc v 48 0).toNat % 4 = 0 ∧ (desc v 48 2).toNat % 4 = 0 ∧
      ¬ placeFits v (scratchPlace v 0 (desc v 48 0).toNat) ((desc v 48 2).toNat * (sideOf x.shape - 1) + sideOf x.shape * 4)) ∧
    OnA0 (.mdrain .stF32 0 48) (mstate [0x11C000, 0x00200000, 256]) (fun v x => drainBad .stF32 v = false ∧ (desc v 48 0).toNat % 4 = 0 ∧ (desc v 48 2).toNat % 4 = 0 ∧
      placeFits v (scratchPlace v 0 (desc v 48 0).toNat) ((desc v 48 2).toNat * (sideOf x.shape - 1) + sideOf x.shape * 4) ∧ v.k.lrec.repl = false) ∧
    OnA0 (.mdrain .stQ8 0 48) (mstate [0, 0x00200000, 64, 4096]) (fun v x => drainBad .stQ8 v = false ∧
      placeFits v (scratchPlace v 0 0) ((desc v 48 2).toNat * (sideOf x.shape - 1) + sideOf x.shape * 1) ∧
      placeFits v (scratchPlace v 0 (0 + (desc v 48 3).toNat)) (sideOf x.shape * (sideOf x.shape / 32)) ∧ v.k.lrec.repl = false) ∧
    OnA0 (.mdrain .stF16 0 48) (mstateR [0, 0, 128]) (fun v _ => drainBad .stF16 v = false ∧ v.k.lrec.repl = true) := by
  refine ⟨met (by decide), met (by decide), ?_, met (by decide), ?_, onA0 (by decide), met (by decide), ?_, ?_, ?_, ?_, ?_, met (by decide), met (by decide),
    met (by decide), onA0 (by decide), ?_, ?_, ?_, onA0 (by decide)⟩
  · intro i hi; fin_cases hi <;> exact notOwned (by decide)
  · intro i hi; fin_cases hi <;> exact onA0 (by decide)
  · exact metAs (fun v => (v.k.tiles[0]? = some (some 0) ∧ v.d.tiles[0]? = some tile0) ∧ (v.g.uni 48 = 0x00210000)) (by decide)
      (fun v h => ⟨h.1, by show outside _ (v.g.uni 48) _; rw [h.2]; unfold outside; decide⟩)
  · exact metAs (fun v => (v.k.tiles[0]? = some (some 0) ∧ v.d.tiles[0]? = some tile0) ∧ (v.g.uni 48 = 0x0000003D)) (by decide)
      (fun v h => ⟨h.1, by show outside _ (v.g.uni 48) _; rw [h.2]; unfold outside; decide⟩)
  · exact metAs (fun v => (v.k.tiles[0]? = some (some 0) ∧ v.d.tiles[0]? = some tile0) ∧ (v.g.uni 48 = 0x0020003C)) (by decide)
      (fun v h => ⟨h.1, by show ¬ outside _ (v.g.uni 48) _; rw [h.2]; unfold outside; decide⟩)
  · exact metAs (fun v => (v.k.tiles[0]? = some (some 0) ∧ v.d.tiles[0]? = some tile0) ∧ (v.g.uni 48 = 0x00200039)) (by decide)
      (fun v h => ⟨h.1, by show outside _ (v.g.uni 48) _; rw [h.2]; unfold outside; decide⟩)
  · exact metAs (fun v => (v.k.tiles[0]? = some (some 0) ∧ v.d.tiles[0]? = some tile0) ∧ (v.g.uni 48 = 0x00200038)) (by decide)
      (fun v h => ⟨h.1, by show ¬ outside _ (v.g.uni 48) _; rw [h.2]; unfold outside; decide⟩)
  · exact metAs (fun v => (v.k.tiles[0]? = some (some 0) ∧ v.d.tiles[0]? = some tile0) ∧ drainBad .stF32 v = false ∧ (desc v 48 0).toNat % 4 = 0 ∧
      (desc v 48 2).toNat % 4 = 0 ∧ fitsB v (scratchPlace v 0 (desc v 48 0).toNat) ((desc v 48 2).toNat * (sideOf tile0.shape - 1) + sideOf tile0.shape * 4) = false) (by decide)
      (fun v h => ⟨h.1, h.2.1, h.2.2.1, h.2.2.2.1, fun hf => absurd ((fitsB_iff ..).mp hf) (by rw [h.2.2.2.2]; decide)⟩)
  · exact metAs (fun v => (v.k.tiles[0]? = some (some 0) ∧ v.d.tiles[0]? = some tile0) ∧ drainBad .stF32 v = false ∧ (desc v 48 0).toNat % 4 = 0 ∧
      (desc v 48 2).toNat % 4 = 0 ∧ fitsB v (scratchPlace v 0 (desc v 48 0).toNat) ((desc v 48 2).toNat * (sideOf tile0.shape - 1) + sideOf tile0.shape * 4) = true ∧
      v.k.lrec.repl = false) (by decide) (fun v h => ⟨h.1, h.2.1, h.2.2.1, h.2.2.2.1, (fitsB_iff ..).mpr h.2.2.2.2.1, h.2.2.2.2.2⟩)
  · exact metAs (fun v => (v.k.tiles[0]? = some (some 0) ∧ v.d.tiles[0]? = some tile0) ∧ drainBad .stQ8 v = false ∧
      fitsB v (scratchPlace v 0 0) ((desc v 48 2).toNat * (sideOf tile0.shape - 1) + sideOf tile0.shape * 1) = true ∧
      fitsB v (scratchPlace v 0 (0 + (desc v 48 3).toNat)) (sideOf tile0.shape * (sideOf tile0.shape / 32)) = true ∧ v.k.lrec.repl = false) (by decide)
      (fun v h => ⟨h.1, h.2.1, (fitsB_iff ..).mpr h.2.2.1, (fitsB_iff ..).mpr h.2.2.2.1, h.2.2.2.2⟩)

/-- A group that waits at a tile, with the tile's order; an engine with acquisitions. -/
def orderDev (o : List TileCmd) (i : Instr := .mrel 0) : Dev := { udev (ucmd i []) fetchPart with tiles := [{ tile0 with order := o }] }
def acqDev (tiles : List Tile) : Dev :=
  { udev (ucmd (.macq .s256 7) []) fetchPart with tiles := tiles, engines := [(0, { Engine.init with acq := [⟨0, 0, 7, 0⟩] })] }
def big (u : Nat) : Tile := { tile0 with shape := 0, unit := u }
/-- A place of the store is aligned and free (R262). -/
abbrev FreeAt (d : Dev) (u : Nat) : Prop := u % 16 = 0 ∧ u + 16 ≤ 128 ∧ ∀ t ∈ d.tiles, t.released = false → t.clu = 0 →
  ¬ shareByte u 16 t.unit (if t.shape = 0 then 16 else if t.shape = 1 then 4 else 1)

/-- A drain of the tile to cluster-shared memory at a pitch of 256 bytes; a dense pass of 32 elements that has started. -/
def drain0 : Drain := ⟨9, 0, 0, .stF32, 0, .scratch (.clu 0 0) 0, 256, 0⟩
def passDev (p : Pass) (e : Engine) : Dev :=
  { mdev { mblk [] with sign := setNth blk.sign 0 sign0 } with
    engines := [(0, { e with table := [p] })], tiles := [{ tile0 with order := [.pass 3] }], nextId := 4, cycle := 64 }
def readsB (d : Dev) : Bool := match d.passOps 0 pass0 with
  | (some ⟨[_]⟩, e) => decide (e.tiles = d.tiles ∧ d.nextId ≤ e.nextId)
  | _ => false
theorem readsB_ok {d : Dev} (h : readsB d = true) : ∃ la lb e, d.passOps 0 pass0 = (some ⟨[(la, lb)]⟩, e) ∧ e.tiles = d.tiles ∧ d.nextId ≤ e.nextId := by
  unfold readsB at h
  split at h
  · rename_i x e he
    exact ⟨x.1, x.2, e, he, of_decide_eq_true h⟩
  · cases h
/-- The products of a pass over zeros are exact: the rows of the pass, read, agree with residues. -/
def exactB (d : Dev) : Bool := match d.passOps 0 pass0 with
  | (some ⟨[x]⟩, _) =>
    let none' : Aligned := ⟨[], 0, false, 0, 0⟩
    let a := x.1.map align
    let b := x.2.map align
    (a.all (fun r => decide (r.q = (a.getD 0 none').q))) && (b.all (fun r => decide (r.q = (b.getD 0 none').q))) &&
      decide (exactDot (a.getD 0 none').q (b.getD 0 none').q = residueDot (a.getD 0 none').q (b.getD 0 none').q)
  | _ => false

def fetchPass : Pass := { pass0 with started := none, fetchedA := false, snapA := some LEntry.free }
def ktileB (d : Dev) : Bool := match (fetchKtileOr (d.passReq 0 fetchPass) fetchPass (0, min 8 (1 - 0))).run' d with
  | (.ok _, e) => decide (e.engines = d.engines)
  | _ => false
theorem ktileB_ok {d : Dev} (h : ktileB d = true) :
    ∃ x e, (fetchKtileOr (d.passReq 0 fetchPass) fetchPass (0, min 8 (1 - 0))).run' d = (.ok x, e) ∧ e.engines = d.engines := by
  unfold ktileB at h
  split at h
  · rename_i x e he
    exact ⟨x, e, he, of_decide_eq_true h⟩
  · cases h
/-- A pass that waits for its permits; a later pass of the same group; a block of the pass. -/
def arbPass : Pass := { fetchPass with granted := false }
def passBlk : Block := { mblk [] with sign := setNth blk.sign 0 sign0 }
def afterDev : Dev := { passDev pass0 Engine.init with engines := [(0, { Engine.init with table := [fetchPass, { pass0 with id := 5 }] })] }
/-- Another tile with an earlier drain of the same group to one of the same words. -/
def meetTile : Tile := { tile0 with unit := 1, order := [.drain { drain0 with op := 8, dst := .scratch (.clu 0 0) 252 }] }
def meetDev : Dev := { orderDev [] with tiles := [{ tile0 with order := [.drain drain0] }, meetTile] }

theorem wit_TilesAndPasses :
    -- acquisition: all places taken; the fifth is free
    ((acqDev []).engine 0).acq = ⟨0, 0, 7, 0⟩ :: [] ∧ (acqDev []).blocks[0]? = some (uk (ucmd (.macq .s256 7) [])) ∧
    (acqDev []).group 0 0 = some (ug (ucmd (.macq .s256 7) [])) ∧ (uk (ucmd (.macq .s256 7) [])).tiles[7]? = some none ∧
    (∀ u, ¬ FreeAt (acqDev (([0, 16, 32, 48, 64, 80, 96, 112] : List Nat).map big)) u) ∧
    (FreeAt (acqDev [big 0, big 16, { big 48 with shape := 2, unit := 63 }, big 32]) 64 ∧
      ∀ u < 64, ¬ FreeAt (acqDev [big 0, big 16, { big 48 with shape := 2, unit := 63 }, big 32]) u) ∧
    -- the tile's order
    (∀ o, (orderDev o).tiles[0]? = some { tile0 with order := o } ∧ (orderDev o).blocks[0]? = some (uk (ucmd (.mrel 0) [])) ∧
      (orderDev o).group 0 0 = some (ug (ucmd (.mrel 0) []))) ∧
    ((252 : Nat) + 4 ≤ 256 ∧ (224 : Nat) + 32 ≤ 256 ∧ (List.replicate 4 [(0, (5 : Word)), (1, 6)]).length = 4 ∧
      ∀ i < 4, ∀ l, (3 : Mask).getLsbD l = true → ∃ w, ((List.replicate 4 [(0, (5 : Word)), (1, 6)]).getD i []).find? (fun y => decide (y.1 = l)) = some (l, w)) ∧
    ((∀ m y, m < 0 → (orderDev [.drain drain0]).tiles[m]? = some y → ∀ e l, y.order = .drain e :: l → e.op ≠ drain0.op) ∧
      (∀ y ∈ (orderDev [.drain drain0]).tiles, ∀ e, .drain e ∈ y.order → e.blk = drain0.blk → e.grp = drain0.grp → e.op < drain0.op →
        ¬ drainsMeet drain0 { tile0 with order := [.drain drain0] } e y) ∧ drain0.pitch % 4 = 0 ∧
      sideOf tile0.shape * 4 ≤ drain0.pitch ∧ (∀ i j, poisonOfTile tile0 i j = 0) ∧ (∀ a < drain0.pitch * sideOf tile0.shape, (orderDev [.drain drain0]).backs (.clu 0 0) (0 + a)) ∧
      (∀ a, ((orderDev [.drain drain0]).homeWord (.clu 0 0) a).2 = 0) ∧ ∀ a < drain0.pitch * sideOf tile0.shape, isWin (.clu 0 0) (0 + a) = false) ∧
    (let e : Drain := { drain0 with op := 8, dst := .scratch (.clu 0 0) 252 }
     meetTile ∈ meetDev.tiles ∧ .drain e ∈ meetTile.order ∧ e.blk = drain0.blk ∧ e.grp = drain0.grp ∧ e.op < drain0.op ∧
     drainsMeet drain0 { tile0 with order := [.drain drain0] } e meetTile) ∧
    -- the arithmetic of a K-tile at its limits
    ((List.replicate 256 (-128 : Int)).length ≤ 256 ∧ (∀ x ∈ List.replicate 256 (-128 : Int) ++ List.replicate 256 127, -128 ≤ x ∧ x ≤ 127)) ∧
    ((List.replicate 128 (-32768 : Int)).length ≤ 128 ∧ (∀ x ∈ List.replicate 128 (-32768 : Int) ++ List.replicate 128 32767, -32768 ≤ x ∧ x ≤ 32767)) ∧
    ((⟨List.replicate 64 1, [3, 255], [], 0, 0⟩ : Line).q.length = 32 * ([3, 255] : List Nat).length ∧ 255 ∈ ([3, 255] : List Nat) ∧ 255 ∉ ([3, 254] : List Nat)) ∧
    -- a pass one cycle before its end, and at its end
    ((passDev pass0 Engine.init).engine 0).table.find? (fun q => decide (q.id = pass0.id)) = some pass0 ∧ pass0.id < (passDev pass0 Engine.init).nextId ∧
    (passDev pass0 Engine.init).tiles[pass0.tile]? = some { tile0 with order := [.pass 3] } ∧ pass0.sign.tpl.kind = 0 ∧ pass0.sign.tpl.fmt < 2 ∧
    (∀ q ∈ ((passDev pass0 Engine.init).engine 0).table, q.id < pass0.id → q.blk = pass0.blk → q.ops = none → ∀ a ∈ q.sign.signed,
      ∀ b ∈ pass0.sign.signed, a.1 ≠ b.1) ∧
    (∃ la lb e, (passDev pass0 Engine.init).passOps 0 pass0 = (some ⟨[(la, lb)]⟩, e) ∧
      e.tiles = (passDev pass0 Engine.init).tiles ∧ (passDev pass0 Engine.init).nextId ≤ e.nextId) ∧
    exactB (passDev pass0 Engine.init) = true ∧
    max (0 + 20) (pass0.came.getD 0 0) + pass0.sign.tpl.klen + 12 ≤ (passDev pass0 Engine.init).cycle ∧ ({ passDev pass0 Engine.init with cycle := 63 } : Dev).cycle < max (0 + 20) (pass0.came.getD 0 0) + pass0.sign.tpl.klen + 12 ∧
    -- a pass behind one of its group that has not all of its operands
    (fetchPass ∈ (afterDev.engine 0).table ∧ fetchPass.id < 5 ∧ fetchPass.ops = none ∧ (0, false) ∈ fetchPass.sign.signed ∧
      (afterDev.engine 0).table.find? (fun q => decide (q.id = 5)) = some { pass0 with id := 5 }) ∧
    -- a pass whose handle operand has come
    (((passDev fetchPass Engine.init).engine 0).table.find? (fun q => decide (q.id = fetchPass.id)) = some fetchPass ∧
      (fetchPass.fetchedA && fetchPass.fetchedB) = false ∧ (passDev fetchPass Engine.init).predDone 0 = true ∧ fetchPass.lines.length * 8 < fetchPass.sign.tpl.klen / 32 ∧
      ∃ x e, (fetchKtileOr ((passDev fetchPass Engine.init).passReq 0 fetchPass) fetchPass (0, min 8 (1 - 0))).run' (passDev fetchPass Engine.init) = (.ok x, e) ∧
        e.engines = (passDev fetchPass Engine.init).engines) ∧
    -- the arbiter, and a switch of the array
    (mayChoose ((passDev arbPass Engine.init).engine 0) arbPass ∧ ((passDev arbPass Engine.init).engine 0).chosen = none ∧ arbPass.granted = false ∧
      (passDev arbPass Engine.init).blocks[0]? = some passBlk ∧ passBlk.permit.granted = 0 ∧
      ((passDev arbPass Engine.init).engine 0).table.Pairwise (fun a b => a.entered ≤ b.entered ∧ a.id < b.id) ∧
      ¬ (arbPass.entered + 4096 ≤ (passDev arbPass Engine.init).cycle) ∧ arbPass.entered + 4096 ≤ ({ passDev arbPass Engine.init with cycle := 4096 } : Dev).cycle) ∧
    (let e : Engine := { Engine.init with chosen := some 3, mode := 1 }
     ((passDev arbPass e).engine 0).chosen = some arbPass.id ∧ ((passDev arbPass e).engine 0).mode ≠ arbPass.sign.tpl.shape ∧
     ((passDev arbPass e).engine 0).switch = none ∧ (∀ q ∈ ((passDev arbPass e).engine 0).table, q.started = none) ∧
     switchFor ((passDev pass0 e).engine 0) arbPass 64 = ((passDev pass0 e).engine 0).switch) ∧
    (let e : Engine := { Engine.init with chosen := some 3, switch := some (2, 56) }
     ((passDev fetchPass e).engine 0).switch = some (2, 56) ∧ 56 + 8 ≤ (passDev fetchPass e).cycle ∧ ({ passDev fetchPass e with cycle := 63 } : Dev).cycle < 56 + 8 ∧
     ((passDev fetchPass e).engine 0).chosen = some fetchPass.id ∧ fetchPass.granted = true ∧ fetchPass.sign.tpl.shape = 2 ∧
     ([TileCmd.pass 3]).head? = some (.pass fetchPass.id) ∧ ∀ q ∈ ((passDev fetchPass e).engine 0).table, q.started = none) := by
  refine ⟨rfl, rfl, rfl, rfl, ?_, ⟨⟨by decide, by decide, ?_⟩, ?_⟩, fun o => ⟨rfl, rfl, rfl⟩, ⟨by decide, by decide, rfl, ?_⟩,
    ⟨by simp, fun y hy e he _ _ ho => absurd ho (by simp [orderDev, udev, tile0] at hy; subst hy; simp at he; subst he; decide), by decide, by decide, fun _ _ => rfl, fun _ _ => ⟨_, rfl, by decide, by decide⟩, fun _ => rfl, fun _ _ => rfl⟩,
    ⟨by simp [meetDev], by simp [meetTile], rfl, rfl, by decide, ⟨rfl, 0, 256, 252, 256, .inl ⟨0, by decide, by decide, by decide⟩, .inl ⟨0, by decide, by decide, by decide⟩,
      252, by decide, by decide, by decide, by decide⟩⟩,
    by decide +kernel, by decide +kernel, by decide, rfl, by decide, rfl, rfl, by decide, by decide, readsB_ok (by decide +kernel),
    by decide +kernel, by decide, by decide, by decide, ⟨rfl, rfl, rfl, by decide, ktileB_ok (by decide +kernel)⟩,
    ⟨by unfold mayChoose; decide, rfl, rfl, rfl, rfl, by decide, by decide, by decide⟩, ⟨rfl, by decide, rfl, by decide, by decide⟩, by decide⟩
  · rintro u ⟨h1, h2, h3⟩
    have key (x : Nat) (hx : x ∈ [0, 16, 32, 48, 64, 80, 96, 112]) : x ≠ u := fun he => h3 (big x) (List.mem_map_of_mem hx) rfl rfl
      ⟨u, by omega, by omega, by show x ≤ u; omega, by show u < x + 16; omega⟩
    have : u ∈ [0, 16, 32, 48, 64, 80, 96, 112] := by simp; omega
    exact key u this rfl
  · intro t ht _ _ hs
    have h := shares hs
    simp only [acqDev, List.mem_cons, List.not_mem_nil, or_false] at ht
    rcases ht with rfl | rfl | rfl | rfl <;> simp [big, tile0] at h
  · rintro u hu ⟨h1, _, h3⟩
    have h (t : Tile) (ht : t ∈ (acqDev [big 0, big 16, { big 48 with shape := 2, unit := 63 }, big 32]).tiles) (hr : t.released = false) (hc : t.clu = 0)
        (x : Nat) (hx : u ≤ x ∧ x < u + 16 ∧ t.unit ≤ x ∧ x < t.unit + (if t.shape = 0 then 16 else if t.shape = 1 then 4 else 1)) : False := h3 t ht hr hc ⟨x, hx⟩
    have h0 := h (big 0) (by simp [acqDev]) rfl rfl 0
    have h16 := h (big 16) (by simp [acqDev]) rfl rfl 16
    have h32 := h (big 32) (by simp [acqDev]) rfl rfl 32
    have h48 := h { big 48 with shape := 2, unit := 63 } (by simp [acqDev]) rfl rfl 63
    simp [big, tile0] at h0 h16 h32 h48
    omega
  · intro i hi l hl
    have hl' : l < 2 := by
      by_contra hn
      have : (3 : Mask).getLsbD l = false := by
        rcases Nat.lt_or_ge l 32 with h | h
        · interval_cases l <;> first | omega | rfl
        · exact BitVec.getLsbD_of_ge _ _ h
      rw [this] at hl; cases hl
    interval_cases i <;> interval_cases l <;> exact ⟨_, rfl⟩

/-! ### Sample sets -/

/-- Set 5 of partition 0 in generation 1: its handle is 0x105. -/
def setH : Word := 0x105
def set0 (state : Nat) : SetEntry := { SetEntry.free with alloc := true, gen := 1, state := state, desc := { SetDesc.zero with l := 4, w := 64, h := 64 } }
def spart (e : SetEntry) : Part := { fetchPart with sets := [(5, e)] }
/-- A group whose uniforms from s48 on are given, and whose v8 to v18 hold a triangle, by that set. -/
def sdev (ws : List Word) (e : SetEntry) (repl : Bool := false) : Dev :=
  let tri : FMap Word := (List.range 11).flatMap (fun j => vec (8 + j) (fun l => BitVec.ofNat 32 (l + j)))
  { dev with parts := [(0, spart e)], blocks := [{ blk with groups := [{ ugrp ws with v := tri }], lrec := { fetchRecord with flags := if repl then 1 else 0 } }] }
def sstate (ws : List Word) (e : SetEntry) (repl : Bool := false) : State := runs (sdev ws e repl)

/-- The handle is live for the entry, and the condition holds; or it is not live. -/
abbrev Seen (i : Instr) (s : State) (h : View → Word) (e : SetEntry) (c : View → Prop) : Prop := Met i s (fun v => v.sees (h v) e ∧ c v)
theorem seen {i : Instr} {s : State} {h : View → Word} {e : SetEntry} {c : View → Prop} [DecidablePred c]
    (hm : metB i s (fun v => decide ((e = setAt v.d v.k.part ((h v).toNat % 256) ∧ e.alloc = true ∧ e.gen = (h v).toNat / 256) ∧ c v)) = true) : Seen i s h e c :=
  metAs _ hm (fun _ h => h)
abbrev Unseen (i : Instr) (s : State) (h : View → Word) (c : View → Prop) : Prop := Met i s (fun v => (∀ e, ¬ v.sees (h v) e) ∧ c v)
theorem unseen {i : Instr} {s : State} {h : View → Word} {c : View → Prop} [DecidablePred c]
    (hm : metB i s (fun v => decide (((setAt v.d v.k.part ((h v).toNat % 256)).alloc = false ∨ (setAt v.d v.k.part ((h v).toNat % 256)).gen ≠ (h v).toNat / 256) ∧ c v)) = true) :
    Unseen i s h c :=
  metAs _ hm (fun v h => ⟨fun e he => by
    obtain ⟨rfl, h1, h2⟩ := he
    rcases h.1 with h' | h'
    · rw [h1] at h'; cases h'
    · exact h' h2, h.2⟩)
/-- A SetFaults pair and one state in which the set is as given. -/
abbrev Faulty (i : Instr) (h : View → Word) (bars : Bool) : Prop :=
  (bars = true → Met i (sstate [setH] (set0 2) true) (fun v => v.k.lrec.repl = true)) ∧ Unseen i (sstate [setH] SetEntry.free) h (fun v => v.k.lrec.repl = false) ∧
    Unseen i (sstate [setH + 256] (set0 2)) h (fun v => v.k.lrec.repl = false)

def uni48 (v : View) : Word := v.g.uni 48
def freeWords (h : Word) : List Word := h :: 0 :: 0x80000000 :: List.replicate 13 0
abbrev WrongAt (v : View) (n : Nat) : Prop := (n = 2 ∧ desc v 48 2 ≠ 0x80000000) ∨ (n ≠ 0 ∧ n ≠ 2 ∧ desc v 48 n ≠ 0)
abbrev FreeGood (v : View) : Prop := (desc v 48 2).getLsbD 31 = true ∧ ∀ n < 16, ¬ WrongAt v n

/-- A set of 1 sample of RGBA8 with a fragment record at 0x1000, or a grid set. -/
def newSet : List Word := [1, 0, 4, 8, 0, 256, 0, 0, 0, 256, 0, 0x1000, 0, 0, 0, 0]
def newGrid : List Word := [64, 0x00070007, 0x2000, 0, 0, 256, 0, 0, 0, 256, 0, 0x1000, 0, 0, 0, 0]
/-- A launch record of one block and one group at a physical address. -/
def recBytes (at' : Nat) (kind : Byte) : Memory :=
  [(at', kind), (at' + 8, 1), (at' + 0xC, 1), (at' + 0xE, 1), (at' + 0x20, 16), (at' + 0x34, 1), (at' + 0x36, 1)].filter (fun x => decide (x.2 ≠ 0))
def taskPart (sets : FMap SetEntry) : Part :=
  { fetchPart with cfg := { fetchPart.cfg with taskTypes := [⟨true, 16, 4096, 8, 2, 288⟩] }, sets := sets }
def newDev (sets : FMap SetEntry) (hbm : Memory) (repl : Bool := false) : Dev :=
  { sdev newSet SetEntry.free repl with parts := [(0, taskPart sets)], hbm := hbm, tlb := [rwPage] }
/-- The record's check, by computation. -/
def recordB (d : Dev) (c : Checked → Bool) : Bool := match d.blocks[0]? with
  | none => false
  | some k => match (readLaunch (k.req 0 9 0 d) 0 0x1000).run' d with
    | (.ok x, e) => c x && decide (e.parts = d.parts)
    | _ => false
abbrev GoodRecord (d : Dev) (c : Checked → Bool) : Prop := ∃ k x e, d.blocks[0]? = some k ∧ (readLaunch (k.req 0 9 0 d) 0 0x1000).run' d = (.ok x, e) ∧
  c x = true ∧ e.parts = d.parts
theorem recordB_ok {d : Dev} {c : Checked → Bool} (h : recordB d c = true) : GoodRecord d c := by
  unfold recordB at h
  split at h
  · cases h
  · rename_i k hk
    split at h
    · rename_i x e he
      simp only [Bool.and_eq_true, decide_eq_true_eq] at h
      exact ⟨k, x, e, hk, he, h.1, h.2⟩
    · cases h
def isTask (c : Checked) : Bool := decide (c.status = none ∧ c.lrec.kind = 2 ∧ c.lrec.repl = false)

/-- A fragment group's block, at a set with one work item; lanes 0 to 3 are a quad with two covered samples. -/
def fragSet : SetEntry := { set0 3 with work := [⟨4, 0, 0, ⟨0, [], [], 0, 0⟩, true, [], [0]⟩] }
def fragInfo : FragInfo := ⟨5, 4, some (0, true) :: some (0, true) :: some (1, false) :: some (1, true) :: List.replicate 28 none⟩
def fragState (a1 : Word) (repl : Bool := false) (held : List Held := []) : State :=
  let g : Group := { grp with live := 15, helper := 4, frontier := [⟨12, 15, .run, 0, 0, some ⟨0, ⟨3, .vec, false, 0, 0, 0⟩⟩⟩], v := [(32 * 8 + 1, a1), (32 * 8 + 3, 1)] }
  runs { dev with parts := [(0, spart { fragSet with held := held })],
                  blocks := [{ blk with groups := [g], frag := some fragInfo, lrec := { fetchRecord with flags := if repl then 1 else 0 } }] }
/-- Results that wait at the chunk, as many as its buffer does not take, of the group's own work item and later ones. -/
def heldFull : List Held := List.replicate (Config.resultRoom + 1) ⟨1, 0, 4, 0, 0, .add, (set0 3).desc, []⟩
theorem heldFull_no_room : ¬ ((∀ y ∈ heldFull.filter (fun y => decide (y.chunk = 0)), 4 < y.work) ∨ (heldFull.filter (fun y => decide (y.chunk = 0))).length ≤ Config.resultRoom) := by
  have hf : heldFull.filter (fun y => decide (y.chunk = 0)) = heldFull := by
    rw [List.filter_eq_self]
    intro y hy
    rw [List.eq_of_mem_replicate hy]; rfl
  rw [hf]
  rintro (h | h)
  · exact absurd (h _ (List.mem_replicate.mpr ⟨by omega, rfl⟩)) (by decide)
  · simp [heldFull] at h
def fragBad (v : View) : Mask :=
  Mask.ofFn (fun l => v.act.getLsbD l && !v.g.helper.getLsbD l && !(fragInfo.lanes.contains (some ((v.g.word (v.g.vreg 8) l).toNat, true))))

def texWords (v : View) : List Bool :=
  let w := desc v 48
  [decide ((w 0).extractLsb' 0 8 = 0), highOk (w 1), true,
    decide ((w 3).extractLsb' 17 15 = 0 ∧ (w 3).extractLsb' 11 2 ≠ 3#2 ∧ (w 3).extractLsb' 9 2 ≠ 3#2 ∧ ((w 3).extractLsb' 0 4).toNat < 3)]
def opensB (e : SetEntry) : Bool := decide (e.state = 3 ∧ e.closed = false)

theorem wit_SetCommands :
    -- freeing
    (∀ x ∈ [(1, (1 : Word)), (2, 0x80000001), (15, 1)], Met (.ssetNew 48 60) (sstate (with2 (freeWords setH) x.1 x.2) (set0 2))
      (fun v => (desc v 48 2).getLsbD 31 = true ∧ WrongAt v x.1 ∧ ∀ m < x.1, ¬ WrongAt v m)) ∧
    Met (.ssetNew 48 60) (sstate (freeWords setH) (set0 2) true) (fun v => FreeGood v ∧ v.k.lrec.repl = true) ∧
    Unseen (.ssetNew 48 60) (sstate (freeWords setH) SetEntry.free) (desc · 48 0) (fun v => FreeGood v ∧ v.k.lrec.repl = false) ∧
    (∀ st ∈ [1, 3], Seen (.ssetNew 48 60) (sstate (freeWords setH) (set0 st)) (desc · 48 0) (set0 st) (fun v => FreeGood v ∧ v.k.lrec.repl = false)) ∧
    (∀ st ∈ [0, 2, 4], Seen (.ssetNew 48 60) (sstate (freeWords setH) (set0 st)) (desc · 48 0) (set0 st) (fun v => FreeGood v ∧ v.k.lrec.repl = false)) ∧
    -- allocating
    (∀ x ∈ [(0, (0 : Word)), (2, 0x03000004), (2, 3), (2, 0x4004), (2, 0x304), (3, 9), (4, 0x00100000), (5, 1), (6, 0x00100000), (7, 256), (8, 1), (9, 1), (10, 0x00100000), (12, 0x00100000)],
      BadAt (.ssetNew 48 60) (uni (with2 newSet x.1 x.2)) (setWords · 48) x.1) ∧
    (∀ x ∈ [(0, (63 : Word)), (1, 0x00060007), (3, 8), (4, 1)],
      BadAt (.ssetNew 48 60) (uni (with2 (if x.1 = 1 then with2 newGrid 0 56 else newGrid) x.1 x.2)) (setWords · 48) x.1) ∧
    GoodWords (.ssetNew 48 60) (uni newSet) (setWords · 48) false ∧ GoodWords (.ssetNew 48 60) (uniR newGrid) (setWords · 48) true ∧
    GoodRecord (newDev [] []) (fun x => !isTask x) ∧ GoodRecord (newDev [] (recBytes 0x1000 0)) (fun x => !isTask x) ∧
    GoodRecord (newDev [(0, set0 0)] (recBytes 0x1000 2)) isTask ∧ GoodRecord (newDev [] (recBytes 0x1000 2) true) isTask ∧
    ((setAt (newDev [(0, set0 0)] []) 0 1).alloc = false ∧ ∀ n < 1, (setAt (newDev [(0, set0 0)] []) 0 n).alloc = true) ∧
    (let sets : FMap SetEntry := (List.range 256).map (fun i => (i, set0 0))
     GoodRecord (newDev sets (recBytes 0x1000 2)) isTask ∧ ∀ m < 256, (setAt (newDev sets (recBytes 0x1000 2)) 0 m).alloc = true) ∧
    -- SSET.BUILD, SSET.BIND, SSET.QRY
    Faulty (.ssetBuild 48) uni48 true ∧ Faulty (.ssetBind 48) uni48 false ∧ Faulty (.ssetQry .state 3 48) uni48 false ∧
    (∀ i ∈ [Instr.ssetBuild 48, .ssetBind 48, .ssetQry .chunks 3 48], ∀ st < 5, Seen i (sstate [setH] (set0 st)) uni48 (set0 st) (fun v => v.k.lrec.repl = false ∧
      (v.part.sets.filter (fun x => decide (x.2.state = 3))).length < 16)) ∧
    (let p : Part := { fetchPart with sets := (List.range 4).map (fun i => (i, set0 3)) ++ [(5, set0 2)] ++ (List.range 12).map (fun i => (6 + i, set0 3)) }
     Seen (.ssetBind 48) (runs { sdev [setH] (set0 2) with parts := [(0, p)] }) uni48 (set0 2) (fun v => 16 ≤ (v.part.sets.filter (fun x => decide (x.2.state = 3))).length)) ∧
    -- PRIM: closed, stores under way, 8,193 triangles, 7,680
    Faulty (.prim 48 8) uni48 true ∧
    Seen (.prim 48 8) (sstate [setH] (set0 2)) uni48 (set0 2) (fun _ => ¬ ((set0 2).state = 3 ∧ (set0 2).closed = false)) ∧
    Seen (.prim 48 8) (sstate [setH] { set0 3 with closed := true }) uni48 { set0 3 with closed := true } (fun _ => ¬ opensB { set0 3 with closed := true } = true) ∧
    Seen (.prim 48 8) (runs { sdev [setH] (set0 3) with stores := [⟨7, 0, 0, 0, 0, .clu 0 0, [(8, 1)], []⟩] }) uni48 (set0 3) (fun v => v.d.released v.b v.n true = false) ∧
    (let e : SetEntry := { set0 3 with stream := List.replicate 8161 ⟨0, [], [], 0, 0⟩ }
     Met (.prim 48 8) (sstate [setH] e) (fun v => (setAt v.d v.k.part 5).alloc = true ∧ opensB (setAt v.d v.k.part 5) = true ∧ v.d.released v.b v.n true = true ∧
       8192 < v.d.buffered (v.k.home / 32) + (lanesOf v.act).length)) ∧
    (let e : SetEntry := { set0 3 with stream := List.replicate 7648 ⟨0, [], [], 0, 0⟩ }
     Met (.prim 48 8) (sstate [setH] e) (fun v => opensB (setAt v.d v.k.part 5) = true ∧ v.d.buffered (v.k.home / 32) + (lanesOf v.act).length ≤ 7680)) ∧
    -- SRES
    Met (.sres .add 8 12) (fragState 0 true) (fun v => v.k.lrec.repl = true) ∧ Met (.sres .add 8 12) (sstate [] (set0 3)) (fun v => v.k.lrec.repl = false ∧ v.k.frag = none) ∧
    Met (.sres .add 8 12) (fragState 2) (fun v => v.k.lrec.repl = false ∧ v.k.frag = some fragInfo ∧
      ((setAt v.d v.k.part fragInfo.set).work.find? (fun x => decide (x.id = fragInfo.work))).isSome = true ∧ fragBad v ≠ 0) ∧
    Met (.sres .add 8 12) (fragState 0) (fun v => v.k.frag = some fragInfo ∧ fragBad v = 0) ∧
    -- its buffer full, and with room for the oldest work item
    Met (.sres .add 8 12) (fragState 0 false heldFull) (fun v => v.k.frag = some fragInfo ∧ fragBad v = 0 ∧
      ¬ ((∀ y ∈ (setAt v.d v.k.part 5).held.filter (fun y => decide (y.chunk = 0)), 4 < y.work) ∨
        ((setAt v.d v.k.part 5).held.filter (fun y => decide (y.chunk = 0))).length ≤ Config.resultRoom)) ∧
    Met (.sres .add 8 12) (fragState 0) (fun v => v.k.frag = some fragInfo ∧ fragBad v = 0 ∧
      (setAt v.d v.k.part 5).held.filter (fun y => decide (y.chunk = 0)) = []) ∧
    -- RCLEAR, RDECOMP
    (∀ i ∈ [Instr.rclear 48, .rdecomp 48], Faulty i uni48 true ∧ Seen i (sstate [setH] (set0 2)) uni48 (set0 2) (fun _ => True) ∧
      Seen i (sstate [setH] (set0 3)) uni48 (set0 3) (fun _ => True)) ∧
    -- TEX, TEXG
    (∀ i ∈ [Instr.tex true .tri 4 48 8, .texg 3 4 48 8], (∀ x ∈ [(0, (1 : Word)), (1, 0x00100000), (3, 0x00020000), (3, 0x1800), (3, 0x600), (3, 3)],
        BadAt i (uni (with2 [0, 0, 0, 0] x.1 x.2)) texWords x.1) ∧ GoodWords i (uni [0, 0, 0, 0]) texWords false) := by
  refine ⟨?_, met (by decide), unseen (by decide), ?_, ?_, ?_, ?_, met (by decide), met (by decide), recordB_ok (by decide +kernel), recordB_ok (by decide +kernel),
    recordB_ok (by decide +kernel), recordB_ok (by decide +kernel), by decide, ⟨recordB_ok (by decide +kernel), by decide +kernel⟩,
    ⟨fun _ => met (by decide), unseen (by decide), unseen (by decide)⟩, ⟨(nomatch ·), unseen (by decide), unseen (by decide)⟩,
    ⟨(nomatch ·), unseen (by decide), unseen (by decide)⟩, ?_, seen (by decide +kernel),
    ⟨fun _ => met (by decide), unseen (by decide), unseen (by decide)⟩, seen (by decide), seen (by decide), seen (by decide), met (by decide +kernel),
    met (by decide +kernel), met (by decide), met (by decide), met (by decide), met (by decide),
    ⟨_, rfl, readyB_ready (by decide), rfl, by decide, heldFull_no_room⟩, met (by decide), ?_, ?_⟩
  · intro x hx; fin_cases hx <;> exact met (by decide)
  · intro x hx; fin_cases hx <;> exact seen (by decide)
  · intro x hx; fin_cases hx <;> exact seen (by decide)
  · intro x hx; fin_cases hx <;> exact met (by decide)
  · intro x hx; fin_cases hx <;> exact met (by decide)
  · intro i hi st hst; fin_cases hi <;> interval_cases st <;> exact seen (by decide)
  · intro i hi
    fin_cases hi <;> exact ⟨⟨fun _ => met (by decide), unseen (by decide), unseen (by decide)⟩, seen (by decide), seen (by decide)⟩
  · intro i hi
    fin_cases hi <;> exact ⟨fun x hx => by fin_cases hx <;> exact met (by decide), met (by decide)⟩

/-- A peer's page, which no cache holds, beside the device's; a set whose build reads and writes it. -/
def peerPage : TlbEntry := ⟨0, 0, ⟨0x2000000, 25, 0, 2, 0, 0, true, true, false⟩⟩
def buildSet : SetEntry := { set0 1 with desc := { (set0 1).desc with cap := 1, pos := 0x2100000, ws := 0x2000000 } }
def buildDev : Dev := { sdev [setH] buildSet with tlb := [peerPage], peerUp := [(0, true)] }

theorem hit1 {d : Dev} {t : TlbEntry} {va : Nat} (h : d.tlb = [t]) (hb : t.leaf.base = va / 2 ^ t.leaf.bits * 2 ^ t.leaf.bits) :
    d.tlbHit t.part t.clu va = some t.leaf := by
  rw [Dev.tlbHit, h, List.find?, decide_eq_true ⟨rfl, rfl, hb⟩]
  rfl

/-- The device serves the peer's page. -/
abbrev ServesPeer (d : Dev) : Prop := d.tlb = [peerPage] ∧ d.peerUp = [(0, true)] ∧ d.peerOut = [] ∧ d.lost = []

theorem peerWrite (r : Req) (hr : r.part = 0 ∧ r.clu = 0 ∧ r.tier = none) (i : Nat) (hi : i < 65536) (w : Word) (d : Dev) (hd : ServesPeer d) :
    ∃ m, (wrWord r (0x2000000 + 4 * i) (w, 0)).run.run d = (.ok (), { d with peerMem := m }) := by
  have hh : d.tlbHit r.part r.clu (0x2000000 + 4 * i) = some peerPage.leaf := by
    rw [hr.1, hr.2.1]
    exact hit1 hd.1 (by show 33554432 = (33554432 + 4 * i) / 33554432 * 33554432; omega)
  have ht : d.translate r .write (0x2000000 + 4 * i) = (.ok (peerPage.leaf.phys (0x2000000 + 4 * i)), d) := by
    have h52 : ¬ 2 ^ 52 ≤ 0x2000000 + 4 * i := by omega
    rw [Dev.translate, if_neg h52, hh]
    show (d.reach r .write (0x2000000 + 4 * i) peerPage.leaf, d) = _
    rw [Dev.reach, hr.2.2, Dev.lostTo, hd.2.2.2]
    rfl
  have hp : peerPage.leaf.phys (0x2000000 + 4 * i) = .peer 0 ((0x2000000 + 4 * i) % 33554432) := by
    show Phys.peer 0 (0 + _) = _
    rw [Nat.zero_add]
    rfl
  have hu : d.unserved (.peer 0 ((0x2000000 + 4 * i) % 33554432)) = none := by
    have : ¬ (hbmSize ≤ (0x2000000 + 4 * i) % 33554432 ∨ inRanges [] 0 ((0x2000000 + 4 * i) % 33554432) = true) := by
      unfold hbmSize inRanges
      simp
      omega
    rw [Dev.unserved, hd.2.1, hd.2.2.1]
    show (if true then (if hbmSize ≤ (0x2000000 + 4 * i) % 33554432 ∨ inRanges [] 0 ((0x2000000 + 4 * i) % 33554432) = true then some 0 else none)
      else some (peerPoison 0)) = none
    rw [if_pos rfl, if_neg this]
  have hv : ∃ m, d.vaWrite r (0x2000000 + 4 * i) w 0 = (.ok none, { d with peerMem := m }) := by
    simp only [Dev.vaWrite, ht, hp, Dev.physWrite, hu]
    exact ⟨_, rfl⟩
  obtain ⟨m, hv⟩ := hv
  exact ⟨m, by simp only [wrWord, rdOf, bind, ExceptT.bind, ExceptT.mk, ExceptT.bindCont, ExceptT.run, StateT.run, StateT.bind, hv]; rfl⟩

theorem run_bind {α β : Type} {x : Rd α} {f : α → Rd β} {d d' : Dev} {a : α} {y : Except Stop β × Dev} (hx : x.run.run d = (.ok a, d'))
    (hf : (f a).run.run d' = y) : (x >>= f).run.run d = y := by
  simp only [bind, ExceptT.bind, ExceptT.mk, ExceptT.bindCont, ExceptT.run, StateT.run, StateT.bind] at hx hf ⊢
  rw [hx]
  exact hf

theorem peerWrites (r : Req) (hr : r.part = 0 ∧ r.clu = 0 ∧ r.tier = none) (w : Nat → Word) (l : List Nat) (hl : ∀ i ∈ l, i < 65536) (d : Dev)
    (hd : ServesPeer d) :
    ∃ m, (l.forM (fun i => wrWord r (0x2000000 + 4 * i) (w i, 0))).run.run d = (.ok (), { d with peerMem := m }) := by
  induction l generalizing d with
  | nil => exact ⟨d.peerMem, rfl⟩
  | cons i l ih =>
    obtain ⟨m, hm⟩ := peerWrite r hr i (hl i (by simp)) (w i) d hd
    obtain ⟨m', hm'⟩ := ih (fun j hj => hl j (by simp [hj])) { d with peerMem := m } hd
    refine ⟨m', ?_⟩
    exact run_bind hm hm'

/-- The set's build completes. -/
theorem buildOk : ∃ d, (buildRun (buildDev.buildReq 0 5) buildSet.desc).run' buildDev = (.ok [(0, 0)], d) ∧ d.blocks = buildDev.blocks ∧ setAt d 0 5 = buildSet := by
  obtain ⟨m, hm⟩ := peerWrites (buildDev.buildReq 0 5) ⟨rfl, rfl, rfl⟩ (fun i => Config.freeWord (buildDev.fresh + i)) (List.range (12 * 1 + 16384))
    (fun i hi => by have := List.mem_range.mp hi; omega) buildDev ⟨rfl, rfl, rfl, rfl⟩
  have hpos : (((List.range 1).mapM (fun i => do
      let (x, px) ← rdWord (buildDev.buildReq 0 5) (0x2100000 + 8 * i)
      let (y, py) ← rdWord (buildDev.buildReq 0 5) (0x2100000 + 8 * i + 4)
      if px = 0 ∧ py = 0 then pure (x.toNat, y.toNat) else throw (.poisonWrite 0 (0x2100000 + 8 * i)))) : Rd (List (Nat × Nat))).run.run buildDev =
      (.ok [(0, 0)], buildDev) := by rfl
  have hrun : (buildRun (buildDev.buildReq 0 5) buildSet.desc).run.run buildDev =
      (.ok [(0, 0)], { buildDev with peerMem := m, fresh := buildDev.fresh + 12 * 1 + 16384 }) :=
    run_bind hpos (run_bind (d' := buildDev) (a := buildDev) rfl (run_bind hm rfl))
  exact ⟨Dev.settleParks { buildDev with peerMem := m, fresh := buildDev.fresh + 12 * 1 + 16384 }, by rw [Rd.run', hrun], rfl, rfl⟩

/-- A triangle that covers the pixels near the origin, a chunk around it, and a set whose stream it closes. -/
def tri0 : Tri := ⟨0, [0, 0, 0, 1, 0], [0, 0, 0, 4096, 0, 0, 0, 4096, 0, 0], 0, 0⟩
def chunk0 : Chunk := ⟨0, 0, 2048, [(0, 128, 128), (1, 256, 128), (2, 2000, 2000)]⟩
def closedSet : SetEntry := { set0 3 with closed := true, stream := [tri0], chunks := [chunk0] }
/-- Its work at the chunk, before and after the coverage test. -/
def work0 : Work := ⟨4, 0, 0, tri0, false, [], []⟩
def workSet (tested : Bool) : SetEntry := { set0 3 with work := [{ work0 with tested := tested, groups := if tested then chunk0.groups tri0 else [] }], chunks := [chunk0] }
/-- A held result of one sample, at a page of the cluster's TLB. -/
def held0 : Held := ⟨9, 0, 4, 0, 0, .replace, { SetDesc.zero with fmt := 2, res := 0x100 }, [(3, [5], 0)]⟩
def heldDev : Dev := { sdev [setH] { workSet true with held := [held0] } with tlb := [rwPage] }
def appliedB : Bool :=
  let d := heldDev.tryRun (applyPlain (blk.req 0 9 (4096 * 0) heldDev) held0.desc held0.mode (3, [5], 0))
  decide ((d.part 0).sets = (heldDev.part 0).sets ∧ d.blocks = heldDev.blocks)
/-- A set instruction that waits at its set. -/
def waitSet (i : Instr) (e : SetEntry) (unis : List Word := [setH]) : Dev := udev (ucmd i unis true) (spart e)
abbrev AtSet (i : Instr) (e : SetEntry) (c : Dev → Prop) (unis : List Word := [setH]) : Prop :=
  MeetsUnit (runs (waitSet i e unis)) 0 0 (uk (ucmd i unis true)) (ug (ucmd i unis true)) (ucmd i unis true) ∧
    e = setAt (waitSet i e unis) (uk (ucmd i unis true)).part (((ucmd i unis true).unis.getD 0 0).toNat % 256) ∧ e.alloc = true ∧
    e.gen = ((ucmd i unis true).unis.getD 0 0).toNat / 256 ∧ c (waitSet i e unis)
/-- A point lookup of one texel. -/
def texDesc : List Word := [0x1000, 0, 0x000F000F, 0]
def texDev : Dev :=
  { dev with cmds := [⟨7, 0, 0, 1, [.v 4, .v 5, .v 6, .v 7], .tex ⟨none, true, .point, texDesc, [(0, 0x3F000000, 0x3F000000, 0)], [], 0⟩⟩],
             tlb := [rwPage], hbm := [(0x1220, 255)] }

theorem wit_SetsAtWork :
    -- a contact sheet of two samples, one outside
    (1 ≤ (set0 0).desc.l ∧ (∀ x ∈ ([(16384, 0)] : List (Nat × Nat)), 256 * (set0 0).desc.w ≤ x.1 ∨ 256 * (set0 0).desc.h ≤ x.2)) ∧
    -- builds: of a grid set, of one position, of one that may not be read
    (let e : SetEntry := { set0 1 with desc := { (set0 1).desc with grid := true } }
     (setAt (sdev [setH] e) 0 5).state = 1 ∧ (setAt (sdev [setH] e) 0 5).desc.grid = true ∧
     ∀ k ∈ (sdev [setH] e).blocks, ∀ g ∈ k.groups, g.cmd = none) ∧
    ((setAt buildDev 0 5).state = 1 ∧ (∀ k ∈ buildDev.blocks, ∀ g ∈ k.groups, g.cmd = none) ∧ (setAt buildDev 0 5).desc.grid = false ∧
      ∃ d, (buildRun (buildDev.buildReq 0 5) (setAt buildDev 0 5).desc).run' buildDev = (.ok [(0, 0)], d) ∧ d.blocks = buildDev.blocks ∧ setAt d 0 5 = setAt buildDev 0 5) ∧
    (let d : Dev := { buildDev with tlb := [{ peerPage with leaf := { peerPage.leaf with r := false } }] }
     ∃ d', (buildRun (d.buildReq 0 5) (setAt d 0 5).desc).run' d = (.error (.perm 0x2100000), d') ∧ d'.blocks = d.blocks ∧ setAt d' 0 5 = setAt d 0 5) ∧
    -- the first triangle of a closed stream
    (let d := sdev [setH] closedSet
     (setAt d 0 5).state = 3 ∧ (setAt d 0 5).closed = true ∧ tri0 ∈ (setAt d 0 5).stream ∧ (∀ u ∈ (setAt d 0 5).stream, u ≠ tri0 → False) ∧
     d.clears 0 (BitVec.ofNat 32 (5 + 256 * (setAt d 0 5).gen)) = []) ∧
    -- a coverage test and a fragment group
    (let d := sdev [setH] (workSet false)
     (setAt d 0 5).work.find? (fun y => decide (y.id = 4)) = some work0 ∧ work0.tested = false) ∧
    (let d := sdev [setH] (workSet true)
     ((setAt d 0 5).work.find? (fun y => decide (y.id = 4))).map (·.groups) = some (chunk0.groups tri0) ∧ (chunk0.groups tri0).length = 1 ∧
     (∀ y ∈ (setAt d 0 5).work, y.prim < 0 → False) ∧ (0 : Nat) / 4 = (d.part 0).ownerOf 0 ∧ d.slotFree 0 0 3 = true) ∧
    (List.replicate 64 (7 : Word)).length = 64 ∧
    -- a held result that has its turn
    (heldDev.findHeld 9 = some (0, 5, held0) ∧ heldDev.blocks[held0.blk]?.isSome = true ∧ (∀ w ∈ (setAt heldDev 0 5).work, w.chunk = 0 → w.id < 4 → False) ∧
      (∀ y ∈ (setAt heldDev 0 5).held, ¬ (y.work < held0.work ∨ (y.work = held0.work ∧ y.blk = held0.blk ∧ y.op < held0.op))) ∧ held0.desc.comp = false ∧
      (heldDev.probe (blk.req 0 9 (4096 * 0) heldDev) .write held0.touches).isNone = true ∧ appliedB = true) ∧
    -- the waits of the set instructions
    (AtSet (.ssetBind 48) (set0 1) (fun _ => isSetOp (.ssetBind 48) = true) ∧ AtSet (.ssetNew 48 60) (set0 2) (fun _ => True) ∧
      AtSet (.ssetNew 48 60) { workSet true with closed := true, work := [{ work0 with tested := true, running := [1] }] }
        (fun d => d.blocks[1]? = none) ∧
      AtSet (.ssetBuild 48) (set0 4) (fun _ => True) ∧ AtSet (.ssetBuild 48) { set0 3 with closed := true } (fun _ => (set0 3).stream = [] ∧ (set0 3).work = []) ∧
      AtSet (.ssetBind 48) (set0 4) (fun _ => True) ∧
      AtSet (.rdecomp 48) (set0 2) (fun _ => ([setH, 0, 0] : List Word).getD 2 0 = 0 ∧ (set0 2).desc.comp = false) [setH, 0, 0]) ∧
    -- a point lookup at the middle of a 16 by 16 texture
    (texDev.cmds.find? (fun c => decide (c.op = 7)) =
        some ⟨7, 0, 0, 1, [.v 4, .v 5, .v 6, .v 7], .tex ⟨none, true, .point, texDesc, [(0, 0x3F000000, 0x3F000000, 0)], [], 0⟩⟩ ∧
      texDev.blocks[0]? = some blk ∧ texDev.predDone 0 = true ∧ (textureOf texDesc).fmt = 0 ∧ (textureOf texDesc).tiled = false ∧ (textureOf texDesc).wru = 0 ∧ (textureOf texDesc).wrv = 0 ∧
      (f32.read (0 : Word).toNat).isNumber = true ∧
      ∃ d1, Yields (rdWord (blk.req 0 3 (64 * 7) texDev) ((textureOf texDesc).start 0 + 8 * ((4 * 16 + 15) / 16 * 16) + 4 * 8)) texDev (255, 0) d1 ∧ d1.parks = []) := by
  refine ⟨by decide, by decide, ⟨rfl, by decide, rfl, buildOk⟩, ⟨_, rfl, rfl, rfl⟩, by decide, ⟨rfl, rfl⟩, by decide, rfl,
    ⟨rfl, by decide, by decide, by decide, rfl, by decide +kernel, by decide +kernel⟩,
    ⟨⟨meetsUnit _ _, rfl, rfl, rfl, rfl⟩, ⟨meetsUnit _ _, rfl, rfl, rfl, trivial⟩, ⟨meetsUnit _ _, rfl, rfl, rfl, rfl⟩, ⟨meetsUnit _ _, rfl, rfl, rfl, trivial⟩,
      ⟨meetsUnit _ _, rfl, rfl, rfl, rfl, rfl⟩, ⟨meetsUnit _ _, rfl, rfl, rfl, trivial⟩, ⟨meetsUnit _ _, rfl, rfl, rfl, rfl, rfl⟩⟩,
    rfl, rfl, rfl, rfl, rfl, rfl, rfl, by decide, ⟨_, yields (by decide +kernel), by decide +kernel⟩⟩

/-! ### Launches and blocks -/

/-- Little-endian bytes that are not zero, at an address. -/
def leBytes (a n x : Nat) : Memory := ((List.range n).map (fun i => (a + i, BitVec.ofNat 8 (x / 256 ^ i)))).filter (fun y => decide (y.2 ≠ 0))
def queue0 : Queue := { Queue.init with en := true, ring := 0x1000, size := 16, tail := 1, cpl := 0x3000 }
/-- Queue 0 of partition 0, whose ring entry names a record at an address of the device's page. -/
def queuePart : Part := { fetchPart with cfg := { fetchPart.cfg with queues := [0] } }
def queueDev (rec : Nat) (hbm : Memory) : Dev := { Dev.cleared with parts := [(0, queuePart)], queues := [(0, queue0)], tlb := [rwPage], hbm := leBytes 0x1000 8 rec ++ hbm }
def ringB (d : Dev) (rec : Nat) (c : Checked → Bool) : Bool :=
  match ((ringEntry (d.queueReq 0) 0x1000).run.run d).1 with
  | .ok (some y) =>
    let d1 := after (ringEntry (d.queueReq 0) 0x1000) d
    decide (y = (rec, none)) &&
    (match ((readLaunch (d.queueReq 0) 0 rec).run.run d1).1 with
      | .ok x =>
        let d2 := after (readLaunch (d.queueReq 0) 0 rec) d1
        c x && decide (d2.launches = d.launches ∧ d2.queues = d.queues ∧ d2.parts = d.parts ∧ d2.cycle = d.cycle)
      | _ => false)
  | _ => false
/-- The entry and its record are read. -/
abbrev ReadsRecord (d : Dev) (rec : Nat) (c : Checked → Bool) : Prop := ∃ x d1 d2, Yields (ringEntry (d.queueReq 0) 0x1000) d (some (rec, none)) d1 ∧
  Yields (readLaunch (d.queueReq 0) 0 rec) d1 x d2 ∧ c x = true ∧ d2.launches = d.launches ∧ d2.queues = d.queues ∧ d2.parts = d.parts ∧ d2.cycle = d.cycle
theorem ringB_ok {d : Dev} {rec : Nat} {c : Checked → Bool} (h : ringB d rec c = true) : ReadsRecord d rec c := by
  unfold ringB at h
  split at h
  · rename_i y hy
    simp only [Bool.and_eq_true, decide_eq_true_eq] at h
    split at h
    · rename_i x hx
      simp only [Bool.and_eq_true, decide_eq_true_eq] at h
      have h1 : Yields (ringEntry (d.queueReq 0) 0x1000) d (some (rec, none)) (after (ringEntry (d.queueReq 0) 0x1000) d) := by
        unfold Yields; rw [← h.1, ← hy]; rfl
      refine ⟨x, _, _, h1, ?_, h.2⟩
      unfold Yields; rw [← hx]; rfl
    · exact absurd h.2 (by simp)
  · cases h

/-- A launch of 8 blocks whose range is cluster 0's; its class. -/
def launch8 (kind cls : Nat) : Launch :=
  { fetchLaunch with lrec := { fetchRecord with kind := kind, cscr := 8, cshr := 0, extx := 2, exty := 2, extz := 2, flags := BitVec.ofNat 16 (2 * cls) }, started := false, ranges := [(0, 0, 8)] }
def launchDev (l : Launch) : Dev := { dev with launches := [l], queues := [(0, queue0)], blocks := [], cur := none }
abbrev Placeable (d : Dev) (r : LRecord) (cores : List Nat) : Prop := r.coresNeeded (d.part 0).shadowUnits = some cores.length ∧
  (d.part 0).coresOk cores.length cores = true ∧ ∀ c ∈ cores, ∀ o, (d.core c).offer = some o → o.launch = 0 ∧ o.lin = 0
def fullCore : CoreSt := { CoreSt.init with units := [(0, 1000, 5)] }
/-- A staging block with regions out, zero and in. -/
def stageK (n : Nat) : Block :=
  { blk with life := .staging, groups := [], staged := n, regions := [⟨0x1000, 8, 16, 0, 1, false, false, 0, 0, 0⟩, ⟨0, 8, 32, 1, 3, false, false, 0, 0, 0⟩,
    ⟨0x1000, 8, 0xFFFF8, 0, 0, false, false, 0, 0, 0⟩] }
def stageDev (n : Nat) (poison : FMap Nat := []) : Dev := { dev with blocks := [stageK n], tlb := [rwPage], hbm := [(0x1000, 1)], hbmP := poison }
/-- A piece, word by word: the device before each word is read, what is read, and the device after. -/
def stageRegion : Region := ⟨0x1000, 8, 0xFFFF8, 0, 0, false, false, 0, 0, 0⟩
def pageRegion : Region := { stageRegion with src := 0xFFFC }
def pageDev : Dev := { stageDev 0 with blocks := [{ stageK 0 with regions := [pageRegion] }] }
def stageRd (src : Nat) (d : Dev) (j : Nat) : Except Stop (Word × Nat) × Dev :=
  (rdWordAt (((d.blocks[0]?).getD blk).req ((d.blocks[0]?).getD blk).home 1 (4096 * 0 + 4095) d) (src + 4 * (0 + j))).run' d
def stageNth (src : Nat) (d : Dev) (j : Nat) : Word × Nat := match (stageRd src d j).1 with
  | .ok w => w
  | .error _ => (0, 0)
def stageH (x : Region) (d : Dev) : Nat → Dev
  | 0 => d
  | j + 1 =>
    let e := stageH x d j
    ((stageRd x.src e j).2.stagePut 0 ((e.blocks[0]?).getD blk) x (x.off + 4 * (0 + j)) (stageNth x.src e j)).modBlock 0
      (fun k => { k with stageAt := k.stageAt + 1 })
/-- The first `m` words are read, with these poisons. -/
def stageB (x : Region) (d : Dev) (ps : List Nat) : Bool := ps.zipIdx.all (fun y =>
  let e := stageH x d y.2
  (match stageRd x.src e y.2 with
    | (.ok w, g) => decide (w.2 = y.1 ∧ g.blocks = e.blocks)
    | _ => false) && (e.blocks[0]?).isSome)
abbrev Stages (x : Region) (d : Dev) (ps : List Nat) : Prop := ∀ j p, ps[j]? = some p → ∃ kj, (stageH x d j).blocks[0]? = some kj ∧
  (stageRd x.src (stageH x d j) j).2.blocks = (stageH x d j).blocks ∧
  (rdWordAt (kj.req kj.home 1 (4096 * 0 + 4095) (stageH x d j)) (x.src + 4 * (0 + j))).run' (stageH x d j) =
    (.ok (stageNth x.src (stageH x d j) j), (stageRd x.src (stageH x d j) j).2) ∧
  (stageNth x.src (stageH x d j) j).2 = p ∧
  stageH x d (j + 1) = ((stageRd x.src (stageH x d j) j).2.stagePut 0 kj x (x.off + 4 * (0 + j)) (stageNth x.src (stageH x d j) j)).modBlock 0
    (fun k => { k with stageAt := k.stageAt + 1 })
theorem stageB_ok {x : Region} {d : Dev} {ps : List Nat} (h : stageB x d ps = true) : Stages x d ps := by
  intro j p hj
  have hj' : (p, j) ∈ ps.zipIdx := List.mem_zipIdx_iff_getElem?.mpr hj
  have := List.all_eq_true.mp h _ hj'
  simp only [Bool.and_eq_true] at this
  obtain ⟨h1, h2⟩ := this
  obtain ⟨kj, hk⟩ := Option.isSome_iff_exists.mp h2
  split at h1
  · rename_i w g hr
    obtain ⟨h3, h4⟩ := of_decide_eq_true h1
    have hn : stageNth x.src (stageH x d j) j = w := by unfold stageNth; rw [hr]
    refine ⟨kj, hk, by rw [hr]; exact h4, ?_, by rw [hn]; exact h3, ?_⟩
    · rw [hn]
      show _ = (_, (stageRd x.src (stageH x d j) j).2)
      rw [hr, ← hr]
      unfold stageRd
      rw [hk]; rfl
    · show ((stageRd x.src (stageH x d j) j).2.stagePut 0 (((stageH x d j).blocks[0]?).getD blk) x _ _).modBlock 0 _ = _
      rw [hk]; rfl
  · cases h1
/-- A completed launch's record write, word by word. -/
def doneLaunch : Launch := { fetchLaunch with ranges := [], entry := 0 }
def doneDev : Dev := { dev with launches := [doneLaunch], queues := [(0, { queue0 with head := 1 })], blocks := [], cur := none, tlb := [rwPage] }
def doneReq : Req := { doneDev.queueReq 0 with part := 0, seq := 0 }
def written : Nat → Dev
  | 0 => doneDev
  | n + 1 => after (wrWordAt doneReq (0x3000 + 4 * n) ((recordOf doneLaunch).getD n 0, 0)) (written n)

/-- Queue 0's page may not be read. -/
def noRing : Dev := { queueDev 0 [] with tlb := [⟨0, 0, ⟨0, 16, 0, 0, 0, 0, false, true, true⟩⟩] }
/-- A launch may start: its dependence on queue 1 holds or not. -/
def depLaunch : Launch := { launch8 0 0 with dep := some (1, 2) }
def depDev (done : Word) : Dev := { launchDev depLaunch with queues := [(0, queue0), (1, { queue0 with done := done })] }
def batchOf (n : Nat) : Batch := ⟨3, List.replicate n rec0⟩
def nodeL : Launch := { launch8 1 0 with started := true, ranges := [], batches := [batchOf 32] }

theorem wit_Launches :
    (let l : List Word := [0, 0, 1, 0x00010001, 0, 0, 0, 0, 16, 0, 0, 0, 0, 0x00010001]
     recStatus (queueDev 0x2000 []) 0 l (recOf l) = none) ∧
    -- queues that read nothing
    (0 ∉ (({ queueDev 0 [] with parts := [(0, fetchPart)] } : Dev).part 0).cfg.queues) ∧
    ({ queue0 with en := false } : Queue).en = false ∧ ({ queue0 with head := 1 } : Queue).head = ({ queue0 with head := 1 } : Queue).tail ∧
    (({ queueDev 0 [] with parts := [] } : Dev).part 0).active = false ∧
    -- one that reads a good record, one rejected, one misaligned, and a ring that may not be read
    (queue0.en = true ∧ queue0.head ≠ queue0.tail ∧ ((queueDev 0x2000 []).part queue0.part).active = true ∧ 0 ∈ ((queueDev 0x2000 []).part queue0.part).cfg.queues ∧ (queueDev 0x2000 []).parks = []) ∧
    ReadsRecord (queueDev 0x2000 (recBytes 0x2000 0)) 0x2000 (fun c => decide (c.status = none ∧ c.lrec.kind ≠ 1)) ∧
    ReadsRecord (queueDev 0x2000 []) 0x2000 (fun c => decide (c.status = some 0x12)) ∧
    ReadsRecord (queueDev 0x2010 []) 0x2010 (fun c => decide (c.status = some 0x17)) ∧
    (∃ d, Yields (ringEntry (noRing.queueReq 0) 0x1000) noRing none d) ∧
    -- starting: alone, with a dependence that holds to the count and one short of it; one of a higher class
    ((launchDev (launch8 0 0)).launches[0]? = some (launch8 0 0) ∧ (launchDev (launch8 0 0)).alone 0 ∧ ((launchDev (launch8 0 0)).queue 0).en = true ∧
      (launch8 0 0).dep = none ∧ (depDev 2).alone 0 ∧ 0 ≤ (((depDev 2).queue 1).done - 2).toInt ∧ ¬ 0 ≤ (((depDev 1).queue 1).done - 2).toInt) ∧
    (let d : Dev := { launchDev (launch8 0 2) with launches := [launch8 0 2, launch8 0 3] }
     d.startable (launch8 0 3) = true ∧ (launch8 0 2).lrec.pcls < (launch8 0 3).lrec.pcls) ∧
    -- distribution: die 0 is handed part of the device's range; cluster 1 takes half of cluster 0's; no sibling has anything left
    (let c : PartConfig := { fetchPart.cfg with clusters := [0, 1] }
     let l : Launch := { launch8 0 0 with ranges := [(66, 0, 8)] }
     isNode c 64 ∧ (∀ r ∈ l.ranges, ¬ under r.1 64) ∧ l.ranges.find? (fun r => decide (r.1 = above 64)) = some (above 64, 0, 8) ∧ l.ranges.Nodup) ∧
    (let c : PartConfig := { fetchPart.cfg with clusters := [0, 1] }
     isNode c 1 ∧ (∀ r ∈ (launch8 0 0).ranges, ¬ under r.1 1 ∧ r.1 ≠ above 1 ∧ r.2.1 < r.2.2) ∧ isNode c 0 ∧ above 0 = above 1 ∧
     ∀ r ∈ ({ launch8 0 0 with ranges := [] } : Launch).ranges, ¬ under r.1 1 ∧ r.1 ≠ above 1 ∧ r.2.1 < r.2.2) ∧
    -- placement: a kernel block that fits, and one that does not
    (MayPlace (launchDev (launch8 0 0)) 0 0 0 (launch8 0 0).lrec [3] ∧ (launch8 0 0).ranges.find? (fun r => decide (r.1 = 0)) = some (0, 0, 8) ∧
      (((launchDev (launch8 0 0)).freed 0 0).fitCores 0 (launch8 0 0).lrec [3]).isSome = true ∧
      (((launchDev (launch8 0 0)).freed 0 0).acquireTiles 0 0 (launch8 0 0).lrec.tileShapes).isSome = true ∧
      (({ launchDev (launch8 0 0) with cores := [(3, fullCore)] } : Dev).freed 0 0).fitCores 0 (launch8 0 0).lrec [3] = none ∧ fullCore.offer = none) ∧
    ((({ launchDev (launch8 0 0) with cores := [(3, { CoreSt.init with offer := some ⟨1, 0, 0, []⟩ })] } : Dev).core 3).offer = some ⟨1, 0, 0, []⟩ ∧
      (⟨1, 0, 0, []⟩ : Offer).launch ≠ 0 ∧ (⟨0, 2, 0, []⟩ : Offer).lin ≠ 0 ∧ (0 : Nat) + 4096 ≤ 4096 ∧ (4095 : Nat) < 0 + 4096) ∧
    -- a node's batch of 32 records
    (MayPlace (launchDev nodeL) 0 3 0 nodeL.lrec [3] ∧ nodeL.batches = batchOf 32 :: [] ∧ (((launchDev nodeL).freed 0 3).fitCores 0 nodeL.lrec [3]).isSome = true ∧
      (((launchDev nodeL).freed 0 3).acquireTiles 0 0 nodeL.lrec.tileShapes).isSome = true ∧
      (batchOf 32).recs.length < 2 ^ 12 ∧ ∀ y ∈ (batchOf 32).recs, y.words.length = recWords ((nodeL.lrec.ntray.extractLsb' 0 2).toNat)) ∧
    -- a task's slot: slot 3 of core 255 is free, slot 4 is none
    (let d : Dev := { launchDev (launch8 2 0) with parts := [(0, { fetchPart with cfg := { fetchPart.cfg with clusters := [63] } })] }
     ((3 : Nat) < 4 ∧ (255 : Nat) < 256 ∧ 255 / 4 ∈ (d.part 0).cfg.clusters ∧ d.resident 255 < 64 ∧ ∀ y ∈ (d.core 255).shadow, y.1 ≠ 3) ∧ ¬ (4 : Nat) < 4) ∧
    -- a block that an error struck on core 3 of cluster 0
    (let d : Dev := launchDev { launch8 2 0 with ranges := [], requeued := [⟨2, 1, fetchRecord, [], none, none, [3]⟩] }
     let owned (c : Nat) : Prop := c < 256 ∧ c / 4 ∈ (d.part 0).cfg.clusters
     3 ∈ [3] ∧ owned 1 ∧ 1 ∉ [3] ∧ d.resident 1 < 64 ∧ ∀ y ∈ (d.core 1).shadow, y.1 ≠ 0) ∧
    -- staging
    (Space.core 0 0 ∈ blk.stageInto 0 stageRegion ∧ isWin (.core 0 0) 0xFF8 = false ∧ ∀ j < 4, dev.backs (.core 0 0) (0xFF8 + j)) ∧
    (let k : Block := { stageK 0 with lrec := { fetchRecord with flags := 1 }, regions := [⟨0x1000, 8, 0xFFFF8, 2, 1, false, false, 0, 0, 0⟩] }
     k.lrec.repl = true ∧ k.noReplay = false ∧ k.pred = none ∧ k.regions[0]?.map (fun x => (x.dir, x.level, x.twoD, x.len % 4, x.off % 4, x.off + x.len)) =
       some (1, 2, false, 0, 0, 2 ^ 20)) ∧
    Stages stageRegion (stageDev 2) [0, 0] ∧ (stageK 2).stageSnap = none ∧ (stageDev 2).predDone 0 = true ∧ (stageK 2).stageAt + 2 = stageRegion.len / 4 ∧
      (∀ j < 2, 0 < j → 4 ≤ (stageRegion.src + 4 * (0 + j)) % 65536) ∧
    Stages pageRegion pageDev [0] ∧ 0 + 1 < pageRegion.len / 4 ∧ (pageRegion.src + 4 * (0 + 1)) % 65536 < 4 ∧
    Stages stageRegion (stageDev 2 [(0x401, 1)]) [0, 1] ∧
    ((stageK 0).regions[0]?.map (·.dir) = some 1 ∧ (stageK 1).regions[1]?.map (·.dir) = some 3 ∧ (stageK 2).regions[2]?.map (fun x => x.off + x.len) = some (2 ^ 20)) ∧
    -- a staged block
    ((stageK 2).staged < (stageK 2).regions.length ∧ (stageK 3).regions.length ≤ (stageK 3).staged ∧ (stageK 3).slot = none ∧ (stageK 3).frag = none) ∧
    -- completion
    (doneDev.launches[0]? = some doneLaunch ∧ doneLaunch.completed = false ∧ doneDev.launchOver 0 doneLaunch = true ∧ (doneDev.probe doneReq .write [0x3000]).isNone = true ∧
      (∀ n < 4, (wrWordAt doneReq (0x3000 + 4 * n) ((recordOf doneLaunch).getD n 0, 0)).run (written n) = (.ok (), written (n + 1))) ∧
      (written 4).launches = doneDev.launches ∧ (written 4).queues = doneDev.queues ∧ (written 4).parks = [] ∧ (doneDev.queue 0).done.toNat = doneLaunch.entry ∧
      (doneDev.queue 0).done ≠ (doneDev.queue 0).head ∧ ∀ x ∈ doneDev.launches, x.queue = 0 → x.entry = ((doneDev.queue 0).done + 1).toNat → x.completed = false) ∧
    ((launch8 0 0).started = false ∧ ({ fetchLaunch with ranges := [(0, 0, 1)] } : Launch).ranges ≠ [] ∧
      ∃ k ∈ dev.blocks, k.launch = 0 ∧ k.frag = none ∧ k.life ≠ .done ∧ k.life ≠ .ended ∧ k.life ≠ .replaying) := by
  have alone1 (d : Dev) (l : Launch) (h : d.launches = [l]) : d.alone 0 := by
    intro j x hx hj
    rw [h] at hx
    cases j with
    | zero => exact absurd rfl hj
    | succ j => cases hx
  have none3 (d : Dev) (h : d.cores = []) (n : Nat) : ∀ c ∈ [3], ∀ o, (d.core c).offer = some o → o.launch = 0 ∧ o.lin = n := by
    intro c _ o ht
    have : d.core c = CoreSt.init := by unfold Dev.core; rw [h]; rfl
    rw [this] at ht; cases ht
  have wrote (n : Nat) : yieldsB (wrWordAt doneReq (0x3000 + 4 * n) ((recordOf doneLaunch).getD n 0, 0)) (written n) () = true →
      (wrWordAt doneReq (0x3000 + 4 * n) ((recordOf doneLaunch).getD n 0, 0)).run (written n) = (.ok (), written (n + 1)) := fun h => yields h
  refine ⟨by decide, by decide, rfl, by decide, rfl, by decide, ringB_ok (by decide +kernel), ringB_ok (by decide +kernel), ringB_ok (by decide +kernel),
    ⟨_, yields (by decide +kernel)⟩, ⟨rfl, alone1 _ _ rfl, rfl, rfl, alone1 _ _ rfl, by decide, by decide⟩, by decide,
    ⟨.inr ⟨by decide, by decide, 0, by decide, by decide⟩, by decide, rfl, by decide⟩, ⟨.inl (by decide), by decide, .inl (by decide), rfl, by decide⟩,
    ⟨⟨by decide, by decide, none3 _ rfl 0⟩, rfl, by decide, by decide, by decide, rfl⟩, by decide,
    ⟨⟨by decide, by decide, none3 _ rfl 3⟩, rfl, by decide, by decide, by decide, by decide⟩, by decide, by decide, ⟨by decide, rfl, ?_⟩, by decide,
    stageB_ok (by decide +kernel), rfl, rfl, by decide, by decide, stageB_ok (by decide +kernel), by decide, by decide, stageB_ok (by decide +kernel), by decide, by decide,
    ⟨rfl, rfl, rfl, by decide +kernel, ?_, by decide +kernel, by decide +kernel, by decide +kernel, rfl, by decide, by decide⟩, by decide⟩
  · intro j hj
    interval_cases j <;> exact ⟨_, rfl, by decide⟩
  · intro n hn
    interval_cases n <;> exact wrote _ (by decide +kernel)

/-- A ready group without a slot, one ready since earlier, and one with a deferred trap. -/
def rgrp : Group := { grp with sel := false, slot := none }
def rgrp2 : Group := { rgrp with readyAt := some 5 }
def pgrp : Group := { rgrp with pend := [⟨0x14, 0, 7, 8, 9⟩] }
def idev (gs : List Group) : Dev := { dev with cycle := 10, blocks := [{ blk with groups := gs }], cur := none, hbm := [(16 * 0x14 + 12, 1), (16 * 0x10 + 12, 1)] }
def ik (gs : List Group) : Block := { blk with groups := gs }
theorem onOnly {gs : List Group} {c m : Nat} {j : Block} {x : Group} (h : (idev gs).on 0 c m j x) : c = 0 ∧ gs[m]? = some x := by
  obtain ⟨h1, _, h3, _⟩ := h
  cases c with
  | zero =>
    have : ik gs = j := Option.some.inj h1
    rw [← this] at h3
    exact ⟨rfl, h3⟩
  | succ c => cases h1

/-- A group with a deferred trap whose next header's unit has not come. -/
def ugrp0 : Group := { pgrp with frontier := [⟨0, BitVec.allOnes 32, .run, 0, 0, none⟩] }
def uk0 : Block := { blk with groups := [ugrp0], code := [] }
def udev0 : Dev := { idev [] with blocks := [uk0] }
theorem onUk {c m : Nat} {j : Block} {x : Group} (h : udev0.on 0 c m j x) : c = 0 ∧ m = 0 ∧ x = ugrp0 := by
  obtain ⟨h1, _, h3, _⟩ := h
  cases c with
  | zero =>
    have : uk0 = j := Option.some.inj h1
    rw [← this] at h3
    cases m with
    | zero => exact ⟨rfl, rfl, (Option.some.inj h3).symm⟩
    | succ m => cases h3
  | succ c => cases h1

theorem wit_IssueSlots :
    -- alone at a free slot, with and without a deferred trap
    ((idev [rgrp]).on 0 0 0 (ik [rgrp]) rgrp ∧ (ik [rgrp]).calm ∧ (ik [rgrp]).preempt = false ∧ rgrp.exited = false ∧ rgrp.slot = none ∧ rgrp.why = .ready ∧ (3 : Nat) < 4 ∧
      (∀ c m j x, (idev [rgrp]).on 0 c m j x → x.slot ≠ some 3) ∧ (∀ c m j x, ¬ (c = 0 ∧ m = 0) → ¬ (idev [rgrp]).on 0 c m j x) ∧ rgrp.pend = []) ∧
    ((idev [pgrp]).on 0 0 0 (ik [pgrp]) pgrp ∧ (ik [pgrp]).calm ∧ pgrp.levelH = false ∧ (∀ c m j x, (idev [pgrp]).on 0 c m j x → x.slot ≠ some 3) ∧
      (∀ c m j x, ¬ (c = 0 ∧ m = 0) → ¬ (idev [pgrp]).on 0 c m j x) ∧ (0x14 : Nat) ≠ 0x0D ∧ (idev [pgrp]).trapEntry 0 0x14 = some (0, 0) ∧
      (idev [pgrp]).resumePc (ik [pgrp]) pgrp = .ok 12) ∧
    (udev0.on 0 0 0 uk0 ugrp0 ∧ uk0.calm ∧ ugrp0.exited = false ∧ ugrp0.slot = none ∧ ugrp0.why = .ready ∧ udev0.resumePc uk0 ugrp0 = .error 0 ∧
      (∀ c m j x, udev0.on 0 c m j x → x.slot ≠ some 3) ∧ (∀ c m j x, ¬ (c = 0 ∧ m = 0) → ¬ udev0.on 0 c m j x)) ∧
    -- another goes first; another holds the slot
    ((idev [rgrp, rgrp2]).on 0 0 0 (ik [rgrp, rgrp2]) rgrp ∧ (ik [rgrp, rgrp2]).calm ∧ (idev [rgrp, rgrp2]).on 0 0 1 (ik [rgrp, rgrp2]) rgrp2 ∧
      rgrp2.exited = false ∧ rgrp2.slot = none ∧ rgrp2.why = .ready ∧
      goesFirst 10 ((idev [rgrp, rgrp2]).classOf (ik [rgrp, rgrp2]), rgrp2.since 10) ((idev [rgrp, rgrp2]).classOf (ik [rgrp, rgrp2]), rgrp.since 10)) ∧
    ((idev [rgrp, { rgrp with slot := some 3 }]).on 0 0 1 (ik [rgrp, { rgrp with slot := some 3 }]) { rgrp with slot := some 3 }) := by
  have calm (gs : List Group) (h : (ik gs).completePhases = ik gs) (hg : gs.all (fun g => decide (g.collective = none)) = true) : (ik gs).calm :=
    ⟨h, fun g hg' => of_decide_eq_true (List.all_eq_true.mp hg g hg')⟩
  have slot1 (g : Group) (hs : g.slot = none) : ∀ c m j x, (idev [g]).on 0 c m j x → x.slot ≠ some 3 := by
    intro c m j x h
    have := (onOnly h).2
    cases m with
    | zero => cases this; rw [hs]; simp
    | succ m => cases this
  have only1 (g : Group) : ∀ c m j x, ¬ (c = 0 ∧ m = 0) → ¬ (idev [g]).on 0 c m j x := by
    intro c m j x hn h
    cases m with
    | zero => exact hn ⟨(onOnly h).1, rfl⟩
    | succ m => cases (onOnly h).2
  exact ⟨⟨⟨rfl, rfl, rfl, rfl⟩, calm _ rfl rfl, rfl, by decide, rfl, rfl, by decide, slot1 _ rfl, only1 _, rfl⟩,
    ⟨⟨rfl, rfl, rfl, rfl⟩, calm _ rfl rfl, rfl, slot1 _ rfl, only1 _, by decide, by decide, by decide⟩,
    ⟨⟨rfl, rfl, rfl, rfl⟩, ⟨rfl, fun g hg => by rw [List.mem_singleton.mp hg]; rfl⟩, by decide, rfl, rfl, by decide,
      fun c m j x h => by rw [(onUk h).2.2]; simp [ugrp0, pgrp, rgrp], fun c m j x hn h => hn ⟨(onUk h).1, (onUk h).2.1⟩⟩,
    ⟨⟨rfl, rfl, rfl, rfl⟩, calm _ rfl rfl, ⟨rfl, rfl, rfl, rfl⟩, by decide, rfl, rfl, by unfold goesFirst; decide⟩, ⟨rfl, rfl, rfl, rfl⟩⟩

/-! ### Successors -/

/-- s48 and s49 hold a record's address, s50 and s51 the inheritance words; the block could stand on one core. -/
def agrp (rec : Word) (w0 : Word := 0) : Group := ugrp [rec, 0, w0, 0]
def ablk (g : Group) : Block := { blk with groups := [g], lrec := { fetchRecord with cscr := 1, cshr := 0 } }
def adev (g : Group) : Dev := { dev with blocks := [ablk g], tlb := [rwPage], hbm := (0x10C, 1) :: recBytes 0x2000 0 }
def advOps (g : Group) : AdvOps := ⟨(g.uni 48).toNat + 2 ^ 32 * (g.uni 49).toNat, g.uni 50, g.uni 51⟩
/-- The device as the last group arrives. -/
def arrived (g : Group) : Dev :=
  let es : List Entry := [{ ((view (runs (adev g)) (ablk g) g).issued.head) with susp := .coll .adv (some (advOps g)) }]
  (adev g).putGroup 0 0 { (view (runs (adev g)) (ablk g) g).issued with frontier := es, sel := false }
def advRead (g : Group) : Rd Checked := readLaunch ((ablk g).req (ablk g).home 1 (4096 * 0 + 4093) (arrived g)) 0 (advOps g).record
/-- The checks of R49 on the record that is read, by computation: the first that fails. -/
def advWrongB (g : Group) : Option (Option Nat) := match (advRead g).run' (arrived g) with
  | (.ok c, d) => if d.blocks = (arrived g).blocks then
      some ((([(2, decide ((advOps g).w0.extractLsb' 28 4 ≠ 0 ∨ (advOps g).w1.extractLsb' 8 24 ≠ 0 ∨ 16 < ((advOps g).w0.extractLsb' 8 5).toNat)),
        (3, decide (c.status ≠ none ∨ c.lrec.kind ≠ 0 ∨ c.lrec.extx ≠ 1 ∨ c.lrec.exty ≠ 1 ∨ c.lrec.extz ≠ 1)),
        (4, ((ablk g).lrec.roles ++ c.lrec.roles).any (fun x => decide (x.budget < ((advOps g).w0.extractLsb' 8 5).toNat))),
        (8, !(d.succFits 0 (ablk g) c.lrec))] : List (Nat × Bool)).find? (·.2)).map (·.1)) else none
  | _ => none
/-- A block whose successor has passed the checks. -/
def advancing (o : AdvOps) (w : Bool) : Dev :=
  let k := { ablk grp with life := .advancing, succ := some { fetchRecord with cscr := 1, cshr := 0 }, advOps := some o }
  { dev with blocks := [k], stores := if w then [⟨7, 0, 0, 0, 0, .clu 0 0, [(8, 1)], []⟩] else [] }

theorem wit_Successors :
    -- a group that arrives while another is elsewhere
    Met (.adv 48 50) (withK { blk with groups := [ugrp [], grp] }) (fun v => v.k.life = .running ∧ v.g.live ≠ 0 ∧ v.g.active ≠ 0 ∧ v.g.apart) ∧
    -- the last one: all checks pass; a vector count above a role's budget; a record that is none
    (∀ g ∈ [agrp 0x2000, agrp 0x2000 0x200, agrp 0x3000], Met (.adv 48 50) (runs (adev g)) (fun v => v.g.frontier.tail = [] ∧ v.g.active = v.g.live ∧
      v.k.completePhases = v.k ∧ (∀ m ∈ List.range v.k.groups.length, m = v.n) ∧ v.d.released v.b v.n true = true ∧ v.g.levelH = false)) ∧
    advWrongB (agrp 0x2000) = some none ∧ advWrongB (agrp 0x2000 0x200) = some (some 4) ∧ advWrongB (agrp 0x3000) = some (some 3) ∧
    (adev (agrp 0x2000)).trapEntry 0 0x10 = some (0, 0) ∧
    -- settling: a store on its way, and nothing
    (let k := { ablk grp with life := .advancing, succ := some { fetchRecord with cscr := 1, cshr := 0 }, advOps := some ⟨0, 0x100, 1⟩ }
     (advancing ⟨0, 0x100, 1⟩ true).blocks[0]? = some k ∧ k.tiles = List.replicate 8 none ∧ ({ fetchRecord with cscr := 1, cshr := 0 } : LRecord).tileShapes = [] ∧
     k.scrub = [] ∧ (0x100 : Word).extractLsb' 0 8 = 0 ∧ (∃ x ∈ (advancing ⟨0, 0x100, 1⟩ true).stores, x.blk = 0) ∧
     (advancing ⟨0, 0x100, 1⟩ false).stores = [] ∧ (advancing ⟨0, 0x100, 1⟩ false).loads = [] ∧ (advancing ⟨0, 0x100, 1⟩ false).atoms = [] ∧
     (advancing ⟨0, 0x100, 1⟩ false).cmds = [] ∧ ∀ c < 8, (k.chans.getD c Channel.init).cmds = []) := by
  refine ⟨metAs (fun v => v.k.life = .running ∧ v.g.live ≠ 0 ∧ v.g.active ≠ 0 ∧ v.g.frontier.tail = [] ∧ v.g.frontier ≠ []) (by decide)
      (fun v h => ⟨h.1, h.2.1, h.2.2.1, ?_⟩), ?_, by decide +kernel, by decide +kernel, by decide +kernel, by decide, by decide⟩
  · unfold Group.apart
    obtain ⟨e, es, he⟩ := List.exists_cons_of_ne_nil h.2.2.2.2
    have ht := h.2.2.2.1
    rw [he] at ht ⊢
    simp only [List.tail_cons] at ht
    rw [ht]
    simp
  · intro g hg; fin_cases hg <;> exact met (by decide)

/-! ### The life of a block -/

def lifeK (l : Life) (repl : Bool) (n : Nat) : Block := { blk with life := l, nrepl := n, lrec := { fetchRecord with flags := if repl then 1 else 0, cscr := 1, cshr := 0 } }
def lifeDev (k : Block) : Dev := { dev with blocks := [k], cur := none }
def outK : Block := { lifeK .retiring false 0 with regions := [⟨0x1000, 4, 16, 0, 1, false, false, 0, 0, 0⟩] }
def capturedK (w : Word × Nat) : Block := { lifeK .applying false 0 with captured := [⟨⟨0x1000, 4, 16, 0, 1, false, false, 0, 0, 0⟩, [w]⟩] }
def applyDev (r w : Bool) : Dev := { lifeDev (capturedK (7, 0)) with tlb := [⟨0, 0, ⟨0, 16, 0, 0, 0, 0, r, w, true⟩⟩] }
/-- Two words to write, at the end of a page and at the next one's start. -/
def pagesK : Block := { lifeK .applying false 0 with captured := [⟨⟨0xFFFC, 8, 16, 0, 1, false, false, 0, 0, 0⟩, [(7, 0), (8, 0)]⟩] }
def writeOne (k : Block) (d : Dev) (a : Nat) : Except Stop Unit × Dev := (wrWordAt (k.req k.home 1 (4096 * 0 + 4094) d) a (7, 0)).run' d
def commitB (d : Dev) (x : Except Stop Unit) : Bool :=
  match (writeOne (capturedK (7, 0)) d 0x1000).1, x with
  | .ok _, .ok _ => true
  | .error a, .error b => decide (a = b)
  | _, _ => false
theorem commitB_ok {d : Dev} {x : Except Stop Unit} (h : commitB d x = true) : ∃ e, (writeOne (capturedK (7, 0)) d 0x1000) = (x, e) := by
  unfold commitB at h
  generalize writeOne (capturedK (7, 0)) d 0x1000 = r at h ⊢
  obtain ⟨r, e⟩ := r
  cases r <;> cases x <;> simp at h ⊢
  exact h

/-- A group blocked in PRIM since cycle 1; a launch of class 3 with a deadline that has blocks to place. -/
def stallG : Group := { rgrp with why := .cond (.prim 5), primSince := some 1 }
def urgentL : Launch := { fetchLaunch with lrec := { fetchRecord with flags := 0x0F, deadline := 1 }, started := true, ranges := [(66, 0, 1)] }

theorem wit_BlockLife :
    -- capture: a store on its way, and no work left
    (({ lifeDev outK with stores := [⟨7, 0, 0, 0, 0, .clu 0 0, [(8, 1)], []⟩] } : Dev).blocks[0]? = some outK ∧
      ¬ WorkDone { lifeDev outK with stores := [⟨7, 0, 0, 0, 0, .clu 0 0, [(8, 1)], []⟩] } 0 outK ∧ WorkDone (lifeDev outK) 0 outK ∧ outK.life = .retiring) ∧
    (lifeK .capturing false 0).life = .capturing ∧
    -- commit: nothing, one word, one word whose page refuses it, and a piece that ends at a page
    ((lifeK .applying false 0).captured = [] ∧ (∃ e, writeOne (capturedK (7, 0)) (applyDev true true) 0x1000 = (.ok (), e)) ∧
      (∃ e, writeOne (capturedK (7, 0)) (applyDev true false) 0x1000 = (.error (.perm 0x1000), e)) ∧ (capturedK (7, 0)).frag = none ∧
      (capturedK (7, 0)).captured.flatMap (fun c => (c.region.wordOffs.zip c.words).map (fun y => (c.region.src + y.1.1, y.2))) = [(0x1000, 7, 0)] ∧
      pagesK.captured.flatMap (fun c => (c.region.wordOffs.zip c.words).map (fun y => (c.region.src + y.1.1, y.2))) = [(0xFFFC, 7, 0), (0x10000, 8, 0)] ∧
      (0x10000 : Nat) % 65536 < 4) ∧
    -- errors: struck or not, replayed the seventh and the eighth time, not replayable
    ((lifeK .applying true 0).life = .applying ∧ (lifeK .advancing true 6).lrec.repl = true ∧ (lifeK .advancing true 6).noReplay = false ∧
      (lifeK .staging true 7).nrepl = 7 ∧ (lifeK .running false 0).lrec.repl = false) ∧
    (((lifeDev blk).part 0).active = true ∧ ((lifeDev blk).part 1).active = false) ∧
    -- pre-emption: of a replayable block, of one with a slot held, of one that is quiet; PRIM stalls
    ((lifeDev (lifeK .running false 0)).quiet 0 (lifeK .running false 0) = false ∧
      (lifeDev { lifeK .running false 0 with groups := [rgrp] }).quiet 0 { lifeK .running false 0 with groups := [rgrp] } = true ∧
      (∀ g ∈ [rgrp], g.slot = none ∧ g.cmd = none ∧ g.levelH = false) ∧ ∃ g ∈ (lifeK .running false 0).groups, g.slot ≠ none) ∧
    (let d : Dev := { lifeDev (lifeK .running false 0) with launches := [fetchLaunch, urgentL] }
     urgentL ∈ d.launches ∧ urgentL.lrec.dl = true ∧ urgentL.ranges ≠ [] ∧ urgentL.part = (lifeK .running false 0).part ∧
     d.classOf (lifeK .running false 0) < urgentL.lrec.pcls ∧ fetchLaunch.lrec.dl = false ∧ (lifeK .running false 0).preempt = false) ∧
    (let k := { lifeK .running false 0 with groups := [stallG] }
     let d : Dev := { lifeDev k with cycle := 65537, launches := [fetchLaunch, { fetchLaunch with started := false }] }
     (∃ g ∈ k.groups, g.why = .cond (.prim 5) ∧ g.primSince = some 1 ∧ 1 + 65536 ≤ d.cycle) ∧ ({ d with cycle := 65536 } : Dev).cycle < 1 + 65536 ∧
     (∃ x ∈ d.launches, x.part = 0 ∧ x.status = none ∧ x.completed = false ∧ x.seq.toNat ≤ d.seqOf k ∧ x.started = false)) ∧
    -- restoring on another core
    (let k := lifeK .saved false 0
     ([3] : List Nat).length = k.cores.length ∧ ((lifeDev k).part 0).coresOk 1 [3] = true ∧ ((lifeDev k).core 3).mark = false ∧ k.tiles = List.replicate 8 none ∧
     k.permit.n = 0 ∧ ((lifeDev k).fitCores 0 k.lrec [3]).isSome = true) := by
  refine ⟨⟨rfl, fun h => h.stores _ (List.mem_singleton.mpr rfl) rfl, ⟨by decide, by decide, fun _ h => (nomatch h), by decide, by decide, by decide, by decide⟩, rfl⟩, rfl,
    ⟨rfl, commitB_ok (by decide +kernel), commitB_ok (by decide +kernel), rfl, by decide, by decide, by decide⟩,
    by decide, by decide, by decide, by decide, by decide, by decide⟩

/-! ### Translation and the memory side -/

/-- Tables of partition 0 from 0x10000 down: the page at 0 is mapped at level 0 to 0x50000, the next is not; its level 2 entry 1 is poisoned;
its level 3 entry 1 is a leaf, which no level 3 entry may be. -/
def tables : Memory :=
  leBytes 0x10000 8 0x11001 ++ leBytes 0x10008 8 0x5013F ++ leBytes 0x11000 8 0x12001 ++ leBytes 0x12000 8 0x13001 ++ leBytes 0x13000 8 0x5011F
def xpart (size wr : Word) : Part := { fetchPart with cfg := { fetchPart.cfg with tableRoot := 0x10000 }, fqBase := 0x20000, fqSize := size, fqWr := wr }
def xdev : Dev := { dev with parts := [(0, xpart 128 0)], hbm := tables, hbmP := [(0x11008 / 4, 2)] }
def tnext (t : Nat) : Nat := match t with
  | 3 => 0x10000
  | 2 => 0x11000
  | 1 => 0x12000
  | _ => 0x13000
def treq : Req := { part := 0, clu := 0, kind := 1, who := 17 }
theorem xdev_walks (va l : Nat) (hl : l ≤ 3) (hva : va < 2 ^ 34) (h1 : l = 0 → va < 2 ^ 25) : walksTo xdev 0 va tnext l ∨ 0 < l := by
  rcases Nat.eq_zero_or_pos l with rfl | h
  · left
    have hva := h1 rfl
    refine ⟨rfl, fun m hm hm' => ?_⟩
    have e3 : va / 2 ^ (16 + 9 * 3) % 512 = 0 := by omega
    have e2 : va / 2 ^ (16 + 9 * 2) % 512 = 0 := by omega
    have e1 : va / 2 ^ (16 + 9 * 1) % 512 = 0 := by omega
    interval_cases m <;> simp only [entryAddr, e1, e2, e3] <;> (unfold entryClean pointsOn; decide +kernel)
  · exact .inr h

/-- A parked request, and a group that waits for code. -/
def park0 : Park := ⟨3, 0, 0, 0x10000, false, 1, 0, 0, [17], false, some 3, []⟩
def codeK : Block := { blk with code := [], groups := [{ grp with why := .cond (.code 0x1000) }] }
def codeDev (x : Bool) : Dev := { dev with blocks := [codeK], tlb := [⟨0, 0, ⟨0, 16, 0, 0, 0, 0, true, true, x⟩⟩] }
def codeB (x : Bool) : Bool := match (codeDev x).vaReads (codeK.req 0 7 0 (codeDev x)) .fetch (0x1000 / 16 * 16) 4 with
  | (.ok ws, d) => x && decide (d.parks = [] ∧ d.blocks = [codeK] ∧ ∀ w ∈ ws, w.2 = 0)
  | (.perm _, d) => !x && decide (d.blocks = [codeK])
  | _ => false

/-- A walk of the page that another request asked for; a die whose walkers are all taken. -/
def walk0 : Walk := ⟨9, 0, 0, 0x10000, [⟨{ treq with who := 33 }, .read⟩], false⟩
def busyDev : Dev := { xdev with walks := List.replicate 128 ⟨9, 1, 31, 0, [], false⟩ }
/-- A group that stands at a word of a unit that was refused. -/
def refusedK : Block := { blk with code := [⟨0, [], 0, true⟩] }

theorem wit_Translation :
    -- level 0 is reached; a leaf, an entry that is not valid; a poisoned one; a leaf at level 3
    (walksTo xdev 0 0 tnext 0 ∧ entryClean xdev (entryAddr (tnext 0) 0 0) ∧ leafGood xdev 0 0 (pageEntry xdev (entryAddr (tnext 0) 0 0))) ∧
    (walksTo xdev 0 0x10000 tnext 0 ∧ entryClean xdev (entryAddr (tnext 0) 0x10000 0) ∧ (pageEntry xdev (entryAddr (tnext 0) 0x10000 0)).getLsbD 0 = false) ∧
    (walksTo xdev 0 (2 ^ 34) (fun t => if t = 3 then 0x10000 else 0x11000) 2 ∧ FMap.get 0 xdev.hbmP (entryAddr 0x11000 (2 ^ 34) 2 / 4) = 1 + 1) ∧
    (walksTo xdev 0 (2 ^ 43) tnext 3 ∧ entryClean xdev (entryAddr (tnext 3) (2 ^ 43) 3) ∧ (pageEntry xdev (entryAddr (tnext 3) (2 ^ 43) 3)).getLsbD 0 = true ∧
      ¬ leafGood xdev 0 3 (pageEntry xdev (entryAddr (tnext 3) (2 ^ 43) 3)) ∧ ¬ pointsOn (pageEntry xdev (entryAddr (tnext 3) (2 ^ 43) 3))) ∧
    -- requests: a hit; a parked page, before its 100 ms and after; one that joins a walk, waits for a walker, or walks
    (codeDev true).tlbHit treq.part treq.clu 0x1000 = some ⟨0, 16, 0, 0, 0, 0, true, true, true⟩ ∧
    (xdev.tlbHit treq.part treq.clu 0x10000 = none ∧ ({ xdev with parks := [park0] } : Dev).parks.find? (fun p => p.of treq 0x10000) = some park0 ∧
      ({ xdev with parks := [{ park0 with expired := true }] } : Dev).parks.find? (fun p => p.of treq 0x10000) = some { park0 with expired := true }) ∧
    (Misses { xdev with walks := [walk0] } treq 0x10000 ∧
      ({ xdev with walks := [walk0] } : Dev).walks.find? (fun w => decide (w.serves 0 0 0x10000)) = some walk0 ∧ (∀ a ∈ walk0.asks, a.req.who ≠ treq.who) ∧
      ∃ a ∈ ({ walk0 with asks := [⟨treq, .read⟩] } : Walk).asks, a.req.who = treq.who) ∧
    (Misses busyDev treq 0x10000 ∧ (∀ w ∈ busyDev.walks, ¬ w.serves 0 (0 / 32) 0x10000) ∧ ¬ busyDev.walkerFor (0 / 32)) ∧
    (Walks xdev treq 0 ∧ xdev.walk 0 0 = .leaf ⟨0, 16, 0x50000, 0, 0, 1, true, true, true⟩ ∧ Walks xdev treq (2 ^ 34) ∧ xdev.walk 0 (2 ^ 34) = .poison 1 ∧
      Walks xdev treq (2 ^ 43) ∧ xdev.walk 0 (2 ^ 43) = .perm) ∧
    -- page faults, with room in the ring and without; with 256 requests parked
    PageFaults xdev treq 0x10000 0 ∧ PageFaults { xdev with parts := [(0, xpart 128 128)] } treq 0x10000 0 ∧ PageFaults { xdev with parts := [(0, xpart 0 0)] } treq 0x10000 0 ∧
    (¬ (xpart 128 0).ringFull ∧ (xpart 128 128).ringFull ∧ (xpart 0 0).ringFull ∧
      256 ≤ (({ xdev with parks := List.replicate 256 { park0 with va := 0x20000 } } : Dev).parks.filter (fun p => !p.expired && decide (p.clu / 32 = treq.clu / 32))).length) ∧
    -- walks by themselves, with a walker and without
    ((xdev.part 0).active = true ∧ xdev.tlbHit 0 0 0 = none ∧ xdev.walks = [] ∧ xdev.walkerFor (0 / 32) ∧ busyDev.tlbHit 0 0 0x10000 = none) ∧
    -- a walk that ends, with a miss of another page that waits for its walker; one that waits itself
    (let d : Dev := { xdev with walks := [walk0, { walk0 with id := 10, va := 0x20000, waits := true }] }
     d.walks.find? (fun x => decide (x.id = 9) && !x.waits) = some walk0 ∧
     (d.walks.filter (fun x => decide (x.id ≠ 9))).find? (fun x => decide (x.clu / 32 = walk0.clu / 32) && x.waits) =
       some { walk0 with id := 10, va := 0x20000, waits := true } ∧ (∀ w ∈ d.walks, w.id = 10 → w.waits = true) ∧ xdev.walk 0 walk0.va = .fault 0) ∧
    -- parked requests
    (({ xdev with parks := [park0] } : Dev).parks.find? (fun x => decide (x.id = 3)) = some park0 ∧ park0.expired = false ∧ (1099999 : Nat) < park0.walked + 1100000 ∧
      park0.walked + 1100000 ≤ 1100000 ∧ ([park0].map (·.id)).Nodup ∧ State.reset.plat.phase ≠ .running) ∧
    -- code
    (codeDev true).blocks[0]? = some codeK ∧ codeK.groups[0]? = some { grp with why := .cond (.code 0x1000) } ∧ codeB true = true ∧ codeB false = true ∧
    -- a word of a unit that was refused
    (MayRun (runs { dev with blocks := [refusedK] }) 0 0 refusedK grp ∧ grp.sel = true ∧ grp.frontier = atWord .vec false ∧
      refusedK.unit (refusedK.codeBase grp + 12) = some ⟨0, [], 0, true⟩) := by
  have w0 (va : Nat) (h : va < 2 ^ 25) : walksTo xdev 0 va tnext 0 := (xdev_walks va 0 (by decide) (by omega) (fun _ => h)).resolve_right (by decide)
  have ws (va : Nat) (h : va < 2 ^ 52) (ht : xdev.tlbHit 0 0 va = none) : Walks xdev treq va := ⟨⟨h, ht, fun _ h => (nomatch h)⟩, fun _ h => (nomatch h), ⟨by decide, by decide⟩⟩
  refine ⟨⟨w0 0 (by decide), by unfold entryClean; decide +kernel, by unfold leafGood; decide +kernel⟩,
    ⟨w0 _ (by decide), by unfold entryClean; decide +kernel, by decide +kernel⟩, ⟨⟨rfl, ?_⟩, by decide +kernel⟩,
    ⟨⟨rfl, fun m h h' => by omega⟩, by unfold entryClean; decide +kernel, by decide +kernel, by unfold leafGood; decide +kernel, by unfold pointsOn; decide +kernel⟩,
    by decide, ⟨by decide, by decide, by decide⟩, ⟨⟨by decide, by decide, by decide⟩, by decide, by decide, by decide⟩,
    ⟨⟨by decide, by decide, by decide⟩, by decide +kernel, fun h => absurd h.1 (by decide +kernel)⟩,
    ⟨ws _ (by decide) (by decide), by decide +kernel, ws _ (by decide) (by decide), by decide +kernel, ws _ (by decide) (by decide), by decide +kernel⟩,
    ⟨ws _ (by decide) (by decide), by decide, by decide +kernel⟩,
    ⟨⟨⟨by decide, by decide, by decide⟩, by decide, ⟨by decide, by decide⟩⟩, by decide, by decide +kernel⟩,
    ⟨⟨⟨by decide, by decide, by decide⟩, by decide, ⟨by decide, by decide⟩⟩, by decide, by decide +kernel⟩,
    ⟨by unfold Part.ringFull; decide, by unfold Part.ringFull; decide, by unfold Part.ringFull; decide, by decide +kernel⟩,
    ⟨rfl, rfl, rfl, ⟨by decide, by decide⟩, rfl⟩, ⟨by decide, by decide, by decide, by decide +kernel⟩, by decide, rfl, rfl,
    by decide +kernel, by decide +kernel, ⟨⟨rfl, rfl, rfl, rfl, rfl, rfl⟩, rfl, rfl, rfl⟩⟩
  · intro m h h'
    have : m = 3 := by omega
    subst this
    unfold entryClean pointsOn entryAddr
    decide +kernel

/-- A device with host-visible group 0 and one host line that is dirty. -/
def hostLine : L2Line := ⟨0, 0, .host 0, 1, 1, 0, 0, 0, 0, [(3, 9)], [], true, []⟩
def exportDev (visible : Bool) : Dev :=
  { dev with parts := [(0, { fetchPart with cfg := { fetchPart.cfg with groups := [(0, 1)], hostVisible := visible } })], peerUp := [(11, true)],
             hostUp := true, hostTrained := true, l2 := [hostLine] }

/-- A set of eight lines; the first is pinned, the second used least recently. -/
def fullSet : Dev :=
  { dev with l2 := (List.range 8).map (fun i => { hostLine with tag := .tier0 (2 * 0x10000 + i), slice := 0, set := 0, dirty := 0, used := i, pins := if i = 0 then [3] else [] }) }
/-- The address's home is slice 0, set 0 of the full device. -/
def fullB (pa : Nat) : Bool := match fullSet.homeOf (.real pa) with
  | some (sl, st, tag, _) => decide (sl = 0 ∧ st = 0) && (fullSet.line sl tag).isNone
  | none => false

theorem wit_MemorySide :
    (runs (exportDev true)).plat.phase = .running ∧ (2 ^ 39 - 1 : Nat) < 2 ^ 39 ∧ (exportDev true).ownerOf (2 ^ 25 - 1) = some 0 ∧
    ((exportDev true).part 0).cfg.hostVisible = true ∧ (exportDev true).ownerOf (2 ^ 25) = none ∧ ((exportDev false).part 0).cfg.hostVisible = false ∧
    FMap.get false (exportDev true).peerUp (11 : BitVec 4).toNat = true ∧ FMap.get false (exportDev true).peerUp (0 : BitVec 4).toNat = false ∧
    -- a full set with a line that may leave
    (fullB 0 = true ∧ 8 ≤ (fullSet.l2.filter (fun x => decide (x.slice = 0 ∧ x.set = 0))).length ∧
      (∃ l ∈ fullSet.l2, l.pins = [] ∧ ∀ x ∈ fullSet.l2, x.pins = [] → x ≠ l → l.used < x.used) ∧ ∀ l ∈ fullSet.l2, l.dirty = 0) ∧
    -- a range of link 11, up to its last byte; one that the peer does not serve
    ((∃ x ∈ ({ exportDev true with exports := [(11, 4096, 4096)] } : Dev).exports, x.1 = (11 : BitVec 4).toNat ∧ x.2.1 ≤ 8191 ∧ 8191 < x.2.1 + x.2.2) ∧
      ¬ (∃ x ∈ ({ exportDev true with exports := [(11, 4096, 4096)] } : Dev).exports, x.1 = (11 : BitVec 4).toNat ∧ x.2.1 ≤ 8192 ∧ 8192 < x.2.1 + x.2.2) ∧
      ∃ x ∈ ({ exportDev true with peerOut := [(11, 0, 1)] } : Dev).peerOut, x.1 = 11 ∧ x.2.1 ≤ 0 ∧ 0 < x.2.1 + x.2.2) ∧
    (exportDev true).homeOf (.host 3) = some (0, 0, .host 0, 0) ∧ (exportDev true).line 0 (.host 0) = some hostLine ∧ dev.line 0 (.host 0) = none ∧
    (exportDev true).hostUp = true ∧ (exportDev true).timeouts = 0 ∧ (exportDev true).linkEcc = 0 ∧ dev.hostUp = false ∧ (11 : BitVec 4).toNat < 12 ∧
    12 ≤ (12 : BitVec 4).toNat ∧ (exportDev true).hostTrained = true ∧ (runs (exportDev true)).plat.command = none ∧
    dev.hostTrained = false ∧ State.reset.plat.phase ≠ .running := by
  refine ⟨rfl, by decide, by decide, rfl, by decide, rfl, by decide, by decide, ⟨by decide +kernel, by decide, by decide, by decide⟩, by decide,
    by decide +kernel, rfl, rfl, rfl, rfl, rfl, rfl, by decide, by decide, rfl, rfl, rfl, by decide⟩

/-! ### SYS and the controller -/

/-- A handler's group with words at s48 and on, of one register octet. -/
def hugrp (ws : List Word) : Group := { hgrp with budget := 1, s := ws.mapIdx (fun i w => (48 + i, w)) }
def huni (ws : List Word) : State := withG (hugrp ws)
/-- The same beside a peer's page that no cache holds. -/
def peerState (ws : List Word) (mem : FMap Byte := []) : State := runs { dev with blocks := [{ blk with groups := [hugrp ws] }], tlb := [peerPage], peerUp := [(0, true)], peerMem := mem }

theorem peerWritesTo (r : Req) (hr : r.part = 0 ∧ r.clu = 0 ∧ r.tier = none) (l : List (Nat × Word)) (hl : ∀ x ∈ l, ∃ i < 65536, x.1 = 0x2000000 + 4 * i) (d : Dev)
    (hd : ServesPeer d) : ∃ m, (l.forM (fun x => wrWord r x.1 (x.2, 0))).run.run d = (.ok (), { d with peerMem := m }) := by
  induction l generalizing d with
  | nil => exact ⟨d.peerMem, rfl⟩
  | cons x l ih =>
    obtain ⟨i, hi, hx⟩ := hl x (by simp)
    obtain ⟨m, hm⟩ := peerWrite r hr i hi x.2 d hd
    obtain ⟨m', hm'⟩ := ih (fun j hj => hl j (by simp [hj])) { d with peerMem := m } hd
    rw [← hx] at hm
    exact ⟨m', run_bind hm hm'⟩

theorem peerProbe (r : Req) (hr : r.part = 0 ∧ r.clu = 0 ∧ r.tier = none) (d : Dev) (hd : ServesPeer d) (l : List Nat)
    (hl : ∀ x ∈ l, ∃ i < 65536, x = 0x2000000 + 4 * i) : d.probe r .write l = none := by
  have fold (f : Bool × Dev → Nat → Bool × Dev) (hf : ∀ i < 65536, f (false, d) (0x2000000 + 4 * i) = (false, d)) :
      l.foldl f (false, d) = (false, d) := by
    induction l with
    | nil => rfl
    | cons x l ih =>
      obtain ⟨i, hi, rfl⟩ := hl x (by simp)
      rw [List.foldl_cons, hf i hi]
      exact ih (fun y hy => hl y (by simp [hy]))
  unfold Dev.probe
  rw [fold]
  · rfl
  · intro i hi
    have hh : d.tlbHit r.part r.clu (0x2000000 + 4 * i) = some peerPage.leaf := by
      rw [hr.1, hr.2.1]
      exact hit1 hd.1 (by show 33554432 = (33554432 + 4 * i) / 33554432 * 33554432; omega)
    have ht : d.translate r .write (0x2000000 + 4 * i) = (.ok (peerPage.leaf.phys (0x2000000 + 4 * i)), d) := by
      rw [Dev.translate, if_neg (by omega), hh]
      show (d.reach r .write (0x2000000 + 4 * i) peerPage.leaf, d) = _
      rw [Dev.reach, hr.2.2, Dev.lostTo, hd.2.2.2]
      rfl
    simp only [ht]

/-- The area at a peer's page that may be executed too, where the launch's code lies as well, by computation. -/
def areaState (mem : FMap Byte) : State :=
  runs { dev with blocks := [{ blk with lrec := { blk.lrec with code := 0x2000000 }, groups := [hugrp [0x2000000, 0]] }],
                  tlb := [⟨0, 0, ⟨0x2000000, 25, 0, 2, 0, 0, true, true, true⟩⟩], peerUp := [(0, true)], peerMem := mem }
def areaB (mem : FMap Byte) (good : Bool) : Bool := match (areaState mem).dev.issuer with
  | none => false
  | some v => match ((ctxRead v.req 0x2000000 (0x480 + 256 * v.g.budget)).run.run v.d) with
    | (.ok l, d1) => decide (good = true ↔ areaWord l 0 = 1 ∧ (areaWord l 4).extractLsb' 0 8 = BitVec.ofNat 8 v.g.budget) && decide (good = true → areaWord l 8 ≠ 0) &&
      (match (ctxCode { v.req with kind := 7 } v.k.lrec.code (min (((List.range (min 32 (areaWord l 0xC).toNat)).map (fun i =>
        (areaWord l (0x40 + 16 * i)).toNat)).foldl max 0) (v.k.lrec.codelen - 1))).run.run d1 with
        | (.ok _, d2) => decide (d2.blocks = v.d.blocks)
        | _ => false)
    | _ => false

/-- A word without poison is read. -/
theorem readOk {d : Dev} {r : Req} {a : Nat} {w : Word} (h : (match (d.vaRead r .fetch a).1 with
      | .ok x => decide (x = (w, 0))
      | _ => false) = true) : d.vaRead r .fetch a = (.ok (w, 0), (d.vaRead r .fetch a).2) := by
  generalize d.vaRead r .fetch a = x at h ⊢
  obtain ⟨x, e⟩ := x
  cases x <;> simp at h ⊢
  exact h

theorem wit_SysMaintenance :
    -- TLBINV
    (∀ x ∈ [(0, (1 : Word)), (1, 0x00400000), (1, 0x00300000), (2, 0), (2, 65537), (3, 1)], BadAt (.tlbinv 48) (huni (with2 [0, 0, 1, 0] x.1 x.2)) (tlbWords · 48) x.1) ∧
    (∀ ws ∈ [[0, 0x00200000, 65536, 0], [0, 0x80000000, 0, (0 : Word)]], Met (.tlbinv 48) (huni ws) (fun v => (∀ x ∈ tlbWords v 48, x = true) ∧ v.d.parks = [])) ∧
    -- SCRUB: bad words, misaligned, beyond its level, behind a store, of the chip scratchpad, of memory
    (∀ x ∈ [(1, (0x00100000 : Word)), (1, 0x00200001), (2, 0), (2, 2), (2, 0x80000000), (3, 1)], BadAt (.scrub 48) (huni (with2 [0, 0, 4, 0] x.1 x.2)) (scrubWords · 48) x.1) ∧
    Met (.scrub 48) (huni [2, 0x00400000, 4, 0]) (fun v => (∀ x ∈ scrubWords v 48, x = true) ∧ (desc v 48 0).toNat % 4 ≠ 0) ∧
    Met (.scrub 48) (huni [4, 0x00400000, 4096, 0]) (fun v => (∀ x ∈ scrubWords v 48, x = true) ∧ ¬ placeFits v (.scratch (scrubSpace v 4) (desc v 48 0).toNat) (desc v 48 2).toNat) ∧
    Met (.scrub 48) (huni [0, 0x00400000, 4096, 0]) (fun v => (∀ x ∈ scrubWords v 48, x = true) ∧ placeFits v (.scratch (scrubSpace v 4) (desc v 48 0).toNat) (desc v 48 2).toNat ∧
      v.d.released v.b v.n true = true) ∧
    Met (.scrub 48) (runs { dev with blocks := [{ blk with groups := [hugrp [0, 0x00400000, 4096, 0]] }], stores := [⟨7, 0, 0, 0, 0, .clu 0 0, [(8, 1)], []⟩] })
      (fun v => (∀ x ∈ scrubWords v 48, x = true) ∧ placeFits v (.scratch (scrubSpace v 4) (desc v 48 0).toNat) (desc v 48 2).toNat ∧ v.d.released v.b v.n true = false) ∧
    (∃ v, (peerState [0x2000000, 0, 8, 0]).dev.issuer = some v ∧ Ready (.scrub 48) v ∧ (∀ x ∈ scrubWords v 48, x = true) ∧
      (let vas := (List.range ((desc v 48 2).toNat / 4)).map (fun j => (desc v 48 0).toNat + 4 * j)
       v.d.probe v.req .write vas = none ∧ ∃ d, (vas.forM (fun (x : Nat) => wrWord v.req x (0, 0))).run' v.d = (.ok (), d))) ∧
    -- CTXSV: a result in flight, misaligned, and written
    Met (.ctxsv 48) (withG { hugrp [] with flights := [⟨.v 3, 7⟩] }) (fun v => v.g.flights ≠ []) ∧
    Met (.ctxsv 48) (huni [128, 0]) (fun v => v.g.flights = [] ∧ (v.g.uni 49 ++ v.g.uni 48 : BitVec 64).toNat % 256 ≠ 0) ∧
    (∃ v, (peerState [0x2000000, 0]).dev.issuer = some v ∧ Ready (.ctxsv 48) v ∧ v.g.flights = [] ∧
      (let va := (v.g.uni 49 ++ v.g.uni 48 : BitVec 64).toNat
       let ws := (ctxWords v.issued [0] v.d.cycle v.d.fresh).zipIdx.map (fun x => (va + 4 * x.2, x.1))
       va % 256 = 0 ∧ (ctxPrios v.req v.k v.g).run' v.d = (.ok [0], v.d) ∧ v.d.probe v.req .write (ws.map (·.1)) = none ∧
       ∃ d, (ws.forM (fun (x : Nat × Word) => wrWord v.req x.1 (x.2, 0))).run' { v.d with fresh := v.d.fresh + 160 } = (.ok (), d))) ∧
    -- the priority of a clause, of a header that is read, of a word that is none, and beyond CODELEN
    (∃ d, Yields (ctxPrios treq blk hgrp) xdev [0] d) ∧
    (let g (pc : Nat) : Group := { hgrp with saved := [⟨pc, BitVec.allOnes 32, .run, 3, 0, none⟩] }
     let k : Block := { blk with lrec := { fetchRecord with code := 0, codelen := 16 } }
     (∃ d, Yields (ctxPrios treq k (g 16)) (codeDev true) [0] d) ∧
     ∃ d w d1, Yields (ctxPrios treq k (g 8)) { codeDev true with hbm := [(8, 0x9F)] } [31] d ∧
       ({ codeDev true with hbm := [(8, 0x9F)] } : Dev).vaRead { treq with kind := 7 } .fetch (0 + 8) = (.ok (w, 0), d1) ∧ decodeHeader w = .illegal) ∧
    -- CTXRS: misaligned, an area of another version, and one that holds a group
    Met (.ctxrs 48) (huni [128, 0]) (fun v => (v.g.uni 49 ++ v.g.uni 48 : BitVec 64).toNat % 256 ≠ 0) ∧
    Met (.ctxrs 48) (areaState []) (fun v => (v.g.uni 49 ++ v.g.uni 48 : BitVec 64).toNat = 0x2000000 ∧ v.d.parks = [] ∧ v.g.budget = 1) ∧
    areaB [] false = true ∧ areaB [(0, 1), (4, 1), (8, 3)] true = true := by
  refine ⟨?_, ?_, ?_, met (by decide),
    metAs (fun v => (∀ x ∈ scrubWords v 48, x = true) ∧ fitsB v (.scratch (scrubSpace v 4) (desc v 48 0).toNat) (desc v 48 2).toNat = false) (by decide)
      (fun v h => ⟨h.1, fun hf => absurd ((fitsB_iff ..).mp hf) (by rw [h.2]; decide)⟩),
    metAs (fun v => (∀ x ∈ scrubWords v 48, x = true) ∧ fitsB v (.scratch (scrubSpace v 4) (desc v 48 0).toNat) (desc v 48 2).toNat = true ∧
      v.d.released v.b v.n true = true) (by decide) (fun v h => ⟨h.1, (fitsB_iff ..).mpr h.2.1, h.2.2⟩),
    metAs (fun v => (∀ x ∈ scrubWords v 48, x = true) ∧ fitsB v (.scratch (scrubSpace v 4) (desc v 48 0).toNat) (desc v 48 2).toNat = true ∧
      v.d.released v.b v.n true = false) (by decide) (fun v h => ⟨h.1, (fitsB_iff ..).mpr h.2.1, h.2.2⟩), ?_,
    met (by decide), met (by decide), ?_, ⟨_, yields (by decide +kernel)⟩, ⟨⟨_, yields (by decide +kernel)⟩, ⟨_, 0x9F, _, yields (by decide +kernel), readOk (by decide +kernel), by decide⟩⟩,
    met (by decide), met (by decide), by decide +kernel, by decide +kernel⟩
  · intro x hx; fin_cases hx <;> exact met (by decide)
  · intro x hx; fin_cases hx <;> exact met (by decide)
  · intro x hx; fin_cases hx <;> exact met (by decide)
  · let s := peerState [0x2000000, 0, 8, 0]
    let v : View := view s { blk with groups := [hugrp [0x2000000, 0, 8, 0]] } (hugrp [0x2000000, 0, 8, 0])
    refine ⟨v, rfl, readyB_ready (by decide), by decide, ?_⟩
    have hr : v.req.part = 0 ∧ v.req.clu = 0 ∧ v.req.tier = none := by decide +kernel
    have hva : (List.range ((desc v 48 2).toNat / 4)).map (fun j => (desc v 48 0).toNat + 4 * j) = [0x2000000 + 4 * 0, 0x2000000 + 4 * 1] := by decide
    rw [hva]
    have hall : ∀ x ∈ [0x2000000 + 4 * 0, 0x2000000 + 4 * 1], ∃ i < 65536, x = 0x2000000 + 4 * i := by
      intro x hx
      simp only [List.mem_cons, List.not_mem_nil, or_false] at hx
      rcases hx with rfl | rfl
      · exact ⟨0, by decide, rfl⟩
      · exact ⟨1, by decide, rfl⟩
    obtain ⟨m, hm⟩ := peerWritesTo v.req hr [(0x2000000 + 4 * 0, 0), (0x2000000 + 4 * 1, 0)] (by
      intro x hx
      simp only [List.mem_cons, List.not_mem_nil, or_false] at hx
      rcases hx with rfl | rfl
      · exact ⟨0, by decide, rfl⟩
      · exact ⟨1, by decide, rfl⟩) v.d ⟨rfl, rfl, rfl, rfl⟩
    have hm2 : (([0x2000000 + 4 * 0, 0x2000000 + 4 * 1] : List Nat).forM (fun (x : Nat) => wrWord v.req x (0, 0))).run.run v.d = (.ok (), { v.d with peerMem := m }) := hm
    exact ⟨peerProbe _ hr _ ⟨rfl, rfl, rfl, rfl⟩ _ hall, Dev.settleParks { v.d with peerMem := m }, by rw [Rd.run', hm2]⟩
  · let s := peerState [0x2000000, 0]
    let v : View := view s { blk with groups := [hugrp [0x2000000, 0]] } (hugrp [0x2000000, 0])
    refine ⟨v, rfl, readyB_ready (by decide), rfl, ?_⟩
    have hr : v.req.part = 0 ∧ v.req.clu = 0 ∧ v.req.tier = none := by decide +kernel
    have hva : (v.g.uni 49 ++ v.g.uni 48 : BitVec 64).toNat = 0x2000000 := by decide
    have hlen : (ctxWords v.issued [0] v.d.cycle v.d.fresh).length < 65536 := by
      have : (ctxWords v.issued [0] v.d.cycle v.d.fresh).length = 1408 := by decide +kernel
      omega
    rw [hva]
    refine ⟨by decide, rfl, ?_⟩
    have hall : ∀ x ∈ (ctxWords v.issued [0] v.d.cycle v.d.fresh).zipIdx.map (fun x => (0x2000000 + 4 * x.2, x.1)), ∃ i < 65536, x.1 = 0x2000000 + 4 * i := by
      intro x hx
      obtain ⟨y, hy, rfl⟩ := List.mem_map.mp hx
      have := List.snd_lt_of_mem_zipIdx hy
      exact ⟨y.2, by omega, rfl⟩
    obtain ⟨m, hm⟩ := peerWritesTo v.req hr _ hall { v.d with fresh := v.d.fresh + 160 } ⟨rfl, rfl, rfl, rfl⟩
    refine ⟨peerProbe _ hr _ ⟨rfl, rfl, rfl, rfl⟩ _ ?_, Dev.settleParks { v.d with fresh := v.d.fresh + 160, peerMem := m }, by rw [Rd.run', hm]⟩
    intro x hx
    obtain ⟨y, hy, rfl⟩ := List.mem_map.mp hx
    exact hall y hy

/-- A partition as SET_PART takes it: one cluster, one HBM group, the least chip scratchpad share and permits. -/
def part0 : PartConfig :=
  { PartConfig.empty with clusters := [0], groups := [(0, 1)], chipShare := 4096, slices := [0], pool := 4096, permits := (16, 0), queues := [0],
                          taskTypes := List.replicate 16 noType }
/-- A second one, of the eight clusters of die 1's first row, beside it. -/
def part1 : PartConfig :=
  { part0 with clusters := [32, 33, 34, 35, 36, 37, 38, 39], groups := [(16383, 7)], chipShare := 65536, slices := [1023], permits := (0, 512), queues := [255] }

theorem parts_good : PartsGood [part0, part1] := by
  refine ⟨by decide, ?_, by decide, by decide, by decide, by decide, ?_, by decide, by decide⟩
  · intro c hc
    fin_cases hc <;> exact ⟨by decide, by decide, by decide⟩
  · intro c hc
    fin_cases hc <;> decide

/-- A platform in recovery, its image not authentic, and one that runs in another life-cycle state. -/
def recov : State := { State.reset with plat := { State.reset.plat with phase := .recovery, flash := ⟨[1], 3, false⟩ } }
def lives (l : LifeCycle) : State := { runs dev with plat := { (runs dev).plat with life := l } }
def img0 : Image := ⟨[1, 2], 5, true⟩

/-- A command of the mailbox is in progress. -/
def commanded (c : Nat) : State := { runs dev with plat := { (runs dev).plat with command := some c } }

theorem wit_Controller :
    -- phases, queue registers and their ring sizes
    State.reset.plat.phase = .clearing ∧ recov.plat.phase = .recovery ∧ (runs dev).plat.phase = .running ∧ (0xFFFF : Nat) < 0x10000 ∧ (0x14000 : Nat) ≤ 0x14000 ∧
    ringSize 16 ∧ ringSize 65536 ∧ faultRingSize 128 ∧ faultRingSize 65536 ∧ ¬ faultRingSize (0 : Word).toNat ∧ ¬ faultRingSize (64 : Word).toNat ∧
    ((0 : Word) - 128).toNat > (128 : Word).toNat ∧ ((128 : Word) - 0).toNat ≤ (128 : Word).toNat ∧
    -- images
    (img0.authentic = true ∧ recov.plat.rollback ≤ img0.version) ∧ ¬ (recov.plat.flash.authentic = true ∧ recov.plat.rollback ≤ recov.plat.flash.version) ∧
    -- a command in progress, its own or another; what clearing holds, and holds not
    ((commanded 5).plat.freeFor 5 ∧ (runs dev).plat.freeFor 4 ∧ (commanded 2).plat.command = some 2 ∧ (2 : Nat) ≠ 3 ∧ State.reset.dev.heldMem = [] ∧
      ({ State.reset.dev with heldMem := [(0, none)] } : Dev).heldMem ≠ [] ∧ (4095 : Nat) < 4096 ∧ 4096 ≤ (4096 : Nat)) ∧
    -- a partition that a SET_PART changes, one that it keeps, and one that it takes away
    ((runs dev).dev.changed [part0] 0 ∧ ¬ ({ dev with parts := [(0, { Part.init with active := true, cfg := part0 })] } : Dev).changed [part0] 0 ∧
      (runs dev).dev.changed [] 0 ∧ ¬ (runs dev).dev.changed [] 1) ∧
    -- SET_PART: good partitions, none, a cluster twice, a queue that is enabled, a block that runs
    PartsGood [part0, part1] ∧ ¬ PartsGood [] ∧ ¬ PartsGood [part0, part0] ∧
    ((∀ q ∈ (runs Dev.cleared).dev.queues, q.2.en = false) ∧ ∀ k ∈ (runs Dev.cleared).dev.blocks, k.life = .done ∨ k.life = .ended ∨ k.life = .replaying) ∧
    ¬ (∀ k ∈ (runs dev).dev.blocks, k.life = .done ∨ k.life = .ended ∨ k.life = .replaying) ∧
    [part0, part1][1]? = some part1 ∧ [part0, part1][2]? = none ∧ (∀ c ∈ [part0, part1], ∀ g ∈ c.groups, g.1 ≠ 7) ∧
    -- SET_WINDOW: words at the ends of their ranges, outside them, and the window off
    (∀ c ∈ [(⟨0x80000000, 1, 0⟩ : WindowCfg), ⟨0x83010000, 0x10000000, 0x7FFFFFF800⟩],
      c.wctl.getLsbD 31 = true ∧ 1 ≤ c.wnblk.toNat ∧ c.wnblk.toNat ≤ 2 ^ 28 ∧ c.wbase.toNat % 2048 = 0 ∧ c.wbase.toNat < 2 ^ 39) ∧
    (∀ c ∈ [(⟨0x80000000, 0, 0⟩ : WindowCfg), ⟨0x80000000, 0x10000001, 0⟩, ⟨0x80000000, 1, 1⟩, ⟨0x80000000, 1, 0x8000000000⟩],
      c.wctl.getLsbD 31 = true ∧ ¬ (1 ≤ c.wnblk.toNat ∧ c.wnblk.toNat ≤ 2 ^ 28 ∧ c.wbase.toNat % 2048 = 0 ∧ c.wbase.toNat < 2 ^ 39)) ∧
    (⟨0, 0, 0⟩ : WindowCfg).wctl.getLsbD 31 = false ∧
    -- QUOTE and LIFECYCLE
    (List.replicate 32 (0 : Byte)).length = 32 ∧ ([] : List Byte).length ≠ 32 ∧
    (∀ x ∈ [(LifeCycle.manufactured, LifeCycle.provisioned), (.provisioned, .deployed), (.deployed, .returned), (.returned, .provisioned)],
      (lives x.1).plat.phase = .running ∧
      (((lives x.1).plat.life = .manufactured ∧ x.2 = .provisioned) ∨ ((lives x.1).plat.life = .provisioned ∧ x.2 = .deployed) ∨
        ((lives x.1).plat.life = .deployed ∧ x.2 = .returned) ∨ ((lives x.1).plat.life = .returned ∧ x.2 = .provisioned))) := by
  refine ⟨rfl, rfl, rfl, by decide, by decide, ⟨0, by decide, rfl⟩, ⟨12, by decide, rfl⟩, ⟨0, by decide, rfl⟩, ⟨9, by decide, rfl⟩,
    by unfold faultRingSize; decide, by unfold faultRingSize; decide, by decide, by decide, by decide, by decide,
    ⟨fun c h => (Option.some.inj (show some 5 = some c from h)).symm, fun c h => (nomatch (show none = some c from h)), rfl, by decide, rfl, by decide, by decide, by decide⟩,
    ⟨.inr (by decide), fun h => h.elim (by decide) (by decide), rfl, by show ¬ ((runs dev).dev.part 1).active = true; decide⟩, parts_good,
    fun h => absurd h.count (by decide), fun h => absurd h.shared.1 (by decide), by decide, by decide, rfl, rfl, by decide, by decide, by decide, rfl, by decide,
    by decide, by decide⟩

/-! ### The whole machine -/

/-- A device whose group stands at PC 12 of its block's only code unit, and the state in which it comes next. -/
def nextState : State := { s0 with agenda := [.issue 0 0] }
/-- The same of a group that stands at the header, before the word of `SADD s5, s3, s9`. -/
def firstState : State := State.reset.withFetchWord 32 0x00050309

theorem wit_StepRunsDecoded :
    MayRun nextState 0 0 blk grp ∧ nextState.agenda = [.issue 0 0] ∧ grp.sel = true ∧ grp.frontier = atWord .vec false ∧ blk.codeWord grp 12 = some 0 ∧
    MayRun firstState 0 0 (fetchBlock .uni 0x00050309) (fetchGroup .uni) ∧ firstState.agenda = [.issue 0 0] ∧
    (fetchGroup .uni).frontier = [⟨0, BitVec.allOnes 32, .run, 0, 0, none⟩] ∧ (fetchBlock .uni 0x00050309).codeWord (fetchGroup .uni) 0 = some 0x12000000 ∧
    decodeHeader 0x12000000 = .header ⟨1, .uni, false, 0, 0, 0⟩ ∧ 0 + 4 * 1 + 4 ≤ (fetchBlock .uni 0x00050309).codeLen (fetchGroup .uni) ∧
    firstState.dev.eventsHold 0 0 0 = true ∧ (fetchBlock .uni 0x00050309).codeWord (fetchGroup .uni) (0 + 4) = some 0x00050309 ∧
    -- an issue while the device clears, and an event
    ({ State.reset with agenda := [.issue 0 0] } : State).plat.phase ≠ .running ∧ hasWord .clearingDone = false ∧
    exec .clearingDone { State.reset with agenda := [] } = .next ((State.reset.withDev { State.reset.dev with hostTrained := true, hostUp := true }).withPlat
      { State.reset.plat with phase := .running }) := by
  refine ⟨⟨rfl, rfl, rfl, by decide, by decide, by decide⟩, rfl, rfl, rfl, by decide, ⟨rfl, by decide +kernel, by decide +kernel, by decide, by decide, by decide⟩, rfl, by decide, by decide, by decide,
    by decide, by decide, by decide, by decide, rfl, rfl⟩

theorem wit_NothingStops :
    hasWord .reset = false ∧ hasWord (.tlbinv 0) = true ∧ sH.dev.issuer.isSome = true ∧ State.reset.dev.issuer = none := by
  refine ⟨rfl, rfl, by decide, by decide⟩

/-! No instruction of VEC has OP 63, so that word is no instruction's. -/
theorem no_none (w : Option (Cls × Word)) (h : w = none) : w ≠ some (.vec, 0xFFFFFFFF) := by rw [h]; exact nofun
theorem no_class (o : Option (Cls × Word)) (c : Cls) (w : Word) (h : o = some (c, w)) (hc : c ≠ .vec) : o ≠ some (.vec, 0xFFFFFFFF) := by
  rw [h]; intro e; exact hc (congrArg Prod.fst (Option.some.inj e))
theorem no_op (o : Option (Cls × Word)) (op : BitVec 6) (fn : BitVec 3) (d : BitVec 7) (a b : BitVec 8) (h : o = some (.vec, word3 op fn d a b)) (ho : op ≠ 63) :
    o ≠ some (.vec, 0xFFFFFFFF) := by
  rw [h]; intro e
  have := congrArg (fun x : Cls × Word => fOp x.2) (Option.some.inj e)
  exact ho ((fOp_word3 op fn d a b).symm.trans this)
theorem no_vec63 (i : Instr) : encode i ≠ some (.vec, 0xFFFFFFFF) := by
  cases i <;> first | exact no_none _ rfl | exact no_op _ _ _ _ _ _ rfl (by decide) | exact no_class _ _ _ rfl (by decide)

theorem wit_DecodeEncode :
    (WellFormed (.iadd .sat 127 (.v 127) (.s 9)) = true ∧ encode (.iadd .sat 127 (.v 127) (.s 9)) = some (.vec, 0x00FF7F89)) ∧
    decode .vec 0x00FF7F89 = .ok (.iadd .sat 127 (.v 127) (.s 9)) ∧
    (∀ i, WellFormed i = true → encode i ≠ some (.vec, 0xFFFFFFFF)) ∧
    (1 ≤ 15 ∧ (31 : Nat) < 32 ∧ ∀ j, 1 ≤ j → j < 15 → (⟨1, .sys, true, 0xF, 0x4000, 31⟩ : Header).tbit j = false) ∧
    decodeHeader (encodeHeader ⟨1, .sys, true, 0xF, 0x4000, 31⟩) = .header ⟨1, .sys, true, 0xF, 0x4000, 31⟩ := by
  refine ⟨by decide, by decide, ?_, by decide, by decide⟩
  exact fun i _ => no_vec63 i

theorem wit_ControllerInvariant : State.reset.plat.sound ∧ (∃ t, step State.reset = .next t) :=
  ⟨fun _ => by decide, by
    have : (match step State.reset with
      | .next _ => true
      | _ => false) = true := by decide +kernel
    split at this
    · exact ⟨_, ‹_›⟩
    · exact nomatch this⟩

theorem wit_Frames :
    (∀ i ∈ [Instr.iadd .sat 127 (.v 127) (.v 9), .icmp .set .lt true 6 (.v 1) (.v 2), .sadd 159 (.reg 0) .zero, .v2s true 9 3, .bra .always 0 1, .nop],
      ownGroupOnly i = true ∧ ∃ v, s0.dev.issuer = some v ∧ Ready i v) ∧
    ownGroupOnly (.fsqrt .gcr 3 (.v 4)) = false ∧ (∃ v, s0.dev.issuer = some v ∧ Ready (.join 0) v) := by
  refine ⟨?_, rfl, ⟨_, rfl, readyB_ready (by decide)⟩⟩
  intro i hi
  fin_cases hi <;> exact ⟨by decide, _, rfl, readyB_ready (by decide)⟩

/-! ### One step each -/

/-- R84: the first step from a clause's header runs the word after it, and takes one cycle. -/
theorem test_step_sadd : (match step firstState with
    | .next t => decide (t.dev.cycle = 1 ∧ t.agenda = []) && (match t.dev.group 0 0 with
      | some g => decide (g.head.run = 1)
      | none => false)
    | _ => false) = true := by decide +kernel

/-- R223's example: LD.c.w v5, v9, 0 (word 0x06050900) with an address that is no multiple of 4 in lane 3 alone takes the misaligned trap. -/
theorem test_ld_misaligned : (match exec (.ld .core .w 5 (.v 9) 0) (runs { trapDev { blk with groups := [{ grp with v := vec 9 (fun l => if l = 3 then 2 else 0) }] } with
      hbm := [(16 * 0x0B + 1, 1), (16 * 0x0B + 8, 64), (16 * 0x0B + 12, 1)] }) with
    | .next t => (match t.dev.group 0 0 with
      | some g => decide (g.levelH = true ∧ g.trap.cause = 0x0B ∧ g.trap.lanes = 8)
      | none => false)
    | _ => false) = true := by decide +kernel

end Sys2Proof.Tests
end

section
/-! SUPPORT. The values of integer, bit and uniform operations, told as the rules tell them (R147-R151, R170). -/

namespace Sys2Proof.Machine

open Sys2Proof

/-! ### Lane masks -/

theorem Mask.mem_lanes (m : Mask) (l : Nat) : l ∈ m.lanes ↔ l < 32 ∧ m.getLsbD l = true := by
  simp [Mask.lanes, Sys2Proof.lanes]

theorem getLsbD_foldl_one (f : Nat → Bool) (n l : Nat) :
    ((List.range n).foldl (fun m l => if f l then m ||| Mask.one l else m) 0#32).getLsbD l = (decide (l < n ∧ l < 32) && f l) := by
  induction n with
  | zero => simp
  | succ n ih =>
    rw [List.range_succ, List.foldl_append, List.foldl_cons, List.foldl_nil]
    by_cases h : f n <;> grind [Mask.one]

/-- A mask of the lanes that satisfy `f` holds those of them that exist. -/
theorem Mask.getLsbD_ofFn (f : Nat → Bool) (l : Nat) : (Mask.ofFn f).getLsbD l = (decide (l < 32) && f l) :=
  (getLsbD_foldl_one f 32 l).trans (by simp)

/-- Some lane of a mask is in another one where the two meet. -/
theorem Mask.any_lanes (m x : Mask) : m.lanes.any (fun l => x.getLsbD l) = decide (m &&& x ≠ 0#32) := by
  rw [Bool.eq_iff_iff, List.any_eq_true, decide_eq_true_iff, ne_eq, BitVec.eq_of_getLsbD_eq_iff]
  simp only [Mask.mem_lanes]
  grind

/-- Every lane of a mask is in another one where nothing of it lies outside. -/
theorem Mask.all_lanes (m x : Mask) : m.lanes.all (fun l => x.getLsbD l) = decide (m &&& ~~~x = 0#32) := by
  rw [Bool.eq_iff_iff, List.all_eq_true, decide_eq_true_iff, BitVec.eq_of_getLsbD_eq_iff]
  simp only [Mask.mem_lanes]
  grind

/-- All lanes of a mask agree where they agree with the lowest; where there is none, too. -/
theorem Mask.all_lanes_lowest {α : Type} [DecidableEq α] (m : Mask) (x : Nat → α) :
    m.lanes.all (fun l => decide (x l = x m.lowest)) = m.lanes.all (fun l => m.lanes.all (fun k => decide (x l = x k))) := by
  unfold Mask.lowest
  cases m.lanes with
  | nil => rfl
  | cons l ls =>
    change (l :: ls).all (fun j => decide (x j = x l)) = _
    rw [Bool.eq_iff_iff]
    simp only [List.all_eq_true, decide_eq_true_iff]
    exact ⟨fun h j hj k hk => (h j hj).trans (h k hk).symm, fun h j hj => h j hj l List.mem_cons_self⟩

/-! ### Lanes of a quad (R165) -/

theorem or_one_eq (l : Nat) : l ||| 1 = l / 2 * 2 + 1 := by
  have low : ∀ r < 2, r ||| 1 = 1 := by decide
  have hl : l = 2 ^ 1 * (l / 2) ||| l % 2 := by
    rw [← Nat.two_pow_add_eq_or_of_lt (Nat.mod_lt l (by decide))]
    omega
  have hr := Nat.two_pow_add_eq_or_of_lt (i := 1) (b := 1) (by decide) (l / 2)
  calc l ||| 1 = 2 ^ 1 * (l / 2) ||| (l % 2 ||| 1) := by rw [← Nat.or_assoc, ← hl]
    _ = l / 2 * 2 + 1 := by rw [low _ (Nat.mod_lt l (by decide)), ← hr]; omega

theorem or_two_eq (l : Nat) : l ||| 2 = l / 4 * 4 + l % 2 + 2 := by
  have low : ∀ r < 4, r ||| 2 = r % 2 + 2 := by decide
  have hl : l = 2 ^ 2 * (l / 4) ||| l % 4 := by
    rw [← Nat.two_pow_add_eq_or_of_lt (Nat.mod_lt l (by decide))]
    omega
  have hr := Nat.two_pow_add_eq_or_of_lt (i := 2) (b := l % 2 + 2) (by omega) (l / 4)
  calc l ||| 2 = 2 ^ 2 * (l / 4) ||| (l % 4 ||| 2) := by rw [← Nat.or_assoc, ← hl]
    _ = l / 4 * 4 + l % 2 + 2 := by
      rw [low _ (Nat.mod_lt l (by decide)), Nat.mod_mod_of_dvd l (by decide), ← hr]; omega

/-! ### Distinct words (R167) -/

theorem distinct_foldl (l acc : List Word) (h : acc.Nodup) :
    let r := l.foldl (fun acc w => if acc.contains w then acc else acc ++ [w]) acc
    r.Nodup ∧ r.toFinset = acc.toFinset ∪ l.toFinset := by
  induction l generalizing acc with
  | nil => simp [h]
  | cons w ws ih =>
    rw [List.foldl_cons]
    by_cases hw : w ∈ acc
    · rw [if_pos (List.contains_iff_mem.mpr hw)]
      obtain ⟨hn, hs⟩ := ih acc h
      refine ⟨hn, hs.trans ?_⟩
      ext x
      simp only [List.toFinset_cons, Finset.mem_union, Finset.mem_insert, List.mem_toFinset]
      grind
    · rw [if_neg (mt List.contains_iff_mem.mp hw)]
      obtain ⟨hn, hs⟩ := ih (acc ++ [w]) (by rw [List.nodup_append]; grind)
      refine ⟨hn, hs.trans ?_⟩
      ext x
      simp only [List.toFinset_cons, List.toFinset_append, Finset.mem_union, Finset.mem_insert, List.mem_toFinset]
      grind

theorem length_distinct (l : List Word) : (distinct l).length = l.toFinset.card := by
  have h : (distinct l).Nodup ∧ (distinct l).toFinset = [].toFinset ∪ l.toFinset := distinct_foldl l [] List.nodup_nil
  obtain ⟨hn, hs⟩ := h
  rw [← List.toFinset_card_of_nodup hn, hs, List.toFinset_nil, Finset.empty_union]

/-! ### Sums and products -/

theorem clampS_eq (x : Int) : clampS x = clampSigned x := rfl
theorem clampU_eq (x : Int) : clampU x = clampUnsigned x := rfl

/-- The high word of a 64-bit integer. -/
theorem highWord_ofInt (p : Int) : ((BitVec.ofInt 64 p) >>> 32).setWidth 32 = BitVec.ofInt 32 (p / 4294967296) := by
  apply BitVec.eq_of_toNat_eq
  simp [Nat.shiftRight_eq_div_pow]
  omega

theorem imulV_hi (a b : Word) : imulV .hi a b = ((a.signExtend 64 * b.signExtend 64 : BitVec 64) >>> 32).setWidth 32 := by
  have hp : a.signExtend 64 * b.signExtend 64 = BitVec.ofInt 64 (a.toInt * b.toInt) := (BitVec.ofInt_mul _ _).symm
  rw [hp, highWord_ofInt]
  rfl

theorem imulV_hin (a b : Word) : imulV .hin a b = ((a.zeroExtend 64 * b.zeroExtend 64 : BitVec 64) >>> 32).setWidth 32 := by
  have hp : a.zeroExtend 64 * b.zeroExtend 64 = BitVec.ofInt 64 ((a.toNat * b.toNat : Nat) : Int) := by
    rw [BitVec.ofInt_natCast]
    apply BitVec.eq_of_toNat_eq
    simp [BitVec.toNat_mul]
  rw [hp, highWord_ofInt]
  exact (BitVec.ofInt_natCast 32 (a.toNat * b.toNat / 4294967296)).symm

/-! ### Lesser and greater, magnitude -/

theorem iminV_signed (a b : Word) : iminV false a b = if a.toInt ≤ b.toInt then a else b := by
  have : a.toInt = b.toInt → a = b := BitVec.eq_of_toInt_eq
  grind [iminV, BitVec.slt]

theorem iminV_unsigned (a b : Word) : iminV true a b = if a.toNat ≤ b.toNat then a else b := by
  have : a.toNat = b.toNat → a = b := BitVec.eq_of_toNat_eq
  grind [iminV, BitVec.ult]

theorem imaxV_signed (a b : Word) : imaxV false a b = if a.toInt ≤ b.toInt then b else a := by
  grind [imaxV, BitVec.slt]

theorem imaxV_unsigned (a b : Word) : imaxV true a b = if a.toNat ≤ b.toNat then b else a := by
  grind [imaxV, BitVec.ult]

theorem iabsV_wrap (a : Word) : iabsV false a = if a.toInt < 0 then -a else a := by
  simp [iabsV, BitVec.msb_eq_toInt]

theorem iabsV_sat (a : Word) : iabsV true a = clampSigned |a.toInt| := by
  simp [iabsV, clampS_eq]

/-! ### Shifts and rotates: counts of 32 or more included (R147) -/

theorem shlV_eq (a b : Word) : shlV a b = BitVec.ofNat 32 (a.toNat * 2 ^ b.toNat) := by
  have h : a <<< b.toNat = BitVec.ofNat 32 (a.toNat * 2 ^ b.toNat) := by
    apply BitVec.eq_of_toNat_eq
    simp [Nat.shiftLeft_eq]
  unfold shlV
  split
  · rw [← h, BitVec.shiftLeft_eq_zero ‹_›]; rfl
  · exact h

theorem shrV_logical (a b : Word) : shrV false a b = BitVec.ofNat 32 (a.toNat / 2 ^ b.toNat) := by
  have h : a >>> b.toNat = BitVec.ofNat 32 (a.toNat / 2 ^ b.toNat) := by
    have := Nat.div_le_self a.toNat (2 ^ b.toNat)
    apply BitVec.eq_of_toNat_eq
    rw [BitVec.toNat_ushiftRight, BitVec.toNat_ofNat, Nat.shiftRight_eq_div_pow, Nat.mod_eq_of_lt (by omega)]
  simp only [shrV, Bool.false_eq_true, if_false]
  split
  · rw [← h, BitVec.ushiftRight_eq_zero ‹_›]; rfl
  · exact h

theorem shrV_arith (a b : Word) : shrV true a b = BitVec.ofInt 32 (a.toInt / 2 ^ b.toNat) := by
  have h : a.sshiftRight (min b.toNat 32) = a.sshiftRight b.toNat := by
    ext i hi
    grind
  rw [shrV, if_pos rfl, h, BitVec.sshiftRight, Int.shiftRight_eq_div_pow]
  push_cast
  rfl

theorem rotlV_eq (a b : Word) : rotlV a b = a <<< (b.toNat % 32) ||| a >>> (32 - b.toNat % 32) := by
  simp [rotlV, BitVec.rotateLeft_def]

theorem leaV_eq (sh : BitVec 2) (a b : Word) : leaV sh a b = a + b * BitVec.ofNat 32 (2 ^ sh.toNat) := by
  have h : b <<< sh.toNat = b * BitVec.ofNat 32 (2 ^ sh.toNat) := by
    apply BitVec.eq_of_toNat_eq
    simp [Nat.shiftLeft_eq]
  rw [leaV, h]

/-! ### Counts and reversal -/

theorem popcV_eq (a : Word) : popcV a = BitVec.ofNat 32 ((List.range 32).countP (fun i => a.getLsbD i)) := by
  simp [popcV, Mask.count, Mask.lanes, List.countP_eq_length_filter, Sys2Proof.lanes]

theorem clzV_eq (a : Word) : clzV a = BitVec.ofNat 32 (if a = 0 then 32 else 31 - Nat.log2 a.toNat) := by
  have h0 : a.toNat = 0 ↔ a = 0 := by simp [BitVec.toNat_eq]
  unfold clzV bitLen
  simp only [h0]
  split <;> simp

theorem brevV_eq (a : Word) : brevV a = a.reverse := by
  apply BitVec.eq_of_getLsbD_eq
  intro i hi
  rw [brevV, Mask.getLsbD_ofFn, BitVec.getLsbD_reverse, BitVec.getMsbD_eq_getLsbD]

/-! ### Bit fields and bytes (R148, R151) -/

theorem fieldAt_eq (b : Word) : fieldAt b = (fieldPos b, fieldLen b) := rfl

theorem bfxV_unsigned (a b : Word) : bfxV false a b = BitVec.ofNat 32 (a.toNat / 2 ^ (fieldAt b).1 % 2 ^ (fieldAt b).2) := by
  by_cases h : fieldLen b = 0
  · simp [bfxV, fieldAt_eq, h, Nat.mod_one]
  · simp [bfxV, fieldAt_eq, h]

/-- Two's complement of a field of `n` bits: its top bit is the sign. -/
theorem signExtend_ofNat_eq (x n : Nat) : (BitVec.ofNat n x).signExtend 32 =
    if (x % 2 ^ n).testBit (n - 1) then BitVec.ofInt 32 (((x % 2 ^ n : Nat) : Int) - (2 ^ n : Int)) else BitVec.ofNat 32 (x % 2 ^ n) := by
  have hs : (BitVec.ofNat n x).msb = (x % 2 ^ n).testBit (n - 1) := BitVec.msb_eq_getLsbD_last _
  rw [BitVec.signExtend, BitVec.toInt_eq_msb_cond, hs, BitVec.toNat_ofNat]
  split
  · push_cast; rfl
  · exact BitVec.ofInt_natCast _ _

theorem bfxV_signed (a b : Word) : bfxV true a b = (BitVec.ofNat (fieldAt b).2 (a.toNat / 2 ^ (fieldAt b).1)).signExtend 32 := by
  rw [signExtend_ofNat_eq, fieldAt_eq]
  by_cases h : fieldLen b = 0
  · simp [bfxV, h, Nat.mod_one]
  · simp [bfxV, h]

theorem bfiV_eq (a b d : Word) : bfiV a b d =
    (d &&& ~~~(BitVec.ofNat 32 (2 ^ (fieldAt b).2 - 1) <<< (fieldAt b).1)) |||
      ((a <<< (fieldAt b).1) &&& (BitVec.ofNat 32 (2 ^ (fieldAt b).2 - 1) <<< (fieldAt b).1)) := by
  have h : BitVec.ofNat 32 ((2 ^ fieldLen b - 1) * 2 ^ fieldPos b) = BitVec.ofNat 32 (2 ^ fieldLen b - 1) <<< fieldPos b := by
    apply BitVec.eq_of_toNat_eq
    simp [Nat.shiftLeft_eq]
  rw [bfiV, h, fieldAt_eq]

theorem getLsbD_setByte (d : Word) (k : Nat) (i : Byte) (l : Nat) : (setByte d k i).getLsbD l =
    (decide (l < 32) && if 8 * k ≤ l ∧ l < 8 * k + 8 then i.getLsbD (l - 8 * k) else d.getLsbD l) := by
  have hm (j : Nat) : (0xFF#32).getLsbD j = decide (j < 8) := by
    have : (0xFF#32) = (BitVec.allOnes 8).setWidth 32 := by decide
    rw [this, BitVec.getLsbD_setWidth, BitVec.getLsbD_allOnes]
    grind
  simp only [setByte, zext8, BitVec.getLsbD_or, BitVec.getLsbD_and, BitVec.getLsbD_not, BitVec.getLsbD_shiftLeft, hm,
    BitVec.getLsbD_setWidth, BitVec.zeroExtend]
  grind

theorem setByte_one (d : Word) (i : Byte) : setByte d 1 i = d.extractLsb' 16 16 ++ i ++ d.extractLsb' 0 8 := by
  apply BitVec.eq_of_getLsbD_eq
  intro l hl
  simp only [getLsbD_setByte, BitVec.getLsbD_append, BitVec.getLsbD_extractLsb']
  grind

theorem setByte_two (d : Word) (i : Byte) : setByte d 2 i = d.extractLsb' 24 8 ++ i ++ d.extractLsb' 0 16 := by
  apply BitVec.eq_of_getLsbD_eq
  intro l hl
  simp only [getLsbD_setByte, BitVec.getLsbD_append, BitVec.getLsbD_extractLsb']
  grind

theorem setByte_three (d : Word) (i : Byte) : setByte d 3 i = i ++ d.extractLsb' 0 24 := by
  apply BitVec.eq_of_getLsbD_eq
  intro l hl
  simp only [getLsbD_setByte, BitVec.getLsbD_append, BitVec.getLsbD_extractLsb']
  grind

/-! ### Comparisons (R170) -/

theorem sminmaxV_min (n : Bool) : sminmaxV n false = iminV n := by funext a b; exact if_neg Bool.false_ne_true
theorem sminmaxV_max (n : Bool) : sminmaxV n true = imaxV n := by funext a b; exact if_pos rfl

theorem scmpV_eq (a b : Word) : scmpV .eq a b = if a = b then 1 else 0 := by
  simp [scmpV, boolWord]

theorem scmpV_ne (a b : Word) : scmpV .ne a b = if a = b then 0 else 1 := by
  by_cases h : a = b <;> simp [scmpV, boolWord, h]

theorem scmpV_lt (a b : Word) : scmpV .lt a b = if a.toInt < b.toInt then 1 else 0 := by
  simp [scmpV, boolWord, BitVec.slt]

theorem scmpV_le (a b : Word) : scmpV .le a b = if a.toInt ≤ b.toInt then 1 else 0 := by
  simp [scmpV, boolWord, BitVec.sle]

theorem scmpnV_lt (a b : Word) : scmpnV .lt a b = if a.toNat < b.toNat then 1 else 0 := by
  simp [scmpnV, boolWord, BitVec.ult]

theorem scmpnV_le (a b : Word) : scmpnV .le a b = if a.toNat ≤ b.toNat then 1 else 0 := by
  simp [scmpnV, boolWord, BitVec.ule]

theorem scmpnV_gt (a b : Word) : scmpnV .gt a b = if b.toNat < a.toNat then 1 else 0 := by
  simp [scmpnV, boolWord, BitVec.ult]

theorem scmpnV_ge (a b : Word) : scmpnV .ge a b = if b.toNat ≤ a.toNat then 1 else 0 := by
  simp [scmpnV, boolWord, BitVec.ule]

/-! ### Pairs of words (R59) -/

theorem lo64_eq (x : BitVec 64) : lo64 x = x.extractLsb' 0 32 := by
  apply BitVec.eq_of_toNat_eq
  simp [lo64]

theorem hi64_eq (x : BitVec 64) : hi64 x = x.extractLsb' 32 32 := by
  apply BitVec.eq_of_toNat_eq
  simp [hi64]

end Sys2Proof.Machine
end

section
/-! SUPPORT. VEC and UNI instructions that change their own group alone: what the group reads once it is counted, and what such an
instruction does when nothing stops it, shape by shape. -/

namespace Sys2Proof.Machine

open Sys2Proof

/-! ### The group once its instruction is counted -/

theorem View.counted_g (v : View) : v.counted.g = v.issued := rfl
@[simp] theorem View.issued_active (v : View) : v.issued.active = v.act := rfl
@[simp] theorem View.issued_live (v : View) : v.issued.live = v.g.live := rfl
@[simp] theorem View.issued_gcr (v : View) : v.issued.gcr = v.g.gcr := rfl
@[simp] theorem View.issued_vreg (v : View) (n : Nat) : v.issued.vreg n = v.g.vreg n := rfl
@[simp] theorem View.issued_pred (v : View) (p : Nat) : v.issued.pred p = v.g.pred p := rfl
@[simp] theorem View.issued_uni (v : View) (n : Nat) : v.issued.uni n = v.g.uni n := rfl
@[simp] theorem View.issued_word (v : View) (r : RegRef) (l : Nat) : v.issued.word r l = v.g.word r l := by cases r <;> rfl
@[simp] theorem View.issued_src (v : View) (a : Src) : v.issued.src a = v.g.src a := by cases a <;> rfl
@[simp] theorem View.issued_usrc (v : View) (a : USrc) : v.issued.usrc a = v.g.usrc a := by cases a <;> rfl

/-- p7 reads true (R69). -/
theorem Group.getLsbD_pred_seven (g : Group) {l : Nat} (hl : l < 32) : (g.pred 7).getLsbD l = true := by
  rw [Group.pred, if_pos rfl, BitVec.getLsbD_allOnes, decide_eq_true hl]

/-! ### Writes -/

/-- A write of a vector register depends on the values of the lanes it writes alone. -/
theorem Group.setWords_congr (g : Group) (r : RegRef) (m : Mask) {f f' : Nat → Word} (h : ∀ l < 32, m.getLsbD l = true → f l = f' l) :
    g.setWords r m f = g.setWords r m f' := by
  refine List.foldl_ext _ _ g fun g l hl => ?_
  rw [Mask.mem_lanes] at hl
  rw [h l hl.1 hl.2]

theorem Group.setWords_vreg (g : Group) (r : RegRef) (m : Mask) (f : Nat → Word) (n : Nat) : (g.setWords r m f).vreg n = g.vreg n := by
  simp [Group.vreg]

theorem Group.setWords_active (g : Group) (r : RegRef) (m : Mask) (f : Nat → Word) : (g.setWords r m f).active = g.active := by
  simp [Group.active, Group.head]

/-! ### Shapes of instructions -/

/-- The instruction reads nothing through memory, and its effect once nothing stops it is `body` on its group. -/
def OnGroup (i : Instr) (body : Group → Except Trap Group) : Prop :=
  ∀ s v, exec i s = issueG i (accessOf i v) body s ∧ extraOf i v = {}

section
variable {i : Instr} {body : Group → Except Trap Group} {s : State} {v : View}

theorem OnGroup.completes (h : OnGroup i body) (hi : s.dev.issuer = some v) (hr : Ready i v) {g : Group} (hb : body v.issued = .ok g) :
    exec i s = .next (s.withDev (v.completes v.d g)) := by
  obtain ⟨hx, he⟩ := h s v
  rw [hx]
  exact issue_done hi hr he (by simp only [View.counted_g, hb]; rfl)

theorem OnGroup.traps (h : OnGroup i body) (hi : s.dev.issuer = some v) (hr : Ready i v) {t : Trap} (hb : body v.issued = .error t) :
    exec i s = .next (s.withDev (v.traps i t)) := by
  obtain ⟨hx, he⟩ := h s v
  rw [hx]
  exact issue_trap hi hr he (by simp only [View.counted_g, hb])

end

/-- An instruction that writes D in the active lanes (R144): only lanes that exist count. -/
theorem OnGroup.writesV {i : Instr} {d : BitVec 7} {f f' : Group → Nat → Word} (h : OnGroup i (fun g => .ok (g.setD d.toNat (f g))))
    (hf : ∀ v : View, ∀ l < 32, f v.issued l = f' v.g l) : WritesV i d f' :=
  fun _ v hi hr => h.completes hi hr
    (congrArg Except.ok (Group.setWords_congr v.issued (v.g.vreg d.toNat) v.act fun l hl _ => hf v l hl))

/-- The form with a register and the one with an immediate write one function of two words. -/
theorem writesBoth_of {r : BitVec 7 → Src → Src → Instr} {im : BitVec 7 → Src → BitVec 8 → Instr} {ext : BitVec 8 → Word}
    {f f' : Word → Word → Word} (hf : ∀ a b, f a b = f' a b)
    (hr : ∀ d a b, OnGroup (r d a b) (fun g => .ok (g.setD d.toNat (fun l => f (g.src a l) (g.src b l)))) := by
      exact fun _ _ _ _ _ => ⟨rfl, rfl⟩)
    (him : ∀ d a x, OnGroup (im d a x) (fun g => .ok (g.setD d.toNat (fun l => f (g.src a l) (ext x)))) := by
      exact fun _ _ _ _ _ => ⟨rfl, rfl⟩) : WritesBoth r im ext f' := by
  constructor
  · exact fun d a b => (hr d a b).writesV fun v l _ => by rw [View.issued_src, View.issued_src, hf]; rfl
  · exact fun d a x => (him d a x).writesV fun v l _ => by rw [View.issued_src, hf]; rfl

/-- An instruction of one source writes a function `f` of its word. -/
theorem writes1_of (f : Word → Word) {i : Instr} {d : BitVec 7} {a : Src} {f' : Group → Nat → Word} (hf : ∀ g l, f (g.src a l) = f' g l)
    (h : OnGroup i (fun g => .ok (g.setD d.toNat (fun l => f (g.src a l)))) := by exact fun _ _ => ⟨rfl, rfl⟩) : WritesV i d f' :=
  h.writesV fun v l _ => by rw [View.issued_src, hf]

/-- An instruction of two sources writes a function `f` of their words. -/
theorem writes2_of (f : Word → Word → Word) {i : Instr} {d : BitVec 7} {a b : Src} {f' : Group → Nat → Word}
    (hf : ∀ g l, f (g.src a l) (g.src b l) = f' g l)
    (h : OnGroup i (fun g => .ok (g.setD d.toNat (fun l => f (g.src a l) (g.src b l)))) := by exact fun _ _ => ⟨rfl, rfl⟩) : WritesV i d f' :=
  h.writesV fun v l _ => by rw [View.issued_src, View.issued_src, hf]

/-- An instruction of two sources and the destination's old word. -/
theorem writes3_of (f : Word → Word → Word → Word) {i : Instr} {d : BitVec 7} {a b : Src} {f' : Group → Nat → Word}
    (hf : ∀ g l, f (g.src a l) (g.src b l) (g.src (.v d) l) = f' g l)
    (h : OnGroup i (fun g => .ok (g.setD d.toNat (fun l => f (g.src a l) (g.src b l) (g.src (.v d) l)))) := by
      exact fun _ _ => ⟨rfl, rfl⟩) : WritesV i d f' :=
  h.writesV fun v l _ => by rw [View.issued_src, View.issued_src, View.issued_src, hf]

/-- A UNI instruction that writes one uniform (R146). -/
theorem OnGroup.writesU {i : Instr} {d : Nat} {f f' : Group → Word} (h : OnGroup i (fun g => .ok (g.setUni d (f g))))
    (hf : ∀ v : View, f v.issued = f' v.g) : WritesU i d f' :=
  fun _ v hi hr => h.completes hi hr (by rw [hf])

/-- A UNI instruction of two sources. -/
theorem writesU2_of (f : Word → Word → Word) {i : Instr} {d : BitVec 8} {a b : USrc} {f' : Group → Word}
    (hf : ∀ g : Group, f (g.usrc a) (g.usrc b) = f' g)
    (h : OnGroup i (fun g => .ok (g.setUni d.toNat (f (g.usrc a) (g.usrc b)))) := by exact fun _ _ => ⟨rfl, rfl⟩) : WritesU i d.toNat f' :=
  h.writesU fun v => by rw [View.issued_usrc, View.issued_usrc, hf]

/-- An instruction that writes a 64-bit value to D and D+1 (R149). -/
theorem OnGroup.writesPair {i : Instr} {d : BitVec 7} {f f' : Group → Nat → BitVec 64}
    (h : OnGroup i (fun g => .ok ((g.setD d.toNat (fun l => lo64 (f g l))).setD (d.toNat + 1) (fun l => hi64 (f g l)))))
    (hf : ∀ v : View, f v.issued = f' v.g) :
    Answers i (fun v => v.completes v.d
      ((v.issued.setWords (v.g.vreg d.toNat) v.act (fun l => (f' v.g l).extractLsb' 0 32)).setWords (v.g.vreg (d.toNat + 1)) v.act
        (fun l => (f' v.g l).extractLsb' 32 32))) :=
  fun _ v hi hr => h.completes hi hr (by
    simp only [Group.setD, Group.setWords_vreg, Group.setWords_active, View.issued_vreg, View.issued_active, hf, lo64_eq, hi64_eq])

/-! ### Ill-formed words -/

/-- A word outside SYS whose operands break a rule of R99 is ILLEGAL_INSTR, with the word in info word 0. -/
theorem exec_illFormed {i : Instr} (hw : hasWord i = true) (hc : clsOf i ≠ .sys) (hf : WellFormed i = false) {s : State} {v : View}
    (hi : s.dev.issuer = some v) (hr : v.g.head.run < 24) :
    exec i s = .next (s.withDev (v.traps i { cause := 0x02, lanes := v.act, info0 := opWord i })) := by
  obtain ⟨body, hx⟩ := exec_word i hw s v hi
  have hform : formOk i (accessOf i v) v.g = false := by simp [formOk, hf]
  have hfail : firstFailure i (accessOf i v) (extraOf i v) v = some (.trap { cause := 0x02, lanes := v.act, info0 := opWord i }) := by
    unfold firstFailure
    rw [if_neg (by omega), if_neg (fun h => hc h.1), if_pos hform]
    rfl
  rw [hx]
  simp only [verdict, hfail]
  rfl

/-! ### Instructions over the members of a mask (R162) -/

/-- The lanes that contribute are the members that are live. -/
theorem contributors_eq (g : Group) (b : BitVec 7) : contributors g b = (members g (g.uni b.toNat)).lanes := by
  simp [contributors, members, Mask.lanes, Sys2Proof.lanes]

theorem selfMember_iff (v : View) (b : BitVec 7) : selfMember v b ↔ v.act &&& ~~~(v.g.uni b.toNat) = 0#32 := by
  rw [BitVec.eq_of_getLsbD_eq_iff]
  constructor
  · intro h l hl
    have := h l
    grind
  · intro h l hl
    have hl32 : l < 32 := BitVec.lt_of_getLsbD hl
    have := h l hl32
    grind

/-- The instruction reads nothing through memory, and its effect is `f` on its group and the members that contribute. -/
def OnMembers (i : Instr) (b : BitVec 7) (f : Group → Mask → Except Trap Group) : Prop :=
  ∀ s v, exec i s = memberOp i (accessOf i v) b f s ∧ extraOf i v = {}

section
variable {i : Instr} {b : BitVec 7} {f : Group → Mask → Except Trap Group} {s : State} {v : View}

/-- With every active lane in the mask it goes on. -/
theorem OnMembers.completes (h : OnMembers i b f) (hi : s.dev.issuer = some v) (hr : Ready i v) (hm : selfMember v b) {g : Group}
    (hb : f v.issued (members v.g (v.g.uni b.toNat)) = .ok g) : exec i s = .next (s.withDev (v.completes v.d g)) := by
  obtain ⟨hx, he⟩ := h s v
  have hc : memberCheck v.issued (v.g.uni b.toNat) = none := if_pos ((selfMember_iff v b).mp hm)
  have hb' : f v.issued (members v.issued (v.g.uni b.toNat)) = .ok g := hb
  rw [hx, memberOp, issueG]
  exact issue_done hi hr he (by simp only [View.counted_g, View.issued_uni, hc, hb']; rfl)

/-- An active lane that the mask omits is MEMBER_SELF. -/
theorem OnMembers.memberSelf (h : OnMembers i b f) (hi : s.dev.issuer = some v) (hr : Ready i v)
    (hm : v.act &&& ~~~(v.g.uni b.toNat) ≠ 0#32) :
    exec i s = .next (s.withDev (v.traps i
      { cause := 0x08, lanes := v.act &&& ~~~(v.g.uni b.toNat), info0 := v.act &&& ~~~(v.g.uni b.toNat) })) := by
  obtain ⟨hx, he⟩ := h s v
  have hc : memberCheck v.issued (v.g.uni b.toNat) =
      some { cause := 0x08, lanes := v.act &&& ~~~(v.g.uni b.toNat), info0 := v.act &&& ~~~(v.g.uni b.toNat) } := if_neg hm
  rw [hx, memberOp, issueG]
  exact issue_trap hi hr he (by simp only [View.counted_g, View.issued_uni, hc])

end

end Sys2Proof.Machine
end

section
/-! PROOFS. The tables of integer and uniform operations (Tables 6-1 and 6-10); fields, moves and pairs (R148 to R151). -/

namespace Sys2Proof.Machine

open Sys2Proof

/-- IMAD with an immediate for its second factor. -/
theorem imadImm_writes (sat : Bool) (d : BitVec 7) (a : Src) (x : BitVec 8) :
    WritesV (.imadImm sat d a x) d (fun g l => imadV sat (g.src a l) (sext8 x) (g.src (.v d) l)) :=
  OnGroup.writesV (f := fun g l => imadV sat (g.src a l) (sext8 x) (g.src (.v d) l)) (fun _ _ => ⟨rfl, rfl⟩)
    fun v l _ => by rw [View.issued_src, View.issued_src]

theorem imadImm_wrap_writes (d : BitVec 7) (a : Src) (x : BitVec 8) :
    WritesV (.imadImm false d a x) d (fun g l => g.src (.v d) l + g.src a l * x.signExtend 32) := imadImm_writes false d a x

theorem imadImm_sat_writes (d : BitVec 7) (a : Src) (x : BitVec 8) : WritesV (.imadImm true d a x) d
    (fun g l => clampSigned ((g.src (.v d) l).toInt + (g.src a l).toInt * x.toInt)) := by
  have hx : (sext8 x).toInt = x.toInt := BitVec.toInt_signExtend_of_le (by decide)
  simpa only [imadV, clampS_eq, hx, if_true] using imadImm_writes true d a x

/-- Settles O1: each row's word is the Operation column's, by the lemma about its value, and each form writes it in the active lanes. -/
theorem integerOperations : Obligations.IntegerOperations := by
  unfold Obligations.IntegerOperations
  exact ⟨writesBoth_of (f := iaddV .wrap) fun _ _ => rfl,
    writesBoth_of (f := iaddV .sat) fun _ _ => clampS_eq _,
    writesBoth_of (f := iaddV .satn) fun _ _ => clampU_eq _,
    writesBoth_of (f := isubV .wrap) fun _ _ => rfl,
    writesBoth_of (f := isubV .sat) fun _ _ => clampS_eq _,
    writesBoth_of (f := isubV .satn) fun _ _ => clampU_eq _,
    writesBoth_of (f := imulV .low) fun _ _ => rfl,
    writesBoth_of imulV_hi,
    writesBoth_of imulV_hin,
    fun _ _ _ => writes3_of (imadV false) fun _ _ => rfl,
    imadImm_wrap_writes,
    fun _ _ _ => writes3_of (imadV true) fun _ _ => clampS_eq _,
    imadImm_sat_writes,
    writesBoth_of iminV_signed,
    writesBoth_of iminV_unsigned,
    writesBoth_of imaxV_signed,
    writesBoth_of imaxV_unsigned,
    fun _ _ => writes1_of (iabsV false) fun _ _ => iabsV_wrap _,
    fun _ _ => writes1_of (iabsV true) fun _ _ => iabsV_sat _,
    fun _ _ => writes1_of (inegV false) fun _ _ => rfl,
    fun _ _ => writes1_of (inegV true) fun _ _ => clampS_eq _,
    writesBoth_of fun _ _ => rfl,
    writesBoth_of fun _ _ => rfl,
    writesBoth_of fun _ _ => rfl,
    writesBoth_of fun _ _ => rfl,
    writesBoth_of shlV_eq,
    writesBoth_of shrV_logical,
    writesBoth_of shrV_arith,
    writesBoth_of rotlV_eq,
    fun _ _ => writes1_of popcV fun _ _ => popcV_eq _,
    fun _ _ => writes1_of clzV fun _ _ => clzV_eq _,
    fun _ _ => writes1_of brevV fun _ _ => brevV_eq _,
    fun sh => writesBoth_of (leaV_eq sh)⟩

/-- Settles O15: each row's word is the Operation column's, and goes to the uniform. -/
theorem uniformArithmetic : Obligations.UniformArithmetic := by
  unfold Obligations.UniformArithmetic
  exact ⟨fun _ _ _ => writesU2_of (· + ·) fun _ => rfl,
    fun _ _ _ => writesU2_of (· - ·) fun _ => rfl,
    fun _ _ _ => writesU2_of (imulV .low) fun _ => rfl,
    fun _ _ _ => writesU2_of (imulV .hi) fun _ => imulV_hi _ _,
    fun _ _ _ => writesU2_of (imulV .hin) fun _ => imulV_hin _ _,
    fun d a b => OnGroup.writesU (f := fun g => g.uni d.toNat + g.usrc a * g.usrc b) (fun _ _ => ⟨rfl, rfl⟩) fun v => by simp,
    fun _ _ _ => writesU2_of (· &&& ·) fun _ => rfl,
    fun _ _ _ => writesU2_of (· ||| ·) fun _ => rfl,
    fun _ _ _ => writesU2_of (· ^^^ ·) fun _ => rfl,
    fun _ _ _ => writesU2_of shlV fun _ => shlV_eq _ _,
    fun _ _ _ => writesU2_of (shrV false) fun _ => shrV_logical _ _,
    fun _ _ _ => writesU2_of (shrV true) fun _ => shrV_arith _ _,
    fun _ _ _ => writesU2_of (sminmaxV false false) fun _ => by rw [sminmaxV_min, iminV_signed],
    fun _ _ _ => writesU2_of (sminmaxV false true) fun _ => by rw [sminmaxV_max, imaxV_signed],
    fun _ _ _ => writesU2_of (sminmaxV true false) fun _ => by rw [sminmaxV_min, iminV_unsigned],
    fun _ _ _ => writesU2_of (sminmaxV true true) fun _ => by rw [sminmaxV_max, imaxV_unsigned],
    fun _ _ _ => writesU2_of (scmpV .eq) fun _ => scmpV_eq _ _,
    fun _ _ _ => writesU2_of (scmpV .ne) fun _ => scmpV_ne _ _,
    fun _ _ _ => writesU2_of (scmpV .lt) fun _ => scmpV_lt _ _,
    fun _ _ _ => writesU2_of (scmpV .le) fun _ => scmpV_le _ _,
    fun _ _ _ => writesU2_of (scmpnV .lt) fun _ => scmpnV_lt _ _,
    fun _ _ _ => writesU2_of (scmpnV .le) fun _ => scmpnV_le _ _,
    fun _ _ _ => writesU2_of (scmpnV .gt) fun _ => scmpnV_gt _ _,
    fun _ _ _ => writesU2_of (scmpnV .ge) fun _ => scmpnV_ge _ _,
    fun d a x => OnGroup.writesU (f := fun g => g.usrc a + sext8 x) (fun _ _ => ⟨rfl, rfl⟩) fun v => by rw [View.issued_usrc]; rfl,
    fun d x => OnGroup.writesU (f := fun _ => zext8 x) (fun _ _ => ⟨rfl, rfl⟩) fun _ => rfl,
    fun d x => OnGroup.writesU (f := fun _ => sext8 x) (fun _ _ => ⟨rfl, rfl⟩) fun _ => rfl,
    fun d x => OnGroup.writesU (f := fun g => smovbV .b1 x (g.uni d.toNat)) (fun _ _ => ⟨rfl, rfl⟩) fun _ => setByte_one _ _,
    fun d x => OnGroup.writesU (f := fun g => smovbV .b2 x (g.uni d.toNat)) (fun _ _ => ⟨rfl, rfl⟩) fun _ => setByte_two _ _,
    fun d x => OnGroup.writesU (f := fun g => smovbV .b3 x (g.uni d.toNat)) (fun _ _ => ⟨rfl, rfl⟩) fun _ => setByte_three _ _,
    fun d a => OnGroup.writesU (f := fun g => g.usrc a) (fun _ _ => ⟨rfl, rfl⟩) fun v => v.issued_usrc a⟩

/-- SEL takes A where its predicate is true; p7 always is (R69, R150). -/
theorem sel_writes (p : BitVec 3) (d : BitVec 7) (a b : Src) :
    WritesV (.sel p d a b) d (fun g l => if p = 7#3 ∨ (g.pred p.toNat).getLsbD l then g.src a l else g.src b l) :=
  OnGroup.writesV (f := fun g l => if (g.pred p.toNat).getLsbD l then g.src a l else g.src b l) (fun _ _ => ⟨rfl, rfl⟩) fun v l hl => by
    by_cases hp : p = 7#3
    · subst hp
      simp only [View.issued_pred, View.issued_src, true_or, if_true]
      exact if_pos (Group.getLsbD_pred_seven v.g hl)
    · simp [hp]

/-- ADD64 over a pair of vector registers: the sum of the pairs, or of the pair and the extended word. -/
theorem add64_onGroup (zx : Bool) (d a : BitVec 7) (b : Src) : OnGroup (.add64 zx d (.v a) b) (fun g => .ok
    ((g.setD d.toNat (fun l => lo64 (g.srcPair (.v a) l + if zx then (g.src b l).zeroExtend 64 else g.srcPair b l))).setD (d.toNat + 1)
      (fun l => hi64 (g.srcPair (.v a) l + if zx then (g.src b l).zeroExtend 64 else g.srcPair b l)))) := fun _ _ => ⟨rfl, rfl⟩

theorem add64Imm_onGroup (zx : Bool) (d a : BitVec 7) (x : BitVec 8) : OnGroup (.add64Imm zx d (.v a) x) (fun g => .ok
    ((g.setD d.toNat (fun l => lo64 (g.srcPair (.v a) l + if zx then x.zeroExtend 64 else x.signExtend 64))).setD (d.toNat + 1)
      (fun l => hi64 (g.srcPair (.v a) l + if zx then x.zeroExtend 64 else x.signExtend 64)))) := fun _ _ => ⟨rfl, rfl⟩

/-- An odd D of a pair is no operand (R59, R149). -/
theorem add64_illFormed {d : BitVec 7} (h : d.toNat % 2 = 1) (zx : Bool) (a b : Src) : WellFormed (.add64 zx d a b) = false := by
  simp [WellFormed, aligned, h]

theorem add64Imm_illFormed {d : BitVec 7} (h : d.toNat % 2 = 1) (zx : Bool) (a : Src) (x : BitVec 8) :
    WellFormed (.add64Imm zx d a x) = false := by
  simp [WellFormed, aligned, h]

/-- Settles O2: the values by the lemmas about fields and bytes, an odd D by the check of the word's form, and the two words of a sum as
the halves of one 64-bit value. -/
theorem fieldsMovesPairs : Obligations.FieldsMovesPairs := by
  unfold Obligations.FieldsMovesPairs
  refine ⟨fun _ _ _ => writes2_of (bfxV false) fun _ _ => bfxV_unsigned _ _, fun _ _ _ => writes2_of (bfxV true) fun _ _ => bfxV_signed _ _,
    fun _ _ _ => writes3_of (fun a b d => bfiV a b d) fun _ _ => bfiV_eq _ _ _,
    fun _ _ => writes1_of (fun a => a) fun _ _ => rfl,
    fun d x => OnGroup.writesV (f := fun _ _ => zext8 x) (fun _ _ => ⟨rfl, rfl⟩) fun _ _ _ => rfl,
    fun d x => OnGroup.writesV (f := fun _ _ => sext8 x) (fun _ _ => ⟨rfl, rfl⟩) fun _ _ _ => rfl,
    fun d x => writes1_of (a := .v d) (moviV .b1 x) fun _ _ => setByte_one _ _,
    fun d x => writes1_of (a := .v d) (moviV .b2 x) fun _ _ => setByte_two _ _,
    fun d x => writes1_of (a := .v d) (moviV .b3 x) fun _ _ => setByte_three _ _,
    sel_writes,
    fun p d => OnGroup.writesV (f := fun g l => boolWord ((g.pred p.toNat).getLsbD l)) (fun _ _ => ⟨rfl, rfl⟩) fun _ _ _ => rfl,
    fun zx d a b s v hi hr hd => exec_illFormed rfl (by rintro ⟨⟩) (add64_illFormed hd zx a b) hi hr,
    fun zx d a x s v hi hr hd => exec_illFormed rfl (by rintro ⟨⟩) (add64Imm_illFormed hd zx a x) hi hr, ?_⟩
  intro sums pair
  have hpair (v : View) (a : BitVec 7) (l : Nat) : v.issued.srcPair (.v a) l = pair v.g a l := by
    simp only [Group.srcPair, pair64, pair, View.issued_vreg, View.issued_word]
  have hsums (i : Instr) (d : BitVec 7) (f f' : Group → Nat → BitVec 64)
      (h : OnGroup i (fun g => .ok ((g.setD d.toNat (fun l => lo64 (f g l))).setD (d.toNat + 1) (fun l => hi64 (f g l)))))
      (hf : ∀ v : View, f v.issued = f' v.g) : sums i d f' := h.writesPair hf
  clear_value sums
  refine ⟨fun d a b => hsums _ _ _ _ (add64_onGroup false d a (.v b)) fun v => ?_,
    fun d a b => hsums _ _ _ _ (add64_onGroup false d a (.s b)) fun v => ?_,
    fun d a b => hsums _ _ _ _ (add64_onGroup true d a b) fun v => ?_,
    fun d a x => hsums _ _ _ _ (add64Imm_onGroup false d a x) fun v => ?_,
    fun d a x => hsums _ _ _ _ (add64Imm_onGroup true d a x) fun v => ?_⟩
  all_goals funext l
  · simp only [hpair, Bool.false_eq_true, if_false]
  · have hb : v.issued.srcPair (.s b) l = v.g.uni (b.toNat + 1) ++ v.g.uni b.toNat := rfl
    simp only [hpair, hb, Bool.false_eq_true, if_false]
  · simp only [hpair, View.issued_src, if_true]
  · simp only [hpair, Bool.false_eq_true, if_false]
  · simp only [hpair, if_true]

end Sys2Proof.Machine
end

section
/-! PROOFS. The exchange of words between lanes, and votes (R162 to R167). -/

namespace Sys2Proof.Machine

open Sys2Proof

/-! ### SHFL (R163) -/

theorem shflSrc_eq (m : ShflMode) (l : Nat) (b : Word) : shflSrc m l b = shuffleFrom m l b := by
  cases m <;> rfl

/-- SHFL: the source lane where it exists and is live, and its own lane elsewhere; p6 tells which. -/
theorem OnGroup.shuffles {i : Instr} {m : ShflMode} {d a : BitVec 7} {b : Group → Nat → Word}
    (h : OnGroup i (fun g => .ok ((g.setD d.toNat (fun l => g.src (.v a) (if liveLane g (shflSrc m l (b g l)) then (shflSrc m l (b g l)).toNat
      else l))).setPred 6 g.active (fun l => liveLane g (shflSrc m l (b g l))))))
    (hb : ∀ v : View, b v.issued = b v.g) :
    Answers i (fun v => v.completes v.d ((v.issued.setWords (v.g.vreg d.toNat) v.act (fun l =>
      v.g.word (v.g.vreg a.toNat) (if liveLane v.g (shuffleFrom m l (b v.g l)) then (shuffleFrom m l (b v.g l)).toNat else l))).setPred 6 v.act
        (fun l => liveLane v.g (shuffleFrom m l (b v.g l))))) := by
  intro s v hi hr
  have hl (k : Int) : liveLane v.issued k = liveLane v.g k := rfl
  refine h.completes hi hr ?_
  simp only [shflSrc_eq, hb, hl, Group.setD, View.issued_vreg, View.issued_active, View.issued_src]
  rfl

/-! ### QX (R165) -/

theorem WritesF.congr {i : Instr} {d : BitVec 7} {f f' : Group → Nat → WRes} (h : WritesF i d f) (hf : ∀ g l, f g l = f' g l) :
    WritesF i d f' := by
  obtain rfl : f = f' := funext fun g => funext fun l => hf g l
  exact h

/-- The difference of two lanes' values, under FTZ and the group's rounding mode. -/
theorem fsubV_eq (g : Group) (a : Src) (j k : Nat) : fsubV (rndMode .gcr g.gcr) (gcrFtz g.gcr) (g.src a j) (g.src a k) =
    rounded .gcr g (addExact (rndMode .gcr g.gcr) (fsrc g a j) (fsrc g a k).neg) := rfl

/-- QX.ddx: in each pair of a quad's row, the right lane less the left one. -/
theorem qxDdx_writes (d a : BitVec 7) : WritesF (.qx .ddx d a) d (fun g l =>
    rounded .gcr g (addExact (rndMode .gcr g.gcr) (fsrc g (.v a) (l / 2 * 2 + 1)) (fsrc g (.v a) (l / 2 * 2)).neg)) :=
  WritesF.congr (f := fun g l => fsubV (rndMode .gcr g.gcr) (gcrFtz g.gcr) (g.src (.v a) (l ||| 1)) (g.src (.v a) (l / 2 * 2)))
    (vecFl_writes (fun _ => rfl) (fun _ => rfl) (fun _ => rfl) fun _ => rfl) fun g l => by rw [fsubV_eq, or_one_eq]

/-- QX.ddy: in each column of a quad, the lower lane less the upper one. -/
theorem qxDdy_writes (d a : BitVec 7) : WritesF (.qx .ddy d a) d (fun g l =>
    rounded .gcr g (addExact (rndMode .gcr g.gcr) (fsrc g (.v a) (l / 4 * 4 + l % 2 + 2)) (fsrc g (.v a) (l / 4 * 4 + l % 2)).neg)) :=
  WritesF.congr (f := fun g l => fsubV (rndMode .gcr g.gcr) (gcrFtz g.gcr) (g.src (.v a) (l ||| 2)) (g.src (.v a) ((l ||| 2) - 2)))
    (vecFl_writes (fun _ => rfl) (fun _ => rfl) (fun _ => rfl) fun _ => rfl) fun g l => by rw [fsubV_eq, or_two_eq, Nat.add_sub_cancel]

/-! ### XGATH and MATCH (R164, R167) -/

/-- XGATH reads a word of k registers in a row, of any lane. -/
theorem xgath_writes (k : KCount) (d a : BitVec 7) (b : Src) : WritesV (.xgath k d a b) d (fun g l =>
    g.word (g.vreg (a.toNat + (g.src b l).toNat % (32 * KCount.n k) / 32)) ((g.src b l).toNat % (32 * KCount.n k) % 32)) :=
  OnGroup.writesV (f := fun g l =>
      g.word (g.vreg (a.toNat + (g.src b l).toNat % (32 * KCount.n k) / 32)) ((g.src b l).toNat % (32 * KCount.n k) % 32))
    (fun _ _ => ⟨rfl, rfl⟩) fun v l _ => by simp only [View.issued_src, View.issued_vreg, View.issued_word]

theorem matchMask_issued (v : View) (a : BitVec 7) : matchMask v.issued a = matchMask v.g a := rfl

/-- MATCH.count: the lanes with the same key, and in a uniform the number of different keys. -/
theorem matchCount_answers (d a b : BitVec 7) : Answers (.matchCount d a b) (fun v => v.completes v.d
    ((v.issued.setWords (v.g.vreg d.toNat) v.act (matchMask v.g a)).setUni b.toNat
      (BitVec.ofNat 32 ((v.act.lanes.map (v.g.src (.v a))).toFinset.card)))) := by
  intro s v hi hr
  have h : OnGroup (.matchCount d a b) (fun g => .ok ((g.setD d.toNat (matchMask g a)).setUni b.toNat
    (BitVec.ofNat 32 (distinct (g.active.lanes.map (g.src (.v a)))).length))) := fun _ _ => ⟨rfl, rfl⟩
  refine h.completes hi hr ?_
  simp only [length_distinct, Group.setD, matchMask_issued, View.issued_vreg, View.issued_active, View.issued_src]

/-- Settles O12: what each exchange reads of the other lanes; the rows of QX by their places in a quad, and MATCH's count as the size of
a set. -/
theorem laneExchange : Obligations.LaneExchange := by
  unfold Obligations.LaneExchange
  refine ⟨⟨fun m d a b => OnGroup.shuffles (b := fun g l => g.src b l) (fun _ _ => ⟨rfl, rfl⟩) fun v => by simp only [View.issued_src],
      fun m d a x => OnGroup.shuffles (b := fun _ _ => sext8 x) (fun _ _ => ⟨rfl, rfl⟩) fun _ => rfl⟩,
    fun k d a b => ?_,
    fun d a => vecFl_writes (fun _ => rfl) (fun _ => rfl) (fun _ => rfl) fun _ => rfl,
    fun d a => vecFl_writes (fun _ => rfl) (fun _ => rfl) (fun _ => rfl) fun _ => rfl,
    fun d a => vecFl_writes (fun _ => rfl) (fun _ => rfl) (fun _ => rfl) fun _ => rfl,
    qxDdx_writes, qxDdy_writes,
    fun d a => OnGroup.writesV (f := fun g l => matchMask g a l) (fun _ _ => ⟨rfl, rfl⟩) fun _ _ _ => rfl,
    matchCount_answers⟩
  cases k <;> exact xgath_writes _ d a b

/-! ### VOTE (R162, R166) -/

theorem voteAnyAll_onMembers (all : Bool) (p q : BitVec 3) (b : BitVec 7) : OnMembers (.voteAnyAll all p q b) b (fun g m =>
    .ok (g.setPred p.toNat g.active (fun _ => if all then decide (m &&& ~~~(g.pred q.toNat) = 0#32) else decide (m &&& g.pred q.toNat ≠ 0#32)))) :=
  fun _ _ => ⟨rfl, rfl⟩

theorem voteBallot_onMembers (d : BitVec 7) (q : BitVec 3) (b : BitVec 7) : OnMembers (.voteBallot d q b) b (fun g m =>
    .ok (g.setD d.toNat (fun _ => m &&& g.pred q.toNat))) := fun _ _ => ⟨rfl, rfl⟩

theorem voteEq_onMembers (p : BitVec 3) (a b : BitVec 7) : OnMembers (.voteEq p a b) b (fun g m =>
    .ok (g.setPred p.toNat g.active (fun _ => m.lanes.all (fun l => decide (g.src (.v a) l = g.src (.v a) (Mask.lowest m)))))) :=
  fun _ _ => ⟨rfl, rfl⟩

theorem gred_onMembers (f : GredOp) (d a b : BitVec 7) : OnMembers (.gred f d a b) b (fun g m =>
    let r := gredV f (gcrFtz g.gcr) (Sys2Proof.lanes.map (fun l => if m.getLsbD l then g.src (.v a) l else gredIdentity f))
    if g.ivTrap r.fl then .error (ivTrapOf (.gred f d a b) g.active (fun _ => r.fl)) else .ok ((g.setUni d.toNat r.w).raise r.fl)) :=
  fun _ _ => ⟨rfl, rfl⟩

theorem scan_onMembers (ex : Bool) (m : ScanOp) (d a b : BitVec 7) : OnMembers (.scan ex m d a b) b (fun g mem =>
    let r := scanV m (gcrFtz g.gcr) ex (fun l => mem.getLsbD l) (g.src (.v a))
    if g.ivTrap r.2 then .error (ivTrapOf (.scan ex m d a b) g.active (fun _ => r.2))
    else .ok ((g.setD d.toNat (fun l => nth r.1 l 0)).raise r.2)) :=
  fun _ _ => ⟨rfl, rfl⟩

/-- Every instruction of R162 is over the members of its mask. -/
theorem memberInstr_onMembers {i : Instr} {b : BitVec 7} (h : (∃ all p q, i = .voteAnyAll all p q b) ∨ (∃ d q, i = .voteBallot d q b) ∨
    (∃ p a, i = .voteEq p a b) ∨ (∃ f d a, i = .gred f d a b) ∨ (∃ e m d a, i = .scan e m d a b)) : ∃ f, OnMembers i b f := by
  rcases h with ⟨all, p, q, rfl⟩ | ⟨d, q, rfl⟩ | ⟨p, a, rfl⟩ | ⟨f, d, a, rfl⟩ | ⟨e, m, d, a, rfl⟩
  · exact ⟨_, voteAnyAll_onMembers all p q b⟩
  · exact ⟨_, voteBallot_onMembers d q b⟩
  · exact ⟨_, voteEq_onMembers p a b⟩
  · exact ⟨_, gred_onMembers f d a b⟩
  · exact ⟨_, scan_onMembers e m d a b⟩

/-- Settles O13: a vote is a fact about the lanes of the mask of contributing members; the mask's check comes before it. -/
theorem votes : Obligations.Votes := by
  unfold Obligations.Votes
  refine ⟨fun p q b s v hi hr hm => (voteAnyAll_onMembers false p q b).completes hi hr hm ?_,
    fun p q b s v hi hr hm => (voteAnyAll_onMembers true p q b).completes hi hr hm ?_,
    fun d q b s v hi hr hm => (voteBallot_onMembers d q b).completes hi hr hm rfl,
    fun p a b s v hi hr hm => (voteEq_onMembers p a b).completes hi hr hm ?_,
    fun i b h s v hi hr hm => ?_⟩
  · simp only [contributors_eq, Mask.any_lanes, View.issued_pred, View.issued_active]
    rfl
  · simp only [contributors_eq, Mask.all_lanes, View.issued_pred, View.issued_active]
    rfl
  · simp only [contributors_eq, ← Mask.all_lanes_lowest, View.issued_src, View.issued_active]
  · obtain ⟨f, hf⟩ := memberInstr_onMembers h
    exact hf.memberSelf hi hr hm

end Sys2Proof.Machine
end

section
/-! SUPPORT. A group's frontier: what its entries stand for, and what merging them keeps (R177, R180, R182). -/

namespace Sys2Proof.Machine

open Sys2Proof

/-! ### Entries that stand for others -/

/-- Entry `f` holds every lane of `e`, where `e` stands. -/
structure Entry.Covers (f e : Entry) : Prop where
  mask : ∀ l, e.mask.getLsbD l = true → f.mask.getLsbD l = true
  pc : f.pc = e.pc
  susp : f.susp = e.susp
  clause : f.clause = e.clause

theorem Entry.Covers.refl (e : Entry) : e.Covers e := ⟨fun _ h => h, rfl, rfl, rfl⟩

theorem Entry.Covers.trans {a b c : Entry} (h : a.Covers b) (h' : b.Covers c) : a.Covers c :=
  ⟨fun l hl => h.mask l (h'.mask l hl), h.pc.trans h'.pc, h.susp.trans h'.susp, h.clause.trans h'.clause⟩

@[simp] theorem Entry.getLsbD_merge (a b : Entry) (l : Nat) :
    (a.merge b).mask.getLsbD l = (a.mask.getLsbD l || b.mask.getLsbD l) := BitVec.getLsbD_or

theorem Entry.merge_covers_left (a b : Entry) : (a.merge b).Covers a := ⟨fun l h => by simp [h], rfl, rfl, rfl⟩

theorem Entry.merge_covers_right {a b : Entry} (hp : a.pc = b.pc) (hs : a.susp = b.susp) (hc : a.clause = b.clause) :
    (a.merge b).Covers b := ⟨fun l h => by simp [h], hp, hs, hc⟩

/-- Every entry of `es` is covered by one of `fs`. -/
def Covered (fs es : List Entry) : Prop := ∀ e ∈ es, ∃ f ∈ fs, f.Covers e

theorem Covered.refl (es : List Entry) : Covered es es := fun e he => ⟨e, he, .refl e⟩

theorem Covered.trans {as bs cs : List Entry} (h : Covered as bs) (h' : Covered bs cs) : Covered as cs := by
  intro c hc
  obtain ⟨b, hb, hbc⟩ := h' c hc
  obtain ⟨a, ha, hab⟩ := h b hb
  exact ⟨a, ha, hab.trans hbc⟩

theorem Covered.append {fs as bs : List Entry} (h : Covered fs as) (h' : Covered fs bs) : Covered fs (as ++ bs) := by
  intro e he
  rcases List.mem_append.mp he with he | he
  · exact h e he
  · exact h' e he

theorem Covered.of_subset {fs es es' : List Entry} (h : Covered fs es) (hs : es' ⊆ es) : Covered fs es' :=
  fun e he => h e (hs he)

/-- A lane of a covered frontier stays where it is. -/
theorem Covered.staysPut {g' : Group} {es : List Entry} (h : Covered g'.frontier es) (l : Nat) : Group.staysPut es g' l := by
  intro e he hl
  obtain ⟨f, hf, hc⟩ := h e he
  exact ⟨f, hf, hc.mask l hl, hc.pc, hc.susp, hc.clause⟩

/-! ### How many entries hold a lane (R177) -/

/-- How many entries hold lane `l`. -/
def holders (l : Nat) (es : List Entry) : Nat := es.countP (fun e => e.mask.getLsbD l)

theorem holders_cons (l : Nat) (e : Entry) (es : List Entry) : holders l (e :: es) = holders l es + (e.mask.getLsbD l).toNat := by
  cases h : e.mask.getLsbD l <;> simp [holders, h]

theorem holders_append (l : Nat) (es fs : List Entry) : holders l (es ++ fs) = holders l es + holders l fs := List.countP_append

theorem holders_eq_zero_iff (l : Nat) (es : List Entry) : holders l es = 0 ↔ ∀ e ∈ es, e.mask.getLsbD l = false := by
  simp [holders, List.countP_eq_zero]

/-- Two masks are apart where no lane is in both. -/
theorem and_eq_zero_iff (a b : Mask) : a &&& b = 0#32 ↔ ∀ l, a.getLsbD l = true → b.getLsbD l = false := by
  constructor
  · intro h l ha
    have := congrArg (·.getLsbD l) h
    simpa [ha] using this
  · intro h
    apply BitVec.eq_of_getLsbD_eq
    intro l _
    have := h l
    grind

/-- Entries are apart where no lane has two of them. -/
theorem pairwise_apart_iff (es : List Entry) :
    es.Pairwise (fun a b => a.mask &&& b.mask = 0#32) ↔ ∀ l, holders l es ≤ 1 := by
  induction es with
  | nil => simp [holders]
  | cons e es ih =>
    rw [List.pairwise_cons, ih]
    constructor
    · rintro ⟨hd, ht⟩ l
      rw [holders_cons]
      cases hl : e.mask.getLsbD l with
      | false => simpa using ht l
      | true =>
        have : holders l es = 0 := (holders_eq_zero_iff l es).mpr fun b hb => (and_eq_zero_iff _ _).mp (hd b hb) l hl
        simp [this]
    · intro h
      simp only [holders_cons] at h
      refine ⟨fun b hb => (and_eq_zero_iff _ _).mpr fun l hl => ?_, fun l => le_trans (Nat.le_add_right _ _) (h l)⟩
      have := h l
      rw [hl, Bool.toNat_true] at this
      exact (holders_eq_zero_iff l es).mp (by omega) b hb

theorem Group.apart_iff (g : Group) : g.apart ↔ ∀ l, holders l g.frontier ≤ 1 := pairwise_apart_iff g.frontier

/-- A merged entry holds a lane at most as often as its two parts. -/
theorem toNat_or_le (a b : Bool) : (a || b).toNat ≤ a.toNat + b.toNat := by
  cases a <;> simp

/-! ### Adding entries to a frontier (R180) -/

theorem addEntry_covered (e : Entry) (fs : List Entry) : Covered (addEntry e fs) (e :: fs) := by
  induction fs with
  | nil => exact .refl _
  | cons f fs ih =>
    rw [addEntry]
    split
    · next h =>
      simp only [Entry.mergesAt, Entry.runnable, Bool.and_eq_true, decide_eq_true_eq] at h
      obtain ⟨⟨he, hec⟩, ⟨hf, hfc⟩, hp⟩ := h
      rintro x hx
      rcases List.mem_cons.mp hx with rfl | hx
      · exact ⟨f.merge x, List.mem_cons_self, Entry.merge_covers_right hp (hf.trans he.symm) (hfc.trans hec.symm)⟩
      rcases List.mem_cons.mp hx with rfl | hx
      · exact ⟨x.merge e, List.mem_cons_self, Entry.merge_covers_left x e⟩
      · exact ⟨x, List.mem_cons_of_mem _ hx, .refl x⟩
    · rintro x hx
      have tail : ∀ y ∈ e :: fs, ∃ z ∈ f :: addEntry e fs, z.Covers y := fun y hy =>
        let ⟨z, hz, hc⟩ := ih y hy
        ⟨z, List.mem_cons_of_mem _ hz, hc⟩
      rcases List.mem_cons.mp hx with rfl | hx
      · exact tail x List.mem_cons_self
      rcases List.mem_cons.mp hx with rfl | hx
      · exact ⟨x, List.mem_cons_self, .refl x⟩
      · exact tail x (List.mem_cons_of_mem _ hx)

theorem holders_addEntry (l : Nat) (e : Entry) (fs : List Entry) : holders l (addEntry e fs) ≤ holders l (e :: fs) := by
  induction fs with
  | nil => exact le_refl _
  | cons f fs ih =>
    rw [addEntry]
    split
    · simp only [holders_cons, Entry.getLsbD_merge]
      have := toNat_or_le (f.mask.getLsbD l) (e.mask.getLsbD l)
      omega
    · simp only [holders_cons] at ih ⊢
      omega

theorem addEntries_covered (es fs : List Entry) : Covered (addEntries es fs) (es ++ fs) := by
  unfold addEntries
  induction es generalizing fs with
  | nil => exact .refl _
  | cons e es ih =>
    refine (ih (addEntry e fs)).trans (Covered.trans (bs := es ++ (e :: fs)) ?_ (Covered.of_subset (.refl _) (by grind)))
    exact ((Covered.refl _).of_subset (List.subset_append_left _ _)).append
      (((Covered.refl _).of_subset (List.subset_append_right _ _)).trans (addEntry_covered e fs))

theorem holders_addEntries (l : Nat) (es fs : List Entry) : holders l (addEntries es fs) ≤ holders l es + holders l fs := by
  unfold addEntries
  induction es generalizing fs with
  | nil => simp [holders]
  | cons e es ih =>
    have := ih (addEntry e fs)
    have := holders_addEntry l e fs
    simp only [holders_cons, List.foldl_cons] at *
    omega

/-! ### Entries of equal resume PC form one (R180) -/

/-- Two entries resume at the same place. -/
abbrev Entry.Meets (f e : Entry) : Prop := f.pc = e.pc ∧ f.clause = e.clause

/-- One step of `joinEqual`: the entry merges with the one that resumes at its place, or comes last. -/
def joinOne (acc : List Entry) (e : Entry) : List Entry :=
  if acc.any (fun f => decide (f.Meets e)) then acc.map (fun f => if f.Meets e then f.merge e else f)
  else acc ++ [e]

theorem joinEqual_eq (es : List Entry) : joinEqual es = es.foldl joinOne [] := rfl

theorem joinOne_of_meets {acc : List Entry} {e f : Entry} (hf : f ∈ acc) (h : f.Meets e) :
    joinOne acc e = acc.map (fun f => if f.Meets e then f.merge e else f) :=
  if_pos (List.any_eq_true.mpr ⟨f, hf, decide_eq_true h⟩)

theorem joinOne_of_not_meets {acc : List Entry} {e : Entry} (h : ∀ f ∈ acc, ¬ f.Meets e) : joinOne acc e = acc ++ [e] := by
  refine if_neg fun ha => ?_
  obtain ⟨f, hf, hm⟩ := List.any_eq_true.mp ha
  exact h f hf (of_decide_eq_true hm)

/-- Every entry is runnable. -/
def AllRun (es : List Entry) : Prop := ∀ e ∈ es, e.susp = .run

theorem joinOne_covered {acc : List Entry} {e : Entry} (ha : AllRun acc) (he : e.susp = .run) :
    Covered (joinOne acc e) (acc ++ [e]) ∧ AllRun (joinOne acc e) := by
  by_cases h : ∃ f ∈ acc, f.Meets e
  · obtain ⟨f, hf, hm⟩ := h
    rw [joinOne_of_meets hf hm]
    refine ⟨.append (fun x hx => ⟨_, List.mem_map_of_mem hx, ?_⟩) ?_, fun x hx => ?_⟩
    · split
      · exact Entry.merge_covers_left x e
      · exact .refl x
    · intro x hx
      obtain rfl := List.mem_singleton.mp hx
      exact ⟨_, List.mem_map_of_mem hf, by rw [if_pos hm]; exact Entry.merge_covers_right hm.1 ((ha f hf).trans he.symm) hm.2⟩
    · obtain ⟨y, hy, rfl⟩ := List.mem_map.mp hx
      split
      · exact ha y hy
      · exact ha y hy
  · rw [joinOne_of_not_meets fun f hf hm => h ⟨f, hf, hm⟩]
    refine ⟨.refl _, fun x hx => ?_⟩
    rcases List.mem_append.mp hx with hx | hx
    · exact ha x hx
    · rw [List.mem_singleton.mp hx, he]

theorem foldl_joinOne_covered {es acc : List Entry} (ha : AllRun acc) (he : AllRun es) :
    Covered (es.foldl joinOne acc) (acc ++ es) ∧ AllRun (es.foldl joinOne acc) := by
  induction es generalizing acc with
  | nil => exact ⟨(List.append_nil acc).symm ▸ .refl acc, ha⟩
  | cons e es ih =>
    obtain ⟨hc, hr⟩ := joinOne_covered ha (he e List.mem_cons_self)
    obtain ⟨hcs, hrs⟩ := ih hr fun x hx => he x (List.mem_cons_of_mem _ hx)
    refine ⟨hcs.trans ?_, hrs⟩
    rw [← List.singleton_append, ← List.append_assoc]
    exact ((Covered.refl _ |>.of_subset (List.subset_append_left _ _)).trans hc).append
      (.of_subset (.refl _) (List.subset_append_right _ _))

theorem joinEqual_covered {es : List Entry} (h : AllRun es) : Covered (joinEqual es) es ∧ AllRun (joinEqual es) :=
  foldl_joinOne_covered (acc := []) (fun _ hx => nomatch hx) h

/-- No two entries resume at one place. -/
def PlacesDiffer (es : List Entry) : Prop := es.Pairwise (fun f e => ¬ f.Meets e)

/-- Merging an entry into the one entry that resumes at its place. -/
theorem holders_map_merge (l : Nat) (e : Entry) {acc : List Entry} (h : PlacesDiffer acc) :
    holders l (acc.map (fun f => if f.Meets e then f.merge e else f)) ≤
      holders l acc + (e.mask.getLsbD l).toNat := by
  induction acc with
  | nil => simp [holders]
  | cons f acc ih =>
    obtain ⟨hf, ht⟩ := List.pairwise_cons.mp h
    rw [List.map_cons, holders_cons, holders_cons]
    by_cases hm : f.Meets e
    · have hid : acc.map (fun f => if f.Meets e then f.merge e else f) = acc := by
        refine (List.map_congr_left fun x hx => if_neg fun hx' => hf x hx ⟨?_, ?_⟩).trans (List.map_id acc)
        · exact hm.1.trans hx'.1.symm
        · exact hm.2.trans hx'.2.symm
      rw [hid, if_pos hm, Entry.getLsbD_merge]
      have := toNat_or_le (f.mask.getLsbD l) (e.mask.getLsbD l)
      omega
    · rw [if_neg hm]
      have := ih ht
      omega

theorem joinOne_placesDiffer {acc : List Entry} (e : Entry) (h : PlacesDiffer acc) : PlacesDiffer (joinOne acc e) := by
  by_cases hm : ∃ f ∈ acc, f.Meets e
  · obtain ⟨f, hf, hm⟩ := hm
    rw [joinOne_of_meets hf hm]
    refine List.Pairwise.map _ (fun a b hab => ?_) h
    split <;> split <;> exact hab
  · rw [joinOne_of_not_meets fun f hf hf' => hm ⟨f, hf, hf'⟩]
    refine List.pairwise_append.mpr ⟨h, List.pairwise_singleton _ _, fun f hf x hx => ?_⟩
    obtain rfl := List.mem_singleton.mp hx
    exact fun hf' => hm ⟨f, hf, hf'⟩

theorem holders_joinOne (l : Nat) (e : Entry) {acc : List Entry} (h : PlacesDiffer acc) :
    holders l (joinOne acc e) ≤ holders l acc + (e.mask.getLsbD l).toNat := by
  by_cases hm : ∃ f ∈ acc, f.Meets e
  · obtain ⟨f, hf, hm⟩ := hm
    rw [joinOne_of_meets hf hm]
    exact holders_map_merge l e h
  · rw [joinOne_of_not_meets fun f hf hf' => hm ⟨f, hf, hf'⟩, holders_append, holders_cons]
    simp [holders]

theorem holders_foldl_joinOne (l : Nat) (es : List Entry) {acc : List Entry} (h : PlacesDiffer acc) :
    holders l (es.foldl joinOne acc) ≤ holders l acc + holders l es := by
  induction es generalizing acc with
  | nil => exact Nat.le_add_right _ _
  | cons e es ih =>
    have := ih (joinOne_placesDiffer e h)
    have := holders_joinOne l e h
    rw [holders_cons, List.foldl_cons]
    omega

theorem holders_joinEqual (l : Nat) (es : List Entry) : holders l (joinEqual es) ≤ holders l es :=
  (holders_foldl_joinOne l es List.Pairwise.nil).trans (Nat.zero_add _).le

/-! ### Lanes grouped by target (R182) -/

theorem Mask.getLsbD_one {k : Nat} (hk : k < 32) (l : Nat) : (Mask.one k).getLsbD l = decide (l = k) := by
  grind [Mask.one]

/-- One step of `byTarget`. -/
def targetOne (f : Nat → Nat) (acc : List (Nat × Mask)) (l : Nat) : List (Nat × Mask) :=
  if acc.any (fun t => t.1 == f l) then acc.map (fun t => if t.1 = f l then (t.1, t.2 ||| Mask.one l) else t)
  else acc ++ [(f l, Mask.one l)]

theorem byTarget_eq (f : Nat → Nat) (m : Mask) : byTarget f m = m.lanes.foldl (targetOne f) [] := rfl

/-- Entries of one origin at one place merge as their masks do. -/
theorem Entry.at_merge (e : Entry) (p p' : Nat) (m m' : Mask) (c : Nat) : (e.at p m c).merge (e.at p' m' c) = e.at p (m ||| m') c := by
  simp [Entry.at, Entry.merge]

theorem map_at_targetOne (e : Entry) (c : Nat) (f : Nat → Nat) (acc : List (Nat × Mask)) (l : Nat) :
    (targetOne f acc l).map (fun t => e.at t.1 t.2 c) = joinOne (acc.map (fun t => e.at t.1 t.2 c)) (e.at (f l) (Mask.one l) c) := by
  have hm (t : Nat × Mask) : (e.at t.1 t.2 c).Meets (e.at (f l) (Mask.one l) c) ↔ t.1 = f l := by simp [Entry.Meets, Entry.at]
  simp only [targetOne, joinOne, List.any_map, Function.comp_def, hm, beq_eq_decide]
  split
  · simp only [List.map_map, Function.comp_def, hm, Entry.at_merge]
    refine List.map_congr_left fun t _ => ?_
    split <;> rfl
  · simp

/-- The entries of a transfer: one for each lane that takes it, those of equal target joined. -/
theorem map_at_byTarget (e : Entry) (c : Nat) (f : Nat → Nat) (m : Mask) :
    (byTarget f m).map (fun t => e.at t.1 t.2 c) = joinEqual (m.lanes.map (fun l => e.at (f l) (Mask.one l) c)) := by
  rw [byTarget_eq, joinEqual_eq, List.foldl_map]
  exact (List.foldl_hom (List.map fun t : Nat × Mask => e.at t.1 t.2 c) (fun acc l => (map_at_targetOne e c f acc l).symm)).symm

theorem holders_lanes_le (e : Entry) (c : Nat) (f : Nat → Nat) (m : Mask) (l : Nat) :
    holders l (m.lanes.map (fun k => e.at (f k) (Mask.one k) c)) ≤ (m.getLsbD l).toNat := by
  have hc : holders l (m.lanes.map (fun k => e.at (f k) (Mask.one k) c)) = m.lanes.count l := by
    rw [holders, List.countP_map, List.count_eq_countP]
    refine List.countP_congr fun k hk => ?_
    have hk := Mask.getLsbD_one ((Mask.mem_lanes m k).mp hk).1 l
    simp only [Function.comp_apply, Entry.at, hk, decide_eq_true_eq, beq_iff_eq]
    exact eq_comm
  have hn : m.lanes.Nodup := List.nodup_range.filter _
  rw [hc]
  cases hl : m.getLsbD l with
  | true => exact List.nodup_iff_count_le_one.mp hn l
  | false => exact (List.count_eq_zero.mpr fun h => by simp [((Mask.mem_lanes m l).mp h).2] at hl).le

/-- The issuing entry and the others hold what the frontier holds. -/
theorem Group.holders_frontier (g : Group) (l : Nat) :
    holders l g.frontier = holders l g.frontier.tail + (g.active.getLsbD l).toNat := by
  unfold Group.active Group.head
  cases g.frontier with
  | nil => simp [holders]
  | cons e es => exact holders_cons l e es

/-! ### A transfer (R182) -/

/-- The lanes that stay: one entry at the fall-through position, if there are any. -/
def Entry.stays (e : Entry) (m : Mask) (c : Nat) : List Entry := if m = 0#32 then [] else [e.at e.fall m c]

theorem Entry.holders_stays (e : Entry) (m : Mask) (c l : Nat) : holders l (e.stays m c) = (m.getLsbD l).toNat := by
  unfold Entry.stays
  split
  · next h => simp [h, holders]
  · rw [holders_cons]; simp [holders, Entry.at]

/-- The frontier after a transfer. -/
theorem Group.transfer_frontier (g : Group) (f : Nat → Nat) (m stay : Mask) (c : Nat) :
    (g.transfer (byTarget f m) stay c).1.frontier = addEntries
      (joinEqual (joinEqual (m.lanes.map (fun l => g.head.at (f l) (Mask.one l) c)) ++ g.head.stays stay c)) g.frontier.tail := by
  rw [← map_at_byTarget]
  rfl

theorem Group.afterRun_frontier (x : Group × Bool) : (Group.afterRun x).frontier = x.1.frontier := by
  unfold Group.afterRun; split <;> rfl

section
variable (g : Group) (f : Nat → Nat) (taken : Mask) (c : Nat)

/-- The group once the lanes `taken` have gone to `f`. -/
def Group.moved : Group := Group.afterRun (g.transfer (byTarget f taken) (g.active &&& ~~~taken) c)

/-- Each lane's own entry is in the frontier after the transfer, and the entries that did not issue. -/
theorem Group.moved_covered : Covered (g.moved f taken c).frontier
    ((taken.lanes.map (fun l => g.head.at (f l) (Mask.one l) c) ++ g.head.stays (g.active &&& ~~~taken) c) ++ g.frontier.tail) := by
  rw [Group.moved, Group.afterRun_frontier, Group.transfer_frontier]
  have hl : AllRun (taken.lanes.map (fun l => g.head.at (f l) (Mask.one l) c)) := by simp [AllRun, Entry.at]
  have hs : AllRun (g.head.stays (g.active &&& ~~~taken) c) := by
    unfold Entry.stays; split <;> simp [AllRun, Entry.at]
  obtain ⟨hc, hr⟩ := joinEqual_covered hl
  have hrs : AllRun (joinEqual (taken.lanes.map (fun l => g.head.at (f l) (Mask.one l) c)) ++ g.head.stays (g.active &&& ~~~taken) c) :=
    fun e he => (List.mem_append.mp he).elim (hr e) (hs e)
  obtain ⟨hc', -⟩ := joinEqual_covered hrs
  have hall := addEntries_covered
    (joinEqual (joinEqual (taken.lanes.map (fun l => g.head.at (f l) (Mask.one l) c)) ++ g.head.stays (g.active &&& ~~~taken) c)) g.frontier.tail
  have hjoined := (hall.of_subset (List.subset_append_left _ _)).trans hc'
  exact (((hjoined.of_subset (List.subset_append_left _ _)).trans hc).append (hjoined.of_subset (List.subset_append_right _ _))).append
    (hall.of_subset (List.subset_append_right _ _))

/-- The lanes of the issuing entry are shared out among the entries that replace it. -/
theorem Group.holders_moved (hs : ∀ l, taken.getLsbD l = true → g.active.getLsbD l = true) (l : Nat) :
    holders l (g.moved f taken c).frontier ≤ holders l g.frontier := by
  rw [Group.moved, Group.afterRun_frontier, Group.transfer_frontier, Group.holders_frontier]
  refine (holders_addEntries _ _ _).trans ?_
  rw [Nat.add_comm]
  refine Nat.add_le_add_left ((holders_joinEqual _ _).trans ?_) _
  rw [holders_append, Entry.holders_stays]
  refine (Nat.add_le_add_right ((holders_joinEqual _ _).trans (holders_lanes_le g.head c f taken l)) _).trans ?_
  have := hs l
  cases ht : taken.getLsbD l with
  | false => cases ha : g.active.getLsbD l <;> simp [ha, Bool.toNat_le]
  | true => simp [ht, this ht]

/-- A transfer moves each lane as the statements say (R182). -/
theorem Group.moved_moves (hs : ∀ l, taken.getLsbD l = true → g.active.getLsbD l = true) : Moves g (g.moved f taken c) taken f where
  rest := by
    unfold Group.moved Group.afterRun Group.transfer
    dsimp only
    split <;> rfl
  goes l hl ht := by
    obtain ⟨e, he, hc⟩ := g.moved_covered f taken c (g.head.at (f l) (Mask.one l) c) (by
      refine List.mem_append_left _ (List.mem_append_left _ (List.mem_map.mpr ⟨l, ?_, rfl⟩))
      exact (Mask.mem_lanes taken l).mpr ⟨hl, ht⟩)
    exact ⟨e, he, hc.mask l (by simp [Entry.at, Mask.getLsbD_one hl]), hc.pc, hc.susp, hc.clause⟩
  falls l hl ha ht := by
    have hm : (g.active &&& ~~~taken).getLsbD l = true := by rw [BitVec.getLsbD_and, BitVec.getLsbD_not, ha, ht, decide_eq_true hl]; rfl
    have hne : g.active &&& ~~~taken ≠ 0#32 := fun h => by simp [h] at hm
    obtain ⟨e, he, hc⟩ := g.moved_covered f taken c (g.head.at g.head.fall (g.active &&& ~~~taken) c) (by
      refine List.mem_append_left _ (List.mem_append_right _ ?_)
      rw [Entry.stays, if_neg hne]
      exact List.mem_singleton_self _)
    exact ⟨e, he, hc.mask l hm, hc.pc, hc.susp, hc.clause⟩
  others l := ((g.moved_covered f taken c).of_subset (List.subset_append_right _ _)).staysPut l
  apart h := (Group.apart_iff _).mpr fun l => (g.holders_moved f taken c hs l).trans ((Group.apart_iff g).mp h l)

end

end Sys2Proof.Machine
end

section
/-! PROOFS. The control transfers (R93, R94, R182, R183, R186, R187). -/

namespace Sys2Proof.Machine

open Sys2Proof

/-! ### What issue leads to -/

/-- Nothing stops an instruction that is ready: the device afterwards is what its body leads to. -/
theorem issue_ready {i : Instr} {v : View} {s : State} {body : View → Res} (hi : s.dev.issuer = some v) (h : Ready i v)
    (he : extraOf i v = {}) : issue i (accessOf i v) body s = .next (s.withDev (conclude i v (body v.counted))) := by
  have := ready_firstFailure h
  rw [he] at this
  simp only [issue, issueX, hi, verdict, this]

/-! ### The target check (R94) -/

/-- The lanes of `m` whose targets fail their check. -/
def wrongLanes (m : Mask) (ok : Int → Bool) (f : Nat → Int) : Mask := Mask.ofFn (fun l => m.getLsbD l && !(ok (f l)))

theorem lanes_wrongLanes (m : Mask) (ok : Int → Bool) (f : Nat → Int) :
    (wrongLanes m ok f).lanes = m.lanes.filter (fun l => !(ok (f l))) := by
  unfold Mask.lanes
  rw [List.filter_filter]
  refine List.filter_congr fun l hl => ?_
  have hl : l < 32 := List.mem_range.mp hl
  rw [wrongLanes, Mask.getLsbD_ofFn, decide_eq_true hl, Bool.true_and, Bool.and_comm]

theorem lanes_eq_nil_iff (m : Mask) : m.lanes = [] ↔ m = 0#32 := by
  rw [List.eq_nil_iff_forall_not_mem, BitVec.eq_of_getLsbD_eq_iff]
  simp only [Mask.mem_lanes, BitVec.getLsbD_zero]
  grind

/-- Where every target passes, the lanes of `m` jump. -/
theorem transferTo_right {v : View} {m : Mask} {ok : Int → Bool} {f : Nat → Int} (h : wrongLanes m ok f = 0#32) :
    transferTo v m ok f = .jump v.d v.g (byTarget (fun l => (f l).toNat) m) (v.act &&& ~~~m) := by
  have hn : m.lanes.find? (fun l => !(ok (f l))) = none := by
    rw [← List.head?_filter, ← lanes_wrongLanes, (lanes_eq_nil_iff _).mpr h]; rfl
  simp only [transferTo, hn]

/-- The first bad target goes to info word 0 (log 49). -/
theorem transferTo_wrong {v : View} {m : Mask} {ok : Int → Bool} {f : Nat → Int} (h : wrongLanes m ok f ≠ 0#32) :
    transferTo v m ok f = .trap { cause := 0x02, lanes := wrongLanes m ok f, info0 := BitVec.ofInt 32 (f (wrongLanes m ok f).lowest) } := by
  have hs : m.lanes.find? (fun l => !(ok (f l))) = some (wrongLanes m ok f).lowest := by
    rw [← List.head?_filter, ← lanes_wrongLanes, Mask.lowest]
    cases hl : (wrongLanes m ok f).lanes with
    | nil => exact absurd ((lanes_eq_nil_iff _).mp hl) h
    | cons l ls => rfl
  simp only [transferTo, hs]
  rfl

/-! ### A transfer -/

/-- An instruction whose body is R182's transfer, over a group that differs from the issuing one outside its frontier at most, moves
its lanes or traps as the statements say. -/
theorem transfers_of {i : Instr} {mid : View → Group} {taken : View → Mask} {target : View → Nat → Int} {ok : View → Int → Bool}
    (body : View → Res) (hx : ∀ s v, exec i s = issue i (accessOf i v) body s) (he : ∀ v, extraOf i v = {})
    (hb : ∀ v, body v.counted = transferTo { v.counted with g := mid v } (taken v) (ok v) (target v))
    (hf : ∀ v, (mid v).frontier = v.issued.frontier)
    (hs : ∀ v l, (taken v).getLsbD l = true → v.act.getLsbD l = true) : Transfers i mid taken target ok := by
  intro s v hi hr wrong
  have hact : (mid v).active = v.act := by unfold Group.active Group.head; rw [hf]; rfl
  have hexec : exec i s = .next (s.withDev (conclude i v (body v.counted))) := (hx s v).trans (issue_ready hi hr (he v))
  rw [hb] at hexec
  refine ⟨fun hw => ⟨(mid v).moved (fun l => (target v l).toNat) (taken v) v.d.cycle, ?_, ?_⟩, fun hw => ?_⟩
  · rw [hexec, transferTo_right hw]
    have : View.act { v.counted with g := mid v } = (mid v).active := rfl
    rw [this]
    rfl
  · exact (mid v).moved_moves _ _ _ (hact ▸ hs v)
  · rw [hexec, transferTo_wrong hw]
    rfl

section
variable (v : View)

theorem issued_near (i : BitVec 8) (l : Nat) : v.issued.near i = nearTarget i v l := by
  unfold Group.near nearTarget
  have : v.issued.head.clause = v.g.head.clause := rfl
  rw [this]
  cases v.g.head.clause <;> rfl

theorem counted_nearOk : v.counted.nearOk = nearOk v := rfl

theorem counted_goNear (m : Mask) (i : BitVec 8) :
    v.counted.goNear m i = transferTo { v.counted with g := v.issued } m (nearOk v) (nearTarget i v) := by
  unfold View.goNear
  rw [View.counted_g, counted_nearOk]
  congr 1
  funext l
  exact issued_near v i l

/-- What a CALL writes leaves the frontier and the length of the code as they were. -/
theorem linked_group (l : BitVec 7) : (v.counted.linked l).g = linkOf l v := rfl

theorem linkOf_frontier (l : BitVec 7) : (linkOf l v).frontier = v.issued.frontier := Group.setWords_frontier _ _ _ _

theorem codeLen_linkOf (l : BitVec 7) : v.k.codeLen (linkOf l v) = v.k.codeLen v.g := by
  unfold Block.codeLen linkOf
  rw [Group.setWords_levelH, Group.setWords_hlen]
  rfl

theorem near_linkOf (l : BitVec 7) (i : BitVec 8) : (linkOf l v).near i = v.issued.near i := by
  unfold Group.near Group.head
  rw [linkOf_frontier]

theorem linked_goNear (l : BitVec 7) (m : Mask) (i : BitVec 8) :
    (v.counted.linked l).goNear m i = transferTo { v.counted with g := linkOf l v } m (nearOk v) (nearTarget i v) := by
  unfold View.goNear View.nearOk nearOk
  rw [linked_group, near_linkOf]
  have hk : (v.counted.linked l).k = v.k := rfl
  rw [hk, codeLen_linkOf]
  congr 1
  funext x
  exact issued_near v i x

theorem linked_goFar (l : BitVec 7) (f : Nat → Word) :
    (v.counted.linked l).goFar f = transferTo { v.counted with g := linkOf l v } v.act (farOk v) (fun x => ((f x).toNat : Int)) := by
  have hact : (v.counted.linked l).act = v.act := by
    unfold View.act Group.active Group.head
    rw [linked_group, linkOf_frontier]
    rfl
  have hk : (v.counted.linked l).k = v.k := rfl
  unfold View.goFar View.farOk farOk
  rw [hact, linked_group, hk, codeLen_linkOf]
  rfl

end

theorem getLsbD_and_left (a b : Mask) (l : Nat) (h : (a &&& b).getLsbD l = true) : a.getLsbD l = true := by
  rw [BitVec.getLsbD_and, Bool.and_eq_true] at h
  exact h.1

/-- BRAU takes its lanes all or none. -/
theorem getLsbD_ite_zero (p : Prop) [Decidable p] (m : Mask) (l : Nat) (h : (if p then m else 0).getLsbD l = true) : m.getLsbD l = true := by
  split at h
  · exact h
  · simp at h

/-- A near transfer of the lanes `m` of the issuing entry. -/
theorem nearTransfers {i : Instr} {x : BitVec 8} (m m' : View → Mask)
    (hx : ∀ s v, exec i s = issue i (accessOf i v) (fun v => v.goNear (m v) x) s) (he : ∀ v, extraOf i v = {}) (hm : ∀ v, m v.counted = m' v) (hs : ∀ v l, (m' v).getLsbD l = true → v.act.getLsbD l = true) :
    Transfers i (·.issued) m' (nearTarget x) nearOk :=
  transfers_of _ hx he (fun v => by rw [counted_goNear, hm]) (fun _ => rfl) hs

/-- A far transfer of the whole issuing entry. -/
theorem farTransfers {i : Instr} (f : Group → Nat → Word) (hx : ∀ s v, exec i s = issue i (accessOf i v) (fun v => v.goFar (f v.g)) s)
    (he : ∀ v, extraOf i v = {}) (hf : ∀ v : View, f v.issued = f v.g) :
    Transfers i (·.issued) (·.act) (fun v l => ((f v.g l).toNat : Int)) farOk :=
  transfers_of _ hx he (fun v => congrArg v.counted.goFar (hf v)) (fun _ => rfl) fun _ _ h => h

/-- Settles O18: every transfer is R182's over its own lanes, targets and check. -/
theorem branches : Obligations.Branches := by
  unfold Obligations.Branches
  refine ⟨fun p i => nearTransfers _ _ (fun _ _ => rfl) (fun _ => rfl) (fun _ => rfl) fun _ _ h => h,
    fun p i => nearTransfers _ _ (fun _ _ => rfl) (fun _ => rfl) (fun _ => rfl) fun _ _ => getLsbD_and_left _ _ _,
    fun p i => nearTransfers _ _ (fun _ _ => rfl) (fun _ => rfl) (fun _ => rfl) fun _ _ => getLsbD_and_left _ _ _,
    fun a i => nearTransfers _ _ (fun _ _ => rfl) (fun _ => rfl) (fun v => ?_) fun _ _ => getLsbD_ite_zero _ _ _,
    fun a i => nearTransfers _ _ (fun _ _ => rfl) (fun _ => rfl) (fun v => ?_) fun _ _ => getLsbD_ite_zero _ _ _,
    fun a => farTransfers (fun g _ => g.uni a.toNat) (fun _ _ => rfl) (fun _ => rfl) fun _ => rfl,
    fun a => farTransfers (fun g l => g.src (.v a) l) (fun _ _ => rfl) (fun _ => rfl) fun _ => rfl,
    fun a => farTransfers (fun g l => g.src (.v a) l) (fun _ _ => rfl) (fun _ => rfl) fun _ => rfl,
    fun l i => transfers_of _ (fun _ _ => rfl) (fun _ => rfl) (fun v => linked_goNear v l v.act i) (fun v => linkOf_frontier v l) fun _ _ h => h,
    fun l a => transfers_of _ (fun _ _ => rfl) (fun _ => rfl) (fun v => linked_goFar v l _) (fun v => linkOf_frontier v l) fun _ _ h => h⟩
  · exact (if_congr decide_eq_false_iff_not rfl rfl : (if decide (v.g.uni a.toNat = 0) = false then v.act else 0#32) = _)
  · exact (if_congr decide_eq_true_iff rfl rfl : (if decide (v.g.uni a.toNat = 0) = true then v.act else 0#32) = _)

end Sys2Proof.Machine
end

section
/-! SUPPORT. Rejoin masks: what a release does lane by lane, the check of R189, and deadlines (R188 to R190). -/

namespace Sys2Proof.Machine

open Sys2Proof

/-! ### The frontier of a release -/

/-- The entry waits at mask `j` with lanes of `a`. -/
def Entry.waitsIn (j : Nat) (a : Mask) (e : Entry) : Bool := decide (e.susp = .wait j) && decide (e.mask &&& a ≠ 0#32)

/-- What a release of `a` leaves of an entry where it stands. -/
def Entry.kept (j : Nat) (a : Mask) (e : Entry) : Option Entry :=
  if e.waitsIn j a then (if e.mask &&& ~~~a = 0#32 then none else some { e with mask := e.mask &&& ~~~a }) else some e

/-- The released lanes of an entry, after its WAIT. -/
def Entry.resumed (a : Mask) (c : Nat) (e : Entry) : Entry := { e.complete with mask := e.mask &&& a, last := c }

theorem releaseIn_eq (j : Nat) (a : Mask) (c : Nat) (es : List Entry) :
    releaseIn j a c es = addEntries (joinEqual ((es.filter (Entry.waitsIn j a)).map (Entry.resumed a c))) (es.filterMap (Entry.kept j a)) := rfl

theorem releaseIn_covered (j : Nat) (a : Mask) (c : Nat) (es : List Entry) : Covered (releaseIn j a c es)
    ((es.filter (Entry.waitsIn j a)).map (Entry.resumed a c) ++ es.filterMap (Entry.kept j a)) := by
  have hr : AllRun ((es.filter (Entry.waitsIn j a)).map (Entry.resumed a c)) := by
    intro e he
    obtain ⟨x, -, rfl⟩ := List.mem_map.mp he
    rfl
  rw [releaseIn_eq]
  have h := addEntries_covered (joinEqual ((es.filter (Entry.waitsIn j a)).map (Entry.resumed a c))) (es.filterMap (Entry.kept j a))
  exact ((h.of_subset (List.subset_append_left _ _)).trans (joinEqual_covered hr).1).append (h.of_subset (List.subset_append_right _ _))

section
variable {j : Nat} {a : Mask} {es : List Entry} {e : Entry} {l : Nat}

theorem mask_and_ne_zero {m a : Mask} (hm : m.getLsbD l = true) (ha : a.getLsbD l = true) : m &&& a ≠ 0#32 := by
  intro h
  simpa [ha] using (and_eq_zero_iff m a).mp h l hm

/-- A released lane goes on at the word after its WAIT. -/
theorem releaseIn_frees (c : Nat) (he : e ∈ es) (hs : e.susp = .wait j) (hl : e.mask.getLsbD l = true) (ha : a.getLsbD l = true) :
    ∃ f ∈ releaseIn j a c es, f.mask.getLsbD l = true ∧ f.pc = e.pc + 4 ∧ f.susp = .run := by
  have hw : e.waitsIn j a = true := by simp [Entry.waitsIn, hs, mask_and_ne_zero hl ha]
  obtain ⟨f, hf, hc⟩ := releaseIn_covered j a c es (e.resumed a c)
    (List.mem_append_left _ (List.mem_map_of_mem (List.mem_filter.mpr ⟨he, hw⟩)))
  exact ⟨f, hf, hc.mask l (by simp [Entry.resumed, hl, ha]), hc.pc, hc.susp⟩

/-- A lane that is not released stays. -/
theorem releaseIn_keeps (c : Nat) (he : e ∈ es) (hl : e.mask.getLsbD l = true) (ha : a.getLsbD l = false) :
    ∃ f ∈ releaseIn j a c es, f.mask.getLsbD l = true ∧ f.pc = e.pc ∧ f.susp = e.susp ∧ f.clause = e.clause := by
  have hl32 : l < 32 := BitVec.lt_of_getLsbD hl
  have hm : (e.mask &&& ~~~a).getLsbD l = true := by rw [BitVec.getLsbD_and, BitVec.getLsbD_not, hl, ha, decide_eq_true hl32]; rfl
  have hk : ∃ x, e.kept j a = some x ∧ x.mask.getLsbD l = true ∧ x.pc = e.pc ∧ x.susp = e.susp ∧ x.clause = e.clause := by
    unfold Entry.kept
    split
    · rw [if_neg fun h => by simp [h] at hm]
      exact ⟨_, rfl, hm, rfl, rfl, rfl⟩
    · exact ⟨e, rfl, hl, rfl, rfl, rfl⟩
  obtain ⟨x, hx, hxm, hxp, hxs, hxc⟩ := hk
  obtain ⟨f, hf, hc⟩ := releaseIn_covered j a c es x (List.mem_append_right _ (List.mem_filterMap.mpr ⟨e, he, hx⟩))
  exact ⟨f, hf, hc.mask l hxm, hc.pc.trans hxp, hc.susp.trans hxs, hc.clause.trans hxc⟩

end

/-! ### Timers, marks and mark predicates of a release -/

theorem FMap.get_foldl_set (v : Nat) (ls : List Nat) (m : FMap Nat) (k : Nat) :
    FMap.get 0 (ls.foldl (fun m l => FMap.set 0 m l v) m) k = if k ∈ ls then v else FMap.get 0 m k := by
  induction ls generalizing m with
  | nil => simp
  | cons l ls ih =>
    rw [List.foldl_cons, ih, FMap.get_set]
    by_cases hk : k ∈ ls <;> by_cases hl : k = l <;> simp [hk, hl]

/-- A lane's own mark predicate takes the value `mark` in that lane. -/
def Group.markOne (g : Group) (mark : Bool) (m : FMap Mask) (l : Nat) : FMap Mask :=
  let k := FMap.get 0 g.mark l
  let old := FMap.get 0#32 m k
  FMap.set 0#32 m k (if mark then old ||| Mask.one l else old &&& ~~~(Mask.one l))

theorem Group.getLsbD_markOne (g : Group) (mark : Bool) (m : FMap Mask) {x l : Nat} (hx : x < 32) (hl : l < 32) (k : Nat) :
    (FMap.get 0#32 (g.markOne mark m x) k).getLsbD l =
      if l = x ∧ FMap.get 0 g.mark l = k then mark else (FMap.get 0#32 m k).getLsbD l := by
  unfold Group.markOne
  rw [FMap.get_set]
  have h1 := Mask.getLsbD_one hx l
  by_cases hk : k = FMap.get 0 g.mark x
  · subst hk
    rw [if_pos rfl]
    by_cases hlx : l = x
    · subst hlx
      rw [decide_eq_true rfl] at h1
      cases mark <;> simp [hl, h1]
    · rw [decide_eq_false hlx, BitVec.getLsbD_eq_getElem hl] at h1
      cases mark <;> simp [hl, h1, hlx]
  · have : ¬ (l = x ∧ FMap.get 0 g.mark l = k) := by rintro ⟨rfl, rfl⟩; exact hk rfl
    rw [if_neg hk, if_neg this]

theorem Group.getLsbD_foldl_markOne (g : Group) (mark : Bool) (ls : List Nat) (hls : ∀ x ∈ ls, x < 32) (m : FMap Mask) (k : Nat)
    {l : Nat} (hl : l < 32) : (FMap.get 0#32 (ls.foldl (g.markOne mark) m) k).getLsbD l =
      if l ∈ ls ∧ FMap.get 0 g.mark l = k then mark else (FMap.get 0#32 m k).getLsbD l := by
  induction ls generalizing m with
  | nil => simp
  | cons x ls ih =>
    rw [List.foldl_cons, ih (fun y hy => hls y (List.mem_cons_of_mem _ hy)), g.getLsbD_markOne mark m (hls x List.mem_cons_self) hl]
    simp only [List.mem_cons]
    grind

/-- The lanes of A(j) that have a deadline. -/
def Group.timed (g : Group) (j : Nat) : List Nat := (Mask.lanes (FMap.get 0#32 g.jA j)).filter (fun l => FMap.get 0 g.dl l ≠ 0)

theorem Group.mem_timed (g : Group) (j l : Nat) :
    l ∈ g.timed j ↔ l < 32 ∧ (FMap.get 0#32 g.jA j).getLsbD l = true ∧ FMap.get 0 g.dl l ≠ 0 := by
  simp only [Group.timed, List.mem_filter, Mask.mem_lanes, decide_eq_true_eq, and_assoc]

section
variable (g : Group) (j : Nat) (mark : Bool) (c : Nat)

theorem Group.releaseWait_jA (i : Nat) :
    FMap.get 0#32 (g.releaseWait j mark c).jA i = if i = j then 0#32 else FMap.get 0#32 g.jA i := FMap.get_set 0#32 g.jA j 0#32 i

theorem Group.releaseWait_dl (l : Nat) :
    FMap.get 0 (g.releaseWait j mark c).dl l = if l ∈ g.timed j then 0 else FMap.get 0 g.dl l := FMap.get_foldl_set 0 (g.timed j) g.dl l

theorem Group.releaseWait_mark (l : Nat) :
    FMap.get 0 (g.releaseWait j mark c).mark l = if l ∈ g.timed j then 0 else FMap.get 0 g.mark l :=
  FMap.get_foldl_set 0 (g.timed j) g.mark l

theorem Group.releaseWait_pred (k : Nat) {l : Nat} (hl : l < 32) : ((g.releaseWait j mark c).pred k).getLsbD l =
    if k ≠ 7 ∧ l ∈ g.timed j ∧ FMap.get 0 g.mark l = k then mark else (g.pred k).getLsbD l := by
  unfold Group.pred
  by_cases hk : k = 7
  · simp [hk]
  · rw [if_neg hk, if_neg hk]
    simp only [ne_eq, hk, not_false_eq_true, true_and]
    exact g.getLsbD_foldl_markOne mark (g.timed j) (fun x hx => ((g.mem_timed j x).mp hx).1) g.p k hl

/-- A release is as the statements say (R189, R190). -/
theorem Group.releaseWait_releases : Releases g (g.releaseWait j mark c) j mark where
  rest := rfl
  freed _ he hs _ _ hm ha := releaseIn_frees c he hs hm ha
  others _ ha _ he hm := releaseIn_keeps c he hm ha
  masks := g.releaseWait_jA j mark c
  timers l hl := by
    rw [g.releaseWait_dl j mark c l]
    by_cases ha : (FMap.get 0#32 g.jA j).getLsbD l = true <;> by_cases hd : FMap.get 0 g.dl l = 0 <;> simp [g.mem_timed, ha, hd, hl]
  marks k hk l hl := by
    rw [g.releaseWait_pred j mark c k hl]
    simp only [g.mem_timed, ne_eq, Nat.ne_of_lt hk, not_false_eq_true, hl, true_and, and_assoc]
    rfl

end

/-! ### The check of R189 -/

theorem Group.waitComplete_iff (g : Group) (j : Nat) : g.waitComplete j = true ↔
    FMap.get 0 g.jA j ≠ 0 ∧ FMap.get 0 g.jA j &&& FMap.get 0 g.jE j = FMap.get 0 g.jE j := by
  simp only [Group.waitComplete, Bool.and_eq_true, decide_eq_true_eq]
  rfl

/-- The check of one mask is R189's. -/
theorem Group.checkWait_checked (g : Group) (c j : Nat) : MaskChecked g (g.checkWait c j) j := by
  unfold MaskChecked Group.checkWait
  by_cases h : g.waitComplete j = true
  · rw [if_pos ((g.waitComplete_iff j).mp h), if_pos h]
    exact g.releaseWait_releases j false c
  · rw [if_neg (mt (g.waitComplete_iff j).mpr h), if_neg h]

/-! ### Deadlines (R190) -/

/-- A deadline that has passed. -/
def Due (o : Option Nat) (c : Nat) : Prop := ∃ t, o = some t ∧ t ≤ c

/-- The earlier of a deadline and a lane's own. -/
def earlier (dl : FMap Nat) (acc : Option Nat) (l : Nat) : Option Nat :=
  match FMap.get 0 dl l with
  | 0 => acc
  | d + 1 => match acc with
    | none => some d
    | some x => some (min x d)

theorem Group.deadline_eq (g : Group) (j : Nat) : g.deadline j = (Mask.lanes (FMap.get 0#32 g.jA j)).foldl (earlier g.dl) none := rfl

theorem due_earlier (dl : FMap Nat) (acc : Option Nat) (l c : Nat) :
    Due (earlier dl acc l) c ↔ Due acc c ∨ (FMap.get 0 dl l ≠ 0 ∧ FMap.get 0 dl l ≤ c + 1) := by
  unfold earlier Due
  cases FMap.get 0 dl l with
  | zero => simp
  | succ d =>
    cases acc with
    | none => simp
    | some x => simp

theorem due_foldl_earlier (dl : FMap Nat) (ls : List Nat) (acc : Option Nat) (c : Nat) :
    Due (ls.foldl (earlier dl) acc) c ↔ Due acc c ∨ ∃ l ∈ ls, FMap.get 0 dl l ≠ 0 ∧ FMap.get 0 dl l ≤ c + 1 := by
  induction ls generalizing acc with
  | nil => simp
  | cons l ls ih => rw [List.foldl_cons, ih, due_earlier, or_assoc, List.exists_mem_cons_iff]

/-- The earliest deadline has passed where some lane's has. -/
theorem Group.due_deadline_iff (g : Group) (j c : Nat) : Due (g.deadline j) c ↔ g.overdue j c := by
  rw [g.deadline_eq, due_foldl_earlier]
  simp only [Due, Group.overdue, reduceCtorEq, false_and, exists_false, false_or, Mask.mem_lanes, and_assoc]
  rfl

theorem Group.expire_of_overdue {g : Group} {j c : Nat} (h : g.overdue j c) : g.expire j c = g.releaseWait j true c := by
  obtain ⟨t, ht, hle⟩ := (g.due_deadline_iff j c).mpr h
  simp only [Group.expire, ht, if_pos hle]

theorem Group.expire_of_not_overdue {g : Group} {j c : Nat} (h : ¬ g.overdue j c) : g.expire j c = g := by
  unfold Group.expire
  cases hd : g.deadline j with
  | none => rfl
  | some t => exact if_neg fun hle => h ((g.due_deadline_iff j c).mp ⟨t, hd, hle⟩)

end Sys2Proof.Machine
end

section
/-! SUPPORT. Deadlines that pass by themselves: what passes over the groups of the device, and which lanes it leaves alone (R190). -/

namespace Sys2Proof.Machine

open Sys2Proof

/-! ### Lanes that a release of other lanes leaves alone -/

/-- Lane `l` stands where it stood, in the same masks, with its timer, its mark and its predicates. -/
structure Group.LaneKept (g x : Group) (l : Nat) : Prop where
  stays : Group.staysPut g.frontier x l
  arrived : ∀ i, (FMap.get 0#32 x.jA i).getLsbD l = (FMap.get 0#32 g.jA i).getLsbD l
  timer : FMap.get 0 x.dl l = FMap.get 0 g.dl l
  mark : FMap.get 0 x.mark l = FMap.get 0 g.mark l
  pred : ∀ k, (x.pred k).getLsbD l = (g.pred k).getLsbD l

theorem Group.staysPut_refl (g : Group) (l : Nat) : Group.staysPut g.frontier g l := fun e he hl => ⟨e, he, hl, rfl, rfl, rfl⟩

theorem Group.staysPut_trans {es : List Entry} {x y : Group} {l : Nat} (h : Group.staysPut es x l) (h' : Group.staysPut x.frontier y l) :
    Group.staysPut es y l := by
  intro e he hl
  obtain ⟨f, hf, hfl, hp, hs, hc⟩ := h e he hl
  obtain ⟨f', hf', hfl', hp', hs', hc'⟩ := h' f hf hfl
  exact ⟨f', hf', hfl', hp'.trans hp, hs'.trans hs, hc'.trans hc⟩

theorem Group.LaneKept.refl (g : Group) (l : Nat) : g.LaneKept g l := ⟨g.staysPut_refl l, fun _ => rfl, rfl, rfl, fun _ => rfl⟩

theorem Group.LaneKept.trans {g x y : Group} {l : Nat} (h : g.LaneKept x l) (h' : x.LaneKept y l) : g.LaneKept y l where
  stays := Group.staysPut_trans h.stays h'.stays
  arrived i := (h'.arrived i).trans (h.arrived i)
  timer := h'.timer.trans h.timer
  mark := h'.mark.trans h.mark
  pred k := (h'.pred k).trans (h.pred k)

theorem Group.releaseWait_laneKept (g : Group) (i : Nat) (mark : Bool) (c : Nat) {l : Nat} (hl : l < 32)
    (h : (FMap.get 0#32 g.jA i).getLsbD l = false) : g.LaneKept (g.releaseWait i mark c) l := by
  have ht : l ∉ g.timed i := fun ht => by simpa [h] using ((g.mem_timed i l).mp ht).2.1
  refine ⟨(g.releaseWait_releases i mark c).others l h, fun k => ?_, ?_, ?_, fun k => ?_⟩
  · rw [g.releaseWait_jA]
    split
    · next hk => rw [hk, h, BitVec.getLsbD_zero]
    · rfl
  · rw [g.releaseWait_dl, if_neg ht]
  · rw [g.releaseWait_mark, if_neg ht]
  · rw [g.releaseWait_pred i mark c k hl, if_neg fun hk => ht hk.2.1]

/-! ### All deadlines of a group -/

/-- One mask's deadline, as `expireAll` takes it. -/
def Group.expireOne (now upto : Nat) (g : Group) (j : Nat) : Group :=
  match g.deadline j with
  | some t => if t ≤ upto then g.releaseWait j true (max t now) else g
  | none => g

theorem Group.expireOne_of_overdue {g : Group} {j now upto : Nat} (h : g.overdue j upto) :
    ∃ c, g.expireOne now upto j = g.releaseWait j true c := by
  obtain ⟨t, ht, hle⟩ := (g.due_deadline_iff j upto).mpr h
  exact ⟨max t now, by simp only [Group.expireOne, ht, if_pos hle]⟩

theorem Group.expireOne_cases (g : Group) (j now upto : Nat) :
    (∃ c, g.expireOne now upto j = g.releaseWait j true c) ∨ g.expireOne now upto j = g := by
  unfold Group.expireOne
  cases g.deadline j with
  | none => exact .inr rfl
  | some t =>
    by_cases hle : t ≤ upto
    · exact .inl ⟨_, if_pos hle⟩
    · exact .inr (if_neg hle)

section
variable (now upto : Nat) {l j : Nat} (is : List Nat) (g : Group)

/-- A lane that is in none of the masks is left alone. -/
theorem Group.foldl_expireOne_laneKept (hl : l < 32) (h : ∀ i ∈ is, (FMap.get 0#32 g.jA i).getLsbD l = false) :
    g.LaneKept (is.foldl (Group.expireOne now upto) g) l := by
  induction is generalizing g with
  | nil => exact .refl g l
  | cons i is ih =>
    have h1 : g.LaneKept (g.expireOne now upto i) l := by
      rcases g.expireOne_cases i now upto with ⟨c, hc⟩ | hc
      · exact hc ▸ g.releaseWait_laneKept i true c hl (h i List.mem_cons_self)
      · rw [hc]; exact .refl g l
    exact h1.trans (ih _ fun k hk => (h1.arrived k).trans (h k (List.mem_cons_of_mem _ hk)))

/-- A mask that no lane has arrived at stays so. -/
theorem Group.foldl_expireOne_jA_zero (h : FMap.get 0#32 g.jA j = 0#32) :
    FMap.get 0#32 (is.foldl (Group.expireOne now upto) g).jA j = 0#32 := by
  induction is generalizing g with
  | nil => exact h
  | cons i is ih =>
    refine ih _ ?_
    rcases g.expireOne_cases i now upto with ⟨c, hc⟩ | hc
    · rw [hc, g.releaseWait_jA, h, ite_self]
    · rw [hc, h]

end

/-- The lanes of A(j) go on after their WAITs, with their mark predicates set. -/
structure Group.Freed (g x : Group) (j : Nat) : Prop where
  empty : FMap.get 0#32 x.jA j = 0#32
  runs : ∀ e ∈ g.frontier, e.susp = .wait j → ∀ l < 32, e.mask.getLsbD l = true → (FMap.get 0#32 g.jA j).getLsbD l = true →
    x.runsAt l (e.pc + 4)
  marked : ∀ l < 32, (FMap.get 0#32 g.jA j).getLsbD l = true → FMap.get 0 g.dl l ≠ 0 → FMap.get 0 g.mark l < 7 →
    (x.pred (FMap.get 0 g.mark l)).getLsbD l = true

/-- A release frees its lanes, whatever befalls other lanes before and after it. -/
theorem Group.freed_of_release {g g1 g2 x : Group} {j : Nat} (hr : Releases g1 g2 j true) (hx : FMap.get 0#32 x.jA j = 0#32)
    (h1 : ∀ l < 32, (FMap.get 0#32 g.jA j).getLsbD l = true → g.LaneKept g1 l)
    (h2 : ∀ l < 32, (FMap.get 0#32 g.jA j).getLsbD l = true → g2.LaneKept x l) : g.Freed x j := by
  refine ⟨hx, fun e he hs l hl hm ha => ?_, fun l hl ha hd hk => ?_⟩
  · obtain ⟨e1, he1, hm1, hp1, hs1, -⟩ := (h1 l hl ha).stays e he hm
    obtain ⟨e2, he2, hm2, hp2, hs2⟩ := hr.freed e1 he1 (hs1.trans hs) l hl hm1 (((h1 l hl ha).arrived j).trans ha)
    obtain ⟨e3, he3, hm3, hp3, hs3, -⟩ := (h2 l hl ha).stays e2 he2 hm2
    exact ⟨e3, he3, hm3, by rw [hp3, hp2, hp1], hs3.trans hs2⟩
  · have k := h1 l hl ha
    rw [(h2 l hl ha).pred, hr.marks _ hk l hl, if_pos]
    exact ⟨(k.arrived j).trans ha, k.timer.symm ▸ hd, k.mark⟩

theorem Group.expireAll_eq_foldl {g : Group} {j now upto : Nat} (ho : g.overdue j upto) :
    g.expireAll now upto = (List.range 12).foldl (Group.expireOne now upto) g := by
  obtain ⟨l, -, -, hl, -⟩ := ho
  unfold Group.expireAll
  cases hd : g.dl with
  | nil => simp [hd] at hl
  | cons x m => rfl

/-- The masks before and after mask `j` are the others. -/
theorem range_eq_append_cons {j n : Nat} (hj : j < n) :
    ∃ pre post, List.range n = pre ++ j :: post ∧ ∀ i ∈ pre ++ post, i < n ∧ i ≠ j := by
  obtain ⟨pre, post, hr⟩ := List.append_of_mem (List.mem_range.mpr hj)
  have hnd : (pre ++ j :: post).Nodup := hr ▸ List.nodup_range
  refine ⟨pre, post, hr, fun i hi => ⟨List.mem_range.mp (hr ▸ ?_), ?_⟩⟩ <;> grind

/-- A passed deadline frees the lanes of its mask, whatever the deadlines of masks with other lanes do before and after it. -/
theorem Group.expireAll_freed {g : Group} {j now upto : Nat} (hj : j < 12) (ho : g.overdue j upto)
    (hd : ∀ i < 12, i ≠ j → FMap.get 0#32 g.jA i &&& FMap.get 0#32 g.jA j = 0#32) : g.Freed (g.expireAll now upto) j := by
  obtain ⟨pre, post, hr, hne⟩ := range_eq_append_cons hj
  have hout (l : Nat) (hl : (FMap.get 0#32 g.jA j).getLsbD l = true) (i : Nat) (hi : i ∈ pre ++ post) :
      (FMap.get 0#32 g.jA i).getLsbD l = false := by
    have := (and_eq_zero_iff _ _).mp (hd i (hne i hi).1 (hne i hi).2) l
    grind
  set g1 := pre.foldl (Group.expireOne now upto) g with hg1
  have kept1 (l : Nat) (hl : l < 32) (ha : (FMap.get 0#32 g.jA j).getLsbD l = true) : g.LaneKept g1 l :=
    Group.foldl_expireOne_laneKept now upto pre g hl fun i hi => hout l ha i (List.mem_append_left _ hi)
  have ho1 : g1.overdue j upto := by
    obtain ⟨l, hl, ha, hdl, hle⟩ := ho
    have k := kept1 l hl ha
    exact ⟨l, hl, (k.arrived j).trans ha, k.timer.symm ▸ hdl, k.timer.symm ▸ hle⟩
  obtain ⟨c, hc⟩ := Group.expireOne_of_overdue (now := now) ho1
  have hfold : g.expireAll now upto = post.foldl (Group.expireOne now upto) (g1.releaseWait j true c) := by
    rw [Group.expireAll_eq_foldl ho, hr, List.foldl_append, List.foldl_cons, ← hg1, hc]
  rw [hfold]
  refine Group.freed_of_release (g1.releaseWait_releases j true c) ?_ kept1 fun l hl ha => ?_
  · exact Group.foldl_expireOne_jA_zero now upto post _ ((g1.releaseWait_jA j true c j).trans (if_pos rfl))
  · refine Group.foldl_expireOne_laneKept now upto post _ hl fun i hi => ?_
    rw [g1.releaseWait_jA, if_neg (hne i (List.mem_append_right _ hi)).2, (kept1 l hl ha).arrived i]
    exact hout l ha i (List.mem_append_right _ hi)

/-! ### Groups of the device -/

/-- A group that is changed where it stands. -/
theorem Dev.modGroup_eq_putGroup {d : Dev} {b n : Nat} {g : Group} (h : d.group b n = some g) (f : Group → Group) :
    d.modGroup b n f = d.putGroup b n (f g) := by
  unfold Dev.group at h
  obtain ⟨k, hk, hg⟩ := Option.bind_eq_some_iff.mp h
  simp only [Dev.putGroup, Dev.modGroup, Dev.modBlock, hk, hg]

theorem Dev.modGroup_of_none {d : Dev} {b n : Nat} (h : d.group b n = none) (f : Group → Group) : (d.modGroup b n f).group = d.group := by
  unfold Dev.group at h
  funext b' n'
  unfold Dev.modGroup Dev.modBlock Dev.group
  cases hk : d.blocks[b]? with
  | none => rfl
  | some k =>
    rw [hk] at h
    have hg : k.groups[n]? = none := h
    simp only [hg, setNth_eq_set]
    by_cases hb : b' = b
    · subst hb
      have : b' < d.blocks.length := (List.getElem?_eq_some_iff.mp hk).1
      simp [this, (List.getElem?_eq_some_iff.mp hk).2]
    · simp [Ne.symm hb]

theorem Dev.group_modGroup (d : Dev) (b n : Nat) (f : Group → Group) (b' n' : Nat) :
    (d.modGroup b n f).group b' n' = if b' = b ∧ n' = n then (d.group b n).map f else d.group b' n' := by
  cases hg : d.group b n with
  | none =>
    rw [Dev.modGroup_of_none hg]
    split
    · next h => rw [h.1, h.2, hg]; rfl
    · rfl
  | some g =>
    rw [Dev.modGroup_eq_putGroup hg, Dev.group_putGroup, hg]
    simp

/-- The groups of one block, where it is running. -/
def Dev.runningOf (d : Dev) (b : Nat) : List (Nat × Nat) :=
  match d.blocks[b]? with
  | none => []
  | some k => if k.running then (List.range k.groups.length).map (fun n => (b, n)) else []

theorem Dev.runningGroups_eq (d : Dev) : d.runningGroups = (List.range d.blocks.length).flatMap d.runningOf := rfl

theorem Dev.nodup_runningOf (d : Dev) (b : Nat) : (d.runningOf b).Nodup := by
  unfold Dev.runningOf
  split
  · exact List.nodup_nil
  · split
    · exact List.nodup_range.map fun _ _ h => (Prod.mk.inj h).2
    · exact List.nodup_nil

theorem Dev.fst_of_mem_runningOf {d : Dev} {b : Nat} {x : Nat × Nat} (h : x ∈ d.runningOf b) : x.1 = b := by
  unfold Dev.runningOf at h
  grind

/-- The groups of running blocks are told once each. -/
theorem Dev.nodup_runningGroups (d : Dev) : d.runningGroups.Nodup := by
  rw [Dev.runningGroups_eq]
  refine List.nodup_flatMap.mpr ⟨fun b _ => d.nodup_runningOf b, List.nodup_range.imp fun hb x hx hx' => ?_⟩
  exact hb ((Dev.fst_of_mem_runningOf hx).symm.trans (Dev.fst_of_mem_runningOf hx'))

theorem Dev.mem_runningGroups {d : Dev} {b n : Nat} {k : Block} {g : Group} (hk : d.blocks[b]? = some k) (hr : k.life = .running)
    (hg : k.groups[n]? = some g) : (b, n) ∈ d.runningGroups := by
  rw [Dev.runningGroups_eq]
  refine List.mem_flatMap.mpr ⟨b, List.mem_range.mpr (List.getElem?_eq_some_iff.mp hk).1, ?_⟩
  have : k.running = true := decide_eq_true hr
  simp only [Dev.runningOf, hk, this, if_true]
  exact List.mem_map_of_mem (List.mem_range.mpr (List.getElem?_eq_some_iff.mp hg).1)

/-! ### A cycle passes -/

/-- The deadlines of one group, as `passTime` takes them. -/
def Dev.expireGroup (m : Nat) (d : Dev) (x : Nat × Nat) : Dev := d.modGroup x.1 x.2 (fun g => g.expireAll d.cycle (d.cycle + m))

/-- Each group of the list takes its deadlines once. -/
theorem Dev.group_foldl_expireGroup (m : Nat) (l : List (Nat × Nat)) (hl : l.Nodup) (d : Dev) (b n : Nat) :
    (l.foldl (Dev.expireGroup m) d).group b n =
      if (b, n) ∈ l then (d.group b n).map (fun g => g.expireAll d.cycle (d.cycle + m)) else d.group b n := by
  induction l generalizing d with
  | nil => simp
  | cons x l ih =>
    obtain ⟨hx, hl⟩ := List.nodup_cons.mp hl
    have hc : (d.expireGroup m x).cycle = d.cycle := Dev.modGroup_cycle _ _ _ _
    rw [List.foldl_cons, ih hl, hc]
    unfold Dev.expireGroup
    simp only [Dev.group_modGroup, List.mem_cons]
    grind

/-- The group `x` differs from `g` in what it waits for and since when it is ready at most. -/
def Group.SameButReady (g x : Group) : Prop := x = { g with why := x.why, woken := x.woken, readyAt := x.readyAt }

/-- Steps over a list of groups that change a group's readiness alone change no more together. -/
theorem Dev.foldl_sameButReady (step : Dev → Nat × Nat → Dev)
    (hs : ∀ d x, step d x = d ∨ ∃ g g', d.group x.1 x.2 = some g ∧ step d x = d.putGroup x.1 x.2 g' ∧ g.SameButReady g')
    (l : List (Nat × Nat)) (d : Dev) (b n : Nat) (g : Group) (hg : d.group b n = some g) :
    ∃ x, (l.foldl step d).group b n = some x ∧ g.SameButReady x := by
  induction l generalizing d g with
  | nil => exact ⟨g, hg, rfl⟩
  | cons y l ih =>
    rw [List.foldl_cons]
    rcases hs d y with h | ⟨g1, g2, h1, h2, h3⟩
    · rw [h]; exact ih d g hg
    · rw [h2]
      by_cases hy : b = y.1 ∧ n = y.2
      · obtain ⟨rfl, rfl⟩ := hy
        obtain rfl : g1 = g := Option.some.inj (h1.symm.trans hg)
        obtain ⟨x, hx, hxs⟩ := ih (d.putGroup y.1 y.2 g2) g2 (by rw [Dev.group_putGroup, h1]; simp)
        refine ⟨x, hx, ?_⟩
        unfold Group.SameButReady at *
        rw [hxs, h3]
      · refine ih _ g ?_
        rw [Dev.group_putGroup, if_neg (fun h => hy ⟨h.1, h.2.1⟩), hg]

theorem Dev.recheck_sameButReady (d : Dev) (l : List (Nat × Nat)) {b n : Nat} {g : Group} (hg : d.group b n = some g) :
    ∃ x, (d.recheck l).group b n = some x ∧ g.SameButReady x := by
  refine Dev.foldl_sameButReady _ (fun d x => ?_) l d b n g hg
  split
  · next k g hk hg =>
    split
    · split
      · exact .inr ⟨g, _, hg, rfl, rfl⟩
      · exact .inl rfl
    · exact .inl rfl
  · exact .inl rfl

theorem Dev.noteReady_sameButReady (d : Dev) (l : List (Nat × Nat)) {b n : Nat} {g : Group} (hg : d.group b n = some g) :
    ∃ x, (d.noteReady l).group b n = some x ∧ g.SameButReady x := by
  refine Dev.foldl_sameButReady _ (fun d x => ?_) l d b n g hg
  split
  · next k g hk hg =>
    dsimp only
    generalize (if d.groupReady x.1 x.2 k g then some (g.readyAt.getD d.cycle) else none) = since
    split
    · exact .inl rfl
    · exact .inr ⟨g, _, hg, rfl, rfl⟩
  · exact .inl rfl

/-- As a cycle passes, a group of a running block takes its deadlines; else only its readiness changes. -/
theorem Dev.passTime_group {d : Dev} {b n : Nat} {k : Block} {g : Group} (hk : d.blocks[b]? = some k) (hr : k.life = .running)
    (hg : k.groups[n]? = some g) :
    ∃ x, (d.passTime 1).group b n = some x ∧ (g.expireAll d.cycle d.cycle).SameButReady x := by
  have hgrp : d.group b n = some g := by rw [Dev.group, hk]; exact hg
  have h1 : (d.runningGroups.foldl (Dev.expireGroup 0) d).group b n = some (g.expireAll d.cycle d.cycle) := by
    rw [Dev.group_foldl_expireGroup 0 _ d.nodup_runningGroups, if_pos (Dev.mem_runningGroups hk hr hg), hgrp]
    rfl
  obtain ⟨x, hx, hxs⟩ := Dev.recheck_sameButReady _ (d.runningGroups.foldl (Dev.expireGroup 0) d).runningGroups h1
  obtain ⟨y, hy, hys⟩ := Dev.noteReady_sameButReady _ (d.runningGroups.foldl (Dev.expireGroup 0) d).runningGroups hx
  refine ⟨y, hy, ?_⟩
  unfold Group.SameButReady at *
  rw [hys, hxs]

end Sys2Proof.Machine
end

section
/-! PROOFS. Rejoin masks and deadlines (R188 to R190). -/

namespace Sys2Proof.Machine

open Sys2Proof

/-! ### Instructions that set the frontier themselves -/

/-- The instruction has set the group's frontier; the run has ended or not. -/
theorem issue_stay {i : Instr} {v : View} {s : State} {body : View → Res} (hi : s.dev.issuer = some v) (h : Ready i v)
    (he : extraOf i v = {}) {g : Group} {ended : Bool} (hb : body v.counted = .stay v.d g ended) :
    issue i (accessOf i v) body s = .next (s.withDev (v.leaves ended g)) := by
  rw [issue_ready hi h he, hb]
  rfl

theorem Group.advance_frontier (g : Group) : g.advance.1.frontier = g.goesOn.frontier := by
  rw [← goesOn_eq]
  exact (Group.afterRun_frontier g.advance).symm

/-- Where `thenCheck` puts the issuing entry. -/
theorem Group.advance_eq_nextWord (g : Group) : ({ g.advance.1 with sel := !g.head.endsRun } : Group) = g.nextWord := by
  unfold Group.nextWord
  rw [← Group.advance_frontier]
  rfl

theorem View.thenCheck_eq (v : View) (jE : FMap Mask) (j : Nat) : v.counted.thenCheck { v.issued with jE := jE } j =
    .stay v.d (({ v.issued.nextWord with jE := jE } : Group).checkWait v.d.cycle j) v.g.head.endsRun := by
  have h := congrArg (fun g : Group => ({ g with jE := jE } : Group)) v.issued.advance_eq_nextWord
  rw [← h]
  rfl

/-- JSET, JOIN and LEAVE: a new E(j), and the check of R189 behind the instruction. -/
theorem setsMask {i : Instr} {j : BitVec 4} {e : View → Mask} (e' : View → Mask)
    (hx : ∀ s v, exec i s = issue i (accessOf i v) (fun v => v.thenCheck { v.g with jE := FMap.set 0#32 v.g.jE j.toNat (e' v) } j.toNat) s)
    (he : ∀ v, extraOf i v = {}) (hee : ∀ v, e' v.counted = e v) (s : State) (v : View) (hi : s.dev.issuer = some v) (hr : Ready i v) :
    ∃ g', MaskChecked { v.issued.nextWord with jE := FMap.set 0 v.g.jE j.toNat (e v) } g' j.toNat ∧
      exec i s = .next (s.withDev (v.leaves v.g.head.endsRun g')) := by
  refine ⟨_, Group.checkWait_checked _ v.d.cycle j.toNat, ?_⟩
  rw [hx s v]
  refine issue_stay hi hr (he v) ?_
  rw [hee]
  exact v.thenCheck_eq (FMap.set 0#32 v.g.jE j.toNat (e v)) j.toNat

theorem View.thenWait_eq (v : View) (g : Group) (j : Nat) :
    ∃ ended, v.thenWait g j = .stay v.d ((g.checkWait v.d.cycle j).expire j v.d.cycle) ended := ⟨_, rfl⟩

/-- WAIT and WAIT.t: the issuing entry arrives, the check of R189 follows, then the deadlines that came with the arrival. -/
theorem waitsAt {i : Instr} {j : BitVec 4} {f : View → Group → Group} (f' : View → Group → Group)
    (hx : ∀ s v, exec i s = issue i (accessOf i v) (fun v => v.thenWait (f' v (v.g.arriveWait j.toNat)) j.toNat) s)
    (he : ∀ v, extraOf i v = {}) (hf : ∀ v, f' v.counted (v.issued.arriveWait j.toNat) = f v (v.arrives j.toNat))
    (s : State) (v : View) (hi : s.dev.issuer = some v) (hr : Ready i v) : ∃ g1 g2 ended,
      MaskChecked (f v (v.arrives j.toNat)) g1 j.toNat ∧
      (g1.overdue j.toNat v.d.cycle → Releases g1 g2 j.toNat true) ∧ (¬ g1.overdue j.toNat v.d.cycle → g2 = g1) ∧
      exec i s = .next (s.withDev (v.leaves ended g2)) := by
  obtain ⟨ended, hw⟩ := v.counted.thenWait_eq (f v (v.arrives j.toNat)) j.toNat
  refine ⟨(f v (v.arrives j.toNat)).checkWait v.d.cycle j.toNat, _, ended, Group.checkWait_checked _ v.d.cycle j.toNat, fun ho => ?_,
    Group.expire_of_not_overdue, (hx s v).trans (issue_stay hi hr (he v) ?_)⟩
  · rw [Group.expire_of_overdue ho]
    exact Group.releaseWait_releases _ _ _ _
  · rw [View.counted_g, hf]
    exact hw

/-- WAIT.t arms a deadline and a mark in the arriving lanes. -/
def View.arms (v : View) (a : BitVec 7) (p : BitVec 3) (g : Group) : Group := { g with
  dl := v.act.lanes.foldl (fun m l => FMap.set 0 m l (v.d.cycle + (v.g.uni a.toNat).toNat + 1)) g.dl,
  mark := v.act.lanes.foldl (fun m l => FMap.set 0 m l p.toNat) g.mark }

/-! ### A deadline passes -/

theorem Group.Freed.of_sameButReady {g x y : Group} {j : Nat} (h : g.Freed x j) (hy : x.SameButReady y) : g.Freed y j := by
  unfold Group.SameButReady at hy
  rw [hy]
  exact ⟨h.empty, h.runs, h.marked⟩

/-- WAIT_TIMEOUT of a mask whose earliest deadline has passed. -/
theorem exec_waitTimeout {s : State} {b n : Nat} {j : BitVec 4} {k : Block} {g : Group} (hp : s.plat.phase = .running)
    (hk : s.dev.blocks[b]? = some k) (hr : k.life = .running) (hg : k.groups[n]? = some g) (ho : g.overdue j.toNat s.dev.cycle) :
    exec (.waitTimeout b n j) s = .next (s.withDev (s.dev.putGroup b n (g.releaseWait j.toNat true s.dev.cycle))) := by
  have hgrp : s.dev.group b n = some g := by rw [Dev.group, hk]; exact hg
  have hrun : k.running = true := decide_eq_true hr
  change execWaitTimeout b n j s = _
  rw [execWaitTimeout, event_running _ hp]
  simp only [hk, hrun, if_true]
  rw [Dev.modGroup_eq_putGroup hgrp, Group.expire_of_overdue ho]

/-- Settles O19: the check of a mask and a passed deadline both come to one release, which does lane by lane what R189 and R190 say. -/
theorem rejoinMasks : Obligations.RejoinMasks := by
  unfold Obligations.RejoinMasks
  intro sets waits
  refine ⟨fun j a => setsMask (fun v => v.g.uni a.toNat &&& v.g.live) (fun _ _ => rfl) (fun _ => rfl) (fun _ => rfl),
    fun j => setsMask (fun v => FMap.get 0#32 v.g.jE j.toNat ||| v.act) (fun _ _ => rfl) (fun _ => rfl) (fun _ => rfl),
    fun j => setsMask (fun v => FMap.get 0#32 v.g.jE j.toNat &&& ~~~v.act) (fun _ _ => rfl) (fun _ => rfl) (fun _ => rfl),
    fun j => waitsAt (i := .wait j) (j := j) (f := fun _ g => g) (fun _ g => g) (fun _ _ => rfl) (fun _ => rfl) (fun _ => rfl),
    fun j a p => waitsAt (i := .waitT j a p) (j := j) (f := fun v => v.arms a p) (fun v => v.arms a p) (fun _ _ => rfl) (fun _ => rfl)
      (fun _ => rfl),
    fun s b n j k g hp hk hr hg ho => ⟨_, g.releaseWait_releases j.toNat true s.dev.cycle, exec_waitTimeout hp hk hr hg ho⟩,
    fun d b n j k g hj hk hr hg ho hd => ?_⟩
  obtain ⟨x, hx, hxs⟩ := Dev.passTime_group hk hr hg
  have hf := (Group.expireAll_freed hj ho hd).of_sameButReady hxs
  exact ⟨x, hx, hf.empty, hf.runs, hf.marked⟩

end Sys2Proof.Machine
end

section
/-! SUPPORT. A block whose groups have all exited, through what an exit sets in motion (R42, R198, R250). -/

namespace Sys2Proof.Machine

open Sys2Proof

/-! ### What a block's groups are, apart from everything else of it -/

/-- How far a block's life has come, and its groups. -/
def Dev.standing (d : Dev) (b : Nat) : Option (Life × List Group) := (d.blocks[b]?).map (fun k => (k.life, k.groups))

theorem Dev.standing_of_blocks {d : Dev} {b : Nat} {k : Block} (h : d.blocks[b]? = some k) : d.standing b = some (k.life, k.groups) := by
  rw [Dev.standing, h]; rfl

theorem Dev.standing_eq_some_iff {d : Dev} {b : Nat} {x : Life} {gs : List Group} :
    d.standing b = some (x, gs) ↔ ∃ k, d.blocks[b]? = some k ∧ k.life = x ∧ k.groups = gs := by
  simp [Dev.standing]

theorem Dev.blocks_modBlock_same {d : Dev} {b : Nat} {k : Block} (h : d.blocks[b]? = some k) (f : Block → Block) :
    (d.modBlock b f).blocks[b]? = some (f k) := by
  have hb : b < d.blocks.length := (List.getElem?_eq_some_iff.mp h).1
  simp only [Dev.modBlock, h, setNth_eq_set]
  exact List.getElem?_set_self hb

theorem Dev.standing_modBlock (d : Dev) (b : Nat) (f : Block → Block)
    (hf : ∀ k, (f k).life = k.life ∧ (f k).groups = k.groups := by exact fun _ => ⟨rfl, rfl⟩) :
    (d.modBlock b f).standing b = d.standing b := by
  cases hk : d.blocks[b]? with
  | none => simp only [Dev.modBlock, hk]
  | some k =>
    rw [Dev.standing_of_blocks (Dev.blocks_modBlock_same hk f), Dev.standing_of_blocks hk, (hf k).1, (hf k).2]

theorem Dev.standing_modTile (d : Dev) (t : Nat) (f : Tile → Tile) (b : Nat) : (d.modTile t f).standing b = d.standing b := by
  unfold Dev.modTile
  split <;> rfl

theorem Dev.standing_enterPass (d : Dev) (b x : Nat) : (d.enterPass b x).standing b = d.standing b := by
  unfold Dev.enterPass
  cases hk : d.blocks[b]? with
  | none => rfl
  | some k =>
    exact (Dev.standing_modBlock _ b _).trans (Dev.standing_modTile _ _ _ b)

theorem Dev.standing_enterComplete (d : Dev) (b : Nat) : (d.enterComplete b).standing b = d.standing b := by
  unfold Dev.enterComplete
  induction List.range 8 generalizing d with
  | nil => rfl
  | cons x xs ih =>
    rw [List.foldl_cons, ih]
    cases hk : d.blocks[b]? with
    | none => rfl
    | some k =>
      dsimp only
      split
      · rfl
      · split
        · exact d.standing_modBlock b _
        · split
          · exact d.standing_enterPass b x
          · rfl

theorem Dev.standing_leaveSets (d : Dev) (b n : Nat) : (d.leaveSets b n).standing b = d.standing b := by
  unfold Dev.leaveSets
  rw [Dev.standing_enterComplete]
  exact d.standing_modBlock b _

theorem Dev.standing_putGroup {d : Dev} {b n : Nat} {x : Life} {gs : List Group} (h : d.standing b = some (x, gs)) {y : Group}
    (hy : gs[n]? = some y) (g : Group) : (d.putGroup b n g).standing b = some (x, gs.set n g) := by
  obtain ⟨k, hk, rfl, rfl⟩ := Dev.standing_eq_some_iff.mp h
  rw [Dev.putGroup, Dev.modGroup, Dev.standing_of_blocks (Dev.blocks_modBlock_same hk _)]
  simp only [hy, setNth_eq_set]

theorem Dev.group_of_standing {d : Dev} {b : Nat} {x : Life} {gs : List Group} (h : d.standing b = some (x, gs)) (n : Nat) :
    d.group b n = gs[n]? := by
  obtain ⟨k, hk, -, rfl⟩ := Dev.standing_eq_some_iff.mp h
  rw [Dev.group, hk]; rfl

/-! ### All groups have exited -/

/-- Every group of the list has wholly exited. -/
def AllExited (gs : List Group) : Prop := ∀ g ∈ gs, g.live = 0#32

theorem AllExited.set {gs : List Group} (h : AllExited gs) (n : Nat) {g : Group} (hg : g.live = 0#32) : AllExited (gs.set n g) := by
  intro x hx
  rcases List.mem_or_eq_of_mem_set hx with hx | rfl
  · exact h x hx
  · exact hg

theorem Block.liveGroups_of_allExited {k : Block} (h : AllExited k.groups) : k.liveGroups = [] := by
  unfold Block.liveGroups
  refine List.filter_eq_nil_iff.mpr fun n _ => ?_
  cases hg : k.groups[n]? with
  | none => simp
  | some g => simp [Group.exited, h g (List.mem_of_getElem? hg)]

/-- No collective step is left to a block whose groups have all exited. -/
theorem Dev.collSettle_of_allExited {d : Dev} {b : Nat} {gs : List Group} (h : d.standing b = some (.running, gs)) (hx : AllExited gs) :
    (d.collSettle b).standing b = some (.running, gs) := by
  obtain ⟨k, hk, hl, rfl⟩ := Dev.standing_eq_some_iff.mp h
  have hk' : (d.modBlock b Block.completePhases).blocks[b]? = some k.completePhases := Dev.blocks_modBlock_same hk _
  have hlive : k.completePhases.liveGroups = [] := Block.liveGroups_of_allExited hx
  have hbar (fuel : Nat) : d.barriers b (fuel + 1) = d.modBlock b Block.completePhases := by
    rw [Dev.barriers]
    simp only [hk', hlive, List.findSome?_nil]
  have hrun : k.running = true := decide_eq_true hl
  have : d.collSettle b = d.modBlock b Block.completePhases := by
    unfold Dev.collSettle
    simp only [hk, hrun, if_true]
    rw [hbar]
    unfold Dev.barTraps Dev.advStep
    simp only [hk', hlive, List.filterMap_nil, List.filter_nil, List.isEmpty_nil, Bool.true_or, if_true]
  rw [this]
  exact (d.standing_modBlock b _).trans h

/-- The block begins to retire with its last group (R42, R198). -/
theorem Dev.groupExit_of_allExited {d : Dev} {b : Nat} (n : Nat) {gs : List Group} (h : d.standing b = some (.running, gs))
    (hx : AllExited gs) : (d.groupExit b n).standing b = some (.retiring, gs) := by
  have hs : ((d.leaveSets b n).collSettle b).standing b = some (.running, gs) :=
    Dev.collSettle_of_allExited ((d.standing_leaveSets b n).trans h) hx
  obtain ⟨k, hk, hl, rfl⟩ := Dev.standing_eq_some_iff.mp hs
  unfold Dev.groupExit
  rw [Dev.standing_of_blocks (Dev.blocks_modBlock_same hk _)]
  have hrun : k.running = true := decide_eq_true hl
  simp only [hrun, Block.liveGroups_of_allExited hx, List.isEmpty_nil, Bool.and_self, if_true]

theorem Dev.issuer_blocks {d : Dev} {v : View} (h : d.issuer = some v) :
    v.d.blocks[v.b]? = some v.k ∧ v.k.groups[v.n]? = some v.g := by
  unfold Dev.issuer at h
  split at h
  · cases h
  · split at h
    · cases h
    · split at h
      · cases h
      · rename_i k hk _ g hg
        cases h
        exact ⟨hk, hg⟩

end Sys2Proof.Machine
end

section
/-! PROOFS. EXIT, YIELD, NOP, TRAP, BKPT and words that no row lists (R99, R191, R198, R200, R201). -/

namespace Sys2Proof.Machine

open Sys2Proof

/-! ### The lanes of an EXIT -/

/-- The entries of a frontier without the lanes of `m`. -/
def entriesWithout (m : Mask) (es : List Entry) : List Entry :=
  es.filterMap (fun e => if e.mask &&& ~~~m = 0#32 then none else some { e with mask := e.mask &&& ~~~m })

/-- The twelve masks without the lanes of `m`. -/
def masksWithout (m : Mask) (n : Nat) (x : FMap Mask) : FMap Mask :=
  (List.range n).foldl (fun x j => FMap.set 0#32 x j (FMap.get 0#32 x j &&& ~~~m)) x

/-- The group without the lanes of `m`, before the checks. -/
def Group.withoutLanes (g : Group) (m : Mask) : Group := { g with
  live := g.live &&& ~~~m, jE := masksWithout m 12 g.jE, jA := masksWithout m 12 g.jA,
  frontier := entriesWithout m g.frontier, saved := entriesWithout m g.saved, sel := false }

/-- The group once the lanes of `m` have left and the first `n` masks have been checked. -/
def Group.exitChecked (g : Group) (m : Mask) (c n : Nat) : Group := (List.range n).foldl (fun g j => g.checkWait c j) (g.withoutLanes m)

theorem Group.lanesExit_eq (g : Group) (m : Mask) (c : Nat) : g.lanesExit m c = g.exitChecked m c 12 := rfl

theorem Group.exitChecked_succ (g : Group) (m : Mask) (c n : Nat) : g.exitChecked m c (n + 1) = (g.exitChecked m c n).checkWait c n := by
  rw [Group.exitChecked, List.range_succ, List.foldl_append]
  rfl

theorem Group.checkWait_live (g : Group) (c j : Nat) : (g.checkWait c j).live = g.live := by
  unfold Group.checkWait
  split <;> rfl

theorem Group.exitChecked_live (g : Group) (m : Mask) (c n : Nat) : (g.exitChecked m c n).live = g.live &&& ~~~m := by
  induction n with
  | zero => rfl
  | succ n ih => rw [g.exitChecked_succ, Group.checkWait_live, ih]

theorem get_masksWithout (m : Mask) (n : Nat) (x : FMap Mask) (j : Nat) :
    FMap.get 0#32 (masksWithout m n x) j = if j < n then FMap.get 0#32 x j &&& ~~~m else FMap.get 0#32 x j := by
  induction n generalizing j with
  | zero => rfl
  | succ n ih =>
    have hs : masksWithout m (n + 1) x = FMap.set 0#32 (masksWithout m n x) n (FMap.get 0#32 (masksWithout m n x) n &&& ~~~m) := by
      rw [masksWithout, List.range_succ, List.foldl_append]
      rfl
    rw [hs, FMap.get_set, ih, ih, if_neg (lt_irrefl n)]
    grind

theorem mem_entriesWithout {m : Mask} {es : List Entry} {e : Entry} (h : e ∈ entriesWithout m es) : e.mask &&& m = 0#32 ∧ e.mask ≠ 0#32 := by
  obtain ⟨x, -, hx⟩ := List.mem_filterMap.mp h
  split at hx
  · cases hx
  · next hne =>
    cases hx
    refine ⟨(and_eq_zero_iff _ _).mpr fun l hl => ?_, hne⟩
    simp only [BitVec.getLsbD_and, BitVec.getLsbD_not, Bool.and_eq_true, Bool.not_eq_true'] at hl
    exact hl.2.2

/-- A lane that does not leave keeps its place. -/
theorem entriesWithout_keeps {m : Mask} {es : List Entry} {e : Entry} {l : Nat} (he : e ∈ es) (hl : e.mask.getLsbD l = true)
    (hm : m.getLsbD l = false) :
    ∃ f ∈ entriesWithout m es, f.mask.getLsbD l = true ∧ f.pc = e.pc ∧ f.susp = e.susp ∧ f.clause = e.clause := by
  have hl32 : l < 32 := BitVec.lt_of_getLsbD hl
  have hk : (e.mask &&& ~~~m).getLsbD l = true := by rw [BitVec.getLsbD_and, BitVec.getLsbD_not, hl, hm, decide_eq_true hl32]; rfl
  have hne : e.mask &&& ~~~m ≠ 0#32 := fun h => by simp [h] at hk
  exact ⟨{ e with mask := e.mask &&& ~~~m }, List.mem_filterMap.mpr ⟨e, he, if_neg hne⟩, hk, rfl, rfl, rfl⟩

/-- Counting the instruction leaves every lane where it is. -/
theorem View.issued_staysPut (v : View) (l : Nat) : Group.staysPut v.g.frontier v.issued l := by
  intro e he hl
  unfold View.issued Group.head
  cases hf : v.g.frontier with
  | nil => simp [hf] at he
  | cons x xs =>
    rw [hf] at he
    rcases List.mem_cons.mp he with rfl | he
    · exact ⟨_, List.mem_cons_self, hl, rfl, rfl, rfl⟩
    · exact ⟨e, List.mem_cons_of_mem _ he, hl, rfl, rfl, rfl⟩

/-! ### EXIT -/

/-- What EXIT does to its group's block. -/
def View.exits (v : View) (g : Group) : Res :=
  if g.exited then
    let d := (v.d.putGroup v.b v.n (g.release .ready)).groupExit v.b v.n
    .stay d ((d.group v.b v.n).getD g) true
  else .stay v.d g v.g.head.endsRun

theorem exec_exit {s : State} {v : View} (hi : s.dev.issuer = some v) (hr : Ready .exit v) :
    exec .exit s = .next (s.withDev (conclude .exit v (v.exits (v.issued.exitChecked v.act v.d.cycle 12)))) := by
  have : exec .exit s = issue .exit (accessOf .exit v) (fun v => v.exits (v.g.lanesExit v.act v.d.cycle)) s := rfl
  rw [this, issue_ready hi hr rfl]
  rw [Group.lanesExit_eq]
  rfl

/-- Lanes of the group stay: it goes on without the others. -/
theorem exec_exit_some {s : State} {v : View} (hi : s.dev.issuer = some v) (hr : Ready .exit v) (hl : v.g.live &&& ~~~v.act ≠ 0#32) :
    exec .exit s = .next (s.withDev (v.leaves v.g.head.endsRun (v.issued.exitChecked v.act v.d.cycle 12))) := by
  have he : (v.issued.exitChecked v.act v.d.cycle 12).exited = false := by
    rw [Group.exited, Group.exitChecked_live]
    exact decide_eq_false hl
  rw [exec_exit hi hr, View.exits, he]
  rfl

/-- The group has wholly exited, and with it its block: the block begins to retire. -/
theorem View.exits_last {v : View} (hb : v.d.blocks[v.b]? = some v.k) (hg : v.k.groups[v.n]? = some v.g) (hk : v.k.life = .running)
    (ho : ∀ m x, m ≠ v.n → v.k.groups[m]? = some x → x.live = 0#32) {g : Group} (hl : g.live = 0#32) :
    ∃ k', (conclude .exit v (v.exits g)).blocks[v.b]? = some k' ∧ k'.life = .retiring ∧ AllExited k'.groups := by
  have hr : (g.release .ready).live = 0#32 := hl
  have hn : v.n < v.k.groups.length := (List.getElem?_eq_some_iff.mp hg).1
  have hgn (x : Group) : (v.k.groups.set v.n x)[v.n]? = some x := List.getElem?_set_self hn
  have hall : AllExited (v.k.groups.set v.n (g.release .ready)) := by
    intro x hx
    obtain ⟨m, hm⟩ := List.mem_iff_getElem?.mp hx
    by_cases hmn : m = v.n
    · rw [hmn, hgn] at hm
      exact Option.some.inj hm ▸ hr
    · rw [List.getElem?_set_ne (Ne.symm hmn)] at hm
      exact ho m x hmn hm
  have hs0 : v.d.standing v.b = some (.running, v.k.groups) := hk ▸ Dev.standing_of_blocks hb
  have hs1 := Dev.groupExit_of_allExited v.n (Dev.standing_putGroup hs0 hg (g.release .ready)) hall
  have hgrp := (Dev.group_of_standing hs1 v.n).trans (hgn _)
  have hs2 := Dev.standing_putGroup hs1 (hgn _) (g.release .ready)
  obtain ⟨k', hk', hlife, hgroups⟩ := Dev.standing_eq_some_iff.mp hs2
  have he : g.exited = true := decide_eq_true hl
  refine ⟨k', ?_, hlife, hgroups ▸ hall.set v.n hr⟩
  rw [View.exits, he, if_pos rfl]
  simp only [conclude, hgrp, Option.getD_some, if_true]
  exact hk'

/-! ### YIELD, NOP, TRAP, BKPT -/

theorem yield_answers : Answers .yield (fun v => v.d.putGroup v.b v.n
    { v.issued with frontier := v.issued.goesOn.frontier, slot := none, sel := false, readyAt := none }) := by
  intro s v hi hr
  have h : exec .yield s = issue .yield (accessOf .yield v) (fun v => .stay v.d v.g.advance.1 true) s := rfl
  rw [h, issue_stay hi hr rfl rfl, View.counted_g]
  have ha : v.issued.advance.1 = { v.issued with frontier := v.issued.goesOn.frontier } := by
    rw [← Group.advance_frontier]
    rfl
  rw [ha]
  rfl

theorem nop_answers : Answers .nop (fun v => v.completes v.d v.issued) := by
  intro s v hi hr
  have h : exec .nop s = issue .nop (accessOf .nop v) (fun v => .done v.d v.g) s := rfl
  rw [h]
  exact issue_done hi hr rfl rfl

theorem trap_answers (i : BitVec 8) :
    Answers (.trap i) (fun v => v.traps (.trap i) { cause := 0x13, lanes := v.act, info0 := i.zeroExtend 32 }) := by
  intro s v hi hr
  have h : exec (.trap i) s = issue (.trap i) (accessOf (.trap i) v)
    (fun v => .trap { cause := cUSER_TRAP, lanes := v.act, info0 := zext8 i }) s := rfl
  rw [h]
  exact issue_trap hi hr rfl rfl

theorem bkpt_answers (i : BitVec 8) :
    Answers (.bkpt i) (fun v => v.traps (.bkpt i) { cause := 0x14, lanes := v.act, info0 := i.zeroExtend 32 }) := by
  intro s v hi hr
  have h : exec (.bkpt i) s = issue (.bkpt i) (accessOf (.bkpt i) v)
    (fun v => .trap { cause := cBREAKPOINT, lanes := v.act, info0 := zext8 i }) s := rfl
  rw [h]
  exact issue_trap hi hr rfl rfl

/-! ### Words that no row lists (R99) -/

/-- Such a word names no register, so the checks of its run and its level alone come before its own. -/
theorem unassignedOp_ready {c : Cls} {w : Word} {v : View} (hr : v.g.head.run < 24) (hc : c = .sys → v.g.levelH = true) :
    Ready (.unassignedOp c w) v where
  short := hr
  level := hc
  form := rfl
  uniform h := nomatch h
  full _ h := nomatch h
  windows _ h := nomatch h
  writable _ h := nomatch h
  clean _ h := nomatch h
  sound := rfl

theorem exec_unassignedOp {c : Cls} {w : Word} {s : State} {v : View} (hi : s.dev.issuer = some v) (hr : Ready (.unassignedOp c w) v) :
    exec (.unassignedOp c w) s = .next (s.withDev (v.traps (.unassignedOp c w) { cause := 0x02, lanes := v.act, info0 := w })) := by
  have h : exec (.unassignedOp c w) s =
    issue (.unassignedOp c w) (accessOf (.unassignedOp c w) v) (fun v => .trap (illegal w v.act 0)) s := rfl
  rw [h]
  exact issue_trap hi hr rfl rfl

/-- Settles O21: EXIT takes its lanes out of the group and then checks the masks one by one; a block whose groups have all exited has no
collective step left, so it begins to retire. -/
theorem exitAndRest : Obligations.ExitAndRest := by
  unfold Obligations.ExitAndRest
  refine ⟨fun s v hi hr => ⟨v.issued.exitChecked v.act v.d.cycle, rfl, fun j hj => ⟨?_, ?_⟩, fun e he => mem_entriesWithout he,
      fun l hl => Group.staysPut_trans (v.issued_staysPut l) fun e he hm => entriesWithout_keeps he hm hl,
      fun j _ => v.issued.exitChecked_succ v.act v.d.cycle j ▸ Group.checkWait_checked _ _ _,
      exec_exit_some hi hr, fun hl hk ho => ?_⟩,
    yield_answers, nop_answers, trap_answers, bkpt_answers,
    fun c w s v hi hr hc => exec_unassignedOp hi (unassignedOp_ready hr hc)⟩
  · exact (get_masksWithout v.act 12 v.g.jE j).trans (if_pos hj)
  · exact (get_masksWithout v.act 12 v.g.jA j).trans (if_pos hj)
  · obtain ⟨hb, hg⟩ := Dev.issuer_blocks hi
    obtain ⟨k', hk', hlife, hgroups⟩ := View.exits_last hb hg hk ho ((v.issued.exitChecked_live v.act v.d.cycle 12).trans hl)
    exact ⟨_, k', exec_exit hi hr, hk', hlife, hgroups⟩

end Sys2Proof.Machine
end

section
/-! PROOFS. The faults of MEM instructions, SLD, SST and the barrier instructions, in the order of R223. -/

namespace Sys2Proof.Machine

open Sys2Proof

/-! ### Bounds and replay for the issuing group (R45, R63, R203) -/

/-- A byte exists in the copy of a level that a lane of the issuing group reaches where the group holds it. -/
theorem View.inSpace_space {d : Dev} {v : View} (hi : d.issuer = some v) (lvl : Lvl) (l a : Nat) :
    v.d.inSpace (v.k.space v.b v.n lvl l) a = v.holdsByte lvl a := by
  obtain ⟨hk, hg⟩ := Dev.issuer_blocks hi
  cases lvl with
  | priv => simp only [Block.space, Dev.inSpace, hk, hg, View.holdsByte]
  | core => simp only [Block.space, Dev.inSpace, hk, View.holdsByte]; rfl
  | clu => simp only [Block.space, Dev.inSpace, hk, View.holdsByte]
  | chip => rfl

theorem View.rangeOk_space {d : Dev} {v : View} (hi : d.issuer = some v) (lvl : Lvl) (l a n : Nat) :
    v.d.rangeOk (v.k.space v.b v.n lvl l) a n = (List.range n).all (fun i => v.holdsByte lvl (a + i)) := by
  simp only [Dev.rangeOk, View.inSpace_space hi]

theorem View.replayBars_space (v : View) (lvl : Lvl) (l a n : Nat) :
    v.k.replayBars (v.k.space v.b v.n lvl l) a n = v.barred lvl a n := by
  cases lvl <;> rfl

/-- Counting the instruction changes nothing that the checks look at. -/
theorem memFault_counted (v : View) : memFault v.counted = memFault v := rfl

theorem ea_issued (v : View) (a : Src) (o : BitVec 8) (u : Nat) : ea v.issued a o u = ea v.g a o u := by
  funext l
  rw [ea, View.issued_src, ea]

/-! ### The first failing check -/

/-- The trap of a failing check; `info` says whether its info words tell the address and the level. -/
def Access223.trap (x : Access223) (v : View) (info : Bool) (code check : Nat) : Trap :=
  { cause := code, lanes := Mask.ofFn (x.bad v check),
    info0 := if info then BitVec.ofNat 32 (x.addr v (Mask.lowest (Mask.ofFn (x.bad v check)))) else 0,
    info1 := if info then BitVec.ofNat 32 (lvlCode x.lvl) else 0 }

/-- The trap of the first check of R223 that fails. -/
def Access223.fault (x : Access223) (v : View) (info : Bool) : Option Trap :=
  if Mask.ofFn (x.bad v 0) ≠ 0#32 then some (x.trap v info 0x0B 0)
  else if Mask.ofFn (x.bad v 1) ≠ 0#32 then some (x.trap v info 0x0A 1)
  else if Mask.ofFn (x.bad v 2) ≠ 0#32 then some (x.trap v info 0x19 2)
  else none

/-- The model's checks are those of R223 over the bytes that the group holds. -/
theorem memFault_eq {d : Dev} {v : View} (hi : d.issuer = some v) (x : Access223) (hh : x.holds v = v.holdsByte x.lvl) :
    memFault v x.lvl v.act (x.addr v) x.align x.size x.writes = x.fault v true := by
  simp only [memFault, View.rangeOk_space hi, View.replayBars_space, Bool.and_assoc, ← hh]
  rfl

theorem Access223.map_fault (x : Access223) (v : View) :
    (x.fault v true).map (fun t => { t with info0 := 0, info1 := 0 }) = x.fault v false := by
  simp only [Access223.fault, apply_ite (Option.map _)]
  rfl

/-! ### Instructions whose own faults are checks -/

/-- What an instruction raises by itself, once checks 1 to 7 of R100 pass, is what `fault` names. -/
def FaultsBy (i : Instr) (fault : View → Option Trap) : Prop :=
  ∃ body : View → Res, (∀ s v, exec i s = issueX i (accessOf i v) (extraOf i) body s) ∧ ∀ v t, fault v = some t → body v = .trap t

section
variable {i : Instr} {fault : View → Option Trap}

theorem FaultsBy.traps (h : FaultsBy i fault) {s : State} {v : View} (hi : s.dev.issuer = some v) (hr : Ready i v) {t : Trap}
    (ht : fault v.counted = some t) : exec i s = .next (s.withDev (v.traps i t)) := by
  obtain ⟨body, hx, hb⟩ := h
  rw [hx s v]
  simp only [issueX, hi, verdict, ready_firstFailure hr, hb _ _ ht]
  rfl

/-- An instruction that raises the first failing check of its access faults as R223 says. -/
theorem FaultsBy.faults223 (h : FaultsBy i fault) {c : View → Prop} {x : Access223} {info : Bool}
    (hf : ∀ {d v t}, Dev.issuer d = some v → c v → x.fault v info = some t → fault v.counted = some t) : Faults223 i c x info := by
  intro s v hi hr hc level traps
  have hlevel : level = BitVec.ofNat 32 (lvlCode x.lvl) := by cases hx : x.lvl <;> simp only [level, hx] <;> rfl
  have raised {code check : Nat} (ht : x.fault v info = some (x.trap v info code check)) : traps code check := by
    have := h.traps hi hr (hf hi hc ht)
    rwa [Access223.trap, ← hlevel] at this
  exact ⟨fun h0 => raised (if_pos h0), fun h0 h1 => raised ((if_neg (not_not.mpr h0)).trans (if_pos h1)),
    fun h0 h1 h2 => raised ((if_neg (not_not.mpr h0)).trans ((if_neg (not_not.mpr h1)).trans (if_pos h2)))⟩

/-- Most instructions check before all else, and raise nothing but what the checks find. -/
theorem faultsBy_of {rest : View → Res}
    (h : ∀ s v, exec i s = issueX i (accessOf i v) (extraOf i) (fun v => match fault v with | some t => .trap t | none => rest v) s) :
    FaultsBy i fault :=
  ⟨_, h, fun v t ht => by simp only [ht]⟩

/-- MEM instructions whose lanes each make an access of their own. -/
theorem Access223.faults223 (x : Access223) (hh : ∀ v, x.holds v = v.holdsByte x.lvl) (ha : ∀ v, x.addr v.counted = x.addr v)
    (h : FaultsBy i (fun v => memFault v x.lvl v.act (x.addr v) x.align x.size x.writes)) : Faults223 i (fun _ => True) x true :=
  h.faults223 fun {_ v _} hi _ ht => by
    rw [memFault_counted, ha]
    exact (memFault_eq hi x (hh v)).trans ht

end

/-! ### LD, ST, AT, CAS -/

theorem ld_faults (l : Lvl) (sz : MemSize) (d : BitVec 7) (a : Src) (o : BitVec 8) :
    Faults223 (.ld l sz d a o) (fun _ => True) (ldAccess l sz a o false) true :=
  Access223.faults223 _ (fun _ => rfl) (fun v => ea_issued v a o _) (faultsBy_of fun _ _ => rfl)

theorem st_faults (l : Lvl) (sz : MemSize) (d : BitVec 7) (a : Src) (o : BitVec 8) :
    Faults223 (.st l sz d a o) (fun _ => True) (ldAccess l sz a o true) true :=
  Access223.faults223 _ (fun _ => rfl) (fun v => ea_issued v a o _) (faultsBy_of fun _ _ => rfl)

theorem atm_faults (l : Lvl3) (f : AtOp) (d : BitVec 7) (a : Src) (o : BitVec 8) :
    Faults223 (.atm l f d a o) (fun _ => True) (atAccess l a o) true :=
  Access223.faults223 _ (fun _ => rfl) (fun v => ea_issued v a o _) (faultsBy_of fun _ _ => rfl)

theorem cas_faults (l : Lvl3) (d : BitVec 7) (a : Src) (o : BitVec 8) :
    Faults223 (.cas l d a o) (fun _ => True) (atAccess l a o) true :=
  Access223.faults223 _ (fun _ => rfl) (fun v => ea_issued v a o _) (faultsBy_of fun _ _ => rfl)

/-! ### LDLN (R226) -/

/-- The active lanes whose address is not the lowest active lane's. -/
def differingLanes (v : View) (a : Src) (o : BitVec 8) : Mask :=
  Mask.ofFn (fun x => v.act.getLsbD x && decide (ea v.g a o 128 x ≠ ea v.g a o 128 (Mask.lowest v.act)))

theorem differingLanes_counted (v : View) (a : Src) (o : BitVec 8) : differingLanes v.counted a o = differingLanes v a o := by
  simp only [differingLanes, View.counted_g, ea_issued]
  rfl

theorem oneLine_iff (a : Src) (o : BitVec 8) (v : View) : oneLine a o v ↔ differingLanes v a o = 0#32 := by
  rw [oneLine, differingLanes, BitVec.eq_of_getLsbD_eq_iff]
  simp only [Mask.mem_lanes, Mask.getLsbD_ofFn, BitVec.getLsbD_zero]
  grind

/-- The faults of LDLN: NONUNIFORM comes before the checks of its one access. -/
def lineFault (l : Lvl3) (k : KCount) (a : Src) (o : BitVec 8) (v : View) : Option Trap :=
  if differingLanes v a o ≠ 0#32 then
    some { cause := 0x07, lanes := differingLanes v a o, info0 := BitVec.ofNat 32 (ea v.g a o 128 (Mask.lowest (differingLanes v a o))),
           info1 := BitVec.ofNat 32 (lvlCode (lvl3 l)) }
  else memFault v (lvl3 l) v.act (fun _ => ea v.g a o 128 (Mask.lowest v.act)) 128 (128 * KCount.n k) false

theorem ldln_faultsBy (l : Lvl3) (k : KCount) (d : BitVec 7) (a : Src) (o : BitVec 8) :
    FaultsBy (.ldln l k d a o) (lineFault l k a o) := by
  refine ⟨_, fun _ _ => rfl, fun v t ht => ?_⟩
  by_cases h : differingLanes v a o ≠ 0#32
  · rw [lineFault, if_pos h] at ht
    exact (if_pos h).trans (congrArg Res.trap (Option.some.inj ht))
  · rw [lineFault, if_neg h] at ht
    refine (if_neg h).trans ?_
    simp only [ht]

theorem ldln_faults (l : Lvl3) (k : KCount) (d : BitVec 7) (a : Src) (o : BitVec 8) :
    Faults223 (.ldln l k d a o) (oneLine a o) (lineAccess l k a o) true :=
  (ldln_faultsBy l k d a o).faults223 fun {_ v _} hi hc ht => by
    have hd := (oneLine_iff a o v).mp hc
    rw [lineFault, differingLanes_counted, if_neg (not_not.mpr hd), View.counted_g, ea_issued]
    exact (memFault_eq hi (lineAccess l k a o) rfl).trans ht

theorem ldln_nonuniform (l : Lvl3) (k : KCount) (d : BitVec 7) (a : Src) (o : BitVec 8) {s : State} {v : View}
    (hi : s.dev.issuer = some v) (hr : Ready (.ldln l k d a o) v) (hn : ¬ oneLine a o v) :
    exec (.ldln l k d a o) s = .next (s.withDev (v.traps (.ldln l k d a o)
      { cause := 0x07, lanes := differingLanes v a o,
        info0 := BitVec.ofNat 32 (ea v.g a o 128 (Mask.lowest (differingLanes v a o))), info1 := BitVec.ofNat 32 (lvlCode (lvl3 l)) })) :=
  (ldln_faultsBy l k d a o).traps hi hr (by
    rw [lineFault, differingLanes_counted, if_pos (mt (oneLine_iff a o v).mpr hn), View.counted_g, ea_issued])

/-! ### SLD and SST (R175) -/

/-- The model's checks of a uniform access are those of R223, with no info words. -/
theorem sldFault_counted {d : Dev} {v : View} (hi : d.issuer = some v) (l : Lvl3) (a : USrc) (i : BitVec 8) (writes : Bool) :
    sldFault v.counted (lvl3 l) (sldAddr v.counted.g a i) writes = (uniAccess l a i writes).fault v false := by
  have haddr : sldAddr v.counted.g a i = sldAddr v.g a i := by rw [View.counted_g, sldAddr, View.issued_usrc, sldAddr]
  have hm := memFault_eq hi (uniAccess l a i writes) rfl
  rw [← Access223.map_fault, ← hm, haddr]
  rfl

theorem sld_faults (l : Lvl3) (d : BitVec 8) (a : USrc) (i : BitVec 8) :
    Faults223 (.sld l d a i) (fun _ => True) (uniAccess l a i false) false :=
  (faultsBy_of (fault := fun v => sldFault v (lvl3 l) (sldAddr v.g a i) false) fun _ _ => rfl).faults223
    fun hi _ ht => (sldFault_counted hi l a i false).trans ht

theorem sst_faults (l : Lvl3) (d a : USrc) (i : BitVec 8) :
    Faults223 (.sst l d a i) (fun _ => True) (uniAccess l a i true) false :=
  (faultsBy_of (fault := fun v => sldFault v (lvl3 l) (sldAddr v.g a i) true) fun _ _ => rfl).faults223
    fun hi _ ht => (sldFault_counted hi l a i true).trans ht

/-! ### The barrier instructions (R231) -/

/-- The checks of a word that every active lane names: alignment, then whether it exists. -/
def wordFault (v : View) (l : Lvl2) (addr : Nat) (present : Bool) : Option Trap :=
  let raise (code : Nat) : Option Trap :=
    some { cause := code, lanes := v.act, info0 := BitVec.ofNat 32 addr, info1 := BitVec.ofNat 32 (lvlCode (lvl2 l)) }
  if addr % 4 ≠ 0 then raise 0x0B else if present = false then raise 0x0A else none

/-- A check that does not depend on the lane fails in all active lanes or in none. -/
theorem Access223.ofFn_bad {x : Access223} {v : View} {check : Nat} (c : Bool) (h : ∀ l, x.bad v check l = (v.act.getLsbD l && c)) :
    Mask.ofFn (x.bad v check) = if c then v.act else 0#32 := by
  rw [BitVec.eq_of_getLsbD_eq_iff]
  intro l hl
  rw [Mask.getLsbD_ofFn, decide_eq_true hl, Bool.true_and, h]
  cases c <;> simp

/-- A barrier's word, where a byte of its level exists as `holds` says. -/
def wordAccess (l : Lvl2) (a : BitVec 7) (o : BitVec 8) (holds : View → Nat → Bool) : Access223 :=
  { barAccess l a o with holds := holds }

theorem wordAccess_fault {v : View} (hact : v.act ≠ 0#32) (l : Lvl2) (a : BitVec 7) (o : BitVec 8) (holds : View → Nat → Bool) :
    (wordAccess l a o holds).fault v true =
      wordFault v l (ea v.g (.s a) o 4 0) ((List.range 4).all (fun i => holds v (ea v.g (.s a) o 4 0 + i))) := by
  have h0 : Mask.ofFn ((wordAccess l a o holds).bad v 0) = _ := Access223.ofFn_bad (decide (ea v.g (.s a) o 4 0 % 4 ≠ 0)) fun _ => rfl
  have h1 : Mask.ofFn ((wordAccess l a o holds).bad v 1) = _ :=
    Access223.ofFn_bad (!(List.range 4).all (fun i => holds v (ea v.g (.s a) o 4 0 + i))) fun _ => rfl
  have h2 : Mask.ofFn ((wordAccess l a o holds).bad v 2) = _ := Access223.ofFn_bad false fun _ => rfl
  simp only [Access223.fault, Access223.trap, h0, h1, h2, wordFault]
  by_cases ha : ea v.g (.s a) o 4 0 % 4 = 0
  · cases (List.range 4).all (fun i => holds v (ea v.g (.s a) o 4 0 + i)) <;> simp [wordAccess, barAccess, ha, hact]
  · simp [wordAccess, barAccess, ha, hact]

/-- Where no lane is active, no check fails. -/
theorem Access223.fault_idle (x : Access223) {v : View} (hact : v.act = 0#32) (info : Bool) : x.fault v info = none := by
  have hb (check : Nat) : Mask.ofFn (x.bad v check) = 0#32 := Access223.ofFn_bad false (fun l => by simp [Access223.bad, hact])
  simp [Access223.fault, hb]

theorem isWin_core (b pos a : Nat) : isWin (.core b pos) a = decide (0x800000 ≤ a) := rfl

/-- A byte of a barrier's level is one that the group holds, but for the register windows. -/
theorem View.holdsPlain_eq (v : View) (l : Lvl2) (a : Nat) :
    v.holdsPlain (lvl2 l) a = (v.holdsByte (lvl2 l) a && !isWin (v.k.space v.b v.n (lvl2 l) 0) a) := by
  rw [Bool.eq_iff_iff]
  cases l with
  | core => simp [View.holdsPlain, lvl2, Block.space, isWin_core]
  | clu => simp [View.holdsPlain, lvl2, Block.space, isWin]

/-- An aligned word lies within the windows or outside them. -/
theorem isWin_word (s : Space) {a i : Nat} (ha : a % 4 = 0) (h : i < 4) : isWin s (a + i) = isWin s a := by
  cases s with
  | core => rw [isWin_core, isWin_core]; exact decide_eq_decide.mpr (by omega)
  | lane | clu | chip => rfl

theorem View.holdsPlain_word (v : View) (l : Lvl2) {a : Nat} (ha : a % 4 = 0) :
    (List.range 4).all (fun i => v.holdsPlain (lvl2 l) (a + i)) =
      ((List.range 4).all (fun i => v.holdsByte (lvl2 l) (a + i)) && !isWin (v.k.space v.b v.n (lvl2 l) 0) a) := by
  have hw (i : Nat) (h : i < 4) : v.holdsPlain (lvl2 l) (a + i) =
      (v.holdsByte (lvl2 l) (a + i) && !isWin (v.k.space v.b v.n (lvl2 l) 0) a) := by
    rw [View.holdsPlain_eq, isWin_word _ ha h]
  have hr : List.range 4 = [0, 1, 2, 3] := rfl
  simp only [hr, List.all_cons, List.all_nil, hw 0, hw 1, hw 2, hw 3, Nat.reduceLT]
  cases isWin (v.k.space v.b v.n (lvl2 l) 0) a <;> simp

theorem pbarFault_counted (v : View) : pbarFault v.counted = pbarFault v := rfl

/-- The model checks the word with its windows, and then that it lies in none. -/
theorem pbarFault_eq {d : Dev} {v : View} (hi : d.issuer = some v) (hact : v.act ≠ 0#32) (l : Lvl2) (a : BitVec 7) (o : BitVec 8) :
    pbarFault v l (ea v.g (.s a) o 4 0) = (barAccess l a o).fault v true := by
  have hm : memFault v (lvl2 l) v.act (fun _ => ea v.g (.s a) o 4 0) 4 4 false = _ :=
    (memFault_eq hi (wordAccess l a o fun v => v.holdsByte (lvl2 l)) rfl).trans (wordAccess_fault hact l a o _)
  have hx : (barAccess l a o).fault v true = _ := wordAccess_fault hact l a o (fun v => v.holdsPlain (lvl2 l))
  simp only [pbarFault, hm, hx]
  by_cases ha : ea v.g (.s a) o 4 0 % 4 = 0
  · rw [View.holdsPlain_word v l ha]
    cases (List.range 4).all (fun i => v.holdsByte (lvl2 l) (ea v.g (.s a) o 4 0 + i)) <;>
      cases isWin (v.k.space v.b v.n (lvl2 l) 0) (ea v.g (.s a) o 4 0) <;> simp [wordFault, ha, cSCRATCH_BOUNDS]
  · simp [wordFault, ha]

/-- A barrier instruction whose own faults are the checks of its word. -/
theorem barAccess_faults {i : Instr} {l : Lvl2} {a : BitVec 7} {o : BitVec 8}
    (h : FaultsBy i (fun v => pbarFault v l (pbarAddr v.g a o))) : Faults223 i (fun _ => True) (barAccess l a o) true :=
  h.faults223 fun {_ v _} hi _ ht => by
    have hact : v.act ≠ 0#32 := fun h => by simp [Access223.fault_idle _ h] at ht
    rw [pbarFault_counted, View.counted_g, pbarAddr, ea_issued]
    exact (pbarFault_eq hi hact l a o).trans ht

/-- Settles O27: each instruction raises the first failing check of its access before all else, and the model's checks are those of
R223 over the bytes that the group holds. -/
theorem memoryFaults : Obligations.MemoryFaults := by
  unfold Obligations.MemoryFaults
  refine ⟨ld_faults, st_faults, ldln_faults, fun l k d a o s v hi hr hn => ?_, atm_faults, cas_faults, sld_faults, sst_faults,
    fun _ _ _ _ => barAccess_faults (faultsBy_of fun _ _ => rfl), fun _ _ _ => barAccess_faults (faultsBy_of fun _ _ => rfl),
    fun _ _ _ _ => barAccess_faults (faultsBy_of fun _ _ => rfl)⟩
  have h := ldln_nonuniform l k d a o hi hr hn
  cases l <;> exact h

end Sys2Proof.Machine
end
